-- ==== Sys2Proof/Word.lean ====
section
/-!
DEFINITION. The word types of the TH1600 and the plainest arithmetic on them.
-/
namespace Sys2Proof

/-- A byte. -/
abbrev Byte := BitVec 8

/-- A 32-bit word: a register (00, R10), a vector lane (07, R170). -/
abbrev Word := BitVec 32

/-- A 64-bit word: a GTC count, a host bus address, a parameter item's value. -/
abbrev DWord := BitVec 64

/-- A GTC count (11, R278). -/
abbrev Gtc := BitVec 64

end Sys2Proof
end

