-- ==== Sys2Proof/Syntax.lean ====
section
/-!
DEFINITION. The commands of the block: one constructor for each row of spec/opcode_table.json, in the table's order.
A command names the unit it acts on and carries what comes from outside the device with it: an operand field of an
instruction, the value written to a register, the bytes of a packet, a reading of a sensor.
-/
namespace Sys2Proof

/-- One of the sixteen Compute Cores (00, R15). -/
abbrev CoreId := Fin 16

/-- What a scrub or a read of an ECC word meets (08, R193). -/
inductive EccFind where
  | clean   -- no error
  | ce      -- a single-bit error, corrected
  | ue      -- uncorrectable
  deriving DecidableEq, Repr

/-- What a CSI-2 packet header's ECC says (10, R248). -/
inductive HdrEcc where
  | ok | corrected | bad
  deriving DecidableEq, Repr

/-- The memories that 08, R211 and 10, R272 scrub. -/
inductive ScrubMem where
  | asp (c : CoreId)
  | wbf (c : CoreId)
  | bst (c : CoreId)
  | fst
  | intake
  deriving DecidableEq, Repr

/-- A memory whose words carry an error-correcting code (08, Table 8.1; 09, R236; 10, R272; 19, R439). -/
inductive EccMem where
  | asp (c : CoreId)
  | wbf (c : CoreId)
  | bst (c : CoreId)
  | fst
  | dram
  | intake
  | dir   -- the Keyed Feature Store directory
  | mgt   -- the management SRAM
  deriving DecidableEq, Repr

/-- What a fault does to a stored word, a register or a transfer on the die. -/
inductive Strike where
  /-- bits of an ECC word flip: one, which a read corrects, or more, which make it uncorrectable (08, R193) -/
  | upset (m : EccMem) (word : Nat) (double : Bool)
  /-- data that serve no command arrive at a memory with a parity error, and land in a word (15, R384) -/
  | parity (m : EccMem) (word : Nat)
  /-- a register's parity bit does not match any more (15, R385) -/
  | reg (off : BitVec 26)
  /-- the flash begins or ceases to fail (19, R450) -/
  | flash (bad : Bool)
  deriving DecidableEq, Repr

/-- Where a transfer on the die has a parity error: in its data, or in an address or control field (15, R384). -/
inductive NocErr where
  | data | control
  deriving DecidableEq, Repr

/-- What a configuration write leaves in the fields of configuration space beside Bus Master Enable, the power state and the MSI-X control
bits: the BARs, the limits of the device's TLPs, and the reporting of errors (20, R460, R465, R470). -/
structure CfgSpace where
  /-- 64 | 20 R465, Table 20.2 | PRESUMED 0, entry 33 | base of BAR0, BAR1 -/
  bar0 : DWord := 0
  /-- 64 | 20 R465, Table 20.2 | PRESUMED 0, entry 33 | base of BAR2, BAR3 -/
  bar2 : DWord := 0
  /-- 64 | 20 R465, Table 20.2 | PRESUMED 0, entry 33 | base of BAR4, BAR5 -/
  bar4 : DWord := 0
  /-- 3 | 20 R460 | PRESUMED 0 (128 bytes), entry 33 | Max Payload Size, 128 bytes doubled so often -/
  mps : BitVec 3 := 0
  /-- 3 | 20 R460 | PRESUMED 2 (512 bytes), entry 33 | Max Read Request Size, 128 bytes doubled so often -/
  mrrs : BitVec 3 := 2
  /-- 1 | 20 R460 | PRESUMED 0, entry 33 | 10-Bit Tag Requester Enable -/
  tag10 : Bool := false
  /-- 1 | 20 R470 | PRESUMED 0, entry 33 | Unsupported Request Reporting Enable -/
  urEn : Bool := false
  /-- 1 | 20 R470 | PRESUMED 0, entry 33 | Non-Fatal Error Reporting Enable -/
  nonFatalEn : Bool := false
  /-- 1 | 20 R470 | PRESUMED 0, entry 33 | Fatal Error Reporting Enable -/
  fatalEn : Bool := false
  deriving DecidableEq, Repr

/-- The settings of Advanced Error Reporting for an Unsupported Request (20, R460, R470). -/
structure AerSet where
  /-- 1 | 20 R470 | PRESUMED 0, entry 33 | Uncorrectable Error Mask, Unsupported Request -/
  urMask : Bool := false
  /-- 1 | 20 R470 | PRESUMED 0, entry 33 | Uncorrectable Error Severity, Unsupported Request -/
  urFatal : Bool := false
  deriving DecidableEq, Repr

/-- What the Harness ports bring to a start that resumes in a group (18, R434): IDENTs with their port, GROUP_M1 and GROUP_TAG, and the
offsets that SYNCs on the chosen port give one after another. -/
structure StartIn where
  idents : List (Fin 4 × Byte × Word) := []
  offsets : List Word := []
  deriving DecidableEq, Repr

/-- How a transfer on the die ends: as issued, with a parity error (15, R384), or so that a message of one abandoned before comes late:
a reply, or a request (17, R417). -/
inductive XferEnd where
  | whole
  | parity (e : NocErr)
  | late (request : Bool)
  deriving DecidableEq, Repr

/-- A host request through BAR2 or BAR4 (20, R468, R469): a read of a length, or a write of bytes with their enables. -/
inductive BarReq where
  | read (addr : Nat) (len : Nat)
  | write (addr : Nat) (data : List (Byte × Bool))
  deriving DecidableEq, Repr

/-- What the data link layer or a TLP shows (20, R463). -/
inductive TlpKind where
  | replayed                    -- a TLP was replayed
  | poisonedWrite               -- a host write with EP set
  | badCompletion (ring : Fin 8) -- the completion of a submission entry read carries EP or a bad status
  deriving DecidableEq, Repr

/-- A bit of an accumulator of an array that a fault changes while its tile drains (03, R88). -/
structure Upset where
  array : Fin 4
  row : Fin 64
  col : Fin 64
  bit : Fin 40
  deriving DecidableEq, Repr

/-- The fields of an MMA (07, Table 7.7). -/
structure MmaF where
  amask : BitVec 4
  bank : Bool
  init : BitVec 2
  last : Bool
  rel : Bool
  aob : BitVec 2
  nM1 : BitVec 6
  afmt : BitVec 2
  wfmt : BitVec 2
  mode : BitVec 2
  waddr : BitVec 13
  xi : BitVec 4
  otb : Bool
  deriving DecidableEq, Repr

/-- The fields of an LD or ST (07, Table 7.10). -/
structure LdF where
  sdesc : BitVec 13
  ddesc : BitVec 13
  token : BitVec 4
  scnt : BitVec 3
  scen : Bool
  dcnt : BitVec 3
  dcen : Bool
  deriving DecidableEq, Repr

/-- The fields of an RQ (07, Table 7.5). -/
structure RqF where
  vd : BitVec 5
  array : BitVec 2
  src : BitVec 2
  rg : BitVec 6
  narrow : Bool
  pset : BitVec 4
  cnt : BitVec 3
  cen : Bool
  deriving DecidableEq, Repr

/-- The fields of a VMOVACC (07, R177). -/
structure MovAccF where
  array : BitVec 2
  src : BitVec 2
  rg : BitVec 6
  narrow : Bool
  addr : BitVec 15
  deriving DecidableEq, Repr

/-- The fields of a VLD or VST (07, R172). -/
structure VmemF where
  reg : BitVec 5
  fmt : BitVec 3
  addr : BitVec 15
  cnt : BitVec 3
  cen : Bool
  deriving DecidableEq, Repr

/-- The commands. In a vector instruction `d` says that the two Vector Unit copies differ on it (15, R370). -/
inductive Instr where
  /-- `up`: what faults have done by then. -/
  | tickStart (up : List Strike)
  | swatchStart (c : CoreId)
  /-- `found`: expected detections of its check steps, as R379 numbers them; `extra`: its unexpected disagreement events -/
  | swatchEnd (c : CoreId) (found : BitVec 11) (extra : Nat)
  | swatchTimeout (c : CoreId)
  | stageOpen (st : Fin 16)
  | stageClose (st : Fin 16)
  | intakeClose
  | settlePoint (p : Fin 4)
  | submissionFetch (r : Fin 8)
  | turnEnd (p : Fin 4)
  | beImageCopy (r : Fin 8)
  | commandDispatch (c : CoreId)
  | gracePoint (p : Fin 4)
  | cutOff (p : Fin 4)
  /-- `up`: what faults have done by then. -/
  | bundleDispatch (c : CoreId) (up : List Strike)
  | commandComplete (c : CoreId)
  | cmdOverrun (c : CoreId)
  | syncStall (c : CoreId)
  | coreIdleGate (c : CoreId)
  | nop (c : CoreId)
  | cset (c : CoreId) (k : BitVec 3) (imm : BitVec 23)
  | loop (c : CoreId) (k : BitVec 3) (target : BitVec 13)
  | cmpi (c : CoreId) (k : BitVec 3) (pf : BitVec 2) (cond : BitVec 3) (imm : BitVec 18)
  | cmpc (c : CoreId) (ka : BitVec 3) (pf : BitVec 2) (cond : BitVec 3) (kb : BitVec 3)
  | br (c : CoreId) (when_ : BitVec 2) (pf : BitVec 2) (target : BitVec 13)
  | vadd (c : CoreId) (d : Bool) (vd va vb : BitVec 5)
  | vsub (c : CoreId) (d : Bool) (vd va vb : BitVec 5)
  | vmul (c : CoreId) (d : Bool) (vd va vb : BitVec 5)
  | vand (c : CoreId) (d : Bool) (vd va vb : BitVec 5)
  | vor (c : CoreId) (d : Bool) (vd va vb : BitVec 5)
  | vxor (c : CoreId) (d : Bool) (vd va vb : BitVec 5)
  | vmin (c : CoreId) (d : Bool) (vd va vb : BitVec 5)
  | vmax (c : CoreId) (d : Bool) (vd va vb : BitVec 5)
  | vcmpeq (c : CoreId) (d : Bool) (vd va vb : BitVec 5)
  | vcmplt (c : CoreId) (d : Bool) (vd va vb : BitVec 5)
  | vsel (c : CoreId) (d : Bool) (vd va vb vc : BitVec 5)
  | vshl (c : CoreId) (d : Bool) (vd va vb : BitVec 5)
  | vsra (c : CoreId) (d : Bool) (vd va vb : BitVec 5)
  | vsrl (c : CoreId) (d : Bool) (vd va vb : BitVec 5)
  | vaddi (c : CoreId) (d : Bool) (vd va : BitVec 5) (imm : BitVec 16)
  | vshli (c : CoreId) (d : Bool) (vd va : BitVec 5) (imm : BitVec 16)
  | vsrai (c : CoreId) (d : Bool) (vd va : BitVec 5) (imm : BitVec 16)
  | vrshri (c : CoreId) (d : Bool) (vd va : BitVec 5) (imm : BitVec 16)
  | vmovi (c : CoreId) (d : Bool) (vd : BitVec 5) (imm : BitVec 16)
  | vmovhi (c : CoreId) (d : Bool) (vd va : BitVec 5) (imm : BitVec 16)
  | vbcast (c : CoreId) (d : Bool) (vd va : BitVec 5) (imm : BitVec 16)
  | vmov (c : CoreId) (d : Bool) (vd va : BitVec 5)
  | vredi (c : CoreId) (d : Bool) (vd va : BitVec 5)
  | vredf (c : CoreId) (d : Bool) (vd va : BitVec 5)
  | fadd (c : CoreId) (d : Bool) (vd va vb : BitVec 5)
  | fsub (c : CoreId) (d : Bool) (vd va vb : BitVec 5)
  | fmul (c : CoreId) (d : Bool) (vd va vb : BitVec 5)
  | fma (c : CoreId) (d : Bool) (vd va vb vc : BitVec 5)
  | fmin (c : CoreId) (d : Bool) (vd va vb : BitVec 5)
  | fmax (c : CoreId) (d : Bool) (vd va vb : BitVec 5)
  | itof (c : CoreId) (d : Bool) (vd va : BitVec 5)
  | ftoi (c : CoreId) (d : Bool) (vd va : BitVec 5)
  | fcmplt (c : CoreId) (d : Bool) (vd va vb : BitVec 5)
  | fcmpeq (c : CoreId) (d : Bool) (vd va vb : BitVec 5)
  | vtab (c : CoreId) (d : Bool) (vd va : BitVec 5) (table : BitVec 16)
  | vexp2 (c : CoreId) (d : Bool) (vd va : BitVec 5)
  | vtld (c : CoreId) (d : Bool) (k : BitVec 3) (poff : BitVec 13)
  | vld (c : CoreId) (d : Bool) (f : VmemF)
  | vst (c : CoreId) (d : Bool) (f : VmemF)
  | vpool (c : CoreId) (d : Bool) (vd : BitVec 5) (geom : BitVec 3) (base : BitVec 15) (pcnt bcnt : BitVec 3)
  | rq (c : CoreId) (d : Bool) (f : RqF)
  | vmovacc (c : CoreId) (d : Bool) (f : MovAccF)
  /-- `up`: accumulator bits that a fault changes in the tiles this chain drains; `yd`: the two Transform Stage copies
  differ at Y. -/
  | mma (c : CoreId) (f : MmaF) (up : List Upset) (yd : Bool)
  | replayDispatch (c : CoreId)
  | ld (c : CoreId) (f : LdF)
  | st (c : CoreId) (f : LdF)
  | cgather (c : CoreId) (grec : BitVec 13) (geom : BitVec 3) (aob : BitVec 2) (pcnt : BitVec 3) (token : BitVec 4)
  /-- `vd`: the two Transform Stage copies differ at V. -/
  | wxload (c : CoreId) (vd : Bool) (grec : BitVec 13) (geom : BitVec 3) (pcnt : BitVec 3) (token : BitVec 4)
  | ldacc (c : CoreId) (addr : BitVec 15) (amask : BitVec 4) (bank tgt otb : Bool) (token : BitVec 4)
  | sample (c : CoreId) (req : BitVec 3) (token : BitVec 4)
  | kgather (c : CoreId) (kdesc : BitVec 13) (token : BitVec 4)
  | kscatter (c : CoreId) (kdesc : BitVec 13) (token : BitVec 4)
  | transferComplete (c : CoreId) (store : Bool) (how : XferEnd)
  /-- `who`: the core that runs the command, or none for a peer's request -/
  | drcLatMiss (who : Option CoreId) (store : Bool) (delay : Word)
  | wait (c : CoreId) (token : BitVec 4) (n : BitVec 8) (gate : BitVec 4)
  | signal (c : CoreId) (token : BitVec 4) (after : BitVec 4)
  | barrier (c : CoreId) (mask : BitVec 4)
  | semAcq (c : CoreId) (sem : BitVec 8) (n : BitVec 8) (gate : BitVec 4)
  | semGrant (sem : BitVec 8)
  | semRel (c : CoreId) (sem : BitVec 8) (n : BitVec 8) (after : BitVec 4)
  | arrive (c : CoreId) (ctr : BitVec 8) (after : BitVec 4)
  | await (c : CoreId) (ctr : BitVec 8) (n : BitVec 5) (gate : BitVec 4)
  | sampleRequestStart (u : Fin 4)
  /-- `diff`: the sample position at which the two copies differ, if they do (15, R383). -/
  | sampleRequestDone (u : Fin 4) (diff : Option Nat)
  | rsmpReservationPause (u : Fin 4)
  | keyedRequestStart
  | keyedRequestDone
  | frameStart (rx : Fin 8) (vc : Fin 4) (vcx : Bool) (hdr : HdrEcc) (frameNo : BitVec 16)
  | frameEnd (rx : Fin 8) (vc : Fin 4) (vcx : Bool) (hdr : HdrEcc)
  /-- `behind`: the tannery's port has fallen so far behind that the line buffer overflows (10, R273). -/
  | csiLongPacket (rx : Fin 8) (vc : Fin 4) (vcx : Bool) (hdr : HdrEcc) (dt : BitVec 6) (payload : List Byte)
      (crcOk : Bool) (behind : Bool)
  /-- The bytes from the destination address to the end of the payload; `sfd`: nanoseconds since the start frame
  delimiter; `behind`: the Ethernet buffer overflows (10, R273). -/
  | ethernetFrameReceive (mac : Fin 4) (frame : List Byte) (fcsOk : Bool) (sfd : BitVec 32) (behind : Bool)
  | sweepClose (mac : Fin 4)
  | sweepComplete (mac : Fin 4)
  | tileDescriptorFetch
  | tileDecodeDone
  | decodeBudgetExceeded
  | priorInsertDone
  | sampleComplete (stream : Fin 48)
  | droopEvent (detector : Fin 17)
  | ppsInEdge
  | syncInEdge
  | holdoverTimeout
  | ppsOutPulse
  | syncOutPulse
  | timeOffsetInWrite (e : Word)
  | timeStepWrite (hi : Bool) (v : Word)
  | timeCtrlWrite (v : Word)
  | timeTrimWrite (v : Word)
  | load
  | patternLoaded
  | patternLaunch
  | unload
  | flush
  | rwsFieldWrite (off : BitVec 26) (v : Word)
  | ringCfgWrite (off : BitVec 26) (v : Word)
  | subCfgWrite (off : BitVec 26) (v : Word)
  | registerWrite (mgt : Bool) (off : BitVec 26) (vs : List Word) (full : Bool)
  | loRegisterRead (mgt : Bool) (off : BitVec 26) (n : Nat) (full : Bool)
  | fltStatWrite (b : Fin 36) (hi : Bool) (v : Word)
  | fltForceWrite (b : Fin 36) (hi : Bool) (v : Word)
  | fltSevWrite (b : Fin 36) (w : Fin 7) (v : Word)
  | safetyInjArm (c : CoreId) (v : Word)
  | druHbWrite (v : Word)
  | heartbeatTimerExpiry
  | druRestartWrite (v : Word)
  | domainRestartRequest (d : Fin 25)
  | drainTimeout (d : Fin 25)
  | restartBoundExpiry (d : Fin 25)
  | scrubCycle (m : ScrubMem) (bank : Nat) (found : EccFind)
  | dramPatrolScrub (ch : Fin 8) (found : EccFind)
  /-- `bad`: a register whose parity bit does not match. -/
  | cfgParitySweep (bad : Bool)
  /-- `upset`: the BAR0 offset of a Pattern-mirror register that a hardware fault has changed. -/
  | cfgReadback (upset : Option (BitVec 26))
  | voltageMonitorTrip (m : Fin 12) (mv : BitVec 16)
  /-- `good`: the clocks are within 1 % again -/
  | clockMonitorTrip (good : Bool)
  | temperatureSample (vals : List (BitVec 16))
  /-- `locked`: the PLL has locked again -/
  | pllUnlock (locked : Bool)
  | linkTrained (port : Fin 4) (inv : BitVec 8) (reversed : Bool)
  | trainingTimeout (port : Fin 4)
  | flitReceive (port : Fin 4) (flit : List Byte)
  | flitReplayTimeout (port : Fin 4)
  | rdReq (port : Fin 4) (hdr : BitVec 128)
  | wrReq (port : Fin 4) (hdr : BitVec 128) (data : List Byte)
  | rdRsp (port : Fin 4) (hdr : BitVec 128) (data : List Byte)
  | wrAck (port : Fin 4) (hdr : BitVec 128)
  | deny (port : Fin 4) (hdr : BitVec 128)
  | remoteLatMiss (dev : Fin 8) (rid : BitVec 16)
  | remoteRequestAbandon (dev : Fin 8) (rid : BitVec 16)
  | sync (port : Fin 4) (ttx echoTx echoRx : Word) (half : Bool)
  | syncSend
  | skip (port : Fin 4)
  | ident (port : Fin 4) (dev gm1 farPort : Byte) (tag : Word)
  | identSend
  | sideAck (port : Fin 4) (origin : Fin 8) (mseq : BitVec 16)
  | sideResendTimeout (port : Fin 4)
  | domainFence (port : Fin 4) (body : BitVec 128)
  | domainUp (port : Fin 4) (body : BitVec 128)
  | partVoid (port : Fin 4) (body : BitVec 128)
  | deviceSafe (port : Fin 4) (body : BitVec 128)
  | deviceReady (port : Fin 4) (body : BitVec 128)
  /-- `noc`: the request or its data have a parity error on the die (15, R384). -/
  | bar2Access (r : BarReq) (noc : Option NocErr)
  | bar4Access (r : BarReq) (noc : Option NocErr)
  | hotReset
  | dataLinkDown
  | dataLinkUp (speed : BitVec 4) (width : BitVec 6)
  | pciCompletionTimeout (ring : Fin 8) (readAt : Nat)
  | tlpReceive (k : TlpKind)
  | ringVectorDeferralEnd (ring : Fin 10)
  | getInfo
  | sensors
  | lifetimeRead
  | retainedRead
  | attemptsClear
  | fwWrite
  | fwVerify
  | fwActivate
  | fwConfirm
  | svnCommit
  | lcAdvance
  | keyProgram
  | groupMap
  | ptpStatus
  | flashRead
  | mailboxUnknown
  | lifetimeCountUpdate
  | lifetimeFlashWrite
  | resetNAssert
  | resetNShortPulse
  | resetNRelease (hold : Word) (group : StartIn)
  | powerOnDetectorAssert
  /-- `out`: the voltage monitors that read outside their range at the release (21, R485) -/
  | powerOnDetectorRelease (dram32 : Bool) (out : List (Fin 12))
  | xtalLoss
  | startLimitExpiry
  | pinHoldRel
  | directoryWalkEnd
  | xtalReturn (group : StartIn)
  | seqLockstepDiff (c : CoreId)
  | mgtLockstepDiff
  | mgtSramScrub (word : Nat) (found : EccFind)
  | tckEdge (rising tms tdi trstN : Bool)
  | farEndReset (port : Fin 4)
  | configurationWrite (bme d3hot msixEn msixMask : Bool) (cfg : CfgSpace) (aer : AerSet) (clearUr : Bool)
  deriving DecidableEq, Repr

end Sys2Proof
end

