-- ==== Sys2Proof/WellFormed.lean ====
section
/-!
DEFINITION. Which commands are well formed: the operand bounds that the types of the operands do not say.
-/
namespace Sys2Proof

/-- Banks of a scrubbed memory (08, Table 8.1); the intake buffers are walked as one (10, R272, which gives no banks). -/
def ScrubMem.banks : ScrubMem → Nat
  | .asp _ => 8
  | .wbf _ => 16
  | .bst _ => 2
  | .fst => 16
  | .intake => 1

/-- A command that can come from outside: a flit has 256 bytes (14, R346), a message with data LEN_M1 + 1 of them (14, R350), a
temperature reading 24 values (15, R386), a scrub names a bank that exists (08, R211), a scrub of the management SRAM one of its
131,072 words (19, R439). -/
def Instr.wellFormed (i : Instr) : Bool :=
  match i with
  | .flitReceive _ flit => flit.length == 256
  | .wrReq _ hdr data => data.length == hdr.toNat / 2 ^ 40 % 256 + 1
  | .rdRsp _ hdr data => data.length == hdr.toNat / 2 ^ 40 % 256 + 1
  | .temperatureSample vals => vals.length == 24
  | .scrubCycle m bank _ => decide (bank < m.banks)
  | .mgtSramScrub word _ => decide (word < 131072)
  | _ => true

end Sys2Proof
end

