-- ==== Sys2Proof/Config.lean ====
section
/-!
DEFINITION. What an implementation fixes, and the values the spec leaves open: each is a constant without a body, so
that nothing can be proved of which value it is.
-/
namespace Sys2Proof.Config

/-- The byte at an address of a memory whose content 08, R195 calls unspecified: the Activation Scratchpad and the
streamed Weight Buffer blocks when a command's first bundle is dispatched. The tag tells one such moment from another. -/
opaque freeByte : Nat → Nat → Byte

/-- The byte the swatch of a core leaves at an offset of its Activation Scratchpad (15, R378 gives the fixed data only
by reference to a store inside the core). -/
opaque swatchByte : Nat → Nat → Byte

/-- A byte of a keyed request's output that 09, R501 leaves unspecified when the request is stopped. -/
opaque stoppedByte : Nat → Nat → Byte

/-- CAPTURE of a lidar sweep that accepted no packet, and the frame number of a replayed tile's camera sample: 10, Tables 10.2
and 10.4 give neither. The argument is a number that no later sample repeats. -/
opaque freeStamp : Nat → DWord

/-- Coordinate of a lidar point whose scaled value lies outside INT32: 10, R261 holds it as INT32, no rule says how it gets there. -/
opaque wideCoord : Int → BitVec 32

/-- A byte of the output region of a stream whose sample is in the drop set (10, R247). -/
opaque droppedByte : Nat → Nat → Byte

/-- The content of a bank, Drain Buffer or operand buffer entry that the swatch has used, in the same sense. -/
opaque swatchAcc : Nat → Nat → BitVec 40

/-- The grandmaster identity and the steps removed that PTP_STATUS reports (19, Table 19.6): the protocol's own data,
which no rule derives from the state. The argument is a number that a later report does not repeat. -/
opaque ptpGrandmaster : Nat → DWord

/-- Steps removed, as `ptpGrandmaster`. -/
opaque ptpSteps : Nat → BitVec 8

/-- Hops from one device of a group to another where TOPO says "other" (14, R355 and Table 14.6 give no count). -/
opaque otherHops : Nat → Nat → Nat

/-- The training results the management firmware keeps for DRAM (18, Table 18.3), byte by byte. -/
opaque trainingByte : Nat → Byte

/-- The length of the body of the firmware image that the part is delivered with, less 1, modulo the largest (19, Table 19.5). -/
opaque deliveredLen : Nat

/-- FW_VER of the firmware image that the part is delivered with (19, Table 19.5 gives the field, no rule a value). -/
opaque deliveredVer : Word

/-- The AVS step of a tick (11, R282: the device may move the set point by at most one step): 0 down, 1 none, 2 up. The argument is
a number that a later tick does not repeat. -/
opaque avsStep : Nat → Fin 3

/-- What the boot ROM or the management firmware drives on a pin that it configures, none where it leaves the pin undriven (18, Table
18.1). The first argument is a number that a later look does not repeat. -/
opaque pinDrive : Nat → Nat → Option Bool

/-- Level at a signal pin that its board sets, as the boundary register captures it (19, R458). The first argument is a number
that a later capture does not repeat. -/
opaque pinLevel : Nat → Nat → Bool

end Sys2Proof.Config
end

