-- ==== Sys2Proof/Machine/Bits.lean ====
section
/-!
DEFINITION. Bit fields, byte order, sign extension, saturation and the two roundings that every chapter uses (00, R7, R8;
02, R44; 05, R128), and the list helpers of the model.
-/
namespace Sys2Proof.Machine

/-- Bits [lo + len − 1 : lo] of a number (00, R7). -/
def bitsAt (x lo len : Nat) : Nat := (x >>> lo) % 2 ^ len

/-- Bits [hi:lo] of a word, as a number. -/
def fld {w : Nat} (x : BitVec w) (hi lo : Nat) : Nat := bitsAt x.toNat lo (hi + 1 - lo)

/-- Bit i of a word. -/
def bitAt {w : Nat} (x : BitVec w) (i : Nat) : Bool := x.getLsbD i

/-- `x` with bits [lo + len − 1 : lo] replaced by `v`. -/
def putBits {w : Nat} (x : BitVec w) (lo len v : Nat) : BitVec w :=
  let mask : BitVec w := BitVec.ofNat w ((2 ^ len - 1) <<< lo)
  (x &&& ~~~mask) ||| (BitVec.ofNat w ((v % 2 ^ len) <<< lo))

/-- `x` with bit `i` set to `b`. -/
def putBit {w : Nat} (x : BitVec w) (i : Nat) (b : Bool) : BitVec w := putBits x i 1 (if b then 1 else 0)

/-- 1 or 0. -/
def b2n (b : Bool) : Nat := if b then 1 else 0

/-- The two's complement value of the low `w` bits of a number (00, R7). -/
def signedOf (w x : Nat) : Int :=
  let y := x % 2 ^ w
  if y < 2 ^ (w - 1) then (y : Int) else (y : Int) - (2 ^ w : Nat)

/-- The low `w` bits of an integer in two's complement. -/
def wrapTo (w : Nat) (v : Int) : Nat := (v % (2 ^ w : Nat)).toNat

/-- The `k` little-endian bytes of a number (00, R8). -/
def leBytes (k n : Nat) : List Byte := (List.range k).map fun i => BitVec.ofNat 8 (n >>> (8 * i))

/-- The number that little-endian bytes spell. -/
def ofLe (bs : List Byte) : Nat := bs.foldr (fun b acc => b.toNat + 256 * acc) 0

/-- The number that big-endian bytes spell (00, R8: structures of a published standard). -/
def ofBe (bs : List Byte) : Nat := bs.foldl (fun acc b => 256 * acc + b.toNat) 0

/-- `len` bytes from position `i` of a byte string; absent bytes are not returned. -/
def slice (bs : List Byte) (i len : Nat) : List Byte := (bs.drop i).take len

/-- Little-endian number in bytes i to i + len − 1. -/
def leAt (bs : List Byte) (i len : Nat) : Nat := ofLe (slice bs i len)

/-- Big-endian number in bytes i to i + len − 1. -/
def beAt (bs : List Byte) (i len : Nat) : Nat := ofBe (slice bs i len)

/-- Integer division that rounds to the nearest value, ties to even, for a positive divisor (05, R128). -/
def rneDiv (a : Int) (b : Nat) : Int :=
  let q := a / (b : Int)
  let r := (a % (b : Int)).toNat
  if 2 * r > b ∨ (2 * r = b ∧ q % 2 ≠ 0) then q + 1 else q

/-- Rounding right shift, ties to even (02, R44). -/
def rneShift (v : Int) (s : Nat) : Int := rneDiv v (2 ^ s)

/-- `v` held between `lo` and `hi`. -/
def clampI (v lo hi : Int) : Int := max lo (min v hi)

/-- Quotient rounded up. -/
def ceilDiv (a b : Nat) : Nat := (a + b - 1) / b

/-- A count that stays at its largest value. -/
def satAdd (lim a b : Nat) : Nat := min lim (a + b)

/-- Element `i` of a list changed by `f`; nothing happens past its end. -/
def upd {α : Type} (l : List α) (i : Nat) (f : α → α) : List α := l.modify i f

/-- Element `i` set to `x`, the list being extended with `d` as far as that takes. -/
def putAt {α : Type} (d : α) (l : List α) (i : Nat) (x : α) : List α :=
  if i < l.length then l.set i x else l ++ List.replicate (i - l.length) d ++ [x]

/-- Entry of an association list. -/
def assoc {α : Type} (l : List (Nat × α)) (k : Nat) : Option α := (l.find? fun e => e.1 == k).map Prod.snd

/-- Entry of an association list replaced or added. -/
def assocPut {α : Type} (l : List (Nat × α)) (k : Nat) (v : α) : List (Nat × α) :=
  (k, v) :: l.filter fun e => e.1 != k

/-- Sum of a list of numbers. -/
def sumN (l : List Nat) : Nat := l.foldl (· + ·) 0

/-- Largest element, 0 of an empty list. -/
def maxN (l : List Nat) : Nat := l.foldl max 0

/-- The element appended if the list does not hold it. -/
def addNew {α : Type} [BEq α] (l : List α) (x : α) : List α := if l.contains x then l else l ++ [x]

@[simp] theorem leBytes_length (k n : Nat) : (leBytes k n).length = k := by simp [leBytes]

@[simp] theorem rneDiv_one (a : Int) : rneDiv a 1 = a := by
  simp [rneDiv, Int.emod_one]

end Sys2Proof.Machine
end

