-- ==== Sys2Proof/Machine/Catalog.lean ====
section
/-!
DEFINITION. The fault source catalogue (16, Table 16.9): class, default severity, device floor and clearing of every
source, by block and source number, and the numbers of the sources that other files fire by name.
-/
namespace Sys2Proof.Machine

/-- What the catalogue says of one source. -/
structure SrcInfo where
  cls : Nat       -- Table 16.6
  dflt : Nat      -- default severity
  floor : Nat     -- device floor
  level : Bool    -- level-type
  deriving DecidableEq, Repr

def edgeSrc (cls dflt floor : Nat) : SrcInfo := ⟨cls, dflt, floor, false⟩
def levelSrc (cls dflt floor : Nat) : SrcInfo := ⟨cls, dflt, floor, true⟩

def catGlb : List SrcInfo := [edgeSrc 7 1 0, edgeSrc 7 1 0, edgeSrc 0 4 4, edgeSrc 2 1 1, edgeSrc 7 4 4]
def catTime : List SrcInfo :=
  [levelSrc 3 4 4, edgeSrc 3 1 0, levelSrc 3 1 0, edgeSrc 3 0 0, levelSrc 3 1 1, edgeSrc 3 1 1, edgeSrc 2 1 0]
def catDisp : List SrcInfo :=
  [edgeSrc 7 1 0, edgeSrc 7 1 0, edgeSrc 7 1 0, edgeSrc 7 1 0, edgeSrc 2 1 0, edgeSrc 3 0 0, edgeSrc 2 1 0,
   edgeSrc 3 2 2, edgeSrc 3 2 2]
def catDru : List SrcInfo := [edgeSrc 2 4 4, edgeSrc 2 4 4, edgeSrc 2 0 0, edgeSrc 2 4 4]
def catSiu : List SrcInfo :=
  [edgeSrc 5 0 0, edgeSrc 5 0 0, edgeSrc 4 0 0, edgeSrc 4 1 0, edgeSrc 5 1 0, edgeSrc 4 0 0, edgeSrc 5 1 0,
   edgeSrc 5 0 0, edgeSrc 5 1 0, edgeSrc 5 1 0, edgeSrc 5 1 0, edgeSrc 7 1 0, edgeSrc 2 1 0, edgeSrc 0 0 0,
   edgeSrc 0 1 1]
def catFst : List SrcInfo := [edgeSrc 0 0 0, edgeSrc 0 2 2, edgeSrc 0 1 1, edgeSrc 7 1 0]
def catKfs : List SrcInfo := [edgeSrc 0 0 0, edgeSrc 0 1 1, edgeSrc 2 0 0, edgeSrc 2 0 0]
def catDrc : List SrcInfo := [edgeSrc 0 0 0, edgeSrc 0 2 2, edgeSrc 0 1 1, edgeSrc 7 1 0, edgeSrc 3 2 2]
def catHrn : List SrcInfo :=
  [edgeSrc 4 0 0, edgeSrc 4 1 0, levelSrc 4 3 2, edgeSrc 3 2 2, edgeSrc 2 1 0, edgeSrc 4 0 0, edgeSrc 7 1 0,
   levelSrc 7 2 2, edgeSrc 4 1 1]
def catPci : List SrcInfo := [edgeSrc 7 1 0, edgeSrc 4 0 0, levelSrc 4 1 1, edgeSrc 0 1 1, edgeSrc 7 0 0]
def catMgt : List SrcInfo :=
  [edgeSrc 2 4 4, levelSrc 6 4 4, levelSrc 6 4 4, levelSrc 6 1 1, levelSrc 6 4 4, edgeSrc 7 4 3, edgeSrc 0 0 0,
   edgeSrc 0 4 4, edgeSrc 0 1 0]
def catRst : List SrcInfo := [edgeSrc 2 0 0, edgeSrc 2 1 0]
def catObs : List SrcInfo := [edgeSrc 2 0 0]
def catRsmp : List SrcInfo := [edgeSrc 2 1 0, edgeSrc 1 2 2]
def catCore : List SrcInfo :=
  [edgeSrc 0 0 0, edgeSrc 0 2 2, edgeSrc 0 3 3, edgeSrc 0 3 3, edgeSrc 1 1 1, edgeSrc 1 3 2, edgeSrc 1 1 1,
   edgeSrc 1 2 2, edgeSrc 1 3 3, edgeSrc 1 1 0, edgeSrc 2 3 3, edgeSrc 2 1 0, edgeSrc 3 1 1, edgeSrc 3 2 1,
   edgeSrc 4 2 2, edgeSrc 7 1 0, edgeSrc 7 1 0, edgeSrc 7 1 0, edgeSrc 7 1 0, edgeSrc 7 1 0, edgeSrc 7 1 0]

/-- The sources of a block by its number (Table 16.1). -/
def catalog (b : Nat) : List SrcInfo :=
  match b with
  | 0 => catGlb | 1 => catTime | 2 => catDisp | 3 => catDru | 4 => catSiu | 5 => catFst | 6 => catKfs | 7 => catDrc
  | 8 => catHrn | 9 => catHrn | 10 => catHrn | 11 => catHrn | 12 => catPci | 13 => catMgt | 14 => catRst | 15 => catObs
  | 16 => catRsmp | 17 => catRsmp | 18 => catRsmp | 19 => catRsmp
  | n => if n < 36 then catCore else []

/-- The catalogue's row for source `src` of block `b`, if it lists one (R408). -/
def srcInfo (b src : Nat) : Option SrcInfo := (catalog b)[src]?

/-- Whether the slot is in use: each source's own number, and slot 63 of a core (R395). -/
def slotUsed (b slot : Nat) : Bool :=
  decide (slot < (catalog b).length) || (decide (20 ≤ b) && decide (b < 36) && decide (slot = 63))

/-- Default level of a severity slot (R395, Table 16.9). -/
def defaultSev (b slot : Nat) : Nat :=
  if 20 ≤ b ∧ b < 36 ∧ slot = 63 then 1 else ((srcInfo b slot).map SrcInfo.dflt).getD 0

/-- Device floor of a severity slot. -/
def defaultFloor (b slot : Nat) : Nat :=
  if 20 ≤ b ∧ b < 36 ∧ slot = 63 then 0 else ((srcInfo b slot).map SrcInfo.floor).getD 0

/-- Restart domain of a block (Table 16.1, domain numbers of Table 17.1). -/
def blockDomain (b : Nat) : Option Nat :=
  if b = 4 then some 17
  else if b = 5 ∨ b = 6 ∨ (16 ≤ b ∧ b ≤ 19) then some 18
  else if b = 7 then some 19
  else if 8 ≤ b ∧ b ≤ 11 then some (20 + (b - 8))
  else if b = 12 then some 24
  else if 20 ≤ b ∧ b ≤ 35 then some (1 + (b - 20))
  else none

/-! Block numbers (Table 16.1). -/
def bGLB : Nat := 0
def bTIME : Nat := 1
def bDISP : Nat := 2
def bDRU : Nat := 3
def bSIU : Nat := 4
def bFST : Nat := 5
def bKFS : Nat := 6
def bDRC : Nat := 7
def bHRN (n : Nat) : Nat := 8 + n
def bPCI : Nat := 12
def bMGT : Nat := 13
def bRST : Nat := 14
def bOBS : Nat := 15
def bRSMP (n : Nat) : Nat := 16 + n
def bCC (n : Nat) : Nat := 20 + n

/-! Reset domains (Table 17.1). -/
def dCore (n : Nat) : Nat := 1 + n
def dSIU : Nat := 17
def dFST : Nat := 18
def dDRC : Nat := 19
def dHRN (n : Nat) : Nat := 20 + n
def dPCI : Nat := 24

end Sys2Proof.Machine
end

