-- ==== Sys2Proof/Machine/State.lean ====
section
/-!
DEFINITION. The state of the device: every register, buffer, queue, counter, mode and pin that the spec gives it, and
the queue of commands that wait. Each field's docstring holds four parts between bars: the width, the rule that names
it, the value at reset, and what it holds.
-/
namespace Sys2Proof.Machine

/-- Why the machine stops. -/
inductive Fault where
  /-- An operand of a command lies outside what its rule fixes (a flit of other than 256 bytes, message data of other than
  LEN_M1 + 1 bytes, other than 24 sensor readings, an SRAM word that does not exist): `execFlitReceive`, `execWrReq`, `execRdRsp`,
  `execTemperatureSample`, `execMgtSramScrub`. Safe: no such event exists (14, R346, R350; 15, R386; 19, R439). -/
  | illFormed (what : String)
  deriving DecidableEq, Repr

/-- Why a command has no meaning here. -/
inductive Refusal where
  /-- An arm of `exec` that has no meaning yet, by its mnemonic. Safe: nothing is claimed of it. -/
  | notModelled (mnemonic : String)
  deriving DecidableEq, Repr

/-! ### Memories -/

/-- What an address that a memory does not list reads as. -/
inductive Fill where
  | byte (b : Byte)        -- one fixed byte
  | free (tag : Nat)       -- unspecified (R195): the free value `Config.freeByte tag address`
  | swatch (core : Nat)    -- what the swatch of that core wrote (R379): `Config.swatchByte core address`
  deriving DecidableEq, Repr

/-- One byte-addressed memory. -/
structure Mem where
  /-- 8 per address | 08 R192 | nothing listed | the listed cells, addresses strictly rising, none equal to the fill -/
  cells : List Host.Cell := []
  /-- - | 08 R195, R198 | as the memory's own line | what an unlisted address reads as -/
  fill : Fill := .byte 0
  /-- - | 08 R193, R211 | empty | ECC words holding a single-bit upset that no read or scrub has corrected yet -/
  ce : List Nat := []
  /-- - | 08 R193, R212 | empty | ECC words found uncorrectable: they are poisoned -/
  ue : List Nat := []
  /-- - | 08 R211 | empty | ECC words that a read has corrected and whose write-back waits for the bank's next cycle 0 -/
  wb : List Nat := []
  /-- per bank | 08 R211 | 0 | scrub word each bank's walk reaches next -/
  scrubAt : List Nat := []
  /-- per bank | 08 R211 | 0 | one more than the device cycle at which the bank's scrub last had its cycle 0; 0 before the first -/
  scrubbed : List Nat := []
  deriving DecidableEq, Repr

/-! ### Shared records -/

/-- The fault register set of one block (16, R394). -/
structure FltBlock where
  /-- 64 | 16 R394 | 0 | FLT_STAT0 and FLT_STAT1 -/
  stat : BitVec 64 := 0
  /-- 64 x 3 | 16 R398 | 0 | stored level of each source, FLT_LVL -/
  lvl : List Nat := []
  /-- 64 x 3 | 16 R394, R395 | catalogue default | FLT_SEV0 to FLT_SEV6 by slot -/
  sev : List Nat := []
  /-- 64 x 3 | 16 R394, R405 | catalogue floor | FLT_FLOOR0 to FLT_FLOOR6 by slot -/
  floor : List Nat := []
  /-- 64 x 16 | 16 R394 | 0 | FLT_CNT0 to FLT_CNT31 by source -/
  cnt : List Nat := []
  /-- 32 | 16 R399 | 0 | FLT_INFO0 -/
  info0 : Word := 0
  /-- 32 | 16 R399 | 0 | FLT_INFO1 -/
  info1 : Word := 0
  /-- 32 | 16 R399 | 0 | FLT_INFO2 -/
  info2 : Word := 0
  /-- 64 | 16 R402 | 0 | bit s: the cause of level-type source s is present -/
  cause : BitVec 64 := 0
  /-- 64 | 16 R404 | 0 | bit s: the status bit of source s was set by a force alone and clears as an edge -/
  forced : BitVec 64 := 0
  /-- - | 16 R398, R403 | 0 | device cycle of the latest fire or clear of the block -/
  cycAt : Nat := 0
  /-- 64 | 16 R398, R399 | 0 | the status bits at the start of that cycle -/
  stat0 : BitVec 64 := 0
  /-- 64 x 3 | 16 R398 | 0 | the stored levels at the start of that cycle -/
  lvl0 : List Nat := []
  /-- 64 | 16 R399, R403 | 0 | sources that have fired in that cycle -/
  fired : BitVec 64 := 0
  /-- 64 | 16 R404 | 0 | of these, the sources that only a force has fired -/
  onlyForced : BitVec 64 := 0
  /-- levels | 16 R407 | 0 | levels whose message has been sent in that cycle -/
  sent : BitVec 8 := 0
  deriving DecidableEq, Repr

/-- A ring the device writes: completion ring (R313), intake completion ring (R245), tick record ring (R294). The tile
ring uses the same registers (R276). -/
structure Ring where
  /-- 64 | 10 R276, 11 R300, 12 R324 | 0 | BASE -/
  base : DWord := 0
  /-- 1 | 10 R276, 11 R300, 12 R324 | 0 | CFG.EN -/
  en : Bool := false
  /-- 5 | 10 R276, 11 R300, 12 R324 | 6 | CFG.SIZE_LOG2 -/
  sizeLog2 : Nat := 6
  /-- 16 | 10 R276, 11 R300, 12 R324 | 0 | HEAD -/
  head : Nat := 0
  /-- 16 | 10 R276, 11 R300, 12 R324 | 0 | TAIL -/
  tail : Nat := 0
  /-- up to 64 records | 17 R416, 20 R462 | empty | records held while PCI Express carries no request -/
  held : List (List Byte) := []
  /-- 64 | 20 R472 | none | time at which the vector of the ring was last sent -/
  vecAt : Option Nat := none
  /-- 1 | 20 R472 | 0 | a message of the ring's vector is deferred -/
  vecDue : Bool := false
  deriving DecidableEq, Repr

/-- One item of the loaded Pattern (13, R329): section TYPE, ID, INDEX and VALUE. -/
structure PItem where
  sec : Nat
  id : Nat
  idx : Nat
  val : BitVec 64
  deriving DecidableEq, Repr

/-! ### The clock -/

/-- The time PLL, the GTC and the device clock (11, R278 to R283, R287). -/
structure Clock where
  /-- 64 | 11 R278 | 0 | the GTC, TIME_GTC -/
  gtc : Gtc := 0
  /-- - | 11 R278 | 0 | cycles of the time PLL since the internal release, which no step of the GTC changes -/
  ns : Nat := 0
  /-- - | 11 R280 | 0 | device cycles since the internal release -/
  cyc : Nat := 0
  /-- fifths of a period | 11 R280, R283 | 0 | how far the present device cycle has advanced -/
  sub : Nat := 0
  /-- fifths of a period | 11 R280, R283 | 0 | how far after the present GTC count the edge of the present device cycle lies, where it
  lies between two counts -/
  ahead : Nat := 0
  /-- - | 11 R287 | 0 | periods by which a droop event lengthens the present device cycle -/
  stretch : Nat := 0
  /-- 17 | 11 R287, 21 R483 | 0 | device cycle from which each droop detector is armed again -/
  droopArmAt : List Nat := List.replicate 17 0
  /-- - | 08 R203 | 0 | device cycle at the start of the tick, from which each bank counts its frames -/
  tickCyc : Nat := 0
  deriving DecidableEq, Repr

/-! ### GLB -/

/-- The GLB block: Pattern control, the safe state, voids (13, 15, 16). -/
structure Glb where
  /-- 64 | 13 R342 | kept; 0 at power-on | GLB_PAT_ADDR -/
  patAddr : DWord := 0
  /-- 4 | 13 R342 | kept; 0 at power-on | GLB_PAT_REQ -/
  patReq : BitVec 4 := 0
  /-- 3 | 13 R342 | 0 NONE | GLB_PAT_STATUS.STATE -/
  patState : Nat := 0
  /-- 4 | 13 R342 | 0 | GLB_PAT_STATUS.SECTION -/
  patSection : Nat := 0
  /-- 8 | 13 R342 | 0 | GLB_PAT_STATUS.REASON -/
  patReason : Nat := 0
  /-- 16 | 13 R342 | 0 | GLB_PAT_STATUS.DETAIL -/
  patDetail : Nat := 0
  /-- 32 | 13 R327, R342 | 0 | GLB_PATTERN_ID -/
  patternId : Word := 0
  /-- - | 13 R329, R337 | empty | the items of the staged image that is in use -/
  pat : List PItem := []
  /-- - | 13 R338 | 0 | DRAM address of the staged image in use -/
  imgAddr : Nat := 0
  /-- 1 | 13 R339 | 0 | an UNLOAD waits for the tick boundary -/
  unloadPend : Bool := false
  /-- 11 | 20 R474 | 0 | GLB_HOST_IRQ_EN -/
  irqEn : BitVec 11 := 0
  /-- 1 | 15 R387 | 0 | GLB_SAFE.SAFE -/
  safe : Bool := false
  /-- 6 | 15 R387 | 0 | GLB_SAFE.BLOCK -/
  safeBlock : Nat := 0
  /-- 6 | 15 R387 | 0 | GLB_SAFE.SOURCE -/
  safeSource : Nat := 0
  /-- - | 15 R387 | none | a source has reached S4 and the entry of the safe state has not been carried out; none between commands -/
  safeDue : Option (Nat × Nat) := none
  /-- offsets | 15 R385 | empty | registers whose parity bit does not match, which no check has met yet -/
  badRegs : List Nat := []
  /-- offsets | 13 R340, 15 R385 | empty | tunable registers that software has written since activation -/
  tuned : List Nat := []
  /-- 64 | 15 R385 | 0 | one more than the tick of the latest readback, since activation -/
  readbackAt : Nat := 0
  /-- partition x tick | 01 R31, 16 R400 | empty | outputs that are void, for the current tick and later ones -/
  voids : List (Nat × Nat) := []
  deriving DecidableEq, Repr

/-! ### TIME -/

/-- The Time Unit (11). -/
structure TimeU where
  /-- 3 | 11 R300 | 0 | TIME_CTRL.MODE -/
  mode : Nat := 0
  /-- 2 | 11 R300 | 0 | TIME_CTRL.PTP_PORT -/
  ptpPort : Nat := 0
  /-- 1 | 11 R300 | 0 | TIME_CTRL.SERVO_EN -/
  servoEn : Bool := false
  /-- 1 | 11 R300 | 1 | TIME_CTRL.AUTOSTEP -/
  autostep : Bool := true
  /-- 2 | 11 R300 | 0 | TIME_CTRL.UP_PORT -/
  upPort : Nat := 0
  /-- 32, signed | 11 R279, R300 | 0 | TIME_TRIM -/
  trim : Int := 0
  /-- 16 | 11 R300 | 1,100 | TIME_SERVO.KP -/
  kp : Nat := 1100
  /-- 16 | 11 R300 | 110 | TIME_SERVO.KI -/
  ki : Nat := 110
  /-- 29, signed | 11 R288 | 0 | the servo's integrator i_acc -/
  iAcc : Int := 0
  /-- 32 | 11 R300 | 0 | the last TIME_STEP_LO -/
  stepLo : Word := 0
  /-- 64 | 11 R289 | 0 | TIME_PPS_CAPT -/
  ppsCapt : Gtc := 0
  /-- 64 | 11 R289 | 0 | TIME_SYNC_CAPT -/
  syncCapt : Gtc := 0
  /-- 64 | 11 R289 | 0 | TIME_SYNC_OUT_AT -/
  syncOutAt : Gtc := 0
  /-- 64 | 11 R300 | 0 | TIME_TICK -/
  tick : Nat := 0
  /-- 64 | 11 R284 | 0 | TIME_LAUNCH -/
  launch : Gtc := 0
  /-- 32 | 11 R284 | 0 | TIME_PERIOD -/
  period : Nat := 0
  /-- 16 x (32 + 32) | 11 R284 | 0 | TIME_STAGEn_OPEN and TIME_STAGEn_CLOSE -/
  stages : List (Nat × Nat) := []
  /-- 4 x 64, signed | 11 R290 | 0 | TIME_EPADJ0 to TIME_EPADJ3 -/
  epadj : List DWord := [0, 0, 0, 0]
  /-- 16, signed | 11 R289 | 0 | TIME_PIN_CFG.PPS_DELAY_NS -/
  ppsDelay : BitVec 16 := 0
  /-- 1 | 11 R289 | 0 | TIME_PIN_CFG.PPS_OUT_EN -/
  ppsOutEn : Bool := false
  /-- 1 | 11 R289 | 0 | TIME_PIN_CFG.SYNC_OUT_PER -/
  syncOutPer : Bool := false
  /-- 32 | 11 R289 | 1,000,000,000 | TIME_SYNC_PERIOD -/
  syncPeriod : Nat := 1000000000
  /-- 1 | 11 R285 | 0 | TIME_STATUS.ACTIVE -/
  active : Bool := false
  /-- 1 | 11 R291 | 0 | TIME_STATUS.ALIGNED -/
  aligned : Bool := false
  /-- 1 | 11 R293 | 0 | TIME_STATUS.HOLDOVER -/
  holdover : Bool := false
  /-- 1 | 11 R300 | 0 | TIME_STATUS.LOCKED -/
  locked : Bool := false
  /-- 2 | 11 R281 | 0 | TIME_STATUS.PERF -/
  perf : Nat := 0
  /-- 1 | 11 R282 | 0 | TIME_STATUS.IDLE_GATE -/
  idleGate : Bool := false
  /-- 1 | 11 R282 | 0 | TIME_STATUS.AVS_EN -/
  avsEn : Bool := false
  /-- 32, signed | 11 R300 | 0 | TIME_LAST_OFFSET -/
  lastOffset : Int := 0
  /-- 8 values | 11 R288, R291 | empty | |e| of the last eight measurements, newest first -/
  hist : List Nat := []
  /-- - | 11 R293 | 0 | time of the last accepted measurement -/
  measAt : Nat := 0
  /-- 16 | 11 R287 | 0 | TIME_DROOP.CUR -/
  droopCur : Nat := 0
  /-- 16 | 11 R287 | 0 | TIME_DROOP.LAST -/
  droopLast : Nat := 0
  /-- - | 11 R294 | none | TIME_DROOP.CUR when the record of the tick was written -/
  droopAtRec : Option Nat := none
  /-- 16 | 11 R294 | 0 | PREV_TAIL of the next record -/
  prevTail : Nat := 0
  /-- - | 11 R294 | 10 R276's values | the tick record ring, TIME_REC -/
  rring : Ring := {}
  /-- 64 | 18 R434 | 0 | number of the first tick to run, 0 unless a group resumed -/
  firstTick : Nat := 0
  /-- 10, mV | 11 R282, 21 R482 and Table 21.7 | 720 | VDD_CORE set point in use -/
  vddCore : Nat := 720
  /-- - | 11 R289 | 0 | time until which PPS_OUT is driven high -/
  ppsOutUntil : Nat := 0
  /-- - | 11 R289 | 0 | time until which SYNC_OUT is driven high -/
  syncOutUntil : Nat := 0
  deriving DecidableEq, Repr

/-! ### DISP -/

/-- A command completion record or job record (12, Table 12.4). -/
structure CplRec where
  status : Nat := 0
  ring : Nat := 0
  lc : Bool := false
  last : Bool := false
  jobrec : Bool := false
  core : Nat := 0
  part : Nat := 0
  orig : Nat := 0
  jobref : Word := 0
  tag : Nat := 0
  cmd : Nat := 0
  tick : Nat := 0
  doneOff : Nat := 0
  cycles : Nat := 0
  /-- position under the order of R313: stage, then job -/
  stage : Nat := 0
  job : Nat := 0
  deriving DecidableEq, Repr

/-- Where one latency-critical command of a launched job stands (12 R303). -/
inductive CmdPhase where
  | waiting   -- not dispatched yet
  | placed    -- dispatched to its core, not ended
  | replayDue -- ended by a disagreement event, its replay is due (R372)
  | ended     -- completed, ended, rejected or not executed
  deriving DecidableEq, Repr

/-- The disagreement event that ended a run, as it is kept for the source raised later (15 R370). -/
structure DisEvent where
  /-- unit in [18:16], locator in [15:0] -/
  det : Word := 0
  /-- it came of an injection (15 R392) -/
  inj : Bool := false
  /-- details of further events signalled in the same cycle, which CCn_FLT_CNT counts (15, Table 15.2) -/
  more : List Word := []
  deriving DecidableEq, Repr

/-- One command of a launched latency-critical job. -/
structure LcCmd where
  core : Nat
  hdr : Nat
  idx : Nat
  phase : CmdPhase := .waiting
  /-- the disagreement event that ended the first run (R370) -/
  event : Option DisEvent := none
  /-- device cycle at which its setup began, or at which its turn came and it was not executed -/
  at_ : Nat := 0
  deriving DecidableEq, Repr

/-- A latency-critical job that a stage open has launched (R26). -/
structure LcJob where
  stage : Nat
  job : Nat
  part : Nat
  tag : Nat
  cring : Nat
  cmds : List LcCmd
  /-- device cycle of its launch -/
  at_ : Nat := 0
  deriving DecidableEq, Repr

/-- A best-effort job in progress on a submission ring (12 R304, R317, R321). -/
structure BeJob where
  seq : Word
  tag : Nat
  clist : Nat
  cnt : Nat
  /-- next command not yet dispatched (R321) -/
  next : Nat := 0
  /-- commands aborted and to be re-run, in list order (R321) -/
  aborted : List Nat := []
  /-- consecutive aborts of a command (R322) -/
  starve : List (Nat × Nat) := []
  /-- commands whose re-run is the replay of a disagreement event, with that event (R374) -/
  replay : List (Nat × DisEvent) := []
  /-- command index and core of each command in flight -/
  running : List (Nat × Nat) := []
  /-- commands whose record has been posted -/
  posted : Nat := 0
  /-- highest status posted so far (R311) -/
  worst : Nat := 0
  /-- debt in ns of availability time (R317) -/
  debt : Nat := 0
  /-- the debt is growing: the job's turn ended with commands still running (R317) -/
  growing : Bool := false
  deriving DecidableEq, Repr

/-- A submission ring (12, Table 12.8). -/
structure SubRing where
  /-- 64 | 12 R324 | 0 | SUB_BASE -/
  base : DWord := 0
  /-- 2 | 12 R324 | 0 | SUB_CFG.PART -/
  part : Nat := 0
  /-- 1 | 12 R324 | 0 | SUB_CFG.EN -/
  en : Bool := false
  /-- 5 | 12 R324 | 6 | SUB_CFG.SIZE_LOG2 -/
  sizeLog2 : Nat := 6
  /-- 16 | 12 R324 | 0 | SUB_HEAD -/
  head : Nat := 0
  /-- 16 | 12 R324 | 0 | SUB_TAIL -/
  tail : Nat := 0
  /-- 32 | 12 R310, R324 | 0 | HIGH_SEQ -/
  highSeq : Word := 0
  /-- 32 | 12 R311 | 0 | the value software last wrote to HIGH_SEQ -/
  wrSeq : Word := 0
  /-- 64 x (32 + 8) | 12 R311 | empty | SEQ and status of the last 64 ended jobs, newest first -/
  history : List (Word × Nat) := []
  /-- - | 12 R304, R321 | none | the job in progress (BUSY, NEXT_CMD) -/
  job : Option BeJob := none
  /-- 1 | 20 R463 | 0 | the last fetch met a PCI Express error: fetched again at the next tick boundary -/
  refetch : Bool := false
  deriving DecidableEq, Repr

/-- The turn of a best-effort job on a partition (12 R316). -/
structure Turn where
  ring : Nat
  /-- availability time left, in ns (R315) -/
  left : Nat
  deriving DecidableEq, Repr

/-- A SEM_ACQ that waits at the Job Dispatcher (06 R154). -/
structure SemReq where
  sem : Nat
  core : Nat
  n : Nat
  /-- device cycle of its arrival at the Job Dispatcher -/
  at_ : Nat
  deriving DecidableEq, Repr

/-- The Job Dispatcher (12; 06 R154). -/
structure Disp where
  /-- 32 + 32 | 12 R324, 13 R340 | 1,000,000 | DISP_SLICE_NS: value in use and shadow -/
  slice : Nat × Nat := (1000000, 1000000)
  /-- 32 + 32 | 12 R324, 13 R340 | 20,000 | DISP_GRACE_NS: value in use and shadow -/
  grace : Nat × Nat := (20000, 20000)
  /-- 4 x 16 | 12 R302, R324 | 0 | DISP_PART0 to DISP_PART3 -/
  parts : List (BitVec 16) := [0, 0, 0, 0]
  /-- 16 | 12 R324, 15 R376 | 0 | DISP_RETIRED -/
  retired : BitVec 16 := 0
  /-- 16 | 15 R375 | 0 | cores to retire at the next tick boundary -/
  retireDue : BitVec 16 := 0
  /-- 8 rings | 12 R304, R324 | each ring's reset values | submission rings -/
  subs : List SubRing := [{}, {}, {}, {}, {}, {}, {}, {}]
  /-- 8 rings | 12 R313, R324 | each ring's reset values | completion rings -/
  cpl : List Ring := [{}, {}, {}, {}, {}, {}, {}, {}]
  /-- - | 12 R303 | empty | latency-critical jobs launched in the tick -/
  jobs : List LcJob := []
  /-- - | 01 R30 | empty | held latency-critical records of the tick -/
  held : List CplRec := []
  /-- 4 | 12 R316 | none | the turn in progress on each partition -/
  turns : List (Option Turn) := [none, none, none, none]
  /-- 4 x 3 | 12 R316 | DESIGN CHOICE 7, entry 24 | ring that held each partition's last turn -/
  lastRing : List Nat := [7, 7, 7, 7]
  /-- 256 x 16 | 06 R154 | 0 | values of the semaphores -/
  sems : List Nat := []
  /-- - | 06 R154 | empty | SEM_ACQ requests waiting, in arrival order -/
  semWait : List SemReq := []
  /-- 16 | 01 R26 | empty | stages that have opened in the tick -/
  opened : List Nat := []
  /-- 16 | 15 R381 | empty | stages that have closed in the tick -/
  closed : List Nat := []
  /-- 4 | 01 R30 | empty | partitions whose settle point has been carried out in the tick -/
  settled : List Nat := []
  /-- 16 | 15 R382 | empty | stages whose last job has ended in the tick -/
  stageEnded : List Nat := []
  /-- 4 | 11 R294 | 0 | DEADLINE of the next tick record -/
  deadline : BitVec 4 := 0
  /-- 4 x 32 | 11 R294 | none | MIN_SLACK of the next tick record -/
  slack : List (Option Nat) := [none, none, none, none]
  deriving DecidableEq, Repr

/-! ### Compute Cores -/

/-- One queue entry of a core: the slot's bits and what dispatch fixed for it (06 R146, R147). -/
structure QEnt where
  slot : BitVec 48
  /-- position in dispatch order; entries of one bundle share it -/
  seq : Nat
  /-- Bundle Store index of the bundle -/
  bundle : Nat
  /-- device cycle of the dispatch: the entry issues later than this (R146) -/
  at_ : Nat := 0
  /-- loop counters as they stood at the start of the dispatch cycle (R167) -/
  ctrs : List Word := []
  /-- a sync request has been sent to its target: the cycle from which it may complete -/
  reqAt : Option Nat := none
  deriving DecidableEq, Repr

/-- The five instruction queues of a core (06 R146). -/
inductive QId where
  | vector | matrix | load | store | sync
  deriving DecidableEq, Repr

/-- An entry that has issued and not yet completed (06 R149). -/
structure Infl where
  q : QId
  seq : Nat
  /-- cycle at which it completes; none while that waits on a transfer or request -/
  doneAt : Option Nat
  /-- its work is done while the entry ahead of it is not complete: Bundle Store index and token (R149) -/
  held : Option (Nat × Nat) := none
  deriving DecidableEq, Repr

/-- A write of a vector register that is in flight (06 R157). -/
structure VWrite where
  visibleAt : Nat
  reg : Nat
  lanes : List Word
  deriving DecidableEq, Repr

/-- An interpolation table (07, Table 7.4). -/
structure VTable where
  x0 : Word
  sh : Nat
  t : List (BitVec 16)
  deriving DecidableEq, Repr

/-- What filled an operand buffer entry: step count, mode, AFMT, WFMT (07 R181), and for a GROUPED layer the channels per
group and the step of its tap segment at which it begins, which fix the masking of R118. -/
structure GatherRec where
  n : Nat
  mode : Nat
  afmt : Nat
  wfmt : Nat
  cpg : Nat := 0
  stepFirst : Nat := 0
  deriving DecidableEq, Repr

/-- One Activation Operand Buffer entry (03 R82, 04 R104, 07 R181). -/
structure Aob where
  /-- 1 | 03 R82 | 0 | valid: T0 to T3 read it -/
  valid : Bool := false
  /-- 1 | 04 R104 | 0 | SKIP mark -/
  skip : Bool := false
  /-- - | 07 R181 | none | record of the gather that filled it -/
  gather : Option GatherRec := none
  /-- - | 03 R82, R85 | 0 | cycle at which the last MMA that reads it has taken its operands -/
  readAt : Nat := 0
  deriving DecidableEq, Repr

/-- An accumulation chain that is open on a bank (03 R76 to R80). -/
structure Chain where
  steps : Nat
  afmt : Nat
  wfmt : Nat
  mode : Nat
  firstAt : Nat
  deriving DecidableEq, Repr

/-- One accumulator bank of one array with its checker state (03 R69, R88). -/
structure Bank where
  /-- 4096 x 40 | 03 R42, R69 | 0 | accumulators, row-major; an absent element reads 0 -/
  acc : List (BitVec 40) := []
  /-- - | 03 R76 | none | the open chain -/
  chain : Option Chain := none
  /-- 1 | 07 R188 | 0 | preloaded mark -/
  preloaded : Bool := false
  /-- - | 03 R75 | none | issue cycle of the last step of the previous chain -/
  lastStep : Option Nat := none
  /-- 64 x 20 | 03 R88 | 0 | predicted row residues -/
  rp : List Nat := []
  /-- 64 x 20 | 03 R88 | 0 | predicted column residues -/
  cp : List Nat := []
  /-- 64 x 20 | 03 R88 | 0 | row wrap tallies -/
  tr : List Nat := []
  /-- 64 x 20 | 03 R88 | 0 | column wrap tallies -/
  tc : List Nat := []
  deriving DecidableEq, Repr

/-- One Drain Buffer entry (03 R86, 04 R112, R117). -/
structure Drain where
  /-- issue cycle e of the chain's last step (Table 3.3) -/
  e : Nat
  /-- mode of the chain: DIAGONAL entries are read in narrow form -/
  mode : Nat
  /-- 4096 x 40: the drained tile -/
  tile : List (BitVec 40)
  /-- row-groups (or narrow reads) already read -/
  read : List Nat := []
  deriving DecidableEq, Repr

/-- State of an Output Transform Buffer (04 R111). -/
inductive OtbSt where
  | empty | collecting | ready
  deriving DecidableEq, Repr

/-- One Output Transform Buffer (04 R111 to R115). -/
structure Otb where
  /-- - | 04 R111 | EMPTY | state -/
  st : OtbSt := .empty
  /-- 16 | 04 R112 | 0 | positions received -/
  mask : BitVec 16 := 0
  /-- 4 x 4096 x 44 | 04 R111 | 0 | Y' in 44-bit signed form, quadrant-major; an absent element reads 0 -/
  y : List Int := []
  /-- 4 x 4096 x 40 | 04 R114 | empty | initial-value tiles c; an absent element reads 0 -/
  init : List (BitVec 40) := []
  /-- 1 | 04 R114, 07 R188 | 0 | an LDACC has loaded initial values -/
  loaded : Bool := false
  /-- 4 x 4096 x 40 | 04 R114 | empty | outputs once READY; an absent element reads 0 -/
  out : List (BitVec 40) := []
  /-- - | 04 R114 | 0 | cycle from which the row-groups are readable -/
  readyAt : Nat := 0
  /-- - | 04 R114 | empty | row-groups already read -/
  read : List Nat := []
  deriving DecidableEq, Repr

/-- Where the bytes of a transfer go (07 R183, R187, R188). -/
inductive XDst where
  | bytes (space dev : Nat) (cells : List Host.Cell) (marks : List Bool)  -- a walk or planes, in walk order, with the poisoned ones
  | acc (amask bank : Nat) (tiles : List (List (BitVec 40)))      -- LDACC into accumulator banks
  | otb (amask k : Nat) (tiles : List (List (BitVec 40)))         -- LDACC into Output Transform Buffers
  | none                                                          -- nothing is written
  deriving DecidableEq, Repr

/-- A message of a transfer: earliest cycle at which it is sent (08 R500), position of its first byte in the walk, address, length. -/
structure MsgOut where
  at_ : Nat
  pos : Nat
  addr : Nat
  len : Nat
  deriving DecidableEq, Repr

/-- Messages of a transfer over the Harness that have not been sent yet (14 R350, R352): peer, space at the peer, whether they
write, and position in the walk, address and length of each. -/
structure Msgs where
  dev : Nat
  space : Nat
  write : Bool
  list : List MsgOut
  deriving DecidableEq, Repr

/-- An answered read of a transfer: its position in the walk, the cycle from which its bytes count as there (14 R355), the bytes, and
whether they came poisoned. -/
structure ReadIn where
  pos : Nat
  at_ : Nat
  bytes : List Byte
  poison : Bool
  deriving DecidableEq, Repr

/-- A load or store transfer in flight (07 R186, 08 R500). -/
structure Xfer where
  store : Bool
  /-- the entry that started it -/
  ent : QEnt
  token : Nat
  dst : XDst
  /-- space of its source -/
  src : Nat := 0
  /-- space of its destination -/
  dspace : Nat := 0
  /-- which of the bytes it has read are poisoned, in walk order; empty when none is (08 R212) -/
  marks : List Bool := []
  /-- operand buffer entry made valid at the completion -/
  aob : Option (Nat × Option GatherRec) := .none
  /-- the two Transform Stage copies differ at V (15 R370) -/
  vdiff : Bool := false
  /-- cycles of its destination pieces under R500 -/
  ats : List Nat := []
  /-- earliest completion cycle under R500 -/
  doneAt : Nat
  /-- messages still to send -/
  msgs : Option Msgs := .none
  /-- device and request identifier of the messages still unanswered -/
  waiting : List (Nat × Nat) := []
  /-- generations of the core's domain and of the one it is with, at its issue (17 R417) -/
  gens : Nat × Nat := (0, 0)
  /-- cycle of its issue, and how many source pieces each destination piece needs (08 R500) -/
  at_ : Nat := 0
  needs : List Nat := []
  /-- reads over the Harness answered so far -/
  got : List ReadIn := []
  /-- destination pieces whose bytes have come over the Harness -/
  placed : Nat := 0
  /-- a message of its source was refused or abandoned: it writes no further piece (08 R215) -/
  denied : Bool := false
  deriving DecidableEq, Repr

/-- Phase of a command on its core. -/
inductive RunPhase where
  | image    -- best-effort image copied, command setup not begun (R306)
  | setup    -- in its setup (R145)
  | running  -- its first bundle has been dispatched
  deriving DecidableEq, Repr

/-- The command a core holds (06 R143, R161; 12 R303). -/
structure Run where
  /-- number of this run, which its sampler, keyed and remote requests carry -/
  id : Nat := 0
  lc : Bool := false
  part : Nat := 0
  stage : Nat := 0
  job : Nat := 0
  ring : Nat := 0
  idx : Nat := 0
  phase : RunPhase := .image
  /-- cycle at which the image copy or the setup ends -/
  until_ : Nat := 0
  /-- Bundle Store index of the header -/
  hdr : Nat := 0
  decl : Nat := 0
  /-- setup cycles of R145, which R372 counts again -/
  setup : Nat := 0
  /-- cycle of the first bundle's dispatch -/
  start : Nat := 0
  /-- no further bundle is dispatched (R148) -/
  isOver : Bool := false
  skips : Bool := false
  overrun : Bool := false
  /-- the command completes VOID (R212, R215, R383, R400) -/
  void : Bool := false
  /-- the run is a replay: the original event (R372, R374) -/
  replay : Option DisEvent := none
  /-- a re-run or replay, for the trace -/
  rerun : Bool := false
  deriving DecidableEq, Repr

/-- What a core runs, holds and reports (03, 06, 12, 15). -/
structure CStat where
  /-- - | 12 R303 | none | the command the core holds -/
  run : Option Run := none
  /-- 1 | 15 R377 | 0 | the swatch of the tick is still to start -/
  swatchDue : Bool := false
  /-- - | 15 R377 | none | cycle at which the running swatch began -/
  swatchAt : Option Nat := none
  /-- - | 12 R320 | 0 | cycle from which the core is idle after an abort -/
  idleAt : Nat := 0
  /-- 32 | 03 R94, R95 | 0 | CCn_CMD_CYCLES -/
  cmdCycles : Nat := 0
  /-- 32 | 06 R164 | 0 | CCn_SKIP_INFO -/
  skipInfo : Word := 0
  /-- 16 | 06 R164 | 0 | CCn_SKIP_COUNT -/
  skipCount : Nat := 0
  /-- 16 x 8 | 06 R150 | 0 | token counters; T0 to T3 are read from the operand buffer -/
  tok : List Nat := []
  /-- 16 cycles | 06 R153 | 0 | cycle of the last change of each token counter, the operand buffer's included -/
  tokAt : List Nat := []
  /-- 256 x 8 | 06 R154 | empty | semaphore units held by the running command -/
  holds : List (Nat × Nat) := []
  /-- 32 | 15 R392 | 0 | CCn_SAFETY_INJ target fields -/
  inj : Word := 0
  /-- 1 | 15 R392 | 0 | CCn_SAFETY_INJ.ARMED -/
  injArmed : Bool := false
  /-- 6 units x 2 ticks | 15 R375 | empty | tick numbers of the last two transients of each unit, newest first -/
  trans : List (List Nat) := []
  /-- 3 | 15 R380 | 0 | CCn_SAFETY_STATUS.SWFAIL: consecutive swatch failures -/
  swFail : Nat := 0
  /-- 1 | 15 R392 | 0 | CCn_SAFETY_STATUS.SWPASS -/
  swPass : Bool := false
  /-- 32 | 15 R392 | 0 | CCn_SWATCH_SIG -/
  swSig : Word := 0
  /-- - | 11 R282 | 0 | cycle since which the core has been idle -/
  idleSince : Nat := 0
  /-- 1 | 11 R282 | 0 | array clocks gated -/
  gated : Bool := false
  /-- 5 x 64 | 19 R454 | 0 | OBS_CCn_LC_CYC, _BE_CYC, _SWATCH_CYC, _MMA_STEPS, _DISP_STALL -/
  obs : List Nat := [0, 0, 0, 0, 0]
  /-- - | 06 R163 | 0 | cycle of the last dispatch, issue or completion -/
  lastAct : Nat := 0
  deriving DecidableEq, Repr

/-- The Scalar Sequencer and the queues of a core (06, 07). -/
structure Seqr where
  /-- 13 | 06 R146 | 0 | Bundle Store index of the next bundle -/
  pc : Nat := 0
  /-- - | 06 R147 | 0 | earliest cycle of the next dispatch -/
  dispAt : Nat := 0
  /-- - | 19 R454 | none | cycle since which the next bundle has waited for queue room -/
  blockedAt : Option Nat := none
  /-- 8 x 32 | 06 R147, 07 R169 | 0 | loop counters CNT0 to CNT7 -/
  cnt : List Word := [0, 0, 0, 0, 0, 0, 0, 0]
  /-- 4 x 1 | 06 R147, 07 R169 | 0 | predicate flags PF0 to PF3 -/
  pf : List Bool := [false, false, false, false]
  /-- 16 entries | 06 R146 | empty | vector queue -/
  qv : List QEnt := []
  /-- 16 entries | 06 R146 | empty | matrix queue -/
  qm : List QEnt := []
  /-- 16 entries | 06 R146 | empty | load queue -/
  ql : List QEnt := []
  /-- 16 entries | 06 R146 | empty | store queue -/
  qs : List QEnt := []
  /-- 16 entries | 06 R146 | empty | sync queue -/
  qy : List QEnt := []
  /-- - | 06 R154, R155 | 0 | cycle at which the last sync entry left its queue -/
  syAt : Nat := 0
  /-- - | 06 R149 | 0 | dispatch number of the next bundle -/
  seq : Nat := 0
  /-- - | 06 R149 | empty | entries issued and not completed -/
  infl : List Infl := []
  /-- 4 x 2 | 06 R153 | 0 | per gated queue: the dispatch number from which the last gate applies, and its first issue cycle -/
  gates : List (Nat × Nat) := []
  /-- 4 | 06 R159 | 0 | per gated queue: cycle from which it issues again after an entry was skipped -/
  skipTo : List Nat := []
  deriving DecidableEq, Repr

/-- The Vector Unit of a core (06 R157, 07). -/
structure Vu where
  /-- 32 x 64 x 32 | 07 R170 | DESIGN CHOICE 0, entry 5 | vector registers v0 to v31; an absent lane reads 0 -/
  vreg : List (List Word) := []
  /-- - | 06 R157 | empty | vector register writes in flight, oldest issue first -/
  vwr : List VWrite := []
  /-- - | 07 R171 | 0 | earliest issue cycle of the next vector entry -/
  vAt : Nat := 0
  /-- 8 tables | 07 R174 | unloaded | interpolation tables -/
  tabs : List (Option VTable) := []
  /-- - | 07 R174 | empty | table loads in flight: cycle, table number, table -/
  tabWr : List (Nat × Nat × VTable) := []
  deriving DecidableEq, Repr

/-- The Matrix Arrays of a core with their buffers (03, 04). -/
structure Mx where
  /-- 4 entries | 03 R81, R82 | not valid | Activation Operand Buffer entries; their bytes lie in the scratchpad -/
  aob : List Aob := [{}, {}, {}, {}]
  /-- 4 arrays x 2 banks | 03 R69 | 0 | accumulator banks; bank b of array a at 2a + b -/
  banks : List Bank := [{}, {}, {}, {}, {}, {}, {}, {}]
  /-- 4 | 03 R74 | none | issue cycle of the last step of the last LAST instruction of each array -/
  lastLast : List (Option Nat) := [none, none, none, none]
  /-- 4 arrays x 2 | 03 R86 | empty | Drain Buffer entries; entry k of array a at 2a + k -/
  drains : List (Option Drain) := [none, none, none, none, none, none, none, none]
  /-- 4 arrays x 2 | 04 R111 | EMPTY | Output Transform Buffers; OTB k of array a at 2a + k -/
  otbs : List Otb := [{}, {}, {}, {}, {}, {}, {}, {}]
  /-- - | 03 R84 | 0 | cycle after the last step of the previous matrix instruction -/
  mAt : Nat := 0
  /-- - | 03 R83 | 0 | cycle of the first step of the previous matrix instruction -/
  mFirst : Nat := 0
  /-- - | 15 R371 | empty | first and end cycle of the checks of drained tiles and OTBs, kept while a store may wait on one -/
  checks : List (Nat × Nat) := []
  /-- - | 03 R80 | empty | cycles of the last steps of chains that span more than 1,151 cycles, not fired yet -/
  spans : List Nat := []
  deriving DecidableEq, Repr

/-- The unit that writes bytes of a core's memory (07 R191). -/
inductive Writer where
  | sampler | load | vector
  deriving DecidableEq, Repr

/-- A write of a core's memory in a later cycle (07 R172, R191; 08 R500). -/
structure PendWr where
  /-- cycle in which it is made -/
  at_ : Nat
  by_ : Writer
  /-- into the Weight Buffer, not the Activation Scratchpad -/
  wbuf : Bool := false
  cells : List Host.Cell
  /-- which of the bytes are poisoned; empty when none is (08 R212) -/
  marks : List Bool := []
  /-- dispatch number of the load entry whose transfer makes it -/
  xfer : Option Nat := none
  deriving DecidableEq, Repr

/-- One Compute Core (03 R68). -/
structure Core where
  /-- - | 03, 06, 12, 15 | as its lines | what the core runs and reports -/
  st : CStat := {}
  /-- - | 06, 07 | as its lines | the Scalar Sequencer and the queues -/
  sq : Seqr := {}
  /-- - | 06, 07 | as its lines | the Vector Unit -/
  vu : Vu := {}
  /-- - | 03, 04 | as its lines | the Matrix Arrays -/
  mx : Mx := {}
  /-- 4 per queue | 07 R186 | empty | load and store transfers in flight, oldest first -/
  xfers : List Xfer := []
  /-- - | 07 R172, R191; 08 R500 | empty | writes of the Activation Scratchpad and the Weight Buffer that lie in later cycles -/
  pend : List PendWr := []
  /-- 2 MiB | 08 R192 | DESIGN CHOICE 0, entry 6 | Activation Scratchpad, operand buffer included -/
  asp : Mem := {}
  /-- 8 MiB | 08 R192, R194 | DESIGN CHOICE 0, entry 6 | resident blocks of the Weight Buffer -/
  wbf : Mem := {}
  /-- 8 MiB | 08 R192, R194 | DESIGN CHOICE 0, entry 6 | streamed blocks of the Weight Buffer -/
  wbs : Mem := {}
  /-- 256 KiB | 06 R140, 08 R196 | DESIGN CHOICE 0, entry 6 | Bundle Store -/
  bst : Mem := {}
  deriving DecidableEq, Repr

/-! ### Region Samplers, Frame Store, Keyed Feature Store, DRAM -/

/-- A Region Sampler request (05 R124, R125). -/
structure SReq where
  core : Nat := 0
  run : Nat := 0
  lc : Bool := false
  stage : Nat := 0
  seq : Nat := 0
  bundle : Nat := 0
  token : Nat := 0
  /-- cycle in which the unit accepted it (R134) -/
  at_ : Nat := 0
  /-- the request record (Table 5.1) and the source records it may name (Table 5.2) -/
  req : BitVec 256 := 0
  srcs : List (BitVec 128) := []
  /-- cycle at which it started, moved later by a pause (R135, R137) -/
  start : Nat := 0
  /-- sample positions already written -/
  done : Nat := 0
  /-- positions written as EXTRAP so far -/
  outside : Nat := 0
  deriving DecidableEq, Repr

/-- One Region Sampler (05 R134 to R139). -/
structure Rsmp where
  /-- up to 16 | 05 R134 | empty | requests waiting, oldest first -/
  queue : List SReq := []
  /-- - | 05 R134 | none | the request being served -/
  serving : Option SReq := none
  /-- - | 05 R137 | none | a paused best-effort request -/
  paused : Option SReq := none
  /-- 32 | 05 R139 | 0 | RSMPn_OUTSIDE -/
  outside : Nat := 0
  /-- - | 05 R135 | 0 | cycle from which the unit may start its next request -/
  freeAt : Nat := 0
  /-- - | 05 R137 | none | stage whose coming reservation has paused best-effort sample positions -/
  resvFor : Option Nat := none
  deriving DecidableEq, Repr

/-- A keyed request (09 R223, R234). -/
structure KReq where
  core : Nat := 0
  run : Nat := 0
  seq : Nat := 0
  bundle : Nat := 0
  token : Nat := 0
  /-- cycle in which the store accepted it (R234) -/
  at_ : Nat := 0
  /-- the keyed descriptor (Table 9.2) -/
  desc : BitVec 256 := 0
  /-- cycle at which it started, moved later by the walk (R235) -/
  start : Nat := 0
  /-- keys already looked up -/
  done : Nat := 0
  /-- GRID: the origin word, read once at the start (R224) -/
  origin : BitVec 64 := 0
  /-- cycles by which a late access to DRAM has delayed it (08 R206) -/
  late : Nat := 0
  deriving DecidableEq, Repr

/-- The Keyed Feature Store (09); its payload lies in DRAM. -/
structure Kfs where
  /-- 65,536 x 16 x (20 + 4) | 09 R221 | INVALID | the directory: set number and its 16 ways (partial tag, state), sets rising; an unlisted set holds no VALID way -/
  dir : List (Nat × List (Nat × Nat)) := []
  /-- 8 | 09 R229 | 0 | KFS_STATUS.GEN, KFS_GEN -/
  gen : Nat := 0
  /-- 1 | 09 R237 | 0 | KFS_STATUS.FLUSH_PEND -/
  flushPend : Bool := false
  /-- 1 | 09 R229 | 0 | the next tick is the first after a D_FST restart -/
  flushFst : Bool := false
  /-- - | 09 R228 | none | cycle at which the running directory walk ends, KFS_STATUS.WALK -/
  walkEnd : Option Nat := none
  /-- 21 | 09 R237 | 0 | KFS_OCCUPANCY -/
  occ : Nat := 0
  /-- 8 | 09 R237 | 0 | KFS_CFG.AGE_EPOCH -/
  ageEpoch : Nat := 0
  /-- 16 | 09 R237 | 0 | KFS_CFG.PITCH_MM -/
  pitch : Nat := 0
  /-- 16 x 20 | 09 R237 | 0 | KFS_LAYER0 to KFS_LAYER15 -/
  layers : List (BitVec 20) := []
  /-- up to 16 with the one served | 09 R234 | empty | keyed requests waiting, oldest first -/
  queue : List KReq := []
  /-- - | 09 R234 | none | the keyed request being served or paused -/
  serving : Option KReq := none
  /-- keyed requests | 09 R234 | empty | requests whose keys are all looked up and whose completion is to come -/
  finishing : List KReq := []
  /-- - | 09 R234 | 0 | cycle from which the next request may start -/
  freeAt : Nat := 0
  /-- - | 09 R236 | empty | sets whose directory word holds a single-bit upset -/
  ce : List Nat := []
  /-- - | 09 R236 | empty | sets whose directory word is uncorrectable -/
  ue : List Nat := []
  deriving DecidableEq, Repr

/-- The Frame Store (08 R192) with its arrival counters (06 R155). -/
structure Fst where
  /-- 48 MiB | 08 R192 | DESIGN CHOICE 0, entry 6 | Frame Store -/
  mem : Mem := {}
  /-- 256 x 16 | 06 R155 | 0 | arrival bits of the arrival counters, one per core -/
  arr : List (BitVec 16) := []
  /-- 256 x up to 16 | 06 R155 | empty | cycles at which each counter gained its arrivals, in order -/
  arrAt : List (List Nat) := []
  deriving DecidableEq, Repr

/-- The DRAM controller with the DRAM (08 R205 to R213). -/
structure Drc where
  /-- 16 or 32 GiB | 08 R207, 18 R429 | 0 (18 R432: zeroed at start-up) | DRAM contents -/
  mem : Mem := {}
  /-- 1 | 08 R210 | 0 | DRC_STATUS.TRAINED, and CHAN_OK of every channel pair -/
  trained : Bool := false
  /-- 1 | 08 R210 | kept; 0 at power-on | DRC_STATUS.SELF_REFRESH -/
  selfRefresh : Bool := false
  /-- 1 | 08 R210 | kept; 0 at power-on | DRC_STATUS.ATTACHED: 1 with 32 GiB -/
  attached : Bool := false
  /-- 8 | 08 R211 | 0 | 1 KiB block of each channel that the patrol scrub reaches next -/
  patrol : List Nat := []
  /-- 8 | 08 R211 | none | GTC of the slot in which each channel was last patrol-scrubbed -/
  patrolAt : List (Option Gtc) := []
  deriving DecidableEq, Repr

/-! ### Sensor Intake Unit -/

/-- A camera frame between its FS and its FE (10 R241, R248). -/
structure Cam where
  capture : Gtc
  frameNo : Nat
  /-- it is discarded from FS onward, for this reason (Table 10.5) -/
  discard : Option Nat := none
  /-- it has failed, for this reason -/
  err : Option Nat := none
  /-- the lines received, oldest first, each a list of 16-bit values, channels interleaved -/
  lines : List (List Nat) := []
  deriving DecidableEq, Repr

/-- A lidar sweep being gathered (10 R261, R262). -/
structure Sweep where
  /-- tick of its SWEEP_CLOSE (10 R240) -/
  tick : Nat := 0
  /-- capture stamp of the first accepted packet -/
  capture : Option Gtc := none
  /-- allocated slots in order: column, row, points kept -/
  slots : List (Nat × Nat × Nat) := []
  discarded : Nat := 0
  /-- SWEEP_CLOSE has come in this tick: its GTC count -/
  closed : Option Gtc := none
  /-- its flush has ended and its sample completed -/
  isOver : Bool := false
  /-- a word of its buffers has been found uncorrectable (10 R272) -/
  bad : Bool := false
  /-- a packet of it met an Ethernet buffer that overflowed (10 R273) -/
  overrun : Bool := false
  deriving DecidableEq, Repr

/-- What a sample completes with, before its record is posted (10, Table 10.4). -/
structure SampleRes where
  stream : Nat
  status : Nat
  reason : Nat
  capture : Gtc
  admitAt : Gtc
  info0 : Nat := 0
  info1 : Nat := 0
  cached : Bool := false
  tick : Nat := 0
  deriving DecidableEq, Repr

/-- The packed tile in the decoder (10 R265 to R271). -/
structure Tile where
  stream : Nat
  /-- its first 32 bytes -/
  header : List Byte
  admitAt : Gtc
  capture : Gtc
  /-- cycle of the fetch, and the cycles the decoder takes in all (R268) -/
  at_ : Nat
  cost : Nat
  /-- reason it fails with (Table 10.5), or none -/
  err : Option Nat := none
  cached : Bool := false
  /-- decoded elements, channel plane after channel plane -/
  elems : List Int := []
  /-- PRIOR: cells inserted so far, and the cycle at which insertion began -/
  inserted : Nat := 0
  insertAt : Option Nat := none
  /-- tick of its admission (10 R240) -/
  tick : Nat := 0
  deriving DecidableEq, Repr

/-- The tannery (10). -/
structure Siu where
  /-- 48 x 256 | 10 R274, R276, 13 R340 | STALE_NS 0, GAIN 0x1000, else 0 | SIU_STREAMn_TUNE in use -/
  tune : List (BitVec 256) := []
  /-- 48 x 256 | 13 R340 | as in use | SIU_STREAMn_TUNE shadow copies -/
  shadow : List (BitVec 256) := []
  /-- 48 x 26 | 10 R239 | 0 | next sequence number of each stream -/
  seqNo : List Nat := []
  /-- 48 | 10 R240 | none | tick in which each stream last started a sample -/
  lastTick : List (Option Nat) := []
  /-- 32 | 10 R248 | none | camera frames between FS and FE -/
  cams : List (Option Cam) := []
  /-- 4 | 10 R261 | empty | lidar sweeps -/
  sweeps : List Sweep := [{}, {}, {}, {}]
  /-- - | 10 R263 | empty | closed sweeps of earlier ticks whose flush has not ended, with their EMAC -/
  flushing : List (Nat × Sweep) := []
  /-- - | 10 R264 | none | the tile in the decoder -/
  tile : Option Tile := none
  /-- - | 10 R268 | 0 | cycle from which the tile decoder takes its next descriptor -/
  decAt : Nat := 0
  /-- 48 | 10 R243 | empty | camera streams whose region holds a frame of this tick that is stale by AGE -/
  aged : List Nat := []
  /-- - | 10 R244 | empty | samples whose outcome is fixed and whose record is not yet posted -/
  results : List SampleRes := []
  /-- - | 10 R276 | ring reset values | intake completion ring, SIU_CRING -/
  cring : Ring := {}
  /-- - | 10 R276 | ring reset values | tile ring, SIU_TRING -/
  tring : Ring := {}
  /-- 32 | 10 R277 | 0 | SIU_UNCLAIMED_CSI -/
  unclaimedCsi : Nat := 0
  /-- 32 | 10 R277 | 0 | SIU_UNCLAIMED_ETH -/
  unclaimedEth : Nat := 0
  /-- 4 MiB | 10 R272 | 0 | ECC state of the intake buffers, by word of the areas of Table 10.13 -/
  buf : Mem := {}
  deriving DecidableEq, Repr

/-! ### Harness -/

/-- A flit that the far end has not acknowledged (14 R347). -/
structure TxFlit where
  seq : Nat
  vc : Nat
  payload : List Byte
  /-- time at which it was last sent, and how often it has been resent -/
  sentAt : Nat
  resends : Nat := 0
  deriving DecidableEq, Repr

/-- A SIDE on one hop that has no SIDE_ACK yet (14 R361). -/
structure SideOut where
  body : BitVec 128
  sentAt : Nat
  resends : Nat := 0
  deriving DecidableEq, Repr

/-- An ordered set that waits for slot 15 (14 R357): a body, or a SYNC, whose times are those of its departure. -/
inductive OSet where
  | body (b : BitVec 128)
  | sync
  deriving DecidableEq, Repr

/-- Receive credits of a port that wait for the messages of a flit to be forwarded (14 R349). -/
structure RxHold where
  ticket : Nat
  port : Nat
  vc : Nat
  n : Nat
  deriving DecidableEq, Repr

/-- A Harness port (14). -/
structure Port where
  /-- 1 | 14 R366 | 0 | HRNn_STATUS.UP -/
  up : Bool := false
  /-- 1 | 14 R366 | 0 | HRNn_STATUS.DOWN -/
  down : Bool := false
  /-- 1 | 14 R366 | 0 | HRNn_STATUS.RETRAINING -/
  retraining : Bool := false
  /-- 1 | 14 R366 | 0 | HRNn_STATUS.REVERSED -/
  reversed : Bool := false
  /-- 8 | 14 R366 | 0 | HRNn_STATUS.LANE_INV -/
  inv : BitVec 8 := 0
  /-- 1 | 14 R366 | 0 | HRNn_STATUS.IDENT_OK -/
  identOk : Bool := false
  /-- 3 | 14 R366 | 0 | HRNn_STATUS.PEER -/
  peer : Nat := 0
  /-- 1 | 14 R359 | 0 | an IDENT has shown the port to be miswired: no messages -/
  stopped : Bool := false
  /-- - | 18 R434 | none | GROUP_M1 and GROUP_TAG of the last IDENT since reset -/
  identOf : Option (Nat × Word) := none
  /-- - | 14 R344 | 0 | time at which the running attempt to train began -/
  trainAt : Nat := 0
  /-- - | 14 R348 | 0 | retrains in a row that have failed -/
  failed : Nat := 0
  /-- 12 | 14 R347 | 0 | SEQ of the next flit sent -/
  txSeq : Nat := 0
  /-- up to 64 flits | 14 R347 | empty | replay buffer, oldest first -/
  replay : List TxFlit := []
  /-- 12 | 14 R347 | 0 | SEQ expected next -/
  rxSeq : Nat := 0
  /-- 1 | 14 R347 | 0 | NAK goes out in the next flit -/
  nakDue : Bool := false
  /-- 2 x 7 | 14 R349 | far end's buffer | receive credits held, latency-critical and best-effort -/
  credits : Nat × Nat := (0, 0)
  /-- 2 | 14 R349 | 0 | credits to return with the next flit -/
  creditDue : Nat × Nat := (0, 0)
  /-- - | 14 R350 | empty | message bytes not yet packed, latency-critical and best-effort -/
  txq : List Byte × List Byte := ([], [])
  /-- - | 14 R350 | empty | payload bytes of a message not yet whole, latency-critical and best-effort -/
  rxq : List Byte × List Byte := ([], [])
  /-- 32 | 14 R366 | 0 | HRNn_REPLAYS -/
  replays : Nat := 0
  /-- 16 | 14 R366 | 0 | HRNn_DELAY -/
  delay : Nat := 0
  /-- 2 x 32 | 14 R357 | 0 | T_TX of the last SYNC received and its arrival time, in half nanoseconds -/
  echo : Word × Word := (0, 0)
  /-- - | 14 R361 | empty | SIDEs sent on this hop and not acknowledged -/
  sides : List SideOut := []
  /-- up to 16 bodies | 14 R345, R357 | empty | ordered sets last sent in slot 15 -/
  sent15 : List (BitVec 128) := []
  /-- - | 14 R345 | empty | ordered sets that wait for slot 15 -/
  pend15 : List OSet := []
  /-- 256 bytes | 14 R346 | empty | the last flit sent that carried a payload, a NAK or credits -/
  lastFlit : List Byte := []
  /-- - | 14 R345 | 0 | time at which slot 0 began -/
  upAt : Nat := 0
  /-- - | 14 R345 | 0 | number of the next slot -/
  txSlot : Nat := 0
  /-- up to 64 x 12 | 14 R347 | empty | SEQ of the flits that are to be sent again, in order -/
  redo : List Nat := []
  /-- - | 14 R349 | empty | forwarded messages not yet sent: VC, bytes up to the end of the message, ticket of the flit they came in -/
  fwd : List (Nat × Nat × Nat) := []
  deriving DecidableEq, Repr

/-- A request to a peer that waits for its response (14 R351, R352). -/
structure RemReq where
  rid : Nat
  core : Nat
  run : Nat
  store : Bool
  /-- dispatch number of the entry that sent it -/
  seq : Nat
  lc : Bool
  write : Bool
  /-- space at the peer (Table 14.3) -/
  space : Nat := 1
  /-- position of its first byte in the walk, its address and its length -/
  pos : Nat
  addr : Nat := 0
  len : Nat
  port : Nat
  /-- device cycle by which a latency-critical response is due (R355), and the time of issue -/
  due : Nat
  sentAt : Nat
  missed : Bool := false
  /-- its command has been ended: the response is dropped (R352) -/
  dropped : Bool := false
  /-- the domain whose fence has ended it (17 R414, R417) -/
  fence : Option Nat := none
  deriving DecidableEq, Repr

/-- What a device keeps about one peer (14 R351, R352, 17 R419, 19 Table 19.6). -/
structure Peer where
  /-- 16 | 14 R351 | 0 | RID of the next request to it -/
  nextRid : Nat := 0
  /-- up to 1,024 | 14 R352 | empty | requests outstanding to it -/
  out : List RemReq := []
  /-- 16 | 14 R351 | none | highest RID seen from it -/
  high : Option Nat := none
  /-- 1,024 | 14 R351 | empty | its executed writes among the last 1,024 RIDs -/
  executed : List Nat := []
  /-- domains | 17 R419 | empty | its domains whose DOMAIN_FENCE holds it fenced -/
  fences : List Nat := []
  /-- 1 | 17 R419 | 0 | it has sent DEVICE_SAFE and not yet DEVICE_READY -/
  inSafe : Bool := false
  /-- 25 x 8 | 19 R450 | 0 | GEN of its domains as its SIDEs gave them -/
  gens : List Nat := []
  /-- 32 | 19 R450 | 0 | its domains that are fenced -/
  fenced : BitVec 32 := 0
  /-- 1 | 19 R450 | 0 | a SIDE or IDENT of it has been seen -/
  known : Bool := false
  /-- 1 | 19 R450 | 0 | DEVICE_READY seen -/
  ready : Bool := false
  /-- 8 | 19 R450 | 0 | last KIND -/
  lastKind : Nat := 0
  /-- 16 | 19 R450 | 0 | last MSEQ -/
  lastMseq : Nat := 0
  deriving DecidableEq, Repr

/-- The Harness: four ports, what is kept per peer, the side channel (14). -/
structure Hrn where
  /-- 4 ports | 14 R343 | as their lines | ports H0 to H3 -/
  ports : List Port := [{}, {}, {}, {}]
  /-- 8 peers | 14 R351 | as their lines | devices of the group by DEV_ID -/
  peers : List Peer := [{}, {}, {}, {}, {}, {}, {}, {}]
  /-- 16 | 14 R360 | 0 | MSEQ of the next SIDE of this device -/
  mseq : Nat := 0
  /-- - | 14 R361 | empty | (ORIGIN, MSEQ) already seen -/
  seen : List (Nat × Nat) := []
  /-- 64 x 128 | 14 R366 | 0 | HRN_SIDE_LOG -/
  log : List (BitVec 128) := []
  /-- 6 | 14 R366 | 0 | HRN_SIDE_LOG_IDX -/
  logIdx : Nat := 0
  /-- - | 14 R349 | 0 | ticket of the last flit that was accepted -/
  ticket : Nat := 0
  /-- - | 14 R349 | empty | credits that wait for forwarded messages to leave -/
  holds : List RxHold := []
  deriving DecidableEq, Repr

/-! ### PCI, MGT, RST, DRU, OBS, TAP -/

/-- An MSI-X table entry (20 R471). -/
structure MsixEnt where
  addr : DWord := 0
  data : Word := 0
  mask : Bool := true
  deriving DecidableEq, Repr

/-- The answer to the last host read, or to the last request answered as unsupported. -/
structure HostAns where
  data : List Byte := []
  /-- the completion carries EP (08 R212) -/
  ep : Bool := false
  /-- Unsupported Request (20 R470) -/
  ur : Bool := false
  deriving DecidableEq, Repr

/-- An error message of the endpoint. -/
inductive PciErr where
  | nonFatal
  | fatal
  deriving DecidableEq, Repr

/-- The PCI Express endpoint (20). -/
structure Pci where
  /-- 1 | 20 R474 | 0 | PCI_LINK_STATUS.DL_ACTIVE -/
  dlActive : Bool := false
  /-- 1 | 20 R474 | 0 | PCI_LINK_STATUS.BME -/
  bme : Bool := false
  /-- 1 | 20 R474 | 0 | PCI_LINK_STATUS.D3HOT -/
  d3hot : Bool := false
  /-- 4 | 20 R474 | 0 | PCI_LINK_STATUS.SPEED -/
  speed : BitVec 4 := 0
  /-- 6 | 20 R474 | 0 | PCI_LINK_STATUS.WIDTH -/
  width : BitVec 6 := 0
  /-- 32 | 20 R463, R474 | 0 | PCI_REPLAYS -/
  replays : Nat := 0
  /-- 1 | 20 R471 | PRESUMED 0 (PCI Express MSI-X), entry 33 | MSI-X Enable -/
  msixEn : Bool := false
  /-- 1 | 20 R471 | PRESUMED 0 (PCI Express MSI-X), entry 33 | MSI-X Function Mask -/
  msixMask : Bool := false
  /-- 512 x 128 | 20 R471 | PRESUMED masked, else 0, entry 33 | MSI-X table: vector and entry, vectors rising -/
  msix : List (Nat × MsixEnt) := []
  /-- 512 | 20 R471 | 0 | MSI-X PBA -/
  pba : BitVec 512 := 0
  /-- 1 | 20 R464 | DESIGN CHOICE 1, entry 53 | the BARs are assigned: 0 from a Hot Reset to the next configuration write -/
  configured : Bool := true
  /-- - | 20 R460, R465, R470 | as CfgSpace | the further fields of configuration space, the bases at their BARs' alignment -/
  cfg : CfgSpace := {}
  /-- - | 20 R470 | as AerSet | the settings of Advanced Error Reporting, kept by a Hot Reset -/
  aer : AerSet := {}
  /-- 1 | 20 R470 | PRESUMED 0, entry 33 | Uncorrectable Error Status, Unsupported Request -/
  urSeen : Bool := false
  /-- - | 20 R470 | none | the last error message sent -/
  lastErr : Option PciErr := none
  /-- - | 20 R468 | empty | answer to the last host request -/
  ans : HostAns := {}
  deriving DecidableEq, Repr

/-- The OTP fields of 19, Table 19.2. -/
structure Otp where
  corePresent : BitVec 16 := 0xFFFF
  dieId : DWord := 0
  dieRev : Byte := 0
  lc : BitVec 3 := 0
  fwKey : List Byte := []
  patKey : List Byte := []
  svn : Nat := 0
  deriving DecidableEq, Repr

/-- What the retained record keeps of an assertion point (18 R430, Table 18.3). -/
structure RetRec where
  /-- 64 | 18 R430 | as the record | GLB_PAT_ADDR -/
  patAddr : DWord := 0
  /-- 32 | 18 R430 | as the record | GLB_PATTERN_ID -/
  patternId : Word := 0
  /-- 8 | 18 R430 | as the record | STATE, 0xFF once a resume check has failed -/
  patState : Nat := 0
  /-- 64 | 18 R430 | as the record | TIME_LAUNCH -/
  launch : Gtc := 0
  /-- 64 | 18 R430 | as the record | TIME_PERIOD -/
  period : Nat := 0
  /-- 13 x 32 | 18 R430 | as the record | TIME_CTRL, TIME_SERVO, TIME_TRIM, TIME_PIN_CFG, TIME_SYNC_PERIOD, TIME_EPADJ0 to 3 -/
  timeCfg : List Word := []
  /-- 36 x 4 x 32 | 18 R430 | as the record | FLT_INFO0 to FLT_INFO2 and FLT_LVL of every block -/
  captures : List Word := []
  /-- 32 | 18 R430 | as the record | GLB_SAFE -/
  safe : Word := 0
  deriving DecidableEq, Repr

/-- The management subsystem (19). -/
structure Mgt where
  /-- 16 + 8 | 19 R459 | 0 | MGT_MBX_CMD: TAG and CODE -/
  cmd : Word := 0
  /-- 4 x 32 | 19 R459 | 0 | MGT_MBX_ARG0 to MGT_MBX_ARG3 -/
  args : List Word := [0, 0, 0, 0]
  /-- 16 | 19 R459 | 0 | MGT_MBX_STATUS.TAG -/
  stTag : BitVec 16 := 0
  /-- 8 | 19 R459 | 0 | MGT_MBX_STATUS.RESULT -/
  result : Nat := 0
  /-- 1 | 19 R459 | 0 | MGT_MBX_STATUS.OVERRUN -/
  overrun : Bool := false
  /-- 1 | 19 R459 | 0 | MGT_MBX_STATUS.DONE -/
  done : Bool := false
  /-- 1 | 19 R459 | 0 | MGT_MBX_STATUS.BUSY -/
  busy : Bool := false
  /-- 4 x 32 | 19 R459 | 0 | MGT_MBX_RSP0 to MGT_MBX_RSP3 -/
  rsp : List Word := [0, 0, 0, 0]
  /-- 4,096 bytes | 19 R459 | 0 | MGT_MBX_BUF -/
  buf : Mem := {}
  /-- 24 x 32 | 19 R459 | 0 | MGT_TEMP0 to MGT_TEMP23 -/
  temps : List Word := []
  /-- 12 x 32 | 19 R459 | 0 | MGT_VMON0 to MGT_VMON11 -/
  vmon : List Word := []
  /-- - | 19 R442 | DESIGN CHOICE all cores present, else unblown, entry 9 | OTP fuses as blown -/
  fuses : Otp := {}
  /-- - | 19 R442 | the fuses | OTP fields as the boot ROM last read them -/
  otp : Otp := {}
  /-- 1 | 19 R459 | 0 until booted | MGT_LIFECYCLE.SLOT -/
  slot : Bool := false
  /-- 1 | 19 R459 | 0 until booted | MGT_LIFECYCLE.TRIAL -/
  trial : Bool := false
  /-- 1 | 19 R459 | 0 until booted | MGT_LIFECYCLE.FALLBACK -/
  fallback : Bool := false
  /-- 1 | 19 R450 | 0 | an OK FW_VERIFY with no FW_WRITE since -/
  verified : Bool := false
  /-- 32 | 19 R446 | 0 | FW_VER of the running image -/
  fwVer : Word := 0
  /-- 8 | 19 R446 | 0 | SVN of the running image -/
  fwSvn : Nat := 0
  /-- 1 MiB | 19 R439, R446 | 0 | management SRAM: the body of the running image from offset 0, and the ECC state of every 64-bit word -/
  sram : Mem := {}
  /-- 4 KiB | 18 R430 | none: the record is invalid | the retained record of the last assertion point, when its magic and CRC hold -/
  rec_ : Option RetRec := none
  /-- 64 KiB | 18 R429 | DESIGN CHOICE 0, entry 7 | retained SRAM beside the fields of the record -/
  retained : Mem := {}
  /-- 1 | 18 R430 | 0 | the retained SRAM holds the results of a DRAM training -/
  training : Bool := false
  /-- 32 bytes | 18 R430 | DESIGN CHOICE 0, entry 7 | FW_DIGEST: SHA-256 of the firmware image last verified -/
  digest : List Byte := []
  /-- 16 MiB | 19 R440, R445 | PRESUMED 0xFF (erased NOR flash), entry 8 | flash -/
  flash : Mem := { fill := .byte 0xFF }
  /-- 64 sectors | the model's own, entry 8 | DESIGN CHOICE all, entry 8 | sectors of slot A that hold the firmware image the part is delivered with -/
  delivered : BitVec 64 := 0xFFFFFFFFFFFFFFFF
  /-- 10,240 bytes | 19 R451, R452 | 0 | lifetime record in SRAM, pending counts included, by the offsets of Table 19.8 -/
  life : Mem := {}
  /-- 10,240 bytes | 19 R451 | 0 | the lifetime record as last written to the flash: what the present one exceeds it by is pending -/
  lifeFlash : Mem := {}
  /-- 1 | 19 R450 | 0 | the flash does not answer: a read, program or erase fails -/
  flashBad : Bool := false
  /-- 32 | 19 R452 | 0 | SEQ of the last lifetime copy written -/
  lifeSeq : Nat := 0
  /-- 36 x 64 x 16 | 19 R451 | 0 | FLT_CNT values last read for the lifetime record -/
  lifeCnt : List (List Nat) := []
  /-- - | 19 R451 | 0 | tenths of a second counted towards the next whole second -/
  lifeTenths : Nat := 0
  deriving DecidableEq, Repr

/-- The RST block and what survives a reset (18). -/
structure Rst where
  /-- 8 | 18 R438 | per R431 | RST_STATUS.ATTEMPTS_AT_START -/
  attemptsAtStart : Nat := 0
  /-- 1 | 18 R438 | per R426 | RST_STATUS.XTAL_LOST -/
  xtalLost : Bool := false
  /-- 1 | 18 R438 | 0 | RST_STATUS.LATE -/
  late : Bool := false
  /-- 1 | 18 R438 | 0 | RST_STATUS.RESUMED -/
  resumed : Bool := false
  /-- 1 | 18 R435, R438 | 0 | RST_STATUS.READY and the READY pin -/
  ready : Bool := false
  /-- 1 | 18 R438 | per R431 | RST_STATUS.MODE: Minimal Recovery Mode -/
  minimal : Bool := false
  /-- 1 | 18 R438 | per the reset: 0 | RST_STATUS.CAUSE: 1 RESET_N -/
  cause : Bool := false
  /-- 3 | 18 R438 | 0 BOOT | RST_STATUS.PHASE -/
  phase : Nat := 0
  /-- 1 | 18 R428, R438 | 0 after power-on | RST_CTRL.PIN_HOLD -/
  pinHold : Bool := false
  /-- 1 | 18 R438 | kept; 0 at power-on | RST_CTRL.RESUME_EN -/
  resumeEn : Bool := false
  /-- 16 | 18 R438 | kept; 3,000 at power-on | RST_START_LIMIT -/
  startLimit : Nat := 3000
  /-- 16 | 18 R438 | kept; 0 at power-on | RST_SHORT_CNT -/
  shortCnt : Nat := 0
  /-- 64 | 18 R438 | kept; 0 at power-on | RST_GTC_AT_ASSERT -/
  gtcAtAssert : Gtc := 0
  /-- 32 | 18 R438 | kept; 0 at power-on | RST_HOLD_XTAL -/
  holdXtal : Word := 0
  /-- 16 x 32 | 18 R438 | kept; 0 at power-on | BKUP0 to BKUP15 -/
  bkup : List Word := []
  /-- 1 | 18 R423 | 1: the cold reset holds | the logic is held in reset -/
  inReset : Bool := true
  /-- 1 | 18 R424 | 0: RESET_N is high | RESET_N has been low for 64 cycles -/
  pinLow : Bool := false
  /-- 1 | 18 R423 | 1 | the power-on detector is asserted -/
  porOn : Bool := true
  /-- 1 | 18 R426 | 0 | the XTAL clock is absent -/
  noXtal : Bool := false
  /-- 1 | 18 R429, R434 | 0 | DRC_STATUS.SELF_REFRESH at the release -/
  srAtRelease : Bool := false
  /-- 51 pins | 18 R427, R428 | empty | what the held pins were driven to when a warm reset was asserted; none is high impedance -/
  held : List (Option Bool) := []
  /-- 12 | 21 R485, R486 | empty | voltage monitors outside their range for which the boot ROM waits -/
  monOut : List Nat := []
  /-- - | 18 R431 | 0 | time of the internal release, from which START_LIMIT counts -/
  releaseAt : Nat := 0
  deriving DecidableEq, Repr

/-- One reset domain at the DRU (17 R422). -/
structure Dom where
  /-- 3 | 17 R422 | 0 IN_SERVICE | DRU_DOMd_STATUS.PHASE -/
  phase : Nat := 0
  /-- 8 | 17 R417, R422 | kept; 0 at power-on | DRU_DOMd_STATUS.GEN -/
  gen : Nat := 0
  /-- 8 | 17 R422 | 0 | DRU_DOMd_STATUS.RESTARTS -/
  restarts : Nat := 0
  /-- - | 17 R412 | 0 | time of the fence -/
  fenceAt : Nat := 0
  /-- - | 17 R412 | 0 | device cycle in which the present phase began -/
  phaseAt : Nat := 0
  /-- - | 17 R412 | 0 | time at which the present phase began -/
  phaseNs : Nat := 0
  /-- 1 | 17, Table 17.5 | 0 | its restart was in progress when the safe state was entered: PHASE is frozen -/
  frozen : Bool := false
  deriving DecidableEq, Repr

/-- A message between a core and a domain on the die that a fence or a reset has abandoned under way (17 R414, R417). -/
structure LateMsg where
  core : Nat
  store : Bool
  /-- the domain that the transfer was with -/
  target : Nat
  /-- generations of the core's domain and of the target at the issue -/
  gens : Nat × Nat
  deriving DecidableEq, Repr

/-- The Domain Recovery Unit (17). -/
structure Dru where
  /-- 1 | 17 R422 | 0 | DRU_HB_STATUS.ARMED -/
  armed : Bool := false
  /-- 1 | 17 R410 | 0 | the first heartbeat since the release has come -/
  started : Bool := false
  /-- 2 | 17 R422 | 0 | DRU_HB_STATUS.MISSED -/
  missed : Nat := 0
  /-- 16 | 17 R422 | 0 | DRU_HB_STATUS.LAST -/
  last : BitVec 16 := 0
  /-- - | 17 R410 | 0 | time at which the heartbeat timer last restarted -/
  timerAt : Nat := 0
  /-- 25 domains | 17 R409 | as their lines | reset domains by number; 0 is D_MGT -/
  doms : List Dom := []
  /-- 25 | 17 R411 | 0 between commands | restart requests not yet carried to their fence -/
  req : List Nat := []
  /-- - | 17 R414, R417 | empty | messages on the die that a fence or a reset has abandoned under way -/
  late : List LateMsg := []
  /-- partitions' first tick after an unfence | 17 R415 | 0 | D_FST or D_DRC has come back: the next tick is void -/
  voidNext : Bool := false
  deriving DecidableEq, Repr

/-- The Observation Unit (19 R453 to R457). -/
structure Obs where
  /-- 16 | 19 R459 | 0 | OBS_TRACE_CTRL.BUNDLE_CORES -/
  bundleCores : BitVec 16 := 0
  /-- 16 | 19 R459 | 0 | OBS_TRACE_CTRL.TYPE_EN at bits 15:1 -/
  typeEn : BitVec 16 := 0
  /-- 1 | 19 R459 | 0 | OBS_TRACE_DEST.PINS -/
  pins : Bool := false
  /-- 1 | 19 R459 | 0 | OBS_TRACE_DEST.RING -/
  ring : Bool := false
  /-- 21 | 19 R459 | 0 | OBS_TRACE_WPTR.INDEX -/
  wptr : Nat := 0
  /-- 1 | 19 R459 | 0 | OBS_TRACE_WPTR.WRAPPED -/
  wrapped : Bool := false
  /-- 32 | 19 R459 | 0 | OBS_TRACE_LOST -/
  lost : Nat := 0
  /-- 32 | 19 R455 | 0 | records lost to the ring in the present run of losses -/
  lostRun : Nat := 0
  /-- 64 | 19 R455 | 0 | GTC at which the last record was lost to the ring -/
  lostAt : Gtc := 0
  /-- up to 4,096 records | 19 R455 | empty | the 64 KiB on-die trace buffer -/
  buf : List (BitVec 128) := []
  /-- 4 KiB | 19 R457 | 0 | time at which the pin buffer will have emptied -/
  pinAt : Nat := 0
  /-- up to 256 records | 19 R457 | empty | records on their way out of the pin buffer, with the time at which their first byte goes out -/
  pinQ : List (Nat × BitVec 128) := []
  /-- 1 | 19 R457 | 0 | the last record was lost to the pins -/
  pinLost : Bool := false
  /-- 1 | 19 R455 | 0 between commands | OBS_TRACE_OVF is to fire -/
  ovfDue : Bool := false
  /-- 64 | 19 R454 | 0 | OBS_FST_LC_ACC -/
  fstLc : Nat := 0
  /-- 64 | 19 R454 | 0 | OBS_FST_BE_ACC -/
  fstBe : Nat := 0
  /-- 64 | 19 R454 | 0 | OBS_DRAM_RD -/
  dramRd : Nat := 0
  /-- 64 | 19 R454 | 0 | OBS_DRAM_WR -/
  dramWr : Nat := 0
  /-- 4 x 64 | 19 R454 | 0 | OBS_H0_TX_FLITS to OBS_H3_TX_FLITS -/
  txFlits : List Nat := [0, 0, 0, 0]
  deriving DecidableEq, Repr

/-- The states of the IEEE 1149.1 TAP controller. -/
inductive TapState where
  | reset | idle
  | selDr | capDr | shDr | ex1Dr | paDr | ex2Dr | upDr
  | selIr | capIr | shIr | ex1Ir | paIr | ex2Ir | upIr
  deriving DecidableEq, Repr

/-- The test access port (19 R458). -/
structure Tap where
  /-- - | 19 R458 | Test-Logic-Reset | controller state -/
  st : TapState := .reset
  /-- 8 | 19 R458 | IDCODE 0x01 | instruction register -/
  ir : BitVec 8 := 1
  /-- 8 | 19 R458 | PRESUMED 0x01 (IEEE 1149.1), entry 38 | instruction shift register -/
  irShift : BitVec 8 := 1
  /-- - | 19 R458 | PRESUMED empty (IEEE 1149.1), entry 38 | selected data register as it shifts, bit 0 first -/
  dr : List Bool := []
  /-- 51 | 19 R458 | DESIGN CHOICE 0, entry 38 | boundary register, update stage -/
  bsr : List Bool := []
  /-- 1 | 19 R458 | 0 | TDO -/
  tdo : Bool := false
  /-- 1 | 18 R427 | 0 | TDO is driven (a shift state) -/
  tdoOn : Bool := false
  deriving DecidableEq, Repr

/-- The TH1600. -/
structure State where
  /-- - | the block's model | empty | commands waiting, first in, first out -/
  pending : List Instr := []
  /-- - | 11 | as its lines | GTC and device clock -/
  clk : Clock := {}
  /-- - | 13, 15, 16 | as its lines | GLB -/
  glb : Glb := {}
  /-- - | 11 | as its lines | TIME -/
  time : TimeU := {}
  /-- - | 12 | as its lines | DISP -/
  disp : Disp := {}
  /-- 16 cores | 03 R68 | as their lines | CC0 to CC15 -/
  cores : List Core := []
  /-- 4 units | 05 R134 | as their lines | RSMP0 to RSMP3 -/
  rsmp : List Rsmp := [{}, {}, {}, {}]
  /-- - | 09 | as its lines | KFS -/
  kfs : Kfs := {}
  /-- - | 08 | as its lines | FST -/
  fst : Fst := {}
  /-- - | 08 | as its lines | DRC -/
  drc : Drc := {}
  /-- - | 10 | as its lines | SIU -/
  siu : Siu := {}
  /-- - | 14 | as its lines | Harness -/
  hrn : Hrn := {}
  /-- - | 20 | as its lines | PCI -/
  pci : Pci := {}
  /-- - | 19 | as its lines | MGT -/
  mgt : Mgt := {}
  /-- - | 18 | as its lines | RST -/
  rst : Rst := {}
  /-- - | 17 | as its lines | DRU -/
  dru : Dru := {}
  /-- - | 19 | as its lines | OBS -/
  obs : Obs := {}
  /-- 36 blocks | 16 R393, R394 | as their lines | fault register sets by block number -/
  flt : List FltBlock := []
  /-- - | 19 R458 | as its lines | TAP -/
  tap : Tap := {}
  /-- per pair | 00 R10, 20 R467 | empty | _HI values latched for the host: BAR0 offset of the _HI register, value -/
  loHost : List (Nat × Word) := []
  /-- per pair | 00 R10, 20 R467 | empty | _HI values latched for the management processor -/
  loMgt : List (Nat × Word) := []
  /-- 64-bit space | 20 R461 | DESIGN CHOICE 0, entry 10 | host memory, which the device writes and reads -/
  host : Mem := {}
  /-- - | the model's own, entry 4 | DESIGN CHOICE 0, entry 4 | number of the next free value -/
  freeSeq : Nat := 0
  /-- - | the model's own, entry 4 | DESIGN CHOICE 0, entry 4 | number of the next run of a command -/
  runSeq : Nat := 0
  deriving DecidableEq, Repr

/-! ### Reset -/

/-- SIU_STREAMn_TUNE at reset (10, Table 10.19): the three gains 0x1000, every other field 0. -/
def tuneReset : BitVec 256 := BitVec.ofNat 256 (0x100010001000 <<< 96)

/-- A block's fault register set at reset (16, R394, R395, R405). -/
def FltBlock.reset (b : Nat) : FltBlock :=
  { sev := (List.range 64).map (defaultSev b), floor := (List.range 64).map (defaultFloor b) }

/-- The machine as a cold reset leaves it, while the power-on detector is still asserted (18, R423, R429): every field at
the value its docstring gives. -/
def State.reset : State :=
  { cores := List.replicate 16 {}
    flt := (List.range 36).map FltBlock.reset
    siu := { tune := List.replicate 48 tuneReset, shadow := List.replicate 48 tuneReset,
             seqNo := List.replicate 48 0, lastTick := List.replicate 48 none, cams := List.replicate 32 none }
    dru := { doms := List.replicate 25 {} } }

end Sys2Proof.Machine
end

