-- ==== Sys2Proof/Machine/MemOps.lean ====
section
/-!
DEFINITION. The named operations over one byte-addressed memory: reading and writing bytes in the canonical form, runs of
addresses, and the ECC state of its words (08, R193, R211 to R213).
-/
namespace Sys2Proof.Machine

/-- What an address that is not listed reads as. -/
def Fill.at (f : Fill) (a : Nat) : Byte :=
  match f with
  | .byte b => b
  | .free tag => Config.freeByte tag a
  | .swatch c => Config.swatchByte c a

/-- The listed byte at an address. -/
def cellGet : List Host.Cell → Nat → Option Byte
  | [], _ => none
  | (k, v) :: rest, a => if k = a then some v else cellGet rest a

/-- The listed cells after a write; `drop` says that the byte is what an unlisted address reads as. -/
def cellPut (drop : Bool) (a : Nat) (b : Byte) : List Host.Cell → List Host.Cell
  | [] => if drop then [] else [(a, b)]
  | (k, v) :: rest =>
    if a < k then (if drop then (k, v) :: rest else (a, b) :: (k, v) :: rest)
    else if a = k then (if drop then rest else (a, b) :: rest)
    else (k, v) :: cellPut drop a b rest

/-- Whether a byte is the one that unlisted addresses are known to read as. -/
def Fill.isByte (f : Fill) (b : Byte) : Bool :=
  match f with
  | .byte x => x == b
  | _ => false

/-- The byte at an address. -/
def Mem.rd (m : Mem) (a : Nat) : Byte := (cellGet m.cells a).getD (m.fill.at a)

/-- One byte written. -/
def Mem.wr (m : Mem) (a : Nat) (b : Byte) : Mem := { m with cells := cellPut (m.fill.isByte b) a b m.cells }

/-- `n` bytes from an address on. -/
def Mem.rdN (m : Mem) (a n : Nat) : List Byte := (List.range n).map fun i => m.rd (a + i)

/-- Bytes written from an address on. -/
def Mem.wrN : Mem → Nat → List Byte → Mem
  | m, _, [] => m
  | m, a, b :: bs => (m.wr a b).wrN (a + 1) bs

/-- Cells written in the order given, so that a later write of a byte remains (07, R184). -/
def Mem.wrCells (m : Mem) (cs : List Host.Cell) : Mem := cs.foldl (fun m c => m.wr c.1 c.2) m

/-- Little-endian number of `n` bytes at an address. -/
def Mem.rdLe (m : Mem) (a n : Nat) : Nat := ofLe (m.rdN a n)

/-- Every byte of the memory reads `b` and no word is in error. -/
def Mem.filled (b : Byte) : Mem := { fill := .byte b }

/-- Addresses strictly rising. -/
def cellsRise : List Host.Cell → Bool
  | [] => true
  | [_] => true
  | (a, _) :: (b, v) :: rest => decide (a < b) && cellsRise ((b, v) :: rest)

/-- The canonical form: addresses strictly rising, and no listed byte equal to what an unlisted address reads as. -/
def Mem.wf (m : Mem) : Bool := cellsRise m.cells && m.cells.all fun c => !(m.fill.isByte c.2)

/-! ### ECC words -/

/-- The ECC words of `w` bytes that `n` bytes from `a` touch, `n` positive. -/
def eccWords (w a n : Nat) : List Nat :=
  if n = 0 then [] else (List.range ((a + n - 1) / w + 1 - a / w)).map (a / w + ·)

/-- The ECC words of `w` bytes that `n` bytes from `a` cover in full. -/
def fullWords (w a n : Nat) : List Nat := (eccWords w a n).filter fun k => a ≤ k * w && k * w + w ≤ a + n

/-- Whether the bytes touch a word with a single-bit upset. -/
def Mem.hasCe (m : Mem) (w a n : Nat) : Bool := !m.ce.isEmpty && (eccWords w a n).any m.ce.contains

/-- Whether the bytes touch a poisoned word. -/
def Mem.hasUe (m : Mem) (w a n : Nat) : Bool := !m.ue.isEmpty && (eccWords w a n).any m.ue.contains

/-- The memory after a read has corrected the words it touches; their write-back waits (R211). -/
def Mem.corrected (m : Mem) (w a n : Nat) : Mem :=
  if m.ce.isEmpty then m
  else
    let ks := eccWords w a n
    { m with ce := m.ce.filter fun k => !ks.contains k, wb := (m.ce.filter ks.contains).foldl addNew m.wb }

/-- The bytes written from `a` on, with the effect on the ECC state: a full word clears poison and upset, a narrower
write corrects an upset and leaves poison (R193, R212); a write-back it supersedes is dropped (R211). -/
def Mem.store (m : Mem) (w a : Nat) (bs : List Byte) : Mem :=
  let m1 := m.wrN a bs
  if m.ce.isEmpty && m.ue.isEmpty && m.wb.isEmpty then m1
  else
    { m1 with
      ce := m.ce.filter fun k => !(eccWords w a bs.length).contains k
      ue := m.ue.filter fun k => !(fullWords w a bs.length).contains k
      wb := m.wb.filter fun k => !(fullWords w a bs.length).contains k }

/-- Whether the internal read of a write narrower than its words meets an upset or poison (R193). -/
def Mem.mergeFinds (m : Mem) (w a n : Nat) : Bool × Bool :=
  let part := (eccWords w a n).filter fun k => !(fullWords w a n).contains k
  (part.any m.ce.contains, part.any m.ue.contains)

/-- The bytes are poisoned where they land. -/
def Mem.poison (m : Mem) (w a n : Nat) : Mem := { m with ue := (eccWords w a n).foldl addNew m.ue }

/-- The accesses of at most `blk` bytes, aligned, that a run of bytes makes (R213, R500). -/
def accessesOf (blk a : Nat) : Nat → Nat → List (Nat × Nat)
  | 0, _ => []
  | _, 0 => []
  | fuel + 1, n =>
    let k := min n (blk - a % blk)
    (a, k) :: accessesOf blk (a + k) fuel (n - k)

/-- The accesses of a run. -/
def accesses (blk a n : Nat) : List (Nat × Nat) := accessesOf blk a (n / blk + 2) n

/-- How many accesses meet a corrected word, and how many a poisoned one. -/
def Mem.finds (m : Mem) (w : Nat) (as : List (Nat × Nat)) : Nat × Nat :=
  if m.ce.isEmpty && m.ue.isEmpty then (0, 0)
  else ((as.filter fun x => m.hasCe w x.1 x.2).length, (as.filter fun x => m.hasUe w x.1 x.2).length)

/-- Consecutive addresses of a list of cells joined into runs. -/
def joinRuns : List Host.Cell → List (Nat × List Byte)
  | [] => []
  | (a, b) :: rest =>
    match joinRuns rest with
    | (a', bs) :: more => if a' = a + 1 then (a, b :: bs) :: more else (a, [b]) :: (a', bs) :: more
    | [] => [(a, [b])]

/-- Cells stored run by run. -/
def Mem.storeCells (m : Mem) (w : Nat) (cs : List Host.Cell) : Mem :=
  (joinRuns cs).foldl (fun m r => m.store w r.1 r.2) m

/-- A memory whose content is unspecified from now on (08, R195); its ECC state stays. -/
def Mem.forget (m : Mem) (tag : Nat) : Mem := { m with cells := [], fill := .free tag }

end Sys2Proof.Machine
end

