-- ==== Sys2Proof/Machine/Base.lean ====
section
/-!
DEFINITION. Access to the parts of the state, to the items of the Pattern in use (13, Table 13.2), and the passing of
time (11, R278 to R283; 12, R315, R317).
-/
namespace Sys2Proof.Machine

/-! ### Parts of the state -/

def coreAt (s : State) (c : Nat) : Core := s.cores.getD c {}

def modCore (s : State) (c : Nat) (f : Core → Core) : State := { s with cores := upd s.cores c f }

def modSt (s : State) (c : Nat) (f : CStat → CStat) : State := modCore s c fun k => { k with st := f k.st }

def portAt (s : State) (p : Nat) : Port := s.hrn.ports.getD p {}

def modPort (s : State) (p : Nat) (f : Port → Port) : State := { s with hrn := { s.hrn with ports := upd s.hrn.ports p f } }

def peerAt (s : State) (d : Nat) : Peer := s.hrn.peers.getD d {}

def modPeer (s : State) (d : Nat) (f : Peer → Peer) : State := { s with hrn := { s.hrn with peers := upd s.hrn.peers d f } }

def domAt (s : State) (d : Nat) : Dom := s.dru.doms.getD d {}

def modDom (s : State) (d : Nat) (f : Dom → Dom) : State := { s with dru := { s.dru with doms := upd s.dru.doms d f } }

def subAt (s : State) (r : Nat) : SubRing := s.disp.subs.getD r {}

def modSub (s : State) (r : Nat) (f : SubRing → SubRing) : State :=
  { s with disp := { s.disp with subs := upd s.disp.subs r f } }

def rsmpAt (s : State) (u : Nat) : Rsmp := s.rsmp.getD u {}

def modRsmp (s : State) (u : Nat) (f : Rsmp → Rsmp) : State := { s with rsmp := upd s.rsmp u f }

def fltAt (s : State) (b : Nat) : FltBlock := s.flt.getD b {}

/-- Core c is present (00, R4). -/
def present (s : State) (c : Nat) : Bool := s.mgt.otp.corePresent.getLsbD c

/-- Core c is retired (15, R376). -/
def isRetired (s : State) (c : Nat) : Bool := s.disp.retired.getLsbD c

/-- Domain d is in service (17, Table 17.9). -/
def inService (s : State) (d : Nat) : Bool := (domAt s d).phase == 0

/-- DRAM can be reached: trained, and D_DRC not fenced. -/
def dramUp (s : State) : Bool := s.drc.trained && inService s dDRC

/-- Usable DRAM size U (08, R207). -/
def dramU (s : State) : Nat := (if s.drc.attached then 30 else 15) * 0x4000_0000

/-- First address beyond the general region (08, Table 8.5). -/
def dramGenEnd (s : State) : Nat := dramU s - 352 * 0x10_0000

/-- First address of the Keyed Feature Store payload. -/
def kfsBase (s : State) : Nat := dramU s - 352 * 0x10_0000

/-- First address of the trace ring. -/
def traceBase (s : State) : Nat := dramU s - 96 * 0x10_0000

/-- First address of the management region. -/
def mgtBase (s : State) : Nat := dramU s - 64 * 0x10_0000

/-- Bytes of the Frame Store (08, Table 8.1). -/
def fstSize : Nat := 0x300_0000

/-- First Activation Scratchpad offset of the operand buffer (03, R81). -/
def aobBase : Nat := 0x1E_0000

/-! ### The Pattern in use -/

/-- VALUE of an item, if the image holds it. -/
def itm (s : State) (sec id idx : Nat) : Option (BitVec 64) :=
  (s.glb.pat.find? fun p => p.sec == sec && p.id == id && p.idx == idx).map PItem.val

/-- VALUE as a number, or a default. -/
def itmN (s : State) (sec id idx dflt : Nat) : Nat := ((itm s sec id idx).map BitVec.toNat).getD dflt

/-- VALUE as a signed number, or a default. -/
def itmI (s : State) (sec id idx : Nat) (dflt : Int) : Int := ((itm s sec id idx).map BitVec.toInt).getD dflt

/-- Field [hi:lo] of a VALUE. -/
def itmF (s : State) (sec id idx dflt hi lo : Nat) : Nat := bitsAt (itmN s sec id idx dflt) lo (hi + 1 - lo)

/-- DEV_ID, GROUP_M1, LEAD_ID and GROUP_TAG of the TOPOLOGY section. -/
def devId (s : State) : Nat := itmN s 1 1 0 0
def groupM1 (s : State) : Nat := itmN s 1 2 0 0
def leadId (s : State) : Nat := itmN s 1 3 0 0
def groupTag (s : State) : Word := BitVec.ofNat 32 (itmN s 1 4 0 0)

/-- A stage of the tick plan (01, Table 1.2). -/
structure Stage where
  compute : Bool
  openNs : Nat
  closeNs : Nat
  parts : Nat
  rsmp : Nat

def stageCnt (s : State) : Nat := itmN s 2 3 0 0

/-- Stage i of the plan in use, if it has one. -/
def stageAt (s : State) (i : Nat) : Option Stage :=
  if i < stageCnt s then
    some { compute := itmN s 2 0x10 i 0 == 1, openNs := itmN s 2 0x11 i 0, closeNs := itmN s 2 0x12 i 0,
           parts := itmN s 2 0x13 i 0, rsmp := itmN s 2 0x14 i 0 }
  else none

/-- The stages of the plan with their numbers. -/
def stages (s : State) : List (Nat × Stage) :=
  (List.range (stageCnt s)).filterMap fun i => (stageAt s i).map fun g => (i, g)

/-- COMPUTE stages that name partition p. -/
def stagesOf (s : State) (p : Nat) : List (Nat × Stage) :=
  (stages s).filter fun x => x.2.compute && x.2.parts.testBit p

/-- The plan uses partition p in a COMPUTE stage. -/
def usesPart (s : State) (p : Nat) : Bool := !(stagesOf s p).isEmpty

/-- Settle offset of partition p (01, R30). -/
def settleNs (s : State) (p : Nat) : Nat := maxN ((stagesOf s p).map fun x => x.2.closeNs)

/-- The INTAKE stage, if the plan has one. -/
def intakeStage (s : State) : Option (Nat × Stage) := (stages s).find? fun x => !x.2.compute

/-- Partition that holds core c, if any (12, R302). -/
def partOf (s : State) (c : Nat) : Option Nat :=
  (List.range 4).find? fun p => (s.disp.parts.getD p 0).getLsbD c

/-- The Pattern in use defines partition p: it holds a PART_CORES item for it (13, Table 13.2). -/
def partDefined (s : State) (p : Nat) : Bool := (itm s 1 0x10 p).isSome

/-- Cores of partition p. -/
def coresOf (s : State) (p : Nat) : List Nat := (List.range 16).filter fun c => (s.disp.parts.getD p 0).getLsbD c

/-- Block b of the Weight Buffer of core c is resident (08, R194). -/
def isResident (s : State) (c blk : Nat) : Bool := (itmN s 5 1 (2 * c + blk / 64) 0).testBit (blk % 64)

/-! ### Time -/

/-- Device cycles in 5 ns at a performance point (11, Table 11.1). -/
def cyclesPer5 (perf : Nat) : Nat := if perf = 0 then 5 else if perf = 1 then 4 else 3

/-- Device cycles in 5 ns now. -/
def perfF (s : State) : Nat := cyclesPer5 s.time.perf

/-- The clock after `n` GTC counts at `f` device periods per 5 ns: the present device cycle lasts one period, and one more for its
stretch (11, R287). -/
def Clock.pass (k : Clock) (f n : Nat) : Clock :=
  let t := k.sub + n * f - k.ahead
  let len := 5 * (1 + k.stretch)
  if t < len then { k with gtc := k.gtc + BitVec.ofNat 64 n, ns := k.ns + n, sub := t, ahead := 0 }
  else { k with gtc := k.gtc + BitVec.ofNat 64 n, ns := k.ns + n, sub := (t - len) % 5, ahead := 0, stretch := 0,
                cyc := k.cyc + 1 + (t - len) / 5 }

/-- First device cycle that begins at or after the present count (11, R283): one that a droop lengthens as it begins is it, and
ends one period later (Table 11.6). -/
def startCyc (s : State) : Nat := if s.clk.sub = 0 then s.clk.cyc else s.clk.cyc + 1

/-- Fifths of a device period from the present count to the edge of the later cycle `c`. -/
def fifthsTo (k : Clock) (c : Nat) : Nat := 5 * (c - k.cyc + k.stretch) + k.ahead - k.sub

/-- GTC counts until device cycle `c` has begun. -/
def nsUntilCyc (s : State) (c : Nat) : Nat := if c ≤ s.clk.cyc then 0 else ceilDiv (fifthsTo s.clk c) (perfF s)

/-- Nanoseconds of `n` device cycles, rounded up. -/
def cycNs (s : State) (n : Nat) : Nat := ceilDiv (5 * n) (perfF s)

/-- A Pattern is ACTIVE. -/
def patActive (s : State) : Bool := s.glb.patState == 4

/-- GTC at the start of tick k (01, R22). -/
def tickGtc (s : State) (k : Nat) : Gtc := s.time.launch + BitVec.ofNat 64 (k * s.time.period)

/-- Offset of the present count from the start of the tick. -/
def offNs (s : State) : Nat := (s.clk.gtc - tickGtc s s.time.tick).toNat

/-- Partition p is latency-critically occupied (12, R314). -/
def lcOccupied (s : State) (p : Nat) : Bool :=
  s.disp.jobs.any fun j => j.part == p && j.cmds.any fun c => !(c.phase matches .ended)

/-- The part of a list of disjoint intervals that lies outside [a, b). -/
def cutOut (ivs : List (Nat × Nat)) (a b : Nat) : List (Nat × Nat) :=
  ivs.flatMap fun iv =>
    (if iv.1 < min iv.2 a then [(iv.1, min iv.2 a)] else []) ++ (if max iv.1 b < iv.2 then [(max iv.1 b, iv.2)] else [])

/-- Boundaries of partition p within the tick, as offsets: the opens of its COMPUTE stages and the next tick start
(12, R318). -/
def boundaries (s : State) (p : Nat) : List Nat := (stagesOf s p).map (fun x => x.2.openNs) ++ [s.time.period]

/-- Availability time of partition p in the `n` counts from now (12, R315). -/
def availNs (s : State) (p n : Nat) : Nat :=
  if !patActive s || lcOccupied s p then 0
  else
    let o := offNs s
    let free := (boundaries s p).foldl (fun ivs b => cutOut ivs (b - s.disp.grace.1) b) (cutOut [(o, min (o + n) s.time.period)] 0 100000)
    sumN (free.map fun iv => iv.2 - iv.1)

/-- Turns and growing debts after availability time of each partition has passed (12, R315, R317). -/
def Disp.spend (d : Disp) (av : Nat → Nat) : Disp :=
  { d with
    turns := d.turns.mapIdx fun p t => t.map fun t => { t with left := t.left - av p }
    subs := d.subs.map fun r =>
      { r with job := r.job.map fun j => if j.growing then { j with debt := j.debt + av r.part } else j } }

/-- `n` GTC counts pass on the clocks and on what they count down; `passNs` is the passing of time with all that falls into it. -/
def clockNs (s : State) (n : Nat) : State :=
  if n = 0 then s
  else { s with clk := s.clk.pass (perfF s) n, disp := s.disp.spend fun p => availNs s p n }

/-- The clocks go on to the edge at which device cycle `c` begins, not at all when it has begun: the GTC has its last count up to
that edge (DEDUCED, entry 65). -/
def clockToCyc (s : State) (c : Nat) : State :=
  if c ≤ s.clk.cyc then s
  else
    let d := fifthsTo s.clk c
    let s1 := clockNs s (d / perfF s)
    { s1 with clk := { s1.clk with cyc := c, sub := 0, ahead := d % perfF s, stretch := 0 } }

/-- GTC counts from now to the count `g`, 0 when it lies in the past half of the counter's range. -/
def nsUntil (s : State) (g : Gtc) : Nat :=
  let d := (g - s.clk.gtc).toNat
  if d < 2 ^ 63 then d else 0

/-- Whether the present count lies in the INTAKE window of the tick (10, R242). -/
def intakeOpen (s : State) : Bool :=
  patActive s && match intakeStage s with
  | some (_, g) => decide (g.openNs ≤ offNs s) && decide (offNs s < g.closeNs)
  | none => false

/-- The INTAKE stage of the tick has closed, or there is none (01, R28, R29). -/
def intakeClosed (s : State) : Bool :=
  match intakeStage s with
  | some (_, g) => decide (g.closeNs ≤ offNs s)
  | none => true

/-- Outputs of partition p in tick k are void (16, R400; 15, R387). -/
def isVoid (s : State) (p k : Nat) : Bool := s.glb.safe || s.glb.voids.contains (p, k)

/-- A count of the lifetime record grows, and stays at its largest value (19, R451, Table 19.8): offset, bytes, increase. -/
def lifeAdd (off w n : Nat) (s : State) : State :=
  if n = 0 then s
  else
    let v := satAdd (256 ^ w - 1) (s.mgt.life.rdLe off w) n
    { s with mgt := { s.mgt with life := s.mgt.life.wrN off (leBytes w v) } }

/-- A fresh number for a free value. -/
def bumpFree (s : State) : State := { s with freeSeq := s.freeSeq + 1 }

end Sys2Proof.Machine
end

