-- ==== Sys2Proof/Machine/Image.lean ====
section
/-!
DEFINITION. A command's image: its header (06, R143 to R145), geometry records (04, R96 to R98), sampler records (05, R125,
R126, R133), keyed descriptors (09, R223, R231), region list (08, R199 to R201), and the checks a command passes before its
first bundle is dispatched.
-/
namespace Sys2Proof.Machine

/-- An image: the memory that holds it and the byte address of its header. -/
structure Img where
  mem : Mem
  base : Nat

/-- Unit k of an image, counted from the header. -/
def Img.unit (im : Img) (k : Nat) : BitVec 256 := BitVec.ofNat 256 (im.mem.rdLe (im.base + 32 * k) 32)

/-- The image whose header has Bundle Store index `hdr` on core `c`. -/
def imgOn (s : State) (c hdr : Nat) : Img := ⟨(coreAt s c).bst, 32 * hdr⟩

/-! ### The header -/

/-- The header's fields (Table 6.2). The default carries nothing. -/
structure Hdr where
  decl : Nat := 0
  entry : Nat := 0
  len : Nat := 0
  geomOff : Nat := 0
  geomCnt : Nat := 0
  reqOff : Nat := 0
  reqCnt : Nat := 0
  srcOff : Nat := 0
  srcCnt : Nat := 0
  regOff : Nat := 0
  regCnt : Nat := 0
  parOff : Nat := 0
  parLen : Nat := 0
  deriving DecidableEq, Repr

def hdrOf (u : BitVec 256) : Hdr :=
  { decl := fld u 31 0, entry := fld u 44 32, len := fld u 61 48, geomOff := fld u 76 64, geomCnt := fld u 80 77,
    reqOff := fld u 93 81, reqCnt := fld u 97 94, srcOff := fld u 110 98, srcCnt := fld u 115 111, regOff := fld u 128 116,
    regCnt := fld u 133 129, parOff := fld u 146 134, parLen := fld u 159 147 }

/-- Setup cycles (R145). -/
def Hdr.setup (h : Hdr) : Nat := 32 + 2 * (h.geomCnt + h.reqCnt + h.srcCnt + h.regCnt)

/-- The bundle range and the blocks, each with the bit that names it, its first unit and its end, in ascending order of
their offset fields; a block with no units takes no part. -/
def Hdr.blocks (h : Hdr) : List (Nat × Nat × Nat) :=
  (32, h.entry, h.len) ::
    ([(64, h.geomOff, h.geomCnt), (81, h.reqOff, h.reqCnt), (98, h.srcOff, (h.srcCnt + 1) / 2), (116, h.regOff, h.regCnt),
      (134, h.parOff, h.parLen)].filter fun b => b.2.2 != 0).map fun b => (b.1, b.2.1, b.2.1 + b.2.2)

/-- Set bits among the reserved bits lo to hi. -/
def reservedBits {w : Nat} (u : BitVec w) (lo hi : Nat) : List Nat :=
  ((List.range (hi + 1 - lo)).map (lo + ·)).filter fun i => u.getLsbD i

/-- Fields outside their range and reserved bits that are 1, in ascending bit order. -/
def hdrRange (u : BitVec 256) (h : Hdr) : List Nat :=
  let off := fun (bit o n : Nat) => if n ≠ 0 ∧ o = 0 then [bit] else []
  (if h.decl = 0 then [0] else []) ++ (if h.entry = 0 then [32] else []) ++ reservedBits u 45 47 ++
    (if h.len < 2 ∨ 8192 < h.len then [48] else []) ++ reservedBits u 62 63 ++
    off 64 h.geomOff h.geomCnt ++ (if 8 < h.geomCnt then [77] else []) ++
    off 81 h.reqOff h.reqCnt ++ (if 8 < h.reqCnt then [94] else []) ++
    off 98 h.srcOff h.srcCnt ++ (if 16 < h.srcCnt then [111] else []) ++
    off 116 h.regOff h.regCnt ++ off 134 h.parOff h.parLen ++ reservedBits u 160 255

/-- The first block that overlaps one taken before it. -/
def firstOverlap : List (Nat × Nat × Nat) → List (Nat × Nat × Nat) → Option Nat
  | _, [] => none
  | seen, b :: rest =>
    if seen.any fun x => decide (x.2.1 < b.2.2) && decide (b.2.1 < x.2.2) then some b.1 else firstOverlap (seen ++ [b]) rest

/-- The header check of R144: the bit that names the failing field, if it fails. -/
def hdrFail (u : BitVec 256) (idx : Nat) : Option Nat :=
  let h := hdrOf u
  match hdrRange u h with
  | b :: _ => some b
  | [] =>
    if idx + h.len > 8192 then some 48
    else if h.len ≤ h.entry then some 32
    else match h.blocks.find? fun b => decide (h.len < b.2.2) with
    | some b => some b.1
    | none => firstOverlap [] h.blocks

/-- The bundles of the range with their offsets. -/
def bundlesOf (im : Img) (h : Hdr) : List (Nat × BitVec 256) :=
  (List.range (h.len - h.entry)).map fun i => (h.entry + i, im.unit (h.entry + i))

/-! ### Geometry records -/

/-- A geometry record (Table 4.1). -/
structure Geom where
  h : Nat
  w : Nat
  cin : Nat
  cout : Nat
  groups : Nat
  pad : Nat
  ho : Nat
  wo : Nat
  kh : Nat
  kw : Nat
  sh : Nat
  sw : Nat
  dh : Nat
  dw : Nat
  pt : Nat
  pb : Nat
  pl : Nat
  pr : Nat
  mode : Nat
  afmt : Nat
  wfmt : Nat
  deriving DecidableEq, Repr

def geomOf (u : BitVec 256) : Geom :=
  { h := fld u 15 0, w := fld u 31 16, cin := fld u 47 32 + 1, cout := fld u 63 48 + 1, groups := fld u 79 64 + 1,
    pad := fld u 95 80, ho := fld u 111 96, wo := fld u 127 112, kh := fld u 131 128, kw := fld u 135 132,
    sh := fld u 139 136, sw := fld u 143 140, dh := fld u 149 144, dw := fld u 155 150, pt := fld u 161 156,
    pb := fld u 167 162, pl := fld u 173 168, pr := fld u 179 174, mode := fld u 182 180, afmt := fld u 185 183,
    wfmt := fld u 188 186 }

/-- Output extent of R96. -/
def outExtent (n k st dil lo hi : Nat) : Int := ((n + lo + hi : Nat) - (dil * (k - 1) : Nat) - 1 : Int) / (st : Int) + 1

/-- A pairing of Table 2.2; formats 0 INT8, 1 UINT8, 2 INT12, and 3 INT4 for weights. -/
def pairOk (a w : Nat) : Bool := decide (a ≤ 2) && (w == 3 || decide (w ≤ 1) || (w == 2 && a == 2))

/-- Bytes of an activation element: INT8 and UINT8 one, INT12 and INT16 two. -/
def elemBytes (fmt : Nat) : Nat := if fmt ≤ 1 then 1 else 2

/-- The mode's own conditions (R98, R108, R116, R118, R119, R120). -/
def Geom.modeOk (g : Geom) : Bool :=
  let cpg := g.cin / g.groups
  if g.mode = 0 then pairOk g.afmt g.wfmt && g.groups == 1
  else if g.mode = 1 then
    g.kh == 3 && g.kw == 3 && g.sh == 1 && g.sw == 1 && g.dh == 1 && g.dw == 1 && g.groups == 1 && g.afmt == 0 &&
      (g.wfmt == 0 || g.wfmt == 3)
  else if g.mode = 2 then pairOk g.afmt g.wfmt && g.wfmt != 3 && g.groups == g.cin && g.cout == g.cin
  else if g.mode = 3 then
    pairOk g.afmt g.wfmt && g.wfmt != 3 && decide (2 ≤ g.groups) && g.cout == g.cin &&
      ([2, 4, 8, 16, 32].contains cpg || (decide (0 < cpg) && cpg % 64 == 0))
  else
    decide (g.mode ≤ 6) && decide (g.sh ≤ 8) && decide (g.sw ≤ 8) && g.dh == 1 && g.dw == 1 && g.groups == 1 &&
      g.cin == g.cout && g.wfmt == 0 && decide (g.afmt ≤ 3)

/-- A geometry record passes Table 4.2. -/
def geomOk (u : BitVec 256) : Bool :=
  let g := geomOf u
  let eh := outExtent g.h g.kh g.sh g.dh g.pt g.pb
  let ew := outExtent g.w g.kw g.sw g.dw g.pl g.pr
  fld u 255 189 == 0 && [g.h, g.w, g.ho, g.wo, g.kh, g.kw, g.sh, g.sw, g.dh, g.dw].all (· != 0) &&
    decide (g.afmt ≤ 3) && decide (g.wfmt ≤ 3) &&
    decide (1 ≤ eh) && decide (eh ≤ 65535) && decide (1 ≤ ew) && decide (ew ≤ 65535) && decide ((g.ho : Int) = eh) &&
    decide ((g.wo : Int) = ew) && g.cin % g.groups == 0 && g.cout % g.groups == 0 && g.modeOk

/-- Geometry record i of a command. -/
def geomRec (im : Img) (h : Hdr) (i : Nat) : BitVec 256 := im.unit (h.geomOff + i)

/-- First geometry record that fails (R98). -/
def geomFail (im : Img) (h : Hdr) : Option Nat := (List.range h.geomCnt).find? fun i => !geomOk (geomRec im h i)

/-! ### Sampler records -/

/-- A request record (Table 5.1). -/
structure Req where
  unit : Nat
  point : Bool
  dest : Bool
  srcFirst : Nat
  srcCnt : Nat
  oh : Nat
  ow : Nat
  count : Nat
  extrap : Byte
  cbFirst : Nat
  cbCnt : Nat
  list : Nat
  out : Nat
  vmap : Nat
  vmapEn : Bool
  deriving DecidableEq, Repr

def reqOf (u : BitVec 256) : Req :=
  { unit := fld u 1 0, point := bitAt u 2, dest := bitAt u 3, srcFirst := fld u 7 4, srcCnt := fld u 11 8 + 1,
    oh := fld u 17 12 + 1, ow := fld u 23 18 + 1, count := fld u 39 24 + 1, extrap := BitVec.ofNat 8 (fld u 47 40),
    cbFirst := fld u 57 48, cbCnt := fld u 63 58 + 1, list := fld u 89 64, out := fld u 121 96, vmap := fld u 153 128,
    vmapEn := bitAt u 154 }

/-- Sample positions of a request (R131). -/
def Req.n (q : Req) : Nat := if q.point then q.count else q.count * q.oh * q.ow

/-- A source record (Table 5.2). -/
structure Src where
  base : Nat
  h : Nat
  w : Nat
  cbTotal : Nat
  fmt : Bool
  deriving DecidableEq, Repr

def srcOf (u : BitVec 128) : Src :=
  { base := fld u 25 0, h := fld u 47 32, w := fld u 63 48, cbTotal := fld u 73 64 + 1, fmt := bitAt u 74 }

def reqRec (im : Img) (h : Hdr) (i : Nat) : BitVec 256 := im.unit (h.reqOff + i)

/-- Source record i: record 2j + 1 is the upper half of the unit that holds record 2j (R143). -/
def srcRec (im : Img) (h : Hdr) (i : Nat) : BitVec 128 :=
  BitVec.ofNat 128 (im.mem.rdLe (im.base + 32 * h.srcOff + 16 * i) 16)

/-- Bytes of a source tensor (R200). -/
def Src.bytes (r : Src) : Nat := r.cbTotal * r.h * r.w * 64

/-- The request record's own checks of Table 5.4; `boxes` counts the boxes of the box requests before it. -/
def reqOk (u : BitVec 256) (h : Hdr) (boxes : Nat) : Bool :=
  let q := reqOf u
  fld u 95 90 == 0 && fld u 127 122 == 0 && fld u 255 155 == 0 && q.list % 16 == 0 && q.out % 64 == 0 &&
    q.vmap % 64 == 0 && (q.point || decide (q.count ≤ 4096)) &&
    decide (q.srcFirst + q.srcCnt ≤ 16) && decide (q.srcFirst + q.srcCnt ≤ h.srcCnt) &&
    decide (q.list + q.count * (if q.point then 8 else 16) ≤ fstSize) &&
    decide (q.out + q.cbCnt * q.n * 64 ≤ (if q.dest then aobBase else fstSize)) &&
    (!q.vmapEn || decide (q.vmap + ceilDiv q.n 8 ≤ fstSize)) &&
    (q.point || decide (boxes + q.count ≤ 4096))

/-- A source record's checks of Table 5.4 for the request that uses it; `f` is the format of the request's first source. Formats that
differ and channel blocks beyond the source's are failures of the source record (DESIGN CHOICE, entry 71). -/
def srcOk (u : BitVec 128) (q : Req) (f : Bool) : Bool :=
  let r := srcOf u
  fld u 31 26 == 0 && fld u 127 75 == 0 && r.base % 64 == 0 && decide (1 ≤ r.h) && decide (r.h ≤ 32767) &&
    decide (1 ≤ r.w) && decide (r.w ≤ 32767) && r.fmt == f && decide (q.cbFirst + q.cbCnt ≤ r.cbTotal) &&
    decide (r.base + r.bytes ≤ fstSize)

/-- Request records that the command's SAMPLE operations name and it carries, in ascending index. -/
def namedReqs (im : Img) (h : Hdr) : List Nat :=
  let used := (bundlesOf im h).filterMap fun b =>
    if bitAt b.2 250 && fld b.2 119 114 == 5 then some (fld b.2 113 111) else none
  (List.range h.reqCnt).filter used.contains

/-- First failure of R133 over the named requests: the detail field. -/
def reqFail (im : Img) (h : Hdr) : List Nat → Nat → Option Nat
  | [], _ => none
  | r :: rest, boxes =>
    let u := reqRec im h r
    let q := reqOf u
    if !reqOk u h boxes then some r
    else
      let f := (srcOf (srcRec im h q.srcFirst)).fmt
      match ((List.range q.srcCnt).map (q.srcFirst + ·)).find? fun i => !srcOk (srcRec im h i) q f with
      | some i => some (256 + 16 * i + r)
      | none => reqFail im h rest (if q.point then boxes else boxes + q.count)

/-! ### Keyed descriptors -/

/-- A keyed descriptor (Table 9.2). -/
structure Keyed where
  scatter : Bool
  grid : Bool
  layer : Nat
  mapEn : Bool
  ageEn : Bool
  fill : Byte
  gw : Nat
  gh : Nat
  count : Nat
  key : Nat
  data : Nat
  map : Nat
  age : Nat
  deriving DecidableEq, Repr

def keyedOf (u : BitVec 256) : Keyed :=
  { scatter := bitAt u 0, grid := bitAt u 1, layer := fld u 5 2, mapEn := bitAt u 6, ageEn := bitAt u 7,
    fill := BitVec.ofNat 8 (fld u 15 8), gw := fld u 23 16 + 1, gh := fld u 31 24 + 1, count := fld u 47 32 + 1,
    key := fld u 73 48, data := fld u 105 80, map := fld u 137 112, age := fld u 169 144 }

/-- Keys of a request (R224). -/
def Keyed.n (d : Keyed) : Nat := if d.grid then d.gw * d.gh else d.count

/-- KFS_LAYERn. -/
def layerReg (s : State) (l : Nat) : BitVec 20 := s.kfs.layers.getD l 0
def layerEn (s : State) (l : Nat) : Bool := bitAt (layerReg s l) 19
def layerPrior (s : State) (l : Nat) : Bool := bitAt (layerReg s l) 18
def layerBlocks (s : State) (l : Nat) : Nat := fld (layerReg s l) 17 16 + 1
def layerAgeMax (s : State) (l : Nat) : Nat := fld (layerReg s l) 15 0

/-- The rows of Table 9.3 that concern one descriptor; `scatter` is the opcode's operation. -/
def keyedOk (s : State) (u : BitVec 256) (scatter : Bool) : Bool :=
  let d := keyedOf u
  fld u 79 74 == 0 && fld u 111 106 == 0 && fld u 143 138 == 0 && fld u 255 170 == 0 && d.scatter == scatter &&
    (!scatter || (!d.ageEn && d.fill == 0)) && (d.grid || fld u 31 16 == 0) && (!d.grid || fld u 47 32 == 0) &&
    d.key % 8 == 0 && d.data % 64 == 0 && layerEn s d.layer && !(scatter && layerPrior s d.layer)

/-- The keyed operations of a command in the order of R232: parameter unit and whether it scatters. -/
def keyedOps (im : Img) (h : Hdr) : List (Nat × Bool) :=
  ((bundlesOf im h).flatMap fun b =>
    (if bitAt b.2 250 && fld b.2 119 114 == 6 then [(fld b.2 113 101, false)] else []) ++
    (if bitAt b.2 249 && fld b.2 71 66 == 2 then [(fld b.2 65 53, true)] else [])).filter fun o => decide (o.1 < h.parLen)

def keyedRec (im : Img) (h : Hdr) (unit : Nat) : BitVec 256 := im.unit (h.parOff + unit)

/-- First failure of R231: the parameter unit in the detail field. -/
def keyedFail (s : State) (im : Img) (h : Hdr) (lc : Bool) : Option Nat :=
  let ops := keyedOps im h
  match ops.find? fun o => !keyedOk s (keyedRec im h o.1) o.2 with
  | some o => some o.1
  | none =>
    let layer := fun (o : Nat × Bool) => (keyedOf (keyedRec im h o.1)).layer
    if ops ≠ [] ∧ !lc then ops.head?.map Prod.fst
    else match ops.find? fun o => ops.any fun x => x.2 != o.2 && layer x == layer o with
    | some o => some o.1
    | none => (ops[16]?).map Prod.fst

/-! ### Regions -/

/-- A declared or implied region of a command. -/
structure Region where
  space : Nat
  dev : Nat
  base : Nat
  len : Nat
  write : Bool
  /-- what the detail field names it by (R201) -/
  detail : Nat
  deriving DecidableEq, Repr

/-- DEV obeys R184 for the space. -/
def devOk (s : State) (space dev : Nat) : Bool :=
  if space = 4 ∨ space = 5 then dev != devId s && decide (dev ≤ groupM1 s) else dev == 0

/-- End of a space (R201). -/
def spaceEnd (s : State) (space dev : Nat) : Nat :=
  if space = 1 then fstSize
  else if space = 2 then dramGenEnd s
  else if space = 4 then itmN s 9 1 dev 0
  else if space = 5 then itmN s 9 2 dev 0
  else 2 ^ 64

/-- A region list entry (Table 8.2). -/
def regionOf (u : BitVec 256) (i : Nat) : Region :=
  { space := fld u 107 104, dev := fld u 110 108, base := fld u 63 0, len := fld u 103 64 + 1, write := fld u 113 112 == 2,
    detail := i }

/-- Step 1 of R201 for one entry. -/
def regionFormed (s : State) (u : BitVec 256) : Bool :=
  let sp := fld u 107 104
  fld u 111 111 == 0 && fld u 255 114 == 0 && [1, 2, 4, 5, 6].contains sp && (fld u 113 112 == 1 || fld u 113 112 == 2) &&
    devOk s sp (fld u 110 108) && !(sp == 6 && fld u 113 112 == 1)

/-- The region list of a command. -/
def regionList (im : Img) (h : Hdr) : List Region :=
  (List.range h.regCnt).map fun i => regionOf (im.unit (h.regOff + i)) i

/-- Implied regions of the named sampler requests (R200). -/
def sampleRegions (im : Img) (h : Hdr) : List Region :=
  (namedReqs im h).flatMap fun r =>
    let q := reqOf (reqRec im h r)
    let reg := fun (k base len : Nat) (w : Bool) => (⟨1, 0, base, len, w, 0x20 + 4 * r + k⟩ : Region)
    [reg 0 q.list (q.count * (if q.point then 8 else 16)) false] ++
      ((List.range q.srcCnt).map fun i =>
        let t := srcOf (srcRec im h (q.srcFirst + i))
        reg 1 t.base t.bytes false) ++
      (if q.dest then [] else [reg 2 q.out (q.cbCnt * q.n * 64) true]) ++
      (if q.vmapEn then [reg 3 q.vmap (ceilDiv q.n 8) true] else [])

/-- Implied regions of the keyed operations (R232). -/
def keyedRegions (s : State) (im : Img) (h : Hdr) : List Region :=
  ((keyedOps im h).mapIdx fun j o =>
    let d := keyedOf (keyedRec im h o.1)
    let reg := fun (k base len : Nat) (w : Bool) => (⟨1, 0, base, len, w, 0x40 + 4 * j + k⟩ : Region)
    [reg 0 d.key (if d.grid then 8 else 8 * d.n) false, reg 1 d.data (layerBlocks s d.layer * d.n * 64) (!d.scatter)] ++
      (if d.mapEn then [reg 2 d.map (ceilDiv d.n 8) (!d.scatter)] else []) ++
      (if d.ageEn then [reg 3 d.age d.n true] else [])).flatten

/-- All regions in the fixed order of R201. -/
def regionsOf (s : State) (im : Img) (h : Hdr) : List Region :=
  regionList im h ++ sampleRegions im h ++ keyedRegions s im h

/-- Two regions share a byte. -/
def Region.meets (a b : Region) : Bool :=
  a.space == b.space && a.dev == b.dev && decide (a.base < b.base + b.len) && decide (b.base < a.base + a.len)

/-- Two regions that the step 3 of R201 does not let share a byte: a read and a written one, or the output and the validity map of one
sampler request (05, Table 5.4). -/
def Region.excludes (a b : Region) : Bool :=
  a.write != b.write || (a.write && 0x20 ≤ a.detail && decide (a.detail < 0x40) && a.detail / 4 == b.detail / 4)

/-- Step 3 of R201: the later region of the first pair that shares a byte and may not. -/
def regionClash : List Region → List Region → Option Nat
  | _, [] => none
  | seen, r :: rest =>
    if seen.any fun x => x.excludes r && x.meets r then some r.detail else regionClash (seen ++ [r]) rest

/-- First failure of R201: the detail field. -/
def regionFail (s : State) (im : Img) (h : Hdr) : Option Nat :=
  match (List.range h.regCnt).find? fun i => !regionFormed s (im.unit (h.regOff + i)) with
  | some i => some i
  | none =>
    let rs := regionsOf s im h
    match rs.find? fun r => decide (spaceEnd s r.space r.dev < r.base + r.len) with
    | some r => some r.detail
    | none => regionClash [] rs

/-! ### All checks -/

/-- The checks before the first bundle, in the order of R144: the failing core source and its detail. -/
def commandFail (s : State) (im : Img) (idx : Nat) (lc : Bool) : Option (Nat × Nat) :=
  match hdrFail (im.unit 0) idx with
  | some b => some (16, b)
  | none =>
    let h := hdrOf (im.unit 0)
    match geomFail im h with
    | some i => some (17, i)
    | none =>
      match reqFail im h (namedReqs im h) 0 with
      | some d => some (18, d)
      | none =>
        match keyedFail s im h lc with
        | some u => some (19, u)
        | none => (regionFail s im h).map fun d => (20, d)

/-- Setup cycles of a command: 32 when its header fails (R145). -/
def setupCycles (im : Img) (idx : Nat) : Nat :=
  match hdrFail (im.unit 0) idx with
  | some _ => 32
  | none => (hdrOf (im.unit 0)).setup

/-- Whether the bytes from `a` on all lie in regions of the list that permit the access (R186, R201). -/
def permitted (rs : List Region) (space dev : Nat) (write : Bool) (a n : Nat) : Bool :=
  ((rs.filter fun r => r.space == space && r.dev == dev && r.write == write).foldl
    (fun ivs r => cutOut ivs r.base (r.base + r.len)) [(a, a + n)]).isEmpty

end Sys2Proof.Machine
end

