-- ==== Sys2Proof/Machine/Crypto.lean ====
section
/-!
DEFINITION. The check codes and signatures the spec names by their standards: CRC-32C (10, Table 10.12), CRC-32 of IEEE
802.3 (15, R379), CRC-16 (14, R360), SHA-256 and ECDSA over P-256 (13, R326; 19, R447).
-/
namespace Sys2Proof.Machine

/-- One bit of a reflected 32-bit CRC. -/
def crcBit (poly c : BitVec 32) : BitVec 32 := if c.getLsbD 0 then (c >>> 1) ^^^ poly else c >>> 1

/-- One byte of a reflected 32-bit CRC. -/
def crcByte (poly c : BitVec 32) (b : Byte) : BitVec 32 :=
  (List.range 8).foldl (fun c _ => crcBit poly c) (c ^^^ b.zeroExtend 32)

/-- A reflected CRC with initial value and final XOR of all ones. -/
def crc32With (poly : BitVec 32) (bs : List Byte) : BitVec 32 := ~~~(bs.foldl (crcByte poly) 0xFFFFFFFF)

/-- CRC-32C: polynomial 0x1EDC_6F41, reflected (10, Table 10.12). -/
def crc32c (bs : List Byte) : BitVec 32 := crc32With 0x82F63B78 bs

/-- CRC-32 of IEEE 802.3: polynomial 0x04C1_1DB7, reflected (15, R379). -/
def crc32 (bs : List Byte) : BitVec 32 := crc32With 0xEDB88320 bs

/-- CRC-16 with polynomial 0x1021, initial value 0xFFFF, no reflection, no final XOR (14, R360). -/
def crc16 (bs : List Byte) : BitVec 16 :=
  bs.foldl (fun c b =>
    (List.range 8).foldl (fun c _ => if c.getLsbD 15 then (c <<< 1) ^^^ 0x1021 else c <<< 1)
      (c ^^^ BitVec.ofNat 16 (256 * b.toNat))) 0xFFFF

/-! ### SHA-256 -/

/-- The greatest `x` below `2 ^ bits` with `x ^ e` at most `n`, found from its highest bit down. -/
def rootBelow (e n : Nat) : Nat → Nat → Nat
  | 0, x => x
  | bits + 1, x => rootBelow e n bits (if (x + 2 ^ bits) ^ e ≤ n then x + 2 ^ bits else x)

/-- The first 32 bits of the fraction of the `e`-th root of `n`. -/
def rootFraction (e n : Nat) : BitVec 32 := BitVec.ofNat 32 (rootBelow e (n * 2 ^ (32 * e)) 37 0)

/-- The primes below 312: the first 64. -/
def shaPrimes : List Nat := (List.range 312).filter fun n => decide (2 ≤ n) && (List.range 18).all fun d => d < 2 || n % d != 0 || n == d

/-- The initial hash value: square roots of the first eight primes. -/
def shaStart : List (BitVec 32) := (shaPrimes.take 8).map (rootFraction 2)

/-- The round constants: cube roots of the first 64 primes. -/
def shaRounds : List (BitVec 32) := shaPrimes.map (rootFraction 3)

/-- XOR of three rotations to the right, the last a shift where `shifts`. -/
def shaMix (shifts : Bool) (p q r : Nat) (x : BitVec 32) : BitVec 32 :=
  x.rotateRight p ^^^ x.rotateRight q ^^^ (if shifts then x >>> r else x.rotateRight r)

/-- The schedule word that follows a window of sixteen. -/
def shaNext (win : List (BitVec 32)) : BitVec 32 :=
  let w := fun i => win.getD i 0
  shaMix true 17 19 10 (w 14) + w 9 + shaMix true 7 18 3 (w 1) + w 0

/-- One round: the eight working words, and the window whose first word the round takes. -/
def shaRound (v : List (BitVec 32) × List (BitVec 32)) (k : BitVec 32) : List (BitVec 32) × List (BitVec 32) :=
  match v.1, v.2 with
  | [a, b, c, d, e, f, g, h], w :: win =>
    let chosen := g ^^^ (e &&& (f ^^^ g))
    let most := (a &&& (b ||| c)) ||| (b &&& c)
    let t := h + k + w + chosen + shaMix false 6 11 25 e
    ([t + most + shaMix false 2 13 22 a, a, b, c, d + t, e, f, g], win ++ [shaNext (w :: win)])
  | _, _ => v

/-- The hash value after one more block of 64 bytes, whose words are big-endian. -/
def shaBlock (hash : List (BitVec 32)) (blk : List Byte) : List (BitVec 32) :=
  let win := (List.range 16).map fun i => BitVec.ofNat 32 (beAt blk (4 * i) 4)
  List.zipWith (· + ·) hash (shaRounds.foldl shaRound (hash, win)).1

/-- A message made a whole number of blocks: a one bit, zeros, and its length in bits. -/
def shaWhole (msg : List Byte) : List Byte :=
  let zeros := 63 - (msg.length + 8) % 64
  (msg ++ 0x80 :: List.replicate zeros 0) ++ (leBytes 8 (8 * msg.length)).reverse

/-- SHA-256 of a byte string: 32 bytes, big-endian words. -/
def sha256 (msg : List Byte) : List Byte :=
  let m := shaWhole msg
  let hash := (List.range (m.length / 64)).foldl (fun h i => shaBlock h (slice m (64 * i) 64)) shaStart
  hash.flatMap fun w => (leBytes 4 w.toNat).reverse

/-! ### ECDSA over P-256 -/

def p256P : Nat := 0xffffffff00000001000000000000000000000000ffffffffffffffffffffffff
def p256N : Nat := 0xffffffff00000000ffffffffffffffffbce6faada7179e84f3b9cac2fc632551
def p256B : Nat := 0x5ac635d8aa3a93e7b3ebbd55769886bc651d06b0cc53b0f63bce3c3e27d2604b
def p256G : Nat × Nat :=
  (0x6b17d1f2e12c4247f8bce6e563a440f277037d812deb33a0f4a13945d898c296,
   0x4fe342e2fe1a7f9b8ee7eb4a7c0f9e162bce33576b315ececbb6406837bf51f5)

/-- Power modulo `m` of a 256-bit exponent. -/
def powMod (m b e : Nat) : Nat :=
  ((List.range 256).foldl (fun (acc : Nat × Nat) i =>
    (if e.testBit i then acc.1 * acc.2 % m else acc.1, acc.2 * acc.2 % m)) (1, b % m)).1

/-- Inverse modulo a prime. -/
def invMod (m a : Nat) : Nat := powMod m a (m - 2)

/-- Sum of two points of the curve; none is the point at infinity. -/
def ecAdd (p q : Option (Nat × Nat)) : Option (Nat × Nat) :=
  match p, q with
  | none, q => q
  | p, none => p
  | some (x1, y1), some (x2, y2) =>
    let P := p256P
    if x1 = x2 ∧ (y1 + y2) % P = 0 then none
    else
      let l := if x1 = x2 then (3 * x1 * x1 + (P - 3)) % P * invMod P (2 * y1) % P
               else (y2 + P - y1) % P * invMod P ((x2 + P - x1) % P) % P
      let x3 := (l * l + 2 * P - x1 - x2) % P
      some (x3, (l * ((x1 + P - x3) % P) + P - y1) % P)

/-- Multiple of a point. -/
def ecMul (k : Nat) (p : Option (Nat × Nat)) : Option (Nat × Nat) :=
  ((List.range 256).foldl (fun (acc : Option (Nat × Nat) × Option (Nat × Nat)) i =>
    (if k.testBit i then ecAdd acc.1 acc.2 else acc.1, ecAdd acc.2 acc.2)) (none, p)).1

/-- Whether an ECDSA P-256 signature verifies: key Qx then Qy, signature r then s, 32 big-endian bytes each, over the
SHA-256 of the message. -/
def ecdsaVerify (key sig msg : List Byte) : Bool :=
  let qx := beAt key 0 32
  let qy := beAt key 32 32
  let r := beAt sig 0 32
  let s := beAt sig 32 32
  let onCurve := qx < p256P && qy < p256P &&
    (qy * qy) % p256P == (qx * qx % p256P * qx + (p256P - 3) * qx + p256B) % p256P
  if !onCurve || r = 0 || s = 0 || r ≥ p256N || s ≥ p256N then false
  else
    let z := ofBe (sha256 msg)
    let w := invMod p256N s
    match ecAdd (ecMul (z * w % p256N) (some p256G)) (ecMul (r * w % p256N) (some (qx, qy))) with
    | none => false
    | some (x, _) => x % p256N == r

end Sys2Proof.Machine
end

