-- ==== Sys2Proof/Machine/Flags.lean ====
section
/-!
DEFINITION. What the status bits are computed from: the conditions of the scalar comparators (07, R169), the effective
severity of a fire (16, R398), the level and first-fault registers (16, Tables 16.4 and 16.5) and status codes (00, R20).
-/
namespace Sys2Proof.Machine

/-- COND of a comparator: EQ, NE, LT, GE on unsigned values; none for a reserved value (07, R169). -/
def condHolds (cond : BitVec 3) (a b : Word) : Option Bool :=
  match cond.toNat with
  | 0 => some (a == b)
  | 1 => some (a != b)
  | 2 => some (BitVec.ult a b)
  | 3 => some (!BitVec.ult a b)
  | _ => none

/-- Whether BR transfers control; none for WHEN = 3 (07, Table 7.1). -/
def brTaken (when_ : BitVec 2) (flag : Bool) : Option Bool :=
  match when_.toNat with
  | 0 => some true
  | 1 => some flag
  | 2 => some (!flag)
  | _ => none

/-- The status posted when several codes apply (00, R20). -/
def worstStatus (a b : Nat) : Nat := max a b

/-- The block as seen in device cycle `cyc`: its status at the start of a cycle is noted when the first thing happens in it
(16, R398). -/
def FltBlock.inCycle (f : FltBlock) (cyc : Nat) : FltBlock :=
  if f.cycAt = cyc then f else { f with cycAt := cyc, stat0 := f.stat, lvl0 := f.lvl, fired := 0, onlyForced := 0, sent := 0 }

/-- The block's status as it stood at the start of device cycle `cyc` (16, R398). -/
def FltBlock.atStart (f : FltBlock) (cyc : Nat) : FltBlock := if f.cycAt = cyc then { f with stat := f.stat0, lvl := f.lvl0 } else f

/-- A set status bit of the block and class with stored level 1 or more (16, R398). -/
def pendingClass (b : Nat) (f : FltBlock) (cls : Nat) : Bool :=
  (List.range (catalog b).length).any fun i =>
    f.stat.getLsbD i && decide (1 ≤ f.lvl.getD i 0) && ((srcInfo b i).map SrcInfo.cls == some cls)

/-- Effective severity of a fire from the programmed level and the status at the start of the cycle, with whether it
was escalated (16, R398). -/
def effLevel (b cls : Nat) (f : FltBlock) (sev : Nat) : Nat × Bool :=
  let esc := pendingClass b f cls
  let l := if esc then min (sev + 1) 4 else sev
  (if l = 3 ∧ (blockDomain b).isNone then 4 else l, esc)

/-- A set status bit holds stored level `l`. -/
def holdsLevel (f : FltBlock) (l : Nat) : Bool :=
  (List.range 64).any fun i => f.stat.getLsbD i && f.lvl.getD i 0 == l

/-- FLT_LVL (16, Table 16.4). -/
def fltLvl (f : FltBlock) : Word :=
  let levels := sumN ((List.range 5).map fun l => if holdsLevel f l then 2 ^ (8 + l) else 0)
  let top := maxN ((List.range 5).map fun l => if holdsLevel f l then l else 0)
  BitVec.ofNat 32 (levels + (if f.stat = 0 then 0 else 8) + top)

/-- FLT_INFO0 of a captured fire (16, Table 16.5). -/
def fltInfo0 (inj esc : Bool) (level cls src parts : Nat) : Word :=
  BitVec.ofNat 32 (2 ^ 31 + b2n inj * 2 ^ 30 + b2n esc * 2 ^ 29 + level * 2 ^ 26 + cls * 2 ^ 23 + src * 2 ^ 16 + parts * 2 ^ 12)

/-- Whether source `src` at level `lvl` takes the place of the one captured earlier in the same cycle (16, R399). -/
def betterCapture (old : Word) (lvl src : Nat) : Bool :=
  decide (lvl > fld old 28 26) || (lvl == fld old 28 26 && decide (src < fld old 21 16))

/-- A W1C write in a cycle: edge bits clear; level bits clear unless their cause lasts and they were set by it; the bit of a source
that fires in this cycle stays set (16, R402 to R404). -/
def w1cStat (b cyc : Nat) (old : FltBlock) (w : BitVec 64) : FltBlock :=
  let f := old.inCycle cyc
  let keep := (List.range 64).filter fun i =>
    ((srcInfo b i).map SrcInfo.level == some true) && f.cause.getLsbD i && !f.forced.getLsbD i
  let held : BitVec 64 := BitVec.ofNat 64 (sumN (keep.map fun i => 2 ^ i))
  let cleared := w &&& ~~~held &&& ~~~f.fired
  { f with
    stat := f.stat &&& ~~~cleared
    lvl := f.lvl.mapIdx fun i l => if cleared.getLsbD i then 0 else l
    forced := f.forced &&& ~~~cleared }

end Sys2Proof.Machine
end

