-- ==== Sys2Proof/Machine/Fire.lean ====
section
/-!
DEFINITION. What leaves the device as a message, and the firing of a fault source: writes to host memory (20, R461), MSI-X
messages (20, R471; 16, R407), trace records (19, R455, R456), SIDE ordered sets (14, R360, R361), voids (01, R31), and the
path from a firing source to its effects (16, R398 to R400).
-/
namespace Sys2Proof.Machine

/-! ### Host memory and MSI-X -/

/-- Bytes written to host memory. -/
def hostWr (s : State) (a : Nat) (bs : List Byte) : State := { s with host := s.host.wrN a bs }

/-- The device may issue requests over PCI Express (20, R462; 17, Table 17.3). -/
def pciUp (s : State) : Bool := s.pci.dlActive && s.pci.bme && !s.pci.d3hot && inService s dPCI

/-- Entry of the MSI-X table. -/
def msixAt (s : State) (v : Nat) : MsixEnt := (assoc s.pci.msix v).getD {}

/-- Vector v can be sent now. -/
def vecReady (s : State) (v : Nat) : Bool := pciUp s && s.pci.msixEn && !s.pci.msixMask && !(msixAt s v).mask

/-- The time at which a ring's vector is sent (20, R472). -/
def stampVec (v : Nat) (s : State) : State :=
  let f := fun (k : Ring) => { k with vecAt := some s.clk.ns }
  if 145 ≤ v ∧ v ≤ 152 then { s with disp := { s.disp with cpl := upd s.disp.cpl (v - 145) f } }
  else if v = 153 then { s with siu := { s.siu with cring := f s.siu.cring } }
  else if v = 154 then { s with time := { s.time with rring := f s.time.rring } }
  else s

/-- A message is sent on vector v, or left pending in the PBA (20, R471, R462). -/
def postVec (v : Nat) (s : State) : State :=
  if vecReady s v then
    let e := msixAt s v
    hostWr { s with pci := { s.pci with pba := putBit s.pci.pba v false } } e.addr.toNat (leBytes 4 e.data.toNat)
  else { s with pci := { s.pci with pba := putBit s.pci.pba v true } }

/-- The same on any vector; a ring's keeps the time of its sending (R472). -/
def sendVec (v : Nat) (s : State) : State := postVec v (if vecReady s v then stampVec v s else s)

/-- Pending vectors that have become ready are sent. -/
def flushVecs (s : State) : State :=
  if s.pci.pba = 0 then s
  else (List.range 512).foldl (fun s v => if s.pci.pba.getLsbD v && vecReady s v then sendVec v s else s) s

/-! ### Trace -/

/-- Order of trace records: GTC, then TYPE, then SRC; what follows a LOST record stays behind it (19, R455). -/
def traceBefore (a b : BitVec 128) : Bool :=
  fld b 7 0 != 0x0F && fld a 63 16 == fld b 63 16 &&
    (decide (fld a 7 0 < fld b 7 0) || (fld a 7 0 == fld b 7 0 && decide (fld a 15 8 < fld b 15 8)))

/-- A record put behind every record it does not precede. -/
def traceInsert (r : BitVec 128) : List (BitVec 128) → List (BitVec 128)
  | [] => [r]
  | x :: xs => if traceBefore r x && xs.all (traceBefore r) then r :: x :: xs else x :: traceInsert r xs

/-- A trace record (19, R456). -/
def traceRec (ty src : Nat) (gtc : Gtc) (payload : BitVec 64) : BitVec 128 :=
  BitVec.ofNat 128 (ty + src * 2 ^ 8 + gtc.toNat % 2 ^ 48 * 2 ^ 16 + payload.toNat * 2 ^ 64)

/-- Lifecycle state: the highest blown bit (19, Table 19.2). -/
def lifecycle (s : State) : Nat :=
  if bitAt s.mgt.otp.lc 2 then 3 else if bitAt s.mgt.otp.lc 1 then 2 else if bitAt s.mgt.otp.lc 0 then 1 else 0

/-- One more record is lost; the first of a run is to fire OBS_TRACE_OVF. -/
def Obs.lose (o : Obs) (first : Bool) : Obs := { o with lost := satAdd 0xFFFFFFFF o.lost 1, ovfDue := o.ovfDue || first }

/-- Nanoseconds one record and the byte after it take on the TRACE pins (19, R457). -/
def pinRecNs : Nat := 85

/-- A record offered to the TRACE pins at a time: their buffer holds 256, the one going out among them (19, R457). -/
def Obs.toPins (o : Obs) (now : Nat) (r : BitVec 128) : Obs :=
  if !o.pins then o
  else if now + 255 * pinRecNs < o.pinAt then { o.lose (!o.pinLost) with pinLost := true }
  else
    let t := max o.pinAt now
    { o with pinAt := t + pinRecNs, pinLost := false, pinQ := (o.pinQ.filter fun x => decide (now < x.1 + pinRecNs)) ++ [(t, r)] }

/-- The LOST record of a run of losses: it has the GTC of the last one (19, R455; DESIGN CHOICE, entry 73). -/
def Obs.lostRec (o : Obs) : BitVec 128 := traceRec 0x0F 0 o.lostAt (BitVec.ofNat 64 o.lostRun)

/-- A record offered to the on-die trace buffer. When space has returned after losses, a LOST record comes first, if its type is
enabled, to the pins too (19, R455 to R457). -/
def Obs.toRing (o : Obs) (now : Nat) (gtc : Gtc) (r : BitVec 128) : Obs :=
  if !o.ring then o
  else if o.buf.length ≥ 4096 then { o.lose (o.lostRun == 0) with lostRun := satAdd 0xFFFFFFFF o.lostRun 1, lostAt := gtc }
  else if o.lostRun = 0 then { o with buf := traceInsert r o.buf }
  else if o.typeEn.getLsbD 15 then
    if o.buf.length + 1 < 4096 then { (o.toPins now o.lostRec) with buf := o.buf ++ [o.lostRec, r], lostRun := 0 }
    else { o.lose false with lostRun := satAdd 0xFFFFFFFF o.lostRun 1, lostAt := gtc }
  else { o with buf := traceInsert r o.buf, lostRun := 0 }

/-- A trace record of an enabled type is written (19, R456). -/
def trace (ty src : Nat) (payload : BitVec 64) (s : State) : State :=
  if s.obs.typeEn.getLsbD ty then
    let r := traceRec ty src s.clk.gtc payload
    { s with obs := (s.obs.toRing s.clk.ns s.clk.gtc r).toPins s.clk.ns r }
  else s

/-- The oldest buffered record is written to the trace ring in DRAM. -/
def drainOne (s : State) : State :=
  match s.obs.buf with
  | [] => s
  | r :: rest =>
    let i := s.obs.wptr
    { s with
      drc := { s.drc with mem := s.drc.mem.store 64 (traceBase s + 16 * i) (leBytes 16 r.toNat) }
      obs := { s.obs with buf := rest, wptr := (i + 1) % 2097152, wrapped := s.obs.wrapped || i + 1 == 2097152,
                          dramWr := s.obs.dramWr + 16 } }

/-- The trace buffer is emptied into DRAM in the capacity that other traffic leaves (19, R453). -/
def drainTrace (s : State) : State :=
  if dramUp s then (List.range s.obs.buf.length).foldl (fun s _ => drainOne s) s else s

/-- The DOMAIN trace record of a domain's present phase. -/
def traceDom (d : Nat) (s : State) : State :=
  trace 0x08 d (BitVec.ofNat 64 ((domAt s d).phase + (domAt s d).gen * 2 ^ 8)) s

/-! ### SIDE ordered sets -/

/-- The 16 bytes of an ordered set body. -/
def bodyBytes (b : BitVec 128) : List Byte := leBytes 16 b.toNat

/-- A SIDE body with its CRC (14, R360). -/
def sideBody (origin kind dom gen mask mseq tick : Nat) (fromLead : Bool) : BitVec 128 :=
  let n := 0x03 + (origin + b2n fromLead * 128) * 2 ^ 8 + kind * 2 ^ 16 + dom * 2 ^ 24 + gen % 256 * 2 ^ 32 +
    mask * 2 ^ 40 + mseq % 65536 * 2 ^ 48 + tick % 2 ^ 48 * 2 ^ 64
  BitVec.ofNat 128 (n + (crc16 (leBytes 14 n)).toNat * 2 ^ 112)

/-- The SIDE's CRC is good. -/
def sideGood (b : BitVec 128) : Bool := (crc16 ((bodyBytes b).take 14)).toNat == fld b 127 112

/-- FROM_LEAD set, and the CRC computed again. -/
def setFromLead (b : BitVec 128) : BitVec 128 :=
  sideBody (fld b 10 8) (fld b 23 16) (fld b 31 24) (fld b 39 32) (fld b 43 40) (fld b 63 48) (fld b 111 64) true

/-- A Harness port is out of reset (14, R344; 17, Table 17.2): in service, or fenced and draining. -/
def portAwake (s : State) (p : Nat) : Bool := decide ((domAt s (dHRN p)).phase ≤ 1)

/-- The port takes part in traffic: its domain is in service (17, R413). -/
def portLive (s : State) (p : Nat) : Bool := inService s (dHRN p)

/-- HRNn_STATUS.UP (14, R344). -/
def portUp (s : State) (p : Nat) : Bool := (portAt s p).up && portLive s p

/-- Ordered sets wait for the next slot 15 of a port (14, R345, R357). -/
def slot15 (p : Nat) (bodies : List (BitVec 128)) (s : State) : State :=
  modPort s p fun t => { t with pend15 := t.pend15 ++ bodies.map OSet.body }

/-- A SIDE is sent on one port and awaits its SIDE_ACK (14, R361). -/
def pushSide (body : BitVec 128) (p : Nat) (s : State) : State :=
  slot15 p [body] (modPort s p fun t => { t with sides := t.sides ++ [{ body := body, sentAt := s.clk.ns }] })

/-- A SIDE counts as seen (14, R361), until its origin's MSEQ has moved on by half its range. -/
def markSeen (origin mseq : Nat) (seen : List (Nat × Nat)) : List (Nat × Nat) :=
  (seen.filter fun x => x.1 != origin || decide ((mseq + 65536 - x.2) % 65536 < 32768)) ++ [(origin, mseq)]

/-- Ports that are UP. -/
def upPorts (s : State) : List Nat := (List.range 4).filter (portUp s)

/-- The port that ROUTE names towards a device (14, R353). -/
def routeTo (s : State) (d : Nat) : Option Nat :=
  let r := itmN s 9 0x11 d 0
  if r.testBit 2 then some (r % 4) else none

/-- This device is the lead (14, R362). -/
def isLead (s : State) : Bool := devId s == leadId s

/-- The lead logs a SIDE it receives or sends (14, R362, R366). -/
def logSide (body : BitVec 128) (s : State) : State :=
  if isLead s then
    let i := (s.hrn.logIdx + 1) % 64
    { s with hrn := { s.hrn with log := putAt 0 s.hrn.log i body, logIdx := i } }
  else s

/-- A SIDE of this device's own is sent (14, R361); the group map keeps its kind and number (19, Table 19.6). -/
def sendSide (kind dom gen mask tick : Nat) (s : State) : State :=
  let ownPort := match routeTo s (leadId s) with
    | some p => if portUp s p then some p else none
    | none => none
  let flood := isLead s || ownPort.isNone
  let m := s.hrn.mseq
  let body := sideBody (devId s) kind dom gen mask m tick flood
  let s0 := modPeer s (devId s) fun k => { k with known := true, lastKind := kind, lastMseq := m }
  let s1 := logSide body { s0 with hrn := { s0.hrn with mseq := (m + 1) % 65536, seen := markSeen (devId s) m s.hrn.seen } }
  (if flood then upPorts s1 else ownPort.toList).foldl (fun s p => pushSide body p s) s1

/-- An IDENT of this device for a port (14, Table 14.5). -/
def identBody (s : State) (p : Nat) : BitVec 128 :=
  BitVec.ofNat 128 (0x05 + devId s * 2 ^ 8 + groupM1 s * 2 ^ 16 + p * 2 ^ 24 + (groupTag s).toNat * 2 ^ 32)

/-- An IDENT is sent on every UP port. -/
def sendIdents (s : State) : State := (upPorts s).foldl (fun s p => slot15 p [identBody s p] s) s

/-! ### Voids -/

/-- The outputs of partition p become void for tick k. -/
def addVoid (p k : Nat) (s : State) : State := { s with glb := { s.glb with voids := addNew s.glb.voids (p, k) } }

/-- Tick that a void of partition p raised now falls on (01, R31). -/
def voidTick (s : State) (p : Nat) : Nat := if offNs s ≤ settleNs s p then s.time.tick else s.time.tick + 1

/-- The outputs of the given partitions become void for given ticks; the group is told of those newly void (17, R418). -/
def voidAt (pks : List (Nat × Nat)) (s : State) : State :=
  let new := pks.filter fun pk => usesPart s pk.1 && !isVoid s pk.1 pk.2
  let ticks := new.foldl (fun ts pk => addNew ts pk.2) []
  let s1 := new.foldl (fun s pk => addVoid pk.1 pk.2 s) s
  ticks.foldl (fun s k => sendSide 0x03 0xFF 0 (sumN ((List.range 4).map fun p => if new.contains (p, k) then 2 ^ p else 0)) k s) s1

/-- The outputs of partitions become void under R31; nothing when no tick has begun. -/
def voidParts (ps : List Nat) (s : State) : State :=
  if patActive s then voidAt (ps.map fun p => (p, voidTick s p)) s else s

/-! ### Firing -/

/-- What a fire is attributed to (16, R400). -/
inductive Who where
  | lcCmd (part : Nat)       -- a latency-critical command of this partition
  | beCmd (core : Nat)       -- the best-effort command on this core
  | core (c : Nat)
  | parts (ps : List Nat)
  | none
  deriving DecidableEq, Repr

/-- A fire of one source. -/
structure Fire where
  b : Nat
  src : Nat
  det : Word := 0
  who : Who := .none
  inj : Bool := false
  /-- it is a force, not a real fire (16, R404) -/
  force : Bool := false
  /-- coincident events that the one fire stands for (15, Table 15.2) -/
  count : Nat := 1
  /-- a force of CCn_CMD_OVERRUN while a best-effort command runs (16, R395) -/
  be : Bool := false
  deriving DecidableEq, Repr

/-- The command running on core c, to which a fire is attributed; the core when none runs. -/
def whoOn (s : State) (c : Nat) : Who :=
  match (coreAt s c).st.run with
  | some r => if r.lc then .lcCmd r.part else .beCmd c
  | none => .core c

/-- The partitions a fire at S2 and above voids. -/
def whoParts (s : State) (w : Who) : List Nat :=
  match w with
  | .lcCmd p => [p]
  | .beCmd _ => []
  | .core c => (partOf s c).toList
  | .parts ps => ps
  | .none => List.range 4

/-- The severity slot of a source (16, R395): CCn_CMD_OVERRUN has one for each class. -/
def slotOf (f : Fire) : Nat :=
  if 20 ≤ f.b ∧ f.src = 13 then (if f.be then 63 else match f.who with | .beCmd _ => 63 | _ => 13) else f.src

/-- A real fire of a source that a force has fired in the same cycle: the two are one fire (16, R404). -/
def FltBlock.joins (blk : FltBlock) (f : Fire) : Bool := blk.fired.getLsbD f.src && blk.onlyForced.getLsbD f.src

/-- The stored level of a source at the start of the cycle or since, whatever a write has cleared in it (16, R403). -/
def FltBlock.levelOf (blk : FltBlock) (src : Nat) : Nat :=
  max (blk.lvl.getD src 0) (if blk.stat0.getLsbD src then blk.lvl0.getD src 0 else 0)

/-- The fault register set of the block after a fire at an effective level; `blk` is the block in the cycle of the fire (16, R398, R399,
R403, R404). -/
def FltBlock.record (blk : FltBlock) (f : Fire) (info : SrcInfo) (lvl : Nat) (esc : Bool) (pmask : Nat) (gtc : Gtc) : FltBlock :=
  let mine := blk.joins f && decide (blk.stat0 = 0) && fld blk.info0 21 16 == f.src
  let take := mine ∨ blk.stat0 = 0 ∧ (blk.fired = 0 ∨ betterCapture blk.info0 lvl f.src)
  { blk with
    fired := putBit blk.fired f.src true
    onlyForced := putBit blk.onlyForced f.src f.force
    stat := putBit blk.stat f.src true
    lvl := putAt 0 blk.lvl f.src (max (blk.levelOf f.src) lvl)
    cnt := putAt 0 blk.cnt f.src (satAdd 0xFFFF (blk.cnt.getD f.src 0) (if blk.joins f then f.count - 1 else f.count))
    info0 := if take then fltInfo0 f.inj esc lvl info.cls f.src pmask else blk.info0
    info1 := if take then gtc.truncate 32 else blk.info1
    info2 := if take then f.det else blk.info2
    forced := if f.inj && !blk.stat.getLsbD f.src then putBit blk.forced f.src true
              else if f.inj then blk.forced else putBit blk.forced f.src false }

/-- A best-effort command to which a fire at S2 or above is attributed completes VOID (16, R401). -/
def markVoid (w : Who) (s : State) : State :=
  match w with
  | .beCmd c => modSt s c fun k => { k with run := k.run.map fun r => { r with void := true } }
  | _ => s

/-- The safe state is due, for the first source that reached S4 (15, R387). -/
def dueSafe (b src : Nat) (s : State) : State :=
  if s.glb.safe then s
  else match s.glb.safeDue with
  | some _ => s
  | none => { s with glb := { s.glb with safeDue := some (b, src) } }

/-- A restart of a domain is requested (17, R411): ignored unless the domain is in service and exists. -/
def requestRestart (d : Nat) (s : State) : State :=
  if inService s d && decide (1 ≤ d) && decide (d ≤ 24) && (decide (d > 16) || present s (d - 1)) then
    { s with dru := { s.dru with req := addNew s.dru.req d } }
  else s

/-- Payload of the FAULT trace record of a fire (19, Table 19.10). -/
def faultPayload (f : Fire) (info : SrcInfo) (lvl : Nat) (esc : Bool) : BitVec 64 :=
  BitVec.ofNat 64 (f.src + lvl * 2 ^ 8 + b2n esc * 2 ^ 11 + b2n f.inj * 2 ^ 12 + info.cls * 2 ^ 13 + f.det.toNat * 2 ^ 32)

/-- The FAULT record of a fire; one that joins a forced fire of its cycle takes that fire's place while it is still buffered. -/
def traceFault (f : Fire) (info : SrcInfo) (lvl : Nat) (esc joins : Bool) (s : State) : State :=
  if joins then
    let old := traceRec 0x01 f.b s.clk.gtc (faultPayload { f with inj := true, det := 0 } info lvl esc)
    let new := traceRec 0x01 f.b s.clk.gtc (faultPayload f info lvl esc)
    { s with obs := { s.obs with buf := s.obs.buf.map fun r => if r = old then new else r } }
  else trace 0x01 f.b (faultPayload f info lvl esc) s

/-- Level and escalation of a fire now: its block is judged as it stood at the start of the cycle, so that sources that fire in the
same cycle do not escalate one another (16, R398, R399). -/
def fireLevel (s : State) (f : Fire) (info : SrcInfo) : Nat × Bool :=
  effLevel f.b info.cls ((fltAt s f.b).atStart s.clk.cyc) ((fltAt s f.b).sev.getD (slotOf f) 0)

/-- Partitions that a fire at a level voids: none below S2, none in the safe state (16, R400, Table 16.8). -/
def fireParts (s : State) (f : Fire) (lvl : Nat) : List Nat :=
  if 2 ≤ lvl && !s.glb.safe then (whoParts s f.who).filter (usesPart s) else []

/-- The fire's message: sent unless a status bit held the level at the start of the cycle, and once for each level and cycle (16,
R407). -/
def fireMsg (f : Fire) (lvl : Nat) (s : State) : State :=
  let blk := (fltAt s f.b).inCycle s.clk.cyc
  if 1 ≤ lvl && !holdsLevel (blk.atStart s.clk.cyc) lvl && !blk.sent.getLsbD lvl then
    postVec (4 * f.b + (lvl - 1))
      { s with flt := upd s.flt f.b fun blk => let k := blk.inCycle s.clk.cyc; { k with sent := putBit k.sent lvl true } }
  else s

/-- What a level brings about beyond the void: a restart at S3, the safe state at S4, neither in the safe state (16, Table 16.8). -/
def fireEffect (f : Fire) (lvl : Nat) (s : State) : State :=
  if s.glb.safe then s
  else if lvl = 4 then dueSafe f.b f.src s
  else if lvl = 3 then (match blockDomain f.b with | some d => requestRestart d s | none => s)
  else s

/-- One fire (16, R398 to R400, R404, R407). A force in a cycle in which its source has fired is that same fire. -/
def fireOne (s : State) (f : Fire) : State :=
  match srcInfo f.b f.src with
  | none => s
  | some info =>
    let blk := (fltAt s f.b).inCycle s.clk.cyc
    if f.force && blk.fired.getLsbD f.src then s
    else
      let (lvl, esc) := fireLevel s f info
      let ps := fireParts s f lvl
      let pmask := if patActive s then sumN ((List.range 4).map fun p => if ps.contains p then 2 ^ p else 0) else 0
      let s0 := fireMsg f lvl s
      let s1 := { s0 with flt := upd s0.flt f.b fun blk => (blk.inCycle s.clk.cyc).record f info lvl esc pmask s.clk.gtc }
      let s2 := if 2 ≤ lvl && !s.glb.safe then markVoid f.who (voidParts ps s1) else s1
      fireEffect f lvl (traceFault f info lvl esc (blk.joins f) s2)

/-- Sources fire one after another. -/
def fireAll (fs : List Fire) (s : State) : State := fs.foldl fireOne s

/-- One source fires. -/
def fire (f : Fire) (s : State) : State := fireAll [f] s

/-- The cause of a level-type source begins: it fires at the onset and not again while the cause lasts (16, R402). -/
def onset (f : Fire) (s : State) : State :=
  if (fltAt s f.b).cause.getLsbD f.src then s
  else fire f { s with flt := upd s.flt f.b fun k => { k with cause := putBit k.cause f.src true } }

/-- The cause of a level-type source ends. -/
def causeEnds (b src : Nat) (s : State) : State :=
  { s with flt := upd s.flt b fun k => { k with cause := putBit k.cause src false } }

/-- GLB_CFG_LIVE_WRITE for the register at a BAR0 offset (13, R341). -/
def liveWrite (off : Nat) (s : State) : State := fire { b := bGLB, src := 0, det := BitVec.ofNat 32 off } s

end Sys2Proof.Machine
end

