-- ==== Sys2Proof/Machine/Access.lean ====
section
/-!
DEFINITION. Reads and writes of the memories as agents make them: the sources that corrected and uncorrectable words fire
(08, R193, R212, R213), the command they are attributed to (16, R400), and the access counters (19, R454).
-/
namespace Sys2Proof.Machine

/-- A memory. -/
inductive MemId where
  | asp (c : Nat) | wbf (c : Nat) | wbs (c : Nat) | bst (c : Nat) | fst | dram | intake
  deriving DecidableEq, Repr

def memOf (s : State) (m : MemId) : Mem :=
  match m with
  | .asp c => (coreAt s c).asp
  | .wbf c => (coreAt s c).wbf
  | .wbs c => (coreAt s c).wbs
  | .bst c => (coreAt s c).bst
  | .fst => s.fst.mem
  | .dram => s.drc.mem
  | .intake => s.siu.buf

def setMem (m : MemId) (v : Mem) (s : State) : State :=
  match m with
  | .asp c => modCore s c fun k => { k with asp := v }
  | .wbf c => modCore s c fun k => { k with wbf := v }
  | .wbs c => modCore s c fun k => { k with wbs := v }
  | .bst c => modCore s c fun k => { k with bst := v }
  | .fst => { s with fst := { s.fst with mem := v } }
  | .dram => { s with drc := { s.drc with mem := v } }
  | .intake => { s with siu := { s.siu with buf := v } }

/-- The memory that holds Weight Buffer offset `a`. -/
def wbfMem (s : State) (c a : Nat) : MemId := if isResident s c (a / 65536) then .wbf c else .wbs c

/-- Bytes of an ECC word: 64 bits in SRAM (R193), 64 bytes in DRAM (R207). -/
def MemId.word (m : MemId) : Nat := match m with | .dram => 64 | _ => 8

/-- Bytes of one access (R213, R500, Table 8.1): the Load Engine writes the Weight Buffer 256 bytes at a time. -/
def MemId.block (m : MemId) (write : Bool) : Nat :=
  match m with
  | .asp _ => 512 | .wbf _ => if write then 256 else 512 | .wbs _ => if write then 256 else 512 | .bst _ => 32
  | .fst => 256 | .dram => 256 | .intake => 256

/-- Block of the memory's sources, its corrected source and its uncorrectable source for a read. -/
def MemId.srcs (m : MemId) : Nat × Nat × Nat :=
  match m with
  | .asp c => (bCC c, 0, 1)
  | .wbf c => (bCC c, 0, 2)
  | .wbs c => (bCC c, 0, 2)
  | .bst c => (bCC c, 0, 3)
  | .fst => (bFST, 0, 1)
  | .dram => (bDRC, 0, 1)
  | .intake => (bSIU, 13, 14)

/-- The command on a core has consumed a poisoned word: it completes VOID, whatever its class (R212). -/
def consumed (agent : Option Nat) (s : State) : State :=
  match agent with
  | some c => modSt s c fun k => { k with run := k.run.map fun r => { r with void := true } }
  | none => s

/-- What fires of an access are attributed to. -/
def agentWho (s : State) (agent : Option Nat) : Who :=
  match agent with
  | some c => whoOn s c
  | none => .none

/-- The agent is a core that runs a latency-critical command. -/
def agentLc (s : State) (agent : Option Nat) : Bool :=
  match agent with
  | some c => ((coreAt s c).st.run.map Run.lc).getD false
  | none => false

/-- Accesses and bytes counted by the Observation Unit (R454). -/
def countAccess (m : MemId) (write : Bool) (lc : Bool) (n : Nat) (s : State) : State :=
  match m with
  | .fst => if lc then { s with obs := { s.obs with fstLc := s.obs.fstLc + 1 } } else { s with obs := { s.obs with fstBe := s.obs.fstBe + 1 } }
  | .dram => if write then { s with obs := { s.obs with dramWr := s.obs.dramWr + n } } else { s with obs := { s.obs with dramRd := s.obs.dramRd + n } }
  | _ => s

/-- The sources one access fires. -/
def accessFires (m : MemId) (who : Who) (ce ue : Bool) : List Fire :=
  (if ce then [{ b := m.srcs.1, src := m.srcs.2.1, who := who }] else []) ++
    (if ue then [{ b := m.srcs.1, src := m.srcs.2.2, who := who }] else [])

/-- One access that reads spans of bytes: it fires each source at most once, and corrects what it corrects (R193, R213). -/
def readSpans (m : MemId) (agent : Option Nat) (spans : List (Nat × Nat)) (s : State) : State :=
  let v := memOf s m
  let ce := spans.any fun x => v.hasCe m.word x.1 x.2
  let ue := spans.any fun x => v.hasUe m.word x.1 x.2
  let s1 := countAccess m false (agentLc s agent) (sumN (spans.map Prod.snd)) s
  if ce || ue then
    let fixed := spans.foldl (fun v x => v.corrected m.word x.1 x.2) v
    let s2 := fireAll (accessFires m (agentWho s agent) ce ue) (setMem m fixed s1)
    if ue then consumed agent s2 else s2
  else s1

/-- One access that reads `n` bytes from an address on. -/
def readOne (m : MemId) (agent : Option Nat) (s : State) (x : Nat × Nat) : State := readSpans m agent [x] s

/-- A read of a run of bytes, access by access; the bytes themselves are read with `Mem.rdN`. -/
def readRun (m : MemId) (agent : Option Nat) (a n : Nat) (s : State) : State :=
  (accesses (m.block false) a n).foldl (readOne m agent) s

/-- Whether a run of bytes is poisoned. -/
def poisoned (s : State) (m : MemId) (a n : Nat) : Bool := (memOf s m).hasUe m.word a n

/-- One access that writes bytes: a narrower write than its words merges them (R193). -/
def writeOne (m : MemId) (agent : Option Nat) (bs : List Byte) (a0 : Nat) (s : State) (x : Nat × Nat) : State :=
  let v := memOf s m
  let finds := v.mergeFinds m.word x.1 x.2
  let s1 := setMem m (v.store m.word x.1 (slice bs (x.1 - a0) x.2)) (countAccess m true (agentLc s agent) x.2 s)
  if finds.1 || finds.2 then fireAll (accessFires m (agentWho s agent) finds.1 finds.2) s1 else s1

/-- Bytes written from an address on, access by access. -/
def writeRun (m : MemId) (agent : Option Nat) (a : Nat) (bs : List Byte) (s : State) : State :=
  (accesses (m.block true) a bs.length).foldl (writeOne m agent bs a) s

/-- Bytes the intake writes to the Frame Store, 128 bytes an access (Table 8.1). -/
def intakeWrite (a : Nat) (bs : List Byte) (s : State) : State :=
  (accesses 128 a bs.length).foldl (writeOne .fst none bs a) s

/-- Bytes written where they land poisoned, if `bad` (R212: poison travels with the data). -/
def writeData (m : MemId) (agent : Option Nat) (a : Nat) (bs : List Byte) (bad : Bool) (s : State) : State :=
  let s1 := writeRun m agent a bs s
  if bad then setMem m ((memOf s1 m).poison m.word a bs.length) s1 else s1

/-- Addresses of the bytes that are marked poisoned. -/
def markedAt (cells : List Host.Cell) (marks : List Bool) : List Nat :=
  ((cells.zip marks).filter Prod.snd).map fun x => x.1.1

/-- Whether each byte of runs lies in a poisoned word; empty when none does. -/
def marksOf (s : State) (m : MemId) (runs : List (Nat × Nat)) : List Bool :=
  if runs.any fun r => poisoned s m r.1 r.2 then runs.flatMap fun r => (List.range r.2).map fun i => poisoned s m (r.1 + i) 1 else []

/-- Cells written run by run, the marked ones poisoned where they land (R212); `mem` is the memory that holds an address. -/
def writeCells (mem : Nat → MemId) (agent : Option Nat) (cells : List Host.Cell) (marks : List Bool) (s : State) : State :=
  let runs := (joinRuns cells).flatMap fun r => (accesses 65536 r.1 r.2.length).map fun a => (a.1, slice r.2 (a.1 - r.1) a.2)
  let s1 := runs.foldl (fun s r => writeRun (mem r.1) agent r.1 r.2 s) s
  (markedAt cells marks).foldl (fun s a => setMem (mem a) ((memOf s (mem a)).poison (mem a).word a 1) s) s1

/-- A write of a core's memory is made. -/
def landWr (c : Nat) (s : State) (w : PendWr) : State :=
  writeCells (fun a => if w.wbuf then wbfMem s c a else .asp c) (some c) w.cells w.marks s

end Sys2Proof.Machine
end

