-- ==== Sys2Proof/Machine/Messages.lean ====
section
/-!
DEFINITION. The Harness as a device sends on it: the slots of a port with flits, ordered sets and replay (14, R345 to R349), message
headers and routes (R350, R353), and the requests of a core with their end-to-end credits and fixed latencies (R350 to R355).
-/
namespace Sys2Proof.Machine

/-! ### Headers -/

/-- A message header (Table 14.3). -/
structure Msg where
  ty : Nat
  be : Bool
  src : Nat
  dst : Nat
  poison : Bool := false
  rid : Nat
  space : Nat := 0
  len : Nat := 1
  addr : Nat := 0
  deriving DecidableEq, Repr

def Msg.header (m : Msg) : BitVec 128 :=
  BitVec.ofNat 128 (m.ty + b2n m.be * 2 ^ 4 + m.src * 2 ^ 5 + m.dst * 2 ^ 8 + b2n m.poison * 2 ^ 11 + m.rid * 2 ^ 16 +
    m.space * 2 ^ 32 + (m.len - 1) * 2 ^ 40 + m.addr * 2 ^ 64)

def msgOf (h : BitVec 128) : Msg :=
  { ty := fld h 3 0, be := bitAt h 4, src := fld h 7 5, dst := fld h 10 8, poison := bitAt h 11, rid := fld h 31 16,
    space := fld h 33 32, len := fld h 47 40 + 1, addr := fld h 103 64 }

/-- Data bytes that follow a header: LEN_M1 + 1 for WR_REQ and RD_RSP. -/
def Msg.dataLen (m : Msg) : Nat := if m.ty = 2 ∨ m.ty = 3 then m.len else 0

/-! ### Slots -/

/-- Bytes of payload in a flit. -/
def flitPayload : Nat := 240

/-- Time at which slot n of a port begins: slots last 8.125 ns (Table 14.1), slot 0 begins as the port is UP (DESIGN CHOICE,
entry 72). -/
def slotNs (k : Port) (n : Nat) : Nat := k.upAt + ceilDiv (65 * n) 8

/-- First slot that begins after a time. -/
def slotAfter (k : Port) (ns : Nat) : Nat := 8 * (ns - k.upAt) / 65 + 1

/-- A slot 15 that carries a SKIP: one in 1,024 slots (Table 14.5; which one: DESIGN CHOICE, entry 72). -/
def skipSlot (n : Nat) : Bool := n % 1024 == 1023

/-- A SKIP. -/
def skipBody : BitVec 128 := 0x02

/-- The 256 bytes of a flit (Table 14.2): SEQ, ACK, NAK, VC, credits returned, payload and CRC. -/
def flitBytes (seq ack : Nat) (nak : Bool) (vc lc be : Nat) (pay : List Byte) : List Byte :=
  let h := leBytes 8 (seq % 4096 + ack % 4096 * 2 ^ 12 + b2n nak * 2 ^ 24 + vc * 2 ^ 25 + min lc 255 * 2 ^ 32 + min be 255 * 2 ^ 40)
  let body := h ++ pay ++ List.replicate (flitPayload - pay.length) 0
  body ++ leBytes 8 (crc32c body).toNat

/-- A flit of the port with its control fields as they stand: last SEQ received in order, NAK, credits (R347, R349). -/
def Port.flit (k : Port) (seq vc : Nat) (pay : List Byte) : List Byte :=
  flitBytes seq (k.rxSeq + 4095) k.nakDue vc k.creditDue.1 k.creditDue.2 pay

/-- The port after a flit: NAK and credits have gone with it. -/
def Port.sentFlit (k : Port) (flit : List Byte) : Port := { k with lastFlit := flit, nakDue := false, creditDue := (0, 0) }

/-- A NULL flit, which is kept only if it carries a NAK or credits. -/
def Port.null (k : Port) : Port :=
  if k.nakDue || k.creditDue != (0, 0) then k.sentFlit (k.flit k.txSeq 2 []) else k

/-- The port's queue of message bytes for a VC: 0 latency-critical, 1 best-effort. -/
def Port.txOf (k : Port) (vc : Nat) : List Byte := if vc = 0 then k.txq.1 else k.txq.2
def Port.credit (k : Port) (vc : Nat) : Nat := if vc = 0 then k.credits.1 else k.credits.2

/-- A new flit of a VC can be sent: bytes wait, a credit is held, fewer than 63 flits are unacknowledged, none waits to be sent again
(R347, R349), and R359 has not stopped the port. -/
def Port.fresh (k : Port) (vc : Nat) : Bool :=
  !k.stopped && k.redo.isEmpty && !(k.txOf vc).isEmpty && decide (0 < k.credit vc) && decide (k.replay.length < 63)

/-- VC of the flit that is to be sent again next. -/
def Port.redoVc (k : Port) : Option Nat :=
  if k.stopped then none
  else match k.redo with
  | [] => none
  | q :: _ => ((k.replay.find? fun f => f.seq == q).map TxFlit.vc)

/-- First slot from n on that is not a slot 15. -/
def notSlot15 (n : Nat) : Nat := if n % 16 = 15 then n + 1 else n

/-- The next slot that carries more than a NULL flit or a SKIP (R345). -/
def Port.nextSlot (k : Port) : Option Nat :=
  let n := k.txSlot
  let lc := if k.fresh 0 || k.redoVc == some 0 then [notSlot15 n] else []
  let be := if k.fresh 1 || k.redoVc == some 1 then [n] else []
  let sets := if k.pend15.isEmpty then [] else [n + 15 - n % 16]
  match lc ++ be ++ sets with
  | [] => none
  | x :: xs => some (xs.foldl min x)

/-- Flits sent are counted; those sent again, in the lifetime record too (19, R452, R454). -/
def countTx (p : Nat) (s : State) : State := { s with obs := { s.obs with txFlits := upd s.obs.txFlits p (· + 1) } }

/-- The port trains again; the replay buffer is kept (R348). -/
def retrain (p : Nat) (s : State) : State :=
  modPort s p fun k => { k with up := false, retraining := true, trainAt := s.clk.ns }

/-- A forwarded message's bytes left after one flit of its VC has gone. -/
def fwdAfter (vc : Nat) (x : Nat × Nat × Nat) : Nat × Nat × Nat := if x.1 = vc then (x.1, x.2.1 - flitPayload, x.2.2) else x

/-- Credits whose flit has been passed on as a whole go back (R349). -/
def freeHolds (s : State) : State :=
  let waits := fun (t : Nat) => s.hrn.ports.any fun k => k.fwd.any fun x => x.2.2 == t
  (s.hrn.holds.filter fun h => !waits h.ticket).foldl
    (fun s h => modPort s h.port fun k =>
      { k with creditDue := if h.vc = 0 then (k.creditDue.1 + h.n, k.creditDue.2) else (k.creditDue.1, k.creditDue.2 + h.n) })
    { s with hrn := { s.hrn with holds := s.hrn.holds.filter fun h => waits h.ticket } }

/-- One flit of a VC is sent at a time and kept in the replay buffer (R347, R349). -/
def sendFlit (p vc at_ : Nat) (s : State) : State :=
  let pay := ((portAt s p).txOf vc).take flitPayload
  freeHolds (countTx p (modPort s p fun k =>
    let k1 := k.sentFlit (k.flit k.txSeq vc pay)
    { k1 with
      txq := if vc = 0 then (k.txq.1.drop flitPayload, k.txq.2) else (k.txq.1, k.txq.2.drop flitPayload)
      credits := if vc = 0 then (k.credits.1 - 1, k.credits.2) else (k.credits.1, k.credits.2 - 1)
      replay := k.replay ++ [{ seq := k.txSeq, vc := vc, payload := pay, sentAt := at_ }]
      txSeq := (k.txSeq + 1) % 4096
      fwd := (k.fwd.map (fwdAfter vc)).filter fun x => x.2.1 != 0 }))

/-- The flit that is next in turn is sent again; the eighth time retrains the port (R347, R348). -/
def resendFlit (p at_ : Nat) (s : State) : State :=
  match (portAt s p).redo with
  | [] => s
  | q :: rest =>
    let hit := fun (f : TxFlit) => if f.seq = q then { f with sentAt := at_, resends := f.resends + 1 } else f
    let s1 := lifeAdd (504 + 8 * p) 8 1 (countTx p (modPort s p fun k =>
      let k1 := match k.replay.find? fun f => f.seq == q with
        | some f => k.sentFlit (k.flit q f.vc f.payload)
        | none => k
      { k1 with redo := rest, replay := k.replay.map hit, replays := satAdd 0xFFFFFFFF k.replays 1 }))
    if (portAt s1 p).replay.any fun f => f.seq == q && decide (8 ≤ f.resends) then fire { b := bHRN p, src := 1 } (retrain p s1) else s1

/-- A SYNC that leaves in slot n (Table 14.5): T_TX is the GTC in half nanoseconds as the slot begins. -/
def syncBody (s : State) (p n : Nat) : BitVec 128 :=
  let k := portAt s p
  let t := BitVec.ofNat 32 (2 * (s.clk.gtc - BitVec.ofNat 64 (s.clk.ns - k.upAt)).toNat + 65 * n / 4)
  BitVec.ofNat 128 (0x01 + t.toNat * 2 ^ 32 + k.echo.1.toNat * 2 ^ 64 + k.echo.2.toNat * 2 ^ 96)

/-- Up to 16 ordered sets leave in slot n, a slot 15, with the SKIP that is due in it (R345). -/
def sendSets (p n : Nat) (s : State) : State :=
  let own := if skipSlot n then 15 else 16
  let bodies := ((portAt s p).pend15.take own).map fun (x : OSet) => match x with | .body b => b | .sync => syncBody s p n
  modPort s p fun k => { k with sent15 := bodies ++ (if skipSlot n then [skipBody] else []), pend15 := k.pend15.drop own }

/-- What slot n carries: in a slot 15 the ordered sets; else a flit to be sent again, a latency-critical one, a best-effort one. -/
def fillSlot (p n : Nat) (s : State) : State :=
  let k := portAt s p
  let t := slotNs k n
  if n % 16 = 15 && !k.pend15.isEmpty then sendSets p n s
  else match k.redoVc with
  | some vc => if n % 16 = 15 && vc == 0 then s else resendFlit p t s
  | none => if n % 16 ≠ 15 && k.fresh 0 then sendFlit p 0 t s else if k.fresh 1 then sendFlit p 1 t s else s

/-- The slots up to now that have nothing to carry: NULL flits and SKIPs. -/
def idleSlots (now : Nat) (k : Port) : Port :=
  if slotNs k k.txSlot ≤ now then
    let end_ := slotAfter k now
    let k1 := { k.null with txSlot := end_ }
    if k.txSlot / 1024 < end_ / 1024 then { k1 with sent15 := [skipBody] } else k1
  else k

/-- The slots of a port that have begun up to now, at most `fuel` of them with something to carry. -/
def runSlots (p : Nat) : Nat → State → State
  | 0, s => s
  | fuel + 1, s =>
    let k := portAt s p
    match k.nextSlot with
    | none => modPort s p (idleSlots s.clk.ns)
    | some n =>
      if s.clk.ns < slotNs k n then modPort s p (idleSlots s.clk.ns)
      else if !k.up then s
      else
        let s1 := if k.txSlot < n then modPort s p Port.null else s
        runSlots p fuel (modPort (fillSlot p n s1) p fun k => { k with txSlot := n + 1 })

/-- Things that wait on a port. -/
def Port.work (k : Port) : Nat :=
  k.redo.length + k.txq.1.length / flitPayload + k.txq.2.length / flitPayload + k.pend15.length + 4

/-- Every port sends in the slots that have begun. -/
def portsRun (s : State) : State := (upPorts s).foldl (fun s p => runSlots p (portAt s p).work s) s

/-! ### Routes -/

/-- Port of the route towards a device, whether or not it can be used. -/
def routePort (s : State) (d : Nat) : Nat := itmN s 9 0x11 d 0 % 4

/-- A message is put on a port and leaves as slots and credits allow; a forwarded one with the ticket of its flit. -/
def putMsg (p : Nat) (be fwd : Bool) (bs : List Byte) (s : State) : State :=
  modPort s p fun k =>
    let q := if be then (k.txq.1, k.txq.2 ++ bs) else (k.txq.1 ++ bs, k.txq.2)
    { k with txq := q
             fwd := if fwd then k.fwd ++ [(b2n be, if be then q.2.length else q.1.length, s.hrn.ticket)] else k.fwd }

/-- A port takes messages: in service, UP or holding them while it retrains (R348, Table 14.9), and not stopped by R359. -/
def portTakes (s : State) (p : Nat) : Bool :=
  let k := portAt s p
  portLive s p && (k.up || (k.retraining && !k.down)) && !k.stopped

/-- The message can be sent towards its destination, not back on the port it came in on (R353). -/
def canRoute (s : State) (d : Nat) (inPort : Option Nat) : Bool :=
  (itmN s 9 0x11 d 0).testBit 2 && portTakes s (routePort s d) && inPort != some (routePort s d)

/-- Peer d is fenced at this device (17, R420). -/
def peerFenced (s : State) (d : Nat) : Bool := (peerAt s d).inSafe || !(peerAt s d).fences.isEmpty

/-- A message is sent or forwarded for `who`; one that cannot be is dropped with HRNn_ROUTE (R353). The flag says that it was sent. -/
def sendMsg (m : Msg) (data : List Byte) (inPort : Option Nat) (who : Who) (s : State) : State × Bool :=
  if canRoute s m.dst inPort then
    (putMsg (routePort s m.dst) m.be inPort.isSome (leBytes 16 m.header.toNat ++ data) s, true)
  else (fire { b := bHRN (routePort s m.dst), src := 6, who := who } s, false)

/-! ### Latencies -/

/-- Distance on a ring of n devices. -/
def ringHops (n a b : Nat) : Nat :=
  let d := (a + n - b) % n
  min d (n - d)

/-- The route to device d leaves by a port whose PORT_CFG names d itself. -/
def direct (s : State) (d : Nat) : Bool :=
  let v := itmN s 9 0x10 (routePort s d) 0
  v.testBit 0 && bitsAt v 1 3 == d

/-- Hops from this device to device d: one over a direct link, else by the group's topology (Tables 14.6 and 14.8). -/
def hopsTo (s : State) (d : Nat) : Nat :=
  let n := groupM1 s + 1
  let a := devId s
  if direct s d then 1
  else match itmN s 9 0x17 0 3 with
  | 0 => if a < d then d - a else a - d
  | 1 => ringHops n a d
  | 2 => min (ringHops n a d) (1 + ringHops n ((a + n / 2) % n) d)
  | _ => Config.otherHops a d

/-- Fixed latency of R355 in device cycles. -/
def remoteLat (s : State) (d space : Nat) (write : Bool) : Nat :=
  let ow := 120 + 100 * (hopsTo s d - 1)
  let tgt := if write then (if space = 1 then 12 else 64) else if space = 1 then 24 else 384
  ceilDiv (2 * ow * perfF s) 5 + tgt + 16

/-! ### Requests of a core -/

/-- A peer space of a walk as a message names it: 4 is its Frame Store, 5 its DRAM (Table 7.9). -/
def peerSpace (space : Nat) : Nat := if space = 4 then 1 else 2

def isPeer (space : Nat) : Bool := space == 4 || space == 5

/-- A credit of the class's pool for peer d is free (R352). -/
def creditFree (s : State) (d : Nat) (lc : Bool) : Bool :=
  decide (((peerAt s d).out.filter fun q => q.lc == lc).length < itmN s 9 (if lc then 0x13 else 0x14) d 256)

/-- The core raises CCn_REMOTE_ERR, and its command completes VOID (08, R215). -/
def remoteErr (c : Nat) (s : State) : State := consumed (some c) (fire { b := bCC c, src := 14, who := whoOn s c } s)

/-- Changes the transfers of core c. -/
def modXfers (c : Nat) (f : List Xfer → List Xfer) (s : State) : State := modCore s c fun k => { k with xfers := f k.xfers }

/-- Changes one transfer of a core: the one of a queue with that dispatch number. -/
def modXfer (c : Nat) (store : Bool) (seq : Nat) (f : Xfer → Xfer) (s : State) : State :=
  modXfers c (fun l => l.map fun x => if x.store = store ∧ x.ent.seq = seq then f x else x) s

/-- One message of a transfer is sent to its peer: it takes a credit and a request identifier, and awaits its response; or the
device answers it with its own DENY (R351 to R353; 17, R420). -/
def sendRequest (c : Nat) (r : Run) (x : Xfer) (g : Msgs) (m : MsgOut) (s : State) : State :=
  let rid := (peerAt s g.dev).nextRid
  let data := match x.dst with | .bytes _ _ cells _ => ((cells.drop m.pos).take m.len).map Prod.snd | _ => []
  let msg : Msg := { ty := if g.write then 2 else 1, be := !r.lc, src := devId s, dst := g.dev, rid := rid, space := g.space,
                     len := m.len, addr := m.addr }
  let (s2, sent) := if peerFenced s g.dev then (s, false) else sendMsg msg (if g.write then data else []) none (whoOn s c) s
  let due := s.clk.cyc + remoteLat s g.dev g.space g.write
  if sent then
    let q : RemReq := { rid := rid, core := c, run := r.id, store := x.store, seq := x.ent.seq, lc := r.lc, write := g.write,
                        space := g.space, pos := m.pos, addr := m.addr, len := m.len, port := routePort s g.dev,
                        due := due, sentAt := s.clk.ns }
    modXfer c x.store x.ent.seq (fun y => { y with waiting := y.waiting ++ [(g.dev, rid)] })
      (modPeer s2 g.dev fun p => { p with out := p.out ++ [q], nextRid := (rid + 1) % 65536 })
  else
    modXfer c x.store x.ent.seq (fun y => { y with denied := y.denied || !g.write, doneAt := if r.lc then max y.doneAt due else y.doneAt })
      (remoteErr c s2)

/-- A write that would begin at cycle w waits for the checks pending then (15, R371). -/
def holdPast (checks : List (Nat × Nat)) (w : Nat) : Nat :=
  checks.foldl (fun w x => if x.1 ≤ w ∧ w < x.2 then x.2 else w) w

/-- Cycle at which the next message of a transfer is sent at the earliest: the first one of a store waits for the pending checks of
the core (15, R371). -/
def msgAt (k : Core) (x : Xfer) (g : Msgs) (m : MsgOut) : Nat :=
  if g.write && x.waiting.isEmpty && m.pos == 0 then holdPast k.mx.checks m.at_ else m.at_

/-- Messages of one transfer are sent as their cycles come, while credits last. -/
def sendMsgs (c : Nat) (store : Bool) (seq : Nat) : Nat → State → State
  | 0, s => s
  | fuel + 1, s =>
    match (coreAt s c).st.run, (coreAt s c).xfers.find? fun x => x.store == store && x.ent.seq == seq with
    | some r, some x =>
      match x.msgs with
      | some g =>
        (match g.list with
        | [] => modXfer c store seq (fun y => { y with msgs := none }) s
        | m :: rest =>
          let t := msgAt (coreAt s c) x g m
          if creditFree s g.dev r.lc && decide (t ≤ s.clk.cyc) then
            sendMsgs c store seq fuel (sendRequest c r x g m
              (modXfer c store seq (fun y =>
                { y with msgs := some { g with list := rest.map fun q => { q with at_ := q.at_ + (t - m.at_) } } }) s))
          else s)
      | none => s
    | _, _ => s

/-- The first transfer of a queue that has messages left sends what its credits allow; those behind it wait (R352). -/
def pumpXfers (c : Nat) (store : Bool) (s : State) : State :=
  match (coreAt s c).xfers.find? fun x => x.store == store && x.msgs.isSome with
  | some x => sendMsgs c store x.ent.seq ((x.msgs.map fun g => g.list.length).getD 0 + 1) s
  | none => s

/-- Cycle at which a queue of a core sends its next message; none while it waits for a credit. -/
def msgDue (s : State) (c : Nat) (store : Bool) : Option Nat :=
  match (coreAt s c).st.run, (coreAt s c).xfers.find? fun x => x.store == store && x.msgs.isSome with
  | some r, some x => x.msgs.bind fun g =>
    match g.list with
    | [] => some s.clk.cyc
    | m :: _ => if creditFree s g.dev r.lc then some (msgAt (coreAt s c) x g m) else none
  | _, _ => none

/-- Runs of a walk joined where one begins at the end of the one before. -/
def joinSpans : List (Nat × Nat) → List (Nat × Nat)
  | [] => []
  | r :: rest =>
    match joinSpans rest with
    | x :: more => if x.1 = r.1 + r.2 then (r.1, r.2 + x.2) :: more else r :: x :: more
    | [] => [r]

/-- The messages of a walk over a peer: its joined runs in messages of at most 256 bytes, none across a 256-byte boundary, in walk
order (R350): position, address, length. -/
def messagesOf (runs : List (Nat × Nat)) : List (Nat × Nat × Nat) :=
  (((joinSpans runs).flatMap fun r => accesses 256 r.1 r.2).foldl
    (fun (acc : Nat × List (Nat × Nat × Nat)) a => (acc.1 + a.2, acc.2 ++ [(acc.1, a.1, a.2)])) (0, [])).2

/-- Those messages, each not before its cycle. -/
def messagesAt (ats : List Nat) (runs : List (Nat × Nat)) : List MsgOut :=
  (messagesOf runs).mapIdx fun i m => { at_ := ats.getD i 0, pos := m.1, addr := m.2.1, len := m.2.2 }

end Sys2Proof.Machine
end

