-- ==== Sys2Proof/Machine/KeyedUnit.lean ====
section
/-!
DEFINITION. The Keyed Feature Store at work: keys, the directory, lookups and insertions (09, R218 to R230), the order of a
request's keys (R234), and stops (R501).
-/
namespace Sys2Proof.Machine

/-- A key (R218): column and row modulo 2^20, and the layer. -/
structure Key where
  x : Nat
  y : Nat
  layer : Nat
  deriving DecidableEq, Repr

/-- Packed form of a key. -/
def Key.pack (k : Key) : Nat := k.x + k.y * 2 ^ 20 + k.layer * 2 ^ 40

/-- Set of a key (R220). -/
def Key.set (k : Key) : Nat :=
  let m := k.layer * 0x11
  (Nat.xor (k.y % 256) m) * 256 + Nat.xor (k.x % 256) m

/-- Partial tag of a key (R220). -/
def Key.tag (k : Key) : Nat :=
  let hx := k.x / 256
  let hy := k.y / 256
  (Nat.xor (hx / 256) (hy / 256)) * 2 ^ 16 + hy % 256 * 256 + Nat.xor (hx % 256) k.layer

/-- The ways of a set: partial tag and state (R221). -/
def dirWays (s : State) (set : Nat) : List (Nat × Nat) := (assoc s.kfs.dir set).getD (List.replicate 16 (0, 0))

/-- A set's ways put into the directory's list, sets rising, sets without a VALID way unlisted. -/
def dirInsert (set : Nat) (ws : List (Nat × Nat)) : List (Nat × List (Nat × Nat)) → List (Nat × List (Nat × Nat))
  | [] => if ws.all fun w => w.2 == 0 then [] else [(set, ws)]
  | (k, v) :: rest =>
    let gone := ws.all fun w => w.2 == 0
    if set < k then (if gone then (k, v) :: rest else (set, ws) :: (k, v) :: rest)
    else if set = k then (if gone then rest else (set, ws) :: rest)
    else (k, v) :: dirInsert set ws rest

def dirPut (set : Nat) (ws : List (Nat × Nat)) (s : State) : State :=
  { s with kfs := { s.kfs with dir := dirInsert set ws s.kfs.dir } }

/-- A set is read: a corrected word fires KFS_DIR_CE, an uncorrectable one invalidates the set and fires KFS_DIR_UE
(R236). -/
def dirRead (agent : Option Nat) (set : Nat) (s : State) : State :=
  let ce := s.kfs.ce.contains set
  let ue := s.kfs.ue.contains set
  if ce || ue then
    let s1 := { s with kfs := { s.kfs with ce := s.kfs.ce.filter (· != set), ue := s.kfs.ue.filter (· != set) } }
    let s2 := if ue then dirPut set (List.replicate 16 (0, 0)) s1 else s1
    fireAll ((if ce then [({ b := bKFS, src := 0, who := agentWho s agent } : Fire)] else []) ++
      (if ue then [({ b := bKFS, src := 1, who := agentWho s agent } : Fire)] else [])) s2
  else s

/-- Address of the entry of way w of a set (R221). -/
def entryAddr (s : State) (set w : Nat) : Nat := kfsBase s + (set * 16 + w) * 256

/-- VALID way of a set that holds a tag. -/
def findWay (ws : List (Nat × Nat)) (tag : Nat) : Option Nat :=
  (List.range 16).find? fun i => (ws.getD i (0, 0)).2 != 0 && (ws.getD i (0, 0)).1 == tag

/-- Victim of an insertion: the lowest INVALID way, else the highest age class, ties to the lowest way (R226). -/
def victim (ws : List (Nat × Nat)) : Nat :=
  match (List.range 16).find? fun i => (ws.getD i (0, 0)).2 == 0 with
  | some i => i
  | none =>
    let top := maxN (ws.map Prod.snd)
    ((List.range 16).find? fun i => (ws.getD i (0, 0)).2 == top).getD 0

/-- What a lookup finds: the way, the age and the entry's address (R225). -/
structure Hit where
  set : Nat
  way : Nat
  age : Nat
  addr : Nat
  deriving DecidableEq, Repr

/-- Age of the entry at an address in the present tick (R222). -/
def entryAge (s : State) (a : Nat) : Nat :=
  (BitVec.ofNat 32 s.time.tick - BitVec.ofNat 32 (s.drc.mem.rdLe (a + 200) 4)).toNat

/-- A key is looked up under R225; the fires of its reads are applied. -/
def keyLookup (agent : Option Nat) (k : Key) (s : State) : State × Option Hit :=
  let s1 := dirRead agent k.set s
  match findWay (dirWays s1 k.set) k.tag with
  | none => (s1, none)
  | some w =>
    let a := entryAddr s1 k.set w
    let s2 := readRun .dram agent a 256 s1
    if s2.drc.mem.rdLe (a + 192) 8 % 2 ^ 44 ≠ k.pack then
      (fire { b := bKFS, src := 2, who := agentWho s2 agent } s2, none)
    else if (s2.drc.mem.rd (a + 198)).toNat ≠ s2.kfs.gen then (s2, none)
    else if layerAgeMax s2 k.layer ≠ 0 ∧ layerAgeMax s2 k.layer < entryAge s2 a then (s2, none)
    else (s2, some ⟨k.set, w, entryAge s2 a, a⟩)

/-- The bytes of an entry (Table 9.1). -/
def entryBytes (s : State) (k : Key) (payload : List Byte) : List Byte :=
  (payload ++ List.replicate (192 - payload.length) 0) ++ leBytes 8 (k.pack + s.kfs.gen * 2 ^ 48) ++
    leBytes 4 s.time.tick ++ List.replicate 52 0

/-- A key is written with its payload, whose marked bytes are poisoned (R226; 08, R212). -/
def keyWrite (agent : Option Nat) (k : Key) (payload : List Byte) (marks : List Bool) (s : State) : State :=
  let s1 := dirRead agent k.set s
  let ws := dirWays s1 k.set
  let w := (findWay ws k.tag).getD (victim ws)
  let thrash := (findWay ws k.tag).isNone && (ws.getD w (0, 0)).2 == 1
  let cells := (entryBytes s1 k payload).mapIdx fun i b => (entryAddr s1 k.set w + i, b)
  let s2 := writeCells (fun _ => .dram) agent cells marks s1
  let s3 := dirPut k.set (ws.set w (k.tag, 1)) s2
  if thrash then fire { b := bKFS, src := 3, who := agentWho s3 agent } s3 else s3

/-- A hit on a PRIOR layer resets the way's age class (R230). -/
def priorTouch (h : Hit) (s : State) : State :=
  let ws := dirWays s h.set
  dirPut h.set (ws.set h.way ((ws.getD h.way (0, 0)).1, 1)) s

/-! ### Requests -/

/-- The command a request belongs to still runs on its core. -/
def KReq.agent (s : State) (r : KReq) : Option Nat :=
  match (coreAt s r.core).st.run with
  | some k => if k.id = r.run then some r.core else none
  | none => none

/-- Key n of a request and whether it is skipped (R224). -/
def KReq.key (s : State) (r : KReq) (d : Keyed) (n : Nat) : Key × Bool :=
  let masked := d.scatter && d.mapEn && !(s.fst.mem.rd (d.map + n / 8)).getLsbD (n % 8)
  if d.grid then
    (⟨(fld r.origin 19 0 + n % d.gw) % 2 ^ 20, (fld r.origin 39 20 + n / d.gw) % 2 ^ 20, d.layer⟩, masked)
  else
    let e := s.fst.mem.rdLe (d.key + 8 * n) 8
    (⟨bitsAt e 0 20, bitsAt e 20 20, d.layer⟩, masked || e.testBit 63)

/-- The reads a key itself takes. -/
def keyReads (agent : Option Nat) (d : Keyed) (n : Nat) (s : State) : State :=
  let s1 := if d.grid then s else readRun .fst agent (d.key + 8 * n) 8 s
  if d.scatter && d.mapEn then readRun .fst agent (d.map + n / 8) 1 s1 else s1

/-- A bit of a map byte in the Frame Store. -/
def mapBit (agent : Option Nat) (a n : Nat) (v : Bool) (s : State) : State :=
  let old := if n % 8 = 0 then (0 : Byte) else s.fst.mem.rd (a + n / 8)
  writeRun .fst agent (a + n / 8) [putBit old (n % 8) v] s

/-- Key n of a gather (R225, R227, R230). -/
def gatherKey (r : KReq) (d : Keyed) (n : Nat) (s : State) : State :=
  let ag := r.agent s
  let (k, skip) := r.key s d n
  let s1 := keyReads ag d n s
  let (s2, hit) := if skip then (s1, none) else keyLookup ag k s1
  let cb := layerBlocks s2 d.layer
  let s3 := (List.range cb).foldl (fun s b =>
    let a := d.data + (b * d.n + n) * 64
    match hit with
    | some h => writeData .fst ag a (s.drc.mem.rdN (h.addr + 64 * b) 64) (poisoned s2 .dram (h.addr + 64 * b) 64) s
    | none => writeRun .fst ag a (List.replicate 64 d.fill) s) s2
  let s4 := if d.mapEn then mapBit ag d.map n hit.isSome s3 else s3
  let s5 := if d.ageEn then
      writeRun .fst ag (d.age + n) [match hit with | some h => BitVec.ofNat 8 (min h.age 254) | none => 255] s4 else s4
  match hit with
  | some h => if layerPrior s5 d.layer then priorTouch h s5 else s5
  | none => s5

/-- Key n of a scatter (R226). -/
def scatterKey (r : KReq) (d : Keyed) (n : Nat) (s : State) : State :=
  let ag := r.agent s
  let (k, skip) := r.key s d n
  let s1 := keyReads ag d n s
  if skip then s1
  else
    let at_ := fun (b : Nat) => d.data + (b * d.n + n) * 64
    let blocks := List.range (layerBlocks s1 d.layer)
    let s2 := blocks.foldl (fun s b => readRun .fst ag (at_ b) 64 s) s1
    keyWrite ag k (blocks.flatMap fun b => s2.fst.mem.rdN (at_ b) 64) (marksOf s1 .fst (blocks.map fun b => (at_ b, 64))) s2

/-- Key n of a request is looked up. -/
def keyStep (s : State) (r : KReq) (n : Nat) : State :=
  let d := keyedOf r.desc
  if d.scatter then scatterKey r d n s else gatherKey r d n s

/-- A scatter that has written nothing yet waits for the pending checks of its core (15, R371): its start moves by the wait. -/
def KReq.held (s : State) (r : KReq) : KReq :=
  if (keyedOf r.desc).scatter && r.done == 0 then
    let w := r.start + 16
    { r with start := r.start + (holdPast (coreAt s r.core).mx.checks w - w) }
  else r

/-- Keys of a request whose lookup cycle lies before `t` (R234). -/
def KReq.before (r : KReq) (t : Nat) : Nat := min (keyedOf r.desc).n (ceilDiv (t - (r.start + 16)) 2)

/-- The request being served has looked up the keys of the cycles before `t`; one whose keys are all done leaves its place
to the next. -/
def keyedAdvance (t : Nat) (s : State) : State :=
  match s.kfs.serving.map (KReq.held s) with
  | none => s
  | some r =>
    let upTo := r.before t
    let s1 := ((List.range (upTo - r.done)).map (r.done + ·)).foldl (fun s n => keyStep s r n) s
    let r1 := { r with done := max r.done upTo }
    let n := (keyedOf r.desc).n
    if r1.done = n then
      { s1 with kfs := { s1.kfs with serving := none, finishing := s1.kfs.finishing ++ [r1], freeAt := r.start + 16 + 2 * n } }
    else { s1 with kfs := { s1.kfs with serving := some r1 } }

/-- Cycle of the next lookup of the request being served (R234). -/
def keyedDue (s : State) : Option Nat :=
  match s.kfs.serving.map (KReq.held s) with
  | none => none
  | some r => if r.done < (keyedOf r.desc).n then some (r.start + 16 + 2 * r.done) else none

/-- Cycle at which a request completes (R234). -/
def KReq.doneAt (r : KReq) : Nat :=
  let d := keyedOf r.desc
  r.start + 2 * d.n + (if d.scatter then 96 else 416) + r.late

/-- Occupied places of the keyed queue (R234). -/
def Kfs.depth (k : Kfs) : Nat := k.queue.length + k.finishing.length + (if k.serving.isSome then 1 else 0)

/-- The output of a stopped gather becomes unspecified (R501): each byte a free value. -/
def forgetGather (r : KReq) (s : State) : State :=
  let d := keyedOf r.desc
  if d.scatter then s
  else
    let s1 := bumpFree s
    let free := fun (a n : Nat) (s : State) =>
      writeRun .fst none a ((List.range n).map fun i => Config.stoppedByte s1.freeSeq (a + i)) s
    let s2 := free d.data (layerBlocks s d.layer * d.n * 64) s1
    let s3 := if d.mapEn then free d.map (ceilDiv d.n 8) s2 else s2
    if d.ageEn then free d.age d.n s3 else s3

/-- Every keyed request of run `run` on core `c` is stopped at cycle `t` (R501). -/
def keyedStop (c run t : Nat) (s : State) : State :=
  let mine := fun (r : KReq) => r.core == c && r.run == run
  let s0 := keyedAdvance t s
  let s1 := { s0 with kfs := { s0.kfs with queue := s0.kfs.queue.filter fun r => !mine r } }
  let s2 := match s1.kfs.serving with
    | some r => if mine r then forgetGather r { s1 with kfs := { s1.kfs with serving := none, freeAt := t + 1 } } else s1
    | none => s1
  (s2.kfs.finishing.filter mine).foldl (fun s r => forgetGather r s)
    { s2 with kfs := { s2.kfs with finishing := s2.kfs.finishing.filter fun r => !mine r } }

/-- Whether a keyed request of the command is not yet finished. -/
def keyedBusy (s : State) (c run : Nat) : Bool :=
  (s.kfs.queue ++ s.kfs.serving.toList ++ s.kfs.finishing).any fun r => r.core == c && r.run == run

end Sys2Proof.Machine
end

