-- ==== Sys2Proof/Machine/Insertion.lean ====
section
/-!
DEFINITION. The insertion of a decoded PRIOR tile into the Keyed Feature Store, one cell in two cycles (10, R271).
-/
namespace Sys2Proof.Machine

/-- The tannery takes samples: a tick runs, D_SIU and D_FST are in service, the device is not in the safe state. -/
def intakeLive (s : State) : Bool := patActive s && inService s dSIU && inService s dFST && !s.glb.safe

/-- Fields of a packed-tile header (Table 10.12). -/
structure TileHdr where
  ty : Nat
  w : Nat
  h : Nat
  ch : Nat
  efmt : Nat
  clen : Nat
  aux : Nat
  crc : Nat

def tileHdrOf (b : List Byte) : TileHdr :=
  { ty := leAt b 3 1, w := leAt b 4 2, h := leAt b 6 2, ch := leAt b 8 2, efmt := leAt b 10 1, clen := leAt b 12 4,
    aux := leAt b 20 8, crc := leAt b 28 4 }

/-- Anchor key of a PRIOR tile. -/
def TileHdr.anchor (t : TileHdr) : Key := ⟨bitsAt t.aux 0 20, bitsAt t.aux 20 20, bitsAt t.aux 40 4⟩

/-- Cells of a tile in the order of insertion: row-major, the anchor last (R271). -/
def insertOrder (w h : Nat) : List (Nat × Nat) :=
  (((List.range (w * h)).drop 1).map fun i => (i / w, i % w)) ++ [(0, 0)]

/-- One cell is inserted (R271). -/
def insertCell (t : Tile) (s : State) (rc : Nat × Nat) : State :=
  let h := tileHdrOf t.header
  let a := h.anchor
  let key : Key := ⟨(a.x + rc.2) % 2 ^ 20, (a.y + rc.1) % 2 ^ 20, a.layer⟩
  let v := t.elems.toArray
  let payload := (List.range (64 * layerBlocks s a.layer)).map fun ch =>
    if ch < h.ch then BitVec.ofInt 8 (v.getD (ch * h.h * h.w + rc.1 * h.w + rc.2) 0) else 0
  keyWrite none key payload [] s

/-- The tannery may go on inserting the tile: the INTAKE stage of its tick has not closed (R271). -/
def inserting (s : State) (t : Tile) : Bool := intakeLive s && t.tick == s.time.tick && !intakeClosed s

/-- Cycle in which the next cell before the anchor is inserted; the anchor comes with PRIOR_INSERT_DONE. -/
def insertDue (s : State) : Option Nat :=
  match s.siu.tile with
  | none => none
  | some t =>
    match t.insertAt with
    | none => none
    | some at_ =>
      let h := tileHdrOf t.header
      if inserting s t && decide (t.inserted + 1 < h.w * h.h) then some (at_ + 2 * (t.inserted + 1)) else none

/-- The cell due in cycle c is inserted. -/
def insertNext (c : Nat) (s : State) : State :=
  match s.siu.tile, insertDue s with
  | some t, some d =>
    if c < d then s
    else
      let h := tileHdrOf t.header
      insertCell t { s with siu := { s.siu with tile := some { t with inserted := t.inserted + 1 } } }
        ((insertOrder h.w h.h).getD t.inserted (0, 0))
  | _, _ => s

end Sys2Proof.Machine
end

