-- ==== Sys2Proof/Machine/SamplerUnit.lean ====
section
/-!
DEFINITION. The Region Samplers at work: positions, interpolation, outputs and the order in which a unit writes them (05,
R127 to R135), pauses and stops (R137; 12, R320).
-/
namespace Sys2Proof.Machine

/-- Cycles one list entry takes, and those before its first position (R135). -/
def Req.entry (q : Req) : Nat := if q.point then 1 else q.oh * q.ow + 2
def Req.lead (q : Req) : Nat := if q.point then 0 else 2

/-- Positions of one entry. -/
def Req.per (q : Req) : Nat := if q.point then 1 else q.oh * q.ow

/-- Cycles a request occupies its unit (R135). -/
def Req.occupancy (q : Req) : Nat := 40 + q.cbCnt * q.count * q.entry

/-- Sample positions in all channel blocks. -/
def Req.total (q : Req) : Nat := q.cbCnt * q.n

/-- Positions written in cycles before `t` of a request that started at `st`. -/
def Req.before (q : Req) (st t : Nat) : Nat :=
  let u := t - (st + 40)
  min q.total (u / q.entry * q.per + (u % q.entry - q.lead))

/-- Cycle of position g of a request, counted from its start (R135). -/
def Req.cycleOf (q : Req) (g : Nat) : Nat := 40 + g / q.per * q.entry + q.lead + g % q.per

/-- The stage whose reservation of unit u is open, or opens within 64 cycles, at an offset of the tick (R137). -/
def resvAt (s : State) (u off : Nat) : Option (Nat × Stage) :=
  if patActive s then
    (stages s).find? fun x => x.2.compute && x.2.rsmp.testBit u && decide (x.2.openNs - cycNs s 64 ≤ off) && decide (off < x.2.closeNs)
  else none

/-- That stage now. -/
def reservation (s : State) (u : Nat) : Option (Nat × Stage) := resvAt s u (offNs s)

/-- A coordinate of Q15.8 (R127). -/
def q158 (x : Nat) : Int := signedOf 24 x

/-- List entry `e`: its raw bits. -/
def listEntry (s : State) (q : Req) (e : Nat) : Nat :=
  if q.point then s.fst.mem.rdLe (q.list + 8 * e) 8 else s.fst.mem.rdLe (q.list + 16 * e) 16

/-- SRC and SKIP of an entry. -/
def Req.entrySrc (q : Req) (e : Nat) : Nat := if q.point then bitsAt e 48 4 else bitsAt e 96 4
def Req.entrySkip (q : Req) (e : Nat) : Bool := if q.point then e.testBit 63 else e.testBit 127

/-- Position (sx, sy) of sample `i` of an entry, in 1/256 pixel (R128). -/
def Req.position (q : Req) (e i : Nat) : Int × Int :=
  let x0 := q158 (bitsAt e 0 24)
  let y0 := q158 (bitsAt e 24 24)
  if q.point then (x0, y0)
  else
    let x1 := q158 (bitsAt e 48 24)
    let y1 := q158 (bitsAt e 72 24)
    (x0 + rneDiv ((x1 - x0) * ((2 * (i % q.ow) + 1 : Nat) : Int)) (2 * q.ow),
     y0 + rneDiv ((y1 - y0) * ((2 * (i / q.ow) + 1 : Nat) : Int)) (2 * q.oh))

/-- Source that an entry samples, if it is neither skipped nor out of range. -/
def SReq.source (r : SReq) (q : Req) (e : Nat) : Option Src :=
  if q.entrySkip e || decide (q.srcCnt ≤ q.entrySrc e) then none
  else some (srcOf (r.srcs.getD (q.entrySrc e) 0))

/-- The inside test of R129. -/
def insideSrc (t : Src) (p : Int × Int) : Bool :=
  decide (0 ≤ p.1) && decide (p.1 ≤ ((t.w - 1) * 256 : Nat)) && decide (0 ≤ p.2) && decide (p.2 ≤ ((t.h - 1) * 256 : Nat))

/-- Whether sample `i` of an entry is inside. -/
def SReq.inside (r : SReq) (q : Req) (e i : Nat) : Bool :=
  match r.source q e with
  | some t => insideSrc t (q.position e i)
  | none => false

/-- The neighbours of an inside position with positive weight: pixel number and weight (R129). -/
def neighbours (t : Src) (p : Int × Int) : List (Nat × Nat) :=
  let ix := p.1.toNat / 256
  let fx := p.1.toNat % 256
  let iy := p.2.toNat / 256
  let fy := p.2.toNat % 256
  let ix1 := min (ix + 1) (t.w - 1)
  let iy1 := min (iy + 1) (t.h - 1)
  [(iy * t.w + ix, (256 - fx) * (256 - fy)), (iy * t.w + ix1, fx * (256 - fy)),
   (iy1 * t.w + ix, (256 - fx) * fy), (iy1 * t.w + ix1, fx * fy)].filter fun x => x.2 != 0

/-- A source element as the unit reads it. -/
def srcValue (fmt : Bool) (b : Byte) : Int := if fmt then (b.toNat : Int) else b.toInt

/-- The 64 interpolated bytes of one position in channel block `cb` of its source (R129). -/
def interpBytes (m : Mem) (t : Src) (cb : Nat) (p : Int × Int) : List Byte :=
  let px := (neighbours t p).map fun x => ((m.rdN (t.base + cb * t.h * t.w * 64 + x.1 * 64) 64), x.2)
  (List.range 64).map fun k =>
    let sum := px.foldl (fun (acc : Int) x => acc + srcValue t.fmt (x.1.getD k 0) * (x.2 : Int)) 0
    BitVec.ofInt 8 (rneShift sum 16)

/-- The unit's reads for one position, with their fires, and whether any of them is poisoned. -/
def sampleReads (agent : Option Nat) (t : Src) (cb : Nat) (p : Int × Int) (s : State) : State × Bool :=
  (neighbours t p).foldl (fun (acc : State × Bool) x =>
    let a := t.base + cb * t.h * t.w * 64 + x.1 * 64
    (readRun .fst agent a 64 acc.1, acc.2 || poisoned acc.1 .fst a 64)) (s, false)

/-- Byte `n / 8` of the validity map (R132). -/
def vmapByte (s : State) (r : SReq) (q : Req) (n : Nat) : Byte :=
  let per := q.per
  BitVec.ofNat 8 (sumN ((List.range 8).map fun i =>
    let m := n / 8 * 8 + i
    if m < q.n ∧ r.inside q (listEntry s q (m / per)) (m % per) then 2 ^ i else 0))

/-- The command a request belongs to still runs on its core. -/
def SReq.agent (s : State) (r : SReq) : Option Nat :=
  match (coreAt s r.core).st.run with
  | some k => if k.id = r.run then some r.core else none
  | none => none

/-- The 64 bytes of a position are written: into the Frame Store, or into the scratchpad of the request's core, where the other
units' writes of the cycle stand over them (07, R191). -/
def sampleWrite (r : SReq) (q : Req) (a : Nat) (bytes : List Byte) (bad : Bool) (s : State) : State :=
  if q.dest then
    modCore s r.core fun k =>
      { k with pend := k.pend ++ [{ at_ := s.clk.cyc, by_ := .sampler, cells := bytes.mapIdx fun i b => (a + i, b),
                                    marks := if bad then bytes.map fun _ => true else [] }] }
  else writeData .fst (r.agent s) a bytes bad s

/-- Position number `g` of a request is written: block, then entry, then sample (R130, R131, R135). An entry out of range fires
RSMPn_SRC_RANGE in the first channel block only (DESIGN CHOICE, entry 71). -/
def samplePosition (u : Nat) (sr : State × SReq) (g : Nat) : State × SReq :=
  let (s, r) := sr
  let q := reqOf r.req
  let k := g / q.n
  let n := g % q.n
  let e := listEntry s q (n / q.per)
  let i := n % q.per
  let ag := r.agent s
  let first := i = 0
  let s1 := if first then readRun .fst ag (q.list + (if q.point then 8 else 16) * (n / q.per)) (if q.point then 8 else 16) s else s
  let s2 := if first ∧ k = 0 ∧ !q.entrySkip e ∧ q.srcCnt ≤ q.entrySrc e
    then fire { b := bRSMP u, src := 0, det := BitVec.ofNat 32 (n / q.per), who := agentWho s1 ag } s1 else s1
  let bytes := match r.source q e with
    | some t => if insideSrc t (q.position e i) then interpBytes s2.fst.mem t (q.cbFirst + k) (q.position e i)
                else List.replicate 64 q.extrap
    | none => List.replicate 64 q.extrap
  let (s3, bad) := match r.source q e with
    | some t => if insideSrc t (q.position e i) then sampleReads ag t (q.cbFirst + k) (q.position e i) s2 else (s2, false)
    | none => (s2, false)
  let s4 := sampleWrite r q (q.out + (k * q.n + n) * 64) bytes bad s3
  let s5 := if q.vmapEn ∧ k = 0 ∧ (n % 8 = 7 ∨ n + 1 = q.n)
    then writeRun .fst ag (q.vmap + n / 8) [vmapByte s r q n] s4 else s4
  (s5, { r with done := g + 1, outside := if k = 0 ∧ !r.inside q e i then satAdd 0xFFFFFFFF r.outside 1 else r.outside })

/-- Positions `r.done` to `upTo − 1` are written. -/
def samplePositions (u upTo : Nat) (s : State) (r : SReq) : State × SReq :=
  ((List.range (upTo - r.done)).map (r.done + ·)).foldl (samplePosition u) (s, r)

/-- The request unit u serves has written the positions of the cycles before `t`. -/
def samplerAdvance (u t : Nat) (s : State) : State :=
  match (rsmpAt s u).serving with
  | none => s
  | some r =>
    let (s1, r1) := samplePositions u ((reqOf r.req).before r.start t) s r
    modRsmp s1 u fun k => { k with serving := some r1 }

/-- Cycle of the next position of the request unit u serves; none while a reservation of the unit is about to pause it (R137). -/
def samplerDue (s : State) (u : Nat) : Option Nat :=
  match (rsmpAt s u).serving with
  | none => none
  | some r =>
    let q := reqOf r.req
    let c := r.start + q.cycleOf r.done
    if q.total ≤ r.done ∨ (!r.lc && (resvAt s u (offNs s + nsUntilCyc s c)).isSome) then none else some c

/-- Occupied places of a unit (R134). -/
def Rsmp.depth (k : Rsmp) : Nat := k.queue.length + (if k.serving.isSome then 1 else 0) + (if k.paused.isSome then 1 else 0)

/-- Every request of run `run` on core `c` is stopped at cycle `t`: positions of earlier cycles stay (R320). -/
def samplerStop (c run t : Nat) (s : State) : State :=
  (List.range 4).foldl (fun s u =>
    let mine := fun (r : SReq) => r.core == c && r.run == run
    let s1 := match (rsmpAt s u).serving with
      | some r => if mine r then
          modRsmp (samplerAdvance u t s) u fun k => { k with serving := none, freeAt := t + 1 } else s
      | none => s
    modRsmp s1 u fun k =>
      { k with queue := k.queue.filter fun r => !mine r,
               paused := match k.paused with | some r => if mine r then none else some r | none => none }) s

/-- Whether a request of the command is not yet finished. -/
def samplerBusy (s : State) (c run : Nat) : Bool :=
  s.rsmp.any fun k => (k.queue ++ k.serving.toList ++ k.paused.toList).any fun r => r.core == c && r.run == run

end Sys2Proof.Machine
end

