-- ==== Sys2Proof/Machine/Engines.lean ====
section
/-!
DEFINITION. The passing of time with all that falls into it, in the order of the cycles: sample positions (05, R135), lookups of the
Keyed Feature Store (09, R234), cells of a PRIOR tile (10, R271), the writes of the Load Engine and the Vector Unit (07, R171, R191; 08, R500), chains that span too
much (03, R80), messages to peers (14, R350 to R352), the slots of the Harness ports (R345), and the emptying of the trace buffer (19,
R453).
-/
namespace Sys2Proof.Machine

/-- Rank of a unit among those that write one byte of a core's scratchpad in one cycle: the last one's value remains (07, R191). -/
def Writer.rank (w : Writer) : Nat :=
  match w with
  | .sampler => 0 | .load => 1 | .vector => 2

/-- A write put behind those that it follows: of earlier cycles, and in its cycle of units that it outranks or equals. -/
def pendInsert (w : PendWr) : List PendWr → List PendWr
  | [] => [w]
  | x :: xs => if w.at_ < x.at_ ∨ (w.at_ = x.at_ ∧ w.by_.rank < x.by_.rank) then w :: x :: xs else x :: pendInsert w xs

/-- The writes of a core's memory that are due up to cycle t, in the order they take effect. -/
def Core.dueWr (k : Core) (t : Nat) : List PendWr :=
  (k.pend.filter fun w => decide (w.at_ ≤ t)).foldl (fun l w => pendInsert w l) []

/-- The writes of core c due up to cycle t are made. -/
def landDue (t : Nat) (s : State) (c : Nat) : State :=
  (coreAt s c).dueWr t |>.foldl (landWr c) (modCore s c fun k => { k with pend := k.pend.filter fun w => decide (t < w.at_) })

/-- CCn_CHAIN_SPAN of core c for the chains whose last step has issued up to cycle t (03, R80). -/
def spansDue (t : Nat) (s : State) (c : Nat) : State :=
  ((coreAt s c).mx.spans.filter fun x => decide (x ≤ t)).foldl (fun s _ => fire { b := bCC c, src := 12, who := whoOn s c } s)
    (modCore s c fun k => { k with mx := { k.mx with spans := k.mx.spans.filter fun x => decide (t < x) } })

/-- Cycles at which messages of transfers to peers are due. -/
def msgsDue (s : State) : List Nat :=
  (List.range 16).flatMap fun c => (msgDue s c false).toList ++ (msgDue s c true).toList

/-- Every queue of every core sends the messages that are due. -/
def pumpAll (s : State) : State := (List.range 16).foldl (fun s c => pumpXfers c true (pumpXfers c false s)) s

/-- Cycles in which something is due. -/
def dueCycles (s : State) : List Nat :=
  msgsDue s ++
  (List.range 4).filterMap (samplerDue s) ++ (keyedDue s).toList ++ (insertDue s).toList ++ s.cores.flatMap fun k => k.pend.map PendWr.at_ ++ k.mx.spans

/-- The earliest of them. -/
def nextDue (s : State) : Option Nat :=
  match dueCycles s with
  | [] => none
  | c :: cs => some (cs.foldl min c)

/-- What is due in cycle c happens. -/
def happen (c : Nat) (s0 : State) : State :=
  let s := portsRun s0
  let s1 := (List.range 4).foldl (fun s u => samplerAdvance u (c + 1) s) s
  let s2 := insertNext c (keyedAdvance (c + 1) s1)
  let s3 := (List.range 16).foldl (landDue c) s2
  pumpAll ((List.range 16).foldl (spansDue c) s3)

/-- All that is due before cycle `lim` happens, cycle by cycle. -/
def engines (lim : Nat) : Nat → State → State
  | 0, s => s
  | fuel + 1, s =>
    match nextDue s with
    | none => s
    | some d =>
      let c := max d s.clk.cyc
      if c < lim then engines lim fuel (happen c (clockToCyc s c)) else s

/-- What happens before cycle `lim`; the trace buffer empties meanwhile. -/
def runUnits (lim : Nat) (s : State) : State := engines lim (lim - s.clk.cyc) (drainTrace s)

/-- `n` GTC counts pass. -/
def passNs (s : State) (n : Nat) : State :=
  if n = 0 then s
  else
    let s1 := runUnits (s.clk.pass (perfF s) n).cyc s
    portsRun (clockNs s1 (s.clk.ns + n - s1.clk.ns))

/-- Time passes to the edge at which device cycle `c` begins, not at all when it has begun. -/
def passToCyc (s : State) (c : Nat) : State := if c ≤ s.clk.cyc then s else portsRun (clockToCyc (runUnits c s) c)

/-- Time passes until the GTC has reached `g`. -/
def passToGtc (s : State) (g : Gtc) : State := passNs s (nsUntil s g)

/-- Time passes until an offset of the present tick. -/
def passToOff (s : State) (o : Nat) : State := passToGtc s (tickGtc s s.time.tick + BitVec.ofNat 64 o)

end Sys2Proof.Machine
end

