-- ==== Sys2Proof/Machine/Flash.lean ====
section
/-!
DEFINITION. The flash (19, R440, R445): its bytes, erasing and programming; and the lifetime record as it is written there (19, R451,
R452).
-/
namespace Sys2Proof.Machine

/-- Flash address of a firmware slot: 0 A, 1 B (Table 19.4). -/
def slotBase (slot : Nat) : Nat := 0x100000 + 0x400000 * slot

/-- BODY_LEN of the image the part is delivered with: some length that Table 19.5 allows (entry 8). -/
def deliveredLen : Nat := 1 + Config.deliveredLen % 786432

/-- The body of that image. -/
def deliveredBody : List Byte := (List.range deliveredLen).map fun i => Config.freeByte 0 (slotBase 0 + 256 + i)

/-- The first 128 bytes of that image, as Table 19.5 lays them out for SVN 0. -/
def deliveredHead : List Byte :=
  [0x54, 0x48, 0x46, 0x57] ++ leBytes 2 1 ++ [0, 0] ++ leBytes 4 deliveredLen ++ leBytes 4 Config.deliveredVer.toNat ++
    sha256 deliveredBody ++ List.replicate 80 0

/-- A byte of slot A as delivered; its key, signature and body are free values (entry 8). -/
def deliveredByte (o : Nat) : Byte := if o < 128 then deliveredHead.getD o 0 else Config.freeByte 0 (slotBase 0 + o)

/-- A flash byte. -/
def flashByte (m : Mgt) (a : Nat) : Byte :=
  if slotBase 0 ≤ a ∧ a < slotBase 1 ∧ m.delivered.getLsbD ((a - slotBase 0) / 0x10000) then deliveredByte (a - slotBase 0)
  else m.flash.rd a

/-- Bytes of the flash. -/
def flashBytes (m : Mgt) (a n : Nat) : List Byte := (List.range n).map fun i => flashByte m (a + i)

/-- A memory whose bytes from `a` on have been erased to 0xFF. -/
def Mem.erased (m : Mem) (a n : Nat) : Mem :=
  if m.fill = .byte 0xFF then { m with cells := m.cells.filter fun c => decide (c.1 < a) || decide (a + n ≤ c.1) }
  else m.wrN a (List.replicate n 0xFF)

/-- Sectors of slot A that a change of the flash touches no longer hold the delivered image. -/
def Mgt.touched (m : Mgt) (a : Nat) : Mgt :=
  if slotBase 0 ≤ a ∧ a < slotBase 1 then { m with delivered := putBit m.delivered ((a - slotBase 0) / 0x10000) false } else m

/-- The 64 KiB sector at `a` is erased. -/
def Mgt.eraseSector (m : Mgt) (a : Nat) : Mgt := ({ m with flash := m.flash.erased a 0x10000 } : Mgt).touched a

/-- Bytes programmed into the flash within a sector. -/
def Mgt.program (m : Mgt) (a : Nat) (bs : List Byte) : Mgt := ({ m with flash := m.flash.wrN a bs } : Mgt).touched a

/-! ### The lifetime record -/

/-- Bytes 16 to 10,239 of the lifetime record. -/
def lifeBody (s : State) : List Byte := leBytes 8 s.mgt.otp.dieId.toNat ++ s.mgt.life.rdN 24 10216

/-- A lifetime record with its header (Table 19.8). -/
def lifeBytes (s : State) (seq : Nat) : List Byte :=
  let body := lifeBody s
  [0x4C, 0x46, 0x54, 0x52] ++ leBytes 2 1 ++ leBytes 2 0 ++ leBytes 4 seq ++ leBytes 4 (crc32c body).toNat ++ body

/-- Flash address of a lifetime copy. -/
def lifeCopy (i : Nat) : Nat := 0x900000 + 0x10000 * (i % 8)

/-- The whole record is written to the next flash copy, with SEQ one greater (R451); a flash that fails raises
MGT_FLASH_ERR (R450). -/
def lifeWrite (s : State) : State :=
  if s.rst.minimal then s
  else if s.mgt.flashBad then fire { b := bMGT, src := 8 } s
  else
    let seq := s.mgt.lifeSeq + 1
    let a := lifeCopy seq
    let m := (s.mgt.eraseSector a).program a (lifeBytes s seq)
    { s with mgt := { m with lifeSeq := seq, lifeFlash := s.mgt.life } }

end Sys2Proof.Machine
end

