-- ==== Sys2Proof/Machine/Float.lean ====
section
/-!
DEFINITION. binary32 and BF16 arithmetic (02, R51 to R57), table interpolation (R58), the exponential path (R59, R60) and
requantisation (R44 to R48).
-/
namespace Sys2Proof.Machine

/-- A binary32 operand as the Vector Unit reads it: `num` is ± m · 2^e with m positive (02, R52, R53). -/
inductive F32 where
  | nan
  | inf (neg : Bool)
  | zero (neg : Bool)
  | num (neg : Bool) (m : Nat) (e : Int)
  deriving DecidableEq, Repr

/-- The canonical quiet NaN (R53). -/
def qNaN : Word := 0x7FC00000

def signBit (neg : Bool) : Nat := if neg then 2 ^ 31 else 0

def f32Zero (neg : Bool) : Word := BitVec.ofNat 32 (signBit neg)

def f32Inf (neg : Bool) : Word := BitVec.ofNat 32 (signBit neg + 0x7F800000)

/-- The value of an operand; a subnormal is zero of its sign. -/
def f32Read (x : Word) : F32 :=
  let neg := bitAt x 31
  let ex := fld x 30 23
  let fr := fld x 22 0
  if ex = 255 then (if fr = 0 then .inf neg else .nan)
  else if ex = 0 then .zero neg
  else .num neg (fr + 2 ^ 23) ((ex : Int) - 150)

/-- Nearest binary32 to ± m · 2^e, ties to even, m positive; below 2^−126 zero, beyond the range infinity (R51 to R53). -/
def f32Round (neg : Bool) (m : Nat) (e : Int) : Word :=
  let len := Nat.log2 m + 1
  let r := if len ≤ 24 then m * 2 ^ (24 - len) else (rneShift m (len - 24)).toNat
  let e1 := e + (len : Int) - 24
  let (r2, e2) := if r = 2 ^ 24 then (2 ^ 23, e1 + 1) else (r, e1)
  let top := e2 + 23
  if top < -126 then f32Zero neg
  else if top > 127 then f32Inf neg
  else BitVec.ofNat 32 (signBit neg + (top + 127).toNat * 2 ^ 23 + (r2 - 2 ^ 23))

/-- Nearest binary32 to v · 2^e for an exact integer v; zero is +0 (R53). -/
def f32OfInt (v : Int) (e : Int) : Word := if v = 0 then 0 else f32Round (v < 0) v.natAbs e

/-- Signed significand. -/
def signed (neg : Bool) (m : Nat) : Int := if neg then -(m : Int) else m

/-- Exact sum of two finite values, rounded once. -/
def f32Sum (n1 : Bool) (m1 : Nat) (e1 : Int) (n2 : Bool) (m2 : Nat) (e2 : Int) : Word :=
  let e := min e1 e2
  f32OfInt (signed n1 m1 * 2 ^ (e1 - e).toNat + signed n2 m2 * 2 ^ (e2 - e).toNat) e

/-- Sum of two operands, each exact (a product of a fused multiply-add is one). -/
def f32AddF (a b : F32) : Word :=
  match a, b with
  | .nan, _ => qNaN
  | _, .nan => qNaN
  | .inf x, .inf y => if x = y then f32Inf x else qNaN
  | .inf x, _ => f32Inf x
  | _, .inf y => f32Inf y
  | .zero x, .zero y => f32Zero (x && y)
  | .zero _, .num y m e => f32Round y m e
  | .num x m e, .zero _ => f32Round x m e
  | .num x m e, .num y m2 e2 => f32Sum x m e y m2 e2

/-- Exact product. -/
def f32MulF (a b : F32) : F32 :=
  match a, b with
  | .nan, _ => .nan
  | _, .nan => .nan
  | .inf _, .zero _ => .nan
  | .zero _, .inf _ => .nan
  | .inf x, .inf y => .inf (x != y)
  | .inf x, .num y _ _ => .inf (x != y)
  | .num x _ _, .inf y => .inf (x != y)
  | .zero x, .zero y => .zero (x != y)
  | .zero x, .num y _ _ => .zero (x != y)
  | .num x _ _, .zero y => .zero (x != y)
  | .num x m e, .num y m2 e2 => .num (x != y) (m * m2) (e + e2)

/-- A value rounded to binary32. -/
def f32Pack (a : F32) : Word :=
  match a with
  | .nan => qNaN
  | .inf x => f32Inf x
  | .zero x => f32Zero x
  | .num x m e => f32Round x m e

def F32.negate (a : F32) : F32 :=
  match a with
  | .nan => .nan
  | .inf x => .inf !x
  | .zero x => .zero !x
  | .num x m e => .num (!x) m e

def f32Add (a b : Word) : Word := f32AddF (f32Read a) (f32Read b)
def f32Sub (a b : Word) : Word := f32AddF (f32Read a) (f32Read b).negate
def f32Mul (a b : Word) : Word := f32Pack (f32MulF (f32Read a) (f32Read b))
def f32Fma (a b c : Word) : Word := f32AddF (f32MulF (f32Read a) (f32Read b)) (f32Read c)

/-- Order of two operands that are not NaN, −0 below +0. -/
def f32Key (x : Word) : Int :=
  match f32Read x with
  | .nan => 0
  | .zero neg => if neg then -1 else 0
  | _ => if bitAt x 31 then -(fld x 30 0 : Int) - 1 else (fld x 30 0 : Int)

/-- Operand with a subnormal taken as zero. -/
def f32Flush (x : Word) : Word := match f32Read x with | .zero neg => f32Zero neg | _ => x

def isNaN (x : Word) : Bool := match f32Read x with | .nan => true | _ => false

/-- minimum and maximum of IEEE 754-2019 (R54). -/
def f32Min (a b : Word) : Word :=
  if isNaN a || isNaN b then qNaN else if f32Key a ≤ f32Key b then f32Flush a else f32Flush b
def f32Max (a b : Word) : Word :=
  if isNaN a || isNaN b then qNaN else if f32Key a ≤ f32Key b then f32Flush b else f32Flush a

/-- Order of two operands that are not NaN, +0 equal to −0. -/
def f32Ord (x : Word) : Int := match f32Read x with | .zero _ => 0 | _ => f32Key x

/-- Comparisons (07, Table 7.2): 1 or 0, 0 with a NaN. -/
def f32Lt (a b : Word) : Word := if isNaN a || isNaN b then 0 else if f32Ord a < f32Ord b then 1 else 0
def f32Eq (a b : Word) : Word := if isNaN a || isNaN b then 0 else if f32Ord a = f32Ord b then 1 else 0

/-- INT32 to binary32 (Table 2.5). -/
def itofW (x : Word) : Word := f32OfInt x.toInt 0

/-- INT32 bounds. -/
def i32Min : Int := -2147483648
def i32Max : Int := 2147483647

/-- An integer saturated to INT32. -/
def sat32 (v : Int) : Word := BitVec.ofInt 32 (clampI v i32Min i32Max)

/-- binary32 to INT32 (Table 2.5). -/
def ftoiW (x : Word) : Word :=
  match f32Read x with
  | .nan => 0
  | .inf neg => sat32 (if neg then i32Min else i32Max)
  | .zero _ => 0
  | .num neg m e => sat32 (if 0 ≤ e then signed neg m * 2 ^ e.toNat else rneShift (signed neg m) (-e).toNat)

/-- BF16 to binary32 (Table 2.5). -/
def bf16Read (x : Nat) : Word :=
  let w : Word := BitVec.ofNat 32 (x * 2 ^ 16)
  match f32Read w with
  | .nan => qNaN
  | .zero neg => f32Zero neg
  | _ => w

/-- binary32 to BF16 (R57). -/
def bf16Of (x : Word) : Nat :=
  match f32Read x with
  | .nan => 0x7FC0
  | .zero neg => if neg then 0x8000 else 0
  | _ => ((x.toNat + 0x7FFF + x.toNat / 2 ^ 16 % 2) % 2 ^ 32) / 2 ^ 16

/-- One level of the pairwise tree of R55. -/
def pairSums : List Word → List Word
  | a :: b :: rest => f32Add a b :: pairSums rest
  | rest => rest

/-- binary32 sum of 64 lanes by the tree of R55. -/
def f32Tree (ls : List Word) : Word :=
  (pairSums (pairSums (pairSums (pairSums (pairSums (pairSums ls)))))).headD 0

/-! ### Tables and the exponential -/

/-- Entry i of an interpolation table. -/
def tabEntry (t : List (BitVec 16)) (i : Nat) : Int := (t.getD i 0).toInt

/-- Table interpolation (R58). -/
def interpolate (x0 : Word) (sh : Nat) (t : List (BitVec 16)) (x : Word) : Word :=
  let d := x.toInt - x0.toInt
  let pos := if d < 0 then 0 else min (d.toNat >>> sh) 65280
  let i := pos / 256
  let f := pos % 256
  BitVec.ofInt 32 (if i = 255 then tabEntry t 255 else rneShift (tabEntry t i * (256 - (f : Int)) + tabEntry t (i + 1) * f) 8)

/-- Greatest n below 2^k whose predecessor's half step lies below 65,536 · 2^(−i/256). -/
def expSearch (i : Nat) : Nat → Nat → Nat
  | 0, n => n
  | k + 1, n =>
    let m := n + 2 ^ k
    expSearch i k (if (2 * m - 1) ^ 256 < 2 ^ (17 * 256 - i) then m else n)

/-- Entry i of the exponential table: the integer nearest to 65,536 × 2^(−i/256) (R59). -/
def expEntry (i : Nat) : Nat := expSearch i 17 0

/-- The fixed-point base-2 exponential (R60). -/
def exp2W (z : Word) : Word :=
  let w := (-(min z.toInt 0)).toNat
  let n := w / 65536
  let fr := w % 65536
  let i := fr / 256
  let f := fr % 256
  let m := rneShift ((expEntry i * (256 - f) + expEntry (i + 1) * f : Nat) : Int) 8
  BitVec.ofInt 32 (if n ≥ 17 then 0 else rneShift m n)

/-! ### Requantisation -/

/-- wrap40 (R42). -/
def wrap40 (v : Int) : BitVec 40 := BitVec.ofInt 40 v

/-- Range of an output type: INT8, UINT8, INT12, INT16, INT32 (07, Table 7.6). -/
def typeRange (ot : Nat) : Int × Int :=
  match ot with
  | 0 => (-128, 127)
  | 1 => (0, 255)
  | 2 => (-2048, 2047)
  | 3 => (-32768, 32767)
  | _ => (i32Min, i32Max)

/-- Parameters of Table 2.4 for one element. -/
structure Requant where
  bias : Int
  m : Int
  sh : Nat
  zp : Int
  deriving DecidableEq, Repr

/-- The output element of R47 between the effective bounds. -/
def requant (p : Requant) (lo2 hi2 : Int) (acc : BitVec 40) : Int :=
  let t := (wrap40 (acc.toInt + p.bias)).toInt
  clampI (rneShift (t * p.m) p.sh + p.zp) lo2 hi2

end Sys2Proof.Machine
end

