-- ==== Sys2Proof/Machine/Operands.lean ====
section
/-!
DEFINITION. Every operand form of the bundle slots: the words of the instructions (07, Tables 7.1 to 7.12), their fields,
the records they name in the parameter area, and the cases that make an instruction illegal at dispatch (R166).
-/
namespace Sys2Proof.Machine

/-! ### The words of the slots -/

def u48 (n : Nat) : BitVec 48 := BitVec.ofNat 48 n

/-- Format R (R170). -/
def wordR (op : Nat) (vd va vb vc : BitVec 5) : BitVec 48 :=
  u48 (op * 2 ^ 41 + vd.toNat * 2 ^ 36 + va.toNat * 2 ^ 31 + vb.toNat * 2 ^ 26 + vc.toNat * 2 ^ 21)

/-- Format I (R170). -/
def wordI (op : Nat) (vd va : BitVec 5) (imm : BitVec 16) : BitVec 48 :=
  u48 (op * 2 ^ 41 + vd.toNat * 2 ^ 36 + va.toNat * 2 ^ 31 + imm.toNat * 2 ^ 15)

def wordVtld (k : BitVec 3) (poff : BitVec 13) : BitVec 48 := u48 (0x32 * 2 ^ 41 + k.toNat * 2 ^ 38 + poff.toNat * 2 ^ 25)

/-- VLD and VST (R172). -/
def wordVmem (op : Nat) (f : VmemF) : BitVec 48 :=
  u48 (op * 2 ^ 41 + f.reg.toNat * 2 ^ 36 + f.fmt.toNat * 2 ^ 33 + f.addr.toNat * 2 ^ 18 + f.cnt.toNat * 2 ^ 15 + b2n f.cen * 2 ^ 14)

/-- VPOOL (R173). -/
def wordVpool (vd : BitVec 5) (geom : BitVec 3) (base : BitVec 15) (pcnt bcnt : BitVec 3) : BitVec 48 :=
  u48 (0x3A * 2 ^ 41 + vd.toNat * 2 ^ 36 + geom.toNat * 2 ^ 33 + base.toNat * 2 ^ 18 + pcnt.toNat * 2 ^ 15 + bcnt.toNat * 2 ^ 12)

/-- RQ (Table 7.5). -/
def wordRq (f : RqF) : BitVec 48 :=
  u48 (0x3C * 2 ^ 41 + f.vd.toNat * 2 ^ 36 + f.array.toNat * 2 ^ 34 + f.src.toNat * 2 ^ 32 + f.rg.toNat * 2 ^ 26 +
    b2n f.narrow * 2 ^ 25 + f.pset.toNat * 2 ^ 21 + f.cnt.toNat * 2 ^ 18 + b2n f.cen * 2 ^ 17)

/-- VMOVACC (R177). -/
def wordMovAcc (f : MovAccF) : BitVec 48 :=
  u48 (0x3D * 2 ^ 41 + f.array.toNat * 2 ^ 39 + f.src.toNat * 2 ^ 37 + f.rg.toNat * 2 ^ 31 + b2n f.narrow * 2 ^ 30 +
    f.addr.toNat * 2 ^ 15)

/-- MMA (Table 7.7). -/
def wordMma (f : MmaF) : BitVec 48 :=
  u48 (2 ^ 43 + f.amask.toNat * 2 ^ 39 + b2n f.bank * 2 ^ 38 + f.init.toNat * 2 ^ 36 + b2n f.last * 2 ^ 35 + b2n f.rel * 2 ^ 34 +
    f.aob.toNat * 2 ^ 32 + f.nM1.toNat * 2 ^ 26 + f.afmt.toNat * 2 ^ 24 + f.wfmt.toNat * 2 ^ 22 + f.mode.toNat * 2 ^ 20 +
    f.waddr.toNat * 2 ^ 7 + f.xi.toNat * 2 ^ 3 + b2n f.otb * 2 ^ 2)

/-- LD and ST (Table 7.10); both have opcode 1 in their own slot. -/
def wordLd (f : LdF) : BitVec 48 :=
  u48 (2 ^ 42 + f.sdesc.toNat * 2 ^ 29 + f.ddesc.toNat * 2 ^ 16 + f.token.toNat * 2 ^ 12 + f.scnt.toNat * 2 ^ 9 +
    b2n f.scen * 2 ^ 8 + f.dcnt.toNat * 2 ^ 5 + b2n f.dcen * 2 ^ 4)

def wordCgather (grec : BitVec 13) (geom : BitVec 3) (aob : BitVec 2) (pcnt : BitVec 3) (token : BitVec 4) : BitVec 48 :=
  u48 (2 * 2 ^ 42 + grec.toNat * 2 ^ 29 + geom.toNat * 2 ^ 26 + aob.toNat * 2 ^ 24 + pcnt.toNat * 2 ^ 21 + token.toNat * 2 ^ 17)

def wordWxload (grec : BitVec 13) (geom : BitVec 3) (pcnt : BitVec 3) (token : BitVec 4) : BitVec 48 :=
  u48 (3 * 2 ^ 42 + grec.toNat * 2 ^ 29 + geom.toNat * 2 ^ 26 + pcnt.toNat * 2 ^ 21 + token.toNat * 2 ^ 17)

def wordLdacc (addr : BitVec 15) (amask : BitVec 4) (bank tgt otb : Bool) (token : BitVec 4) : BitVec 48 :=
  u48 (4 * 2 ^ 42 + addr.toNat * 2 ^ 27 + amask.toNat * 2 ^ 23 + b2n bank * 2 ^ 22 + b2n tgt * 2 ^ 21 + b2n otb * 2 ^ 20 +
    token.toNat * 2 ^ 16)

def wordSample (req : BitVec 3) (token : BitVec 4) : BitVec 48 := u48 (5 * 2 ^ 42 + req.toNat * 2 ^ 39 + token.toNat * 2 ^ 35)

/-- KGATHER has opcode 6 of the load slot, KSCATTER opcode 2 of the store slot. -/
def wordKeyed (op : Nat) (kdesc : BitVec 13) (token : BitVec 4) : BitVec 48 :=
  u48 (op * 2 ^ 42 + kdesc.toNat * 2 ^ 29 + token.toNat * 2 ^ 25)

/-- The 24-bit words of the sync slot (Table 7.12), held in 48 bits. -/
def wordWait (token : BitVec 4) (n : BitVec 8) (gate : BitVec 4) : BitVec 48 :=
  u48 (2 ^ 20 + token.toNat * 2 ^ 16 + n.toNat * 2 ^ 8 + gate.toNat * 2 ^ 4)
def wordSignal (token after : BitVec 4) : BitVec 48 := u48 (2 * 2 ^ 20 + token.toNat * 2 ^ 16 + after.toNat * 2 ^ 12)
def wordBarrier (mask : BitVec 4) : BitVec 48 := u48 (3 * 2 ^ 20 + mask.toNat * 2 ^ 16)
def wordSem (op : Nat) (sem n : BitVec 8) (mask : BitVec 4) : BitVec 48 :=
  u48 (op * 2 ^ 20 + sem.toNat * 2 ^ 12 + n.toNat * 2 ^ 4 + mask.toNat)
def wordArrive (ctr : BitVec 8) (after : BitVec 4) : BitVec 48 := u48 (6 * 2 ^ 20 + ctr.toNat * 2 ^ 12 + after.toNat * 2 ^ 8)
def wordAwait (ctr : BitVec 8) (n : BitVec 5) (gate : BitVec 4) : BitVec 48 :=
  u48 (7 * 2 ^ 20 + ctr.toNat * 2 ^ 12 + n.toNat * 2 ^ 7 + gate.toNat * 2 ^ 3)

/-- The words of the scalar slot (Table 7.1). -/
def wordCset (k : BitVec 3) (imm : BitVec 23) : BitVec 32 := BitVec.ofNat 32 (2 ^ 26 + k.toNat * 2 ^ 23 + imm.toNat)
def wordLoop (k : BitVec 3) (target : BitVec 13) : BitVec 32 := BitVec.ofNat 32 (2 * 2 ^ 26 + k.toNat * 2 ^ 23 + target.toNat)
def wordCmpi (k : BitVec 3) (pf : BitVec 2) (cond : BitVec 3) (imm : BitVec 18) : BitVec 32 :=
  BitVec.ofNat 32 (3 * 2 ^ 26 + k.toNat * 2 ^ 23 + pf.toNat * 2 ^ 21 + cond.toNat * 2 ^ 18 + imm.toNat)
def wordCmpc (ka : BitVec 3) (pf : BitVec 2) (cond kb : BitVec 3) : BitVec 32 :=
  BitVec.ofNat 32 (4 * 2 ^ 26 + ka.toNat * 2 ^ 23 + pf.toNat * 2 ^ 21 + cond.toNat * 2 ^ 18 + kb.toNat * 2 ^ 15)
def wordBr (when_ pf : BitVec 2) (target : BitVec 13) : BitVec 32 :=
  BitVec.ofNat 32 (5 * 2 ^ 26 + when_.toNat * 2 ^ 24 + pf.toNat * 2 ^ 22 + target.toNat)

/-! ### The slots of a bundle -/

/-- A slot of a bundle (Table 6.1), numbered as SLOT of CCn_SKIP_INFO numbers them. -/
structure SlotAt where
  num : Nat
  present : Bool
  word : BitVec 48
  deriving DecidableEq, Repr

/-- The six slots of a bundle: scalar, vector, matrix, load, store, sync. -/
def slotsOf (u : BitVec 256) : List SlotAt :=
  [⟨0, bitAt u 253, u48 (fld u 247 216)⟩, ⟨1, bitAt u 252, u48 (fld u 215 168)⟩, ⟨2, bitAt u 251, u48 (fld u 167 120)⟩,
   ⟨3, bitAt u 250, u48 (fld u 119 72)⟩, ⟨4, bitAt u 249, u48 (fld u 71 24)⟩, ⟨5, bitAt u 248, u48 (fld u 23 0)⟩]

/-- The queue of a slot. -/
def QId.ofSlot (num : Nat) : QId :=
  match num with
  | 1 => .vector | 2 => .matrix | 3 => .load | 4 => .store | _ => .sync

/-- SLOT number of a queue (Table 6.8). -/
def QId.slot (q : QId) : Nat :=
  match q with
  | .vector => 1 | .matrix => 2 | .load => 3 | .store => 4 | .sync => 5

/-- Bit of a queue mask: vector 3, matrix 2, load 1, store 0 (R189). -/
def QId.maskBit (q : QId) : Nat :=
  match q with
  | .vector => 3 | .matrix => 2 | .load => 1 | .store => 0 | .sync => 4

/-- The gate mask a sync word carries (R151, R189); a BARRIER's mask also gates. -/
def gateMask (w : BitVec 48) : Nat :=
  match fld w 23 20 with
  | 1 => fld w 7 4
  | 3 => fld w 19 16
  | 4 => fld w 3 0
  | 7 => fld w 6 3
  | _ => 0

/-! ### The command an instruction runs in -/

/-- What an instruction may name: the image of the core's command with its header. -/
structure Ctx where
  core : Nat
  img : Img
  hdr : Hdr
  /-- class of the command, if one runs: latency-critical -/
  lc : Option Bool

/-- The context of core c; a core without a command carries nothing. -/
def ctxOf (s : State) (c : Nat) : Ctx :=
  match (coreAt s c).st.run with
  | some r => ⟨c, imgOn s c r.hdr, hdrOf ((imgOn s c r.hdr).unit 0), some r.lc⟩
  | none => ⟨c, ⟨{}, 0⟩, {}, none⟩

/-- Parameter unit k. -/
def Ctx.par (x : Ctx) (k : Nat) : BitVec 256 := x.img.unit (x.hdr.parOff + k)

/-- n parameter units from k are carried in full. -/
def Ctx.carries (x : Ctx) (k n : Nat) : Bool := decide (k + n ≤ x.hdr.parLen)

/-- Geometry record i, if carried. -/
def Ctx.geom (x : Ctx) (i : Nat) : Option Geom :=
  if i < x.hdr.geomCnt then some (geomOf (geomRec x.img x.hdr i)) else none

/-! ### Transfer descriptors -/

/-- A walk (Table 7.8). -/
structure Walk where
  base : Nat
  space : Nat
  dev : Nat
  esize : Nat
  cnt : List Nat
  str : List Int
  deriving DecidableEq, Repr

/-- Signed 40-bit field. -/
def str40 (u : BitVec 256) (hi lo : Nat) : Int := signedOf 40 (fld u hi lo)

def walkOf (u0 u1 : BitVec 256) : Walk :=
  { base := fld u0 63 0, space := fld u0 67 64, dev := fld u0 70 68, esize := 2 ^ fld u0 74 72,
    cnt := [fld u0 95 80, fld u0 111 96, fld u0 127 112, fld u0 143 128],
    str := [str40 u1 39 0, str40 u1 79 40, str40 u1 119 80, str40 u1 159 120] }

/-- Bytes of a walk. -/
def Walk.bytes (w : Walk) : Nat := w.esize * w.cnt.foldl (· * ·) 1

/-- Roles of Table 7.9. -/
inductive Role where
  | ldSrc | ldDst | stSrc | stDst
  deriving DecidableEq, Repr

/-- A space is permitted for a role (Table 7.9). -/
def roleOk (r : Role) (space : Nat) : Bool :=
  match r with
  | .ldSrc => [0, 1, 2, 4, 5].contains space
  | .ldDst => [0, 3].contains space
  | .stSrc => [0, 1, 2, 4, 5].contains space
  | .stDst => [1, 2, 4, 5, 6].contains space

/-- A descriptor keeps Table 7.8 and R184. -/
def walkOk (s : State) (r : Role) (u0 u1 : BitVec 256) : Bool :=
  let w := walkOf u0 u1
  fld u0 71 71 == 0 && fld u0 79 75 == 0 && fld u0 255 144 == 0 && fld u1 255 160 == 0 && decide (fld u0 74 72 ≤ 6) &&
    w.cnt.all (· != 0) && w.base % w.esize == 0 && w.str.all (fun v => v % (w.esize : Int) == 0) && roleOk r w.space &&
    devOk s w.space w.dev

/-- The walk of a descriptor at parameter unit k. -/
def Ctx.walk (x : Ctx) (k : Nat) : Walk := walkOf (x.par k) (x.par (k + 1))

/-- Element addresses of a walk in walk order (R184). -/
def Walk.elems (w : Walk) (o : Int) : List Int :=
  let st := fun i => w.str.getD i 0
  let r := fun i => List.range (w.cnt.getD i 0)
  (r 3).flatMap fun (i3 : Nat) => (r 2).flatMap fun (i2 : Nat) => (r 1).flatMap fun (i1 : Nat) =>
    (r 0).map fun (i0 : Nat) => (w.base : Int) + o + i0 * st 0 + i1 * st 1 + i2 * st 2 + i3 * st 3

/-! ### Gather records -/

/-- A gather record (Table 7.11). -/
structure Gather where
  base : Nat
  space : Nat
  dev : Nat
  tapFirst : Nat
  tapCnt : Nat
  stepFirst : Nat
  stepCnt : Nat
  cfirst : Nat
  ccnt : Nat
  dest : Nat
  pstride : Nat
  deriving DecidableEq, Repr

def gatherOf (u : BitVec 256) : Gather :=
  { base := fld u 63 0, space := fld u 67 64, dev := fld u 70 68, tapFirst := fld u 79 72, tapCnt := fld u 87 80,
    stepFirst := fld u 103 88, stepCnt := fld u 119 104, cfirst := fld u 135 120, ccnt := fld u 151 136,
    dest := fld u 172 152, pstride := fld u 193 173 }

/-- Step depth (R70). -/
def stepDepth (wfmt : Nat) : Nat := if wfmt = 3 then 8 else 4

/-- Activation elements of one step in a row of an operand buffer entry (R180). -/
def rowElems (mode wfmt : Nat) : Nat := if mode = 2 then 64 else if mode = 3 then 16 else stepDepth wfmt

/-- Largest n in one operand buffer entry (Tables 3.4 and 4.6). -/
def maxSteps (mode afmt wfmt : Nat) : Nat := min 64 (512 / (rowElems mode wfmt * elemBytes afmt))

/-- Channels per group. -/
def Geom.cpg (g : Geom) : Nat := g.cin / g.groups

/-- Steps of a tap segment (R103, R116, R118). -/
def Geom.segSteps (g : Geom) : Nat :=
  if g.mode = 2 then 1 else if g.mode = 3 then (if g.cpg ≤ 64 then 16 else g.cpg / 4) else ceilDiv g.cin (stepDepth g.wfmt)

/-- A gather record is legal for CGATHER (Table 7.11, R187). -/
def cgatherOk (s : State) (g : Geom) (u : BitVec 256) : Bool :=
  let r := gatherOf u
  fld u 71 71 == 0 && fld u 255 194 == 0 && [0, 1, 2, 4, 5].contains r.space && devOk s r.space r.dev &&
    (g.mode == 0 || g.mode == 2 || g.mode == 3) && decide (r.tapFirst ≤ 224) && decide (1 ≤ r.tapCnt) &&
    decide (r.tapFirst + r.tapCnt ≤ g.kh * g.kw) && decide (1 ≤ r.stepCnt) &&
    decide (r.stepCnt ≤ maxSteps g.mode g.afmt g.wfmt) &&
    (if r.tapCnt = 1 then decide (r.stepFirst + r.stepCnt ≤ g.segSteps)
     else r.stepFirst == 0 && r.stepCnt == r.tapCnt * g.segSteps) &&
    (g.mode != 0 || r.cfirst == 0)

/-- A gather record is legal for WXLOAD. -/
def wxloadOk (s : State) (g : Geom) (u : BitVec 256) : Bool :=
  let r := gatherOf u
  fld u 71 71 == 0 && fld u 255 194 == 0 && [0, 1, 2, 4, 5].contains r.space && devOk s r.space r.dev &&
    g.mode == 1 && decide (1 ≤ r.ccnt) && r.dest % 2 == 0 && decide (r.cfirst + r.ccnt ≤ g.cin)

/-! ### Requantisation descriptors -/

/-- A requantisation descriptor (Table 7.6). -/
structure RqDesc where
  ot : Nat
  perch : Bool
  zp : Int
  bias : Int
  m : Int
  sh : Nat
  lo : Int
  hi : Int
  table : Nat
  deriving DecidableEq, Repr

def rqDescOf (u : BitVec 256) : RqDesc :=
  { ot := fld u 2 0, perch := bitAt u 3, zp := signedOf 16 (fld u 31 16), bias := signedOf 32 (fld u 63 32),
    m := signedOf 32 (fld u 95 64), sh := fld u 101 96, lo := signedOf 32 (fld u 159 128), hi := signedOf 32 (fld u 191 160),
    table := fld u 204 192 }

/-- Effective bounds (R47). -/
def RqDesc.bounds (d : RqDesc) : Int × Int := (max d.lo (typeRange d.ot).1, min d.hi (typeRange d.ot).2)

/-- A descriptor keeps Table 7.6, R48 and R176. -/
def rqDescOk (u : BitVec 256) : Bool :=
  let d := rqDescOf u
  decide (d.ot ≤ 4) && fld u 15 4 == 0 && fld u 127 102 == 0 && fld u 255 205 == 0 &&
    (!d.perch || (fld u 31 16 == 0 && fld u 63 32 == 0 && fld u 95 64 == 0 && fld u 101 96 == 0)) &&
    decide (d.bounds.1 ≤ d.bounds.2)

/-- Per-channel entry c of a descriptor: two entries to a unit, the even one in the lower half (R176). -/
def Ctx.perch (x : Ctx) (d : RqDesc) (c : Nat) : Option (BitVec 128) :=
  let unit := d.table + c / 2
  if unit < x.hdr.parLen then some (BitVec.ofNat 128 (fld (x.par unit) (128 * (c % 2) + 127) (128 * (c % 2)))) else none

/-- A per-channel entry's reserved bits are 0. -/
def perchOk (u : BitVec 128) : Bool := fld u 79 70 == 0 && fld u 127 96 == 0

def perchOf (u : BitVec 128) : Requant :=
  { bias := signedOf 32 (fld u 31 0), m := signedOf 32 (fld u 63 32), sh := fld u 69 64, zp := signedOf 16 (fld u 95 80) }

/-- RG lies in the range of its read form (R175). -/
def rgOk (src rg : Nat) (narrow : Bool) : Bool :=
  if src ≥ 2 then true else if narrow then decide (rg ≤ 3) else decide (rg ≤ 15)

/-! ### Illegal instructions -/

/-- Interpolation table image at parameter unit k is carried and keeps Table 7.4. -/
def tableOk (x : Ctx) (k : Nat) : Bool :=
  x.carries k 17 && fld (x.par k) 255 37 == 0 && decide (fld (x.par k) 36 32 ≤ 23)

/-- Shape of a vector opcode. -/
inductive VShape where
  | r3 | r4 | r2        -- format R with two, three or one sources
  | imm | shiftImm | movi | bcast | tab
  | tld | mem | pool | rq | movacc
  deriving DecidableEq, Repr

/-- The vector opcodes (Table 7.2). -/
def vshape (op : Nat) : Option VShape :=
  if op = 0x0B ∨ op = 0x23 then some .r4
  else if 0x01 ≤ op ∧ op ≤ 0x0E then some .r3
  else if op = 0x10 ∨ op = 0x15 then some .imm
  else if 0x11 ≤ op ∧ op ≤ 0x13 then some .shiftImm
  else if op = 0x14 then some .movi
  else if op = 0x18 then some .bcast
  else if 0x19 ≤ op ∧ op ≤ 0x1B then some .r2
  else if op = 0x20 ∨ op = 0x21 ∨ op = 0x22 ∨ op = 0x24 ∨ op = 0x25 ∨ op = 0x28 ∨ op = 0x29 then some .r3
  else if op = 0x26 ∨ op = 0x27 ∨ op = 0x31 then some .r2
  else if op = 0x30 then some .tab
  else if op = 0x32 then some .tld
  else if op = 0x38 ∨ op = 0x39 then some .mem
  else if op = 0x3A then some .pool
  else if op = 0x3C then some .rq
  else if op = 0x3D then some .movacc
  else none

/-- The fields of a vector word keep Table 7.2 and what it names is carried. -/
def vecFieldsOk (x : Ctx) (sh : VShape) (w : BitVec 48) : Bool :=
  match sh with
  | .r3 => fld w 25 0 == 0
  | .r4 => fld w 20 0 == 0
  | .r2 => fld w 30 0 == 0
  | .imm => fld w 14 0 == 0
  | .shiftImm => fld w 14 0 == 0 && decide (fld w 30 15 ≤ 31)
  | .movi => fld w 14 0 == 0 && fld w 35 31 == 0
  | .bcast => fld w 14 0 == 0 && decide (fld w 30 15 ≤ 63)
  | .tab => fld w 14 0 == 0 && decide (fld w 30 15 ≤ 7)
  | .tld => fld w 24 0 == 0 && tableOk x (fld w 37 25)
  | .mem => fld w 13 0 == 0 && decide (fld w 35 33 ≤ 5)
  | .pool => fld w 11 0 == 0 && (match x.geom (fld w 35 33) with | some g => decide (4 ≤ g.mode) && decide (g.mode ≤ 6) | none => false)
  | .rq => fld w 16 0 == 0 && decide (fld w 40 36 ≤ 28) && rgOk (fld w 33 32) (fld w 31 26) (bitAt w 25) &&
      x.carries (fld w 24 21) 1 && rqDescOk (x.par (fld w 24 21))
  | .movacc => fld w 14 0 == 0 && rgOk (fld w 38 37) (fld w 36 31) (bitAt w 30)

/-- Reason that makes a vector word illegal (R166). -/
def vecBad (x : Ctx) (w : BitVec 48) : Option Nat :=
  let op := fld w 47 41
  if op = 0 then some 2
  else match vshape op with
  | none => some 1
  | some sh => if vecFieldsOk x sh w then none else some 2

/-- Weight bytes of one step in one array (R180). -/
def weightBytes (mode afmt wfmt : Nat) : Nat :=
  if mode = 2 then (if wfmt = 2 then 32 else 16)
  else if mode = 1 then 512
  else if afmt = 2 ∧ wfmt = 2 then 512 else 256

/-- The fields of an MMA word keep Table 7.7, R180 and R181. -/
def mmaFieldsOk (w : BitVec 48) : Bool :=
  let afmt := fld w 25 24
  let wfmt := fld w 23 22
  let mode := fld w 21 20
  let n := fld w 31 26 + 1
  fld w 1 0 == 0 && fld w 42 39 != 0 && decide (fld w 37 36 ≤ 2) && decide (afmt ≤ 2) &&
    ((mode == 1 && bitAt w 35) || fld w 6 2 == 0) && decide (fld w 19 7 * 256 + n * weightBytes mode afmt wfmt ≤ 0x200000) &&
    pairOk afmt wfmt && !(mode == 1 && (!(afmt == 2 && wfmt == 2) || fld w 37 36 == 2)) &&
    !((mode == 2 || mode == 3) && wfmt == 3)

/-- Reason that makes a matrix word illegal. -/
def mtxBad (w : BitVec 48) : Option Nat :=
  let op := fld w 47 43
  if op = 0 then some 2 else if op ≠ 1 then some 1 else if mmaFieldsOk w then none else some 2

/-- TOKEN names T1 to T3 (R168). -/
def tokenBad (t : Nat) : Bool := decide (1 ≤ t) && decide (t ≤ 3)

/-- LD or ST: both descriptors carried and legal for their roles, and equal in bytes (R184). -/
def ldFieldsOk (s : State) (x : Ctx) (rs rd : Role) (w : BitVec 48) : Bool :=
  let a := fld w 41 29
  let b := fld w 28 16
  fld w 3 0 == 0 && x.carries a 2 && x.carries b 2 && walkOk s rs (x.par a) (x.par (a + 1)) &&
    walkOk s rd (x.par b) (x.par (b + 1)) && (x.walk a).bytes == (x.walk b).bytes

/-- CGATHER or WXLOAD: its records are carried and legal. -/
def gatherFieldsOk (s : State) (x : Ctx) (wx : Bool) (w : BitVec 48) : Bool :=
  x.carries (fld w 41 29) 1 && (match x.geom (fld w 28 26) with
    | none => false
    | some g => if wx then wxloadOk s g (x.par (fld w 41 29)) else cgatherOk s g (x.par (fld w 41 29)))

/-- First of field and token faults. -/
def orToken (fields : Bool) (token : Nat) : Option Nat :=
  if !fields then some 2 else if tokenBad token then some 0xB else none

/-- Reason that makes a load word illegal (Table 7.10). -/
def ldBad (s : State) (x : Ctx) (w : BitVec 48) : Option Nat :=
  match fld w 47 42 with
  | 0 => some 2
  | 1 => orToken (ldFieldsOk s x .ldSrc .ldDst w) (fld w 15 12)
  | 2 => orToken (fld w 16 0 == 0 && gatherFieldsOk s x false w) (fld w 20 17)
  | 3 => orToken (fld w 16 0 == 0 && fld w 25 24 == 0 && gatherFieldsOk s x true w) (fld w 20 17)
  | 4 => orToken (fld w 15 0 == 0 && (if bitAt w 21 then !bitAt w 22 else !bitAt w 20)) (fld w 19 16)
  | 5 => orToken (fld w 34 0 == 0 && decide (fld w 41 39 < x.hdr.reqCnt)) (fld w 38 35)
  | 6 => orToken (fld w 24 0 == 0 && x.carries (fld w 41 29) 1) (fld w 28 25)
  | _ => some 1

/-- Reason that makes a store word illegal. -/
def stBad (s : State) (x : Ctx) (w : BitVec 48) : Option Nat :=
  match fld w 47 42 with
  | 0 => some 2
  | 1 => orToken (ldFieldsOk s x .stSrc .stDst w) (fld w 15 12)
  | 2 => orToken (fld w 24 0 == 0 && x.carries (fld w 41 29) 1) (fld w 28 25)
  | _ => some 1

/-- A semaphore or an arrival counter belongs to the pool of the other class than the running command (R156). -/
def otherPool (s : State) (x : Ctx) (item idx : Nat) : Bool :=
  match x.lc with
  | none => false
  | some lc => (itmN s 10 item idx 1 == 0) != lc

/-- Reason that makes a sync word illegal (Table 7.12). -/
def syBad (s : State) (x : Ctx) (w : BitVec 48) : Option Nat :=
  let t := fld w 19 16
  let n := fld w 15 8
  match fld w 23 20 with
  | 0 => some 2
  | 1 => if fld w 3 0 ≠ 0 ∨ n = 0 ∨ (t ≤ 3 ∧ n ≠ 1) then some 2 else none
  | 2 => if fld w 11 0 ≠ 0 then some 2 else if t ≤ 3 then some 0xB else none
  | 3 => if fld w 15 0 ≠ 0 then some 2 else none
  | 4 => if fld w 11 4 = 0 then some 2 else if otherPool s x 2 (fld w 19 12) then some 9 else none
  | 5 => if fld w 11 4 = 0 then some 2 else if otherPool s x 2 (fld w 19 12) then some 9 else none
  | 6 => if fld w 7 0 ≠ 0 then some 2 else if otherPool s x 3 (fld w 19 12) then some 9 else none
  | 7 => if fld w 2 0 ≠ 0 ∨ fld w 11 7 = 0 ∨ 16 < fld w 11 7 then some 2
         else if otherPool s x 3 (fld w 19 12) then some 9 else none
  | _ => some 1

/-- Reason that makes a scalar word illegal, a branch target outside the bundle range apart (R169). -/
def scBad (w : BitVec 32) : Option Nat :=
  match fld w 31 26 with
  | 0 => if w = 0 then none else some 2
  | 1 => none
  | 2 => if fld w 22 13 = 0 then none else some 2
  | 3 => if fld w 20 18 ≤ 3 then none else some 2
  | 4 => if fld w 20 18 ≤ 3 ∧ fld w 14 0 = 0 then none else some 2
  | 5 => if fld w 25 24 ≤ 2 ∧ fld w 21 13 = 0 then none else some 2
  | _ => some 1

/-- Reason that makes the word of a queue illegal at dispatch. -/
def slotBad (s : State) (x : Ctx) (q : QId) (w : BitVec 48) : Option Nat :=
  match q with
  | .vector => vecBad x w
  | .matrix => mtxBad w
  | .load => ldBad s x w
  | .store => stBad s x w
  | .sync => syBad s x w

end Sys2Proof.Machine
end

