-- ==== Sys2Proof/Machine/Rings.lean ====
section
/-!
DEFINITION. The rings the device writes (10, R245, R276; 12, R313; 11, R294) with their vectors (20, R471, R472), and the
records: command completions and job records (12, Table 12.4), tick records (11, Table 11.4).
-/
namespace Sys2Proof.Machine

/-- A ring of records in host memory: completion ring n, intake completion ring, tick record ring. -/
inductive RingId where
  | cpl (n : Nat) | intake | tick
  deriving DecidableEq, Repr

def ringAt (s : State) (r : RingId) : Ring :=
  match r with
  | .cpl n => s.disp.cpl.getD n {}
  | .intake => s.siu.cring
  | .tick => s.time.rring

def modRing (r : RingId) (f : Ring → Ring) (s : State) : State :=
  match r with
  | .cpl n => { s with disp := { s.disp with cpl := upd s.disp.cpl n f } }
  | .intake => { s with siu := { s.siu with cring := f s.siu.cring } }
  | .tick => { s with time := { s.time with rring := f s.time.rring } }

/-- Bytes of an entry. -/
def RingId.size (r : RingId) : Nat := match r with | .tick => 64 | _ => 32

/-- Number of the ring among the ring vectors: vector 145 + it, enable bit of GLB_HOST_IRQ_EN (Table 20.3). -/
def RingId.num (r : RingId) : Nat := match r with | .cpl n => n | .intake => 8 | .tick => 9

/-- The source that a dropped record raises. -/
def RingId.full (r : RingId) : Fire :=
  match r with
  | .cpl _ => { b := bDISP, src := 4 }
  | .intake => { b := bSIU, src := 12 }
  | .tick => { b := bTIME, src := 6 }

/-- Entries of a ring. -/
def Ring.entries (r : Ring) : Nat := 2 ^ r.sizeLog2

/-- The ring can take no further record. -/
def Ring.isFull (r : Ring) : Bool := (r.head + 1) % r.entries == r.tail % r.entries

/-- The vector of a ring is sent now, or deferred until 2 µs after the last one (R472). -/
def ringVector (r : RingId) (s : State) : State :=
  if s.glb.irqEn.getLsbD r.num then
    match (ringAt s r).vecAt with
    | some t =>
      if s.clk.ns < t + 2000 then modRing r (fun k => { k with vecDue := true }) s
      else sendVec (145 + r.num) (modRing r (fun k => { k with vecDue := false }) s)
    | none => sendVec (145 + r.num) (modRing r (fun k => { k with vecDue := false }) s)
  else s

/-- A record is written at HEAD and HEAD advances; the ring has room. -/
def ringWrite (r : RingId) (bs : List Byte) (s : State) : State :=
  let k := ringAt s r
  let s1 := hostWr s (k.base.toNat + k.head * r.size) bs
  ringVector r (modRing r (fun k => { k with head := (k.head + 1) % k.entries }) s1)

/-- A record is posted: not at all to a disabled ring or in the safe state, held while no request can be issued (R462, Table
17.3), dropped when the ring is full (R245). -/
def postRec (r : RingId) (bs : List Byte) (s : State) : State :=
  let k := ringAt s r
  if !k.en || s.glb.safe then s
  else if !pciUp s then
    (if k.held.length < 64 then modRing r (fun k => { k with held := k.held ++ [bs] }) s else fire r.full s)
  else if k.isFull then fire r.full s
  else ringWrite r bs s

/-- The records a ring holds are posted in order. -/
def flushRing (s : State) (r : RingId) : State :=
  let h := (ringAt s r).held
  h.foldl (fun s bs => postRec r bs s) (modRing r (fun k => { k with held := [] }) s)

/-- Every ring of the device's records. -/
def allRings : List RingId := (List.range 8).map RingId.cpl ++ [.intake, .tick]

/-- Requests flow again: held records, then pending messages (R462). -/
def requestsFlow (s : State) : State := if pciUp s then flushVecs (allRings.foldl flushRing s) else s

/-- Vector 155: GLB_PAT_STATUS.STATE has changed, or READY has risen (20, Table 20.3). -/
def patVec (s : State) : State := if s.glb.irqEn.getLsbD 10 then sendVec 155 s else s

/-! ### Records -/

/-- A record's 32 bytes (Table 12.4). -/
def CplRec.bytes (r : CplRec) (off : Nat) : List Byte :=
  leBytes 32 (r.status + r.ring * 2 ^ 8 + b2n r.lc * 2 ^ 11 + b2n r.last * 2 ^ 12 + b2n r.jobrec * 2 ^ 13 + r.core * 2 ^ 16 +
    r.part * 2 ^ 20 + r.orig * 2 ^ 24 + r.jobref.toNat * 2 ^ 32 + r.tag * 2 ^ 64 + r.cmd * 2 ^ 80 + r.tick % 2 ^ 64 * 2 ^ 96 +
    off % 2 ^ 32 * 2 ^ 160 + r.cycles % 2 ^ 32 * 2 ^ 192)

/-- A record is posted on its completion ring. -/
def postCpl (s : State) (r : CplRec) : State := postRec (.cpl r.ring) (r.bytes r.doneOff) s

/-- Order of held records: stage, then job, then list (R313). -/
def CplRec.before (a b : CplRec) : Bool :=
  decide (a.stage < b.stage) || (a.stage == b.stage && (decide (a.job < b.job) || (a.job == b.job && decide (a.cmd < b.cmd))))

/-- A record put in its place among held ones. -/
def heldInsert (r : CplRec) : List CplRec → List CplRec
  | [] => [r]
  | x :: xs => if r.before x then r :: x :: xs else x :: heldInsert r xs

/-- The held records of partition p are posted, with VOID where the partition's outputs are void (R30, R401). -/
def postHeld (p : Nat) (s : State) : State :=
  let mine := s.disp.held.filter fun r => r.part == p
  mine.foldl (fun s r => postCpl s { r with status := if isVoid s p r.tick then worstStatus r.status 0x40 else r.status })
    { s with disp := { s.disp with held := s.disp.held.filter fun r => r.part != p } }

/-- Partitions used in a COMPUTE stage, as a mask (R294). -/
def usedMask (s : State) : Nat := sumN ((List.range 4).map fun p => if usesPart s p then 2 ^ p else 0)

/-- EN of a stream (13, R331: parameter 0). -/
def streamEn (s : State) (n : Nat) : Bool := itmN s 3 0x100 n 0 == 1

/-- Frame Store address of the intake status table, if the Pattern gives one (10, R246). -/
def statusAddr (s : State) : Option Nat := (itm s 3 0x220 0).map BitVec.toNat

/-- DROP of the tick record: enabled streams whose bit of the intake status table is 0. -/
def dropMask (s : State) : Nat :=
  sumN ((List.range 48).map fun n =>
    let bit := match statusAddr s with
      | some a => (s.fst.mem.rd (a + n / 8)).getLsbD (n % 8)
      | none => false
    if streamEn s n && !bit then 2 ^ n else 0)

/-- MIN_SLACK of partition p. -/
def minSlack (s : State) (p : Nat) : Nat :=
  if !usesPart s p then 0xFFFFFFFF
  else if s.disp.deadline.getLsbD p then 0
  else (s.disp.slack.getD p none).getD 0xFFFFFFFF

/-- The 64 bytes of the tick record (Table 11.4); `allVoid` in the safe state. -/
def tickBytes (s : State) (allVoid : Bool) : List Byte :=
  let t := s.time
  let void := sumN ((List.range 4).map fun p =>
    if usesPart s p && (allVoid || isVoid s p t.tick) then 2 ^ p else 0)
  leBytes 8 t.tick ++ leBytes 8 (tickGtc s t.tick).toNat ++ leBytes 4 s.glb.patternId.toNat ++
    leBytes 2 (t.perf + b2n t.avsEn * 4 + b2n t.idleGate * 8 + devId s * 16 + groupM1 s * 128) ++
    leBytes 2 s.mgt.otp.corePresent.toNat ++ leBytes 2 (min t.droopCur 0xFFFF) ++ leBytes 2 t.prevTail ++
    leBytes 6 (dropMask s) ++ leBytes 2 (void + s.disp.deadline.toNat * 16 + usedMask s * 256) ++
    leBytes 4 (wrapTo 32 t.trim) ++ leBytes 4 (if t.mode = 0 then 0 else wrapTo 32 t.lastOffset) ++
    leBytes 4 (t.mode + b2n t.holdover * 8) ++
    (List.range 4).flatMap fun p => leBytes 4 (minSlack s p)

/-- What the lifetime record takes from a tick record: the bin of the least slack, and the droop events (19, R451, Table 19.8). -/
def lifeTick (s : State) : State :=
  let used := (List.range 4).filter (usesPart s)
  let slack := used.foldl (fun m p => min m (minSlack s p)) 0xFFFFFFFF
  let bin := if s.disp.deadline ≠ 0 then 0 else min 63 (slack / 250000 + 1)
  lifeAdd (216 + 4 * bin) 4 1 (lifeAdd 496 8 (min s.time.droopCur 0xFFFF + s.time.prevTail) s)

/-- The tick record is written, and handed to the firmware (R294; 19, R451). -/
def postTick (allVoid : Bool) (s : State) : State :=
  postRec .tick (tickBytes s allVoid) (lifeTick { s with time := { s.time with droopAtRec := some s.time.droopCur } })

end Sys2Proof.Machine
end

