-- ==== Sys2Proof/Machine/Upsets.lean ====
section
/-!
DEFINITION. What faults do to memories, registers and transfers on the die (08, R193; 09, R236; 15, R384, R385), as commands bring it
from outside.
-/
namespace Sys2Proof.Machine

/-- The memory of the state that holds a word of an ECC memory, where it is one of those `MemId` names. -/
def eccMem (s : State) (m : EccMem) (word : Nat) : Option MemId :=
  match m with
  | .asp c => some (.asp c)
  | .wbf c => some (wbfMem s c (8 * word))
  | .bst c => some (.bst c)
  | .fst => some .fst
  | .dram => some .dram
  | .intake => some .intake
  | .dir => none
  | .mgt => none

/-- A list of words with single-bit upsets and of uncorrectable ones, after one more upset of word k: a second single-bit upset makes a
word uncorrectable. -/
def upsetWord (k : Nat) (double : Bool) (w : List Nat × List Nat) : List Nat × List Nat :=
  if double || w.1.contains k || w.2.contains k then (w.1.filter (· != k), addNew w.2 k) else (addNew w.1 k, w.2)

/-- A memory after an upset of a word; a corrected copy that waits for its write-back is spoiled with it. -/
def Mem.upset (k : Nat) (double : Bool) (m : Mem) : Mem :=
  let w := upsetWord k double (m.ce, m.ue)
  { m with ce := w.1, ue := w.2, wb := m.wb.filter (· != k) }

/-- An upset of a word. The directory holds a set in six words (09, R236). -/
def strikeWord (m : EccMem) (k : Nat) (double : Bool) (s : State) : State :=
  match eccMem s m k with
  | some i => setMem i ((memOf s i).upset k double) s
  | none =>
    match m with
    | .dir =>
      let w := upsetWord (k / 6) double (s.kfs.ce, s.kfs.ue)
      { s with kfs := { s.kfs with ce := w.1, ue := w.2 } }
    | _ => { s with mgt := { s.mgt with sram := s.mgt.sram.upset k double } }

/-- What a fault does. Data that serve no command and arrive with a parity error raise GLB_NOC_PARITY, attributed to none, and land
poisoned (15, R384). -/
def strike (s : State) (x : Strike) : State :=
  match x with
  | .upset m k double => strikeWord m k double s
  | .parity m k => strikeWord m k true (fire { b := bGLB, src := 3 } s)
  | .reg off => { s with glb := { s.glb with badRegs := addNew s.glb.badRegs off.toNat } }
  | .flash bad => { s with mgt := { s.mgt with flashBad := bad } }

/-- What faults have done, one after another. -/
def strikes (up : List Strike) (s : State) : State := up.foldl strike s

end Sys2Proof.Machine
end

