-- ==== Sys2Proof/Machine/Ops.lean ====
section
/-!
DEFINITION. The shared operations over cores, jobs and domains: skips (06, R159, R160), semaphores (R154), the end of a
command in every way it can end (06, R148; 12, R303, R314, R320; 15, R370 to R376; 17, R413), fences (17, R413 to R415),
the entry of the safe state (15, R387), and what every command does last.
-/
namespace Sys2Proof.Machine

/-! ### Skips -/

/-- A skip of core c: SLOT, REASON and the Bundle Store index (R159, R160, R164). -/
def logSkip (c slot reason bundle : Nat) (s : State) : State :=
  fire { b := bCC c, src := 15, who := whoOn s c }
    (modSt s c fun k =>
      { k with
        skipInfo := if k.skipCount = 0 then BitVec.ofNat 32 (bundle % 8192 + slot * 2 ^ 13 + reason * 2 ^ 16) else k.skipInfo
        skipCount := satAdd 0xFFFF k.skipCount 1
        run := k.run.map fun r => { r with skips := true } })

/-- Token t of core c is signalled by the instruction in `slot` of a bundle (R150, R153). -/
def signalToken (c slot bundle t : Nat) (s : State) : State :=
  if t = 0 then s
  else if (coreAt s c).st.tok.getD t 0 ≥ 255 then logSkip c slot 0xB bundle s
  else modSt s c fun k =>
    { k with tok := putAt 0 k.tok t (k.tok.getD t 0 + 1), tokAt := putAt 0 k.tokAt t s.clk.cyc }

/-! ### Semaphores -/

def semVal (s : State) (i : Nat) : Nat := s.disp.sems.getD i 0

def setSem (i v : Nat) (s : State) : State := { s with disp := { s.disp with sems := putAt 0 s.disp.sems i v } }

/-- Units of semaphore i that core c holds. -/
def semHeld (s : State) (c i : Nat) : Nat := (assoc (coreAt s c).st.holds i).getD 0

/-- Requests stand in order of arrival, those of one cycle in ascending core number (05, R134; 06, R154; 09, R234). -/
def joinQueue (at_ core : α → Nat) (x : α) : List α → List α
  | [] => [x]
  | y :: ys => if at_ x < at_ y ∨ (at_ y = at_ x ∧ core x < core y) then x :: y :: ys else y :: joinQueue at_ core x ys

/-- A request is granted: the units pass to the core, and the grant reaches it 12 cycles later (R154). -/
def semGive (q : SemReq) (s : State) : State :=
  let s1 := setSem q.sem (semVal s q.sem - q.n) { s with disp := { s.disp with semWait := s.disp.semWait.erase q } }
  modCore s1 q.core fun k =>
    { k with
      st := { k.st with holds := assocPut k.st.holds q.sem ((assoc k.st.holds q.sem).getD 0 + q.n) }
      sq := { k.sq with qy := match k.sq.qy with
        | e :: rest => { e with reqAt := some (s1.clk.cyc + 12) } :: rest
        | [] => [] } }

/-- The oldest request on semaphore i is granted at its arrival or after, if the value covers it (R154). -/
def semGrantOne (i : Nat) (s : State) : State :=
  match s.disp.semWait.find? fun q => q.sem == i with
  | none => s
  | some q => if semVal s i < q.n then s else semGive q (passToCyc s q.at_)

/-- The oldest request on semaphore i is granted, if it has arrived and the value covers it. -/
def semGrantDue (i : Nat) (s : State) : State :=
  match s.disp.semWait.find? fun q => q.sem == i with
  | none => s
  | some q => if semVal s i < q.n ∨ s.clk.cyc < q.at_ then s else semGive q s

/-- Waiting requests on semaphore i are granted in order for as long as the oldest fits. -/
def semGrants (i : Nat) (s : State) : State :=
  (List.range s.disp.semWait.length).foldl (fun s _ => semGrantDue i s) s

/-- n units are returned to semaphore i. -/
def semReturn (i n : Nat) (s : State) : State := semGrants i (setSem i (semVal s i + n) s)

/-- The units core c still holds are released, and its waiting requests withdrawn (R154, R320). -/
def dropSems (c : Nat) (s : State) : State :=
  let held := (coreAt s c).st.holds
  let s1 := modSt { s with disp := { s.disp with semWait := s.disp.semWait.filter fun q => q.core != c } } c
    fun k => { k with holds := [] }
  held.foldl (fun s h => semReturn h.1 h.2 s) s1

/-! ### The run of a command -/

/-- Cycles counted for a run that ends now (R161, Table 12.4): 0 before its first bundle. -/
def runCycles (s : State) (r : Run) : Nat := if r.phase = .running then min 0xFFFFFFFF (s.clk.cyc - r.start + 1) else 0

/-- Trace of the end of a run (19, Table 19.10). -/
def traceEnd (c status reason cycles : Nat) (s : State) : State :=
  trace 0x03 c (BitVec.ofNat 64 (status + reason * 2 ^ 8 + cycles * 2 ^ 32)) s

/-- Cycles run are counted by the Observation Unit: 0 latency-critical, 1 best-effort, 2 swatch (19, R454). -/
def countRun (c kind n : Nat) (s : State) : State :=
  modSt s c fun k => { k with obs := putAt 0 k.obs kind (k.obs.getD kind 0 + n) }

/-- Cycles the next bundle has waited for room are counted (19, R454). -/
def countStall (c t : Nat) (s : State) : State :=
  match (coreAt s c).sq.blockedAt with
  | some b => modCore (countRun c 4 (t - b) s) c fun k => { k with sq := { k.sq with blockedAt := none } }
  | none => s

/-- The queues, transfers, buffers and token counters of a core hold nothing of a command any more; only what happens up to the present
cycle t still does. -/
def Core.cleared (t : Nat) (k : Core) : Core :=
  { k with
    sq := { k.sq with qv := [], qm := [], ql := [], qs := [], qy := [], infl := [], gates := [], skipTo := [] }
    vu := { k.vu with vwr := [], tabs := [], tabWr := [] }
    mx := { k.mx with aob := [{}, {}, {}, {}], spans := k.mx.spans.filter fun x => decide (x ≤ t), banks := k.mx.banks.map fun b => { b with chain := none, preloaded := false },
                      drains := List.replicate 8 none, otbs := List.replicate 8 {} }
    xfers := [], pend := k.pend.filter fun w => decide (w.at_ ≤ t)
    st := { k.st with tok := [], tokAt := [] } }

/-- The remote requests of run `run` of core c are abandoned: their responses are dropped (14, R352). -/
def dropRemote (c run : Nat) (s : State) : State :=
  { s with hrn := { s.hrn with peers := s.hrn.peers.map fun p =>
      { p with out := p.out.map fun q => if q.core = c ∧ q.run = run then { q with dropped := true } else q } } }

/-- The core is free of its run: what both a completion and an abort do. -/
def leaveCore (c idleAt : Nat) (s : State) : State :=
  dropSems c (modCore (countStall c s.clk.cyc s) c fun k =>
    let k1 := k.cleared s.clk.cyc
    { k1 with st := { k1.st with run := none, idleAt := idleAt, idleSince := idleAt } })

/-- The abort actions of R320 for the run on core c: nothing of it is issued or written any more, and the core is idle in the
next cycle (DESIGN CHOICE, entry 14). -/
def abortRun (c : Nat) (r : Run) (reason : Nat) (s : State) : State :=
  let t := s.clk.cyc
  let n := runCycles s r
  let s1 := countRun c (if r.lc then 0 else 1) n (traceEnd c 0x22 reason n s)
  leaveCore c (t + 1) (dropRemote c r.id (keyedStop c r.id t (samplerStop c r.id t s1)))

/-! ### Latency-critical jobs -/

def jobIs (stage job : Nat) (j : LcJob) : Bool := j.stage == stage && j.job == job

def modJob (stage job : Nat) (f : LcJob → LcJob) (s : State) : State :=
  { s with disp := { s.disp with jobs := s.disp.jobs.map fun j => if jobIs stage job j then f j else j } }

/-- One command of a job is changed. -/
def modCmd (stage job idx : Nat) (f : LcCmd → LcCmd) (s : State) : State :=
  modJob stage job (fun j => { j with cmds := j.cmds.map fun x => if x.idx = idx then f x else x }) s

def LcJob.ended (j : LcJob) : Bool := j.cmds.all fun c => c.phase == .ended

/-- WDOG_EARLY_NS of a stage (15, Table 15.6). -/
def wdogEarly (s : State) (stage : Nat) : Nat := itmN s 8 0x20 stage 0

/-- Partitions of a stage's set. -/
def stageParts (s : State) (stage : Nat) : List Nat :=
  (List.range 4).filter fun p => (itmN s 2 0x13 stage 0).testBit p

/-- When the last job of a stage on partition p has ended: its slack (11, R294), and DISP_WDOG_EARLY when the last one of the
stage ended too soon (15, R382). -/
def jobsEnded (stage p : Nat) (s : State) : State :=
  let here := s.disp.jobs.filter fun j => j.stage == stage
  let s1 :=
    if (here.filter fun j => j.part == p).all LcJob.ended then
      let slack := itmN s 2 0x12 stage 0 - offNs s
      { s with disp := { s.disp with slack := upd s.disp.slack p fun o => some (match o with | some v => min v slack | none => slack) } }
    else s
  if here.all LcJob.ended && !s1.disp.stageEnded.contains stage then
    let s2 := { s1 with disp := { s1.disp with stageEnded := s1.disp.stageEnded ++ [stage] } }
    if wdogEarly s stage ≠ 0 ∧ offNs s < itmN s 2 0x11 stage 0 + wdogEarly s stage then
      fire { b := bDISP, src := 8, det := BitVec.ofNat 32 stage, who := .parts (stageParts s stage) } s2
    else s2
  else s1

/-- A held record of a latency-critical command (R30, Table 12.4). -/
def lcRecord (s : State) (j : LcJob) (x : LcCmd) (status cycles : Nat) : CplRec :=
  { status := status, ring := j.cring, lc := true, last := x.idx + 1 == j.cmds.length, core := x.core, part := j.part,
    jobref := BitVec.ofNat 32 (j.job + j.stage * 2 ^ 16), tag := j.tag, cmd := x.idx, tick := s.time.tick, doneOff := offNs s,
    cycles := cycles, stage := j.stage, job := j.job }

/-- A latency-critical command is over: its record is held, its job goes on (R30, R95, R303). -/
def lcOver (stage job idx status cycles : Nat) (s : State) : State :=
  match s.disp.jobs.find? (jobIs stage job) with
  | none => s
  | some j =>
    match j.cmds.find? fun x => x.idx == idx with
    | none => s
    | some x =>
      let s1 := { s with disp := { s.disp with held := heldInsert (lcRecord s j x status cycles) s.disp.held } }
      let s2 := modSt s1 x.core fun k => { k with cmdCycles := cycles }
      let ended := fun (x : LcCmd) => { x with phase := .ended, at_ := if x.phase == .waiting then s.clk.cyc else x.at_ }
      jobsEnded stage j.part (modCmd stage job idx ended s2)

/-! ### Best-effort jobs -/

/-- The job of submission ring r is changed. -/
def modBe (r : Nat) (f : BeJob → BeJob) (s : State) : State := modSub s r fun k => { k with job := k.job.map f }

/-- Rings bound to partition p that have a job in progress, in cyclic order after ring `last` (R316). -/
def turnOrder (s : State) (p last : Nat) : List Nat :=
  ((List.range 8).map fun i => (last + 1 + i) % 8).filter fun r => (subAt s r).part == p && (subAt s r).job.isSome

/-- The first ring in order whose debt is at most SLICE_NS; the debts of those skipped fall by SLICE_NS (R317). -/
def pickTurn (p slice : Nat) : Nat → Nat → State → State × Option Nat
  | 0, _, s => (s, none)
  | fuel + 1, last, s =>
    match turnOrder s p last with
    | [] => (s, none)
    | r :: _ =>
      let debt := (((subAt s r).job.map BeJob.debt).getD 0)
      if debt > slice then pickTurn p slice fuel r (modBe r (fun j => { j with debt := j.debt - slice, growing := false }) s)
      else (s, some r)

/-- The next turn of partition p begins (R316, R317). -/
def beginTurn (p : Nat) (s : State) : State :=
  let slice := s.disp.slice.1
  let fuel := 8 + sumN (s.disp.subs.map fun k => ((k.job.map BeJob.debt).getD 0) / (slice + 1) * 8 + 8)
  let (s1, pick) := pickTurn p slice fuel (s.disp.lastRing.getD p 7) s
  match pick with
  | none => { s1 with disp := { s1.disp with turns := upd s1.disp.turns p fun _ => none } }
  | some r =>
    let debt := ((subAt s1 r).job.map BeJob.debt).getD 0
    let s2 := modBe r (fun j => { j with debt := 0, growing := false }) s1
    { s2 with disp := { s2.disp with turns := upd s2.disp.turns p fun _ => some ⟨r, slice - debt⟩,
                                     lastRing := upd s2.disp.lastRing p fun _ => r } }

/-- A turn begins on partition p when none is in progress and a job waits. -/
def startTurns (s : State) : State :=
  (List.range 4).foldl (fun s p => if (s.disp.turns.getD p none).isNone then beginTurn p s else s) s

/-- The job of ring r has ended: its history entry, and the end of its turn (R311, R316). -/
def beJobEnd (r : Nat) (seq : Word) (status : Nat) (s : State) : State :=
  let s1 := modSub s r fun k => { k with job := none, history := ((seq, status) :: k.history).take 64 }
  let p := (subAt s r).part
  match s1.disp.turns.getD p none with
  | some t => if t.ring = r then beginTurn p s1 else s1
  | none => s1

/-- A best-effort command is over: its record is posted, its job goes on (R303, R313). -/
def beOver (r idx core status cycles : Nat) (s : State) : State :=
  match (subAt s r).job with
  | none => s
  | some j =>
    let rec0 : CplRec :=
      { status := status, ring := r, last := idx + 1 == j.cnt, core := core, part := (subAt s r).part, jobref := j.seq,
        tag := j.tag, cmd := idx, tick := s.time.tick, doneOff := offNs s, cycles := cycles }
    let s1 := postCpl (modSt s core fun k => { k with cmdCycles := cycles }) rec0
    let j1 := { j with running := j.running.filter fun x => x.1 != idx, posted := j.posted + 1, worst := worstStatus j.worst status,
                       starve := j.starve.filter fun x => x.1 != idx, replay := j.replay.filter fun x => x.1 != idx }
    let j2 := if j1.running.isEmpty then { j1 with growing := false } else j1
    let s2 := modSub s1 r fun k => { k with job := some j2 }
    if j2.posted = j2.cnt then beJobEnd r j2.seq j2.worst s2 else s2

/-- A best-effort command has been aborted: it waits for its re-run (R321, R322). -/
def beAborted (r idx : Nat) (s : State) : State :=
  match (subAt s r).job with
  | none => s
  | some j =>
    let n := (assoc j.starve idx).getD 0 + 1
    let run := j.running.filter fun x => x.1 != idx
    let before := j.aborted.filter fun i => decide (i < idx)
    let after := j.aborted.filter fun i => decide (idx < i)
    let j1 := { j with running := run, starve := assocPut j.starve idx n, growing := j.growing && !run.isEmpty,
                       aborted := before ++ [idx] ++ after }
    let s1 := modSub s r fun k => { k with job := some j1 }
    if n % 16 = 0 then fire { b := bDISP, src := 6 } s1 else s1

/-! ### Ends of a run -/

/-- The run's command is over with a status: its held or posted record. -/
def runOver (c : Nat) (r : Run) (status cycles : Nat) (s : State) : State :=
  if r.lc then lcOver r.stage r.job r.idx status cycles s else beOver r.ring r.idx c status cycles s

/-- A command is ended part-way with the abort actions and completes with a status (R95, R413). -/
def endRun (c : Nat) (status reason : Nat) (s : State) : State :=
  match (coreAt s c).st.run with
  | none => s
  | some r =>
    let n := runCycles s r
    runOver c r (if r.void then worstStatus status 0x40 else status) n (abortRun c r reason s)

/-- The history of transients of a unit takes one more; the third within 1,000 ticks retires the core (15, R375). -/
def countTransient (c unit : Nat) (inj : Bool) (s : State) : State :=
  let h := (coreAt s c).st.trans.getD unit []
  let t := s.time.tick
  let s1 := modSt s c fun k => { k with trans := putAt [] k.trans unit ((t :: h).take 2) }
  match h with
  | _ :: t1 :: _ =>
    if t ≤ t1 + 999 then
      fire { b := bCC c, src := 6, who := .core c, inj := inj } { s1 with disp := { s1.disp with retireDue := putBit s1.disp.retireDue c true } }
    else s1
  | _ => s1

/-- A replay has completed without an event: CCn_RES_TRANSIENT with the first event's detail (R373). -/
def replayClean (c : Nat) (ev : DisEvent) (s : State) : State :=
  countTransient c (fld ev.det 18 16) ev.inj
    (fire { b := bCC c, src := 4, det := ev.det, who := whoOn s c, inj := ev.inj, count := ev.more.length + 1 } s)

/-- The outcome of an event whose replay failed or cannot be (R373, R374): CCn_RES_PERSIST, the void of the partition of a
latency-critical command. -/
def persist (c : Nat) (ev : DisEvent) (lc : Bool) (part : Nat) (s : State) : State :=
  let s1 := fire { b := bCC c, src := 5, det := ev.det, who := if lc then .lcCmd part else .beCmd c, inj := ev.inj,
                   count := ev.more.length + 1 } s
  if lc then voidParts [part] s1 else s1

/-- GTC offset of the close of a stage. -/
def closeNs (s : State) (stage : Nat) : Nat := itmN s 2 0x12 stage 0

/-- The lifetime record counts a disagreement event of core c (19, Table 19.8). -/
def lifeDisagree (c : Nat) (det : Word) (s : State) : State := lifeAdd (536 + 24 * c + 4 * fld det 18 16) 4 1 s

/-- A disagreement event ends the run on core c (R370 to R374). -/
def disagree (c : Nat) (ev : DisEvent) (s : State) : State :=
  match (coreAt s c).st.run with
  | none => s
  | some r =>
    let n := runCycles s r
    let s := (ev.det :: ev.more).foldl (fun s d => lifeDisagree c d s) s
    match r.replay with
    | some first =>
      let s1 := persist c first r.lc r.part s
      runOver c r 0x40 n (abortRun c r 3 s1)
    | none =>
      if r.lc then
        let room := decide (offNs s + cycNs s (512 + r.setup + r.decl) ≤ closeNs s r.stage)
        if room then
          modCmd r.stage r.job r.idx (fun x => { x with phase := .replayDue, event := some ev }) (abortRun c r 3 s)
        else runOver c r 0x40 n (abortRun c r 3 (persist c ev true r.part s))
      else
        let s1 := abortRun c r 3 s
        beAborted r.ring r.idx (modBe r.ring (fun j => { j with replay := assocPut j.replay r.idx ev }) s1)

/-- One skip is logged for each chain or collecting buffer that the end of a command discards (03, R79; 04, R115). -/
def discardSkips (c : Nat) (r : Run) (s : State) : State :=
  let mx := (coreAt s c).mx
  let chains := (mx.banks.filter fun b => b.chain.isSome).length
  let otbs := (mx.otbs.filter fun o => o.st == .collecting || (o.st == .ready && decide (s.clk.cyc < o.readyAt))).length
  let s1 := (List.range chains).foldl (fun s _ => logSkip c 7 7 r.hdr s) s
  (List.range otbs).foldl (fun s _ => logSkip c 7 8 r.hdr s) s1

/-- The run on core c ends: end-of-command actions, then its record with status `extra` or a higher one (R148, R163, R401). -/
def finishRun (c extra : Nat) (s : State) : State :=
  match (coreAt s c).st.run with
  | none => s
  | some r0 =>
    let n := runCycles s r0
    let s1 := discardSkips c r0 s
    let clean := decide (extra < 0x20)
    let s2 := match r0.replay with
      | some ev => if clean then replayClean c ev s1 else s1
      | none => s1
    let r := ((coreAt s2 c).st.run).getD r0
    let st0 := if r.replay.isSome && clean then 1 else 0
    let st1 := if r.skips then worstStatus st0 3 else st0
    let st2 := worstStatus (if r.void then worstStatus st1 0x40 else st1) extra
    let s3 := countRun c (if r.lc then 0 else 1) n (traceEnd c st2 0 n s2)
    runOver c r st2 n (leaveCore c (s.clk.cyc + 1) s3)

/-! ### Fences -/

/-- Spaces that a domain serves (17, Table 17.1). -/
def domainSpaces (d : Nat) : List Nat :=
  if d = dFST then [1] else if d = dDRC then [2] else if d = dPCI then [6] else []

/-- Domain that serves a space of the device itself. -/
def spaceDomain (space : Nat) : Option Nat :=
  if space = 1 then some dFST else if space = 2 then some dDRC else if space = 6 then some dPCI else none

/-- A space's domain is fenced: a request to it is answered FENCED (R413). -/
def spaceFenced (s : State) (space : Nat) : Bool :=
  match spaceDomain space with
  | some d => !inService s d
  | none => false


/-- An AWAIT stands at the head of a core's sync queue (07, Table 7.12): its request is outstanding at the Frame Store. -/
def awaiting (s : State) (k : Core) : Bool :=
  match k.sq.qy with
  | e :: _ => fld e.slot 23 20 == 7 && decide (e.at_ < s.clk.cyc) && decide (k.sq.syAt < s.clk.cyc)
  | [] => false

/-- Core c has a request outstanding to domain d (R413). -/
def hasRequest (s : State) (d c : Nat) : Bool :=
  match (coreAt s c).st.run with
  | none => false
  | some r =>
    (coreAt s c).xfers.any (fun x => (domainSpaces d).contains x.src || (domainSpaces d).contains x.dspace ||
      (x.msgs.map fun g => dHRN (routePort s g.dev) == d).getD false) ||
      (d == dFST && (samplerBusy s c r.id || keyedBusy s c r.id || awaiting s (coreAt s c))) || (d == dDRC && keyedBusy s c r.id) ||
      s.hrn.peers.any fun p => p.out.any fun q => dHRN q.port == d && q.core == c && q.run == r.id && !q.dropped

/-- Partitions that a fence of domain d voids (R415). -/
def fenceVoids (s : State) (d : Nat) : List Nat :=
  if 1 ≤ d ∧ d ≤ 16 then (partOf s (d - 1)).toList
  else if d = dSIU ∨ d = dFST ∨ d = dDRC ∨ d = dPCI then List.range 4
  else []

/-- The swatch of core c ends part-way. -/
def stopSwatch (c : Nat) (s : State) : State :=
  match (coreAt s c).st.swatchAt with
  | none => modSt s c fun k => { k with swatchDue := false }
  | some t =>
    let now := s.clk.cyc + 1
    countRun c 2 (s.clk.cyc - t) (modSt s c fun k => { k with swatchAt := none, swatchDue := false, idleAt := now, idleSince := now })

/-- A sweep that has begun is over for its tick: it completes no sample. -/
def Sweep.abandon (w : Sweep) (now : Gtc) : Sweep :=
  if w.capture.isSome || w.discarded != 0 || w.closed.isSome then { isOver := true, closed := some now } else w

/-- Samples in flight in the tannery are abandoned; the descriptor being decoded is fetched again (Table 17.3). -/
def abandonIntake (s : State) : State :=
  { s with siu := { s.siu with
      cams := List.replicate 32 none, sweeps := s.siu.sweeps.map fun w => w.abandon s.clk.gtc, flushing := [], results := [], tile := none
      lastTick := match s.siu.tile with | some t => upd s.siu.lastTick t.stream fun _ => none | none => s.siu.lastTick
      tring := match s.siu.tile with
        | some _ => { s.siu.tring with head := (s.siu.tring.head + s.siu.tring.entries - 1) % s.siu.tring.entries }
        | none => s.siu.tring } }

/-- The on-die messages of core c's transfers that are under way when a fence or a reset abandons them, with the generations they carry
(R414, R417). -/
def lateOf (s : State) (c : Nat) : List LateMsg :=
  (coreAt s c).xfers.filterMap fun x =>
    match spaceDomain x.src, spaceDomain x.dspace with
    | some d, _ => some { core := c, store := x.store, target := d, gens := x.gens }
    | none, some d => some { core := c, store := x.store, target := d, gens := x.gens }
    | none, none => none

/-- The requests that a fence of domain d has ended on the given cores (R414). -/
def markFence (d : Nat) (cs : List Nat) (s : State) : State :=
  { s with hrn := { s.hrn with peers := s.hrn.peers.map fun p =>
      { p with out := p.out.map fun q => if q.dropped && q.fence.isNone && cs.contains q.core then { q with fence := some d } else q } } }

/-- Domain d is fenced (R412, R413, R415, R418). -/
def fenceDomain (d : Nat) (s : State) : State :=
  if !inService s d then s
  else
    let ending := (List.range 16).filter fun c => (coreAt s c).st.run.isSome && (d == dCore c || hasRequest s d c)
    let s1 := modDom s d fun k => { k with phase := 1, fenceAt := s.clk.ns, phaseNs := s.clk.ns }
    let s2 := voidParts (fenceVoids s d) { s1 with dru := { s1.dru with late := s1.dru.late ++ ending.flatMap (lateOf s) } }
    let s3 := markFence d ending (ending.foldl (fun s c => endRun c 0x21 4 s) s2)
    let s4 := if 1 ≤ d ∧ d ≤ 16 then stopSwatch (d - 1) s3 else if d = dSIU then abandonIntake s3 else s3
    sendSide 0x01 d (domAt s d).gen 0 s.time.tick (traceDom d s4)

/-! ### The safe state -/

/-- Every running command and swatch is ended (R387). -/
def stopCores (s : State) : State :=
  (List.range 16).foldl (fun s c =>
    stopSwatch c (match (coreAt s c).st.run with | some r => abortRun c r 6 s | none => s)) s

/-- The records of the latency-critical commands that the safe state ended, added to those held. -/
def holdEnded (s0 s : State) : State :=
  (List.range 16).foldl (fun s c =>
    match (coreAt s0 c).st.run with
    | some r => if r.lc then lcOver r.stage r.job r.idx 0x40 (runCycles s0 r) s else s
    | none => s) s

/-- The safe state is entered for source `src` of block `b` (15, R387): outputs void, commands ended, DEVICE_SAFE sent, the
held records and the tick record posted, restarts in progress stopped (17, Table 17.5), and the lifetime record written (19, R451). -/
def enterSafe (b src : Nat) (s : State) : State :=
  let live := patActive s
  let s0 := if live then voidAt ((List.range 4).map fun p => (p, s.time.tick)) s else s
  let s1 := lifeAdd 484 4 1 (holdEnded s0 (abandonIntake (stopCores s0)))
  let s2 := sendSide 0x04 0xFF 0 0 s.time.tick s1
  let s3 := (List.range 4).foldl (fun s p => postHeld p s) s2
  let s4 := if live && s3.time.droopAtRec.isNone then postTick true s3 else s3
  lifeWrite
  { s4 with glb := { s4.glb with safe := true, safeBlock := b, safeSource := src, safeDue := none },
            dru := { s4.dru with doms := s4.dru.doms.map fun d => { d with frozen := decide (1 ≤ d.phase) && decide (d.phase ≤ 4) } } }

/-! ### What every command does last -/

/-- A pending loss of trace records fires OBS_TRACE_OVF. -/
def settleTrace (s : State) : State :=
  if s.obs.ovfDue then fire { b := bOBS, src := 0 } { s with obs := { s.obs with ovfDue := false } } else s

/-- The restart requests of the command are carried to their fences (R411, R412). -/
def settleFences (s : State) : State :=
  s.dru.req.foldl (fun s d => fenceDomain d s) { s with dru := { s.dru with req := [] } }

/-- The safe state is entered if a source has reached S4. -/
def settleSafe (s : State) : State :=
  match s.glb.safeDue with
  | some (b, src) => if s.glb.safe then { s with glb := { s.glb with safeDue := none } } else enterSafe b src s
  | none => s

/-- Nothing is left to carry out. -/
def clearDue (s : State) : State :=
  { s with dru := { s.dru with req := [] }, glb := { s.glb with safeDue := none }, obs := { s.obs with ovfDue := false } }

/-- The consequences of a command's fires are carried out: trace overflow, fences, the safe state. Fences can request
further restarts and reach S4 (a lost record of an ended command), so the round is run twice. -/
def settle (s : State) : State :=
  clearDue (settleSafe (settleFences (settleTrace (settleSafe (settleFences (settleTrace s))))))

/-- Outcome of a command whose effect is `f`: nothing happens while the logic is held in reset. -/
def run (s : State) (f : State → State) : Host.Outcome State Fault Refusal :=
  .next (if s.rst.inReset then s else settle (f s))

end Sys2Proof.Machine
end

