-- ==== Sys2Proof/Machine/Discipline.lean ====
section
/-!
DEFINITION. The time discipline (11, R286 to R293): measurements and the servo, holdover, the PPS and SYNC pins, the droop
detectors (R287, R295), and the writes of the Time Unit's registers that have behaviour of their own (R279, R288, R290, R292).
-/
namespace Sys2Proof.Machine

/-- A Pattern is active in the sense of R292: STATE is VALIDATING, LOADING, ARMED or ACTIVE. -/
def patLive (s : State) : Bool := decide (1 ≤ s.glb.patState) && decide (s.glb.patState ≤ 4)

/-! ### Measurements -/

/-- Largest and smallest TRIM (R279). -/
def trimMax : Int := 858993

/-- `e` held to 32 bits (R288). -/
def clampE (e : Int) : Int := clampI e (-2147483648) 2147483647

/-- The servo's step on a measurement (R288). -/
def TimeU.servo (t : TimeU) (e : Int) : TimeU :=
  let i := clampI (t.iAcc + e * t.ki) (-219902208) 219902208
  { t with iAcc := i, trim := clampI (rneShift (e * t.kp + i) 8) (-trimMax) trimMax }

/-- The last eight measurements all meet a bound (R288, R291). -/
def TimeU.last8 (t : TimeU) (p : Nat → Bool) : Bool := t.hist.length == 8 && t.hist.all p

/-- TIME_STATUS.DISCIPLINED (R288). -/
def TimeU.disciplined (t : TimeU) : Bool := t.last8 fun e => decide (e ≤ 100)

/-- A measurement in the Time Unit's records: it ends holdover (R288, R293). -/
def TimeU.accept (t : TimeU) (e : Int) (now : Nat) : TimeU :=
  { t with lastOffset := e, hist := (e.natAbs :: t.hist).take 8, measAt := now, holdover := false }

/-- ALIGNED after a measurement in HARNESS mode, with TIME_ALIGN_LOSS when eight in a row exceed 4 ns (R291). -/
def judgeAligned (s : State) : State :=
  if s.time.mode ≠ 4 then s
  else
    let ok := s.time.last8 fun e => decide (e ≤ 4)
    let s1 := { s with time := { s.time with aligned := ok } }
    if ok then causeEnds bTIME 4 s1
    else if s.time.last8 (fun e => decide (4 < e)) then onset { b := bTIME, src := 4 } s1
    else s1

/-- What the servo does with the measurement: a step of the GTC under AUTOSTEP, or a new TRIM (R286, R288). -/
def applyServo (e : Int) (s : State) : State :=
  if !s.time.servoEn then s
  else if s.time.autostep && !patLive s && decide (1000 < e.natAbs) then
    { s with clk := { s.clk with gtc := s.clk.gtc + BitVec.ofInt 64 e } }
  else { s with time := s.time.servo e }

/-- A measurement is accepted (R288, R291, R292, R293). -/
def measure (e0 : Int) (s : State) : State :=
  let e := clampE e0
  let s1 := judgeAligned (causeEnds bTIME 2 { s with time := s.time.accept e s.clk.ns })
  let s2 := applyServo e s1
  if patLive s && decide (10000 < e.natAbs) then fire { b := bTIME, src := 1 } s2 else s2

/-- A capture on a pin in PPS or SYNC mode with period `p` (R289). -/
def pinMeasure (capture : Gtc) (p : Nat) (s : State) : State :=
  let c : Int := (capture.toNat : Int) - s.time.ppsDelay.toInt
  let e := rneDiv c p * (p : Int) - c
  if patLive s && decide (1000000 < e.natAbs) then fire { b := bTIME, src := 3 } s else measure e s

/-- A rising edge of PPS_IN (R289). -/
def ppsEdge (s : State) : State :=
  let s1 := { s with time := { s.time with ppsCapt := s.clk.gtc } }
  if s.time.mode = 1 then pinMeasure s.clk.gtc 1000000000 s1 else s1

/-- PPS_IN_EDGE. -/
def execPpsInEdge (s : State) : Host.Outcome State Fault Refusal := run s ppsEdge

/-- A rising edge of SYNC_IN (R289). -/
def syncEdge (s : State) : State :=
  let s1 := { s with time := { s.time with syncCapt := s.clk.gtc } }
  if s.time.mode = 3 then pinMeasure s.clk.gtc s.time.syncPeriod s1 else s1

/-- SYNC_IN_EDGE. -/
def execSyncInEdge (s : State) : Host.Outcome State Fault Refusal := run s syncEdge

/-! ### Holdover -/

/-- Nanoseconds without an accepted measurement after which a mode enters holdover (R293). -/
def holdoverNs (t : TimeU) : Option Nat :=
  if t.mode = 1 then some 3000000000
  else if t.mode = 3 then some (3 * t.syncPeriod)
  else if t.mode = 2 then some 3000000000
  else if t.mode = 4 then some 100000
  else none

/-- Holdover begins (R293). -/
def holdover (s : State) : State :=
  match holdoverNs s.time with
  | none => s
  | some n =>
    if s.time.holdover then s
    else
      let s1 := passNs s (s.time.measAt + n - s.clk.ns)
      onset { b := bTIME, src := 2 } { s1 with time := { s1.time with holdover := true } }

/-- HOLDOVER_TIMEOUT. -/
def execHoldoverTimeout (s : State) : Host.Outcome State Fault Refusal := run s holdover

/-! ### Output pulses -/

/-- PPS_OUT is driven high for 100 µs from the next whole second (R289). -/
def ppsOut (s : State) : State :=
  if !s.time.ppsOutEn then s
  else
    let r := s.clk.gtc.toNat % 1000000000
    let s1 := passNs s (if r = 0 then 0 else 1000000000 - r)
    { s1 with time := { s1.time with ppsOutUntil := s1.clk.ns + 100000 } }

/-- PPS_OUT_PULSE. -/
def execPpsOutPulse (s : State) : Host.Outcome State Fault Refusal := run s ppsOut

/-- GTC counts until the next pulse of SYNC_OUT, if one is to come (R289). -/
def syncOutNs (s : State) : Option Nat :=
  let at_ := s.time.syncOutAt
  let past := (s.clk.gtc - at_).toNat
  if at_ = 0 then none
  else if past = 0 ∨ 2 ^ 63 ≤ past then some (at_ - s.clk.gtc).toNat
  else if s.time.syncOutPer then
    some (let r := past % s.time.syncPeriod; if r = 0 then 0 else s.time.syncPeriod - r)
  else none

/-- SYNC_OUT is driven high for 1 µs (R289). -/
def syncOut (s : State) : State :=
  match syncOutNs s with
  | none => s
  | some n =>
    let s1 := passNs s n
    { s1 with time := { s1.time with syncOutUntil := s1.clk.ns + 1000 } }

/-- SYNC_OUT_PULSE. -/
def execSyncOutPulse (s : State) : Host.Outcome State Fault Refusal := run s syncOut

/-- Level of PPS_OUT as the Time Unit gives it. -/
def ppsOutPin (s : State) : Bool := decide (s.clk.ns < s.time.ppsOutUntil)

/-- Level of SYNC_OUT as the Time Unit gives it. -/
def syncOutPin (s : State) : Bool := decide (s.clk.ns < s.time.syncOutUntil)

/-! ### Droop -/

/-- Time passes until a device-clock edge, where the detectors are sampled (R287). -/
def toEdge (s : State) : State := if s.clk.sub = 0 then s else passToCyc s (s.clk.cyc + 1)

/-- A droop event: the device cycle that begins at the edge lasts two periods, and the event is counted (R287, R295). -/
def droopEdge (s : State) : State :=
  let n := s.time.droopCur + 1
  let s1 := trace 0x09 0 (BitVec.ofNat 64 (min n 0xFFFF))
    { s with clk := { s.clk with stretch := 1 }, time := { s.time with droopCur := n } }
  if patActive s1 && n == 65 then fire { b := bTIME, src := 5 } s1 else s1

/-- Detector d asserts: it is sampled at the next edge, disarmed for 64 cycles, and makes a droop event, unless one has come at that
edge (R287; 21, R483). -/
def droop (d : Nat) (s : State) : State :=
  let s1 := toEdge s
  if s1.clk.cyc < s1.clk.droopArmAt.getD d 0 then s1
  else
    let s2 := { s1 with clk := { s1.clk with droopArmAt := putAt 0 s1.clk.droopArmAt d (s1.clk.cyc + 64) } }
    if s2.clk.stretch = 0 then droopEdge s2 else s2

/-- DROOP_EVENT. -/
def execDroopEvent (d : Fin 17) (s : State) : Host.Outcome State Fault Refusal := run s (droop d)

/-! ### Register writes with behaviour of their own -/

/-- A write of TIME_OFFSET_IN: a measurement in PTP mode, ignored otherwise (R290, Table 11.9). -/
def offsetIn (e : Word) (s : State) : State := if s.time.mode = 2 then measure e.toInt s else s

/-- TIME_OFFSET_IN_WRITE. -/
def execTimeOffsetInWrite (e : Word) (s : State) : Host.Outcome State Fault Refusal := run s (offsetIn e)

/-- A write of TIME_STEP_LO or TIME_STEP_HI (R292, Table 11.10). -/
def timeStep (hi : Bool) (v : Word) (s : State) : State :=
  if patLive s then liveWrite (if hi then 0x10011C else 0x100118) s
  else if hi then { s with clk := { s.clk with gtc := s.clk.gtc + BitVec.ofNat 64 (s.time.stepLo.toNat + v.toNat * 2 ^ 32) } }
  else { s with time := { s.time with stepLo := v } }

/-- TIME_STEP_WRITE. -/
def execTimeStepWrite (hi : Bool) (v : Word) (s : State) : Host.Outcome State Fault Refusal := run s (timeStep hi v)

/-- TIME_CTRL after a write: a reserved MODE leaves that field as it was (00, R13). -/
def TimeU.withCtrl (t : TimeU) (v : Word) (now : Nat) : TimeU :=
  let m := if fld v 2 0 ≤ 4 then fld v 2 0 else t.mode
  { t with mode := m, ptpPort := fld v 5 4, servoEn := bitAt v 7, autostep := bitAt v 8, upPort := fld v 10 9, iAcc := 0,
           measAt := if m = t.mode then t.measAt else now }

/-- TIME_CTRL_WRITE: MODE and SERVO_EN are written, so the integrator becomes 0 (R288). -/
def execTimeCtrlWrite (v : Word) (s : State) : Host.Outcome State Fault Refusal :=
  run s fun s => { s with time := s.time.withCtrl v s.clk.ns }

/-- TIME_TRIM after a write: ignored while SERVO_EN = 1 and beyond the range (R279, Table 11.9). -/
def TimeU.withTrim (t : TimeU) (v : Word) : TimeU :=
  if t.servoEn || decide (v.toInt < -trimMax) || decide (trimMax < v.toInt) then t else { t with trim := v.toInt }

/-- TIME_TRIM_WRITE. -/
def execTimeTrimWrite (v : Word) (s : State) : Host.Outcome State Fault Refusal :=
  run s fun s => { s with time := s.time.withTrim v }

end Sys2Proof.Machine
end

