-- ==== Sys2Proof/Machine/Regs.lean ====
section
/-!
DEFINITION. The register map of BAR0 (20, R467, R473) as it reads: the register behind every offset, in each block's own layout,
and the latch of a _LO and _HI pair (00, R10). Bits that a register table does not list read 0 (00, R13).
-/
namespace Sys2Proof.Machine

/-- The low and the high word of a 64-bit quantity. -/
def loW {w : Nat} (x : BitVec w) : Word := BitVec.ofNat 32 x.toNat
def hiW {w : Nat} (x : BitVec w) : Word := BitVec.ofNat 32 (x.toNat >>> 32)

/-- The low or high word of a 64-bit count. -/
def halfN (hi : Bool) (n : Nat) : Word := BitVec.ofNat 32 (if hi then n >>> 32 else n)

/-- The low or high word of a 64-bit register. -/
def half {w : Nat} (hi : Bool) (x : BitVec w) : Word := if hi then hiW x else loW x

/-- Word i of a table of registers that begins at `base`, each `n` words apart. -/
def regIdx (o base stride n : Nat) : Option Nat :=
  if base ≤ o ∧ (o - base) % stride = 0 ∧ (o - base) / stride < n then some ((o - base) / stride) else none

/-- An offset lies in a span of Table 20.5 (R467, R473). -/
def inSpan (o : Nat) : Bool :=
  decide (o < 0xC00000) || (decide (0x1000000 ≤ o) && decide (o < 0x2000000)) || (decide (0x3000000 ≤ o) && decide (o < 0x3002040))

/-- The fault-reporting block whose register set holds the offset, with the offset in the set (16, R394). -/
def fltBlockOf (o : Nat) : Option (Nat × Nat) :=
  if 0x1000000 ≤ o ∧ o < 0x2000000 then
    (if o % 0x100000 < 0x100 then some (bCC ((o - 0x1000000) / 0x100000), o % 0x100000) else none)
  else if 0x700000 ≤ o ∧ o < 0x704000 then
    (if o % 0x1000 < 0x100 then some (bHRN ((o - 0x700000) / 0x1000), o % 0x1000) else none)
  else if 0xB00000 ≤ o ∧ o < 0xB04000 then
    (if o % 0x1000 < 0x100 then some (bRSMP ((o - 0xB00000) / 0x1000), o % 0x1000) else none)
  else
    (([(0, bGLB), (0x100000, bTIME), (0x200000, bDISP), (0x300000, bDRU), (0x400000, bSIU), (0x500000, bFST), (0x580000, bKFS),
       (0x600000, bDRC), (0x780000, bPCI), (0x800000, bMGT), (0x900000, bRST), (0xA00000, bOBS)] : List (Nat × Nat)).find?
        fun x => decide (x.1 ≤ o) && decide (o < x.1 + 0x100)).map fun x => (x.2, o - x.1)

/-- The block is one of an absent core: its registers read 0 and ignore writes (16, R394; 20, R473). -/
def absentBlock (s : State) (b : Nat) : Bool := decide (20 ≤ b) && !present s (b - 20)

/-- The domain of the block at a BAR0 offset (17, Table 17.1). -/
def offDomain (o : Nat) : Nat :=
  if 0x1000000 ≤ o then (if o < 0x2000000 then dCore ((o - 0x1000000) / 0x100000) else 0)
  else
    match o / 0x100000 with
    | 4 => dSIU
    | 5 => dFST
    | 6 => dDRC
    | 7 => if o < 0x780000 then dHRN (o / 0x1000 % 4) else 0
    | 11 => dFST
    | _ => 0

/-- The register at a BAR0 offset lies in a domain that Minimal Recovery Mode holds in reset: it keeps its reset value (18, R436). -/
def heldOff (s : State) (o : Nat) : Bool := s.rst.minimal && offDomain o != 0

/-- A block's registers ignore writes: its core is absent, or Minimal Recovery Mode holds its domain in reset (18, R436). -/
def deadBlock (s : State) (b : Nat) : Bool := absentBlock s b || (s.rst.minimal && (blockDomain b).isSome && b != bPCI)

/-- Ten severity or floor slots of three bits (Table 16.3). -/
def slotsWord (b : Nat) (l : List Nat) (w : Nat) : Word :=
  BitVec.ofNat 32 (sumN ((List.range 10).map fun i => if slotUsed b (10 * w + i) then l.getD (10 * w + i) 0 * 2 ^ (3 * i) else 0))

/-- A register of a fault register set (Table 16.2). -/
def fltRead (s : State) (b r : Nat) : Word :=
  let f := fltAt s b
  if absentBlock s b then 0
  else if r = 0 then loW f.stat
  else if r = 4 then hiW f.stat
  else if r = 0x10 then fltLvl f
  else if r = 0x14 then f.info0
  else if r = 0x18 then f.info1
  else if r = 0x1C then f.info2
  else match regIdx r 0x20 4 7 with
  | some w => slotsWord b f.sev w
  | none =>
    match regIdx r 0x40 4 7 with
    | some w => slotsWord b f.floor w
    | none =>
      match regIdx r 0x80 4 32 with
      | some i => BitVec.ofNat 32 (f.cnt.getD (2 * i) 0 + f.cnt.getD (2 * i + 1) 0 * 65536)
      | none => 0

/-! ### GLB, TIME, DISP -/

/-- Present cores. -/
def coreCnt (s : State) : Nat := ((List.range 16).filter (present s)).length

/-- GRADE of GLB_ID (Table 20.6): 0x16, 0x12 or 0x08 from the number of present cores. -/
def gradeOf (n : Nat) : Nat := if n = 16 then 0x16 else if n = 12 then 0x12 else 0x08

/-- GLB_PAT_STATUS (Table 13.6). -/
def patStatus (g : Glb) : Word :=
  BitVec.ofNat 32 (g.patState + g.patSection * 16 + g.patReason * 2 ^ 8 + g.patDetail * 2 ^ 16)

/-- GLB_SAFE (Table 15.10). -/
def safeWord (g : Glb) : Word :=
  if g.safe then BitVec.ofNat 32 (2 ^ 31 + g.safeBlock * 2 ^ 8 + g.safeSource) else 0

def readGlb (s : State) (r : Nat) : Word :=
  let n := coreCnt s
  match r with
  | 0x100 => BitVec.ofNat 32 (0x16000000 + s.mgt.otp.dieRev.toNat * 256 + gradeOf n)
  | 0x104 => BitVec.ofNat 32 s.mgt.otp.corePresent.toNat
  | 0x108 => BitVec.ofNat 32 (4 * 2 ^ 28 + 4 * 2 ^ 24 + 48 * 2 ^ 16 + 8 * n * 2 ^ 8 + n)
  | 0x10C => BitVec.ofNat 32 (20 * 2 ^ 22 + 4 * 2 ^ 18 + (if s.drc.attached then 32 else 16) * 2 ^ 12 + 8 * 2 ^ 8 + 4 * 16 + 8)
  | 0x110 => loW s.mgt.otp.dieId
  | 0x114 => hiW s.mgt.otp.dieId
  | 0x118 => BitVec.ofNat 32 s.glb.irqEn.toNat
  | 0x200 => loW s.glb.patAddr
  | 0x204 => hiW s.glb.patAddr
  | 0x208 => BitVec.ofNat 32 s.glb.patReq.toNat
  | 0x210 => patStatus s.glb
  | 0x214 => s.glb.patternId
  | 0x300 => safeWord s.glb
  | _ => 0

/-- CFG of a record ring (Tables 10.17, 11.14, 12.9). -/
def Ring.cfg (k : Ring) : Word := BitVec.ofNat 32 (k.sizeLog2 + b2n k.en * 256)

/-- An index of a ring: bits at and above SIZE_LOG2 read 0 (Table 10.18). -/
def ringIdx (log2 i : Nat) : Word := BitVec.ofNat 32 (i % 2 ^ log2)

/-- TIME_CTRL (Table 11.8). -/
def timeCtrl (t : TimeU) : Word :=
  BitVec.ofNat 32 (t.mode + t.ptpPort * 16 + b2n t.servoEn * 128 + b2n t.autostep * 256 + t.upPort * 512)

/-- TIME_PIN_CFG (Table 11.11). -/
def pinCfg (t : TimeU) : Word :=
  BitVec.ofNat 32 (t.ppsDelay.toNat + b2n t.ppsOutEn * 65536 + b2n t.syncOutPer * 131072)

/-- TIME_STATUS (Table 11.12). -/
def timeStatus (t : TimeU) : Word :=
  BitVec.ofNat 32 (b2n t.locked * 8 + b2n t.disciplined * 16 + b2n t.holdover * 32 + b2n t.aligned * 64 + b2n t.active * 128 +
    b2n t.avsEn * 256 + b2n t.idleGate * 512 + t.perf * 1024)

def readTime (s : State) (r : Nat) : Word :=
  let t := s.time
  match r with
  | 0x100 => loW s.clk.gtc
  | 0x104 => hiW s.clk.gtc
  | 0x108 => timeCtrl t
  | 0x10C => BitVec.ofInt 32 t.trim
  | 0x110 => BitVec.ofNat 32 (t.kp + t.ki * 65536)
  | 0x120 => loW t.ppsCapt
  | 0x124 => hiW t.ppsCapt
  | 0x128 => loW t.syncCapt
  | 0x12C => hiW t.syncCapt
  | 0x130 => pinCfg t
  | 0x134 => BitVec.ofNat 32 t.syncPeriod
  | 0x138 => loW t.syncOutAt
  | 0x13C => hiW t.syncOutAt
  | 0x140 => timeStatus t
  | 0x144 => BitVec.ofInt 32 t.lastOffset
  | 0x148 => halfN false t.tick
  | 0x14C => halfN true t.tick
  | 0x150 => loW t.launch
  | 0x154 => hiW t.launch
  | 0x158 => BitVec.ofNat 32 t.period
  | 0x15C => BitVec.ofNat 32 (min t.droopCur 0xFFFF + min t.droopLast 0xFFFF * 65536)
  | 0x180 => loW t.rring.base
  | 0x184 => hiW t.rring.base
  | 0x188 => t.rring.cfg
  | 0x18C => ringIdx t.rring.sizeLog2 t.rring.head
  | 0x190 => ringIdx t.rring.sizeLog2 t.rring.tail
  | _ =>
    match regIdx r 0x160 4 8 with
    | some i => half (i % 2 == 1) (t.epadj.getD (i / 2) 0)
    | none =>
      match regIdx r 0x200 4 32 with
      | some i => let g := t.stages.getD (i / 2) (0, 0); BitVec.ofNat 32 (if i % 2 = 0 then g.1 else g.2)
      | none => 0

/-- SUB_RING_STATUS (Table 12.8). -/
def subStatus (k : SubRing) : Word :=
  match k.job with
  | some j => BitVec.ofNat 32 (65536 + j.next % 4096)
  | none => 0

/-- A register of ring n (Tables 12.8 and 12.9). -/
def readRing (s : State) (n r : Nat) : Word :=
  let k := subAt s n
  let q := s.disp.cpl.getD n {}
  match r with
  | 0x00 => loW k.base
  | 0x04 => hiW k.base
  | 0x08 => BitVec.ofNat 32 (k.sizeLog2 + b2n k.en * 256 + k.part * 512)
  | 0x0C => ringIdx k.sizeLog2 k.head
  | 0x10 => BitVec.ofNat 32 k.tail
  | 0x14 => k.highSeq
  | 0x18 => loW q.base
  | 0x1C => hiW q.base
  | 0x20 => q.cfg
  | 0x24 => ringIdx q.sizeLog2 q.head
  | 0x28 => ringIdx q.sizeLog2 q.tail
  | 0x2C => subStatus k
  | _ => 0

def readDisp (s : State) (r : Nat) : Word :=
  let d := s.disp
  match r with
  | 0x100 => BitVec.ofNat 32 (sumN ((List.range 8).map fun n => if (subAt s n).job.isSome then 2 ^ n else 0) +
      sumN ((List.range 4).map fun p => if lcOccupied s p then 2 ^ (8 + p) else 0))
  | 0x104 => BitVec.ofNat 32 d.slice.2
  | 0x108 => BitVec.ofNat 32 d.grace.2
  | 0x10C => BitVec.ofNat 32 d.retired.toNat
  | _ =>
    match regIdx r 0x110 4 4 with
    | some p => BitVec.ofNat 32 (d.parts.getD p 0).toNat
    | none => if 0x1000 ≤ r ∧ r < 0x1200 then readRing s ((r - 0x1000) / 0x40) (r % 0x40) else 0

/-! ### DRU, SIU, KFS, DRC, HRN -/

/-- DRU_DOMd_STATUS (Table 17.9): of an absent core's domain PHASE alone. -/
def domStatus (s : State) (d : Nat) : Word :=
  let k := domAt s d
  if 1 ≤ d ∧ d ≤ 16 ∧ !present s (d - 1) then 6
  else BitVec.ofNat 32 (k.phase + k.gen * 256 + min k.restarts 255 * 65536)

def readDru (s : State) (r : Nat) : Word :=
  if r = 0x104 then BitVec.ofNat 32 (s.dru.last.toNat + b2n s.dru.armed * 65536 + s.dru.missed * 2 ^ 18)
  else match regIdx r 0x204 4 24 with
  | some i => domStatus s (i + 1)
  | none => 0

def readSiu (s : State) (r : Nat) : Word :=
  let c := s.siu.cring
  let t := s.siu.tring
  match r with
  | 0x100 => loW c.base
  | 0x104 => hiW c.base
  | 0x108 => c.cfg
  | 0x10C => ringIdx c.sizeLog2 c.head
  | 0x110 => ringIdx c.sizeLog2 c.tail
  | 0x120 => loW t.base
  | 0x124 => hiW t.base
  | 0x128 => t.cfg
  | 0x12C => ringIdx t.sizeLog2 t.head
  | 0x130 => ringIdx t.sizeLog2 t.tail
  | 0x140 => BitVec.ofNat 32 s.siu.unclaimedCsi
  | 0x144 => BitVec.ofNat 32 s.siu.unclaimedEth
  | _ =>
    match regIdx r 0x1000 4 384 with
    | some i => BitVec.ofNat 32 ((s.siu.shadow.getD (i / 8) tuneReset).toNat >>> (32 * (i % 8)))
    | none => 0

def readKfs (s : State) (r : Nat) : Word :=
  match r with
  | 0x100 => BitVec.ofNat 32 (s.kfs.pitch + s.kfs.ageEpoch * 65536)
  | 0x104 => BitVec.ofNat 32 (s.kfs.gen + b2n s.kfs.flushPend * 256 + b2n s.kfs.walkEnd.isSome * 512 + min s.kfs.depth 16 * 1024)
  | 0x10C => BitVec.ofNat 32 s.kfs.occ
  | _ =>
    match regIdx r 0x120 4 16 with
    | some n => BitVec.ofNat 32 (s.kfs.layers.getD n 0).toNat
    | none => 0

def readDrc (s : State) (r : Nat) : Word :=
  if r = 0x100 then
    BitVec.ofNat 32 (b2n s.drc.attached + b2n (dramUp s) * 16 + b2n s.drc.selfRefresh * 32 + (if dramUp s then 0xF00 else 0))
  else 0

/-- A register of Harness port n (Tables 14.11 and 14.12). -/
def readPort (s : State) (n r : Nat) : Word :=
  let p := portAt s n
  match r with
  | 0x100 => BitVec.ofNat 32 (b2n (p.up && portAwake s n) + b2n p.down * 2 + b2n p.retraining * 4 + b2n p.reversed * 8 + p.inv.toNat * 256 +
      b2n p.identOk * 2 ^ 20 + p.peer * 2 ^ 21)
  | 0x104 => BitVec.ofNat 32 p.replays
  | 0x108 => BitVec.ofNat 32 p.delay
  | _ => 0

def readHrn (s : State) (r : Nat) : Word :=
  if r < 0x4000 then readPort s (r / 0x1000) (r % 0x1000)
  else if r = 0x8400 then BitVec.ofNat 32 s.hrn.logIdx
  else match regIdx r 0x8000 4 256 with
  | some i => BitVec.ofNat 32 ((s.hrn.log.getD (i / 4) 0).toNat >>> (32 * (i % 4)))
  | none => 0

/-! ### PCI, MGT, RST, OBS -/

def readPci (s : State) (r : Nat) : Word :=
  if r = 0x100 then
    BitVec.ofNat 32 (s.pci.speed.toNat + s.pci.width.toNat * 256 + b2n s.pci.dlActive * 65536 + b2n s.pci.bme * 2 ^ 17 +
      b2n s.pci.d3hot * 2 ^ 18)
  else if r = 0x104 then BitVec.ofNat 32 s.pci.replays
  else 0

/-- A key digest that is programmed: not all zero (19, Table 19.2). -/
def keySet (k : List Byte) : Bool := k.any (· != 0)

/-- MGT_LIFECYCLE (Table 19.13). -/
def lifecycleWord (s : State) : Word :=
  let m := s.mgt
  BitVec.ofNat 32 (lifecycle s + b2n (keySet m.otp.fwKey) * 4 + b2n (keySet m.otp.patKey) * 8 + m.otp.svn * 256 + b2n m.slot * 65536 +
    b2n m.trial * 131072 + b2n m.fallback * 262144 + m.otp.dieRev.toNat * 2 ^ 24)

def readMgt (s : State) (r : Nat) : Word :=
  let m := s.mgt
  match r with
  | 0x100 => m.cmd
  | 0x118 => BitVec.ofNat 32 (b2n m.busy + b2n m.done * 2 + b2n m.overrun * 4 + m.result * 256 + m.stTag.toNat * 65536)
  | 0x500 => lifecycleWord s
  | _ =>
    match regIdx r 0x104 4 4 with
    | some i => m.args.getD i 0
    | none =>
      match regIdx r 0x11C 4 4 with
      | some i => m.rsp.getD i 0
      | none =>
        match regIdx r 0x400 4 24 with
        | some i => m.temps.getD i 0
        | none =>
          match regIdx r 0x480 4 12 with
          | some i => m.vmon.getD i 0
          | none => if 0x1000 ≤ r ∧ r < 0x2000 then BitVec.ofNat 32 (m.buf.rdLe (r - 0x1000) 4) else 0

/-- RST_STATUS (Table 18.7). -/
def rstStatus (t : Rst) : Word :=
  BitVec.ofNat 32 (t.phase + b2n t.cause * 8 + b2n t.minimal * 16 + b2n t.ready * 256 + b2n t.resumed * 512 + b2n t.late * 1024 +
    b2n t.xtalLost * 2048 + t.attemptsAtStart * 65536)

def readRst (s : State) (r : Nat) : Word :=
  let t := s.rst
  match r with
  | 0x100 => rstStatus t
  | 0x104 => BitVec.ofNat 32 (b2n t.resumeEn * 2 + b2n t.pinHold * 4)
  | 0x108 => BitVec.ofNat 32 t.startLimit
  | 0x10C => BitVec.ofNat 32 t.shortCnt
  | 0x110 => loW t.gtcAtAssert
  | 0x114 => hiW t.gtcAtAssert
  | 0x118 => t.holdXtal
  | _ =>
    match regIdx r 0x200 4 16 with
    | some i => t.bkup.getD i 0
    | none => 0

/-- Cycles of a run, a swatch or a wait for queue room in progress, which the core's counters hold beside those that have ended. -/
def liveCount (s : State) (c kind : Nat) : Nat :=
  let k := coreAt s c
  let ran := fun (lc : Bool) => match k.st.run with
    | some r => if r.phase = .running ∧ r.lc = lc then s.clk.cyc - r.start else 0
    | none => 0
  match kind with
  | 0 => ran true
  | 1 => ran false
  | 2 => (k.st.swatchAt.map fun t => s.clk.cyc - t).getD 0
  | 4 => (k.sq.blockedAt.map fun t => s.clk.cyc - t).getD 0
  | _ => 0

/-- An Observation Unit counter (Table 19.9): its value by the offset of its low word. -/
def obsCounter (s : State) (r : Nat) : Option Nat :=
  match r with
  | 0x200 => some s.obs.fstLc
  | 0x208 => some s.obs.fstBe
  | 0x210 => some s.obs.dramRd
  | 0x218 => some s.obs.dramWr
  | _ =>
    match regIdx r 0x220 8 4 with
    | some n => some (s.obs.txFlits.getD n 0)
    | none =>
      if 0x1000 ≤ r ∧ r < 0x1400 ∧ r % 0x40 < 0x28 ∧ r % 8 = 0 then
        let c := (r - 0x1000) / 0x40
        some (if present s c then (coreAt s c).st.obs.getD (r % 0x40 / 8) 0 + liveCount s c (r % 0x40 / 8) else 0)
      else none

def readObs (s : State) (r : Nat) : Word :=
  let o := s.obs
  match r with
  | 0x100 => BitVec.ofNat 32 (o.typeEn.toNat + o.bundleCores.toNat * 65536)
  | 0x104 => BitVec.ofNat 32 (b2n o.ring + b2n o.pins * 2)
  | 0x108 => BitVec.ofNat 32 (o.wptr + b2n o.wrapped * 2 ^ 31)
  | 0x10C => BitVec.ofNat 32 o.lost
  | _ =>
    match obsCounter s (r - r % 8) with
    | some n => halfN (r % 8 == 4) n
    | none => 0

/-! ### RSMP and cores -/

/-- A reservation of sampler u is open, or opens within 64 cycles (05, R136, Table 5.6). -/
def resvNear (s : State) (u : Nat) : Bool :=
  patActive s && (stages s).any fun x =>
    x.2.compute && x.2.rsmp.testBit u && decide (x.2.openNs ≤ offNs s + cycNs s 64) && decide (offNs s < x.2.closeNs)

/-- RSMPn_STATUS.STATE (Table 5.6). -/
def rsmpState (k : Rsmp) : Nat :=
  match k.serving with
  | some q => if q.lc then 1 else 2
  | none => if k.paused.isSome then 3 else 0

def readRsmp (s : State) (r : Nat) : Word :=
  if 0x4000 ≤ r then 0
  else
    let u := r / 0x1000
    let k := rsmpAt s u
    if r % 0x1000 = 0x100 then
      BitVec.ofNat 32 (rsmpState k + b2n (resvNear s u) * 4 + b2n k.paused.isSome * 8 + min k.depth 16 * 256)
    else if r % 0x1000 = 0x104 then BitVec.ofNat 32 k.outside
    else 0

/-- CCn_STATUS.STATE (03, Table 3.9; 17, Table 17.9). -/
def coreState (s : State) (c : Nat) : Nat :=
  let k := (coreAt s c).st
  if !present s c then 0
  else if isRetired s c then 6
  else if 1 ≤ (domAt s (dCore c)).phase ∧ (domAt s (dCore c)).phase ≤ 5 then 5
  else if k.swatchAt.isSome then 2
  else match k.run with
  | some r => if r.lc then 3 else 4
  | none => 1

/-- A bank of the core holds an open chain. -/
def chainOpen (k : Core) : Bool := k.mx.banks.any fun b => b.chain.isSome

/-- Transients of a unit in the last 1,000 ticks, 0 to 2 (15, Table 15.7, R375). -/
def transients (s : State) (c u : Nat) : Nat :=
  (((coreAt s c).st.trans.getD u []).filter fun t => decide (s.time.tick ≤ t + 999)).length

/-- CCn_SAFETY_STATUS (Table 15.7). -/
def safetyStatus (s : State) (c : Nat) : Word :=
  let k := (coreAt s c).st
  BitVec.ofNat 32 (b2n k.swPass + k.swFail * 2 + b2n ((k.run.bind Run.replay).isSome) * 16 +
    sumN ((List.range 6).map fun u => transients s c u * 2 ^ (8 + 2 * u)))

/-- CCn_CMD_ELAPSED (06, Table 6.10). -/
def cmdElapsed (s : State) (c : Nat) : Nat :=
  match (coreAt s c).st.run with
  | some r => if r.phase = .running then min 0xFFFFFFFF (s.clk.cyc - r.start) else 0
  | none => 0

def readCore (s : State) (c r : Nat) : Word :=
  let k := coreAt s c
  if !present s c then 0
  else match r with
  | 0x100 => BitVec.ofNat 32 (coreState s c + b2n (chainOpen k) * 16 + (domAt s (dCore c)).gen * 256)
  | 0x104 => BitVec.ofNat 32 k.st.cmdCycles
  | 0x108 => BitVec.ofNat 32 (k.sq.qv.length + k.sq.qm.length * 2 ^ 5 + k.sq.ql.length * 2 ^ 10 + k.sq.qs.length * 2 ^ 15 +
      k.sq.qy.length * 2 ^ 20)
  | 0x10C => k.st.skipInfo
  | 0x110 => BitVec.ofNat 32 k.st.skipCount
  | 0x114 => BitVec.ofNat 32 (cmdElapsed s c)
  | 0x120 => safetyStatus s c
  | 0x124 => k.st.swSig
  | 0x128 => (k.st.inj &&& 0x0FFFFF80) ||| (if k.st.injArmed then 2 else 0)
  | _ => 0

/-! ### MSI-X and the whole map -/

/-- The MSI-X table and PBA (R471). PRESUMED PCI Express layout, entry 33. -/
def readMsix (s : State) (r : Nat) : Word :=
  if r < 0x2000 then
    let e := msixAt s (r / 16)
    match r % 16 with
    | 0 => loW e.addr
    | 4 => hiW e.addr
    | 8 => e.data
    | 12 => BitVec.ofNat 32 (b2n e.mask)
    | _ => 0
  else BitVec.ofNat 32 (s.pci.pba.toNat >>> (8 * (r - 0x2000)))

/-- The register at a BAR0 offset, as it stands. -/
def readReg (s : State) (o : Nat) : Word :=
  match fltBlockOf o with
  | some (b, r) => fltRead s b r
  | none =>
    if 0x3000000 ≤ o then (if inSpan o then readMsix s (o - 0x3000000) else 0)
    else if 0x1000000 ≤ o then readCore s ((o - 0x1000000) / 0x100000) (o % 0x100000)
    else
      match o / 0x100000 with
      | 0 => readGlb s o
      | 1 => readTime s (o - 0x100000)
      | 2 => readDisp s (o - 0x200000)
      | 3 => readDru s (o - 0x300000)
      | 4 => readSiu s (o - 0x400000)
      | 5 => if o < 0x580000 then 0 else readKfs s (o - 0x580000)
      | 6 => readDrc s (o - 0x600000)
      | 7 => if o < 0x780000 then readHrn s (o - 0x700000) else readPci s (o - 0x780000)
      | 8 => readMgt s (o - 0x800000)
      | 9 => readRst s (o - 0x900000)
      | 10 => readObs s (o - 0xA00000)
      | 11 => readRsmp s (o - 0xB00000)
      | _ => 0

/-- The offset is that of a _LO register: its _HI register follows it (R10). -/
def isLo (o : Nat) : Bool :=
  [0x108, 0x110, 0x200, 0x100100, 0x100120, 0x100128, 0x100138, 0x100148, 0x100150, 0x100160, 0x100168, 0x100170, 0x100178,
   0x100180, 0x400100, 0x400120, 0x900110].contains o ||
    (decide (0x201000 ≤ o) && decide (o < 0x201200) && (o % 0x40 == 0 || o % 0x40 == 0x18)) ||
    (decide (0xA00200 ≤ o) && decide (o < 0xA00240) && o % 8 == 0) ||
    (decide (0xA01000 ≤ o) && decide (o < 0xA01400) && o % 8 == 0 && decide (o % 0x40 < 0x28))

/-- A read by the host or by the management processor: a _LO register latches its _HI register for that requester, and the
next read of the _HI register returns what was latched (R10, R467). Answers the data. -/
def readBy (mgt : Bool) (o : Nat) (s : State) : State × Word :=
  let latch := if mgt then s.loMgt else s.loHost
  let put := fun (l : List (Nat × Word)) => if mgt then { s with loMgt := l } else { s with loHost := l }
  if isLo o then (put (assocPut latch (o + 4) (readReg s (o + 4))), readReg s o)
  else match assoc latch o with
  | some v => (put (latch.filter fun e => e.1 != o), v)
  | none => (s, readReg s o)

/-! ### Host answers -/

/-- A host read is answered as Unsupported Request (R470). -/
def answerUr (s : State) : State :=
  fire { b := bPCI, src := 4 } { s with pci := { s.pci with ans := { ur := true } } }

/-- The error message of a posted Unsupported Request, as the reporting settings direct (R470; PRESUMED PCI Express, entry 33). -/
def Pci.urMsg (p : Pci) : Option PciErr :=
  if p.aer.urMask || !p.cfg.urEn then none
  else if p.aer.urFatal then (if p.cfg.fatalEn then some .fatal else none)
  else if p.cfg.nonFatalEn then some .nonFatal
  else none

/-- The function's own record of a posted Unsupported Request, and its message (R470). -/
def Pci.signalUr (p : Pci) : Pci := { p with urSeen := true, lastErr := p.urMsg.or p.lastErr }

/-- A host write is an Unsupported Request: it is posted, so no completion is returned, and the error is signalled (R470). -/
def postedUr (s : State) : State := fire { b := bPCI, src := 4 } { s with pci := s.pci.signalUr }

/-- The host's requests reach the device (R462; 17, Table 17.3). -/
def hostReaches (s : State) : Bool := s.pci.dlActive && inService s dPCI

/-- The function claims memory requests: in D0, its BARs assigned (R464). -/
def barsOn (s : State) : Bool := !s.pci.d3hot && s.pci.configured

/-- A read of a register uses it, and checks its parity bit (15, R385; other uses DESIGN CHOICE, entry 75). -/
def useReg (o : Nat) (s : State) : State :=
  if s.glb.badRegs.contains o then
    fire { b := bGLB, src := 4 } { s with glb := { s.glb with badRegs := s.glb.badRegs.filter (· != o) } }
  else s

/-- A write of a register sets its parity bit anew. -/
def freshReg (o : Nat) (s : State) : State :=
  if s.glb.badRegs.contains o then { s with glb := { s.glb with badRegs := s.glb.badRegs.filter (· != o) } } else s

/-- A request for `n` DWORDs of BAR0 at `o` is accepted: aligned, one or two DWORDs, every byte enable set, inside the spans (R467). -/
def accepts (o n : Nat) (full : Bool) : Bool :=
  full && o % 4 == 0 && (n == 1 || n == 2) && (List.range n).all fun i => inSpan (o + 4 * i)

/-- `n` registers read in ascending order, each used (R467). Answers the data. -/
def readRegs (mgt : Bool) (o : Nat) : Nat → State → State × List Byte
  | 0, s => (s, [])
  | n + 1, s =>
    let r := readBy mgt o (useReg o s)
    let t := readRegs mgt (o + 4) n r.1
    (t.1, leBytes 4 r.2.toNat ++ t.2)

/-- A read of `n` DWORDs of BAR0 by the host (R467), or by the management processor, which needs no link. -/
def regRead (mgt : Bool) (o n : Nat) (full : Bool) (s : State) : State :=
  if mgt then (if accepts o n full then (readRegs true o n s).1 else s)
  else if !hostReaches s then s
  else if !barsOn s || !accepts o n full then answerUr s
  else
    let r := readRegs false o n s
    { r.1 with pci := { r.1.pci with ans := { data := r.2 } } }

/-- LO_REGISTER_READ. -/
def execLoRegisterRead (mgt : Bool) (off : BitVec 26) (n : Nat) (full : Bool) (s : State) : Host.Outcome State Fault Refusal :=
  run s (regRead mgt off.toNat n full)

end Sys2Proof.Machine
end

