-- ==== Sys2Proof/Machine/Firmware.lean ====
section
/-!
DEFINITION. What the boot ROM and the management firmware keep and check: boot descriptors and firmware slots (19, R445 to R447), the
retained record (18, R430), and the counts of the lifetime record (19, R451, R452).
-/
namespace Sys2Proof.Machine

/-! ### Boot descriptor -/

/-- A boot descriptor: SEQ, PREF, TRIAL (R445). -/
structure BootDesc where
  seq : Nat
  pref : Nat
  trial : Bool
  deriving DecidableEq, Repr

/-- Copy i of the boot descriptor, if it is valid. -/
def bootCopy (m : Mgt) (i : Nat) : Option BootDesc :=
  let bs := m.flash.rdN (0x10000 * i) 16
  if slice bs 0 4 == [0x42, 0x54, 0x44, 0x53] && (crc32c (bs.take 12)).toNat == leAt bs 12 4
  then some { seq := leAt bs 4 4, pref := leAt bs 8 1 % 2, trial := leAt bs 9 1 == 1 } else none

/-- The copy that governs, with its number: the valid one with the higher SEQ. -/
def governing (m : Mgt) : Option (Nat × BootDesc) :=
  match bootCopy m 0, bootCopy m 1 with
  | some a, some b => if a.seq < b.seq then some (1, b) else some (0, a)
  | some a, none => some (0, a)
  | none, some b => some (1, b)
  | none, none => none

/-- PREF and TRIAL (R445): 0 when no copy is valid. -/
def bootChoice (m : Mgt) : Nat × Bool :=
  match governing m with
  | some (_, d) => (d.pref, d.trial)
  | none => (0, false)

/-- A descriptor written in place of the copy with the lower SEQ (R445). -/
def writeDesc (pref : Nat) (trial : Bool) (m : Mgt) : Mgt :=
  let (i, seq) := match governing m with
    | some (k, d) => (1 - k, d.seq + 1)
    | none => (0, 1)
  let head : List Byte := [0x42, 0x54, 0x44, 0x53] ++ leBytes 4 seq ++ leBytes 1 pref ++ leBytes 1 (b2n trial) ++ leBytes 2 0
  (m.eraseSector (0x10000 * i)).program (0x10000 * i) (head ++ leBytes 4 (crc32c head).toNat)

/-! ### Firmware slots -/

/-- The slot holds the image the part is delivered with. -/
def isDelivered (m : Mgt) (slot : Nat) : Bool := slot == 0 && m.delivered == 0xFFFFFFFFFFFFFFFF

/-- The header of a slot's image is as Table 19.5 says. -/
def headerOk (bs : List Byte) : Bool :=
  slice bs 0 4 == [0x54, 0x48, 0x46, 0x57] && leAt bs 4 2 == 1 && decide (leAt bs 6 1 ≤ 64) && leAt bs 7 1 == 0 &&
    decide (1 ≤ leAt bs 8 4) && decide (leAt bs 8 4 ≤ 786432) && (slice bs 48 80).all (· == 0)

/-- The public key of a slot is the firmware key, and its signature verifies; skipped in MANUFACTURING with no key (R447). -/
def keyOk (s : State) (bs : List Byte) : Bool :=
  (lifecycle s == 0 && !keySet s.mgt.otp.fwKey) ||
    (sha256 (slice bs 128 64) == s.mgt.otp.fwKey && ecdsaVerify (slice bs 128 64) (slice bs 192 64) (bs.take 192))

/-- BODY_LEN, SVN and FW_VER of a slot's image. -/
def slotLen (s : State) (slot : Nat) : Nat := leAt (flashBytes s.mgt (slotBase slot + 8) 4) 0 4
def slotSvn (s : State) (slot : Nat) : Nat := leAt (flashBytes s.mgt (slotBase slot + 6) 1) 0 1
def slotVer (s : State) (slot : Nat) : Word := BitVec.ofNat 32 (leAt (flashBytes s.mgt (slotBase slot + 12) 4) 0 4)

/-- The body of a slot's image. -/
def slotBody (s : State) (slot : Nat) : List Byte := flashBytes s.mgt (slotBase slot + 256) (slotLen s slot)

/-- Header and BODY_HASH of a slot's image are right: of the image as delivered they are so as it is made (entry 8). -/
def imageOk (s : State) (slot : Nat) : Bool :=
  isDelivered s.mgt slot ||
    (headerOk (flashBytes s.mgt (slotBase slot) 256) && sha256 (slotBody s slot) == flashBytes s.mgt (slotBase slot + 16) 32)

/-- Verification of a slot (R447): 0 OK, 4 AUTH, 5 ROLLBACK. -/
def verifySlot (s : State) (slot : Nat) : Nat :=
  if !keyOk s (flashBytes s.mgt (slotBase slot) 256) || !imageOk s slot then 4
  else if slotSvn s slot < s.mgt.otp.svn then 5
  else 0

/-- FW_DIGEST of a slot's image (18, Table 18.3). -/
def slotDigest (s : State) (slot : Nat) : List Byte := sha256 (flashBytes s.mgt (slotBase slot) (256 + slotLen s slot))

/-! ### The retained record -/

/-- The time configuration as the record holds it (18, Table 18.3). -/
def timeCfgWords (t : TimeU) : List Word :=
  [timeCtrl t, BitVec.ofNat 32 (t.kp + t.ki * 65536), BitVec.ofInt 32 t.trim, pinCfg t, BitVec.ofNat 32 t.syncPeriod] ++
    t.epadj.flatMap fun e => [loW e, hiW e]

/-- The snapshot of an assertion point (18, R430). -/
def snapshot (s : State) : RetRec :=
  { patAddr := s.glb.patAddr, patternId := s.glb.patternId
    patState := if (s.mgt.rec_.map RetRec.patState) = some 0xFF ∧ s.glb.patState = 0 then 0xFF else s.glb.patState
    launch := s.time.launch, period := s.time.period
    timeCfg := timeCfgWords s.time
    captures := (List.range 36).flatMap fun b => let f := fltAt s b; [f.info0, f.info1, f.info2, fltLvl f]
    safe := safeWord s.glb }

/-- Bytes of 32-bit words. -/
def wordBytes (ws : List Word) : List Byte := ws.flatMap fun w => leBytes 4 w.toNat

/-- Bytes padded with zeros to a length. -/
def padTo (n : Nat) (bs : List Byte) : List Byte := (bs ++ List.replicate n 0).take n

/-- TRAINING: the results of the last training of DRAM, if there has been one. -/
def trainingBytes (m : Mgt) : List Byte :=
  if m.training then (List.range 1024).map Config.trainingByte else m.retained.rdN 8 1024

/-- Bytes 8 to 4,095 of the record. -/
def recordBody (m : Mgt) (r : RetRec) : List Byte :=
  trainingBytes m ++ leBytes 8 r.patAddr.toNat ++ leBytes 4 r.patternId.toNat ++ leBytes 1 r.patState ++ leBytes 3 0 ++
    leBytes 8 r.launch.toNat ++ leBytes 8 r.period ++ padTo 64 (wordBytes r.timeCfg) ++ padTo 576 (wordBytes r.captures) ++
    leBytes 4 r.safe.toNat ++ padTo 32 m.digest ++ m.retained.rdN 1740 2356

/-- The first 4 KiB while the record is not valid: training results and digest stand in it (R430). -/
def looseRecord (s : State) : List Byte :=
  let m := s.mgt
  m.retained.rdN 0 8 ++ trainingBytes m ++ m.retained.rdN 1032 676 ++ (if m.digest.isEmpty then m.retained.rdN 1708 32 else padTo 32 m.digest) ++
    m.retained.rdN 1740 2356

/-- The first 4 KiB of the retained SRAM. -/
def recordBytes (s : State) : List Byte :=
  match s.mgt.rec_ with
  | none => looseRecord s
  | some r =>
    let body := recordBody s.mgt r
    [0x52, 0x54, 0x4E, 0x52] ++ leBytes 4 (crc32c body).toNat ++ body

/-- The count of the lifetime record that a byte of Table 19.8 belongs to: its offset and width. -/
def lifeField (o : Nat) : Option (Nat × Nat) :=
  if o < 64 ∨ (984 ≤ o ∧ o < 1024) ∨ 10240 ≤ o then none
  else if o < 72 ∨ (496 ≤ o ∧ o < 536) then some (o / 8 * 8, 8)
  else some (o / 4 * 4, 4)

/-- A byte of the counts not yet written to flash, which stand in the retained SRAM from 0x1000 (R451), laid out as Table 19.8
(DESIGN CHOICE, entry 7). -/
def pendingByte (m : Mgt) (o : Nat) : Byte :=
  match lifeField o with
  | some (a, w) => BitVec.ofNat 8 ((m.life.rdLe a w - m.lifeFlash.rdLe a w) / 256 ^ (o - a))
  | none => 0

/-- The retained SRAM as it reads: the record, the pending counts, and the rest as it stands. -/
def retainedBytes (s : State) (a n : Nat) : List Byte :=
  let head := if a < 4096 then recordBytes s else []
  (List.range n).map fun i =>
    let o := a + i
    if o < 4096 then head.getD o 0 else if o < 4096 + 10240 then pendingByte s.mgt (o - 4096) else s.mgt.retained.rd o

/-! ### The lifetime record -/

/-- SEQ of lifetime copy i, if the copy is valid. -/
def lifeCopySeq (m : Mgt) (i : Nat) : Option Nat :=
  let a := lifeCopy i
  if m.flash.rdN a 4 == [0x4C, 0x46, 0x54, 0x52] && m.flash.rdLe (a + 4) 2 == 1 &&
      (crc32c (m.flash.rdN (a + 16) 10224)).toNat == m.flash.rdLe (a + 12) 4
  then some (m.flash.rdLe (a + 8) 4) else none

/-- The valid copy with the highest SEQ: its number and SEQ. -/
def lastCopy (m : Mgt) : Option (Nat × Nat) :=
  (List.range 8).foldl (fun (best : Option (Nat × Nat)) i =>
    match lifeCopySeq m i, best with
    | some q, some (_, b) => if b < q then some (i, q) else best
    | some q, none => some (i, q)
    | none, _ => best) none

/-- The counts of a lifetime copy. -/
def lifeRead (m : Mgt) (i : Nat) : Mem := ({} : Mem).wrN 24 (m.flash.rdN (lifeCopy i + 24) 10216)

/-- The lifetime record as a start takes it from the flash; a valid retained record keeps the counts of the SRAM (R451). -/
def lifeStart (m : Mgt) : Mgt :=
  if m.rec_.isSome then m
  else match lastCopy m with
  | some (i, q) => { m with life := lifeRead m i, lifeFlash := lifeRead m i, lifeSeq := q }
  | none => { m with life := {}, lifeFlash := {}, lifeSeq := 0 }

/-- The firmware adds in what the fault counters have gained since it last read them, and the tenth of a second that has passed
(R451, Table 19.8). -/
def lifeSecond (s : State) : State :=
  let st := if patActive s then 1 + s.time.perf else 0
  let hot := (s.mgt.temps.filter fun t => bitAt t 31).map fun t => signedOf 16 t.toNat
  let s1 := lifeAdd (72 + 4 * st) 4 1 (lifeAdd 64 8 1 s)
  match hot with
  | [] => s1
  | x :: xs => lifeAdd (88 + 4 * (clampI ((xs.foldl max x + 640) / 80) 0 31).toNat) 4 1 s1

/-- Increases of one block's counters. -/
def lifeBlock (s : State) (b : Nat) : State :=
  let last := s.mgt.lifeCnt.getD b []
  ((fltAt s b).cnt.mapIdx fun i n => (i, n - last.getD i 0)).foldl (fun s x =>
    let s1 := lifeAdd (1024 + 256 * b + 4 * x.1) 4 x.2 s
    if 20 ≤ b ∧ x.1 = 7 then lifeAdd (920 + 4 * (b - 20)) 4 x.2 s1 else s1) s

/-- Every 100 ms (R451); in Minimal Recovery Mode no firmware runs. -/
def lifeUpdate (s : State) : State :=
  if s.rst.minimal then s
  else
    let s1 := (List.range 36).foldl lifeBlock s
    let s2 := { s1 with mgt := { s1.mgt with lifeCnt := s.flt.map FltBlock.cnt, lifeTenths := (s.mgt.lifeTenths + 1) % 10 } }
    if s.mgt.lifeTenths = 9 then lifeSecond s2 else s2

/-- LIFETIME_COUNT_UPDATE. -/
def execLifetimeCountUpdate (s : State) : Host.Outcome State Fault Refusal := run s lifeUpdate

/-- LIFETIME_FLASH_WRITE. -/
def execLifetimeFlashWrite (s : State) : Host.Outcome State Fault Refusal := run s lifeWrite

end Sys2Proof.Machine
end

