-- ==== Sys2Proof/Machine/FrontEnd.lean ====
section
/-!
DEFINITION. The tannery's datapaths as functions: stream parameters (10, Table 10.14; 13, R331), unpacking (Table 10.7), the
raw-image front end (R249 to R251), the geometric stage (R252, R253), conversion and packing (R255, R256), parser templates and
points (R258, R259), the packed-tile format (R265 to R268).
-/
namespace Sys2Proof.Machine

/-! ### Stream parameters -/

/-- Parameter n of a stream (13, R331). -/
def par (s : State) (stream n : Nat) : Nat := itmN s 3 (0x100 + n) stream 0

/-- A signed parameter. -/
def parI (s : State) (stream n : Nat) : Int := itmI s 3 (0x100 + n) stream 0

/-- SIU_STREAMn_TUNE in use (Table 10.19). -/
def tuneOf (s : State) (stream : Nat) : BitVec 256 := s.siu.tune.getD stream 0

/-- STALE_NS in use. -/
def staleNs (s : State) (stream : Nat) : Nat := fld (tuneOf s stream) 31 0

/-- What a camera stream's frames go through. -/
structure CamCfg where
  dt : Nat
  w : Nat
  h : Nat
  cfa : Nat
  black : List Nat
  gain : List Nat
  cx : Int
  cy : Int
  cw : Nat
  ch : Nat
  ow : Nat
  oh : Nat
  rot : Nat
  flipH : Bool
  flipV : Bool
  fill : Nat
  meshEn : Bool
  meshAddr : Nat
  ms : Nat
  nx : Nat
  ny : Nat
  cm : List Nat
  cs : Nat
  czp : Int
  unsignedOut : Bool
  pack8 : Bool
  base : Nat

/-- The configuration of camera stream n: structural parameters from the Pattern, tunable ones as in use (R274). -/
def camCfg (s : State) (n : Nat) : CamCfg :=
  let p := par s n
  let t := tuneOf s n
  { dt := p 7, w := p 8, h := p 9, cfa := p 10,
    black := [fld t 47 32, fld t 63 48, fld t 79 64, fld t 95 80], gain := [fld t 111 96, fld t 127 112, fld t 143 128],
    cx := parI s n 19, cy := parI s n 20, cw := p 21, ch := p 22, ow := p 23, oh := p 24, rot := p 25, flipH := p 26 == 1,
    flipV := p 27 == 1, fill := p 28, meshEn := p 29 == 1, meshAddr := p 30, ms := p 31, nx := p 32, ny := p 33,
    cm := [fld t 175 160, fld t 191 176, fld t 207 192], cs := fld t 212 208, czp := signedOf 16 (fld t 159 144),
    unsignedOut := p 39 == 1, pack8 := p 40 == 1, base := p 4 }

/-- Companding entry i of a receiver (13, Table 13.2). -/
def compand (s : State) (rx i : Nat) : Nat := itmN s 3 0x200 (1025 * rx + i) (min (64 * i) 65535)

/-! ### CSI-2 lines -/

/-- Bits of a pixel on the link. -/
def dtBits (dt : Nat) : Nat :=
  match dt with
  | 0x2A => 8 | 0x2B => 10 | 0x2C => 12 | 0x2D => 14 | 0x2E => 16 | 0x1E => 16 | 0x24 => 24
  | _ => 0

/-- A data type that a frame can carry (Table 10.6). -/
def dtKnown (dt : Nat) : Bool := dtBits dt != 0

/-- RAW data types, which take the full front end. -/
def dtRaw (dt : Nat) : Bool := decide (0x2A ≤ dt) && decide (dt ≤ 0x2E)

/-- Bytes of a line of w pixels. -/
def lineBytes (dt w : Nat) : Nat := ceilDiv (w * dtBits dt) 8

def byteN (bs : List Byte) (i : Nat) : Nat := (bs.getD i 0).toNat

/-- Pixel x of a RAW line by the CSI-2 packing (PRESUMED, MIPI CSI-2, entry 50). -/
def rawPixel (dt : Nat) (bs : List Byte) (x : Nat) : Nat :=
  match dt with
  | 0x2A => byteN bs x
  | 0x2B => byteN bs (x / 4 * 5 + x % 4) * 4 + bitsAt (byteN bs (x / 4 * 5 + 4)) (2 * (x % 4)) 2
  | 0x2C => byteN bs (x / 2 * 3 + x % 2) * 16 + bitsAt (byteN bs (x / 2 * 3 + 2)) (4 * (x % 2)) 4
  | 0x2D =>
    let low := byteN bs (x / 4 * 7 + 4) + byteN bs (x / 4 * 7 + 5) * 256 + byteN bs (x / 4 * 7 + 6) * 65536
    byteN bs (x / 4 * 7 + x % 4) * 64 + bitsAt low (6 * (x % 4)) 6
  | _ => byteN bs (2 * x) * 256 + byteN bs (2 * x + 1)

/-- The values of a line, channels interleaved: one per pixel for RAW, Y, U, V for YUV422, R, G, B for RGB888 (Table 10.7,
step 1; the byte order is PRESUMED, MIPI CSI-2, entry 50). -/
def lineValues (dt w : Nat) (bs : List Byte) : List Nat :=
  if dtRaw dt then (List.range w).map (rawPixel dt bs)
  else if dt = 0x1E then
    (List.range w).flatMap fun x =>
      [byteN bs (2 * x + 1) * 256, byteN bs (x / 2 * 4) * 256, byteN bs (x / 2 * 4 + 2) * 256]
  else (List.range w).flatMap fun x => [byteN bs (3 * x + 2) * 256, byteN bs (3 * x + 1) * 256, byteN bs (3 * x) * 256]

/-! ### The raw-image front end -/

/-- An image: width, height, channels and its values, row-major with channels interleaved. -/
structure Pic where
  w : Nat
  h : Nat
  ch : Nat
  v : Array Nat

def Pic.at (p : Pic) (r c k : Nat) : Nat := p.v.getD ((r * p.w + c) * p.ch + k) 0

/-- An image from a function of row, column and channel. -/
def Pic.gen (w h ch : Nat) (f : Nat → Nat → Nat → Nat) : Pic :=
  { w := w, h := h, ch := ch,
    v := ((List.range (w * h * ch)).map fun i => f (i / ch / w) (i / ch % w) (i % ch)).toArray }

/-- Companding (R250). -/
def companded (ct : Nat → Nat) (v : Nat) : Nat :=
  let i := v / 64
  let f := v % 64
  min 65535 (rneShift ((ct i * (64 - f) + ct (i + 1) * f : Nat) : Int) 6).toNat

/-- Steps 2 and 3: black level and companding. -/
def levelled (g : CamCfg) (ct : Nat → Nat) (p : Pic) : Pic :=
  Pic.gen p.w p.h 1 fun r c _ => companded ct (p.at r c 0 - g.black.getD (2 * (r % 2) + c % 2) 0)

/-- Colour of a site: 0 red, 1 green, 2 blue (R251). -/
def siteColour (cfa r c : Nat) : Nat :=
  let red := match cfa with | 0 => (0, 0) | 1 => (0, 1) | 2 => (1, 0) | _ => (1, 1)
  let dr := (r + red.1) % 2
  let dc := (c + red.2) % 2
  if dr = 0 ∧ dc = 0 then 0 else if dr = 1 ∧ dc = 1 then 2 else 1

/-- The neighbour below an index: −1 reads index 1. -/
def below (i : Nat) : Nat := if i = 0 then 1 else i - 1

/-- The neighbour above an index: n reads n − 2. -/
def above (i n : Nat) : Nat := if i + 1 = n then n - 2 else i + 1

/-- Demosaic (R251). -/
def demosaic (cfa : Nat) (p : Pic) : Pic :=
  Pic.gen p.w p.h 3 fun r c k =>
    let v := fun (y x : Nat) => p.at y x 0
    let (n, so, e, we) := (below r, above r p.h, above c p.w, below c)
    let avg2 := fun (a b : Nat) => (rneShift ((a + b : Nat) : Int) 1).toNat
    let avg4 := fun (a b c d : Nat) => (rneShift ((a + b + c + d : Nat) : Int) 2).toNat
    let here := siteColour cfa r c
    if here = k then v r c
    else if here ≠ 1 then
      (if k = 1 then avg4 (v n c) (v so c) (v r e) (v r we) else avg4 (v n e) (v n we) (v so e) (v so we))
    else
      let redRow := siteColour cfa r e = 0 ∨ siteColour cfa r we = 0
      if (k = 0) = redRow then avg2 (v r e) (v r we) else avg2 (v n c) (v so c)

/-- Step 5: gains. -/
def gained (g : CamCfg) (p : Pic) : Pic :=
  Pic.gen p.w p.h p.ch fun r c k => min 65535 (rneShift ((p.at r c k * g.gain.getD k 0 : Nat) : Int) 12).toNat

/-- Channels of the lines a stream receives. -/
def CamCfg.linkCh (g : CamCfg) : Nat := if dtRaw g.dt then 1 else 3

/-- The front end (Table 10.7) on the values of a frame. -/
def frontEnd (g : CamCfg) (ct : Nat → Nat) (lines : List (List Nat)) : Pic :=
  let p : Pic := { w := g.w, h := g.h, ch := g.linkCh, v := lines.flatten.toArray }
  if dtRaw g.dt then
    let q := levelled g ct p
    gained g (if g.cfa = 4 then q else demosaic g.cfa q)
  else p

/-! ### The geometric stage -/

/-- Node (j, i) of the mesh, its X or its Y (R252). -/
def meshNode (m : Mem) (g : CamCfg) (j i : Nat) (y : Bool) : Int :=
  signedOf 24 (bitsAt (m.rdLe (g.meshAddr + 8 * (j * g.nx + i)) 8) (if y then 24 else 0) 24)

/-- The position after the mesh (R252). -/
def meshed (m : Mem) (g : CamCfg) (px py : Int) : Int × Int :=
  let cell := 2 ^ (g.ms + 8)
  let qx := px.toNat
  let qy := py.toNat
  let (i, fx) := (qx / cell, bitsAt qx g.ms 8)
  let (j, fy) := (qy / cell, bitsAt qy g.ms 8)
  let i1 := min (i + 1) (g.nx - 1)
  let j1 := min (j + 1) (g.ny - 1)
  let node := fun (y : Bool) =>
    rneShift (((256 - fx) * (256 - fy) : Nat) * meshNode m g j i y + (fx * (256 - fy) : Nat) * meshNode m g j i1 y +
      ((256 - fx) * fy : Nat) * meshNode m g j1 i y + (fx * fy : Nat) * meshNode m g j1 i1 y) 16
  (node false, node true)

/-- Position of pre-orientation pixel (r', c') in units of 1/256 pixel. -/
def pixelPos (m : Mem) (g : CamCfg) (r c : Nat) : Int × Int :=
  let px := g.cx * 256 + rneDiv ((((2 * c + 1) * g.cw * 256 : Nat)) : Int) (2 * g.ow) - 128
  let py := g.cy * 256 + rneDiv ((((2 * r + 1) * g.ch * 256 : Nat)) : Int) (2 * g.oh) - 128
  if g.meshEn then meshed m g px py else (px, py)

/-- The image sampled at a position under R129; FILL outside. -/
def sampleAt (p : Pic) (fill : Nat) (k : Nat) (pos : Int × Int) : Nat :=
  let inside := decide (0 ≤ pos.1) && decide (pos.1 ≤ ((p.w - 1) * 256 : Nat)) && decide (0 ≤ pos.2) &&
    decide (pos.2 ≤ ((p.h - 1) * 256 : Nat))
  if inside then
    let (ix, fx) := (pos.1.toNat / 256, pos.1.toNat % 256)
    let (iy, fy) := (pos.2.toNat / 256, pos.2.toNat % 256)
    let ix1 := min (ix + 1) (p.w - 1)
    let iy1 := min (iy + 1) (p.h - 1)
    let sum := (256 - fx) * (256 - fy) * p.at iy ix k + fx * (256 - fy) * p.at iy ix1 k +
      (256 - fx) * fy * p.at iy1 ix k + fx * fy * p.at iy1 ix1 k
    (rneShift (sum : Int) 16).toNat
  else fill

/-- Output size after orientation: rows, columns (R253). -/
def CamCfg.outSize (g : CamCfg) : Nat × Nat := if g.rot % 2 = 0 then (g.oh, g.ow) else (g.ow, g.oh)

/-- Pre-orientation pixel that lands at output pixel (r, c): the inverse of Table 10.8. -/
def CamCfg.source (g : CamCfg) (r0 c0 : Nat) : Nat × Nat :=
  let (oh, ow) := g.outSize
  let r := if g.flipV then oh - 1 - r0 else r0
  let c := if g.flipH then ow - 1 - c0 else c0
  match g.rot with
  | 0 => (r, c)
  | 1 => (g.oh - 1 - c, r)
  | 2 => (g.oh - 1 - r, g.ow - 1 - c)
  | _ => (c, g.ow - 1 - r)

/-- Tensor element of a pixel value of channel k (R255). -/
def CamCfg.element (g : CamCfg) (k v : Nat) : Byte :=
  let e := rneShift ((v * g.cm.getD k 0 : Nat) : Int) g.cs + g.czp
  BitVec.ofInt 8 (if g.unsignedOut then clampI e 0 255 else clampI e (-128) 127)

/-- The output tensor of a frame, 64 bytes per tensor pixel (R252, R253, R255, R256). -/
def camTensor (m : Mem) (g : CamCfg) (p : Pic) : List Byte :=
  let (oh, ow) := g.outSize
  let f := if g.pack8 then 8 else 4
  let px := fun (r c k : Nat) =>
    let (r', c') := g.source r c
    g.element k (sampleAt p g.fill k (pixelPos m g r' c'))
  (List.range (oh / f * (ow / f))).flatMap fun i =>
    let (tr, tc) := (i / (ow / f), i % (ow / f))
    (List.range 64).map fun ch =>
      if g.pack8 then px (8 * tr + ch / 8) (8 * tc + ch % 8) 0
      else if ch < 48 then
        (if ch % 3 < p.ch then px (4 * tr + ch / 3 / 4) (4 * tc + ch / 3 % 4) (ch % 3) else 0)
      else 0

/-! ### Parser templates -/

/-- Template of a lidar stream (Table 10.10). -/
def template (s : State) (stream : Nat) : BitVec 512 :=
  BitVec.ofNat 512 (sumN ((List.range 8).map fun i => par s stream (41 + i) * 2 ^ (64 * i)))

/-- A field descriptor of a template. -/
def fieldDesc (t : BitVec 512) (n : Nat) : BitVec 32 := t.extractLsb' (160 + 32 * n) 32

/-- Scaled value of field n of a point (R259). -/
def fieldValue (t : BitVec 512) (pt : List Byte) (n : Nat) : Int :=
  let d := fieldDesc t n
  if bitAt d 12 then
    let width := if fld d 9 8 = 0 then 1 else if fld d 9 8 = 1 then 2 else 4
    let raw := if bitAt d 11 then beAt pt (fld d 7 0) width else leAt pt (fld d 7 0) width
    let v : Int := if bitAt d 10 then signedOf (8 * width) raw else (raw : Int)
    rneShift (v * (fld d 31 16 : Int)) (fld t 79 72)
  else 0

/-- A point (R259). -/
structure Pt where
  x : Int
  y : Int
  z : Int
  i : Int
  ring : Int
  dt : Int

/-- A coordinate as it is held (R261): its value, or a free one where INT32 does not hold that. -/
def coord32 (v : Int) : Int := if -(2 ^ 31) ≤ v ∧ v < 2 ^ 31 then v else (Config.wideCoord v).toInt

def pointOf (t : BitVec 512) (pt : List Byte) : Pt :=
  let f := fieldValue t pt
  { x := coord32 (f 0), y := coord32 (f 1), z := coord32 (f 2), i := f 3, ring := f 4, dt := f 5 }

/-- Where a frame's payload lies and how long it is; `vid` its VLAN identifier. -/
structure L2 where
  etype : Nat
  vid : Option Nat
  off : Nat

/-- The Ethernet header: untagged, or with a single 802.1Q tag (R257). -/
def l2Of (f : List Byte) : L2 :=
  if beAt f 12 2 = 0x8100 then { etype := beAt f 16 2, vid := some (beAt f 14 2 % 4096), off := 18 }
  else { etype := beAt f 12 2, vid := none, off := 14 }

/-- The frame has more than one tag. -/
def twoTags (f : List Byte) : Bool :=
  beAt f 12 2 == 0x88A8 || (beAt f 12 2 == 0x8100 && (beAt f 16 2 == 0x8100 || beAt f 16 2 == 0x88A8))

/-- IPv4 without options and fragments, carrying UDP: the offset of the UDP header (R258). -/
def udpAt (f : List Byte) (l : L2) : Option Nat :=
  let ip := l.off
  if l.etype = 0x0800 ∧ byteN f ip = 0x45 ∧ beAt f (ip + 6) 2 % 0x4000 = 0 ∧ byteN f (ip + 9) = 17 ∧ ip + 28 ≤ f.length then
    some (ip + 20)
  else none

/-- One's complement sum of an IPv4 header without options: 0xFFFF when the checksum is good. -/
def ipSum (f : List Byte) (ip : Nat) : Nat :=
  let t := sumN ((List.range 10).map fun i => beAt f (ip + 2 * i) 2)
  let u := t % 65536 + t / 65536
  u % 65536 + u / 65536

/-- IEEE 802.1AS and IEEE 1588 messages. -/
def isPtp (f : List Byte) : Bool :=
  let l := l2Of f
  l.etype == 0x88F7 || (match udpAt f l with
    | some u => beAt f (u + 2) 2 == 319 || beAt f (u + 2) 2 == 320
    | none => false)

/-- The payload that a template's points lie in, if the frame matches the template (R258). -/
def matchFrame (t : BitVec 512) (f : List Byte) : Option (List Byte) :=
  let l := l2Of f
  if twoTags f || l.etype != fld t 15 0 || (bitAt t 17 && l.vid != some (fld t 29 18)) then none
  else if bitAt t 16 then
    (match udpAt f l with
    | some u => if beAt f (u + 2) 2 = fld t 47 32 then some (slice f (u + 8) (beAt f (u + 4) 2 - 8)) else none
    | none => none)
  else some (f.drop l.off)

/-- Points a packet declares (Table 10.10). -/
def declared (t : BitVec 512) (payload : List Byte) : Nat :=
  if fld t 95 80 = 0 then (payload.length - fld t 63 48 - fld t 111 96) / fld t 71 64 else fld t 95 80

/-- The packet is shorter than its template requires. -/
def tooShort (t : BitVec 512) (payload : List Byte) : Bool :=
  decide (payload.length < fld t 63 48 + declared t payload * fld t 71 64 + fld t 111 96) ||
    (fld t 129 128 != 0 && decide (payload.length < fld t 127 112 + 8))

/-! ### Packed tiles -/

/-- Element formats of a tile: bits coded and bytes stored, smallest and largest value (Table 10.12). -/
def efmtBits (e : Nat) : Nat := if e ≤ 1 then 8 else if e = 2 then 12 else 16
def efmtSigned (e : Nat) : Bool := e == 0 || e == 2 || e == 3
def efmtMin (e : Nat) : Int := if efmtSigned e then -(2 ^ (efmtBits e - 1) : Nat) else 0
def efmtMax (e : Nat) : Int := if efmtSigned e then (2 ^ (efmtBits e - 1) : Nat) - 1 else (2 ^ efmtBits e : Nat) - 1

/-- The bits of a byte string from a byte on, most significant first. -/
def bitsFrom (bs : List Byte) : List Bool := bs.flatMap fun b => (List.range 8).map fun i => b.getLsbD (7 - i)

/-- A number of n bits taken from a bit string; none past its end. -/
def takeBits : Nat → Nat → List Bool → Option (Nat × List Bool)
  | 0, acc, l => some (acc, l)
  | _ + 1, _, [] => none
  | n + 1, acc, b :: l => takeBits n (2 * acc + b2n b) l

/-- Leading ones, at most `lim`, with the zero after them taken when there are fewer. -/
def takeOnes : Nat → Nat → List Bool → Option (Nat × List Bool)
  | 0, q, l => some (q, l)
  | _ + 1, _, [] => none
  | n + 1, q, b :: l => if b then takeOnes n (q + 1) l else some (q, l)

/-- One coded difference, and whether it was escaped (R266). -/
def takeDelta (k : Nat) (l : List Bool) : Option (Int × Bool × List Bool) :=
  match takeOnes 24 0 l with
  | none => none
  | some (q, l1) =>
    let esc := q = 24
    match takeBits (if esc then 17 else k) 0 l1 with
    | none => none
    | some (v, l2) =>
      let z := if esc then v else q * 2 ^ k + v
      some (if z % 2 = 0 then ((z / 2 : Nat) : Int) else -(((z + 1) / 2 : Nat) : Int), esc, l2)

/-- What the decoder has done so far. -/
structure Dec where
  /-- bytes left of the payload -/
  rest : List Byte
  cost : Nat
  /-- it has met a malformed block -/
  bad : Bool := false
  /-- decoded blocks, each row-major -/
  out : List (List Int) := []

/-- The elements of a coded block, `n` of them, `bw` in a row; the result holds the elements, latest first. -/
def decodeCoded (k bw e : Nat) : Nat → List Int → Nat → List Bool → List Int × Nat × Option (List Bool)
  | 0, acc, cost, l => (acc, cost, some l)
  | n + 1, acc, cost, l =>
    match takeDelta k l with
    | none => (acc, cost, none)
    | some (d, esc, l1) =>
      let i := acc.length
      let pred := if i = 0 then 0 else if i % bw = 0 then acc.getD (bw - 1) 0 else acc.headD 0
      let v := pred + d
      let cost1 := cost + (if esc then 2 else 1)
      if efmtMin e ≤ v ∧ v ≤ efmtMax e then decodeCoded k bw e n (v :: acc) cost1 l1 else (acc, cost1, none)

/-- The elements of a raw block. -/
def decodeRaw (e : Nat) : Nat → List Int → List Bool → List Int × Option (List Bool)
  | 0, acc, l => (acc, some l)
  | n + 1, acc, l =>
    match takeBits (efmtBits e) 0 l with
    | none => (acc, none)
    | some (v, l1) => decodeRaw e n ((if efmtSigned e then signedOf (efmtBits e) v else (v : Int)) :: acc) l1

/-- One block of `bw` by `bh` elements (R266, R268). -/
def decodeBlock (e bw bh : Nat) (d : Dec) : Dec :=
  if d.bad then d
  else match d.rest with
  | [] => { d with bad := true }
  | hd :: body =>
    let d1 := { d with cost := d.cost + 4 }
    if fld hd 7 5 ≠ 0 then { d1 with bad := true }
    else
      let n := bw * bh
      let bits := bitsFrom body
      let (vals, cost, left) :=
        if bitAt hd 4 then
          let (v, l) := decodeRaw e n [] bits
          (v, ceilDiv n 4, l)
        else decodeCoded (fld hd 3 0) bw e n [] 0 bits
      match left with
      | none => { d1 with cost := d1.cost + cost, bad := true }
      | some l =>
        { d1 with cost := d1.cost + cost, rest := body.drop ((bits.length - l.length + 7) / 8), out := d1.out ++ [vals.reverse] }

/-- Blocks of a tile in order: channel, block row, block column, with their sizes. -/
def tileBlocks (w h ch : Nat) : List (Nat × Nat) :=
  (List.range ch).flatMap fun _ => (List.range (ceilDiv h 64)).flatMap fun br =>
    (List.range (ceilDiv w 64)).map fun bc => (min 64 (w - 64 * bc), min 64 (h - 64 * br))

/-- A payload decoded: blocks, cycles, and whether it is malformed (R267 step 4, R268). -/
def decodePayload (e w h ch : Nat) (payload : List Byte) : Dec :=
  let d := (tileBlocks w h ch).foldl (fun d b => decodeBlock e b.1 b.2 d) { rest := payload, cost := 0 }
  if d.rest.isEmpty then d else { d with bad := true }

/-- Elements of the decoded blocks, channel plane after channel plane, each row-major. -/
def planesOf (w h ch : Nat) (blocks : List (List Int)) : List Int :=
  let bw := ceilDiv w 64
  let bh := ceilDiv h 64
  (List.range ch).flatMap fun k => (List.range h).flatMap fun r => (List.range w).map fun c =>
    let b := blocks.getD ((k * bh + r / 64) * bw + c / 64) []
    b.getD (r % 64 * min 64 (w - c / 64 * 64) + c % 64) 0

end Sys2Proof.Machine
end

