-- ==== Sys2Proof/Machine/Issue.lean ====
section
/-!
DEFINITION. How an instruction leaves its queue: the head of a queue, gates (06, R149, R152, R153), the commit of vector
writes as they become visible (R157, 07, R171), the hazard monitor (R158), and skips at issue (R159).
-/
namespace Sys2Proof.Machine

/-! ### Queues -/

def Seqr.queue (q : QId) (k : Seqr) : List QEnt :=
  match q with
  | .vector => k.qv | .matrix => k.qm | .load => k.ql | .store => k.qs | .sync => k.qy

def Seqr.setQueue (q : QId) (l : List QEnt) (k : Seqr) : Seqr :=
  match q with
  | .vector => { k with qv := l }
  | .matrix => { k with qm := l }
  | .load => { k with ql := l }
  | .store => { k with qs := l }
  | .sync => { k with qy := l }

/-- Core c executes instructions: present, in service, not retired, and neither the swatch nor the safe state holds it. -/
def coreLive (s : State) (c : Nat) : Bool :=
  present s c && inService s (dCore c) && !isRetired s c && (coreAt s c).st.swatchAt.isNone && !s.glb.safe

/-- The entry that a word names: the head of its queue when it holds that word; when the queue is empty, an entry dispatched
now (entry 3). The flag says that it stood in the queue. -/
def headFor (s : State) (c : Nat) (q : QId) (w : BitVec 48) : Option (QEnt × Bool) :=
  let k := (coreAt s c).sq
  match k.queue q with
  | [] => some ({ slot := w, seq := k.seq, bundle := k.pc, at_ := s.clk.cyc, ctrs := k.cnt }, false)
  | e :: _ => if e.slot = w then some (e, true) else none

/-- The entry leaves its queue. -/
def takeEntry (c : Nat) (q : QId) (queued : Bool) (s : State) : State :=
  modCore s c fun k =>
    { k with sq := if queued then k.sq.setQueue q ((k.sq.queue q).drop 1) else { k.sq with seq := k.sq.seq + 1 } }

/-- First cycle at which the gates let an entry of queue q issue, and the entry skipped before it has left; none while a gate is
closed (R152, R153, R159). -/
def gateCycle (k : Core) (q : QId) (e : QEnt) : Option Nat :=
  if k.sq.qy.any (fun y => decide (y.seq ≤ e.seq) && (gateMask y.slot).testBit q.maskBit) then none
  else
    let g := k.sq.gates.getD q.maskBit (0, 0)
    some (max (if g.1 ≤ e.seq then g.2 else 0) (k.sq.skipTo.getD q.maskBit 0))

/-- A sync entry with this gate mask has completed in cycle t: the gated queues issue from the next cycle on. -/
def openGates (c m seq t : Nat) (s : State) : State :=
  let gate := fun (old : Nat × Nat) => if old.2 = t + 1 then (min old.1 seq, t + 1) else (seq, t + 1)
  modCore s c fun k =>
    let gs := (List.range 4).map fun i => if m.testBit i then gate (k.sq.gates.getD i (0, 0)) else k.sq.gates.getD i (0, 0)
    { k with sq := { k.sq with gates := gs } }

/-- An entry has issued and completes at a cycle, or when its transfer or request does (R149). -/
def addInfl (c : Nat) (q : QId) (seq : Nat) (doneAt : Option Nat) (s : State) : State :=
  modCore s c fun k =>
    { k with sq := { k.sq with infl := k.sq.infl ++ [{ q := q, seq := seq, doneAt := doneAt }] }, st := { k.st with lastAct := s.clk.cyc } }

/-- The entries of a queue whose work is done complete as far as the entries ahead allow, each with its token (R149, R150). -/
def releaseHeld (c : Nat) (q : QId) : Nat → State → State
  | 0, s => s
  | fuel + 1, s =>
    match (coreAt s c).sq.infl.find? fun x => x.q == q && x.doneAt.isNone with
    | none => s
    | some x =>
      match x.held with
      | none => s
      | some h =>
        let s1 := modCore s c fun k =>
          { k with sq := { k.sq with infl := k.sq.infl.erase x }, st := { k.st with lastAct := s.clk.cyc } }
        releaseHeld c q fuel (signalToken c q.slot h.1 h.2 s1)

/-- The work of an issued load or store entry is done: it completes, or waits for the entry ahead (R149). -/
def completeEntry (c : Nat) (q : QId) (seq bundle token : Nat) (s : State) : State :=
  let s1 := modCore s c fun k =>
    { k with sq := { k.sq with infl := k.sq.infl.map fun x =>
        if x.q = q ∧ x.seq = seq ∧ x.doneAt.isNone then { x with held := some (bundle, token) } else x } }
  releaseHeld c q (coreAt s1 c).sq.infl.length s1

/-- Cycle at which every entry of the masked queues dispatched before `seq` has completed; none while one has not issued or
waits on a transfer (R151, R152). -/
def earlierDone (k : Core) (mask seq : Nat) : Option Nat :=
  let qs : List QId := [QId.vector, .matrix, .load, .store].filter fun q => mask.testBit q.maskBit
  let waiting := qs.any fun q => (k.sq.queue q).any fun e => decide (e.seq < seq)
  let mine := k.sq.infl.filter fun x => decide (x.seq < seq) && qs.contains x.q
  if waiting || mine.any (fun x => x.doneAt.isNone) then none else some (maxN (mine.filterMap Infl.doneAt))

/-- First cycle at which the dispatch and the gates of an entry let it issue, from now on. -/
def baseCycle (s : State) (c : Nat) (q : QId) (e : QEnt) : Nat :=
  max (max s.clk.cyc (e.at_ + 1)) ((gateCycle (coreAt s c) q e).getD 0)

/-! ### Vector registers -/

/-- The 64 lanes of a register. -/
def regLanes (k : Core) (r : Nat) : List Word :=
  let l := k.vu.vreg.getD r []
  (List.range 64).map fun i => l.getD i 0

/-- Writes in order of the cycle they become visible, issue order within a cycle (R157). -/
def writeInsert (w : VWrite) : List VWrite → List VWrite
  | [] => [w]
  | x :: xs => if w.visibleAt < x.visibleAt then w :: x :: xs else x :: writeInsert w xs

def sortWrites (l : List VWrite) : List VWrite := l.foldl (fun acc w => writeInsert w acc) []

/-- The register writes and table loads visible at cycle t are made. -/
def Vu.commit (t : Nat) (v : Vu) : Vu :=
  let due := sortWrites (v.vwr.filter fun w => decide (w.visibleAt ≤ t))
  let tabDue := v.tabWr.filter fun x => decide (x.1 ≤ t)
  { v with
    vreg := due.foldl (fun r w => putAt [] r w.reg w.lanes) v.vreg
    vwr := v.vwr.filter fun w => decide (t < w.visibleAt)
    tabs := tabDue.foldl (fun r x => putAt none r x.2.1 (some x.2.2)) v.tabs
    tabWr := v.tabWr.filter fun x => decide (t < x.1) }

/-- The registers and tables of core c that become visible up to cycle t; completed entries leave. -/
def commit (c t : Nat) (s : State) : State :=
  modCore s c fun k =>
    { k with vu := k.vu.commit t,
             sq := { k.sq with infl := k.sq.infl.filter fun x => match x.doneAt with | some d => decide (t < d) | none => true } }

/-! ### Issue -/

/-- An entry that a word names issues: at the first cycle that its dispatch, its gates and `ready` allow, `act` is its
effect. Nothing changes while a gate is closed or `ready` answers that it waits on an event. An entry that was never
dispatched is first checked as at dispatch (R166). -/
def issue (c : Nat) (q : QId) (w : BitVec 48) (ready : State → QEnt → Option Nat) (act : QEnt → State → State)
    (s : State) : State :=
  if !coreLive s c then s
  else match headFor s c q w with
  | none => s
  | some (e, queued) =>
    match (if queued then none else slotBad s (ctxOf s c) q w) with
    | some reason => logSkip c q.slot reason e.bundle (takeEntry c q false s)
    | none =>
      match gateCycle (coreAt s c) q e, ready s e with
      | some g, some r =>
        let t := max (max g r) (if queued then e.at_ + 1 else s.clk.cyc)
        act e (commit c (max t s.clk.cyc) (passToCyc (takeEntry c q queued s) t))
      | _, _ => s

/-- A skipped entry takes up the cycle in which it leaves its queue (R159). -/
def skipCycle (q : QId) (t : Nat) (k : Seqr) : Seqr :=
  match q with
  | .sync => { k with syAt := t }
  | _ => { k with skipTo := putAt 0 k.skipTo q.maskBit (t + 1) }

/-- An inconsistent instruction: the entry leaves its queue in one cycle, without effect but for its token (R159), which it signals in
that cycle whatever is still in flight ahead of it (DESIGN CHOICE, entry 69). -/
def skipAtIssue (c : Nat) (q : QId) (e : QEnt) (reason token : Nat) (s : State) : State :=
  signalToken c q.slot e.bundle token (logSkip c q.slot reason e.bundle
    (modCore (addInfl c q e.seq (some (s.clk.cyc + 1)) s) c fun k => { k with sq := skipCycle q s.clk.cyc k.sq }))

/-! ### The hazard monitor -/

/-- The cycle at which register r is settled: that of the latest of its writes in flight (DESIGN CHOICE, entry 69). -/
def inFlight (k : Core) (r : Nat) : Option Nat :=
  match (k.vu.vwr.filter fun w => w.reg == r).map VWrite.visibleAt with
  | [] => none
  | l => some (maxN l)

/-- Detail of the hazard reported for sources and destinations of an instruction that issues at t and writes at v (R158). -/
def hazardOf (k : Core) (t v : Nat) (srcs dsts : List Nat) : Option Nat :=
  let det := fun (r kind early : Nat) => r + kind * 2 ^ 5 + min early 0xFFFF * 2 ^ 8
  match srcs.findSome? fun r => (inFlight k r).bind fun f => if t < f then some (det r 0 (f - t)) else none with
  | some d => some d
  | none => dsts.findSome? fun r => (inFlight k r).bind fun f => if v ≤ f then some (det r 1 (f + 1 - v)) else none

/-- CCn_VU_HAZARD, if the instruction has a hazard. -/
def hazardFire (c t v : Nat) (srcs dsts : List Nat) (s : State) : State :=
  match hazardOf (coreAt s c) t v srcs dsts with
  | some d => fire { b := bCC c, src := 9, det := BitVec.ofNat 32 d, who := whoOn s c } s
  | none => s

/-! ### Vector instructions -/

/-- What a vector instruction does when it issues: it is inconsistent, or it writes registers, scratchpad bytes or a
table. -/
inductive VRes where
  | skip (reason : Nat)
  | ok (regs : List (Nat × List Word)) (cells : List Host.Cell) (table : Option (Nat × VTable))

/-- The writes of a vector instruction are put in flight (R157, R171). -/
def putInFlight (c v : Nat) (regs : List (Nat × List Word)) (cells : List Host.Cell) (table : Option (Nat × VTable))
    (s : State) : State :=
  modCore s c fun k =>
    { k with vu := { k.vu with
        vwr := k.vu.vwr ++ regs.map fun r => ⟨v, r.1, r.2⟩
        tabWr := match table with | some t => k.vu.tabWr ++ [(v, t.1, t.2)] | none => k.vu.tabWr }
             pend := if cells.isEmpty then k.pend else k.pend ++ [{ at_ := v, by_ := .vector, cells := cells }] }

/-- A difference between the Vector Unit copies (15, R370). -/
def vuEvent (regs : List (Nat × List Word)) : DisEvent :=
  { det := BitVec.ofNat 32 (5 * 2 ^ 16 + (match regs with | r :: _ => r.1 | [] => 2 ^ 5)) }

/-- A vector instruction of occupancy `occ` and latency `lat`: `op` is what it computes at its issue; `diff` says that the
two copies differ on it. A skipped one is not checked for hazards (DESIGN CHOICE, entry 69). -/
def vectorAct (c occ lat : Nat) (diff : Bool) (srcs : List Nat) (op : State → QEnt → VRes) (reads : State → State)
    (e : QEnt) (s : State) : State :=
  let t := s.clk.cyc
  match op s e with
  | .skip reason => skipAtIssue c .vector e reason 0 s
  | .ok regs cells table =>
    let s1 := hazardFire c t (t + lat) srcs (regs.map Prod.fst) s
    let s2 := putInFlight c (t + lat) regs cells table (reads s1)
    let s3 := addInfl c .vector e.seq (some (t + lat)) (modCore s2 c fun k => { k with vu := { k.vu with vAt := t + occ } })
    if diff then disagree c (vuEvent regs) (commit c (t + lat) (passToCyc s3 (t + lat))) else s3

/-- The vector queue is free for its next entry (R171). -/
def vectorFree (c : Nat) (s : State) (_e : QEnt) : Option Nat := some (coreAt s c).vu.vAt

/-- A vector instruction issues. -/
def vectorOp (c : Nat) (w : BitVec 48) (occ lat : Nat) (diff : Bool) (srcs : List Nat) (op : State → QEnt → VRes)
    (reads : State → State) (s : State) : State :=
  issue c .vector w (vectorFree c) (vectorAct c occ lat diff srcs op reads) s

/-- A lane-wise instruction: register `vd` takes what `f` makes of the state's registers. -/
def laneOp (c : CoreId) (w : BitVec 48) (lat : Nat) (diff : Bool) (srcs : List (BitVec 5)) (vd : BitVec 5)
    (f : List (List Word) → List Word) (s : State) : State :=
  vectorOp c w 1 lat diff (srcs.map BitVec.toNat)
    (fun s _ => .ok [(vd.toNat, f (srcs.map fun r => regLanes (coreAt s c) r.toNat))] [] none) id s

/-- Two operands, lane by lane. -/
def lanes2 (g : Word → Word → Word) (l : List (List Word)) : List Word :=
  (List.range 64).map fun i => g ((l.getD 0 []).getD i 0) ((l.getD 1 []).getD i 0)

/-- One operand, lane by lane. -/
def lanes1 (g : Word → Word) (l : List (List Word)) : List Word := (List.range 64).map fun i => g ((l.getD 0 []).getD i 0)

/-- Three operands, lane by lane. -/
def lanes3 (g : Word → Word → Word → Word) (l : List (List Word)) : List Word :=
  (List.range 64).map fun i => g ((l.getD 0 []).getD i 0) ((l.getD 1 []).getD i 0) ((l.getD 2 []).getD i 0)

/-- The outcome of a two-source instruction of format R. -/
def execR2 (c : CoreId) (d : Bool) (op lat : Nat) (g : Word → Word → Word) (vd va vb : BitVec 5) (s : State) :
    Host.Outcome State Fault Refusal :=
  run s (laneOp c (wordR op vd va vb 0) lat d [va, vb] vd (lanes2 g))

/-- The outcome of a one-source instruction of format R on whole registers. -/
def execR1 (c : CoreId) (d : Bool) (op lat : Nat) (f : List (List Word) → List Word) (vd va : BitVec 5) (s : State) :
    Host.Outcome State Fault Refusal :=
  run s (laneOp c (wordR op vd va 0 0) lat d [va] vd f)

/-- The outcome of an instruction of format I with a source register. -/
def execI1 (c : CoreId) (d : Bool) (op lat : Nat) (f : List (List Word) → List Word) (vd va : BitVec 5) (imm : BitVec 16)
    (s : State) : Host.Outcome State Fault Refusal :=
  run s (laneOp c (wordI op vd va imm) lat d [va] vd f)

end Sys2Proof.Machine
end

