-- ==== Sys2Proof/Machine/Tick.lean ====
section
/-!
DEFINITION. The tick (01, R22 to R31): its start, with the directory walk (09, R228, R229), the retirements (15, R375) and the
shadow copies (13, R340) that wait for it; the swatch (15, R377 to R380); the settle point (01, R30); the unloading of the
Pattern (13, R339).
-/
namespace Sys2Proof.Machine

/-! ### Unloading -/

/-- Every running command is aborted and posts nothing (R339). -/
def abortAll (reason : Nat) (s : State) : State :=
  (List.range 16).foldl (fun s c => match (coreAt s c).st.run with | some r => abortRun c r reason s | none => s) s

/-- The dispatcher has no job and no plan. -/
def Disp.idle (d : Disp) : Disp :=
  { d with parts := [0, 0, 0, 0], jobs := [], held := [], turns := [none, none, none, none], opened := [], closed := [],
           settled := [], stageEnded := [], deadline := 0, slack := [none, none, none, none],
           subs := d.subs.map fun k => { k with job := none } }

/-- No swatch runs or is due. -/
def stopSwatches (s : State) : State :=
  (List.range 16).foldl (fun s c => stopSwatch c (modSt s c fun k => { k with swatchDue := false })) s

/-- The actions of R339: commands aborted, jobs abandoned, STATE NONE, every mirror of the Pattern at its reset value. -/
def unloadNow (s : State) : State :=
  let s1 := stopSwatches (abortAll 7 s)
  patVec { s1 with
    glb := { s1.glb with patState := 0, patternId := 0, pat := [], imgAddr := 0, unloadPend := false, voids := [] }
    time := { s1.time with active := false, tick := 0, launch := 0, period := 0, stages := [] }
    disp := s1.disp.idle
    kfs := { s1.kfs with ageEpoch := 0, pitch := 0, layers := [], flushPend := false } }

/-! ### The directory walk -/

/-- A way one age class older, up to class 14 (R228): state 0 is INVALID, state n + 1 is VALID with class n. -/
def ageWay (w : Nat × Nat) : Nat × Nat := if w.2 = 0 then w else (w.1, min (w.2 + 1) 15)

/-- Every set whose word holds an error is read by the walk, which corrects it or invalidates it (R228, R236). -/
def walkErrors (s : State) : State := (s.kfs.ce ++ s.kfs.ue).foldl (fun s set => dirRead none set s) s

/-- The directory walk of tick k begins (R228, R229, R235): a request being served is paused for it. -/
def startWalk (k : Nat) (s : State) : State :=
  if !inService s dFST then s
  else
    let s1 := walkErrors (keyedAdvance s.clk.cyc s)
    let flush := s1.kfs.flushPend || s1.kfs.flushFst
    let age := decide (0 < k) && decide (0 < s1.kfs.ageEpoch) && k % s1.kfs.ageEpoch == 0
    let dir := if flush then [] else if age then s1.kfs.dir.map (fun e => (e.1, e.2.map ageWay)) else s1.kfs.dir
    { s1 with kfs := { s1.kfs with
        dir := dir, gen := if flush then (s1.kfs.gen + 1) % 256 else s1.kfs.gen, flushPend := false, flushFst := false,
        walkEnd := some (s1.clk.cyc + 32768),
        serving := s1.kfs.serving.map fun r => { r with start := r.start + 32768 } } }

/-- Occupancy counted by the walk, and its end (R228, R237). -/
def endWalk (s : State) : State :=
  match s.kfs.walkEnd with
  | none => s
  | some t =>
    let s1 := passToCyc s t
    { s1 with kfs := { s1.kfs with walkEnd := none, occ := sumN (s1.kfs.dir.map fun e => (e.2.filter fun w => w.2 != 0).length) } }

/-- DIRECTORY_WALK_END. -/
def execDirectoryWalkEnd (s : State) : Host.Outcome State Fault Refusal := run s endWalk

/-! ### The drop set -/

/-- Output regions of a stream in the Frame Store: base and length. -/
def outRegions (s : State) (n : Nat) : List (Nat × Nat) :=
  if 32 ≤ n ∧ n < 36 then
    [(par s n 60, par s n 58 * 512), (par s n 61, par s n 58 * 8), (par s n 62, par s n 56 * par s n 57 * 8)]
  else [(par s n 4, par s n 5)]

/-- The bytes of a region become unspecified (R247). -/
def forgetRegion (s : State) (r : Nat × Nat) : State :=
  { bumpFree s with fst := { s.fst with mem := s.fst.mem.wrN r.1 ((List.range r.2).map fun i => Config.droppedByte s.freeSeq i) } }

/-- The output regions of stream n become unspecified. -/
def forgetStream (s : State) (n : Nat) : State := (outRegions s n).foldl forgetRegion s

/-- Enabled streams whose bit of the status table is 0, but for camera streams whose region holds a frame stale by AGE. -/
def droppedStreams (s : State) : List Nat :=
  (List.range 48).filter fun n => (dropMask s).testBit n && !s.siu.aged.contains n

/-- The regions of the tick's drop set are unspecified, whether or not a domain is fenced (R247). -/
def forgetDropped (s : State) : State := (droppedStreams s).foldl forgetStream s

/-- Without an INTAKE stage every sample of the tick is dropped (01, R28): the regions are unspecified from its start. -/
def forgetAll (s : State) : State := if (intakeStage s).isNone then forgetDropped s else s

/-! ### The start of a tick -/

/-- The intake status table at the start of tick k (10, R246). -/
def initStatus (k : Nat) (s : State) : State :=
  match statusAddr s with
  | some a => if inService s dFST && inService s dSIU then writeRun .fst none a (leBytes 8 0 ++ leBytes 8 k ++ List.replicate 48 0) s else s
  | none => s

/-- Partitions that the fences standing at the tick start void, and those of a domain that has come back (17, R415). -/
def tickVoids (s : State) : List Nat :=
  (List.range 4).filter fun p =>
    s.dru.voidNext || (List.range 25).any fun d => !inService s d && (fenceVoids s d).contains p

/-- The DEP item for peer d: partitions, and whether its placement is NEXT_TICK (14, Table 14.6). -/
def depOf (s : State) (d : Nat) : List Nat × Bool :=
  let v := itmN s 9 0x16 d 0
  ((List.range 4).filter v.testBit, v.testBit 4)

/-- Voids of tick k for the peers that are in the safe state (17, Table 17.4). -/
def peerVoids (s : State) (k : Nat) : List (Nat × Nat) :=
  (List.range 8).flatMap fun d =>
    if (peerAt s d).inSafe then (depOf s d).1.map fun p => (p, if (depOf s d).2 then k + 1 else k) else []

/-- The cores that are to run the swatch of the tick (R23, R377). -/
def swatchCore (s : State) (c : Nat) : Bool := present s c && inService s (dCore c) && !isRetired s c && !s.glb.safe

/-- What the tick boundary changes in the dispatcher: retirements, tunable fields, the tick's own lists (R12, R340, R375). -/
def Disp.newTick (d : Disp) : Disp :=
  { d with retired := d.retired ||| d.retireDue, retireDue := 0, slice := (d.slice.2, d.slice.2), grace := (d.grace.2, d.grace.2),
           jobs := d.jobs.filter fun j => !j.ended, opened := [], closed := [], settled := [], stageEnded := [], deadline := 0,
           slack := [none, none, none, none], subs := d.subs.map fun k => { k with refetch := false } }

/-- What it changes in the Time Unit: the tick number, the droop counts (R287, R294). -/
def TimeU.newTick (t : TimeU) (k : Nat) : TimeU :=
  { t with tick := k, active := true, droopLast := min t.droopCur 0xFFFF, droopCur := 0, droopAtRec := none,
           prevTail := min (match t.droopAtRec with | some n => t.droopCur - n | none => 0) 0xFFFF }

/-- The AVS step of a tick (R282): with AVS_EN the VDD_CORE set point may move by one step of 5 mV within 650 to 800 mV, and whether
it does is a free value. -/
def TimeU.avsStepped (t : TimeU) (n : Nat) : TimeU :=
  let w := t.vddCore + 5 * (Config.avsStep n).val - 5
  { t with vddCore := if t.avsEn && decide (650 ≤ w) && decide (w ≤ 800) then w else t.vddCore }

/-- The tick's sweeps begin anew; a closed one goes on to the end of its flush (10, R263). -/
def Siu.newTick (u : Siu) : Siu :=
  let old := ((List.range 4).map fun m => (m, u.sweeps.getD m {})).filter fun x => x.2.closed.isSome && !x.2.isOver
  { u with sweeps := [{}, {}, {}, {}], flushing := u.flushing ++ old }

/-- Tick k begins now (R22). -/
def beginTick (k : Nat) (s : State) : State :=
  let s1 := { s with
    clk := { s.clk with tickCyc := startCyc s }
    time := (s.time.newTick k).avsStepped s.freeSeq
    freeSeq := s.freeSeq + 1
    disp := s.disp.newTick
    siu := { s.siu with tune := s.siu.shadow, aged := [] }.newTick
    fst := { s.fst with arr := [], arrAt := [] }
    glb := { s.glb with voids := s.glb.voids.filter fun v => decide (k ≤ v.2 + 1) }
    dru := { s.dru with voidNext := false } }
  let s2 := { s1 with cores := s1.cores.mapIdx fun c (x : Core) => { x with st := { x.st with swatchDue := swatchCore s1 c } } }
  let s3 := voidAt ((tickVoids s).map (fun p => (p, k)) ++ peerVoids s k) s2
  startTurns (startWalk k (forgetAll (initStatus k (trace 0x04 0 (BitVec.ofNat 64 k) s3))))

/-- At LAUNCH_COUNT STATE becomes ACTIVE and the first tick begins, on a device-clock edge (R283, R285, R337). -/
def launchNow (s : State) : State :=
  let s1 := passToGtc s (tickGtc s s.time.firstTick)
  beginTick s.time.firstTick (patVec
    { s1 with glb := { s1.glb with patState := 4 }, time := { s1.time with droopCur := 0, droopAtRec := none }
              clk := { s1.clk with cyc := startCyc s1, sub := 0, ahead := 0, stretch := 0 } })

/-- The next tick boundary: a tick begins, or the Pattern is unloaded (R22, R339). -/
def tickBoundary (s : State) : State :=
  if patActive s then
    let k := s.time.tick + 1
    let s1 := passToGtc s (tickGtc s k)
    if s1.glb.unloadPend then unloadNow s1 else beginTick k s1
  else if s.glb.patState = 3 then launchNow s
  else s

/-- TICK_START. -/
def execTickStart (up : List Strike) (s : State) : Host.Outcome State Fault Refusal :=
  run s fun s => tickBoundary (strikes up s)

/-! ### The swatch -/

/-- Cycles that a gated core needs to wake (11, R282). -/
def wake (k : Core) : Nat := if k.st.gated then 24 else 0

/-- The banks as the swatch leaves them: their content is given only by reference (R378). -/
def swatchBanks (c : Nat) : List Bank :=
  (List.range 8).map fun i => { acc := (List.range 4096).map fun j => Config.swatchAcc (8 * c + i) j }

/-- The swatch of core c begins: it uses the scratchpad, the operand buffer, the accumulators and their buffers (08, R197). -/
def Core.swatch (k : Core) (c t : Nat) : Core :=
  { k with
    st := { k.st with swatchDue := false, swatchAt := some t, gated := false, tok := [], tokAt := [] }
    asp := { k.asp with cells := [], fill := .swatch c, ce := k.asp.ce.filter (8192 ≤ ·), ue := k.asp.ue.filter (8192 ≤ ·) }
    mx := { k.mx with aob := [{}, {}, {}, {}], banks := swatchBanks c, lastLast := [none, none, none, none],
                      drains := List.replicate 8 none, otbs := List.replicate 8 {} } }

/-- The swatch starts at the first edge at which the core is idle, 24 cycles later when its clocks are gated (R377). -/
def swatchStart (c : Nat) (s : State) : State :=
  let k := coreAt s c
  if !k.st.swatchDue || k.st.run.isSome || !swatchCore s c then s
  else
    let s1 := passToCyc s (max s.clk.tickCyc k.st.idleAt + wake k)
    modCore s1 c fun k => k.swatch c s1.clk.cyc

/-- SWATCH_START. -/
def execSwatchStart (c : CoreId) (s : State) : Host.Outcome State Fault Refusal := run s (swatchStart c)

/-- A failed swatch of core c, with the sources that fire with it in the same cycle (R380). -/
def swatchFailed (c det : Nat) (more : List Fire) (s : State) : State :=
  let n := (coreAt s c).st.swFail
  let again := if n = 0 then [] else [({ b := bCC c, src := 8, who := .core c } : Fire)]
  fireAll (more ++ ({ b := bCC c, src := 7, det := BitVec.ofNat 32 det, who := .core c } : Fire) :: again)
    (modSt s c fun k => { k with swFail := min (n + 1) 7, swPass := false })

/-- The core has left its swatch, after `n` cycles of it. -/
def swatchOver (c n : Nat) (s : State) : State :=
  countRun c 2 n (modSt s c fun k => { k with swatchAt := none, swatchDue := false, idleAt := s.clk.cyc, idleSince := s.clk.cyc })

/-- Signature of a swatch: the CRC-32 of the scratchpad's first 65,536 bytes and the check response word (R379). -/
def swatchSig (m : Mem) (resp : Word) : Word := crc32 (m.rdN 0 65536 ++ leBytes 4 resp.toNat)

/-- The check response word: the expected detections, and the count of unexpected events (R379). -/
def checkResponse (found : BitVec 11) (extra : Nat) : Word := BitVec.ofNat 32 (found.toNat + min extra 0xFFFF * 2 ^ 16)

/-- The swatch of core c ends after its 49,152 cycles and is judged (R377, R379, R380). -/
def swatchEnd (c : Nat) (resp : Word) (s : State) : State :=
  match (coreAt s c).st.swatchAt with
  | none => s
  | some t =>
    let s1 := passToCyc s (t + 49152)
    if 100000 < offNs s1 then s
    else
      let sig := swatchSig (coreAt s1 c).asp resp
      let s2 := modSt (swatchOver c 49152 s1) c fun k => { k with swSig := sig }
      if sig.toNat = itmN s 8 0x10 c 0 then modSt s2 c fun k => { k with swFail := 0, swPass := true }
      else swatchFailed c 0 [] s2

/-- SWATCH_END. -/
def execSwatchEnd (c : CoreId) (found : BitVec 11) (extra : Nat) (s : State) : Host.Outcome State Fault Refusal :=
  run s (swatchEnd c (checkResponse found extra))

/-- A swatch that has not ended by offset 100,000 ns is stopped; of a core that is fenced nothing is raised (R380). -/
def swatchTimeout (c : Nat) (s : State) : State :=
  let k := (coreAt s c).st
  if (k.swatchAt.isNone && !k.swatchDue) || !inService s (dCore c) then s
  else
    let s1 := passToOff s 100000
    swatchFailed c 1 [] (swatchOver c (match k.swatchAt with | some t => s1.clk.cyc - t | none => 0) s1)

/-- SWATCH_TIMEOUT. -/
def execSwatchTimeout (c : CoreId) (s : State) : Host.Outcome State Fault Refusal := run s (swatchTimeout c)

/-! ### The settle point -/

/-- Partitions whose settle point has been carried out, all of those the plan uses. -/
def allSettled (s : State) : Bool := (List.range 4).all fun p => !usesPart s p || s.disp.settled.contains p

/-- The settle point of partition p: its held records are posted; after the last one, the tick record (R30, R294). -/
def settlePoint (p : Nat) (s : State) : State :=
  if !patActive s || !usesPart s p || s.disp.settled.contains p then s
  else
    let s1 := postHeld p (passToOff s (settleNs s p))
    let s2 := { s1 with disp := { s1.disp with settled := s1.disp.settled ++ [p] } }
    if allSettled s2 && s2.time.droopAtRec.isNone then postTick false s2 else s2

/-- SETTLE_POINT. -/
def execSettlePoint (p : Fin 4) (s : State) : Host.Outcome State Fault Refusal := run s (settlePoint p)

end Sys2Proof.Machine
end

