-- ==== Sys2Proof/Machine/VectorMem.lean ====
section
/-!
DEFINITION. The vector instructions that load, store, pool, requantise and move accumulators (07, R172 to R178; 04, R120 to
R122).
-/
namespace Sys2Proof.Machine

/-- Value of a loop counter as the entry's dispatch saw it (R167). -/
def QEnt.ctr (e : QEnt) (i : Nat) : Nat := (e.ctrs.getD i 0).toNat

/-- A counter when its enable bit is set, else 0. -/
def QEnt.ctrIf (e : QEnt) (en : Bool) (i : BitVec 3) : Nat := if en then e.ctr i.toNat else 0

/-! ### VLD and VST -/

/-- Bytes of an access by FMT (Table 7.3). -/
def fmtBytes (fmt : Nat) : Nat := if fmt ≤ 1 then 64 else if fmt = 4 then 256 else 128

/-- Byte address of a VLD or VST (R172). -/
def vmemAddr (f : VmemF) (e : QEnt) : Nat := (f.addr.toNat + e.ctrIf f.cen f.cnt) * 64

/-- Lane k of a load: its memory element converted (Table 7.3). -/
def loadLane (fmt : Nat) (bs : List Byte) (k : Nat) : Word :=
  match fmt with
  | 0 => (bs.getD k 0).signExtend 32
  | 1 => (bs.getD k 0).zeroExtend 32
  | 2 => BitVec.ofInt 32 (signedOf 12 (leAt bs (2 * k) 2))
  | 3 => BitVec.ofInt 32 (signedOf 16 (leAt bs (2 * k) 2))
  | 5 => bf16Read (leAt bs (2 * k) 2)
  | _ => BitVec.ofNat 32 (leAt bs (4 * k) 4)

/-- The bytes of a lane in memory (Table 7.3). -/
def storeLane (fmt : Nat) (x : Word) : List Byte :=
  match fmt with
  | 0 => leBytes 1 (wrapTo 8 (clampI x.toInt (-128) 127))
  | 1 => leBytes 1 (wrapTo 8 (clampI x.toInt 0 255))
  | 2 => leBytes 2 (wrapTo 16 (clampI x.toInt (-2048) 2047))
  | 3 => leBytes 2 (wrapTo 16 (clampI x.toInt (-32768) 32767))
  | 5 => leBytes 2 (bf16Of x)
  | _ => leBytes 4 x.toNat

/-- Bytes as cells from an address on. -/
def cellsAt (a : Nat) (bs : List Byte) : List Host.Cell := bs.mapIdx fun i b => (a + i, b)

/-- The scratchpad as the Vector Unit reads it in cycle t: with its own writes of that cycle (R171). -/
def vectorView (k : Core) (t : Nat) : Mem :=
  (k.pend.filter fun w => decide (w.at_ ≤ t) && w.by_ == .vector).foldl (fun m w => m.storeCells 8 w.cells) k.asp

/-- VLD (R172). -/
def execVld (c : CoreId) (d : Bool) (f : VmemF) (s : State) : Host.Outcome State Fault Refusal :=
  let n := fmtBytes f.fmt.toNat
  run s (issue c .vector (wordVmem 0x38 f) (vectorFree c) fun e s =>
    let a := vmemAddr f e
    vectorAct c 1 4 d []
      (fun s _ => if aobBase < a + n then .skip 0xC
        else .ok [(f.reg.toNat, (List.range 64).map (loadLane f.fmt.toNat ((vectorView (coreAt s c) s.clk.cyc).rdN a n)))] [] none)
      (readRun (.asp c) (some c.val) a n) e s)

/-- VST (R172): the bytes are written four cycles after the issue. -/
def execVst (c : CoreId) (d : Bool) (f : VmemF) (s : State) : Host.Outcome State Fault Refusal :=
  let n := fmtBytes f.fmt.toNat
  run s (vectorOp c (wordVmem 0x39 f) 1 4 d [f.reg.toNat]
    (fun s e => if aobBase < vmemAddr f e + n then .skip 0xC
      else .ok [] (cellsAt (vmemAddr f e) ((regLanes (coreAt s c) f.reg.toNat).flatMap (storeLane f.fmt.toNat))) none) id)

/-! ### VTLD -/

/-- The table at parameter unit k (Table 7.4). -/
def tableOf (x : Ctx) (k : Nat) : VTable :=
  { x0 := BitVec.ofNat 32 (fld (x.par k) 31 0), sh := fld (x.par k) 36 32,
    t := (List.range 256).map fun i =>
      BitVec.ofNat 16 (fld (x.par (k + 1 + i / 16)) (16 * (i % 16) + 15) (16 * (i % 16))) }

/-- VTLD (R174). -/
def execVtld (c : CoreId) (d : Bool) (k : BitVec 3) (poff : BitVec 13) (s : State) : Host.Outcome State Fault Refusal :=
  run s (vectorOp c (wordVtld k poff) 16 17 d []
    (fun s _ => .ok [] [] (some (k.toNat, tableOf (ctxOf s c) poff.toNat))) id)

/-! ### VPOOL -/

/-- Value of a stored element: INT8, UINT8, INT12, INT16. -/
def elemVal (fmt n : Nat) : Int :=
  match fmt with
  | 0 => signedOf 8 n
  | 1 => (n % 256 : Nat)
  | 2 => signedOf 12 n
  | _ => signedOf 16 n

/-- PAD_VALUE taken in AFMT (04, R97). -/
def Geom.padVal (g : Geom) : Int := elemVal g.afmt g.pad

/-- In-image position of tap (u, v) of output pixel (y, x) (04, R99). -/
def Geom.tapAt (g : Geom) (y x u v : Nat) : Option (Nat × Nat) :=
  let row : Int := (y * g.sh + u * g.dh : Nat) - (g.pt : Int)
  let col : Int := (x * g.sw + v * g.dw : Nat) - (g.pl : Int)
  if 0 ≤ row ∧ row < g.h ∧ 0 ≤ col ∧ col < g.w then some (row.toNat, col.toNat) else none

/-- The window of output pixel p: an in-image position or none for each tap. -/
def Geom.window (g : Geom) (p : Nat) : List (Option (Nat × Nat)) :=
  (List.range g.kh).flatMap fun u => (List.range g.kw).map fun v => g.tapAt (p / g.wo) (p % g.wo) u v

/-- Byte address of pixel (r, c) of channel block b in the channel-blocked layout at `base` (R173). -/
def Geom.pixel (g : Geom) (base b : Nat) (rc : Nat × Nat) : Nat :=
  base + (b * g.h * g.w + rc.1 * g.w + rc.2) * 64 * elemBytes g.afmt

/-- The pooled value of a window from its in-image elements (04, R121, R122). -/
def Geom.pooled (g : Geom) (vals : List Int) (size : Nat) : Int :=
  if g.mode = 4 then (match vals with | [] => g.padVal | v :: vs => vs.foldl max v)
  else if g.mode = 5 then (if vals.isEmpty then g.padVal else rneDiv (vals.foldl (· + ·) 0) vals.length)
  else rneDiv (vals.foldl (· + ·) ((size - vals.length : Nat) * g.padVal)) size

/-- Cycles a VPOOL occupies the vector queue (Table 7.2). -/
def Geom.poolCycles (g : Geom) : Nat := g.kh * g.kw + (if g.mode = 4 then 0 else 2)

/-- The record a VPOOL names; one that is not carried pools nothing. -/
def poolGeom (s : State) (c : Nat) (i : Nat) : Option Geom := (ctxOf s c).geom i

/-- Addresses of the window's in-image pixels. -/
def poolReads (g : Geom) (base b p : Nat) : List Nat := (g.window p).filterMap fun o => o.map (g.pixel base b)

/-- VPOOL (R173). -/
def execVpool (c : CoreId) (d : Bool) (vd : BitVec 5) (geom : BitVec 3) (base : BitVec 15) (pcnt bcnt : BitVec 3)
    (s : State) : Host.Outcome State Fault Refusal :=
  run s (issue c .vector (wordVpool vd geom base pcnt bcnt) (vectorFree c) fun e s =>
    match poolGeom s c geom.toNat with
    | none => skipAtIssue c .vector e 0xC 0 s
    | some g =>
      let p := e.ctr pcnt.toNat
      let n := 64 * elemBytes g.afmt
      let at_ := poolReads g (base.toNat * 64) (e.ctr bcnt.toNat) p
      let bad := decide (g.ho * g.wo ≤ p) || at_.any fun a => decide (aobBase < a + n)
      vectorAct c g.poolCycles (g.poolCycles + 3) d []
        (fun s _ => if bad then .skip 0xC
          else
            let rows := at_.map fun a => (vectorView (coreAt s c) s.clk.cyc).rdN a n
            .ok [(vd.toNat, (List.range 64).map fun k =>
              BitVec.ofInt 32 (g.pooled (rows.map fun r => elemVal g.afmt (leAt r (elemBytes g.afmt * k) (elemBytes g.afmt)))
                (g.kh * g.kw)))] [] none)
        (fun s => at_.foldl (fun s a => readRun (.asp c) (some c.val) a n s) s) e s)

/-! ### Drain reads -/

/-- What a drain read names: array, SRC, RG, NARROW. -/
structure DrainRd where
  array : Nat
  src : Nat
  rg : Nat
  narrow : Bool

/-- Drain Buffer entry or OTB index in the core's lists. -/
def DrainRd.idx (r : DrainRd) : Nat := 2 * r.array + r.src % 2

/-- Entry of a Drain Buffer at cycle `now`: a WINOGRAD tile has left it at e + 36 (R112). -/
def drainAt (k : Core) (i now : Nat) : Option Drain :=
  match k.mx.drains.getD i none with
  | some d => if d.mode = 1 ∧ d.e + 36 ≤ now then none else some d
  | none => none

/-- A drain read is inconsistent at cycle `now`, with reason 0x6 (R178). -/
def drainBad (k : Core) (r : DrainRd) (now : Nat) : Bool :=
  if r.src ≥ 2 then r.narrow || (let o := k.mx.otbs.getD r.idx {}; o.st == .ready && o.read.contains r.rg)
  else match drainAt k r.idx now with
  | none => false
  | some d => d.mode == 1 || (r.narrow != (d.mode == 2)) || d.read.contains r.rg

/-- First cycle from `now` on at which the row-group is readable or found inconsistent, none while what it names holds nothing
(R178, Table 3.3, R117, R114). -/
def drainReady (k : Core) (r : DrainRd) (now : Nat) : Option Nat :=
  if drainBad k r now then some now
  else if r.src ≥ 2 then
    let o := k.mx.otbs.getD r.idx {}
    if o.st == .ready then some (max now o.readyAt) else none
  else (drainAt k r.idx now).map fun d => max now (if r.narrow then d.e + 4 * r.rg + 23 else d.e + r.rg + 20)

/-- The 256 values of a row-group, in order 64k + L (R175). -/
def drainVals (k : Core) (r : DrainRd) : List (BitVec 40) :=
  let pos := fun (i : Nat) =>
    let kk := i / 64
    let l := i % 64
    if r.src ≥ 2 then r.rg / 16 * 4096 + (4 * (r.rg % 16) + kk) * 64 + l
    else if r.narrow then (16 * r.rg + 4 * kk + l / 16) * 64 + l % 16
    else (4 * r.rg + kk) * 64 + l
  let src := if r.src ≥ 2 then (k.mx.otbs.getD r.idx {}).out
    else match k.mx.drains.getD r.idx none with | some d => d.tile | none => []
  (List.range 256).map fun i => src.getD (pos i) 0

/-- What a vector word reads of a drain, if it is a drain read. -/
def drainRdOf (w : BitVec 48) : Option DrainRd :=
  if fld w 47 41 = 0x3C then some ⟨fld w 35 34, fld w 33 32, fld w 31 26, bitAt w 25⟩
  else if fld w 47 41 = 0x3D then some ⟨fld w 40 39, fld w 38 37, fld w 36 31, bitAt w 30⟩
  else none

/-- A matrix word fills what a drain read names. -/
def fillsDrain (r : DrainRd) (w : BitVec 48) : Bool :=
  bitAt w 35 && bitAt w (39 + r.array) &&
    (if r.src ≥ 2 then fld w 21 20 == 1 && bitAt w 2 == (r.src == 3) else bitAt w 38 == (r.src == 1))

/-- A drain read waits at the head of the vector queue, and a matrix entry of the command remains that fills what it reads (R178). -/
def drainAwaited (k : Core) (now : Nat) : Bool :=
  match k.sq.qv with
  | [] => false
  | e :: _ =>
    match drainRdOf e.slot with
    | none => false
    | some r => (gateCycle k .vector e).isSome && (drainReady k r now).isNone && k.sq.qm.any fun m => fillsDrain r m.slot

/-- The row-group is marked read; the entry empties with its last one (R86, R114, R117), so that a WINOGRAD LAST that waits for an
OTB may issue in the cycle of its 64th read (DESIGN CHOICE, entry 69). -/
def drainRead (c : Nat) (r : DrainRd) (s : State) : State :=
  modCore s c fun k =>
    if r.src ≥ 2 then
      { k with mx := { k.mx with otbs := upd k.mx.otbs r.idx fun o =>
          if o.read.length + 1 ≥ 64 then {} else { o with read := o.read ++ [r.rg] } } }
    else
      { k with mx := { k.mx with drains := upd k.mx.drains r.idx fun o => o.bind fun d =>
          if d.read.length + 1 ≥ (if r.narrow then 4 else 16) then none else some { d with read := d.read ++ [r.rg] } } }

/-- The vector queue is free and the row-group readable. -/
def drainWait (c : Nat) (r : DrainRd) (s : State) (e : QEnt) : Option Nat :=
  let k := coreAt s c
  drainReady k r (max (max k.vu.vAt s.clk.cyc) (max (e.at_ + 1) ((gateCycle k .vector e).getD 0)))

/-- Output channel of element i of a drain read, without the counter (R175). -/
def DrainRd.channel (r : DrainRd) (i : Nat) : Nat :=
  if r.narrow then 16 * r.array + i % 64 % 16 else 64 * r.array + i % 64

/-- The drain read of an RQ. -/
def rqRd (f : RqF) : DrainRd := ⟨f.array.toNat, f.src.toNat, f.rg.toNat, f.narrow⟩

/-- Parameters of every element of an RQ; none when one selects an entry that is not there or has a reserved bit set
(R176). -/
def rqParams (x : Ctx) (de : RqDesc) (r : DrainRd) (cbase : Nat) : Option (List Requant) :=
  (List.range 256).mapM fun i =>
    if de.perch then
      match x.perch de (cbase + r.channel i) with
      | some u => if perchOk u then some (perchOf u) else none
      | none => none
    else some ⟨de.bias, de.m, de.sh, de.zp⟩

/-- RQ (R175, R176). -/
def execRq (c : CoreId) (d : Bool) (f : RqF) (s : State) : Host.Outcome State Fault Refusal :=
  run s (issue c .vector (wordRq f) (drainWait c (rqRd f)) fun e s =>
    let x := ctxOf s c
    let de := rqDescOf (x.par f.pset.toNat)
    if drainBad (coreAt s c) (rqRd f) s.clk.cyc then skipAtIssue c .vector e 6 0 s
    else match rqParams x de (rqRd f) (e.ctrIf f.cen f.cnt) with
    | none => skipAtIssue c .vector e 0xC 0 s
    | some ps =>
      let ys := (ps.zip (drainVals (coreAt s c) (rqRd f))).map fun x =>
        BitVec.ofInt 32 (requant x.1 de.bounds.1 de.bounds.2 x.2)
      vectorAct c 1 5 d [] (fun _ _ => .ok ((List.range 4).map fun k => (f.vd.toNat + k, (ys.drop (64 * k)).take 64)) [] none)
        (drainRead c (rqRd f)) e s)

/-- The drain read of a VMOVACC. -/
def movRd (f : MovAccF) : DrainRd := ⟨f.array.toNat, f.src.toNat, f.rg.toNat, f.narrow⟩

/-- An ACC40 container (02, R39). -/
def accBytes (v : BitVec 40) : List Byte := leBytes 8 (wrapTo 64 v.toInt)

/-- VMOVACC (R177). -/
def execVmovacc (c : CoreId) (d : Bool) (f : MovAccF) (s : State) : Host.Outcome State Fault Refusal :=
  run s (issue c .vector (wordMovAcc f) (drainWait c (movRd f)) fun e s =>
    let a := f.addr.toNat * 64
    if drainBad (coreAt s c) (movRd f) s.clk.cyc then skipAtIssue c .vector e 6 0 s
    else if aobBase < a + 2048 then skipAtIssue c .vector e 0xC 0 s
    else vectorAct c 2 5 d [] (fun s _ => .ok [] (cellsAt a ((drainVals (coreAt s c) (movRd f)).flatMap accBytes)) none)
      (drainRead c (movRd f)) e s)

end Sys2Proof.Machine
end

