-- ==== Sys2Proof/Machine/Jobs.lean ====
section
/-!
DEFINITION. The Job Dispatcher (12): stage opens and closes (01, R26; 15, R381), submission (R304 to R311), turns (R315 to
R317), image copies and dispatch (R303 to R307; 06, R145), grace and cut-off (R318, R319), and the ends of a command that time
brings (06, R148, R161, R163).
-/
namespace Sys2Proof.Machine

/-! ### Stages -/

/-- Jobs of the Pattern that are bound to a stage, in ascending index (13, R332). -/
def jobsOfStage (s : State) (st : Nat) : List Nat :=
  (s.glb.pat.filter fun x => x.sec == 2 && x.id == 0x20 && x.val.toNat == st).map PItem.idx

/-- Command i of the Pattern: its core and its header's Bundle Store index. -/
def cmdItem (s : State) (i : Nat) : Nat × Nat := (itmF s 2 0x30 i 0 3 0, itmF s 2 0x30 i 0 16 4)

/-- Job j as launched in a stage (R303, R332). -/
def launchJob (s : State) (st j : Nat) : LcJob :=
  let first := itmN s 2 0x22 j 0
  let cmds := (List.range (itmN s 2 0x23 j 0)).map fun i =>
    ({ core := (cmdItem s (first + i)).1, hdr := (cmdItem s (first + i)).2, idx := i } : LcCmd)
  { stage := st, job := j, part := (partOf s (cmdItem s first).1).getD 0, tag := itmN s 2 0x21 j 0, cring := itmN s 10 4 j 0,
    cmds := cmds, at_ := startCyc s }

/-- The open of a stage: its latency-critical jobs are launched (R26). -/
def stageOpen (st : Nat) (s : State) : State :=
  match stageAt s st with
  | none => s
  | some g =>
    if !patActive s || s.disp.opened.contains st then s
    else
      let s1 := trace 0x05 st 0 (passToOff s g.openNs)
      let jobs := if g.compute && !s1.glb.safe then (jobsOfStage s1 st).map (launchJob s1 st) else []
      { s1 with disp := { s1.disp with opened := s1.disp.opened ++ [st], jobs := s1.disp.jobs ++ jobs } }

/-- STAGE_OPEN. -/
def execStageOpen (st : Fin 16) (s : State) : Host.Outcome State Fault Refusal := run s (stageOpen st)

/-- A command of a stage that has not completed at the close: its run is ended, a replay that it owed has failed, and its held
record carries DEADLINE (R373, R381). -/
def closeCmd (st : Nat) (j : LcJob) (s : State) (x : LcCmd) : State :=
  if x.phase == .ended then s
  else
    let run := (coreAt s x.core).st.run.filter fun r => r.lc && r.stage == st && r.job == j.job && r.idx == x.idx
    let n := match run with | some r => runCycles s r | none => 0
    let s1 := match x.event with | some ev => persist x.core ev true j.part s | none => s
    let s2 := match run with | some r => abortRun x.core r 5 s1 | none => s1
    lcOver st j.job x.idx 0x41 n s2

/-- Partitions that still have a latency-critical job of the stage not ended. -/
def latePart (s : State) (st p : Nat) : Bool := s.disp.jobs.any fun j => j.stage == st && j.part == p && !j.ended

/-- The unfinished jobs of a stage are ended at its close (R381). -/
def closeLate (st : Nat) (late : List Nat) (s : State) : State :=
  let jobs := s.disp.jobs.filter fun j => j.stage == st && !j.ended
  let s1 := jobs.foldl (fun s j => j.cmds.foldl (closeCmd st j) s) s
  let s2 := { s1 with disp := { s1.disp with deadline := late.foldl (fun d p => putBit d p true) s1.disp.deadline } }
  fire { b := bDISP, src := 7, det := BitVec.ofNat 32 st, who := .parts late } (voidParts late s2)

/-- The close of a COMPUTE stage (R381; 05, R137). -/
def stageClose (st : Nat) (s : State) : State :=
  match stageAt s st with
  | none => s
  | some g =>
    if !patActive s || !g.compute || s.disp.closed.contains st then s
    else
      let s1 := trace 0x05 st 1 (passToOff s g.closeNs)
      let s2 := { s1 with
        disp := { s1.disp with closed := s1.disp.closed ++ [st] }
        rsmp := s1.rsmp.map fun (k : Rsmp) => if k.resvFor = some st then { k with resvFor := none } else k }
      let late := (List.range 4).filter (latePart s2 st)
      if late.isEmpty || s2.glb.safe then s2 else closeLate st late s2

/-- STAGE_CLOSE. -/
def execStageClose (st : Fin 16) (s : State) : Host.Outcome State Fault Refusal := run s (stageClose st)

/-! ### Submission -/

/-- A submission entry (Table 12.1). -/
structure SubEntry where
  seq : Word
  tag : Nat
  clist : Nat
  cnt : Nat
  reserved : Bool

def subEntryOf (u : BitVec 512) : SubEntry :=
  { seq := u.truncate 32, tag := fld u 47 32, clist := fld u 127 64, cnt := fld u 139 128 + 1,
    reserved := fld u 63 48 != 0 || fld u 511 140 != 0 }

/-- The entry passes R307. -/
def SubEntry.ok (e : SubEntry) (s : State) : Bool :=
  !e.reserved && e.clist % 32 == 0 && decide (e.clist + 32 * e.cnt ≤ dramGenEnd s)

/-- A job record (R310, R312). -/
def jobRecord (s : State) (r : Nat) (e : SubEntry) (status orig : Nat) : CplRec :=
  { status := status, ring := r, last := true, jobrec := true, part := (subAt s r).part, orig := orig, jobref := e.seq,
    tag := e.tag, cmd := 0xFFF, tick := s.time.tick, doneOff := offNs s }

/-- Ring r waits for its next entry: enabled, its partition defined, no job in progress, an entry there. -/
def wantsFetch (s : State) (r : Nat) : Bool :=
  let k := subAt s r
  k.en && patActive s && !s.glb.safe && partDefined s k.part && k.job.isNone && k.head != k.tail % 2 ^ k.sizeLog2 && !k.refetch

/-- Ring r can be fetched from: it waits for an entry, and requests are possible (20, R462). -/
def canFetch (s : State) (r : Nat) : Bool := wantsFetch s r && pciUp s

/-- The next entry of ring r is fetched: a duplicate, a bad entry, or a job that starts (R304, R307, R310, R311). -/
def submissionFetch (r : Nat) (s : State) : State :=
  if !canFetch s r then s
  else
    let k := subAt s r
    let e := subEntryOf (BitVec.ofNat 512 (s.host.rdLe (k.base.toNat + 64 * k.head) 64))
    let s1 := modSub s r fun k => { k with head := (k.head + 1) % 2 ^ k.sizeLog2 }
    let d := (e.seq - k.highSeq).toNat
    if d = 0 ∨ 2 ^ 31 ≤ d then
      postCpl s1 (jobRecord s1 r e 0x02 (((k.history.find? fun h => h.1 == e.seq).map Prod.snd).getD 0xFF))
    else
      let s2 := modSub s1 r fun k => { k with highSeq := e.seq }
      if e.ok s2 then
        startTurns (modSub s2 r fun k => { k with job := some { seq := e.seq, tag := e.tag, clist := e.clist, cnt := e.cnt } })
      else
        fire { b := bDISP, src := 2 }
          (postCpl (modSub s2 r fun k => { k with history := ((e.seq, 0x23) :: k.history).take 64 }) (jobRecord s2 r e 0x23 0))

/-- SUBMISSION_FETCH. -/
def execSubmissionFetch (r : Fin 8) (s : State) : Host.Outcome State Fault Refusal := run s (submissionFetch r)

/-! ### Turns -/

/-- Free intervals of partition p from now to the next boundary, in order (R315). -/
def freeIvs (s : State) (p : Nat) : List (Nat × Nat) :=
  let o := offNs s
  let next := ((boundaries s p).filter fun b => decide (o < b)).foldl min s.time.period
  (boundaries s p).foldl (fun ivs b => cutOut ivs (b - s.disp.grace.1) b) (cutOut [(o, next)] 0 100000)

/-- Counts from now until `left` ns of availability have passed; a turn that ends exactly at a grace point pauses there (Table
12.5). -/
def turnEndIn (o : Nat) : List (Nat × Nat) → Nat → Option Nat
  | [], _ => none
  | iv :: rest, left => if left < iv.2 - iv.1 then some (iv.1 + left - o) else turnEndIn o rest (left - (iv.2 - iv.1))

/-- The turn on partition p ends: its job's debt grows while commands of it still run, and the next turn begins (R316, R317). -/
def endTurn (p r : Nat) (s : State) : State :=
  let alone := (turnOrder s p r).length ≤ 1
  beginTurn p (modBe r (fun j => { j with growing := !j.running.isEmpty && !alone }) s)

/-- The slice of partition p's turn runs out, if it does before the next grace point. -/
def turnEnd (p : Nat) (s : State) : State :=
  match s.disp.turns.getD p none with
  | none => s
  | some t =>
    if !patActive s || s.glb.safe || lcOccupied s p then s
    else match turnEndIn (offNs s) (freeIvs s p) t.left with
    | some n => endTurn p t.ring (passNs s n)
    | none => s

/-- TURN_END. -/
def execTurnEnd (p : Fin 4) (s : State) : Host.Outcome State Fault Refusal := run s (turnEnd p)

/-! ### Best-effort image copies -/

/-- A command list entry (Table 12.2). -/
structure ListEntry where
  core : Nat
  units : Nat
  addr : Nat
  reserved : Bool

def listEntryOf (u : BitVec 256) : ListEntry :=
  { core := fld u 3 0, units := fld u 21 8, addr := fld u 95 32,
    reserved := fld u 7 4 != 0 || fld u 31 22 != 0 || fld u 255 96 != 0 }

/-- Best-effort range of core c: first unit and units (R306). -/
def beRange (s : State) (c : Nat) : Nat × Nat := (itmN s 4 4 c 0, itmN s 4 5 c 0)

/-- Why the command of an entry cannot run: its status and the dispatcher's source, by the first row of Table 12.3 that applies. -/
def listEntryBad (s : State) (part : Nat) (e : ListEntry) : Option (Nat × Option Nat) :=
  if !present s e.core then some (0x20, some 0)
  else if isRetired s e.core then some (0x20, some 1)
  else if !(s.disp.parts.getD part 0).getLsbD e.core then some (0x23, some 3)
  else if e.reserved || decide (e.units < 2) || decide ((beRange s e.core).2 < e.units) || e.addr % 32 != 0 ||
      decide (dramGenEnd s < e.addr + 32 * e.units) then some (0x23, some 3)
  else if !inService s (dCore e.core) then some (0x21, none)
  else none

/-- Ring r may dispatch a command now: its turn has time left and partition p is available (R303, R315, R318). -/
def beMay (s : State) (r : Nat) : Bool :=
  let p := (subAt s r).part
  patActive s && !s.glb.safe && dramUp s && !lcOccupied s p && decide (100000 ≤ offNs s) &&
    (match s.disp.turns.getD p none with | some t => t.ring == r && decide (0 < t.left) | none => false) &&
    !(boundaries s p).any fun b => decide (b - s.disp.grace.1 ≤ offNs s) && decide (offNs s < b)

/-- The command that a job dispatches next: aborted ones first, in list order (R321). -/
def BeJob.nextCmd (j : BeJob) : Option Nat :=
  match j.aborted with
  | i :: _ => some i
  | [] => if j.next < j.cnt then some j.next else none

/-- The job has taken its next command. -/
def BeJob.take (j : BeJob) : BeJob :=
  match j.aborted with
  | _ :: rest => { j with aborted := rest }
  | [] => { j with next := j.next + 1 }

/-- The image of a command is copied into core c's best-effort range, and the core holds the command (R306). -/
def copyImage (r i : Nat) (j : BeJob) (e : ListEntry) (s : State) : State :=
  let c := e.core
  let dst := 32 * (beRange s c).1
  let bad := poisoned s .dram e.addr (32 * e.units)
  let s1 := writeData (.bst c) none dst (s.drc.mem.rdN e.addr (32 * e.units)) bad (readRun .dram none e.addr (32 * e.units) s)
  let rn : Run := { id := s.runSeq, part := (subAt s r).part, ring := r, idx := i, phase := .image,
                    until_ := startCyc s + 384 + e.units, hdr := (beRange s c).1, replay := assoc j.replay i,
                    rerun := !j.aborted.isEmpty }
  let s2 := modSt { s1 with runSeq := s1.runSeq + 1 } c fun k => { k with run := some rn }
  modBe r (fun j => { j.take with running := j.running ++ [(i, c)] }) s2

/-- The list entry of the job's next command is read, and the command rejected or its image copied (R305, R306, R307). -/
def takeCmd (r i : Nat) (j : BeJob) (s : State) : State :=
  let a := j.clist + 32 * i
  let s1 := readRun .dram none a 32 s
  let e := listEntryOf (BitVec.ofNat 256 (s1.drc.mem.rdLe a 32))
  match listEntryBad s1 (subAt s r).part e with
  | some (status, src) =>
    let s2 := match src with
      | some n => fire { b := bDISP, src := n, who := .parts [] } s1
      | none => s1
    beOver r i e.core status 0 (modBe r (fun j => j.take) s2)
  | none =>
    let k := (coreAt s1 e.core).st
    if k.run.isSome || k.swatchAt.isSome || k.swatchDue then s
    else
      let s2 := passToCyc s1 k.idleAt
      if beMay s2 r then copyImage r i j e s2 else s

/-- The next command of ring r's job is taken, from offset 100,000 ns on. -/
def imageCopy (r : Nat) (s : State) : State :=
  match (subAt s r).job with
  | none => s
  | some j =>
    let s1 := if patActive s && decide (offNs s < 100000) then passToOff s 100000 else s
    if !beMay s1 r then s
    else match j.nextCmd with
    | some i => takeCmd r i j s1
    | none => s

/-- BE_IMAGE_COPY. -/
def execBeImageCopy (r : Fin 8) (s : State) : Host.Outcome State Fault Refusal := run s (imageCopy r)

/-! ### Setup and dispatch -/

/-- The units that setup reads are read (06, R145): the header and the record blocks. -/
def setupReads (c hdr : Nat) (h : Hdr) (s : State) : State :=
  let blocks := [(0, 1), (h.geomOff, h.geomCnt), (h.reqOff, h.reqCnt), (h.srcOff, (h.srcCnt + 1) / 2), (h.regOff, h.regCnt)]
  blocks.foldl (fun s b => if b.2 = 0 then s else readRun (.bst c) (some c) (32 * (hdr + b.1)) (32 * b.2) s) s

/-- CMD_START trace record (19, Table 19.10). -/
def traceStart (c : Nat) (jobref : Word) (r : Run) (s : State) : State :=
  trace 0x02 c (BitVec.ofNat 64 (jobref.toNat + r.idx * 2 ^ 32 + b2n r.lc * 2 ^ 44 + b2n r.rerun * 2 ^ 45)) s

/-- JOBREF of a run (Table 12.4). -/
def jobrefOf (s : State) (r : Run) : Word :=
  if r.lc then BitVec.ofNat 32 (r.job + r.stage * 2 ^ 16) else (((subAt s r.ring).job.map BeJob.seq).getD 0)

/-- The core as the first bundle of its command finds it (06, R146 to R150, R164; 08, R195). -/
def Core.fresh (k : Core) (r : Run) (entry tag now : Nat) : Core :=
  let k1 := k.cleared now
  { k1 with
    st := { k1.st with run := some r, holds := [], skipInfo := 0, skipCount := 0, gated := false, lastAct := now }
    sq := { k1.sq with pc := r.hdr + entry, dispAt := now, blockedAt := none, cnt := [0, 0, 0, 0, 0, 0, 0, 0],
                       pf := [false, false, false, false], syAt := 0 }
    mx := { k1.mx with checks := [] }
    asp := k1.asp.forget tag
    wbs := k1.wbs.forget (tag + 1) }

/-- A command is rejected at the end of its setup (06, R144, R145). -/
def rejectCmd (c : Nat) (r : Run) (src det : Nat) (s : State) : State :=
  let s1 := fire { b := bCC c, src := src, det := BitVec.ofNat 32 det, who := whoOn s c } s
  let void := ((coreAt s1 c).st.run.getD r).void
  runOver c r (if void then 0x40 else 0x23) 0 (traceEnd c (if void then 0x40 else 0x23) 0 0 (leaveCore c (s1.clk.cyc + 1) s1))

/-- The setup of the run on core c began at cycle `from_`: it ends in a rejection or in the first bundle (06, R144, R145). -/
def setupRun (c : Nat) (r0 : Run) (from_ : Nat) (s : State) : State :=
  let im := imgOn s c r0.hdr
  let h := hdrOf (im.unit 0)
  let r := { r0 with phase := .setup, decl := h.decl, setup := setupCycles im r0.hdr }
  let s1 := modSt (passToCyc s (from_ + r.setup + wake (coreAt s c))) c fun k => { k with run := some { r with void := r.void || (k.run.map Run.void).getD false } }
  match commandFail s1 im r.hdr r.lc with
  | some (src, det) => rejectCmd c r src det (setupReads c r.hdr {} s1)
  | none =>
    let s2 := setupReads c r.hdr h s1
    let r1 := { (coreAt s2 c).st.run.getD r with phase := .running, start := s2.clk.cyc }
    let s3 := modCore { s2 with freeSeq := s2.freeSeq + 2 } c fun k => k.fresh r1 h.entry s2.freeSeq s2.clk.cyc
    traceStart c (jobrefOf s3 r1) r1 s3

/-- Grace point of the next boundary of partition p, as an offset (R318). -/
def nextGrace (s : State) (p : Nat) : Nat :=
  let o := offNs s
  let b := ((boundaries s p).filter fun b => decide (o < b)).foldl min s.time.period
  b - s.disp.grace.1

/-- A best-effort command goes from its image copy through its setup, if that ends by the grace point, on a partition that is not
latency-critically occupied (R306, R314, R318, R319). -/
def beSetup (c : Nat) (r : Run) (s : State) : State :=
  let n := nsUntilCyc s (r.until_ + setupCycles (imgOn s c r.hdr) r.hdr + wake (coreAt s c))
  if patActive s && !lcOccupied s r.part && decide (offNs s + n ≤ nextGrace s r.part) then setupRun c r r.until_ s else s

/-- The first latency-critical command of core c that has not ended, with its job (R303). -/
def nextOf (s : State) (c : Nat) : Option (LcJob × LcCmd) :=
  (s.disp.jobs.flatMap fun j => (j.cmds.filter fun x => x.core == c && x.phase != .ended).map fun x => (j, x)).head?

/-- Core c can begin a setup: in service, not retired, no command on it, no swatch running or due. -/
def coreFree (s : State) (c : Nat) : Bool :=
  let k := (coreAt s c).st
  k.run.isNone && k.swatchAt.isNone && !k.swatchDue && !isRetired s c && inService s (dCore c)

/-- Cycle at which a command of a job has been placed, or is placed now that its core is free for it; none while it has to wait. -/
def placedAt (s : State) (j : LcJob) (y : LcCmd) : Option Nat :=
  if y.phase != .waiting then some y.at_
  else if coreFree s y.core && decide (nextOf s y.core = some (j, y)) then some (max j.at_ (coreAt s y.core).st.idleAt)
  else none

/-- The latency-critical command whose turn has come on core c, with its job (R303). -/
def lcTurn (s : State) (c : Nat) : Option (LcJob × LcCmd) :=
  match nextOf s c with
  | some (j, x) =>
    if x.phase == .waiting && (j.cmds.all fun y => decide (x.idx ≤ y.idx) || (placedAt s j y).isSome) then some (j, x) else none
  | none => none

/-- The run of a latency-critical command. -/
def lcRun (s : State) (j : LcJob) (x : LcCmd) : Run :=
  { id := s.runSeq, lc := true, part := j.part, stage := j.stage, job := j.job, ring := j.cring, idx := x.idx, phase := .setup,
    hdr := x.hdr, replay := x.event, rerun := x.event.isSome }

/-- A latency-critical command is placed on its core: its setup begins once the core is idle and every command before it in the
list has been placed (R303). -/
def placeLc (j : LcJob) (x : LcCmd) (s : State) : State :=
  let c := x.core
  let before := (j.cmds.filter fun y => decide (y.idx < x.idx)).map fun y => (placedAt s j y).getD 0
  let t := max (max j.at_ (coreAt s c).st.idleAt) (maxN before)
  let r := lcRun s j x
  let s1 := modCmd j.stage j.job x.idx (fun y => { y with phase := .placed, at_ := t }) { s with runSeq := s.runSeq + 1 }
  setupRun c r t (modSt s1 c fun k => { k with run := some r })

/-- The first bundle of a latency-critical command has been dispatched before the open of its stage: DISP_WDOG_EARLY (15, R382). -/
def dispatchedEarly (j : LcJob) (x : LcCmd) (s : State) : State :=
  let began := match (coreAt s x.core).st.run with | some r => r.phase == .running | none => false
  if began && decide (offNs s < itmN s 2 0x11 j.stage 0) then
    fire { b := bDISP, src := 8, det := BitVec.ofNat 32 j.stage, who := .parts [j.part] } s
  else s

/-- The turn of a latency-critical command has come: not executed on a fenced or retired core, else placed (Table 12.3; 15,
R376; 17, R413). -/
def dispatchLc (j : LcJob) (x : LcCmd) (s : State) : State :=
  if isRetired s x.core then
    lcOver j.stage j.job x.idx 0x40 0 (fire { b := bDISP, src := 1, who := .lcCmd j.part } (voidParts [j.part] s))
  else if !inService s (dCore x.core) then lcOver j.stage j.job x.idx 0x21 0 s
  else dispatchedEarly j x (placeLc j x s)

/-- Core c takes the next command that it can. -/
def commandDispatch (c : Nat) (s : State) : State :=
  let k := (coreAt s c).st
  if s.glb.safe || k.swatchAt.isSome || k.swatchDue then s
  else match k.run with
  | some r => if r.phase == .image then beSetup c r s else s
  | none =>
    match lcTurn s c with
    | some (j, x) => dispatchLc j x s
    | none => s

/-- COMMAND_DISPATCH. -/
def execCommandDispatch (c : CoreId) (s : State) : Host.Outcome State Fault Refusal := run s (commandDispatch c)

/-- The command whose replay is due on core c (R372). -/
def replayTurn (s : State) (c : Nat) : Option (LcJob × LcCmd) :=
  (s.disp.jobs.flatMap fun j => (j.cmds.filter fun x => x.core == c && x.phase == .replayDue).map fun x => (j, x)).head?

/-- The replay of an ended command begins as soon as its core is idle; on a fenced core there is no replay (R372, R373). -/
def replayDispatch (c : Nat) (s : State) : State :=
  if s.glb.safe || (coreAt s c).st.run.isSome then s
  else match replayTurn s c with
  | none => s
  | some (j, x) =>
    if inService s (dCore c) then
      let r := lcRun s j x
      let s1 := modCmd j.stage j.job x.idx (fun y => { y with phase := .placed }) { s with runSeq := s.runSeq + 1 }
      setupRun c r (coreAt s c).st.idleAt (modSt s1 c fun k => { k with run := some r })
    else lcOver j.stage j.job x.idx 0x40 0 (persist c (x.event.getD {}) true j.part s)

/-- REPLAY_DISPATCH. -/
def execReplayDispatch (c : CoreId) (s : State) : Host.Outcome State Fault Refusal := run s (replayDispatch c)

/-! ### Grace and cut-off -/

/-- Best-effort runs on the cores of partition p. -/
def beRuns (s : State) (p : Nat) : List (Nat × Run) :=
  (List.range 16).filterMap fun c => (coreAt s c).st.run.bind fun r => if !r.lc && r.part == p then some (c, r) else none

/-- A best-effort run is aborted and waits for its re-run (R320, R321). -/
def abortBe (reason : Nat) (s : State) (cr : Nat × Run) : State :=
  beAborted cr.2.ring cr.2.idx (abortRun cr.1 cr.2 reason s)

/-- Remaining declared cycles of a run (06, R162). -/
def remaining (s : State) (r : Run) : Nat := r.decl - (s.clk.cyc - r.start)

/-- The next boundary of partition p, as an offset. -/
def nextBoundary (s : State) (p : Nat) : Nat :=
  ((boundaries s p).filter fun b => decide (offNs s < b)).foldl min s.time.period

/-- The grace point before the next boundary: each best-effort command is judged (R319). -/
def gracePoint (p : Nat) (s : State) : State :=
  if !patActive s then s
  else
    let b := nextBoundary s p
    let s1 := if offNs s < b - s.disp.grace.1 then passToOff s (b - s.disp.grace.1) else s
    let stays := fun (r : Run) => r.phase == .running && decide (offNs s1 + cycNs s1 (remaining s1 r) ≤ b - 1000)
    ((beRuns s1 p).filter fun x => !stays x.2).foldl (abortBe 1) s1

/-- GRACE_POINT. -/
def execGracePoint (p : Fin 4) (s : State) : Host.Outcome State Fault Refusal := run s (gracePoint p)

/-- The cut-off before the next boundary: every best-effort command still there is aborted (R319). -/
def cutOff (p : Nat) (s : State) : State :=
  if !patActive s then s
  else
    let b := nextBoundary s p
    let s1 := if offNs s < b - 1000 then passToOff s (b - 1000) else s
    (beRuns s1 p).foldl (fun s x => abortBe 2 (fire { b := bDISP, src := 5, who := .beCmd x.1 } s) x) s1

/-- CUT_OFF. -/
def execCutOff (p : Fin 4) (s : State) : Host.Outcome State Fault Refusal := run s (cutOff p)

/-! ### Ends of a command -/

/-- First cycle in which everything the command issued has completed; none while something has not (06, R148). -/
def completeAt (s : State) (c : Nat) (r : Run) : Option Nat :=
  let k := coreAt s c
  if r.phase != .running || !r.isOver || !(k.sq.qv ++ k.sq.qm ++ k.sq.ql ++ k.sq.qs ++ k.sq.qy).isEmpty ||
      k.sq.infl.any (fun x => x.doneAt.isNone) || !k.xfers.isEmpty || samplerBusy s c r.id || keyedBusy s c r.id then none
  else some (max k.st.lastAct (max k.sq.syAt (maxN (k.sq.infl.filterMap Infl.doneAt))))

/-- A command completes (06, R148). -/
def commandComplete (c : Nat) (s : State) : State :=
  match (coreAt s c).st.run with
  | none => s
  | some r =>
    match completeAt s c r with
    | none => s
    | some t =>
      let s1 := passToCyc s t
      finishRun c 0 (commit c s1.clk.cyc s1)

/-- COMMAND_COMPLETE. -/
def execCommandComplete (c : CoreId) (s : State) : Host.Outcome State Fault Refusal := run s (commandComplete c)

/-- The cycle count of a command passes its threshold: CCn_CMD_OVERRUN, once (06, R161). -/
def cmdOverrun (c : Nat) (s : State) : State :=
  match (coreAt s c).st.run with
  | none => s
  | some r =>
    if r.phase != .running || r.overrun then s
    else
      let s1 := passToCyc s (r.start + r.decl + r.decl / 16 + 1)
      fire { b := bCC c, src := 13, who := whoOn s1 c }
        (modSt s1 c fun k => { k with run := k.run.map fun r => { r with overrun := true } })

/-- CMD_OVERRUN. -/
def execCmdOverrun (c : CoreId) (s : State) : Host.Outcome State Fault Refusal := run s (cmdOverrun c)

/-- An AWAIT, a SEM_ACQ, a memory access or a request of the command is outstanding (06, R163). -/
def outstanding (s : State) (c : Nat) (r : Run) : Bool :=
  let k := coreAt s c
  (match k.sq.qy with | e :: _ => fld e.slot 23 20 == 7 || e.reqAt.isSome | [] => false) ||
    s.disp.semWait.any (fun q => q.core == c) || !k.xfers.isEmpty || samplerBusy s c r.id || keyedBusy s c r.id

/-- A command that waits on its own tokens for 4,096 cycles is ended (06, R163). -/
def syncStall (c : Nat) (s : State) : State :=
  match (coreAt s c).st.run with
  | none => s
  | some r =>
    let k := coreAt s c
    if r.phase != .running || !(r.isOver || k.sq.blockedAt.isSome) || (completeAt s c r).isSome || outstanding s c r ||
        drainAwaited k s.clk.cyc then s
    else
      let t := max k.st.lastAct (max k.sq.syAt (maxN (k.sq.infl.filterMap Infl.doneAt)))
      let s1 := passToCyc s (t + 4096)
      finishRun c 0x23 (fire { b := bCC c, src := 11, who := whoOn s1 c } (commit c s1.clk.cyc s1))

/-- SYNC_STALL. -/
def execSyncStall (c : CoreId) (s : State) : Host.Outcome State Fault Refusal := run s (syncStall c)

/-- A core idle for 4,096 cycles gates its array clocks (11, R282). -/
def idleGate (c : Nat) (s : State) : State :=
  let k := (coreAt s c).st
  if !s.time.idleGate || !present s c || k.run.isSome || k.swatchAt.isSome || k.gated then s
  else modSt (passToCyc s (k.idleSince + 4096)) c fun k => { k with gated := true }

/-- CORE_IDLE_GATE. -/
def execCoreIdleGate (c : CoreId) (s : State) : Host.Outcome State Fault Refusal := run s (idleGate c)

end Sys2Proof.Machine
end

