-- ==== Sys2Proof/Machine/Writes.lean ====
section
/-!
DEFINITION. Writes of the registers that have rules of their own: tunable fields (13, R340), record rings (10, R276), submission
rings (12, R308 to R311, R324), fault registers (16, R402 to R405) and the injection of a bit flip (15, R392).
-/
namespace Sys2Proof.Machine

/-! ### Tunable fields -/

/-- Word w of a SIU_STREAMn_TUNE written: reserved bits stay 0 (Table 10.19). -/
def tuneWrite (x : BitVec 256) (w : Nat) (v : Word) : BitVec 256 :=
  if w = 7 then x else putBits x (32 * w) (if w = 6 then 21 else 32) v.toNat

/-- A value in a range, else the value held: values outside are reserved (00, R13). -/
def inRange (lo hi old v : Nat) : Nat := if lo ≤ v ∧ v ≤ hi then v else old

/-- A tunable register has been written by software. -/
def markTuned (o : Nat) (s : State) : State := { s with glb := { s.glb with tuned := addNew s.glb.tuned o } }

/-- A write of a tunable field loads its shadow copy (R340; 12, Table 12.7). -/
def rwsWrite (o : Nat) (v : Word) (s0 : State) : State :=
  let s := markTuned o (freshReg o s0)
  if heldOff s0 o then s0
  else if o = 0x200104 then
    { s with disp := { s.disp with slice := (s.disp.slice.1, inRange 100000 100000000 s.disp.slice.2 v.toNat) } }
  else if o = 0x200108 then
    { s with disp := { s.disp with grace := (s.disp.grace.1, inRange 2000 1000000 s.disp.grace.2 v.toNat) } }
  else match regIdx o 0x401000 4 384 with
  | some i => { s with siu := { s.siu with shadow := upd s.siu.shadow (i / 8) fun x => tuneWrite x (i % 8) v } }
  | none => s0

/-- RWS_FIELD_WRITE. -/
def execRwsFieldWrite (off : BitVec 26) (v : Word) (s : State) : Host.Outcome State Fault Refusal :=
  run s (rwsWrite off.toNat v)

/-! ### Record rings -/

/-- A ring with the registers of Tables 10.16 to 10.18. -/
inductive RingReg where
  | cring | tring | cpl (n : Nat) | rec_
  deriving DecidableEq, Repr

/-- The ring register at a BAR0 offset: its ring, and BASE_LO 0, BASE_HI 1, CFG 2, HEAD 3 or TAIL 4. -/
def ringRegAt (o : Nat) : Option (RingReg × Nat) :=
  match regIdx o 0x400100 4 5 with
  | some i => some (.cring, i)
  | none =>
    match regIdx o 0x400120 4 5 with
    | some i => some (.tring, i)
    | none =>
      match regIdx o 0x100180 4 5 with
      | some i => some (.rec_, i)
      | none =>
        if 0x201000 ≤ o ∧ o < 0x201200 then (regIdx (o % 0x40) 0x18 4 5).map fun i => (.cpl ((o - 0x201000) / 0x40), i)
        else none

/-- BASE with one word replaced, its low `align` bits 0. -/
def baseWrite (base : DWord) (align : Nat) (hi : Bool) (v : Word) : DWord :=
  putBits (putBits base (if hi then 32 else 0) 32 v.toNat) 0 align 0

/-- A ring register written, and whether the write was a live one (R276). -/
def Ring.write (k : Ring) (align reg : Nat) (v : Word) : Ring × Bool :=
  if reg ≤ 1 then
    let b := baseWrite k.base align (reg == 1) v
    if k.en && b != k.base then (k, true) else ({ k with base := b }, false)
  else if reg = 2 then
    let size := inRange 6 16 k.sizeLog2 (fld v 4 0)
    let live := k.en && size != k.sizeLog2
    let k1 := { k with sizeLog2 := if live then k.sizeLog2 else size, en := bitAt v 8 }
    (if !k.en && bitAt v 8 then { k1 with head := k1.tail % 2 ^ k1.sizeLog2 } else k1, live)
  else if reg = 4 then ({ k with tail := fld v 15 0 }, false)
  else (k, false)

def ringOfReg (s : State) (r : RingReg) : Ring :=
  match r with
  | .cring => s.siu.cring
  | .tring => s.siu.tring
  | .cpl n => s.disp.cpl.getD n {}
  | .rec_ => s.time.rring

def setRingReg (r : RingReg) (k : Ring) (s : State) : State :=
  match r with
  | .cring => { s with siu := { s.siu with cring := k } }
  | .tring => { s with siu := { s.siu with tring := k } }
  | .cpl n => { s with disp := { s.disp with cpl := upd s.disp.cpl n fun _ => k } }
  | .rec_ => { s with time := { s.time with rring := k } }

/-- Low bits of BASE that read 0: a tick record has 64 bytes, the other entries 32. -/
def RingReg.align (r : RingReg) : Nat := match r with | .rec_ => 6 | _ => 5

/-- A write of a ring register (R276). -/
def ringWriteReg (o : Nat) (v : Word) (s : State) : State :=
  match (if heldOff s o then none else ringRegAt o) with
  | none => s
  | some (r, reg) =>
    let w := (ringOfReg s r).write r.align reg v
    let s1 := setRingReg r w.1 (freshReg o s)
    if w.2 then liveWrite o s1 else s1

/-- RING_CFG_WRITE. -/
def execRingCfgWrite (off : BitVec 26) (v : Word) (s : State) : Host.Outcome State Fault Refusal :=
  run s (ringWriteReg off.toNat v)

/-! ### Submission rings -/

/-- SUB_CFG written: the ring, and whether the write was a live one (R311, R324). -/
def SubRing.writeCfg (k : SubRing) (v : Word) : SubRing × Bool :=
  let size := inRange 6 12 k.sizeLog2 (fld v 4 0)
  let live := k.en && (size != k.sizeLog2 || fld v 10 9 != k.part)
  let k1 := if live then { k with en := bitAt v 8 } else { k with en := bitAt v 8, sizeLog2 := size, part := fld v 10 9 }
  (if !k.en && bitAt v 8 then { k1 with history := [], highSeq := k1.wrSeq, head := k1.head % 2 ^ k1.sizeLog2 } else k1, live)

/-- A ring enabled for a partition that the active Pattern does not define (R309). -/
def ringBad (n : Nat) (was : Bool) (s : State) : State :=
  if !was && (subAt s n).en && patActive s && !partDefined s (subAt s n).part then
    fire { b := bDISP, src := 2, det := BitVec.ofNat 32 (0x100 + n) } s
  else s

/-- The ring of a submission ring register with the register's offset in it (Table 12.8). -/
def subRegAt (o : Nat) : Option (Nat × Nat) :=
  if 0x201000 ≤ o ∧ o < 0x201200 ∧ (o % 0x40 < 0x18 ∨ o % 0x40 = 0x2C) then some ((o - 0x201000) / 0x40, o % 0x40) else none

/-- A write of a submission ring's register (R308 to R311, R324; 13, Table 13.4). -/
def subWriteReg (o : Nat) (v : Word) (s0 : State) : State :=
  let s := freshReg o s0
  match subRegAt o with
  | none => s
  | some (n, r) =>
    let k := subAt s n
    if r = 0 ∨ r = 4 then
      let b := baseWrite k.base 6 (r == 4) v
      if k.en && b != k.base then liveWrite o s else modSub s n fun k => { k with base := b }
    else if r = 8 then
      if 1 ≤ s.glb.patState ∧ s.glb.patState ≤ 3 then liveWrite o s
      else
        let w := k.writeCfg v
        let s1 := modSub s n fun _ => w.1
        ringBad n k.en (if w.2 then liveWrite o s1 else s1)
    else if r = 0x10 then modSub s n fun k => { k with tail := fld v 15 0 }
    else if r = 0x14 then
      if k.en then (if v != k.highSeq then liveWrite o s else modSub s n fun k => { k with wrSeq := v })
      else modSub s n fun k => { k with highSeq := v, wrSeq := v }
    else s

/-- SUB_CFG_WRITE. -/
def execSubCfgWrite (off : BitVec 26) (v : Word) (s : State) : Host.Outcome State Fault Refusal :=
  run s (subWriteReg off.toNat v)

/-! ### Fault registers -/

/-- BAR0 offset of a block's fault register set (R394). -/
def fltBase (b : Nat) : Nat :=
  if b ≤ 4 then b * 0x100000
  else if b = 5 then 0x500000
  else if b = 6 then 0x580000
  else if b = 7 then 0x600000
  else if b ≤ 11 then 0x700000 + (b - 8) * 0x1000
  else if b = 12 then 0x780000
  else if b = 13 then 0x800000
  else if b = 14 then 0x900000
  else if b = 15 then 0xA00000
  else if b ≤ 19 then 0xB00000 + (b - 16) * 0x1000
  else 0x1000000 + (b - 20) * 0x100000

/-- A word as the low or the high half of 64 bits. -/
def asHalf (hi : Bool) (v : Word) : BitVec 64 := BitVec.ofNat 64 (if hi then v.toNat * 2 ^ 32 else v.toNat)

/-- A write of FLT_STAT0 or FLT_STAT1 (R402). -/
def statWrite (b : Nat) (hi : Bool) (v : Word) (s : State) : State :=
  if deadBlock s b then s else { s with flt := upd s.flt b fun f => w1cStat b s.clk.cyc f (asHalf hi v) }

/-- FLT_STAT_WRITE. -/
def execFltStatWrite (b : Fin 36) (hi : Bool) (v : Word) (s : State) : Host.Outcome State Fault Refusal :=
  run s (statWrite b hi v)

/-- The fire that a force bit makes (R395, R400, R404): of a core's block it is attributed to the core. -/
def forceOf (s : State) (b src : Nat) : Fire :=
  { b := b, src := src, inj := true, force := true, who := if 20 ≤ b then .core (b - 20) else .none
    be := match (coreAt s (b - 20)).st.run with | some r => decide (20 ≤ b) && !r.lc | none => false }

/-- Listed sources whose force bit a write sets. -/
def forced (b : Nat) (hi : Bool) (v : Word) : List Nat :=
  (List.range (catalog b).length).filter fun i => (asHalf hi v).getLsbD i

/-- A write of FLT_FORCE0 or FLT_FORCE1: the sources fire in the next cycle (R404). -/
def forceWrite (b : Nat) (hi : Bool) (v : Word) (s : State) : State :=
  if deadBlock s b || (forced b hi v).isEmpty then s
  else
    let s1 := passToCyc s (s.clk.cyc + 1)
    fireAll ((forced b hi v).map (forceOf s1 b)) s1

/-- FLT_FORCE_WRITE. -/
def execFltForceWrite (b : Fin 36) (hi : Bool) (v : Word) (s : State) : Host.Outcome State Fault Refusal :=
  run s (forceWrite b hi v)

/-- Severity of a slot after a write of a level: 5 to 7 are reserved, and FIELD enforces the floor (R405, Table 16.3). -/
def sevOf (field : Bool) (old floor n : Nat) : Nat :=
  if 4 < n then old else if field then max n floor else n

/-- A write of FLT_SEVw (R405). -/
def sevWrite (b w : Nat) (v : Word) (s : State) : State :=
  if deadBlock s b then s
  else if s.glb.patState ≠ 0 ∧ s.glb.patState ≠ 5 then liveWrite (fltBase b + 0x20 + 4 * w) s
  else
    let field := lifecycle s == 2
    { s with flt := upd s.flt b fun f =>
        { f with sev := f.sev.mapIdx fun i old =>
            if slotUsed b i && i / 10 == w then sevOf field old (f.floor.getD i 0) (fld v (3 * (i % 10) + 2) (3 * (i % 10))) else old } }

/-- FLT_SEV_WRITE. -/
def execFltSevWrite (b : Fin 36) (w : Fin 7) (v : Word) (s : State) : Host.Outcome State Fault Refusal :=
  run s (sevWrite b w v)

/-! ### Injection -/

/-- CCn_SAFETY_INJ after a write: a BIT of 40 or more leaves that field as it was (Table 15.9). -/
def injWord (old v : Word) : Word :=
  let v1 := if fld v 12 7 < 40 then v else putBits v 7 6 (fld old 12 7)
  v1 &&& 0x0FFFFF80

/-- A write of CCn_SAFETY_INJ (R392): ignored in FIELD, and by an absent core. -/
def injWrite (c : Nat) (v : Word) (s : State) : State :=
  if lifecycle s = 2 ∨ !present s c ∨ s.rst.minimal then s
  else modSt s c fun k => { k with inj := injWord k.inj v, injArmed := k.injArmed || bitAt v 0 }

/-- SAFETY_INJ_ARM. -/
def execSafetyInjArm (c : CoreId) (v : Word) (s : State) : Host.Outcome State Fault Refusal := run s (injWrite c v)

end Sys2Proof.Machine
end

