-- ==== Sys2Proof/Machine/HostPort.lean ====
section
/-!
DEFINITION. The PCI Express endpoint (20): the Frame Store and DRAM windows (R468 to R470), the data link and configuration space
(R462 to R464), completions and replays (R463), and deferred ring vectors (R472).
-/
namespace Sys2Proof.Machine

/-! ### Windows -/

/-- The bytes that a write's enables select, as cells from an address on. -/
def enabledCells (a : Nat) : List (Byte × Bool) → List Host.Cell
  | [] => []
  | (b, true) :: rest => (a, b) :: enabledCells (a + 1) rest
  | (_, false) :: rest => enabledCells (a + 1) rest

/-- Host data written run by run. -/
def hostStore (m : MemId) (cells : List Host.Cell) (s : State) : State :=
  (joinRuns cells).foldl (fun s r => writeRun m none r.1 r.2 s) s

/-- The answer to a host read; poisoned data carry EP (08, R212). -/
def hostData (bs : List Byte) (ep : Bool) (s : State) : State := { s with pci := { s.pci with ans := { data := bs, ep := ep } } }

/-- GLB_NOC_PARITY of a transfer that serves no command (15, R384). -/
def nocFire (s : State) : State := fire { b := bGLB, src := 3 } s

/-- A host write that may arrive with a parity error: its data land poisoned, an error of its address or control drops it (15, R384). -/
def hostWrite (m : MemId) (cells : List Host.Cell) (noc : Option NocErr) (s : State) : State :=
  match noc with
  | none => hostStore m cells s
  | some .data => writeCells (fun _ => m) none cells (cells.map fun _ => true) (nocFire s)
  | some .control => nocFire s

/-- A host read that may arrive with a parity error: it is answered with EP set, and with unspecified data where its address or control
was in error (15, R384). -/
def hostRead (bs : List Byte) (ep : Bool) (noc : Option NocErr) (s : State) : State :=
  match noc with
  | none => hostData bs ep s
  | some .data => hostData bs true (nocFire s)
  | some .control => hostData (bs.mapIdx fun i _ => Config.droppedByte s.freeSeq i) true (nocFire (bumpFree s))

/-- BAR2 answers a request of `n` bytes at offset `a` as Unsupported Request (R468, R470). -/
def bar2Refuses (s : State) (a n : Nat) : Bool :=
  !barsOn s || s.rst.minimal || !inService s dFST || decide (fstSize < a + n)

/-- A request through BAR2 (R468). -/
def bar2 (r : BarReq) (noc : Option NocErr) (s : State) : State :=
  if !hostReaches s then s
  else match r with
  | .read a n =>
    if bar2Refuses s a n then answerUr s
    else hostRead (s.fst.mem.rdN a n) (poisoned s .fst a n) noc (if noc = some .control then s else readRun .fst none a n s)
  | .write a d =>
    if bar2Refuses s a d.length then postedUr s else hostWrite .fst (enabledCells a d) noc s

/-- BAR2_ACCESS. -/
def execBar2Access (r : BarReq) (noc : Option NocErr) (s : State) : Host.Outcome State Fault Refusal := run s (bar2 r noc)

/-- BAR4 answers a request of `n` bytes at offset `a` as Unsupported Request (R469, R470). -/
def bar4Refuses (s : State) (a n : Nat) : Bool := !barsOn s || s.rst.minimal || !dramUp s || decide (dramU s < a + n)

/-- A read through BAR4: the management region reads 0 (08, Table 8.5). -/
def bar4Read (a n : Nat) (noc : Option NocErr) (s : State) : State :=
  let k := min n (mgtBase s - a)
  hostRead (s.drc.mem.rdN a k ++ List.replicate (n - k) 0) (poisoned s .dram a k) noc
    (if noc = some .control then s else readRun .dram none a k s)

/-- A request through BAR4 (R469; 08, R209). -/
def bar4 (r : BarReq) (noc : Option NocErr) (s : State) : State :=
  if !hostReaches s then s
  else match r with
  | .read a n => if bar4Refuses s a n then answerUr s else bar4Read a n noc s
  | .write a d =>
    if bar4Refuses s a d.length then postedUr s
    else
      let cells := enabledCells a d
      if cells.any fun c => decide (dramGenEnd s ≤ c.1) then fire { b := bPCI, src := 0 } s else hostWrite .dram cells noc s

/-- BAR4_ACCESS. -/
def execBar4Access (r : BarReq) (noc : Option NocErr) (s : State) : Host.Outcome State Fault Refusal := run s (bar4 r noc)

/-! ### Configuration space and the data link -/

/-- A Hot Reset or link disable returns configuration space to its defaults, and changes nothing else (R464). -/
def Pci.hotReset (p : Pci) : Pci :=
  { p with bme := false, d3hot := false, msixEn := false, msixMask := false, configured := false, cfg := {} }

/-- HOT_RESET. -/
def execHotReset (s : State) : Host.Outcome State Fault Refusal :=
  run s fun s => if hostReaches s then { s with pci := s.pci.hotReset } else s

/-- Sizes of the BARs in bytes: BAR4 as the density of the attached DRAM (R465, R466). -/
def barSize (s : State) (bar : Nat) : Nat := if bar = 4 then (if s.drc.attached then 2 ^ 35 else 2 ^ 34) else 2 ^ 26

/-- A base address as its BAR keeps it: the bits below its size read as its type. -/
def barBase (s : State) (bar : Nat) (v : DWord) : DWord := BitVec.ofNat 64 (v.toNat / barSize s bar * barSize s bar)

/-- A BAR as configuration space shows it: 64-bit, BAR2 and BAR4 prefetchable (Table 20.2). -/
def barRead (s : State) (bar : Nat) (base : DWord) : DWord := barBase s bar base ||| (if bar = 0 then 0x4 else 0xC)

/-- The identity in configuration space: vendor, device, revision, class code, subsystem vendor and subsystem (R460, Table 20.1). -/
def cfgIdentity (s : State) : List Nat :=
  [0x1F7D, 0x1600, s.mgt.otp.dieRev.toNat, 0x120000, 0x1F7D, gradeOf (coreCnt s)]

/-- What the function keeps of a configuration write: Max Payload Size up to 512 bytes, Max Read Request Size up to 4,096 (R460). -/
def keepCfg (s : State) (c : CfgSpace) : CfgSpace :=
  { c with
    bar0 := barBase s 0 c.bar0
    bar2 := barBase s 2 c.bar2
    bar4 := barBase s 4 c.bar4
    mps := if c.mps.toNat ≤ 2 then c.mps else s.pci.cfg.mps
    mrrs := if c.mrrs.toNat ≤ 5 then c.mrrs else s.pci.cfg.mrrs }

/-- A configuration write by the host: Bus Master Enable, the power state, the MSI-X control bits and the rest of its fields; with it the
BARs are assigned; a 1 written to the status of an Unsupported Request clears it. Requests may flow again (R462, R464, R471). -/
def configure (bme d3hot msixEn msixMask : Bool) (cfg : CfgSpace) (aer : AerSet) (clearUr : Bool) (s : State) : State :=
  if hostReaches s then
    let p := { s.pci with bme := bme, d3hot := d3hot, msixEn := msixEn, msixMask := msixMask, configured := true }
    requestsFlow { s with pci := { p with cfg := keepCfg s cfg, aer := aer, urSeen := p.urSeen && !clearUr } }
  else s

/-- CONFIGURATION_WRITE. -/
def execConfigurationWrite (bme d3hot msixEn msixMask : Bool) (cfg : CfgSpace) (aer : AerSet) (clearUr : Bool) (s : State) :
    Host.Outcome State Fault Refusal :=
  run s (configure bme d3hot msixEn msixMask cfg aer clearUr)

/-- The data link leaves DL_Active (R462). -/
def linkDown (s : State) : State :=
  if s.pci.dlActive then onset { b := bPCI, src := 2 } { s with pci := { s.pci with dlActive := false, speed := 0, width := 0 } } else s

/-- DATA_LINK_DOWN. -/
def execDataLinkDown (s : State) : Host.Outcome State Fault Refusal := run s linkDown

/-- The rates and widths that the link runs at (R460, Table 20.9). -/
def linkRuns (speed : BitVec 4) (width : BitVec 6) : Bool :=
  [1, 2, 3, 4, 5].contains speed.toNat && [1, 2, 4, 8].contains width.toNat

/-- The data link returns to DL_Active: the cause of PCI_LINK_DOWN ends, requests flow (R462). -/
def linkUp (speed : BitVec 4) (width : BitVec 6) (s : State) : State :=
  if inService s dPCI && linkRuns speed width then
    requestsFlow (causeEnds bPCI 2 { s with pci := { s.pci with dlActive := true, speed := speed, width := width } })
  else s

/-- DATA_LINK_UP. -/
def execDataLinkUp (speed : BitVec 4) (width : BitVec 6) (s : State) : Host.Outcome State Fault Refusal := run s (linkUp speed width)

/-! ### Completions and replays -/

/-- The read of a submission entry has failed: the entry is fetched again at the next tick boundary (R463). -/
def fetchFailed (r : Nat) (s : State) : State :=
  if wantsFetch s r then fire { b := bPCI, src := 3 } (modSub s r fun k => { k with refetch := true }) else s

/-- No completion within 10 ms of the read, which was issued at `readAt` ns (R463). -/
def completionTimeout (r readAt : Nat) (s : State) : State :=
  if s.clk.ns < readAt || !wantsFetch s r then s else fetchFailed r (passNs s (readAt + 10000000 - s.clk.ns))

/-- PCI_COMPLETION_TIMEOUT. -/
def execPciCompletionTimeout (ring : Fin 8) (readAt : Nat) (s : State) : Host.Outcome State Fault Refusal :=
  run s (completionTimeout ring readAt)

/-- What a TLP or the data link layer shows (R463). -/
def tlp (k : TlpKind) (s : State) : State :=
  if !hostReaches s then s
  else match k with
  | .replayed => fire { b := bPCI, src := 1 } { s with pci := { s.pci with replays := satAdd 0xFFFFFFFF s.pci.replays 1 } }
  | .poisonedWrite => fire { b := bPCI, src := 3 } s
  | .badCompletion r => fetchFailed r s

/-- TLP_RECEIVE. -/
def execTlpReceive (k : TlpKind) (s : State) : Host.Outcome State Fault Refusal := run s (tlp k)

/-! ### Deferred vectors -/

/-- A record ring by its number among the ring vectors. -/
def ringOfNum (n : Nat) : RingId := if n < 8 then .cpl n else if n = 8 then .intake else .tick

/-- A deferred ring vector is sent 2 µs after the last one (R472). -/
def vectorDue (n : Nat) (s : State) : State :=
  let r := ringOfNum n
  if !(ringAt s r).vecDue then s
  else
    let s1 := passNs s (((ringAt s r).vecAt.getD 0) + 2000 - s.clk.ns)
    ringVector r (modRing r (fun k => { k with vecDue := false }) s1)

/-- RING_VECTOR_DEFERRAL_END. -/
def execRingVectorDeferralEnd (ring : Fin 10) (s : State) : Host.Outcome State Fault Refusal := run s (vectorDue ring)

end Sys2Proof.Machine
end

