-- ==== Sys2Proof/Machine/Intake.lean ====
section
/-!
DEFINITION. Sensor intake from the receivers (10): camera frames (R240 to R248), lidar packets and sweeps (R257 to R263), and
the completion of a sample with its record (R239, R244 to R246).
-/
namespace Sys2Proof.Machine

/-- Intake source `src` fires; intake fires serve no command (16, R400). -/
def siuFire (src : Nat) (s : State) : State := fire { b := bSIU, src := src } s

/-- One more discarded CSI-2 packet or Ethernet frame (R277). -/
def countCsi (s : State) : State := { s with siu := { s.siu with unclaimedCsi := satAdd 0xFFFFFFFF s.siu.unclaimedCsi 1 } }
def countEth (s : State) : State := { s with siu := { s.siu with unclaimedEth := satAdd 0xFFFFFFFF s.siu.unclaimedEth 1 } }

/-- A stream has started a sample in tick k. -/
def startedIn (s : State) (stream k : Nat) : Bool := s.siu.lastTick.getD stream none == some k

/-- The stream starts a sample of tick k (R240). -/
def startSample (stream k : Nat) (s : State) : State :=
  { s with siu := { s.siu with lastTick := upd s.siu.lastTick stream fun _ => some k } }

/-- A capture stamp lies in the INTAKE window of tick k (R242). -/
def inWindow (s : State) (k : Nat) (capture : Gtc) : Bool :=
  match intakeStage s with
  | some (_, g) =>
    let o := (capture - tickGtc s k).toNat
    decide (g.openNs ≤ o) && decide (o < g.closeNs)
  | none => false

/-- Stale by AGE (R242). -/
def tooOld (s : State) (stream : Nat) (capture adm : Gtc) : Bool :=
  staleNs s stream != 0 && decide ((staleNs s stream : Int) < (adm - capture).toInt)

/-! ### Completion -/

/-- A completion record (Table 10.4). -/
def SampleRes.bytes (r : SampleRes) (late : Bool) (id : Nat) (now : Gtc) : List Byte :=
  leBytes 32 (r.status + r.stream * 2 ^ 8 + r.reason * 2 ^ 16 + b2n late * 2 ^ 24 + b2n r.cached * 2 ^ 25 + id * 2 ^ 32 +
    r.capture.toNat * 2 ^ 64 + r.admitAt.toNat * 2 ^ 128 + min (now - r.admitAt).toNat 0xFFFFFFFF * 2 ^ 192 +
    min r.info0 0xFFFF * 2 ^ 224 + min r.info1 0xFFFF * 2 ^ 240)

/-- Completed at or after the close of the INTAKE stage of its tick. -/
def isLate (s : State) (tick : Nat) : Bool :=
  match intakeStage s with
  | some (_, g) => decide (g.closeNs ≤ (s.clk.gtc - tickGtc s tick).toNat)
  | none => false

/-- Stream n's sample of tick k has been written: after the close of that tick's INTAKE stage its bit stays 0, and the region is
unspecified (R246, R247). -/
def lateRegion (n k : Nat) (s : State) : State := if isLate s k then forgetStream s n else s

/-- The stream's bit of the intake status table is set (R246). -/
def setStatusBit (stream : Nat) (s : State) : State :=
  match statusAddr s with
  | some a => intakeWrite (a + stream / 8) [putBit (s.fst.mem.rd (a + stream / 8)) (stream % 8) true] s
  | none => s

/-- Sources that the outcome of a sample raises at its completion (Table 10.15). -/
def resFires (r : SampleRes) (late : Bool) : List Fire :=
  let f := fun (src : Nat) => ({ b := bSIU, src := src } : Fire)
  (if r.status = 0x30 then [f 0] else []) ++ (if late then [f 1] else []) ++
    (if r.status = 0x32 then [f 8] else []) ++ (if r.status = 0x31 then [f 9] else []) ++
    (if r.status = 0x33 ∧ 36 ≤ r.stream then [f 10] else [])

/-- A sample completes now: its status bit, its record, its sources, its trace record (R239, R244 to R246). -/
def completeSample (r : SampleRes) (s : State) : State :=
  let late := isLate s r.tick
  let id := r.stream * 2 ^ 26 + s.siu.seqNo.getD r.stream 0 % 2 ^ 26
  let s1 := { s with siu := { s.siu with seqNo := upd s.siu.seqNo r.stream fun n => (n + 1) % 2 ^ 26 } }
  let s2 := if r.status = 0 ∧ !late ∧ r.tick = s1.time.tick then setStatusBit r.stream s1 else s1
  let s3 := fireAll (resFires r late) s2
  postRec .intake (r.bytes late id s3.clk.gtc)
    (trace 0x06 r.stream (BitVec.ofNat 64 (r.status + r.reason * 2 ^ 8 + id * 2 ^ 32)) s3)

/-- The outcome of a sample is fixed; its record follows with SAMPLE_COMPLETE. -/
def addResult (r : SampleRes) (s : State) : State := { s with siu := { s.siu with results := s.siu.results ++ [r] } }

/-- The oldest sample of a stream whose outcome is fixed completes. -/
def sampleComplete (stream : Nat) (s : State) : State :=
  if !intakeLive s then s
  else match s.siu.results.find? fun r => r.stream == stream with
  | some r => completeSample r { s with siu := { s.siu with results := s.siu.results.erase r } }
  | none => s

/-- SAMPLE_COMPLETE. -/
def execSampleComplete (stream : Fin 48) (s : State) : Host.Outcome State Fault Refusal := run s (sampleComplete stream)

/-! ### Cameras -/

/-- A stream is the target of an enabled REPLAY stream: its receiver's frames are discarded (R269). -/
def isReplayTarget (s : State) (stream : Nat) : Bool :=
  (List.range 12).any fun i => streamEn s (36 + i) && par s (36 + i) 2 == 2 && par s (36 + i) 77 == stream

/-- A packet of receiver rx and virtual channel vc that belongs to an enabled camera stream; others are counted (R238, R248,
R277), and so is embedded data, data type `dt`, that goes no further. Its header is corrected or uncorrectable as `hdr` says, and an
uncorrectable header fails the running frame. -/
def csiPacket (rx vc : Nat) (vcx : Bool) (hdr : HdrEcc) (dt : Nat) (act : Nat → State → State) (s : State) : State :=
  let n := 4 * rx + vc
  if !inService s dSIU || s.glb.safe then s
  else if vcx || !patActive s || !streamEn s n then countCsi s
  else if isReplayTarget s n || !inService s dFST then (if dt = 0x12 then countCsi s else s)
  else match hdr with
  | .ok => act n s
  | .corrected => act n (siuFire 2 s)
  | .bad =>
    match s.siu.cams.getD n none with
    | some cam =>
      if cam.discard.isSome || cam.err.isSome then s
      else siuFire 3 { s with siu := { s.siu with cams := upd s.siu.cams n fun _ => some { cam with err := some 7 } } }
    | none => s

/-- A camera frame ends with a status and reason. -/
def camResult (n : Nat) (cam : Cam) (status reason : Nat) (s : State) : State :=
  addResult { stream := n, status := status, reason := reason, capture := cam.capture, admitAt := s.clk.gtc, info0 := cam.frameNo,
              tick := s.time.tick } { s with siu := { s.siu with cams := upd s.siu.cams n fun _ => none } }

/-- Why a frame that starts now is discarded from its FS on (R240, R242). -/
def fsDiscard (s : State) (n : Nat) : Option Nat :=
  if startedIn s n s.time.tick then some 3 else if !inWindow s s.time.tick s.clk.gtc then some 2 else none

/-- An FS: it ends a frame that runs, and starts one (R240 to R243, R248). -/
def frameStart (frameNo : Nat) (n : Nat) (s : State) : State :=
  let s1 := match s.siu.cams.getD n none with
    | some cam =>
      (match cam.err with
      | some r => camResult n cam 0x33 r s
      | none => camResult n cam 0x33 6 (siuFire 4 s))
    | none => s
  let cam : Cam := { capture := s1.clk.gtc, frameNo := frameNo, discard := fsDiscard s1 n }
  startSample n s1.time.tick { s1 with siu := { s1.siu with cams := upd s1.siu.cams n fun _ => some cam } }

/-- FRAME_START. -/
def execFrameStart (rx : Fin 8) (vc : Fin 4) (vcx : Bool) (hdr : HdrEcc) (frameNo : BitVec 16) (s : State) :
    Host.Outcome State Fault Refusal :=
  run s (csiPacket rx vc vcx hdr 0 (frameStart frameNo.toNat))

/-- A frame fails with a reason and fires the source of it (R248, Table 10.15). -/
def failCam (n reason src : Nat) (cam : Cam) (s : State) : State :=
  siuFire src { s with siu := { s.siu with cams := upd s.siu.cams n fun _ => some { cam with err := some reason, lines := [] } } }

/-- A long packet of a running frame (R248); with the port behind, its line buffer overflows (R273). -/
def csiLine (dt : Nat) (payload : List Byte) (crcOk behind : Bool) (n : Nat) (s : State) : State :=
  let g := camCfg s n
  if dt = 0x12 then countCsi s
  else
    let s1 := if dtKnown dt then s else siuFire 4 s
    match s1.siu.cams.getD n none with
    | none => s1
    | some cam =>
      if cam.discard.isSome || cam.err.isSome then s1
      else if !crcOk then failCam n 7 3 cam s1
      else if dt ≠ g.dt ∨ payload.length ≠ lineBytes g.dt g.w then failCam n 6 4 cam s1
      else if behind then failCam n 8 4 cam s1
      else
        let cam1 := { cam with lines := cam.lines ++ [lineValues g.dt g.w payload] }
        { s1 with siu := { s1.siu with cams := upd s1.siu.cams n fun _ => some cam1 } }

/-- CSI_LONG_PACKET. -/
def execCsiLongPacket (rx : Fin 8) (vc : Fin 4) (vcx : Bool) (hdr : HdrEcc) (dt : BitVec 6) (payload : List Byte) (crcOk : Bool)
    (behind : Bool) (s : State) : Host.Outcome State Fault Refusal :=
  run s (csiPacket rx vc vcx hdr dt.toNat (csiLine dt.toNat payload crcOk behind))

/-- Bytes of a receiver's line buffers and companding table in the intake buffers (Table 10.13, in the table's order; entry 51):
first word and words. -/
def ctWords (rx : Nat) : Nat × Nat := ((2048 + 495) * 128 + rx * 260, 257)

/-- A frame of receiver rx uses an uncorrectable word of its companding table (R272). -/
def ctBad (s : State) (rx : Nat) : Bool :=
  s.siu.buf.ue.any fun w => decide ((ctWords rx).1 ≤ w) && decide (w < (ctWords rx).1 + (ctWords rx).2)

/-- The frame is converted and its tensor written (R249 to R256); the mesh is read for it. -/
def writeFrame (n : Nat) (lines : List (List Nat)) (s : State) : State :=
  let g := camCfg s n
  let s1 := if g.meshEn then readRun .fst none g.meshAddr (8 * g.nx * g.ny) s else s
  let p := frontEnd g (compand s (n / 4)) lines
  intakeWrite g.base (camTensor s1.fst.mem g p) s1

/-- The outcome of a whole frame of stream n that was captured at `capture` and is admitted at `adm` in tick k: a status and a
reason, the frame having been written unless it failed or lies outside the window (R242, R243, R247, R248, R272). -/
def judgeFrame (n : Nat) (lines : List (List Nat)) (capture adm : Gtc) (k : Nat) (s : State) : State × Nat × Nat :=
  let g := camCfg s n
  if lines.length ≠ g.h ∨ lines.any (fun l => l.length != g.w * g.linkCh) then (siuFire 4 s, 0x33, 6)
  else if dtRaw g.dt && ctBad s (n / 4) then (siuFire 14 s, 0x33, 9)
  else if !inWindow s k capture then (s, 0x30, 2)
  else
    let s1 := writeFrame n lines s
    if tooOld s n capture adm then ({ s1 with siu := { s1.siu with aged := addNew s1.siu.aged n } }, 0x30, 1)
    else (lateRegion n k s1, 0, 0)

/-- An FE admits the running frame (R241 to R243, R248). -/
def frameEnd (n : Nat) (s : State) : State :=
  match s.siu.cams.getD n none with
  | none => s
  | some cam =>
    match cam.discard, cam.err with
    | some r, _ => camResult n cam 0x30 r s
    | none, some r => camResult n cam 0x33 r s
    | none, none =>
      let (s1, status, reason) := judgeFrame n cam.lines cam.capture s.clk.gtc s.time.tick s
      camResult n cam status reason s1

/-- FRAME_END. -/
def execFrameEnd (rx : Fin 8) (vc : Fin 4) (vcx : Bool) (hdr : HdrEcc) (s : State) : Host.Outcome State Fault Refusal :=
  run s (csiPacket rx vc vcx hdr 1 frameEnd)

/-! ### Lidar packets -/

def sweepAt (s : State) (m : Nat) : Sweep := s.siu.sweeps.getD m {}

def modSweep (m : Nat) (f : Sweep → Sweep) (s : State) : State := { s with siu := { s.siu with sweeps := upd s.siu.sweeps m f } }

/-- The destination address passes the filter of EMAC m (R257). -/
def addressOk (s : State) (m : Nat) (frame : List Byte) : Bool :=
  let a := beAt frame 0 6
  a == 2 ^ 48 - 1 || (a != 0 && (a == itmN s 3 0x210 m 0 || (List.range 4).any fun i => a == itmN s 3 0x211 (4 * m + i) 0))

/-- TIME_EPADJ of an EMAC. -/
def epAdj (s : State) (m : Nat) : DWord := s.time.epadj.getD m 0

/-- The seconds congruent to a 32-bit count that put S × 10⁹ + ns + adj nearest the GTC; the smaller on a tie (11, R290). -/
def nearestStamp (gtc : Gtc) (sec ns : Nat) (adj : Int) : Gtc :=
  let at_ := fun (k : Int) => (((sec : Int) + k * 2 ^ 32) * 1000000000 + (ns : Int) + adj)
  let k0 := ((gtc.toNat : Int) - (sec : Int) * 1000000000 - (ns : Int) - adj) / (2 ^ 32 * 1000000000)
  let d := fun (k : Int) => Int.natAbs (at_ k - (gtc.toNat : Int))
  BitVec.ofInt 64 (at_ (if d (k0 + 1) < d k0 then k0 + 1 else k0))

/-- Capture stamp of a packet (R260; 11, R290). -/
def packetStamp (s : State) (m : Nat) (t : BitVec 512) (payload : List Byte) (mac : Gtc) : Gtc :=
  let o := fld t 127 112
  match fld t 129 128 with
  | 1 => BitVec.ofNat 64 (beAt payload o 8) + epAdj s m
  | 2 => nearestStamp s.clk.gtc (beAt payload o 4) (beAt payload (o + 4) 4) (epAdj s m).toInt
  | _ => mac

/-- Cell of a point, if the grid accepts it (R261). -/
def cellOf (s : State) (n : Nat) (p : Pt) : Option (Nat × Nat) :=
  let u := max (par s n 55) 1
  let col := (p.x - parI s n 51) / (u : Int)
  let row := (p.y - parI s n 52) / (u : Int)
  if 0 ≤ col ∧ col < par s n 56 ∧ 0 ≤ row ∧ row < par s n 57 ∧ parI s n 53 ≤ p.z ∧ p.z < parI s n 54 then
    some (col.toNat, row.toNat)
  else none

/-- A point record (Table 10.11). -/
def pointBytes (n : Nat) (p : Pt) (rel : Int) : List Byte :=
  let i16 := fun (v : Int) => wrapTo 16 (clampI v (-32768) 32767)
  leBytes 16 (i16 p.x + i16 p.y * 2 ^ 16 + i16 p.z * 2 ^ 32 + (clampI p.i 0 65535).toNat * 2 ^ 48 +
    i16 (rneShift rel 10) * 2 ^ 64 + (clampI p.ring 0 255).toNat * 2 ^ 80 + n * 2 ^ 88)

/-- The binner drops a point (R262). -/
def dropPoint (m : Nat) (s : State) : State := siuFire 7 (modSweep m (fun w => { w with discarded := w.discarded + 1 }) s)

/-- Point written at position j of a slot. -/
def putPoint (m n slot j : Nat) (p : Pt) (stamp : Gtc) (s : State) : State :=
  let first := (sweepAt s m).capture.getD stamp
  intakeWrite (par s n 60 + (slot * 32 + j) * 16) (pointBytes n p ((stamp - first).toInt + p.dt)) s

/-- One point goes through the binner (R261, R262). -/
def binPoint (m n : Nat) (stamp : Gtc) (s : State) (p : Pt) : State :=
  match cellOf s n p with
  | none => dropPoint m s
  | some (col, row) =>
    let w := sweepAt s m
    match w.slots.findIdx? fun x => x.1 == col && x.2.1 == row with
    | some slot =>
      let j := (w.slots.getD slot (0, 0, 0)).2.2
      if j < 32 then putPoint m n slot j p stamp (modSweep m (fun w => { w with slots := w.slots.set slot (col, row, j + 1) }) s)
      else dropPoint m s
    | none =>
      if w.slots.length < par s n 58 then
        putPoint m n w.slots.length 0 p stamp (modSweep m (fun w => { w with slots := w.slots ++ [(col, row, 1)] }) s)
      else dropPoint m s

/-- Points of a discarded packet count towards the sweep's record, unless that is complete. -/
def discardPoints (m k : Nat) (s : State) : State :=
  modSweep m (fun w => if w.isOver then w else { w with discarded := w.discarded + k }) s

/-- The INTAKE stage of the tick has not opened: the sweep has not begun (Table 10.1). -/
def beforeOpen (s : State) : Bool :=
  match intakeStage s with
  | some (_, g) => decide (offNs s < g.openNs)
  | none => true

/-- A packet that matched the template of stream n (R242, R243, R259 to R262). -/
def lidarPacket (m n : Nat) (frame payload : List Byte) (mac : Gtc) (s : State) : State :=
  let t := template s n
  let k := declared t payload
  let badIp := (l2Of frame).etype == 0x0800 && bitAt t 16 && ipSum frame (l2Of frame).off != 0xFFFF
  if badIp || tooShort t payload then siuFire 6 (discardPoints m k s)
  else
    let stamp := packetStamp s m t payload mac
    if (sweepAt s m).closed.isSome || beforeOpen s || !inWindow s s.time.tick stamp || tooOld s n stamp s.clk.gtc then discardPoints m k s
    else
      let pts := (List.range k).map fun i => pointOf t (slice payload (fld t 63 48 + i * fld t 71 64) (fld t 71 64))
      let s1 := modSweep m (fun w => { w with capture := some (w.capture.getD stamp) }) s
      pts.foldl (binPoint m n stamp) s1

/-- The buffer of a MAC has overflowed: a packet is lost, and the sweep of the stream that it was for, unless closed (R273). -/
def overrunSweep (m : Nat) (s : State) : State :=
  modSweep m (fun w => { w with overrun := w.overrun || w.closed.isNone }) s

/-- An Ethernet frame is received: FCS, length and address, protocol messages, template (R257, R258, R277), a buffer that
overflows (R273). -/
def ethernetFrame (m : Nat) (frame : List Byte) (fcsOk : Bool) (sfd : Nat) (behind : Bool) (s : State) : State :=
  let n := 32 + m
  if !inService s dSIU || s.glb.safe then s
  else if !fcsOk then siuFire 5 s
  else if !addressOk s m frame || isPtp frame then s
  else
    let mac := s.clk.gtc - BitVec.ofNat 64 sfd + BitVec.ofInt 64 (parI s n 49)
    let m? := if patActive s ∧ streamEn s n then matchFrame (template s n) frame else none
    match m? with
    | some payload => if !inService s dFST || decide (9216 < frame.length + 4) then s else if behind then overrunSweep m s else lidarPacket m n frame payload mac s
    | none => countEth s

/-- ETHERNET_FRAME_RECEIVE. -/
def execEthernetFrameReceive (mac : Fin 4) (frame : List Byte) (fcsOk : Bool) (sfd : BitVec 32) (behind : Bool) (s : State) :
    Host.Outcome State Fault Refusal :=
  run s (ethernetFrame mac frame fcsOk sfd.toNat behind)

/-! ### Sweeps -/

/-- SWEEP_CLOSE of stream 32 + m (R241, R263). -/
def sweepClose (m : Nat) (s : State) : State :=
  if !intakeLive s || !streamEn s (32 + m) || (sweepAt s m).closed.isSome then s
  else
    let s1 := passToOff s (par s (32 + m) 59)
    startSample (32 + m) s1.time.tick (modSweep m (fun w => { w with closed := some s1.clk.gtc, tick := s1.time.tick }) s1)

/-- SWEEP_CLOSE. -/
def execSweepClose (mac : Fin 4) (s : State) : Host.Outcome State Fault Refusal := run s (sweepClose mac)

/-- An entry of the pillar table. -/
def pillarBytes (x : Nat × Nat × Nat) : List Byte := leBytes 8 (x.1 + x.2.1 * 2 ^ 16 + x.2.2 * 2 ^ 32)

/-- The cell gather list (R263; 05, Table 5.3). -/
def cellList (gx gy : Nat) (slots : List (Nat × Nat × Nat)) : List Byte :=
  (List.range (gx * gy)).flatMap fun i =>
    match slots.findIdx? fun x => x.1 == i % gx && x.2.1 == i / gx with
    | some k => leBytes 8 (k * 256)
    | none => leBytes 8 (2 ^ 63)

/-- The flush of sweep w (R263). -/
def flushSweep (m : Nat) (w : Sweep) (s : State) : State :=
  let n := 32 + m
  let s1 := ((List.range w.slots.length).zip w.slots).foldl (fun s x =>
    let j := x.2.2.2
    if j < 32 then intakeWrite (par s n 60 + (x.1 * 32 + j) * 16) (List.replicate (16 * (32 - j)) 0) s else s) s
  let s2 := intakeWrite (par s n 61) (w.slots.flatMap pillarBytes) s1
  lateRegion n w.tick (intakeWrite (par s n 62) (cellList (par s n 56) (par s n 57) w.slots) s2)

/-- The sample of sweep w, admitted at `adm` (R243, R263, R272, R273). -/
def sweepResult (m : Nat) (w : Sweep) (adm : Gtc) (free : Nat) : SampleRes :=
  let ok := w.capture.isSome
  { stream := 32 + m, status := if w.bad || w.overrun then 0x33 else if ok then 0 else 0x30,
    reason := if w.bad then 9 else if w.overrun then 8 else if ok then 0 else 4,
    capture := w.capture.getD (Config.freeStamp free), admitAt := adm, info0 := w.slots.length, info1 := w.discarded, tick := w.tick }

/-- The closed sweep of EMAC m whose flush ends next: one of an earlier tick before that of the present one. -/
def nextFlush (s : State) (m : Nat) : Option Sweep :=
  match s.siu.flushing.find? fun x => x.1 == m with
  | some x => some x.2
  | none => if (sweepAt s m).isOver then none else some (sweepAt s m)

/-- That sweep is over. -/
def sweepOver (m : Nat) (s : State) : State :=
  match s.siu.flushing.find? fun x => x.1 == m with
  | some x => { s with siu := { s.siu with flushing := s.siu.flushing.erase x } }
  | none => modSweep m (fun w => { w with isOver := true }) s

/-- The flush of a sweep ends and the sweep completes (R243, R263). -/
def sweepComplete (m : Nat) (s : State) : State :=
  match nextFlush s m with
  | none => s
  | some w =>
    match w.closed with
    | none => s
    | some adm =>
      if !intakeLive s then s
      else completeSample (sweepResult m w adm s.freeSeq) (bumpFree (sweepOver m (flushSweep m w s)))

/-- SWEEP_COMPLETE. -/
def execSweepComplete (mac : Fin 4) (s : State) : Host.Outcome State Fault Refusal := run s (sweepComplete mac)

end Sys2Proof.Machine
end

