-- ==== Sys2Proof/Machine/Staged.lean ====
section
/-!
DEFINITION. The staged Pattern image (13, R325 to R332): header, section directory, items, blocks; and the validation steps that
concern its form: the header (step 4), the signature (5), the directory (7), the section CRCs (8) and the structure of every
section (9).
-/
namespace Sys2Proof.Machine

/-- An image staged at an address of a memory. -/
structure Staged where
  m : Mem
  a : Nat

/-- The image that GLB_PAT_ADDR names. -/
def stagedAt (s : State) (a : Nat) : Staged := ⟨s.drc.mem, a⟩

/-- Bytes of the image. -/
def Staged.bytes (g : Staged) (o n : Nat) : List Byte := g.m.rdN (g.a + o) n

/-- Little-endian number in the image. -/
def Staged.le (g : Staged) (o n : Nat) : Nat := g.m.rdLe (g.a + o) n

/-- IMAGE_LEN. -/
def Staged.len (g : Staged) : Nat := g.le 8 4

/-- SIGNED. -/
def Staged.signed (g : Staged) : Bool := g.le 7 1 == 1

/-- An entry of the section directory (R328). -/
structure Sect where
  ty : Nat
  zero : Nat
  off : Nat
  len : Nat
  crc : Nat
  deriving DecidableEq, Repr

/-- Directory entry i. -/
def Staged.entry (g : Staged) (i : Nat) : Sect :=
  let o := 256 + 16 * i
  { ty := g.le o 1, zero := g.le (o + 1) 3, off := g.le (o + 4) 4, len := g.le (o + 8) 4, crc := g.le (o + 12) 4 }

/-- The section of a type, 1 to 10. -/
def Staged.sect (g : Staged) (ty : Nat) : Sect := g.entry (ty - 1)

/-- The bytes of a section. -/
def Staged.sectBytes (g : Staged) (ty : Nat) : List Byte := g.bytes (g.sect ty).off (g.sect ty).len

/-- ITEM_CNT and DATA_OFF of a section's preamble (R329). -/
def Staged.itemCnt (g : Staged) (ty : Nat) : Nat := g.le (g.sect ty).off 4
def Staged.dataOff (g : Staged) (ty : Nat) : Nat := g.le ((g.sect ty).off + 4) 4

/-- Bytes of a section's data area. -/
def Staged.dataLen (g : Staged) (ty : Nat) : Nat := if g.dataOff ty = 0 then 0 else (g.sect ty).len - g.dataOff ty

/-- Items of a section that its length has room for. -/
def Staged.items (g : Staged) (ty : Nat) : List PItem :=
  (List.range (min (g.itemCnt ty) (((g.sect ty).len - 16) / 16))).map fun k =>
    let o := (g.sect ty).off + 16 + 16 * k
    { sec := ty, id := g.le o 2, idx := g.le (o + 2) 2, val := BitVec.ofNat 64 (g.le (o + 8) 8) }

/-- The reserved bits of item k of a section are zero. -/
def Staged.itemClean (g : Staged) (ty k : Nat) : Bool := g.le ((g.sect ty).off + 16 + 16 * k + 4) 4 == 0

/-- Every item of the image, section after section. -/
def Staged.allItems (g : Staged) : List PItem := ((List.range 10).map (· + 1)).flatMap g.items

/-- PATTERN_ID (R327). -/
def Staged.id (g : Staged) : Word := BitVec.ofNat 32 (ofLe ((sha256 (g.bytes 256 (g.len - 256))).take 4))

/-! ### Steps 4 to 8 -/

/-- First byte of a range that is not zero. -/
def Staged.firstNonZero (g : Staged) (o n : Nat) : Option Nat :=
  ((List.range n).find? fun i => g.m.rd (g.a + o + i) != 0).map (o + ·)

/-- Sum of the section lengths that the directory gives. -/
def Staged.sectSum (g : Staged) : Nat := sumN ((List.range 10).map fun i => (g.entry i).len)

/-- Bytes 0 to 127 with HDR_CRC taken as 0 (Table 13.1). -/
def Staged.hdrCrc (g : Staged) : BitVec 32 := crc32c (g.bytes 0 12 ++ leBytes 4 0 ++ g.bytes 16 112)

/-- Step 4: byte offset of the first failing field (Tables 13.1 and 13.3); `genEnd` ends the general region. -/
def Staged.hdrFail (g : Staged) (genEnd : Nat) : Option Nat :=
  if g.le 0 4 ≠ 0x54504854 then some 0
  else if g.le 4 2 ≠ 1 then some 4
  else if 8 ≤ g.le 6 1 then some 6
  else if 2 ≤ g.le 7 1 then some 7
  else if g.len % 256 ≠ 0 ∨ g.len < 512 + g.sectSum ∨ genEnd < g.a + g.len then some 8
  else if g.le 12 4 ≠ g.hdrCrc.toNat then some 12
  else match g.firstNonZero 16 112 with
  | some o => some o
  | none => if g.signed then none else g.firstNonZero 128 128

/-- Step 5 (R326): the lifecycle's demand for a signature, the key's digest and the signature itself. -/
def Staged.signOk (g : Staged) (life : Nat) (patKey : List Byte) : Bool :=
  if g.signed then
    sha256 (g.bytes 128 64) == patKey && ecdsaVerify (g.bytes 128 64) (g.bytes 192 64) (g.bytes 0 192 ++ g.bytes 256 (g.len - 256))
  else decide (life ≤ 1)

/-- Directory entry i obeys R328, given the entries before it. -/
def Staged.entryOk (g : Staged) (i : Nat) : Bool :=
  let e := g.entry i
  e.ty == i + 1 && e.zero == 0 && e.off % 256 == 0 && decide (512 ≤ e.off) && e.len % 16 == 0 && decide (e.off + e.len ≤ g.len) &&
    (List.range i).all fun j =>
      let x := g.entry j
      x.len == 0 || e.len == 0 || decide (x.off + x.len ≤ e.off) || decide (e.off + e.len ≤ x.off)

/-- Step 7: the first failing entry, or 10 for the bytes 416 to 511. -/
def Staged.dirFail (g : Staged) : Option Nat :=
  match (List.range 10).find? fun i => !g.entryOk i with
  | some i => some i
  | none => (g.firstNonZero 416 96).map fun _ => 10

/-- A section's CRC matches. -/
def Staged.crcOk (g : Staged) (ty : Nat) : Bool := (crc32c (g.sectBytes ty)).toNat == (g.sect ty).crc

/-- Step 8: TYPE of the first section whose CRC does not match. -/
def Staged.crcFail (g : Staged) : Option Nat := ((List.range 10).map (· + 1)).find? fun ty => !g.crcOk ty

/-! ### Step 9: values -/

/-- A signed VALUE of `w` bits. -/
def signedIn (w : Nat) (v : BitVec 64) : Bool := decide (-(2 ^ (w - 1) : Nat) ≤ v.toInt) && decide (v.toInt < (2 ^ (w - 1) : Nat))

/-- A partition mask is a non-empty set of defined partitions (01, Table 1.2). -/
def maskDefined (t : State) (m : Nat) : Bool := m != 0 && (List.range 4).all fun p => !m.testBit p || partDefined t p

def between (lo hi v : Nat) : Bool := decide (lo ≤ v) && decide (v ≤ hi)

/-- TOPOLOGY items. -/
def topologyOk (p : PItem) : Bool :=
  let v := p.val.toNat
  match p.id with
  | 1 => p.idx == 0 && between 0 7 v
  | 2 => p.idx == 0 && between 0 7 v
  | 3 => p.idx == 0 && between 0 7 v
  | 4 => p.idx == 0 && decide (v < 2 ^ 32)
  | 0x10 => between 0 3 p.idx && between 1 0xFFFF v
  | _ => false

/-- T of a plan. -/
def planT (t : State) : Nat := itmN t 2 2 0 50000000

/-- TICKPLAN items (11, Table 11.2; 01, Table 1.2). -/
def tickplanOk (t : State) (p : PItem) : Bool :=
  let v := p.val.toNat
  let st := between 0 15 p.idx
  match p.id with
  | 1 => p.idx == 0
  | 2 => p.idx == 0 && between 5000000 200000000 v && v % 5 == 0
  | 3 => p.idx == 0 && between 1 16 v
  | 0x10 => st && between 0 1 v
  | 0x11 => st && v % 5 == 0 && decide (v < planT t)
  | 0x12 => st && v % 5 == 0 && decide (itmN t 2 0x11 p.idx 0 < v) && decide (v ≤ planT t)
  | 0x13 => st && between 0 15 v && (if itmN t 2 0x10 p.idx 0 = 1 then maskDefined t v else v == 0)
  | 0x14 => st && between 0 15 v
  | 0x15 => st
  | 0x16 => st
  | 0x17 => between 0 63 p.idx
  | 0x20 => decide (v < itmN t 2 3 0 0) && itmN t 2 0x10 v 0 == 1
  | 0x21 => between 0 0xFFFF v
  | 0x22 => between 0 0xFFFF v
  | 0x23 => between 1 0x10000 v
  | 0x30 => between 0 0x1FFFF v
  | _ => false

/-- A word of a parser template (10, Table 10.10). -/
def templateOk (i : Nat) (v : BitVec 64) : Bool :=
  let fieldOk := fun (f : Nat) => bitsAt f 8 2 != 3 && bitsAt f 13 3 == 0
  match i with
  | 0 => fld v 31 30 == 0 && (!bitAt v 16 || fld v 15 0 == 0x800)
  | 1 => between 4 255 (fld v 7 0) && between 0 31 (fld v 15 8)
  | 2 => fld v 1 0 != 3 && fld v 31 2 == 0 && fieldOk (fld v 63 32)
  | 3 => fieldOk (fld v 31 0) && fieldOk (fld v 63 32)
  | 4 => fieldOk (fld v 31 0) && fieldOk (fld v 63 32)
  | 5 => fieldOk (fld v 31 0) && fld v 63 32 == 0
  | _ => v == 0

/-- Factor of a camera stream's packing (10, R256). -/
def packFactor (t : State) (stream : Nat) : Nat := if par t stream 40 = 1 then 8 else 4

/-- Cells of the grids of all enabled lidar streams (10, R261). -/
def lidarCells (t : State) : Nat :=
  sumN ((List.range 4).map fun m => if par t (32 + m) 0 = 1 then par t (32 + m) 56 * par t (32 + m) 57 else 0)

/-- Stream parameter n (10, Table 10.14 and the rules it names; R331). -/
def paramOk (t : State) (stream n : Nat) (v : BitVec 64) : Bool :=
  let u := v.toNat
  let flag := decide (u ≤ 1)
  let half := decide (u < 65536)
  let word := decide (u < 2 ^ 32)
  match n with
  | 0 => flag
  | 1 => between 0 2 u
  | 2 => between 0 2 u
  | 3 => word
  | 4 => decide (u + par t stream 5 ≤ fstSize)
  | 5 => decide (u ≤ fstSize)
  | 6 => flag
  | 7 => dtKnown u
  | 8 => half && decide (2 ≤ u) && u % 2 == 0
  | 9 => half && decide (2 ≤ u) && u % 2 == 0
  | 10 => between 0 4 u
  | 11 => between 0 0x40000 u
  | 23 => u % packFactor t stream == 0
  | 24 => u % packFactor t stream == 0
  | 25 => between 0 3 u
  | 26 => flag
  | 27 => flag
  | 28 => half
  | 29 => flag
  | 30 => decide (u + 8 * par t stream 32 * par t stream 33 ≤ fstSize)
  | 31 => between 3 7 u
  | 37 => between 0 31 u
  | 38 => signedIn 16 v
  | 39 => flag
  | 40 => flag
  | 55 => decide (1 ≤ u)
  | 56 => between 1 512 u
  | 57 => between 1 512 u && decide (lidarCells t ≤ 262144)
  | 58 => between 0 16384 u
  | 63 => between 0 4 u && (par t stream 2 != 1 || decide (u ≤ 1))
  | 66 => par t stream 2 != 1 || decide (u ≤ 64 * (itmN t 7 0x12 (par t stream 70) 0 + 1))
  | 70 => between 0 15 u && (par t stream 2 != 1 || itmN t 7 0x11 u 0 == 1)
  | 77 => between 0 31 u
  | _ => if 12 ≤ n ∧ n ≤ 18 ∨ 34 ≤ n ∧ n ≤ 36 then half else if 41 ≤ n ∧ n ≤ 48 then templateOk (n - 41) v else decide (n ≤ 69)

/-- INTAKE items. -/
def intakeOk (t : State) (p : PItem) : Bool :=
  let v := p.val.toNat
  if 0x100 ≤ p.id ∧ p.id < 0x200 then between 0 47 p.idx && paramOk t p.idx (p.id - 0x100) p.val
  else match p.id with
  | 0x200 => decide (p.idx < 8200) && between 0 0xFFFF v
  | 0x210 => between 0 3 p.idx && decide (v < 2 ^ 48)
  | 0x211 => between 0 15 p.idx && decide (v < 2 ^ 48)
  | 0x220 => p.idx == 0 && v % 64 == 0 && decide (v + 64 ≤ fstSize)
  | _ => false

/-- CORES items; an image lies in the data area. -/
def coresOk (t : State) (g : Staged) (p : PItem) : Bool :=
  let v := p.val.toNat
  between 0 15 p.idx && match p.id with
  | 1 => v % 32 == 0 && decide (v + 32 * itmN t 4 2 p.idx 0 ≤ g.dataLen 4)
  | 2 => between 1 8192 v
  | 3 => between 0 8191 v
  | 4 => between 0 8191 v
  | 5 => between 0 8192 v
  | _ => false

/-- DRAM address of a Weight Buffer block's source (Table 13.2, BLOCK_SRC). -/
def blockSrc (t : State) (g : Staged) (i : Nat) : Nat :=
  let v := itmN t 5 2 i 0
  if v.testBit 63 then v % 2 ^ 63 else g.a + (g.sect 5).off + g.dataOff 5 + v

/-- WEIGHTS items, a referenced block's CRC included. -/
def weightsOk (t : State) (g : Staged) (p : PItem) : Bool :=
  let v := p.val.toNat
  match p.id with
  | 1 => between 0 31 p.idx
  | 2 => decide (p.idx < 2048) && v % 64 == 0 && (v.testBit 63 || decide (v + 65536 ≤ g.dataLen 5))
  | 3 => decide (p.idx < 2048) && decide (v < 2 ^ 32) &&
      (!(itmN t 5 2 p.idx 0).testBit 63 || (crc32c (g.m.rdN (blockSrc t g p.idx) 65536)).toNat == v)
  | _ => false

/-- FSTORE items. -/
def fstoreOk (p : PItem) : Bool :=
  let v := p.val.toNat
  between 0 4095 p.idx && match p.id with
  | 1 => true
  | 2 => decide (1 ≤ v)
  | 3 => decide (v < 1024) && between 0 5 (bitsAt v 1 3) &&
      (if bitsAt v 1 3 = 4 then bitsAt v 8 2 != 0 else bitsAt v 4 6 == 0)
  | _ => false

/-- KEYED items (09, Table 9.10). -/
def keyedItemOk (p : PItem) : Bool :=
  let v := p.val.toNat
  match p.id with
  | 1 => p.idx == 0 && between 1 0xFFFF v
  | 2 => p.idx == 0 && between 1 255 v
  | 0x10 => between 0 15 p.idx && between 0 1 v
  | 0x11 => between 0 15 p.idx && between 0 1 v
  | 0x12 => between 0 15 p.idx && between 0 2 v
  | 0x13 => between 0 15 p.idx && between 0 0xFFFF v
  | _ => false

/-- SAFETY items (15, Table 15.6; 17, R421). -/
def safetyOk (t : State) (p : PItem) : Bool :=
  let v := p.val.toNat
  match p.id with
  | 1 => slotUsed (p.idx / 64) (p.idx % 64) && between 0 4 v
  | 2 => slotUsed (p.idx / 64) (p.idx % 64) && between 0 4 v
  | 0x10 => between 0 15 p.idx && decide (v < 2 ^ 32)
  | 0x11 => p.idx == 0 && between 16 255 v
  | 0x20 => between 0 15 p.idx && v % 5 == 0 && decide (v ≤ itmN t 2 0x12 p.idx 0 - itmN t 2 0x11 p.idx 0)
  | 0x21 => p.idx == 0 && between 1 16 v
  | 0x30 => p.idx == 0 && between 10000 500000 v
  | _ => false

/-- LINKS items (14, Table 14.6, R352). -/
def linksOk (t : State) (p : PItem) : Bool :=
  let v := p.val.toNat
  let peer := between 0 7 p.idx
  let pools := decide (itmN t 9 0x13 p.idx 256 + itmN t 9 0x14 p.idx 256 ≤ 1024)
  match p.id with
  | 1 => peer
  | 2 => peer
  | 0x10 => between 0 3 p.idx && between 0 15 v
  | 0x11 => peer && between 0 7 v
  | 0x12 => between 0 3 p.idx && between 8 56 v
  | 0x13 => peer && pools
  | 0x14 => peer && pools
  | 0x15 => between 0 63 p.idx
  | 0x16 => peer && between 0 31 v
  | 0x17 => p.idx == 0 && between 0 3 v
  | _ => false

/-- QUEUES items. -/
def queuesOk (p : PItem) : Bool :=
  let v := p.val.toNat
  match p.id with
  | 1 => between 0 255 p.idx && between 0 0xFFFF v
  | 2 => between 0 255 p.idx && between 0 1 v
  | 3 => between 0 255 p.idx && between 0 1 v
  | 4 => between 0 7 v
  | 0x10 => p.idx == 0 && between 100000 100000000 v
  | 0x11 => p.idx == 0 && between 2000 1000000 v
  | _ => false

/-- An item is one of Table 13.2 with a value in its range; `t` is a state with every item of the image in it. -/
def itemOk (t : State) (g : Staged) (p : PItem) : Bool :=
  match p.sec with
  | 1 => topologyOk p
  | 2 => tickplanOk t p
  | 3 => intakeOk t p
  | 4 => coresOk t g p
  | 5 => weightsOk t g p
  | 6 => fstoreOk p
  | 7 => keyedItemOk p
  | 8 => safetyOk t p
  | 9 => linksOk t p
  | _ => queuesOk p

/-! ### Step 9: required items, order, preamble -/

/-- Indices of a section's items with one of the given IDs, each once. -/
def indicesOf (t : State) (sec : Nat) (ids : List Nat) : List Nat :=
  (t.glb.pat.filter fun p => p.sec == sec && ids.contains p.id).foldl (fun l p => addNew l p.idx) []

/-- Jobs that the TICKPLAN section describes. -/
def patJobs (t : State) : List Nat := indicesOf t 2 [0x20, 0x21, 0x22, 0x23]

/-- Resident blocks, as 128c + b. -/
def residents (t : State) : List Nat := (List.range 2048).filter fun i => isResident t (i / 128) (i % 128)

/-- Items that a section must hold, as ID and INDEX (Table 13.2). -/
def requiredItems (t : State) (sec : Nat) : List (Nat × Nat) :=
  match sec with
  | 2 =>
    [(1, 0), (3, 0)] ++
      (List.range (min 16 (itmN t 2 3 0 0))).flatMap (fun i =>
        [(0x10, i), (0x11, i), (0x12, i), (0x13, i)] ++ if itmN t 2 0x10 i 0 = 1 then [(0x15, i)] else []) ++
      (patJobs t).flatMap fun j =>
        [(0x20, j), (0x21, j), (0x22, j), (0x23, j)] ++
          (List.range (min 65536 (itmN t 2 0x23 j 0))).map fun i => (0x30, itmN t 2 0x22 j 0 + i)
  | 3 => if (List.range 48).any (fun n => par t n 0 == 1) then [(0x220, 0)] else []
  | 4 => (indicesOf t 4 [1, 2, 3]).flatMap fun c => [(1, c), (2, c), (3, c)]
  | 5 => ((residents t).map fun i => (2, i)) ++ ((indicesOf t 5 [2]).filter fun i => (itmN t 5 2 i 0).testBit 63).map fun i => (3, i)
  | 6 => (indicesOf t 6 [1, 2, 3]).flatMap fun r => [(1, r), (2, r), (3, r)]
  | 7 => if (List.range 16).any (fun l => itmN t 7 0x10 l 0 == 1) then [(1, 0)] else []
  | 8 => ((List.range 16).filter (present t)).map fun c => (0x10, c)
  | 10 => (patJobs t).map fun j => (4, j)
  | _ => []

/-- Order of items. -/
def keyBefore (a b : Nat × Nat) : Bool := decide (a.1 < b.1) || (a.1 == b.1 && decide (a.2 < b.2))

/-- Position of an item, or the position a missing one would take (R329). -/
def posOf (t : State) (sec id idx : Nat) : Nat :=
  1 + ((t.glb.pat.filter fun p => p.sec == sec && keyBefore (p.id, p.idx) (id, idx))).length

/-- A section's preamble is well formed (R329). -/
def Staged.preambleOk (g : Staged) (ty : Nat) : Bool :=
  let x := g.sect ty
  let d := g.dataOff ty
  decide (16 ≤ x.len) && g.le (x.off + 8) 8 == 0 && d % 32 == 0 && decide (d ≤ x.len) &&
    decide (16 + 16 * g.itemCnt ty ≤ (if d = 0 then x.len else d))

/-- Positions at which the items of a section fail: reserved bits, order, value. -/
def badItems (t : State) (g : Staged) (ty : Nat) : List Nat :=
  let items := g.items ty
  (List.range items.length).filterMap fun k =>
    match items[k]? with
    | none => none
    | some p =>
      let ordered := match items[k - 1]? with
        | some q => k == 0 || keyBefore (q.id, q.idx) (p.id, p.idx)
        | none => true
      if g.itemClean ty k && ordered && itemOk t g p then none else some (k + 1)

/-- Positions of a section's missing required items. -/
def missingItems (t : State) (ty : Nat) : List Nat :=
  ((requiredItems t ty).filter fun x => (itm t ty x.1 x.2).isNone).map fun x => posOf t ty x.1 x.2

/-- Smallest element. -/
def minOf : List Nat → Option Nat
  | [] => none
  | x :: xs => match minOf xs with | some y => some (min x y) | none => some x

/-- A section's first failure under R329 to R332: the lowest failing position. -/
def sectionFail (t : State) (g : Staged) (ty : Nat) : Option Nat :=
  if !g.preambleOk ty then some 0 else minOf (badItems t g ty ++ missingItems t ty)

/-- Step 9: the first section that fails, and the position. -/
def structFail (t : State) (g : Staged) : Option (Nat × Nat) :=
  ((List.range 10).map (· + 1)).findSome? fun ty => (sectionFail t g ty).map fun p => (ty, p)

end Sys2Proof.Machine
end

