-- ==== Sys2Proof/Machine/Placement.lean ====
section
/-!
DEFINITION. The validation steps that concern what a Pattern asks of the device (13, Table 13.3): present cores (10), its commands
(11), placement (12: R336; 01, R25; 05, R136; 09, R233; 10, R254; 14, R364), admission (13: R334, R335; 10, R273), and what
activation loads from its items (R337).
-/
namespace Sys2Proof.Machine

/-! ### What the items say -/

/-- KFS_LAYERn of every layer (09, Table 9.10). -/
def patLayers (t : State) : List (BitVec 20) :=
  (List.range 16).map fun l =>
    BitVec.ofNat 20 (itmN t 7 0x10 l 0 * 2 ^ 19 + itmN t 7 0x11 l 0 * 2 ^ 18 + itmN t 7 0x12 l 0 * 2 ^ 16 + itmN t 7 0x13 l 0)

/-- The state with the items of a staged image in it, for the checks and the loading of that image. -/
def withItems (s : State) (g : Staged) : State :=
  let t := { s with glb := { s.glb with pat := g.allItems } }
  { t with kfs := { t.kfs with layers := patLayers t } }

/-- Bytes of core c's latency-critical image, empty when it has none. -/
def coreImage (t : State) (g : Staged) (c : Nat) : List Byte :=
  match itm t 4 1 c with
  | some off => g.bytes ((g.sect 4).off + g.dataOff 4 + off.toNat) (32 * itmN t 4 2 c 0)
  | none => []

/-- A Bundle Store that holds core c's image (13, Table 13.2, IMG_BASE). -/
def imageMem (t : State) (g : Staged) (c : Nat) : Mem := ({} : Mem).wrN (32 * itmN t 4 3 c 0) (coreImage t g c)

/-- The image of command i. -/
def cmdImg (t : State) (g : Staged) (i : Nat) : Img := ⟨imageMem t g (cmdItem t i).1, 32 * (cmdItem t i).2⟩

/-- Header of command i. -/
def cmdHdr (t : State) (g : Staged) (i : Nat) : Hdr := hdrOf ((cmdImg t g i).unit 0)

/-- Commands of job j, in list order (R332). -/
def jobCmds (t : State) (j : Nat) : List Nat := (List.range (itmN t 2 0x23 j 0)).map (itmN t 2 0x22 j 0 + ·)

/-- Jobs of a stage with their commands. -/
def stageCmds (t : State) (st : Nat) : List (Nat × Nat) :=
  (jobsOfStage t st).flatMap fun j => (jobCmds t j).map fun i => (j, i)

/-- Mask of partition p. -/
def patPart (t : State) (p : Nat) : Nat := itmN t 1 0x10 p 0

/-! ### Steps 10 and 11 -/

/-- Every core that PART_CORES, CMD, CORES, WEIGHTS or SWATCH_CRC names, in that order. -/
def namedCores (t : State) : List Nat :=
  (List.range 4).flatMap (fun p => (List.range 16).filter (patPart t p).testBit) ++
    (indicesOf t 2 [0x30]).map (fun i => (cmdItem t i).1) ++ indicesOf t 4 [1, 2, 3, 4, 5] ++
    (indicesOf t 5 [1]).map (· / 2) ++ (indicesOf t 5 [2, 3]).map (· / 128) ++ indicesOf t 8 [0x10]

/-- Step 10: the first named core that is absent (00, R4). -/
def absentFail (t : State) : Option Nat := (namedCores t).find? fun c => !present t c

/-- Step 11: the first command that fails the checks of its dispatch. -/
def commandsFail (t : State) (g : Staged) : Option Nat :=
  (indicesOf t 2 [0x30]).find? fun i => (commandFail t (cmdImg t g i) (cmdItem t i).2 true).isSome

/-! ### Step 12: the plan -/

/-- Two windows share an instant. -/
def Stage.overlaps (a b : Stage) : Bool := decide (a.openNs < b.closeNs) && decide (b.openNs < a.closeNs)

/-- COMPUTE stages with their numbers. -/
def computeStages (t : State) : List (Nat × Stage) := (stages t).filter fun x => x.2.compute

/-- The later stage of the first pair of overlapping COMPUTE stages for which `p` holds. -/
def pairFail (t : State) (p : Nat × Stage → Nat × Stage → Bool) : Option Nat :=
  ((computeStages t).find? fun b => (computeStages t).any fun a => decide (a.1 < b.1) && a.2.overlaps b.2 && p a b).map Prod.fst

/-- R25: the stage that breaks it. -/
def planFail (t : State) : Option Nat :=
  match ((stages t).filter fun x => !x.2.compute)[1]? with
  | some x => some x.1
  | none =>
    match (computeStages t).find? fun x => decide (x.2.openNs < 100000) with
    | some x => some x.1
    | none => pairFail t fun a b => a.2.parts &&& b.2.parts != 0

/-- Units that a stage's latency-critical requests name (05, R136). -/
def stageUnits (t : State) (g : Staged) (st : Nat) : List Nat :=
  (stageCmds t st).flatMap fun x =>
    let im := cmdImg t g x.2
    let h := cmdHdr t g x.2
    (namedReqs im h).map fun r => (reqOf (reqRec im h r)).unit

/-- R136: the stage that breaks it. -/
def samplerFail (t : State) (g : Staged) : Option Nat :=
  match (computeStages t).find? fun x => (stageUnits t g x.1).any fun u => !x.2.rsmp.testBit u with
  | some x => some x.1
  | none => pairFail t fun a b => a.2.rsmp &&& b.2.rsmp != 0

/-- Keyed operations of a stage: job, whether it scatters, layer. -/
def stageKeyed (t : State) (g : Staged) (st : Nat) : List (Nat × Bool × Nat) :=
  (stageCmds t st).flatMap fun x =>
    let im := cmdImg t g x.2
    let h := cmdHdr t g x.2
    (keyedOps im h).map fun o => (x.1, o.2, (keyedOf (keyedRec im h o.1)).layer)

/-- The stage changes the directory (R233). -/
def stageChanges (t : State) (g : Staged) (st : Nat) : Bool :=
  (stageKeyed t g st).any fun o => o.2.1 || layerPrior t o.2.2

/-- Every keyed operation of the plan with its stage. -/
def planKeyed (t : State) (g : Staged) : List (Nat × Stage × Nat × Bool × Nat) :=
  (computeStages t).flatMap fun x => (stageKeyed t g x.1).map fun o => (x.1, x.2, o.1, o.2.1, o.2.2)

/-- R233's third rule for one operation against the scatters of its layer. -/
def keyedClash (all : List (Nat × Stage × Nat × Bool × Nat)) (o : Nat × Stage × Nat × Bool × Nat) : Bool :=
  all.any fun x => x.2.2.2.1 && x.2.2.2.2 == o.2.2.2.2 && x.2.2.1 != o.2.2.1 &&
    (if o.2.2.2.1 then decide (x.2.2.1 < o.2.2.1) else x.2.1.overlaps o.2.1)

/-- R233: the stage that breaks it. -/
def keyedPlaceFail (t : State) (g : Staged) : Option Nat :=
  let uses := fun (st : Nat) => !(stageKeyed t g st).isEmpty
  match pairFail t fun a b => (stageChanges t g a.1 && uses b.1) || (stageChanges t g b.1 && uses a.1) with
  | some st => some st
  | none =>
    match (computeStages t).find? fun x => uses x.1 && (stages t).any fun y => !y.2.compute && y.2.overlaps x.2 with
    | some x => some x.1
    | none => ((planKeyed t g).find? (keyedClash (planKeyed t g))).map Prod.fst

/-! ### Step 12: line buffers -/

/-- Enabled camera streams. -/
def cameras (t : State) : List Nat := (List.range 32).filter (streamEn t)

/-- Lowest and highest source row that pre-orientation row r' reads inside the image (10, R252, R254). -/
def rowNeeds (m : Mem) (g : CamCfg) (r : Nat) : Option (Nat × Nat) :=
  (List.range g.ow).foldl (fun acc c =>
    let p := pixelPos m g r c
    if 0 ≤ p.1 ∧ p.1 ≤ ((g.w - 1) * 256 : Nat) ∧ 0 ≤ p.2 ∧ p.2 ≤ ((g.h - 1) * 256 : Nat) then
      let y := p.2.toNat / 256
      let y1 := min (y + 1) (g.h - 1)
      match acc with
      | some (a, b) => some (min a y, max b y1)
      | none => some (y, y1)
    else acc) none

/-- R254 over the rows in order: `low` is the furthest row down that an earlier row needed. -/
def rowsFit (m : Mem) (g : CamCfg) (rows : Nat) : Option Nat → List Nat → Bool
  | _, [] => true
  | low, r :: rest =>
    match rowNeeds m g r with
    | none => rowsFit m g rows low rest
    | some (a, b) =>
      decide (b - a + 1 ≤ rows) && (match low with | some l => decide (l ≤ a + (rows - 2)) | none => true) &&
        rowsFit m g rows (some (match low with | some l => max l b | none => b)) rest

/-- LB_ROWS of stream n. -/
def lbRows (t : State) (n : Nat) : Nat := par t n 11 / (2 * par t n 8)

/-- Line buffer bytes that the enabled streams of a receiver up to stream n share. -/
def lbShare (t : State) (n : Nat) : Nat :=
  sumN (((cameras t).filter fun k => k / 4 == n / 4 && decide (k ≤ n)).map fun k => par t k 11)

/-- R254: the first stream that breaks it. -/
def lineBufferFail (t : State) : Option Nat :=
  (cameras t).find? fun n =>
    decide (0x40000 < lbShare t n) || !rowsFit t.fst.mem (camCfg t n) (lbRows t n) none (List.range (camCfg t n).oh)

/-! ### Step 12: the rest of R336 -/

/-- A partition that shares a core with one before it. -/
def partsFail (t : State) : Option Nat :=
  (List.range 4).find? fun p => (List.range p).any fun q => patPart t p &&& patPart t q != 0

/-- The partition of a job, if its commands lie in one. -/
def jobPart (t : State) (j : Nat) : Option Nat :=
  (List.range 4).find? fun p => (jobCmds t j).all fun i => (patPart t p).testBit (cmdItem t i).1

/-- The stage of the first job whose commands lie in no one partition, or in one that its stage does not name. -/
def jobFail (t : State) : Option Nat :=
  ((patJobs t).find? fun j =>
    match jobPart t j with
    | some p => !(itmN t 2 0x13 (itmN t 2 0x20 j 0) 0).testBit p
    | none => true).map fun j => itmN t 2 0x20 j 0

/-- A stream whose receiver another enabled stream gives another PHY. -/
def phyFail (t : State) : Option Nat :=
  (cameras t).find? fun n => (cameras t).any fun k => k / 4 == n / 4 && decide (k < n) && par t k 6 != par t n 6

/-- CORES: the position of the item whose range passes index 8,191, or of BE_BASE where the two ranges share a unit. -/
def rangeFail (t : State) : Option Nat :=
  (List.range 16).findSome? fun c =>
    let b := itmN t 4 3 c 0
    let n := itmN t 4 2 c 0
    let bb := itmN t 4 4 c 0
    let bn := itmN t 4 5 c 0
    if (itm t 4 1 c).isSome && decide (8192 < b + n) then some (posOf t 4 3 c)
    else if bn != 0 && (decide (8192 < bb + bn) || (decide (bb < b + n) && decide (b < bb + bn))) then some (posOf t 4 4 c)
    else none

/-- An FSTORE region: index, space bit, base, length and USE. -/
structure FRegion where
  r : Nat
  dram : Bool
  base : Nat
  len : Nat
  use : Nat

def fregions (t : State) : List FRegion :=
  (indicesOf t 6 [1]).map fun r =>
    { r := r, dram := itmF t 6 3 r 0 0 0 == 1, base := itmN t 6 1 r 0, len := itmN t 6 2 r 0, use := itmF t 6 3 r 0 3 1 }

/-- Size of a space of the FSTORE map. -/
def fspaceSize (t : State) (dram : Bool) : Nat := if dram then dramGenEnd t else fstSize

/-- FSTORE: disjoint regions that cover both spaces; the failing position, 0 where a byte lies in no region. -/
def mapFail (t : State) : Option Nat :=
  let rs := fregions t
  match rs.find? fun x => decide (fspaceSize t x.dram < x.base + x.len) with
  | some x => some (posOf t 6 2 x.r)
  | none =>
    match rs.find? fun x => rs.any fun y =>
      decide (y.r < x.r) && x.dram == y.dram && decide (x.base < y.base + y.len) && decide (y.base < x.base + x.len) with
    | some x => some (posOf t 6 1 x.r)
    | none =>
      if [false, true].all fun d => sumN ((rs.filter fun x => x.dram == d).map FRegion.len) == fspaceSize t d then none else some 0

/-- Bytes lie in regions of the given uses. -/
def inUses (t : State) (dram : Bool) (uses : List Nat) (a n : Nat) : Bool :=
  (((fregions t).filter fun x => x.dram == dram && uses.contains x.use).foldl
    (fun ivs x => cutOut ivs x.base (x.base + x.len)) [(a, a + n)]).isEmpty

/-- Referenced blocks: BLOCK_SRC items with REF = 1. -/
def refBlocks (t : State) : List Nat := (indicesOf t 5 [2]).filter fun i => (itmN t 5 2 i 0).testBit 63

/-- The image and the referenced blocks lie in USE 5 regions. -/
def useFail (t : State) (g : Staged) : Option (Nat × Nat) :=
  if !inUses t true [5] g.a g.len then some (6, 0)
  else ((refBlocks t).find? fun i => !inUses t true [5] (itmN t 5 2 i 0 % 2 ^ 63) 65536).map fun i => (5, posOf t 5 2 i)

/-- A region list entry of a latency-critical command lies where its access may (R336). -/
def entryPlaced (t : State) (r : Region) : Bool :=
  if r.space = 1 ∨ r.space = 2 then inUses t (r.space == 2) (if r.write then [0] else [0, 2, 3, 4, 5]) r.base r.len else true

/-- The first stage with a command whose region list breaks R336. -/
def accessFail (t : State) (g : Staged) : Option Nat :=
  ((computeStages t).find? fun x => (stageCmds t x.1).any fun y =>
    (regionList (cmdImg t g y.2) (cmdHdr t g y.2)).any fun r => !entryPlaced t r).map Prod.fst

/-- SEV of a slot as activation loads it, and its floor (16, R405). -/
def patSev (t : State) (b slot : Nat) : Nat := itmN t 8 1 (64 * b + slot) (defaultSev b slot)
def patFloor (t : State) (b slot : Nat) : Nat := max (defaultFloor b slot) (itmN t 8 2 (64 * b + slot) 0)

/-- In FIELD every SEV is at least its floor. -/
def sevFail (t : State) : Option Nat :=
  if lifecycle t ≠ 2 then none
  else ((List.range 2304).find? fun i => slotUsed (i / 64) (i % 64) && decide (patSev t (i / 64) (i % 64) < patFloor t (i / 64) (i % 64))).map
    fun i => posOf t 8 1 i

/-- PORT_CFG of port n is enabled. -/
def portEn (t : State) (n : Nat) : Bool := (itmN t 9 0x10 n 0).testBit 0

/-- LINKS (14, R364). -/
def linksFail (t : State) : Option Nat :=
  match (List.range 4).find? fun n => portEn t n && itmF t 9 0x10 n 0 3 1 == devId t with
  | some n => some (posOf t 9 0x10 n)
  | none =>
    ((List.range 8).find? fun d =>
      let v := itmN t 9 0x11 d 0
      (v.testBit 2 && !portEn t (v % 4)) || (decide (d ≤ groupM1 t) && d != devId t && !v.testBit 2)).map fun d => posOf t 9 0x11 d

/-- Step 12: SECTION and DETAIL of the first failure, in the order of R336, then R364. -/
def placementFail (t : State) (g : Staged) : Option (Nat × Nat) :=
  [(planFail t).map fun st => (2, st), (samplerFail t g).map fun st => (2, st), (keyedPlaceFail t g).map fun st => (2, st),
   (lineBufferFail t).map fun n => (3, posOf t 3 0x10B n), (partsFail t).map fun p => (1, posOf t 1 0x10 p),
   (jobFail t).map fun st => (2, st), (phyFail t).map fun n => (3, posOf t 3 0x106 n), (rangeFail t).map fun p => (4, p),
   (mapFail t).map fun p => (6, p), useFail t g, (accessFail t g).map fun st => (2, st), (sevFail t).map fun p => (8, p),
   (linksFail t).map fun p => (9, p)].findSome? id

/-! ### Step 13: admission -/

/-- Device cycles of a window at `f` cycles per 5 ns (R334). -/
def Stage.cycles (x : Stage) (f : Nat) : Nat := (x.closeNs - x.openNs) * f / 5

/-- Commands of a stage on core c. -/
def cmdsOn (t : State) (st c : Nat) : List Nat := ((stageCmds t st).filter fun x => (cmdItem t x.2).1 == c).map Prod.snd

/-- Setup and declared cycles of the commands of a stage on core c. -/
def coreLoad (t : State) (g : Staged) (st c : Nat) : Nat :=
  sumN ((cmdsOn t st c).map fun i => setupCycles (cmdImg t g i) (cmdItem t i).2 + (cmdHdr t g i).decl)

/-- The cycles that R334 asks a stage's window for. -/
def stageNeed (t : State) (st : Nat) (gate : Bool) : Nat :=
  let d := itmN t 2 0x15 st 0
  d + ceilDiv (d * itmN t 8 0x11 0 16) 256 + 64 + (if gate then 24 * maxN ((List.range 16).map fun c => (cmdsOn t st c).length) else 0)

/-- R334 for one stage. -/
def stageAdmitted (t : State) (g : Staged) (f : Nat) (gate : Bool) (x : Nat × Stage) : Bool :=
  let win := x.2.cycles f
  decide (maxN ((List.range 16).map (coreLoad t g x.1)) ≤ itmN t 2 0x15 x.1 0) && decide (stageNeed t x.1 gate ≤ win) &&
    (List.range 4).all fun u => decide (itmN t 2 0x17 (4 * x.1 + u) 0 ≤ win)

/-- Stages open at the open of stage x. -/
def openWith (t : State) (x : Nat × Stage) : List Nat :=
  ((stages t).filter fun y => decide (y.2.openNs ≤ x.2.openNs) && decide (x.2.openNs < y.2.closeNs)).map Prod.fst

/-- Latency-critical bytes per 1,024 cycles of a stage: DRAM, and over a Harness port. -/
def dramRate (t : State) (st : Nat) : Nat := itmN t 2 0x16 st 0
def linkRate (t : State) (st port : Nat) : Nat := itmN t 9 0x15 (4 * st + port) 0

/-- Limit of LINK_RATE at a performance point (14, Table 14.6). -/
def linkLimit (perf : Nat) : Nat := if perf = 0 then 24576 else if perf = 1 then 30720 else 40960

/-- The rates of the stages that are open together. -/
def ratesFit (t : State) (perf : Nat) (x : Nat × Stage) : Bool :=
  let os := openWith t x
  decide (sumN (os.map (dramRate t)) ≤ 196608) && (List.range 4).all fun p => decide (sumN (os.map fun st => linkRate t st p) ≤ linkLimit perf)

/-- Bytes that a stream declares for one tick (10, R273). -/
def streamBytes (t : State) (n : Nat) : Nat :=
  if !streamEn t n then 0
  else if n < 32 then
    let g := camCfg t n
    g.outSize.1 * g.outSize.2 / (if g.pack8 then 64 else 16) * 64
  else if n < 36 then 8 * par t n 56 * par t n 57 + 520 * par t n 58
  else if par t n 2 = 2 then 0
  else par t n 64 * par t n 65 * ceilDiv (par t n 66) 64 * 64 * (if par t n 63 ≤ 1 then 1 else 2)

/-- The declared intake bytes fit the INTAKE window. -/
def intakeFits (t : State) (f : Nat) : Bool :=
  decide (sumN ((List.range 48).map (streamBytes t)) ≤ 64 * match intakeStage t with | some x => x.2.cycles f | none => 0)

/-- Step 13: the stage that is not admitted. -/
def admissionFail (t : State) (g : Staged) (perf : Nat) (gate : Bool) : Option Nat :=
  let f := cyclesPer5 perf
  match (computeStages t).find? fun x => !stageAdmitted t g f gate x with
  | some x => some x.1
  | none =>
    match (stages t).find? fun x => !ratesFit t perf x with
    | some x => some x.1
    | none => if intakeFits t f then none else some (match intakeStage t with | some x => x.1 | none => 0)

end Sys2Proof.Machine
end

