-- ==== Sys2Proof/Machine/Pattern.lean ====
section
/-!
DEFINITION. The Pattern's life (13, R333 to R339; 11, R285; 18, R435): LOAD with its validation, loading, launch, UNLOAD, and the
flush of the Keyed Feature Store (09, R229).
-/
namespace Sys2Proof.Machine

/-! ### Validation -/

/-- Bit of GRADE_MASK that the device's grade has (13, Table 13.1; 20, Table 20.6). -/
def gradeBit (s : State) : Nat :=
  let n := coreCnt s
  if n = 16 then 0 else if n = 12 then 1 else 2

/-- Steps 2 to 8 of Table 13.3: SECTION, REASON and DETAIL of the first failure. -/
def formFail (s : State) (g : Staged) : Option (Nat × Nat × Nat) :=
  match (List.range 8).find? fun r => (subAt s r).en with
  | some r => some (0, 2, r)
  | none =>
    if !dramUp s || decide (dramGenEnd s < g.a + 512) then some (0, 3, 0)
    else match g.hdrFail (dramGenEnd s) with
    | some o => some (0, 4, o)
    | none =>
      if !g.signOk (lifecycle s) s.mgt.otp.patKey then some (0, 5, 0)
      else if !(g.le 6 1).testBit (gradeBit s) then some (0, 6, 0)
      else match g.dirFail with
      | some e => some (0, 7, e)
      | none => g.crcFail.map fun ty => (ty, 8, 0)

/-- Steps 9 to 14 of Table 13.3; `t` is the state with the image's items in it. -/
def contentFail (t : State) (g : Staged) : Option (Nat × Nat × Nat) :=
  match structFail t g with
  | some (ty, p) => some (ty, 9, p)
  | none =>
    match absentFail t with
    | some c => some (0, 0xA, c)
    | none =>
      match commandsFail t g with
      | some i => some (0, 0xB, i)
      | none =>
        match placementFail t g with
        | some (sec, d) => some (sec, 0xC, d)
        | none =>
          match admissionFail t g (fld t.glb.patReq 1 0) (bitAt t.glb.patReq 3) with
          | some st => some (0, 0xD, st)
          | none => if itmN t 2 1 0 0 < t.clk.gtc.toNat + 5000000 then some (0, 0xE, 0) else none

/-- The validation of the staged image (R333). -/
def validate (s : State) (g : Staged) : Option (Nat × Nat × Nat) :=
  match formFail s g with
  | some f => some f
  | none => contentFail (withItems s g) g

/-- The DRAM reads of the image and its referenced blocks; what they correct or find fires (08, R212, R213). -/
def readImage (g : Staged) (blocks : List Nat) (s : State) : State :=
  blocks.foldl (fun s a => readRun .dram none a 65536 s) (readRun .dram none g.a g.len s)

/-- GLB_PAT_STATUS takes a state; vector 155 says so. -/
def setPat (st sec reason det : Nat) (s : State) : State :=
  patVec { s with glb := { s.glb with patState := st, patSection := sec, patReason := reason, patDetail := det } }

/-- A LOAD in a state that permits one: FAILED with the first failure and GLB_PAT_FAIL, or LOADING with the image's items
taken (R333, R337). -/
def loadFrom (s : State) : State :=
  let g := stagedAt s s.glb.patAddr.toNat
  match formFail s g with
  | some (sec, reason, det) => fire { b := bGLB, src := 1 } (setPat 5 sec reason det s)
  | none =>
    let t := withItems s g
    let s1 := readImage g ((refBlocks t).map (blockSrc t g)) s
    match contentFail t g with
    | some (sec, reason, det) => fire { b := bGLB, src := 1 } (setPat 5 sec reason det s1)
    | none =>
      setPat 2 0 0 0 { s1 with
        glb := { s1.glb with patternId := g.id, pat := g.allItems, imgAddr := g.a }
        rst := { s1.rst with phase := if s1.rst.phase = 5 then 5 else 4 } }

/-- A write of 1 to GLB_PAT_CTRL.LOAD: ignored in STATE 1 to 4 (R341) and in Minimal Recovery Mode (18, R436). -/
def loadWrite (s : State) : State := if patLive s || s.rst.minimal then liveWrite 0x20C s else loadFrom s

/-- LOAD. -/
def execLoad (s : State) : Host.Outcome State Fault Refusal := run s loadWrite

/-! ### Loading -/

/-- SIU_STREAMn_TUNE as the INTAKE section gives it (10, Tables 10.14 and 10.19). -/
def patTune (t : State) (n : Nat) : BitVec 256 :=
  let p := par t n
  BitVec.ofNat 256 (p 3 + p 12 * 2 ^ 32 + p 13 * 2 ^ 48 + p 14 * 2 ^ 64 + p 15 * 2 ^ 80 + p 16 * 2 ^ 96 + p 17 * 2 ^ 112 +
    p 18 * 2 ^ 128 + p 38 % 65536 * 2 ^ 144 + p 34 * 2 ^ 160 + p 35 * 2 ^ 176 + p 36 * 2 ^ 192 + p 37 * 2 ^ 208)

/-- A core's image and resident blocks, from the staged image (08, R194, R196). -/
def loadCore (t : State) (g : Staged) (c : Nat) (k : Core) : Core :=
  { k with
    bst := k.bst.store 8 (32 * itmN t 4 3 c 0) (coreImage t g c)
    wbf := ((residents t).filter fun i => i / 128 == c).foldl
      (fun m i => m.store 8 (65536 * (i % 128)) (g.m.rdN (blockSrc t g i) 65536)) k.wbf }

/-- The Time Unit's mirrors and the activation request (11, R281, R284). -/
def TimeU.loaded (u : TimeU) (t : State) : TimeU :=
  { u with launch := BitVec.ofNat 64 (itmN t 2 1 0 0), period := planT t,
           stages := (Machine.stages t).map fun x => (x.2.openNs, x.2.closeNs), perf := fld t.glb.patReq 1 0,
           avsEn := bitAt t.glb.patReq 2, idleGate := bitAt t.glb.patReq 3, firstTick := 0, tick := 0 }

/-- The dispatcher's mirrors, its retired cores and its semaphores (06, R154; 12, R324; 15, R376). -/
def Disp.loaded (d : Disp) (t : State) : Disp :=
  let slice := itmN t 10 0x10 0 1000000
  let grace := itmN t 10 0x11 0 20000
  { d with slice := (slice, slice), grace := (grace, grace), retired := 0, retireDue := 0, semWait := [],
           parts := (List.range 4).map fun p => BitVec.ofNat 16 (patPart t p), sems := (List.range 256).map fun i => itmN t 10 1 i 0 }

/-- KFS_CFG and KFS_LAYERn (09, R237); `t` holds the items. -/
def Kfs.config (k : Kfs) (t : State) : Kfs :=
  { k with ageEpoch := itmN t 7 2 0 1, pitch := itmN t 7 1 0 0, layers := patLayers t }

/-- The Keyed Feature Store's registers, and the flush of R229. -/
def Kfs.loaded (k : Kfs) (t : State) : Kfs :=
  { k.config t with gen := (k.gen + 1) % 256, dir := [], flushPend := false, ce := [], ue := [] }

/-- The tannery begins anew: sequence numbers, tunable fields, nothing in flight (10, R239, R274). -/
def Siu.loaded (u : Siu) (t : State) : Siu :=
  let tune := (List.range 48).map (patTune t)
  { u with tune := tune, shadow := tune, seqNo := List.replicate 48 0, lastTick := List.replicate 48 none,
           cams := List.replicate 32 none, sweeps := [{}, {}, {}, {}], flushing := [], tile := none, aged := [], results := [] }

/-- FLT_SEV and FLT_FLOOR of every slot in use (16, R405). -/
def fltLoaded (t : State) (b : Nat) (f : FltBlock) : FltBlock :=
  { f with sev := (List.range 64).map fun i => if slotUsed b i then patSev t b i else 0
           floor := (List.range 64).map fun i => if slotUsed b i then patFloor t b i else 0 }

/-- Receive credits of a port's far end, split by LC_CREDITS (14, R349). -/
def portCredits (t : State) (p : Nat) : Nat × Nat :=
  let lc := itmN t 9 0x12 p 48
  (lc, 64 - lc)

/-- READY rises in the first cycle after a reset in which STATE is ARMED (18, R431, R435; 14, Table 14.7). -/
def readyRise (s : State) : State :=
  if s.rst.ready then s
  else
    let inTime := decide (s.clk.ns ≤ s.rst.releaseAt + s.rst.startLimit * 1000000)
    let bkup := if inTime then putAt 0 s.rst.bkup 0 (putBits (s.rst.bkup.getD 0 0) 0 8 0) else s.rst.bkup
    sendSide 0x05 0xFF 0 0 s.time.tick
      (patVec { s with rst := { s.rst with ready := true, phase := 5, bkup := bkup } })

/-- Everything that R337 loads. -/
def loadAll (g : Staged) (s : State) : State :=
  { s with
    cores := s.cores.mapIdx fun c (k : Core) =>
      let k1 := loadCore s g c k
      { k1 with st := { k1.st with trans := [], gated := k1.st.gated && bitAt s.glb.patReq 3 } }
    time := s.time.loaded s
    disp := s.disp.loaded s
    kfs := s.kfs.loaded s
    siu := s.siu.loaded s
    fst := { s.fst with arr := [], arrAt := [] }
    flt := s.flt.mapIdx fun b (f : FltBlock) => fltLoaded s b f
    glb := { s.glb with voids := [], unloadPend := false, tuned := [], readbackAt := 0 }
    hrn := { s.hrn with ports := s.hrn.ports.mapIdx fun p (k : Port) => if k.up then { k with credits := portCredits s p } else k } }

/-- Loading ends and the Pattern is ARMED (R337); an IDENT goes out on every port (14, Table 14.5). -/
def activate (g : Staged) (s : State) : State := readyRise (sendIdents (setPat 3 0 0 0 (loadAll g s)))

/-- The image in use and the sources of its resident blocks. -/
def usedImage (s : State) : Staged := stagedAt s s.glb.imgAddr
def usedBlocks (s : State) : List Nat := (residents s).map (blockSrc s (usedImage s))

/-- A DRAM burst that loading reads is uncorrectable. -/
def loadPoisoned (s : State) : Bool :=
  poisoned s .dram s.glb.imgAddr (usedImage s).len || (usedBlocks s).any fun a => poisoned s .dram a 65536

/-- The cores have no images: what their Bundle Stores and Weight Buffers hold is unspecified (R337). -/
def dropImages (s : State) : State :=
  { s with freeSeq := s.freeSeq + 32
           cores := s.cores.mapIdx fun c (k : Core) =>
             { k with bst := k.bst.forget (s.freeSeq + 2 * c), wbf := k.wbf.forget (s.freeSeq + 2 * c + 1) } }

/-- Loading stops with LOAD_ERROR (R337). -/
def loadError (s0 : State) : State :=
  let s := dropImages s0
  setPat 5 0 0x0F 0 { s with
    glb := { s.glb with patternId := 0, pat := [], imgAddr := 0 }, rst := { s.rst with phase := if s.rst.phase = 4 then 3 else s.rst.phase } }

/-- Loading is carried out to its end (R337). -/
def finishLoad (s : State) : State :=
  let g := usedImage s
  let bad := loadPoisoned s
  let s1 := readImage g ((refBlocks s).map (blockSrc s g)) s
  if bad then loadError s1 else activate g s1

/-- The end of loading; it waits for DRAM. -/
def patternLoaded (s : State) : State := if s.glb.patState ≠ 2 ∨ !dramUp s then s else finishLoad s

/-- PATTERN_LOADED. -/
def execPatternLoaded (s : State) : Host.Outcome State Fault Refusal := run s patternLoaded

/-- PATTERN_LAUNCH (11, R285). -/
def execPatternLaunch (s : State) : Host.Outcome State Fault Refusal :=
  run s fun s => if s.glb.patState = 3 then launchNow s else s

/-! ### Unloading and flushing -/

/-- A submission ring is enabled. -/
def anyRing (s : State) : Bool := (List.range 8).any fun r => (subAt s r).en

/-- A write of 1 to GLB_PAT_CTRL.UNLOAD (R339). -/
def unloadWrite (s : State) : State :=
  if anyRing s || (s.glb.patState != 3 && s.glb.patState != 4) then liveWrite 0x20C s
  else if s.glb.patState = 3 then unloadNow s
  else { s with glb := { s.glb with unloadPend := true } }

/-- UNLOAD. -/
def execUnload (s : State) : Host.Outcome State Fault Refusal := run s unloadWrite

/-- A write of 1 to KFS_CTRL.FLUSH (09, R229). -/
def flushWrite (s : State) : State := if patActive s then { s with kfs := { s.kfs with flushPend := true } } else s

/-- FLUSH. -/
def execFlush (s : State) : Host.Outcome State Fault Refusal := run s flushWrite

end Sys2Proof.Machine
end

