-- ==== Sys2Proof/Machine/Matrix.lean ====
section
/-!
DEFINITION. The matrix instruction: its operands (03, R70, R81; 04, R116, R118; 07, R180), accumulation with the Residue
Checker (03, R72 to R93), the conditions of its issue (R84), the drain and the Output Transform Buffers (04, R111 to R114),
and the events of 15, R370.
-/
namespace Sys2Proof.Machine

/-! ### Operands -/

/-- Bytes of the Weight Buffer. -/
def wbfBytes (s : State) (c a n : Nat) : List Byte :=
  (accesses 65536 a n).flatMap fun x => (memOf s (wbfMem s c x.1)).rdN x.1 x.2

/-- A list cut into pieces of `w` elements. -/
def chunks {α : Type} (w : Nat) : Nat → List α → List (List α)
  | 0, _ => []
  | n + 1, l => l.take w :: chunks w n (l.drop w)

/-- Array operands of a format: INT8, UINT8, INT12 (R40), INT4 (R37), from bytes. -/
def operands (fmt : Nat) (bs : List Byte) : List Int :=
  match fmt with
  | 0 => bs.map BitVec.toInt
  | 1 => bs.map fun b => (b.toNat : Int)
  | 2 => (chunks 2 (bs.length / 2) bs).map fun p => signedOf 12 (ofLe p)
  | _ => bs.flatMap fun b => [signedOf 4 (fld b 3 0), signedOf 4 (fld b 7 4)]

/-- Depth of a step under R89. -/
def checkDepth (mode wfmt : Nat) : Nat := if mode = 2 then 64 else if mode = 3 then 16 else stepDepth wfmt

/-- W of one step of array a: `w` are the weights the block holds (R180), `st` is the step within the tap segment, `cpg` the
channels per group (R116, R118). -/
def stepWeights (mode cpg a st : Nat) (w : List Int) : List (List Int) :=
  match mode with
  | 2 => (List.range 64).map fun q =>
      (List.range 64).map fun j => if decide (j < 16) && q == 16 * a + j then w.getD j 0 else 0
  | 3 =>
    let rows := chunks 64 4 w
    (List.range 16).map fun q =>
      if q / 4 = a then
        let ch := 4 * (st % 16) + q % 4
        (rows.getD (q % 4) []).mapIdx fun j v => if 0 < cpg ∧ cpg < 64 ∧ ch / cpg ≠ j / cpg then 0 else v
      else List.replicate 64 0
  | _ => chunks 64 (w.length / 64) w

/-- Rows of an operand buffer entry as the steps of an instruction take them: row i's elements. -/
def aobRows (s : State) (c : Nat) (f : MmaF) (n : Nat) : List (List Int) :=
  let bytes := n * rowElems f.mode.toNat f.wfmt.toNat * elemBytes f.afmt.toNat
  (List.range 64).map fun i =>
    operands f.afmt.toNat ((coreAt s c).asp.rdN (aobBase + f.aob.toNat * 0x8000 + 512 * i) bytes)

/-! ### Accumulation and the Residue Checker -/

/-- m of R88. -/
def resMod : Nat := 1048575

/-- res(x). -/
def res (x : Int) : Nat := (x % (resMod : Int)).toNat

def sumI (l : List Int) : Int := l.foldl (· + ·) 0

/-- Sum over the rows of a table, column by column. -/
def colSums (rows : List (List Int)) : List Int :=
  rows.foldl (fun acc r => List.zipWith (· + ·) acc r) (List.replicate 64 0)

/-- Inner product. -/
def dot (a w : List Int) : Int := sumI (List.zipWith (· * ·) a w)

/-- A table's columns. -/
def columns (d : Nat) (rows : List (List Int)) : List (List Int) :=
  (List.range d).map fun j => rows.map fun r => r.getD j 0

/-- The 64 rows of a tile; absent elements read 0. -/
def tileRows (acc : List (BitVec 40)) : List (List Int) :=
  chunks 64 64 ((acc ++ List.replicate (4096 - acc.length) 0).map BitVec.toInt)

/-- Values of the checker added element by element, modulo m. -/
def resAdd (old : List Nat) (add : List Int) : List Nat :=
  List.zipWith (fun (o : Nat) (x : Int) => res (o + x)) (old ++ List.replicate (64 - old.length) 0) add

/-- +1 or −1 when an exact value leaves the ACC40 range. -/
def wrapTally (v : Int) : Int := if 2 ^ 39 ≤ v then 1 else if v < -(2 ^ 39) then -1 else 0

/-- One step of a bank: `act` has a row of d elements for each tile row, `w` d rows of 64 weights (R42, R89). -/
def Bank.step (b : Bank) (act w : List (List Int)) : Bank :=
  let cols := columns 64 w
  let exact := List.zipWith (fun acc a => List.zipWith (fun x col => x + dot a col) acc cols) (tileRows b.acc) act
  let tally := exact.map fun r => r.map wrapTally
  let ws := w.map sumI
  let asum := (columns w.length act).map sumI
  { b with
    acc := exact.flatMap fun r => r.map wrap40
    rp := resAdd b.rp (act.map fun a => dot a ws)
    cp := resAdd b.cp (cols.map (dot asum))
    tr := resAdd b.tr (tally.map sumI)
    tc := resAdd b.tc (colSums tally) }

/-- A chain opens on the bank (R76, R89). -/
def Bank.openChain (b : Bank) (f : MmaF) (t : Nat) : Bank :=
  let acc := if f.init = 1 then [] else b.acc
  { b with
    acc := acc, preloaded := false
    chain := some ⟨0, f.afmt.toNat, f.wfmt.toNat, f.mode.toNat, t⟩
    rp := resAdd [] ((tileRows acc).map sumI), cp := resAdd [] (colSums (tileRows acc))
    tr := List.replicate 64 0, tc := List.replicate 64 0 }

/-- Rows and columns whose residues differ in a drained tile (R90). -/
def Bank.check (b : Bank) (tile : List (BitVec 40)) : List Nat × List Nat :=
  let rows := tileRows tile
  let bad := fun (sums : List Int) (tally pred : List Nat) =>
    (List.range 64).filter fun i => res (sums.getD i 0 + tally.getD i 0) != pred.getD i 0
  (bad (rows.map sumI) b.tr b.rp, bad (colSums rows) b.tc b.cp)

/-- The locator of Table 3.7. -/
def locator (a bank : Nat) (bad : List Nat × List Nat) : Nat :=
  a * 2 ^ 14 + bank * 2 ^ 13 + b2n (!bad.1.isEmpty) * 2 ^ 12 + b2n (!bad.2.isEmpty) * 2 ^ 11 +
    b2n (decide (1 < bad.1.length) || decide (1 < bad.2.length)) * 2 ^ 10 + bad.1.headD 0 / 4 * 2 ^ 4 + bad.2.headD 0 / 4

/-! ### Conditions of issue -/

/-- Arrays of a mask. -/
def arraysOf (amask : BitVec 4) : List Nat := (List.range 4).filter amask.getLsbD

def bankIx (a : Nat) (bank : Bool) : Nat := 2 * a + b2n bank

/-- Steps an instruction issues: one when its entry is marked SKIP (R105). -/
def mmaSteps (k : Core) (f : MmaF) : Nat :=
  if (k.mx.aob.getD f.aob.toNat {}).skip then 1 else f.nM1.toNat + 1

/-- An LDACC of an earlier bundle than dispatch number `seq` that writes bank `bank` of array a stands in the load queue or is in
flight (R188). -/
def preloadComing (k : Core) (a : Nat) (bank : Bool) (seq : Nat) : Bool :=
  (k.sq.ql.any fun e =>
    decide (e.seq < seq) && fld e.slot 47 42 == 4 && !bitAt e.slot 21 && bitAt e.slot (23 + a) && bitAt e.slot 22 == bank) ||
  (k.xfers.any fun x => decide (x.ent.seq < seq) && match x.dst with
    | .acc m b _ => m.testBit a && (b == b2n bank)
    | _ => false)

/-- The operand pairing of two formats: the row of Table 2.2 (02, R41). -/
def pairing (afmt wfmt : Nat) : Nat := if 3 ≤ wfmt then 2 else if afmt = 2 then 1 else 0

/-- OTB k has received all 16 positions and is not EMPTY yet. -/
def Otb.full (o : Otb) : Bool := o.st == .ready || (o.st == .collecting && decide (o.mask = (0xFFFF : BitVec 16)))

/-- The instruction is inconsistent whatever its operand buffer entry holds (R78, R113, R188). -/
def mmaBadBank (k : Core) (f : MmaF) (seq : Nat) : Bool :=
  (arraysOf f.amask).any fun a =>
    let b := k.mx.banks.getD (bankIx a f.bank) {}
    let o := k.mx.otbs.getD (bankIx a f.otb) {}
    (match b.chain with
      | none => f.init == 0
      | some ch => f.init != 0 || pairing ch.afmt ch.wfmt != pairing f.afmt.toNat f.wfmt.toNat) ||
    (f.init == 2 && !b.preloaded && !preloadComing k a f.bank seq) ||
    (f.mode == 1 && f.last && !o.full && o.st == .collecting && o.mask.getLsbD f.xi.toNat)

/-- The instruction does not fit its operand buffer entry or its chain (R77, R81, R103). -/
def mmaBadAob (k : Core) (f : MmaF) : Bool :=
  let n := f.nM1.toNat + 1
  let e := k.mx.aob.getD f.aob.toNat {}
  decide (maxSteps f.mode.toNat f.afmt.toNat f.wfmt.toNat < n) ||
    (match e.gather with
      | some g => g.n != n || g.mode != f.mode.toNat || g.afmt != f.afmt.toNat || g.wfmt != f.wfmt.toNat
      | none => false) ||
    (arraysOf f.amask).any fun a =>
      let b := k.mx.banks.getD (bankIx a f.bank) {}
      decide (1152 < (match b.chain with | some ch => ch.steps | none => 0) + mmaSteps k f)

/-- First cycle at which the conditions of R84 and R113 hold on array a; none while one waits on an event. -/
def mmaReadyOn (k : Core) (f : MmaF) (a : Nat) : Option Nat :=
  let b := k.mx.banks.getD (bankIx a f.bank) {}
  let first := if f.init = 0 then 0 else match b.lastStep with | some l => l + 17 | none => 0
  if f.init = 2 ∧ !b.preloaded then none
  else if !f.last then some first
  else
    let spaced := match k.mx.lastLast.getD a none with | some l => l + 16 - (mmaSteps k f - 1) | none => 0
    let entry := match k.mx.drains.getD (bankIx a f.bank) none with
      | none => some 0
      | some d => if d.mode = 1 then some (d.e + 36) else none
    if f.mode = 1 ∧ (k.mx.otbs.getD (bankIx a f.otb) {}).full then none
    else entry.map fun t => max t (max first spaced)

/-- Latest of several cycles; none when one of them is. -/
def allReady (l : List (Option Nat)) : Option Nat :=
  l.foldl (fun acc x => match acc, x with | some a, some b => some (max a b) | _, _ => none) (some 0)

/-- First cycle at which the instruction issues its first step, or is found inconsistent (R84): a fault of its banks at the head of the
queue once the step before it has issued, a fault of its operand buffer entry or of its chain once that entry is valid (DESIGN
CHOICE, entry 69). -/
def mmaReady (c : Nat) (f : MmaF) (s : State) (e : QEnt) : Option Nat :=
  let k := coreAt s c
  if mmaBadBank k f e.seq then some k.mx.mAt
  else if !(k.mx.aob.getD f.aob.toNat {}).valid then none
  else if mmaBadAob k f then some k.mx.mAt
  else (allReady ((arraysOf f.amask).map (mmaReadyOn k f))).map fun t =>
    max t (max k.mx.mAt (max e.at_ k.mx.mFirst + 6))

/-! ### Drains -/

/-- A bit of an accumulator is inverted. -/
def flipBit (tile : List (BitVec 40)) (r col bit : Nat) : List (BitVec 40) :=
  let full := tile ++ List.replicate (4096 - tile.length) 0
  upd full (64 * r + col) fun v => v ^^^ BitVec.ofNat 40 (2 ^ bit)

/-- The target of CCn_SAFETY_INJ names this bank (15, R392). -/
def injHits (k : Core) (a : Nat) (bank : Bool) : Bool :=
  k.st.injArmed && k.st.run.isSome && fld k.st.inj 27 26 == a && bitAt k.st.inj 25 == bank

/-- The tile as it drains: upsets and an armed injection included. -/
def drainedTile (k : Core) (a : Nat) (bank : Bool) (up : List Upset) (acc : List (BitVec 40)) : List (BitVec 40) :=
  let t0 := acc ++ List.replicate (4096 - acc.length) 0
  let t1 := (up.filter fun u => u.array.val == a).foldl (fun t u => flipBit t u.row u.col u.bit) t0
  if injHits k a bank then flipBit t1 (fld k.st.inj 24 19) (fld k.st.inj 18 13) (fld k.st.inj 12 7) else t1

/-- Row of the transform at[a][x] of R112. -/
def winoAt (a x : Nat) : Int := (([[1, 1, 1, 0], [0, 1, -1, -1]] : List (List Int)).getD a []).getD x 0

/-- A tile of position ξ added into Y′ (R112). -/
def Otb.collect (o : Otb) (xi : Nat) (tile : List (BitVec 40)) : Otb :=
  let y0 := o.y ++ List.replicate (16384 - o.y.length) 0
  let y := (chunks 4096 4 y0).mapIdx fun q part =>
    let k := winoAt (q / 2) (xi / 4) * winoAt (q % 2) (xi % 4)
    List.zipWith (fun v m => v + k * BitVec.toInt m) part tile
  { o with st := .collecting, mask := putBit o.mask xi true, y := y.flatten }

/-- The outputs once the sixteenth position is consumed at e + 35 (R114). -/
def Otb.finish (o : Otb) (e : Nat) : Otb :=
  let init := o.init ++ List.replicate (16384 - o.init.length) 0
  { o with st := .ready, readyAt := e + 40, read := [],
           out := List.zipWith (fun c y => wrap40 (BitVec.toInt c + y / 4)) init o.y }

/-- A chain on one array has had its last step at e: its bank drains (R73, R86, R112). The second component holds the events the
drain signals, each with its cycle. The chain counts as closed from the instruction's first step on (DESIGN CHOICE, entry 69). -/
def closeChain (f : MmaF) (e : Nat) (up : List Upset) (yd : Bool) (acc : Core × List (Nat × DisEvent)) (a : Nat) :
    Core × List (Nat × DisEvent) :=
  let (k, ev) := acc
  let i := bankIx a f.bank
  let b := k.mx.banks.getD i {}
  let tile := drainedTile k a f.bank up b.acc
  let bad := b.check tile
  let inj := injHits k a f.bank
  let resEv := if bad.1.isEmpty && bad.2.isEmpty then []
    else [(e + 36, ({ det := BitVec.ofNat 32 (a * 2 ^ 16 + locator a (b2n f.bank) bad), inj := inj } : DisEvent))]
  let st := if inj then { k.st with injArmed := false } else k.st
  let mx1 := { k.mx with
    banks := upd k.mx.banks i fun b => { b with chain := none, lastStep := some e }
    lastLast := upd k.mx.lastLast a fun _ => some e
    drains := upd k.mx.drains i fun _ => some { e := e, mode := f.mode.toNat, tile := tile } }
  if f.mode = 1 then
    let j := bankIx a f.otb
    let o := (mx1.otbs.getD j {}).collect f.xi.toNat tile
    let done := decide (o.mask = (0xFFFF : BitVec 16))
    let o1 := if done then o.finish e else o
    let yEv := if done && yd then [(e + 40, ({ det := BitVec.ofNat 32 (4 * 2 ^ 16 + a * 2 ^ 14 + 2 ^ 13) } : DisEvent))] else []
    ({ k with st := st, mx := { mx1 with otbs := upd mx1.otbs j fun _ => o1,
                                         checks := mx1.checks ++ [(e + 19, if done then e + 40 else e + 36)] } },
     ev ++ resEv ++ yEv)
  else ({ k with st := st, mx := { mx1 with checks := mx1.checks ++ [(e + 19, e + 36)] } }, ev ++ resEv)

/-! ### The instruction -/

/-- The steps of an instruction on one array: weights from its region of the Weight Buffer. A GROUPED instruction on an entry that no
gather filled has no weight forced to zero (DESIGN CHOICE, entry 70). -/
def arraySteps (s : State) (c : Nat) (f : MmaF) (t : Nat) (acts : List (List Int)) (k : Core) (a : Nat) : Core :=
  let skip := (k.mx.aob.getD f.aob.toNat {}).skip
  let g := (k.mx.aob.getD f.aob.toNat {}).gather.getD ⟨0, 0, 0, 0, 0, 0⟩
  let n := mmaSteps k f
  let (mode, afmt, wfmt) := (f.mode.toNat, f.afmt.toNat, f.wfmt.toNat)
  let w := weightBytes mode afmt wfmt
  let i := bankIx a f.bank
  let b0 := k.mx.banks.getD i {}
  let b1 := if f.init = 0 then b0 else b0.openChain f t
  let d := rowElems mode wfmt
  let b2 := if skip then b1
    else (List.range n).foldl (fun b st =>
      let blk := wbfBytes s c (a * 0x200000 + f.waddr.toNat * 256 + st * w) w
      let ws := stepWeights mode g.cpg a (g.stepFirst + st) (operands wfmt blk)
      b.step (acts.map fun r => (r.drop (st * d)).take d) ws) b1
  let b3 := { b2 with chain := b2.chain.map fun ch => { ch with steps := ch.steps + n } }
  { k with mx := { k.mx with banks := upd k.mx.banks i fun _ => b3 } }

/-- What step st of the instruction reads (08, R192, R193): one access of all 64 operand rows, and one of each array's weight block. -/
def stepReads (c : Nat) (f : MmaF) (s : State) (st : Nat) : State :=
  let d := rowElems f.mode.toNat f.wfmt.toNat * elemBytes f.afmt.toNat
  let w := weightBytes f.mode.toNat f.afmt.toNat f.wfmt.toNat
  let rows := (List.range 64).map fun i => (aobBase + f.aob.toNat * 0x8000 + 512 * i + st * d, d)
  (arraysOf f.amask).foldl (fun s a =>
    let at_ := a * 0x200000 + f.waddr.toNat * 256 + st * w
    readSpans (wbfMem s c at_) (some c) [(at_, w)] s) (readSpans (.asp c) (some c) rows s)

/-- What the instruction reads, step by step. -/
def mmaReads (c : Nat) (f : MmaF) (n : Nat) (s : State) : State := (List.range n).foldl (stepReads c f) s

/-- The chain on array a spans more than 1,151 cycles (R80). -/
def spanTooLong (k : Core) (f : MmaF) (e a : Nat) : Bool :=
  match (k.mx.banks.getD (bankIx a f.bank) {}).chain with
  | some ch => decide (1151 < e - ch.firstAt)
  | none => false

/-- The operand buffer entry is released when the last step issues (R82). -/
def releaseAob (e last : Nat) (k : Core) : Core :=
  { k with mx := { k.mx with aob := upd k.mx.aob e fun _ => { readAt := last } },
           st := { k.st with tokAt := putAt 0 k.st.tokAt e last } }

/-- The first of the events of a drain ends the command; those of the same cycle are counted with it (15, R370, Table 15.2). -/
def drainEvents (c : Nat) (evs : List (Nat × DisEvent)) (s : State) : State :=
  match evs with
  | [] => s
  | y :: ys =>
    let t := ys.foldl (fun m y => min m y.1) y.1
    match (evs.filter fun y => y.1 == t).map Prod.snd with
    | [] => s
    | x :: xs => disagree c { x with more := xs.map DisEvent.det } (commit c t (passToCyc s t))

/-- The instruction issues its first step now (R84, R85). -/
def mmaAct (c : Nat) (f : MmaF) (up : List Upset) (yd : Bool) (e : QEnt) (s : State) : State :=
  let t := s.clk.cyc
  let k := coreAt s c
  if mmaBadBank k f e.seq || mmaBadAob k f then
    skipAtIssue c .matrix e 6 0 (modCore s c fun k => { k with mx := { k.mx with mFirst := t + 1 } })
  else
    let n := mmaSteps k f
    let last := t + n - 1
    let skip := (k.mx.aob.getD f.aob.toNat {}).skip
    let s1 := if skip then s else mmaReads c f n s
    let acts := aobRows s1 c f n
    let k1 := (arraysOf f.amask).foldl (arraySteps s1 c f t acts) (coreAt s1 c)
    let spans := if f.last then (arraysOf f.amask).filter (spanTooLong k1 f last) else []
    let keep := k1.xfers.any Xfer.store ||
      (s.kfs.queue ++ s.kfs.serving.toList).any fun r => r.core == c && (keyedOf r.desc).scatter
    let k2 := if keep then k1 else { k1 with mx := { k1.mx with checks := k1.mx.checks.filter fun x => decide (t < x.2) } }
    let (k3, evs) := if f.last then (arraysOf f.amask).foldl (closeChain f last up yd) (k2, []) else (k2, [])
    let k4 := { k3 with mx := { k3.mx with mAt := last + 1, mFirst := t, spans := k3.mx.spans ++ spans.map fun _ => last },
                        st := { k3.st with obs := putAt 0 k3.st.obs 3 (k3.st.obs.getD 3 0 + n) } }
    let k5 := if f.rel then releaseAob f.aob.toNat last k4 else { k4 with mx := { k4.mx with
      aob := upd k4.mx.aob f.aob.toNat fun x => { x with readAt := last } } }
    let s2 := addInfl c .matrix e.seq (some (if f.last then last + 36 else last + 33)) (modCore s1 c fun _ => k5)
    drainEvents c evs s2

/-- MMA (Table 7.7). -/
def execMma (c : CoreId) (f : MmaF) (up : List Upset) (yd : Bool) (s : State) : Host.Outcome State Fault Refusal :=
  run s (issue c .matrix (wordMma f) (mmaReady c f) (mmaAct c f up yd))

end Sys2Proof.Machine
end

