-- ==== Sys2Proof/Machine/Transfer.lean ====
section
/-!
DEFINITION. The Load and Store Engines (07, R185 to R188): walks, convolution gathers (04, R102 to R104), Winograd transform
loads (R109, R110), accumulator loads, their timing (08, R500), the hold of R371, and the completion of a transfer.
-/
namespace Sys2Proof.Machine

/-! ### Timing (08, R500) -/

/-- Aligned block of a space. -/
def spaceBlock (space : Nat) : Nat := if space = 0 ∨ space = 3 then 512 else 256

/-- Lengths of the pieces of a side in walk order. -/
def pieceLens (space : Nat) (runs : List (Nat × Nat)) : List Nat :=
  (joinSpans runs).flatMap fun r => (accesses (spaceBlock space) r.1 r.2).map Prod.snd

/-- Running totals of a list. -/
def totals (l : List Nat) : List Nat := (l.foldl (fun (a : Nat × List Nat) x => (a.1 + x, a.2 ++ [a.1 + x])) (0, [])).2

/-- Source pieces, counted from the first, that each destination piece of a transfer takes which moves bytes in the order it reads
them. -/
def inOrder (src dst : List Nat) : List Nat := (totals dst).map fun d => ((totals src).filter fun x => decide (x < d)).length + 1

/-- Cycles of the destination pieces of a transfer issued at t of which enough source pieces are available: `needs` says for each how
many it takes, `av` when each source piece is there. `last` is the cycle of the piece before. -/
def writeCycles (t : Nat) (av : List Nat) : Nat → List Nat → List Nat
  | _, [] => []
  | last, n :: rest =>
    if av.length < n then []
    else
      let w := max (last + 1) (if n = 0 then t + 1 else av.getD (n - 1) 0 + 1)
      w :: writeCycles t av w rest

/-- Cycles at which the source pieces answered so far are there: a late piece delays those after it. -/
def availCycles : Nat → List (Option ReadIn) → List Nat
  | _, [] => []
  | _, none :: _ => []
  | last, some r :: rest =>
    let a := max (last + 1) r.at_
    a :: availCycles a rest

/-- A list cut into pieces of the given lengths. -/
def cutBy {α : Type} : List Nat → List α → List (List α)
  | [], _ => []
  | n :: ns, l => l.take n :: cutBy ns (l.drop n)

/-- L of a source space of the device itself. -/
def sourceLat (space : Nat) : Nat := if space = 1 then 24 else if space = 2 then 384 else 1

/-- Cycles after the last piece until a destination of the device itself has accepted it. -/
def acceptLat (space : Nat) : Nat := if space = 1 then 12 else if space = 2 then 64 else 0

/-! ### Memories by space -/

def spaceMem (c space : Nat) : MemId := if space = 1 then .fst else if space = 2 then .dram else .asp c

/-- Bytes of a source side that the device itself holds, with which of them are poisoned. -/
def sourceBytes (s : State) (c space : Nat) (runs : List (Nat × Nat)) : List Byte × List Bool :=
  let m := spaceMem c space
  (runs.flatMap fun r => (memOf s m).rdN r.1 r.2, marksOf s m runs)

/-- The reads of a source side. -/
def sourceReads (c space : Nat) (runs : List (Nat × Nat)) (s : State) : State :=
  (joinSpans runs).foldl (fun s r => readRun (spaceMem c space) (some c) r.1 r.2 s) s

/-- A walk stays in its space, and in the regions that permit its access (R186; R194 for the Weight Buffer). -/
def walkInside (s : State) (c : Nat) (x : Ctx) (space dev : Nat) (write : Bool) (runs : List (Int × Nat)) : Bool :=
  let rs := regionsOf s x.img x.hdr
  runs.all fun r => decide (0 ≤ r.1) &&
    (let a := r.1.toNat
     if space = 0 then decide (a + r.2 ≤ 0x200000)
     else if space = 3 then
       decide (a + r.2 ≤ 0x800000) && !isResident s c (a / 65536) && !isResident s c ((a + r.2 - 1) / 65536)
     else permitted rs space dev write a r.2)

/-! ### LD and ST -/

/-- Element runs of a walk with its counter offset (R184, R185). -/
def walkRuns (w : Walk) (o : Int) : List (Int × Nat) := (w.elems o).map fun a => (a, w.esize)

/-- The offset O of a walk (R185). -/
def walkOff (e : QEnt) (w : Walk) (en : Bool) (cnt : BitVec 3) : Int := (e.ctrIf en cnt : Nat) * w.str.getD 3 0

def natRuns (l : List (Int × Nat)) : List (Nat × Nat) := l.map fun r => (r.1.toNat, r.2)

/-- The operand buffer entry a destination lies in: none when it touches no entry, an error when it is not wholly in one. -/
def aobOf (space : Nat) (runs : List (Nat × Nat)) : Option (Option Nat) :=
  if space ≠ 0 ∨ !runs.any fun r => decide (aobBase < r.1 + r.2) then some none
  else
    let e := (maxN (runs.map fun r => r.1 + r.2) - 1 - aobBase) / 0x8000
    if runs.all fun r => decide (aobBase + e * 0x8000 ≤ r.1) && decide (r.1 + r.2 ≤ aobBase + (e + 1) * 0x8000) then some (some e)
    else none

/-- The addresses of runs, byte by byte. -/
def runAddrs (runs : List (Nat × Nat)) : List Nat := runs.flatMap fun r => (List.range r.2).map (r.1 + ·)

/-! ### Convolution gathers -/

/-- Input channel of element q of step ts of a tap segment (R103, R116, R118). -/
def Geom.gatherCh (g : Geom) (cfirst ts q : Nat) : Nat :=
  if g.mode = 2 then 64 * cfirst + q
  else if g.mode = 3 then
    let o := 64 * (cfirst + q / 4)
    (if g.cpg ≤ 64 then o else o / g.cpg * g.cpg) + 4 * ts + q % 4
  else ts * stepDepth g.wfmt + q

/-- An element of an operand row: a constant, or a channel of a pixel of the source (the pixel's address, channel within its
block). -/
inductive GEl where
  | const (v : Int)
  | at_ (pix ch : Nat)

/-- The elements of row i of pass j (R99, R102, R103). -/
def gatherRow (g : Geom) (r : Gather) (j i : Nat) : List GEl :=
  let p := 64 * j + i
  let seg := g.segSteps
  (List.range r.stepCnt).flatMap fun st =>
    let gs := r.stepFirst + st
    let tap := r.tapFirst + gs / seg
    let pos := g.tapAt (p / g.wo) (p % g.wo) (tap / g.kw) (tap % g.kw)
    (List.range (rowElems g.mode g.wfmt)).map fun q =>
      let ch := g.gatherCh r.cfirst (gs % seg) q
      if g.ho * g.wo ≤ p ∨ g.cin ≤ ch then .const 0
      else match pos with
      | none => .const g.padVal
      | some rc => .at_ (g.pixel r.base (ch / 64) rc) (ch % 64)

/-- Pixels of a source with the span of channels taken from each, addresses rising. -/
def addPixel (pix ch : Nat) : List (Nat × Nat × Nat) → List (Nat × Nat × Nat)
  | [] => [(pix, ch, ch)]
  | x :: xs =>
    if pix < x.1 then (pix, ch, ch) :: x :: xs
    else if pix = x.1 then (pix, min x.2.1 ch, max x.2.2 ch) :: xs
    else x :: addPixel pix ch xs

/-- The source runs of pixels: address and bytes. -/
def pixelRuns (es : Nat) (px : List (Nat × Nat × Nat)) : List (Nat × Nat) :=
  px.map fun x => (x.1 + x.2.1 * es, (x.2.2 - x.2.1 + 1) * es)

/-- Offset of the byte at an address within the bytes of runs read one after another. -/
def runOffset (runs : List (Nat × Nat)) (a : Nat) : Nat :=
  (runs.foldl (fun (st : Nat × Option Nat) r =>
    (st.1 + r.2, match st.2 with
      | some o => some o
      | none => if r.1 ≤ a ∧ a < r.1 + r.2 then some (st.1 + (a - r.1)) else none)) (0, none)).2.getD 0

/-- The range of taps is skip-eligible in pass j (R104). -/
def skipEligible (g : Geom) (r : Gather) (j : Nat) : Bool :=
  g.padVal == 0 &&
    (List.range 64).all fun i =>
      let p := 64 * j + i
      decide (g.ho * g.wo ≤ p) ||
        (List.range r.tapCnt).all fun k =>
          (g.tapAt (p / g.wo) (p % g.wo) ((r.tapFirst + k) / g.kw) ((r.tapFirst + k) % g.kw)).isNone

/-- Source pixels of a gather. -/
def gatherPixels (g : Geom) (r : Gather) (j : Nat) : List (Nat × Nat × Nat) :=
  ((List.range 64).flatMap (gatherRow g r j)).foldl (fun px x => match x with | .at_ p ch => addPixel p ch px | .const _ => px) []

/-- The bytes of an element in its container. -/
def elemOut (fmt : Nat) (v : Int) : List Byte := leBytes (elemBytes fmt) (wrapTo (8 * elemBytes fmt) v)

/-- The bytes of row i of an operand buffer entry from the source bytes. -/
def gatherBytes (g : Geom) (r : Gather) (j : Nat) (runs : List (Nat × Nat)) (bytes : List Byte) (i : Nat) : List Byte :=
  let es := elemBytes g.afmt
  (gatherRow g r j i).flatMap fun x =>
    match x with
    | .const v => elemOut g.afmt v
    | .at_ p ch => elemOut g.afmt (elemVal g.afmt (leAt bytes (runOffset runs (p + ch * es)) es))

/-- Which of those bytes are poisoned: those of the elements that have a poisoned source byte (08, R212). -/
def gatherMarks (g : Geom) (r : Gather) (j : Nat) (runs : List (Nat × Nat)) (marks : List Bool) (i : Nat) : List Bool :=
  let es := elemBytes g.afmt
  (gatherRow g r j i).flatMap fun x =>
    match x with
    | .const _ => List.replicate es false
    | .at_ p ch => List.replicate es ((List.range es).any fun k => marks.getD (runOffset runs (p + ch * es) + k) false)

/-- Source pieces that row i needs, from the byte counts at which the pieces end: those up to the last that holds a byte of one of
its elements. -/
def gatherNeed (g : Geom) (r : Gather) (j : Nat) (runs : List (Nat × Nat)) (ends : List Nat) (i : Nat) : Nat :=
  let es := elemBytes g.afmt
  maxN ((gatherRow g r j i).map fun x =>
    match x with
    | .const _ => 0
    | .at_ p ch => (ends.filter fun x => decide (x < runOffset runs (p + ch * es) + es)).length + 1)

/-! ### Winograd transform loads -/

/-- Tiles across and in all (R109). -/
def Geom.tilesX (g : Geom) : Nat := ceilDiv g.wo 2
def Geom.tiles (g : Geom) : Nat := ceilDiv g.ho 2 * g.tilesX

/-- Input position (a, b) of tile t, if it is in the image. -/
def Geom.tileAt (g : Geom) (t a b : Nat) : Option (Nat × Nat) :=
  let row : Int := (2 * (t / g.tilesX) + a : Nat) - (g.pt : Int)
  let col : Int := (2 * (t % g.tilesX) + b : Nat) - (g.pl : Int)
  if 0 ≤ row ∧ row < g.h ∧ 0 ≤ col ∧ col < g.w then some (row.toNat, col.toNat) else none

/-- Row of Bᵀ (02, R61). -/
def winoBt : List (List Int) := [[1, 0, -1, 0], [0, 1, 1, 0], [0, -1, 1, 0], [0, 1, 0, -1]]

/-- V = Bᵀ d B, row-major (02, R62). -/
def winoV (d : List (List Int)) : List Int :=
  let t := winoBt.map fun b => (List.range 4).map fun j => sumI (List.zipWith (fun k row => k * row.getD j 0) b d)
  t.flatMap fun row => winoBt.map fun b => dot row b

/-- Channel blocks of a transform load. -/
def wxBlocks (r : Gather) : List Nat := (List.range ((r.cfirst + r.ccnt - 1) / 64 + 1 - r.cfirst / 64)).map (r.cfirst / 64 + ·)

/-- Source pixels of a transform load of group gi. -/
def wxPixels (g : Geom) (r : Gather) (gi : Nat) : List (Nat × Nat × Nat) :=
  let tiles := (List.range 64).filterMap fun i => if 64 * gi + i < g.tiles then some (64 * gi + i) else none
  tiles.foldl (fun px t => (List.range 16).foldl (fun px ab =>
    match g.tileAt t (ab / 4) (ab % 4) with
    | none => px
    | some rc => (wxBlocks r).foldl (fun px cb =>
        let at_ := g.pixel r.base cb rc
        addPixel at_ (max r.cfirst (64 * cb) - 64 * cb) (addPixel at_ (min (r.cfirst + r.ccnt - 1) (64 * cb + 63) - 64 * cb) px)) px) px) []

/-- The sixteen V of channel c of row i of the group, from the source bytes. -/
def wxElem (g : Geom) (r : Gather) (gi : Nat) (runs : List (Nat × Nat)) (bytes : List Byte) (i c : Nat) : List Int :=
  let t := 64 * gi + i
  if g.tiles ≤ t then List.replicate 16 0
  else
    let ch := r.cfirst + c
    winoV ((List.range 4).map fun a => (List.range 4).map fun b =>
      match g.tileAt t a b with
      | none => g.padVal
      | some rc => elemVal g.afmt (leAt bytes (runOffset runs (g.pixel r.base (ch / 64) rc + ch % 64)) 1))

/-- Which of the sixteen V have a poisoned input: V(a, b) takes the input positions at which row a and row b of Bᵀ are not zero
(02, R61, R62; 08, R212). -/
def wxMark (g : Geom) (r : Gather) (gi : Nat) (runs : List (Nat × Nat)) (marks : List Bool) (i c : Nat) : List Bool :=
  let t := 64 * gi + i
  let ch := r.cfirst + c
  let bad := fun (a b : Nat) =>
    decide (t < g.tiles) && match g.tileAt t a b with
    | none => false
    | some rc => marks.getD (runOffset runs (g.pixel r.base (ch / 64) rc + ch % 64)) false
  winoBt.flatMap fun ka => winoBt.map fun kb =>
    (List.range 16).any fun ab => ka.getD (ab / 4) 0 != 0 && kb.getD (ab % 4) 0 != 0 && bad (ab / 4) (ab % 4)

/-- Which bytes of the sixteen planes are poisoned. -/
def wxMarks (g : Geom) (r : Gather) (gi : Nat) (runs : List (Nat × Nat)) (marks : List Bool) : List Bool :=
  let vs := (List.range 64).flatMap fun i => (List.range r.ccnt).map fun c => wxMark g r gi runs marks i c
  (List.range 16).flatMap fun xi => vs.flatMap fun v => List.replicate 2 (v.getD xi false)

/-- The cells of the sixteen planes (R187). -/
def wxCells (g : Geom) (r : Gather) (gi : Nat) (runs : List (Nat × Nat)) (bytes : List Byte) : List Host.Cell :=
  let vs := (List.range 64).flatMap fun i => (List.range r.ccnt).map fun c => wxElem g r gi runs bytes i c
  (List.range 16).flatMap fun xi => cellsAt (r.dest + xi * r.pstride) (vs.flatMap fun v => leBytes 2 (wrapTo 16 (v.getD xi 0)))

/-! ### What an entry moves -/

/-- A transfer as its entry orders it: the source side, the destination side, how the destination takes the source's bytes with those
that are poisoned, and, where it does not take them in the order they are read, how many source pieces each destination piece needs. -/
structure Plan where
  src : Nat
  sdev : Nat := 0
  sruns : List (Nat × Nat)
  dst : Nat := 0
  ddev : Nat := 0
  druns : List (Nat × Nat)
  needs : Option (List Nat) := none
  place : List Byte → List Bool → XDst

/-- Fields of an LD or ST word. -/
def ldOf (w : BitVec 48) : LdF :=
  { sdesc := w.extractLsb' 29 13, ddesc := w.extractLsb' 16 13, token := w.extractLsb' 12 4, scnt := w.extractLsb' 9 3,
    scen := bitAt w 8, dcnt := w.extractLsb' 5 3, dcen := bitAt w 4 }

/-- The walks of an LD or ST with their offsets. -/
def ldPlan (x : Ctx) (e : QEnt) : Plan × List (Int × Nat) × List (Int × Nat) :=
  let f := ldOf e.slot
  let a := x.walk f.sdesc.toNat
  let b := x.walk f.ddesc.toNat
  let sr := walkRuns a (walkOff e a f.scen f.scnt)
  let dr := walkRuns b (walkOff e b f.dcen f.dcnt)
  ({ src := a.space, sdev := a.dev, sruns := natRuns sr, dst := b.space, ddev := b.dev, druns := natRuns dr,
     place := fun bs marks => .bytes b.space b.dev ((runAddrs (natRuns dr)).zip bs) marks }, sr, dr)

/-- Geometry record and gather record of a CGATHER or WXLOAD word. -/
def gatherRecs (x : Ctx) (w : BitVec 48) : Geom × Gather :=
  ((x.geom (fld w 28 26)).getD (geomOf 0), gatherOf (x.par (fld w 41 29)))

/-- The plan of a CGATHER. -/
def cgatherPlan (x : Ctx) (e : QEnt) : Plan :=
  let (g, r) := gatherRecs x e.slot
  let j := e.ctr (fld e.slot 23 21)
  let runs := pixelRuns (elemBytes g.afmt) (gatherPixels g r j)
  let rowBytes := r.stepCnt * rowElems g.mode g.wfmt * elemBytes g.afmt
  let row := fun (i : Nat) => aobBase + fld e.slot 25 24 * 0x8000 + 512 * i
  { src := r.space, sdev := r.dev, sruns := runs, druns := (List.range 64).map fun i => (row i, rowBytes),
    needs := some ((List.range 64).map (gatherNeed g r j runs (totals (pieceLens r.space runs)))),
    place := fun bs marks => .bytes 0 0 ((List.range 64).flatMap fun i => cellsAt (row i) (gatherBytes g r j runs bs i))
      (if marks.isEmpty then [] else (List.range 64).flatMap (gatherMarks g r j runs marks)) }

/-- The plan of a WXLOAD: every element has been compared before the first plane is written (04, R110). -/
def wxloadPlan (x : Ctx) (e : QEnt) : Plan :=
  let (g, r) := gatherRecs x e.slot
  let gi := e.ctr (fld e.slot 23 21)
  let runs := pixelRuns 1 (wxPixels g r gi)
  let planes := (List.range 16).map fun xi => (r.dest + xi * r.pstride, 128 * r.ccnt)
  { src := r.space, sdev := r.dev, sruns := runs, druns := planes,
    needs := some ((pieceLens 0 planes).map fun _ => (pieceLens r.space runs).length),
    place := fun bs marks => .bytes 0 0 (wxCells g r gi runs bs) (if marks.isEmpty then [] else wxMarks g r gi runs marks) }

/-- The tile values in containers (02, R39). -/
def accValues (bs : List Byte) : List (BitVec 40) := (chunks 8 (bs.length / 8) bs).map fun p => BitVec.ofNat 40 (ofLe p)

/-- The plan of an LDACC (R188). -/
def ldaccPlan (e : QEnt) : Plan :=
  let w := e.slot
  let tgt := bitAt w 21
  let size := if tgt then 0x20000 else 0x8000
  let runs := ((List.range 4).filter fun a => bitAt w (23 + a)).map fun a => (fld w 41 27 * 64 + a * size, size)
  let tiles := fun (bs : List Byte) => chunks (size / 8) runs.length (accValues bs)
  { src := 0, sruns := runs, druns := runs,
    place := fun bs _ => if tgt then .otb (fld w 26 23) (fld w 20 20) (tiles bs) else .acc (fld w 26 23) (fld w 22 22) (tiles bs) }

/-- The plan of a load or store entry that moves bytes. -/
def planOf (x : Ctx) (store : Bool) (e : QEnt) : Plan :=
  if store then (ldPlan x e).1
  else match fld e.slot 47 42 with
  | 2 => cgatherPlan x e
  | 3 => wxloadPlan x e
  | 4 => ldaccPlan e
  | _ => (ldPlan x e).1

/-! ### Starting a transfer -/

/-- Queue of a transfer. -/
def xferQ (store : Bool) : QId := if store then .store else .load

/-- The pieces of a transfer that writes the core's own memory, each in its cycle (R500). -/
def piecesOf (x : Xfer) (p : Plan) (ats : List Nat) (cells : List Host.Cell) (marks : List Bool) : List PendWr :=
  let lens := pieceLens p.dst p.druns
  (ats.zip ((cutBy lens cells).zip (cutBy lens marks))).map fun y =>
    { at_ := y.1, by_ := .load, wbuf := p.dst == 3, cells := y.2.1, marks := y.2.2, xfer := some x.ent.seq }

/-- The bytes of a transfer have been read at its issue: they go into the core's own memory piece by piece, unless a difference at V is
found first (04, R110); to a peer in messages, each not before its piece's cycle; else they wait for its completion. -/
def placeXfer (c : Nat) (x : Xfer) (p : Plan) (bs : List Byte) (marks : List Bool) (s : State) : State :=
  let dst := if x.vdiff then XDst.none else p.place bs marks
  match dst with
  | .bytes _ _ cells marks =>
    if p.dst = 0 ∨ p.dst = 3 then modCore s c fun k => { k with pend := k.pend ++ piecesOf x p x.ats cells marks }
    else
      let msgs : Option Msgs := if isPeer p.dst then some ⟨p.ddev, peerSpace p.dst, true, messagesAt x.ats p.druns⟩ else none
      pumpXfers c x.store (modXfer c x.store x.ent.seq (fun y => { y with dst := dst, msgs := msgs, marks := marks }) s)
  | _ => pumpXfers c x.store (modXfer c x.store x.ent.seq (fun y => { y with dst := dst }) s)

/-- A transfer starts now (R186, R500): its local source is read, or its first messages go out, one source piece a cycle. With it come
the operand buffer entry that it fills and a difference at V. -/
def gensOf (s : State) (c : Nat) (p : Plan) : Nat × Nat :=
  let target := match spaceDomain p.src with | some d => some d | none => spaceDomain p.dst
  ((domAt s (dCore c)).gen, match target with | some d => (domAt s d).gen | none => 0)

def startXfer (c : Nat) (store : Bool) (e : QEnt) (token : Nat) (p : Plan) (aob : Option (Nat × Option GatherRec)) (vdiff : Bool)
    (s : State) : State :=
  let t := s.clk.cyc
  let pieces := pieceLens p.src p.sruns
  let needs := p.needs.getD (inOrder pieces (pieceLens p.dst p.druns))
  let ats := if isPeer p.src then [] else writeCycles t ((List.range pieces.length).map fun i => t + sourceLat p.src + i) 0 needs
  let msgs : Option Msgs :=
    if isPeer p.src then some ⟨p.sdev, peerSpace p.src, false, messagesAt ((List.range pieces.length).map (t + ·)) p.sruns⟩ else none
  let x : Xfer := { store := store, ent := e, token := token, dst := .none, src := p.src, dspace := p.dst, aob := aob,
                    vdiff := vdiff, at_ := t, gens := gensOf s c p, needs := needs, ats := ats, doneAt := max (ats.getLastD 0 + acceptLat p.dst) (t + 1),
                    msgs := msgs }
  let s1 := addInfl c (xferQ store) e.seq none (modXfers c (· ++ [x]) s)
  if isPeer p.src then pumpXfers c store s1
  else
    let (bs, marks) := sourceBytes s1 c p.src p.sruns
    placeXfer c x p bs marks (sourceReads c p.src p.sruns s1)

/-- What a transfer has read over the Harness so far, in walk order: bytes and marks, zeros where no answer has come. -/
def readSoFar (rs : List (Option ReadIn)) (lens : List Nat) : List Byte × List Bool :=
  let parts := rs.zip lens
  (parts.flatMap fun y => match y.1 with | some r => r.bytes | none => List.replicate y.2 0,
   if rs.any fun r => (r.map ReadIn.poison).getD false then
     parts.flatMap fun y => List.replicate y.2 ((y.1.map ReadIn.poison).getD false)
   else [])

/-- Reads of a transfer over the Harness have been answered: the pieces whose bytes have now come go into the core's memory, each in
its cycle (R500). -/
def readsIn (c : Nat) (x : Xfer) (s : State) : State :=
  let p := planOf (ctxOf s c) x.store x.ent
  let ms := messagesOf p.sruns
  let rs := ms.map fun m => x.got.find? fun r => r.pos == m.1
  let ats := writeCycles x.at_ (availCycles 0 rs) 0 x.needs
  let s1 := modXfer c x.store x.ent.seq (fun y =>
    { y with ats := ats, placed := ats.length, doneAt := max y.doneAt (ats.getLastD 0) }) s
  if x.denied || x.vdiff then s1
  else
    let (bs, marks) := readSoFar rs (ms.map fun m => m.2.2)
    match p.place bs marks with
    | .bytes _ _ cells marks => modCore s1 c fun k => { k with pend := k.pend ++ (piecesOf x p ats cells marks).drop x.placed }
    | _ => s1

/-- A side of a transfer leads to a domain that is fenced: its memory, or the port of its route (17, R413). -/
def sideFenced (s : State) (side : Nat × Nat) : Bool :=
  spaceFenced s side.1 || (isPeer side.1 && !portLive s (routePort s side.2))

/-- The request is to a fenced domain: the command ends FENCED (17, R413). -/
def orFenced (c : Nat) (sides : List (Nat × Nat)) (f : State → State) (s : State) : State :=
  if sides.any (sideFenced s) then endRun c 0x21 4 s else f s

/-- A place among the four transfers of a queue is free (R186); none while it is not. -/
def xferRoom (k : Core) (store : Bool) : Bool := decide ((k.xfers.filter fun x => x.store == store).length < 4)

/-- First cycle at which operand buffer entry e can be filled; none while it is valid (R82, R186, R187). -/
def aobFree (k : Core) (e : Nat) : Option Nat :=
  let a := k.mx.aob.getD e {}
  if a.valid then none else some (a.readAt + 1)

/-! ### LD and ST -/

/-- An LD may issue: a place is free, and its operand buffer entry, if it has one, is not valid (R186). -/
def ldReady (c : Nat) (store : Bool) (s : State) (e : QEnt) : Option Nat :=
  let k := coreAt s c
  if !xferRoom k store then none
  else
    let (p, _, _) := ldPlan (ctxOf s c) e
    match aobOf p.dst p.druns with
    | some (some a) => aobFree k a
    | _ => some 0

/-- An LD or ST issues. -/
def ldAct (c : Nat) (store : Bool) (e : QEnt) (s : State) : State :=
  let x := ctxOf s c
  let f := ldOf e.slot
  let (p, sr, dr) := ldPlan x e
  let aob := aobOf p.dst p.druns
  if !walkInside s c x p.src p.sdev false sr || !walkInside s c x p.dst p.ddev true dr || aob.isNone
  then skipAtIssue c (xferQ store) e 0xC f.token.toNat s
  else orFenced c [(p.src, p.sdev), (p.dst, p.ddev)] (startXfer c store e f.token.toNat p ((aob.getD none).map fun a => (a, none)) false) s

/-- LD (R185, R186). -/
def execLd (c : CoreId) (f : LdF) (s : State) : Host.Outcome State Fault Refusal :=
  run s (issue c .load (wordLd f) (ldReady c false) (ldAct c false))

/-- ST (R185, R186). -/
def execSt (c : CoreId) (f : LdF) (s : State) : Host.Outcome State Fault Refusal :=
  run s (issue c .store (wordLd f) (ldReady c true) (ldAct c true))

/-! ### CGATHER, WXLOAD, LDACC -/

/-- The operand buffer entry is filled: valid, with the record of what filled it (R82, R104). -/
def fillAob (c e : Nat) (skip : Bool) (g : Option GatherRec) (s : State) : State :=
  modCore s c fun k =>
    { k with mx := { k.mx with aob := upd k.mx.aob e fun a => { a with valid := true, skip := skip, gather := g } },
             st := { k.st with tokAt := putAt 0 k.st.tokAt e s.clk.cyc } }

/-- A CGATHER may issue. -/
def cgatherReady (c e : Nat) (s : State) (_q : QEnt) : Option Nat :=
  if xferRoom (coreAt s c) false then aobFree (coreAt s c) e else none

/-- A CGATHER issues (R102 to R104, R187). -/
def cgatherAct (c : Nat) (token : BitVec 4) (e : QEnt) (s : State) : State :=
  let x := ctxOf s c
  let (g, r) := gatherRecs x e.slot
  let j := e.ctr (fld e.slot 23 21)
  let a := fld e.slot 25 24
  let rec0 : GatherRec := { n := r.stepCnt, mode := g.mode, afmt := g.afmt, wfmt := g.wfmt, cpg := if g.mode = 3 then g.cpg else 0,
                            stepFirst := r.stepFirst }
  if g.ho * g.wo ≤ 64 * j then skipAtIssue c .load e 0xC token.toNat s
  else if skipEligible g r j then
    completeEntry c .load e.seq e.bundle token.toNat (fillAob c a true (some rec0) (addInfl c .load e.seq none s))
  else
    let p := cgatherPlan x e
    if walkInside s c x p.src p.sdev false (p.sruns.map fun q => ((q.1 : Int), q.2))
    then orFenced c [(p.src, p.sdev)] (startXfer c false e token.toNat p (some (a, some rec0)) false) s
    else skipAtIssue c .load e 0xC token.toNat s

/-- CGATHER (R185, R187). -/
def execCgather (c : CoreId) (grec : BitVec 13) (geom : BitVec 3) (aob : BitVec 2) (pcnt : BitVec 3) (token : BitVec 4)
    (s : State) : Host.Outcome State Fault Refusal :=
  run s (issue c .load (wordCgather grec geom aob pcnt token) (cgatherReady c aob.toNat) (cgatherAct c token))

/-- A WXLOAD issues (R109, R110, R187). -/
def wxloadAct (c : Nat) (vd : Bool) (token : BitVec 4) (e : QEnt) (s : State) : State :=
  let x := ctxOf s c
  let (g, r) := gatherRecs x e.slot
  let gi := e.ctr (fld e.slot 23 21)
  if g.tiles ≤ 64 * gi ∨ aobBase < r.dest + 15 * r.pstride + 128 * r.ccnt then skipAtIssue c .load e 0xC token.toNat s
  else
    let p := wxloadPlan x e
    if walkInside s c x p.src p.sdev false (p.sruns.map fun q => ((q.1 : Int), q.2))
    then orFenced c [(p.src, p.sdev)] (startXfer c false e token.toNat p none vd) s
    else skipAtIssue c .load e 0xC token.toNat s

/-- A place among the load transfers is free. -/
def loadRoom (c : Nat) (s : State) (_e : QEnt) : Option Nat := if xferRoom (coreAt s c) false then some 0 else none

/-- WXLOAD (R185, R187). -/
def execWxload (c : CoreId) (vd : Bool) (grec : BitVec 13) (geom : BitVec 3) (pcnt : BitVec 3) (token : BitVec 4) (s : State) :
    Host.Outcome State Fault Refusal :=
  run s (issue c .load (wordWxload grec geom pcnt token) (loadRoom c) (wxloadAct c vd token))

/-- An LDACC into an open chain (R188). -/
def ldaccOpen (k : Core) (amask : BitVec 4) (bank : Bool) : Bool :=
  (arraysOf amask).any fun a => (k.mx.banks.getD (bankIx a bank) {}).chain.isSome

/-- First cycle at which an LDACC may issue (R188). -/
def ldaccReady (c : Nat) (amask : BitVec 4) (bank tgt otb : Bool) (s : State) (_e : QEnt) : Option Nat :=
  let k := coreAt s c
  if !xferRoom k false then none
  else if tgt then
    (if (arraysOf amask).all fun a => (k.mx.otbs.getD (bankIx a otb) {}).st == .empty then some 0 else none)
  else if ldaccOpen k amask bank then some 0
  else some (maxN ((arraysOf amask).map fun a =>
    match (k.mx.banks.getD (bankIx a bank) {}).lastStep with | some l => l + 35 | none => 0))

/-- An LDACC issues (R188). -/
def ldaccAct (c : Nat) (amask : BitVec 4) (bank tgt : Bool) (token : BitVec 4) (e : QEnt) (s : State) : State :=
  let p := ldaccPlan e
  if p.sruns.any fun r => decide (0x200000 < r.1 + r.2) then skipAtIssue c .load e 0xC token.toNat s
  else if !tgt && ldaccOpen (coreAt s c) amask bank then skipAtIssue c .load e 6 token.toNat s
  else startXfer c false e token.toNat p none false s

/-- LDACC (R188). -/
def execLdacc (c : CoreId) (addr : BitVec 15) (amask : BitVec 4) (bank tgt otb : Bool) (token : BitVec 4) (s : State) :
    Host.Outcome State Fault Refusal :=
  run s (issue c .load (wordLdacc addr amask bank tgt otb token) (ldaccReady c amask bank tgt otb) (ldaccAct c amask bank tgt token))

/-! ### Completion -/

/-- The class of the command on core c. -/
def runLc (s : State) (c : Nat) : Bool := ((coreAt s c).st.run.map Run.lc).getD false

/-- What a transfer writes at its completion: the bytes of a store, which are there for every read issued later (08, R214), and the
tiles of an LDACC. The initial values of an OTB are written whatever its state has become (DESIGN CHOICE, entry 70). -/
def writeXfer (c : Nat) (x : Xfer) (s : State) : State :=
  match x.dst with
  | .none => s
  | .bytes space _ cells marks =>
    if isPeer space then s
    else if space = 6 then (joinRuns cells).foldl (fun s r => hostWr s r.1 r.2) s
    else writeCells (fun _ => spaceMem c space) (some c) cells marks s
  | .acc amask bank tiles =>
    let as := (List.range 4).filter amask.testBit
    modCore s c fun k => { k with mx := { k.mx with
      banks := (as.zip tiles).foldl (fun bs y => upd bs (2 * y.1 + bank) fun b => { b with acc := y.2, preloaded := true }) k.mx.banks } }
  | .otb amask i tiles =>
    let as := (List.range 4).filter amask.testBit
    modCore s c fun k => { k with mx := { k.mx with
      otbs := (as.zip tiles).foldl (fun os y => upd os (2 * y.1 + i) fun o => { o with init := y.2, loaded := true }) k.mx.otbs } }

/-- Completion cycle of a transfer with the hold of R371. -/
def xferDone (k : Core) (x : Xfer) : Nat :=
  let first := x.ats.headD 0
  if x.store && !isPeer x.dspace then x.doneAt + (holdPast k.mx.checks first - first) else x.doneAt

/-- The pieces of a load that fills an operand buffer entry have landed when the entry becomes valid (R82). -/
def landXfer (c seq : Nat) (s : State) : State :=
  ((coreAt s c).pend.filter fun w => w.xfer == some seq).foldl (landWr c)
    (modCore s c fun k => { k with pend := k.pend.filter fun w => w.xfer != some seq })

/-- The transfer is finished: written, its operand buffer entry valid, its entry complete (Table 6.3). A difference at V is signalled
in its place, no plane having been written (04, R110; in the cycle of the completion: DESIGN CHOICE, entry 70). -/
def finishXfer (c : Nat) (x : Xfer) (s : State) : State :=
  let s0 := modXfers c (fun l => l.filter fun y => y.store != x.store || y.ent.seq != x.ent.seq) s
  if x.vdiff then disagree c { det := BitVec.ofNat 32 (4 * 2 ^ 16) } s0
  else
    let s1 := writeXfer c x s0
    let s2 := match x.aob with | some (a, g) => fillAob c a false g (landXfer c x.ent.seq s1) | none => s1
    completeEntry c (xferQ x.store) x.ent.seq x.ent.bundle x.token s2

/-- Addresses, in the memory of a transfer's destination, of the bytes it writes. -/
def landedAt (s : State) (c : Nat) (x : Xfer) : List Nat :=
  if (x.dspace = 0 ∨ x.dspace = 3) ∧ x.dst = .none then (planOf (ctxOf s c) x.store x.ent).druns.flatMap fun r => (List.range r.2).map (r.1 + ·)
  else []

/-- A transfer arrives with a parity error: GLB_NOC_PARITY, and the command that consumes it completes VOID. A store with the error in
its address or control is dropped; in every other case the bytes are poisoned where they land (15, R384). -/
def nocXfer (c : Nat) (x : Xfer) (noc : Option NocErr) (s : State) : State × Xfer :=
  match noc with
  | none => (s, x)
  | some e =>
    let s1 := consumed (some c) (fire { b := bGLB, src := 3, who := whoOn s c } s)
    let mem := fun (a : Nat) => if x.dspace = 3 then wbfMem s c a else MemId.asp c
    let s2 := (landedAt s c x).foldl (fun s a => setMem (mem a) ((memOf s (mem a)).poison 8 a 1) s)
      (if x.dspace = 0 ∨ x.dspace = 3 then landXfer c x.ent.seq s1 else s1)
    (s2, match x.dst with
      | .bytes space dev cells _ =>
        if e = .control ∧ x.store then { x with dst := .none } else { x with dst := .bytes space dev cells (cells.map fun _ => true) }
      | _ => x)

/-- The oldest transfer of a queue finishes, unless messages of it are unanswered or host memory cannot be written (20, R462). -/
def transferDone (c : Nat) (store : Bool) (noc : Option NocErr) (s : State) : State :=
  if !coreLive s c then s
  else match (coreAt s c).xfers.find? fun x => x.store == store with
  | none => s
  | some x =>
    if x.msgs.isSome || !x.waiting.isEmpty || (x.dspace == 6 && !pciUp s) then s
    else
      let t := xferDone (coreAt s c) x
      let (s1, x1) := nocXfer c x noc (commit c (max t s.clk.cyc) (passToCyc s t))
      finishXfer c x1 s1

/-- A late message is discarded while its generation is current and its domain not past the drain, and dropped with DRU_OLD_GEN
otherwise: a reply by the core, a request by its target (17, R414, R417). -/
def lateMsg (c : Nat) (store request : Bool) (s : State) : State :=
  match s.dru.late.find? fun x => x.core == c && x.store == store with
  | none => s
  | some x =>
    let s1 := { s with dru := { s.dru with late := s.dru.late.erase x } }
    let (d, g) := if request then (x.target, x.gens.2) else (dCore c, x.gens.1)
    if (domAt s d).gen = g ∧ (domAt s d).phase ≤ 1 then s1
    else fire { b := bDRU, src := 2, det := BitVec.ofNat 32 (d + g * 2 ^ 8) } s1

/-- TRANSFER_COMPLETE (Table 6.3). -/
def execTransferComplete (c : CoreId) (store : Bool) (how : XferEnd) (s : State) : Host.Outcome State Fault Refusal :=
  run s (match how with
    | .whole => transferDone c store none
    | .parity e => transferDone c store (some e)
    | .late request => lateMsg c store request)

/-- A transfer is late by `delay` cycles: so is every piece that it has not written yet (R500). -/
def delayXfer (c : Nat) (x : Xfer) (delay : Nat) (s : State) : State :=
  let late := fun (t : Nat) => if s.clk.cyc ≤ t then t + delay else t
  modCore (modXfer c x.store x.ent.seq (fun y => { y with doneAt := y.doneAt + delay, ats := y.ats.map late }) s) c fun k =>
    { k with pend := k.pend.map fun w => if w.xfer = some x.ent.seq then { w with at_ := w.at_ + delay } else w }

/-- A keyed request of a command is late by `delay` cycles. -/
def delayKeyed (c : Nat) (scatter : Bool) (delay : Nat) (s : State) : State :=
  let mine := fun (r : KReq) => r.core == c && (keyedOf r.desc).scatter == scatter
  let later := fun (r : KReq) => { r with late := r.late + delay }
  match (s.kfs.finishing ++ s.kfs.serving.toList).find? mine with
  | none => s
  | some r => { s with kfs := { s.kfs with finishing := s.kfs.finishing.map fun x => if x = r then later x else x,
                                           serving := s.kfs.serving.map fun x => if x = r then later x else x } }

/-- The oldest access of a latency-critical command to DRAM is late by `delay` cycles: of a transfer, or of a keyed request (08, R206;
09, R234). -/
def latMiss (c : Nat) (store : Bool) (delay : Nat) (s : State) : State :=
  if !runLc s c then s
  else
    let late := fun (s : State) => fire { b := bDRC, src := 4, who := whoOn s c } s
    match (coreAt s c).xfers.find? fun x => x.store == store && (x.src == 2 || x.dspace == 2) with
    | some x => late (delayXfer c x delay s)
    | none =>
      if (s.kfs.finishing ++ s.kfs.serving.toList).any fun r => r.core == c && (keyedOf r.desc).scatter == store
      then late (delayKeyed c store delay s) else s

/-- The access of a latency-critical request from a peer is late (08, R206, R215): the answer's delay is seen at the peer alone
(DESIGN CHOICE, entry 30). -/
def latMissPeer (s : State) : State := if dramUp s then fire { b := bDRC, src := 4 } s else s

/-- DRC_LAT_MISS (08, R206). -/
def execDrcLatMiss (who : Option CoreId) (store : Bool) (delay : Word) (s : State) : Host.Outcome State Fault Refusal :=
  run s (match who with | some c => latMiss c store delay.toNat | none => latMissPeer)

end Sys2Proof.Machine
end

