-- ==== Sys2Proof/Machine/Links.lean ====
section
/-!
DEFINITION. A Harness port (14): training (R344, R348), flits with replay and credits (R345 to R349), the messages they carry and
what the device does with each (R350 to R356; 08, R215; 17, R417, R420), and the ordered sets SYNC, SKIP and IDENT (R357 to R359).
-/
namespace Sys2Proof.Machine

/-! ### Training -/

/-- The low 32 bits of the GTC in half nanoseconds, in the first or the second half of the present count (R357). -/
def halfNs (s : State) (half : Bool) : Word := BitVec.ofNat 32 (2 * s.clk.gtc.toNat + b2n half)

/-- The port's state when it has trained: SEQ from 0, the unacknowledged flits to be sent again in order (R348), the first SYNC and
the SIDEs without an acknowledgement in the first slot 15 (R344). -/
def Port.trained (k : Port) (inv : BitVec 8) (reversed : Bool) (cr : Nat × Nat) (now : Nat) : Port :=
  { k with
    up := true, retraining := false, failed := 0, inv := inv, reversed := reversed
    replay := k.replay.mapIdx fun i (f : TxFlit) => { f with seq := i, sentAt := now, resends := 0 }
    redo := List.range k.replay.length
    txSeq := k.replay.length, rxSeq := 0, nakDue := false, upAt := now, txSlot := 0
    pend15 := OSet.sync :: k.sides.map fun (x : SideOut) => OSet.body x.body
    credits := (cr.1 - (k.replay.filter fun f => f.vc == 0).length, cr.2 - (k.replay.filter fun f => f.vc == 1).length)
    sides := k.sides.map fun (x : SideOut) => { x with sentAt := now } }

/-- A port that has trained becomes UP and exchanges the first SYNC (R344). -/
def linkTrained (p : Nat) (inv : BitVec 8) (reversed : Bool) (s : State) : State :=
  if (portAt s p).up || !portLive s p then s
  else causeEnds (bHRN p) 2 (modPort s p fun k => k.trained inv reversed (portCredits s p) s.clk.ns)

/-- LINK_TRAINED. -/
def execLinkTrained (port : Fin 4) (inv : BitVec 8) (reversed : Bool) (s : State) : Host.Outcome State Fault Refusal :=
  run s (linkTrained port inv reversed)

/-- Training that has not succeeded within 1 ms starts again; the third failed retrain in a row takes the link down (R344, R348). -/
def trainingTimeout (p : Nat) (s : State) : State :=
  let k := portAt s p
  if k.up || !portLive s p then s
  else
    let s1 := passNs s (k.trainAt + 1000000 - s.clk.ns)
    let n := if k.retraining then min 3 (k.failed + 1) else k.failed
    let s2 := modPort s1 p fun k => { k with trainAt := s1.clk.ns, failed := n, down := k.down || n == 3 }
    if n = 3 then onset { b := bHRN p, src := 2 } s2 else s2

/-- TRAINING_TIMEOUT. -/
def execTrainingTimeout (port : Fin 4) (s : State) : Host.Outcome State Fault Refusal := run s (trainingTimeout port)

/-- The far end has entered reset: the port is no longer trained (R344). -/
def farEndReset (p : Nat) (s : State) : State :=
  if portLive s p then modPort s p fun k => { k with up := false, retraining := false, failed := 0, trainAt := s.clk.ns } else s

/-- FAR_END_RESET. -/
def execFarEndReset (port : Fin 4) (s : State) : Host.Outcome State Fault Refusal := run s (farEndReset port)

/-! ### Replay and credits -/

/-- The flits of the replay buffer are to be sent again, in the slots of their VCs (R347). -/
def resendAll (p : Nat) (s : State) : State := modPort s p fun k => { k with redo := k.replay.map TxFlit.seq }

/-- The oldest unacknowledged flit has waited 1 µs (R347). -/
def flitTimeout (p : Nat) (s : State) : State :=
  if !portUp s p then s
  else match (portAt s p).replay with
  | [] => s
  | f :: _ => resendAll p (passNs s (f.sentAt + 1000 - s.clk.ns))

/-- FLIT_REPLAY_TIMEOUT. -/
def execFlitReplayTimeout (port : Fin 4) (s : State) : Host.Outcome State Fault Refusal := run s (flitTimeout port)

/-- Flits up to and including SEQ `ack` are acknowledged. -/
def Port.acked (k : Port) (ack : Nat) : Port :=
  match k.replay.findIdx? fun f => f.seq == ack with
  | some i =>
    let left := k.replay.drop (i + 1)
    { k with replay := left, redo := k.redo.filter fun q => left.any fun f => f.seq == q }
  | none => k

/-- Returned credits are added unless they would exceed the buffer; the flag says that they would (R349). -/
def creditAdd (have_ cap n : Nat) : Nat × Bool := if cap < have_ + n then (have_, true) else (have_ + n, false)

/-- ACK, credits and NAK of a flit whose CRC is good (R347, R349). -/
def flitControl (p ack lc be : Nat) (nak : Bool) (s : State) : State :=
  let cap := portCredits s p
  let k := (portAt s p).acked ack
  let a := creditAdd k.credits.1 cap.1 lc
  let b := creditAdd k.credits.2 cap.2 be
  let s1 := modPort s p fun _ => { k with credits := (a.1, b.1) }
  let s2 := if a.2 then fire { b := bHRN p, src := 4 } s1 else s1
  let s3 := if b.2 then fire { b := bHRN p, src := 4 } s2 else s2
  if nak then resendAll p s3 else s3

/-! ### Answers to requests of this device -/

/-- A request of the table, by its peer and RID. -/
def findReq (s : State) (dev rid : Nat) : Option RemReq := (peerAt s dev).out.find? fun q => q.rid == rid

/-- The requests that a response arriving on port p can answer, with their peers: in the port's request table, of its RID and kind
(R417). -/
def answerable (s : State) (p : Nat) (m : Msg) : List (Nat × RemReq) :=
  (List.range 8).flatMap fun d => ((peerAt s d).out.filter fun q =>
    q.port == p && q.rid == m.rid && (m.ty == 5 || q.write == (m.ty == 4))).map fun q => (d, q)

/-- The request that a response answers: of several of one RID, the one whose space, address and length it repeats (DEDUCED,
entry 30). -/
def answers (s : State) (p : Nat) (m : Msg) : Option (Nat × RemReq) :=
  match (answerable s p m).find? fun x => x.2.space == m.space && x.2.addr == m.addr && x.2.len == m.len with
  | some x => some x
  | none => (answerable s p m).head?

/-- The request is answered: its entry goes and its credit returns (R352). -/
def takeReq (dev rid : Nat) (s : State) : State := modPeer s dev fun p => { p with out := p.out.filter fun q => q.rid != rid }

/-- The request's command still runs and has not been ended. -/
def reqAlive (s : State) (q : RemReq) : Bool :=
  !q.dropped && ((coreAt s q.core).st.run.map Run.id == some q.run)

/-- Cycle from which an answer counts: an early one to a latency-critical request is held to the request's fixed cycle, a late one
counts as it comes (R355, R356). -/
def answerAt (s : State) (q : RemReq) : Nat := if q.lc then max q.due s.clk.cyc else s.clk.cyc

/-- A request of a transfer has been answered, with the bytes of a read. -/
def answered (dev : Nat) (q : RemReq) (got : Option ReadIn) (s : State) : State :=
  let s1 := modXfer q.core q.store q.seq (fun x =>
    { x with waiting := x.waiting.erase (dev, q.rid), doneAt := max x.doneAt (answerAt s q),
             got := x.got ++ got.toList, denied := x.denied || (!q.write && got.isNone) }) s
  match (coreAt s1 q.core).xfers.find? fun x => x.store == q.store && x.ent.seq == q.seq with
  | some x => if q.write then s1 else readsIn q.core x s1
  | none => s1

/-- A request is answered with DENY (08, R215; R354). -/
def denyReq (dev : Nat) (q : RemReq) (s : State) : State :=
  let s1 := takeReq dev q.rid s
  pumpAll (if reqAlive s q then answered dev q none (remoteErr q.core s1) else s1)

/-- Poisoned data arrive for a command: as if it had read the word itself (08, R212). -/
def poisonArrives (q : RemReq) (s : State) : State :=
  consumed (some q.core) (fire { b := if q.space = 1 then bFST else bDRC, src := 1, who := whoOn s q.core } s)

/-- A response to this device; one without an entry in the request table of its port is dropped with DRU_OLD_GEN (17, R417). -/
def responseIn (p : Nat) (m : Msg) (data : List Byte) (s : State) : State :=
  match answers s p m with
  | none => fire { b := bDRU, src := 2, det := BitVec.ofNat 32 (dHRN p) } s
  | some (d, q) =>
    if m.ty = 5 then denyReq d q s
    else
      let s1 := takeReq d q.rid s
      if !reqAlive s q then pumpAll s1
      else if m.ty = 4 then pumpAll (answered d q none s1)
      else
        let s2 := if m.poison then poisonArrives q s1 else s1
        pumpAll (answered d q (some { pos := q.pos, at_ := answerAt s q, bytes := data, poison := m.poison }) s2)

/-! ### Requests from peers -/

/-- An import window of the FSTORE map permits the access (13, Table 13.2; 08, R215). -/
def windowOk (s : State) (m : Msg) : Bool :=
  (fregions s).any fun x =>
    let a := itmN s 6 3 x.r 0
    x.use == 4 && (m.space == 1 || m.space == 2) && x.dram == (m.space == 2) && bitsAt a 4 3 == m.src && a.testBit 7 == m.be &&
      a.testBit (if m.ty = 2 then 9 else 8) && decide (x.base ≤ m.addr) && decide (m.addr + m.len ≤ x.base + x.len)

/-- The answer to a request: its class, identifier and space; SRC stays the requesting device (Table 14.3), which it goes to. -/
def replyTo (m : Msg) (ty : Nat) (poison : Bool) : Msg := { m with ty := ty, dst := m.src, poison := poison }

/-- A response is sent. -/
def respond (m : Msg) (ty : Nat) (poison : Bool) (data : List Byte) (s : State) : State :=
  (sendMsg (replyTo m ty poison) data none .none s).1

/-- Bank accesses of a latency-critical peer request count as such (19, R454). -/
def lcAccess (m : Msg) (s : State) : State :=
  if m.space = 1 ∧ !m.be then
    let n := (accesses 256 m.addr m.len).length
    { s with obs := { s.obs with fstLc := s.obs.fstLc + n, fstBe := s.obs.fstBe - n } }
  else s

/-- Memory of a message's space. -/
def msgMem (m : Msg) : MemId := if m.space = 1 then .fst else .dram

/-- A request that no window permits is refused (08, R215); one that names neither space counts as the Frame Store's (DESIGN CHOICE,
entry 30). -/
def refuse (m : Msg) (s : State) : State :=
  respond m 5 false [] (fire { b := if m.space = 2 then bDRC else bFST, src := 3 } s)

/-- The request cannot be served: its source is fenced here (17, R420), or the memory's domain is (R413). -/
def cannotServe (s : State) (m : Msg) : Bool :=
  peerFenced s m.src || (m.space == 1 && !inService s dFST) || (m.space == 2 && !dramUp s)

/-- A read request is served, or answered with DENY (R351, R354). -/
def serveRead (m : Msg) (s : State) : State :=
  if cannotServe s m then respond m 5 false [] s
  else if !windowOk s m then refuse m s
  else
    let bad := poisoned s (msgMem m) m.addr m.len
    let bs := (memOf s (msgMem m)).rdN m.addr m.len
    respond m 3 bad bs (lcAccess m (readRun (msgMem m) none m.addr m.len s))

/-- A write request is carried out once (R351, R354). -/
def serveWrite (m : Msg) (data : List Byte) (s : State) : State :=
  if cannotServe s m then respond m 5 false [] s
  else if !windowOk s m then refuse m s
  else
    let s1 := lcAccess m (writeRun (msgMem m) none m.addr data s)
    respond m 4 false [] (modPeer s1 m.src fun p => { p with executed := addNew p.executed m.rid })

/-- The record of a source's identifiers after one more has come (R351). -/
def Peer.sawRid (p : Peer) (rid : Nat) : Peer :=
  match p.high with
  | none => { p with high := some rid, executed := [] }
  | some h =>
    let d := (rid + 65536 - h) % 65536
    if 0 < d ∧ d < 32768 then
      { p with high := some rid, executed := p.executed.filter fun x => decide ((rid + 65536 - x) % 65536 ≤ 1023) }
    else p

/-- The identifier lies more than 1,023 below the highest (R351). -/
def Peer.tooOld (p : Peer) (rid : Nat) : Bool :=
  match p.high with
  | none => false
  | some h => let d := (h + 65536 - rid) % 65536; decide (1023 < d) && decide (d ≤ 32768)

/-- A request to this device (R351, R354). -/
def requestIn (p : Nat) (m : Msg) (data : List Byte) (s : State) : State :=
  if (peerAt s m.src).tooOld m.rid then fire { b := bHRN p, src := 5 } s
  else
    let s1 := modPeer s m.src fun k => k.sawRid m.rid
    if m.ty = 1 then serveRead m s1
    else if (peerAt s1 m.src).executed.contains m.rid then respond m 4 false [] (fire { b := bHRN p, src := 5 } s1)
    else serveWrite m data s1

/-! ### Messages that arrive -/

/-- A message for another device is forwarded; a request that cannot be is answered with DENY (R353). -/
def forward (p : Nat) (m : Msg) (data : List Byte) (s : State) : State :=
  let (s1, sent) := sendMsg m data (some p) .none s
  if !sent && decide (m.ty ≤ 2) then respond m 5 false [] s1 else s1

/-- A message has come in on a port. -/
def messageIn (p : Nat) (m : Msg) (data : List Byte) (s : State) : State :=
  if m.dst ≠ devId s then forward p m data s
  else if m.ty ≤ 2 then requestIn p m data s
  else responseIn p m data s

/-- The port takes messages in: UP, in service, not miswired (R344, R359, Table 14.9). -/
def portIn (s : State) (p : Nat) : Bool := portUp s p && !(portAt s p).stopped

/-- A message that a row of the table names. -/
def oneMessage (p ty : Nat) (hdr : BitVec 128) (data : List Byte) (s : State) : State :=
  if portIn s p then messageIn p { msgOf hdr with ty := ty } data s else s

/-- RD_REQ. -/
def execRdReq (port : Fin 4) (hdr : BitVec 128) (s : State) : Host.Outcome State Fault Refusal :=
  run s (oneMessage port 1 hdr [])

/-- WR_REQ: LEN_M1 + 1 data bytes follow the header (R350). -/
def execWrReq (port : Fin 4) (hdr : BitVec 128) (data : List Byte) (s : State) : Host.Outcome State Fault Refusal :=
  if data.length = (msgOf hdr).len then run s (oneMessage port 2 hdr data) else .fault (.illFormed "WR_REQ data")

/-- RD_RSP: LEN_M1 + 1 data bytes follow the header (R350). -/
def execRdRsp (port : Fin 4) (hdr : BitVec 128) (data : List Byte) (s : State) : Host.Outcome State Fault Refusal :=
  if data.length = (msgOf hdr).len then run s (oneMessage port 3 hdr data) else .fault (.illFormed "RD_RSP data")

/-- WR_ACK. -/
def execWrAck (port : Fin 4) (hdr : BitVec 128) (s : State) : Host.Outcome State Fault Refusal :=
  run s (oneMessage port 4 hdr [])

/-- DENY. -/
def execDeny (port : Fin 4) (hdr : BitVec 128) (s : State) : Host.Outcome State Fault Refusal :=
  run s (oneMessage port 5 hdr [])

/-! ### Flits that arrive -/

/-- The messages of a VC's byte stream, oldest first, and the bytes of one not yet whole. A TYPE of 0 begins the zero fill; a
message of a reserved TYPE is a header alone, and is dropped (R350). -/
def parseStream : Nat → List Byte → List (Msg × List Byte) × List Byte
  | 0, bs => ([], bs)
  | fuel + 1, bs =>
    match bs with
    | [] => ([], [])
    | b :: _ =>
      if b.toNat % 16 = 0 then ([], [])
      else if bs.length < 16 then ([], bs)
      else
        let m := msgOf (BitVec.ofNat 128 (leAt bs 0 16))
        let n := m.dataLen
        if bs.length < 16 + n then ([], bs)
        else
          let r := parseStream fuel (bs.drop (16 + n))
          (if m.ty ≤ 5 then (m, slice bs 16 n) :: r.1 else r.1, r.2)

/-- Flits of a VC whose buffers hold the bytes of a message not yet whole. -/
def heldFlits (rest : List Byte) : Nat := ceilDiv rest.length flitPayload

/-- The credits of `n` flits that have been taken in go back: at once, or when the messages forwarded from them have left (R349). -/
def returnCredits (p vc n : Nat) (s : State) : State :=
  freeHolds { s with hrn := { s.hrn with holds := s.hrn.holds ++ [{ ticket := s.hrn.ticket, port := p, vc := vc, n := n }] } }

/-- The payload of an accepted flit: its messages are delivered, unless the port is miswired, and buffers become free again (R349,
R350). -/
def flitPayloadIn (p vc : Nat) (pay : List Byte) (s : State) : State :=
  let k := portAt s p
  let old := if vc = 0 then k.rxq.1 else k.rxq.2
  let (ms, rest) := parseStream 64 (old ++ pay)
  let s1 := modPort { s with hrn := { s.hrn with ticket := s.hrn.ticket + 1 } } p fun k =>
    { k with rxSeq := (k.rxSeq + 1) % 4096, rxq := if vc = 0 then (rest, k.rxq.2) else (k.rxq.1, rest) }
  let s2 := if k.stopped then s1 else ms.foldl (fun s x => messageIn p x.1 x.2 s) s1
  returnCredits p vc (heldFlits old + 1 - heldFlits rest) s2

/-- A flit arrives (R346, R347). -/
def flitIn (p : Nat) (flit : List Byte) (s : State) : State :=
  if !portUp s p then s
  else if (crc32c (flit.take 248)).toNat ≠ leAt flit 248 4 then
    fire { b := bHRN p, src := 0 } (modPort s p fun k => { k with nakDue := true })
  else
    let h := leAt flit 0 8
    let vc := bitsAt h 25 2
    let s1 := flitControl p (bitsAt h 12 12) (bitsAt h 32 8) (bitsAt h 40 8) (h.testBit 24) s
    let ahead := (bitsAt h 0 12 + 4096 - (portAt s1 p).rxSeq) % 4096
    if 2 ≤ vc then s1
    else if ahead = 0 then flitPayloadIn p vc (slice flit 8 240) s1
    else if ahead < 2048 then modPort s1 p fun k => { k with nakDue := true }
    else s1

/-- FLIT_RECEIVE: a flit is 256 bytes. -/
def execFlitReceive (port : Fin 4) (flit : List Byte) (s : State) : Host.Outcome State Fault Refusal :=
  if flit.length = 256 then run s (flitIn port flit) else .fault (.illFormed "FLIT_RECEIVE flit")

/-! ### Late and missing answers -/

/-- A latency-critical response has not arrived by its fixed cycle (R356). -/
def latencyMiss (dev rid : Nat) (s : State) : State :=
  match findReq s dev rid with
  | none => s
  | some q =>
    if !q.lc || q.missed || !reqAlive s q then s
    else
      let s1 := passToCyc s (q.due + 1)
      fire { b := bHRN (routePort s dev), src := 3, who := whoOn s q.core }
        (modPeer s1 dev fun p => { p with out := p.out.map fun x => if x.rid = rid then { x with missed := true } else x })

/-- REMOTE_LAT_MISS. -/
def execRemoteLatMiss (dev : Fin 8) (rid : BitVec 16) (s : State) : Host.Outcome State Fault Refusal :=
  run s (latencyMiss dev rid.toNat)

/-- A request with no response within 20 µs is abandoned (R356). -/
def abandonReq (dev rid : Nat) (s : State) : State :=
  match findReq s dev rid with
  | none => s
  | some q => denyReq dev q (passNs s (q.sentAt + 20000 - s.clk.ns))

/-- REMOTE_REQUEST_ABANDON. -/
def execRemoteRequestAbandon (dev : Fin 8) (rid : BitVec 16) (s : State) : Host.Outcome State Fault Refusal :=
  run s (abandonReq dev rid.toNat)

/-! ### SYNC, SKIP and IDENT -/

/-- The measurement that a SYNC on UP_PORT gives (R358): the link delay in quarter nanoseconds and the offset. -/
def syncMeasure (t1 t2 t3 t4 : Word) : Nat × Int :=
  (fld (t2 - t1 + (t4 - t3)) 15 0, rneDiv ((t4 - t3).toInt - (t2 - t1).toInt) 4)

/-- A SYNC arrives, in the half of the present count that `half` says (R357, R358): the port keeps its echo; on UP_PORT it is a measurement of HARNESS mode unless its echo is older
than 10 µs. -/
def syncIn (p : Nat) (t1 t3 t4 : Word) (half : Bool) (s : State) : State :=
  if !portUp s p then s
  else
    let t2 := halfNs s half
    let s1 := modPort s p fun k => { k with echo := (t1, t2) }
    if p ≠ s.time.upPort || decide (20000 < (t2 - t3).toNat) then s1
    else
      let (delay, e) := syncMeasure t1 t2 t3 t4
      let s2 := modPort s1 p fun k => { k with delay := delay }
      if s.time.mode = 4 then measure e s2 else s2

/-- SYNC. -/
def execSync (port : Fin 4) (ttx echoTx echoRx : Word) (half : Bool) (s : State) : Host.Outcome State Fault Refusal :=
  run s (syncIn port ttx echoTx echoRx half)

/-- From the next multiple of 2,000 ns of the GTC on, a SYNC waits on every UP port for the first slot 15 (Table 14.5). -/
def syncSend (s : State) : State :=
  let s1 := passNs s (2000 - s.clk.gtc.toNat % 2000)
  (upPorts s1).foldl (fun s p => modPort s p fun k => { k with pend15 := k.pend15 ++ [.sync] }) s1

/-- SYNC_SEND. -/
def execSyncSend (s : State) : Host.Outcome State Fault Refusal := run s syncSend

/-- SKIP: it may be dropped (R357), and has no other effect. -/
def execSkip (_port : Fin 4) (s : State) : Host.Outcome State Fault Refusal := run s id

/-- A Pattern is in use: ARMED or ACTIVE. -/
def patInUse (s : State) : Bool := s.glb.patState == 3 || s.glb.patState == 4

/-- An IDENT matches this device's own items (R359). -/
def identMatches (s : State) (p dev gm1 : Nat) (tag : Word) : Bool :=
  dev == bitsAt (itmN s 9 0x10 p 0) 1 3 && gm1 == groupM1 s && tag == groupTag s

/-- An IDENT arrives; while a Pattern is in use it is compared, and a miswired port carries no messages (R359). -/
def identIn (p dev gm1 : Nat) (tag : Word) (s : State) : State :=
  if !portUp s p then s
  else
    let ok := patInUse s && identMatches s p dev gm1 tag
    let s1 := modPort s p fun k =>
      { k with peer := dev % 8, identOk := ok, identOf := some (gm1, tag), stopped := if patInUse s then !ok else k.stopped }
    let s1 := modPeer s1 dev fun x => { x with known := true }
    if !patInUse s then s1
    else if ok then causeEnds (bHRN p) 7 s1
    else onset { b := bHRN p, src := 7 } s1

/-- IDENT. -/
def execIdent (port : Fin 4) (dev gm1 _farPort : Byte) (tag : Word) (s : State) : Host.Outcome State Fault Refusal :=
  run s (identIn port dev.toNat gm1.toNat tag)

/-- IDENT_SEND: on every UP port while a Pattern is in use (Table 14.5). -/
def execIdentSend (s : State) : Host.Outcome State Fault Refusal :=
  run s fun s => if patInUse s then sendIdents s else s

end Sys2Proof.Machine
end

