-- ==== Sys2Proof/Machine/Mailbox.lean ====
section
/-!
DEFINITION. The mailbox (19, R449, R450): RING makes it busy, and the row of a command brings that command to its end.
-/
namespace Sys2Proof.Machine

/-! ### One command -/

/-- Result codes (R450). -/
def rOk : Nat := 0
def rUnknown : Nat := 1
def rNotNow : Nat := 2
def rBadArg : Nat := 3
def rAuth : Nat := 4
def rFlash : Nat := 6
def rLifecycle : Nat := 7

/-- Argument i. -/
def mbxArg (s : State) (i : Nat) : Nat := (s.mgt.args.getD i 0).toNat

/-- Bytes put at the start of the buffer. -/
def mbxPut (bs : List Byte) (s : State) : State := { s with mgt := { s.mgt with buf := s.mgt.buf.wrN 0 bs } }

/-- A command ends: TAG, RESULT and DONE, and the mailbox's vector (R449; 20, Table 20.3). -/
def mbxEnd (result : Nat) (s : State) : State :=
  sendVec 144 { s with mgt := { s.mgt with
    stTag := BitVec.ofNat 16 (fld s.mgt.cmd 31 16), result := result, done := true, busy := false } }

/-- The command's body runs, and it ends. The body answers its result; with any other than OK nothing else changes but the fire of
MGT_FLASH_ERR, and Minimal Recovery Mode offers only some commands (R450). -/
def mbxFinish (offered : Bool) (body : State → State × Nat) (s : State) : State :=
  let r := if s.rst.minimal && !offered then (s, rNotNow) else body s
  let s1 := if r.2 = rOk then r.1 else s
  mbxEnd r.2 (if r.2 = rFlash then fire { b := bMGT, src := 8 } s1 else s1)

/-- The host's requests reach the mailbox (R449). -/
def mbxReached (s : State) : Bool := hostReaches s && barsOn s

/-- A write that a running command turns away (R449). -/
def mbxOverrun (s : State) : State := { s with mgt := { s.mgt with overrun := true } }

/-- RING: the command whose code MGT_MBX_CMD holds runs from now on (R449). -/
def ring (s : State) : State := if s.mgt.busy then mbxOverrun s else { s with mgt := { s.mgt with busy := true } }

/-- The row of a command: a command with its code that runs comes to its end; when none runs, the host rings it and it runs to its end
(DESIGN CHOICE, entry 39). -/
def mbxRun (mine : Nat → Bool) (code : Option Nat) (offered : Bool) (body : State → State × Nat) (s : State) : State :=
  if s.mgt.busy then (if mine (fld s.mgt.cmd 7 0) then mbxFinish offered body s else mbxOverrun s)
  else if !mbxReached s then s
  else mbxFinish offered body (match code with
    | some k => { s with mgt := { s.mgt with cmd := putBits s.mgt.cmd 0 8 k } }
    | none => s)

/-- A body that answers bytes. -/
def answer (bs : State → List Byte) (s : State) : State × Nat := (mbxPut (bs s) s, rOk)

/-! ### What the device tells -/

/-- GET_INFO's bytes. -/
def infoBytes (s : State) : List Byte :=
  let m := s.mgt
  leBytes 8 m.otp.dieId.toNat ++ leBytes 4 m.fwVer.toNat ++ leBytes 1 m.fwSvn ++ leBytes 1 m.otp.svn ++ leBytes 1 (lifecycle s) ++
    leBytes 1 (b2n m.slot + b2n m.trial * 2 + b2n m.fallback * 4) ++ leBytes 2 m.otp.corePresent.toNat ++
    leBytes 1 m.otp.dieRev.toNat ++ List.replicate 13 0

/-- The sensor words (Table 19.12). -/
def sensorBytes (s : State) : List Byte :=
  wordBytes ((List.range 24).map (s.mgt.temps.getD · 0) ++ (List.range 12).map (s.mgt.vmon.getD · 0))

/-- A read of `size` bytes of something: ARG0 offset, ARG1 length 1 to 4,096. -/
def mbxRead (size : Nat) (bytes : State → Nat → Nat → List Byte) (s : State) : State × Nat :=
  let a := mbxArg s 0
  let n := mbxArg s 1
  if 1 ≤ n ∧ n ≤ 4096 ∧ a + n ≤ size then (mbxPut (bytes s a n) s, rOk) else (s, rBadArg)

/-- A read of the retained SRAM: a corrected or an uncorrectable word in it is found (R439). -/
def retainedRead (s : State) : State × Nat :=
  let r := mbxRead 0x10000 retainedBytes s
  let v := s.mgt.sram
  let a := 0xF0000 + mbxArg s 0
  let n := mbxArg s 1
  if r.2 ≠ rOk then r
  else
    let s1 := { r.1 with mgt := { r.1.mgt with sram := { v with ce := v.ce.filter fun w => !(eccWords 8 a n).contains w } } }
    (fireAll ((if v.hasCe 8 a n then [({ b := bMGT, src := 6 } : Fire)] else []) ++
      (if v.hasUe 8 a n then [({ b := bMGT, src := 7 } : Fire)] else [])) s1, rOk)

/-- A read of the flash. -/
def flashRead (s : State) : State × Nat :=
  let r := mbxRead 0x1000000 (fun s a n => flashBytes s.mgt a n) s
  if r.2 = rOk ∧ s.mgt.flashBad then (s, rFlash) else r

/-- BKUP0.ATTEMPTS becomes a count. -/
def setAttempts (n : Nat) (s : State) : State :=
  { s with rst := { s.rst with bkup := putAt 0 s.rst.bkup 0 (putBits (s.rst.bkup.getD 0 0) 0 8 n) } }

/-! ### Firmware update -/

/-- The slot that does not run. -/
def inactiveSlot (s : State) : Nat := 1 - b2n s.mgt.slot

/-- FW_WRITE: the offset of a 64 KiB sector erases the sector first. -/
def fwWrite (s : State) : State × Nat :=
  let o := mbxArg s 0
  let n := mbxArg s 1
  if o % 4096 = 0 ∧ 1 ≤ n ∧ n ≤ 4096 ∧ o + n ≤ 0x400000 then
    let a := slotBase (inactiveSlot s) + o
    if s.mgt.flashBad then (s, rFlash) else
    let m := if o % 0x10000 = 0 then s.mgt.eraseSector a else s.mgt
    ({ s with mgt := { m.program a (s.mgt.buf.rdN 0 n) with verified := false } }, rOk)
  else (s, rBadArg)

/-- FW_VERIFY (R447): the digest of the image is kept (18, R430). -/
def fwVerify (s : State) : State × Nat :=
  if s.mgt.flashBad then (s, rFlash) else
  ({ s with mgt := { s.mgt with verified := true, digest := slotDigest s (inactiveSlot s) } }, verifySlot s (inactiveSlot s))

/-- FW_ACTIVATE. -/
def fwActivate (s : State) : State × Nat :=
  if !s.mgt.verified then (s, rNotNow)
  else if s.mgt.flashBad then (s, rFlash)
  else ({ s with mgt := writeDesc (inactiveSlot s) true s.mgt }, rOk)

/-- FW_CONFIRM. -/
def fwConfirm (s : State) : State × Nat :=
  if !s.rst.ready ∨ (bootChoice s.mgt).1 ≠ b2n s.mgt.slot then (s, rNotNow)
  else if s.mgt.flashBad then (s, rFlash)
  else ({ s with mgt := writeDesc (b2n s.mgt.slot) false s.mgt }, rOk)

/-- A change of the fuses, which takes effect at the next reset (R442). -/
def blow (f : Otp → Otp) (s : State) : State := { s with mgt := { s.mgt with fuses := f s.mgt.fuses } }

/-- SVN_COMMIT (R448). -/
def svnCommit (s : State) : State × Nat :=
  if (bootChoice s.mgt).2 then (s, rNotNow) else (blow (fun o => { o with svn := max o.svn s.mgt.fwSvn }) s, rOk)

/-! ### Lifecycle and keys -/

/-- The firmware public key: that of a slot's header whose SHA-256 is FW_KEY_DIGEST, the running slot's first. -/
def firmwareKey (s : State) : Option (List Byte) :=
  (([b2n s.mgt.slot, inactiveSlot s] : List Nat).map fun k => flashBytes s.mgt (slotBase k + 128) 64).find? fun k =>
    sha256 k == s.mgt.otp.fwKey

/-- The return token in the buffer verifies (R444). -/
def tokenOk (s : State) : Bool :=
  match firmwareKey s with
  | some k => ecdsaVerify k (s.mgt.buf.rdN 0 64) (leBytes 8 s.mgt.otp.dieId.toNat ++ [0x03])
  | none => false

/-- R444 allows the transition, the token apart. -/
def lcAllowed (s : State) (target : Nat) : Bool :=
  match lifecycle s with
  | 0 => (target == 1 || target == 2) && keySet s.mgt.fuses.fwKey && keySet s.mgt.fuses.patKey
  | 1 => target == 2 || target == 3
  | 2 => target == 3
  | _ => false

/-- LC_ADVANCE (R444): the bit of the new state is blown; in Minimal Recovery Mode only RETURN is offered. -/
def lcAdvance (s : State) : State × Nat :=
  let target := mbxArg s 0
  if s.rst.minimal ∧ target ≠ 3 then (s, rNotNow)
  else if 3 < target then (s, rBadArg)
  else if !lcAllowed s target then (s, rLifecycle)
  else if target = 3 ∧ !tokenOk s then (s, rAuth)
  else (blow (fun o => { o with lc := putBit o.lc (target - 1) true }) s, rOk)

/-- KEY_PROGRAM: only in MANUFACTURING, and only while the field is all zero. -/
def keyProgram (s : State) : State × Nat :=
  let digest := s.mgt.buf.rdN 0 32
  if 1 < mbxArg s 0 then (s, rBadArg)
  else if lifecycle s ≠ 0 then (s, rNotNow)
  else if mbxArg s 0 = 0 then
    (if keySet s.mgt.fuses.fwKey then (s, rNotNow) else (blow (fun o => { o with fwKey := digest }) s, rOk))
  else (if keySet s.mgt.fuses.patKey then (s, rNotNow) else (blow (fun o => { o with patKey := digest }) s, rOk))

/-! ### Group and time -/

/-- The 32 bytes of one device in the group map. -/
def mapEntry (flags kind mseq fenced : Nat) (gens : List Nat) : List Byte :=
  leBytes 1 flags ++ leBytes 1 kind ++ leBytes 2 mseq ++ leBytes 4 fenced ++ gens.flatMap (leBytes 1)

/-- A peer's entry. -/
def peerEntry (s : State) (d : Nat) : List Byte :=
  let p := peerAt s d
  mapEntry (b2n p.known + b2n p.inSafe * 2 + b2n p.ready * 4) p.lastKind p.lastMseq p.fenced.toNat
    ((List.range 24).map fun i => p.gens.getD (i + 1) 0)

/-- Domain d of this device stands fenced (17, Table 17.9: FENCED to STOPPED). -/
def standsFenced (s : State) (d : Nat) : Bool := decide (1 ≤ (domAt s d).phase) && decide ((domAt s d).phase ≤ 5)

/-- This device's own entry. -/
def ownEntry (s : State) : List Byte :=
  let p := peerAt s (devId s)
  mapEntry (1 + b2n s.glb.safe * 2 + b2n s.rst.ready * 4) p.lastKind p.lastMseq
    (sumN ((List.range 24).map fun i => if standsFenced s (i + 1) then 2 ^ (i + 1) else 0)) ((List.range 24).map fun i => (domAt s (i + 1)).gen)

/-- GROUP_MAP's bytes. -/
def mapBytes (s : State) : List Byte := (List.range 8).flatMap fun d => if d = devId s then ownEntry s else peerEntry s d

/-- GROUP_MAP: on the lead only. -/
def groupMap (s : State) : State × Nat := if isLead s then answer mapBytes s else (s, rNotNow)

/-- PTP_STATUS: the protocol's own data are free values. -/
def ptpStatus (s : State) : State × Nat :=
  let k := s.freeSeq
  let rsp1 : Word := BitVec.ofNat 32 (b2n (s.time.mode == 2) + b2n s.time.holdover * 2 + (Config.ptpSteps k).toNat * 4)
  let s1 := mbxPut (leBytes 8 (Config.ptpGrandmaster k).toNat) (bumpFree s)
  ({ s1 with mgt := { s1.mgt with rsp := putAt 0 (putAt 0 s1.mgt.rsp 0 (BitVec.ofInt 32 s.time.lastOffset)) 1 rsp1 } }, rOk)

/-! ### The commands -/

/-- What a code does (Table 19.6), with whether Minimal Recovery Mode offers it; any other code ends with UNKNOWN (R450). -/
def mbxBody (code : Nat) : Bool × (State → State × Nat) :=
  match code with
  | 0x01 => (true, (answer infoBytes))
  | 0x02 => (true, (answer sensorBytes))
  | 0x03 => (true, (mbxRead 10240 fun s a n => slice (lifeBytes s s.mgt.lifeSeq) a n))
  | 0x04 => (true, retainedRead)
  | 0x05 => (true, fun s => (setAttempts 0 s, rOk))
  | 0x10 => (true, fwWrite)
  | 0x11 => (true, fwVerify)
  | 0x12 => (true, fwActivate)
  | 0x13 => (true, fwConfirm)
  | 0x14 => (false, svnCommit)
  | 0x20 => (true, lcAdvance)
  | 0x21 => (false, keyProgram)
  | 0x30 => (false, groupMap)
  | 0x31 => (false, ptpStatus)
  | 0x40 => (true, flashRead)
  | _ => (true, fun s => (s, rUnknown))

/-- Codes that Table 19.6 lists. -/
def mbxCodes : List Nat := [0x01, 0x02, 0x03, 0x04, 0x05, 0x10, 0x11, 0x12, 0x13, 0x14, 0x20, 0x21, 0x30, 0x31, 0x40]

/-- The row of the command with a code. -/
def mbxCommand (code : Nat) (s : State) : State := mbxRun (· == code) (some code) (mbxBody code).1 (mbxBody code).2 s

/-- The row of a command with no code of Table 19.6. -/
def mbxUnknown (s : State) : State := mbxRun (fun k => !mbxCodes.contains k) none true (fun s => (s, rUnknown)) s

/-- GET_INFO. -/
def execGetInfo (s : State) : Host.Outcome State Fault Refusal := run s (mbxCommand 0x01)

/-- SENSORS. -/
def execSensors (s : State) : Host.Outcome State Fault Refusal := run s (mbxCommand 0x02)

/-- LIFETIME_READ. -/
def execLifetimeRead (s : State) : Host.Outcome State Fault Refusal := run s (mbxCommand 0x03)

/-- RETAINED_READ. -/
def execRetainedRead (s : State) : Host.Outcome State Fault Refusal := run s (mbxCommand 0x04)

/-- ATTEMPTS_CLEAR (18, R437). -/
def execAttemptsClear (s : State) : Host.Outcome State Fault Refusal := run s (mbxCommand 0x05)

/-- FW_WRITE. -/
def execFwWrite (s : State) : Host.Outcome State Fault Refusal := run s (mbxCommand 0x10)

/-- FW_VERIFY. -/
def execFwVerify (s : State) : Host.Outcome State Fault Refusal := run s (mbxCommand 0x11)

/-- FW_ACTIVATE. -/
def execFwActivate (s : State) : Host.Outcome State Fault Refusal := run s (mbxCommand 0x12)

/-- FW_CONFIRM. -/
def execFwConfirm (s : State) : Host.Outcome State Fault Refusal := run s (mbxCommand 0x13)

/-- SVN_COMMIT. -/
def execSvnCommit (s : State) : Host.Outcome State Fault Refusal := run s (mbxCommand 0x14)

/-- LC_ADVANCE. -/
def execLcAdvance (s : State) : Host.Outcome State Fault Refusal := run s (mbxCommand 0x20)

/-- KEY_PROGRAM. -/
def execKeyProgram (s : State) : Host.Outcome State Fault Refusal := run s (mbxCommand 0x21)

/-- GROUP_MAP. -/
def execGroupMap (s : State) : Host.Outcome State Fault Refusal := run s (mbxCommand 0x30)

/-- PTP_STATUS. -/
def execPtpStatus (s : State) : Host.Outcome State Fault Refusal := run s (mbxCommand 0x31)

/-- FLASH_READ. -/
def execFlashRead (s : State) : Host.Outcome State Fault Refusal := run s (mbxCommand 0x40)

/-- MAILBOX_UNKNOWN: a RING with a code that Table 19.6 does not list. -/
def execMailboxUnknown (s : State) : Host.Outcome State Fault Refusal := run s mbxUnknown

end Sys2Proof.Machine
end

