-- ==== Sys2Proof/Machine/Recovery.lean ====
section
/-!
DEFINITION. The Domain Recovery Unit (17): the heartbeat monitor (R410), the requests (R411), and the restart of a domain from its
fence to its return to service (R412 to R417, Table 17.3).
-/
namespace Sys2Proof.Machine

/-! ### Heartbeat -/

/-- A write of DRU_HB (R410): the first since the release arms the monitor; then only the next value counts. -/
def hbWrite (v : Word) (s : State) : State :=
  let x : BitVec 16 := BitVec.ofNat 16 v.toNat
  if !s.dru.started || (s.dru.armed && x == s.dru.last + 1) then
    { s with dru := { s.dru with started := true, armed := true, last := x, missed := 0, timerAt := s.clk.ns } }
  else s

/-- DRU_HB_WRITE. -/
def execDruHbWrite (v : Word) (s : State) : Host.Outcome State Fault Refusal := run s (hbWrite v)

/-- The heartbeat timer, which runs for 1,000,000 ns, expires (R410). -/
def hbExpiry (s : State) : State :=
  if !s.dru.armed then s
  else
    let s1 := passNs s (s.dru.timerAt + 1000000 - s.clk.ns)
    let n := s1.dru.missed + 1
    let s2 := { s1 with dru := { s1.dru with missed := min n 3, timerAt := s1.clk.ns, armed := decide (n < 3) } }
    if n < 3 then s2 else fire { b := bDRU, src := 0 } s2

/-- HEARTBEAT_TIMER_EXPIRY. -/
def execHeartbeatTimerExpiry (s : State) : Host.Outcome State Fault Refusal := run s hbExpiry

/-! ### Requests -/

/-- A domain that a request can restart now (R411). -/
def restartable (s : State) (d : Nat) : Bool :=
  decide (1 ≤ d) && decide (d ≤ 24) && inService s d && (decide (d > 16) || present s (d - 1))

/-- A write of DRU_RESTART (R411, Table 17.8): the requests are made in the order of the domain numbers. -/
def restartWrite (v : Word) (s : State) : State :=
  (List.range 25).foldl (fun s d => if bitAt v d && restartable s d then fenceDomain d s else s) s

/-- DRU_RESTART_WRITE. -/
def execDruRestartWrite (v : Word) (s : State) : Host.Outcome State Fault Refusal := run s (restartWrite v)

/-! ### Reset and scrub -/

/-- A core after its reset and scrub: what the Observation Unit, the transient history and the run of swatch failures keep lies
outside it (R375, R380; 19, R454). -/
def Core.restarted (k : Core) (now : Nat) : Core :=
  { st := { trans := k.st.trans, swFail := k.st.swFail, obs := k.st.obs, idleAt := now, idleSince := now } }

/-- The tannery after its reset and scrub: rings, tunable fields and sequence numbers are kept (Table 17.3). -/
def Siu.restarted (u : Siu) : Siu := { u with buf := {}, unclaimedCsi := 0, unclaimedEth := 0, aged := [], decAt := 0 }

/-- The Keyed Feature Store after its reset and scrub: every way INVALID, GEN to advance at the first tick (R229). -/
def Kfs.restarted (k : Kfs) : Kfs := { gen := k.gen, flushFst := true }

/-- A Harness port after its reset: it trains (R344). -/
def Port.restarted (now : Nat) : Port := { trainAt := now }

/-- The PCI Express endpoint after its reset: configuration space, BARs and MSI-X table are kept. -/
def Pci.restarted (p : Pci) : Pci := { p with dlActive := false, speed := 0, width := 0, replays := 0, ans := {} }

/-- Requests over the Harness that the fence of domain d abandoned have no entry any more: a response is dropped under R417 (R414). -/
def forgetRequests (d : Nat) (s : State) : State :=
  { s with hrn := { s.hrn with peers := s.hrn.peers.map fun x => { x with out := x.out.filter fun q => q.fence != some d } } }

/-- Steps 3 and 4 leave a domain so (Table 17.3). -/
def resetDomain (d : Nat) (s0 : State) : State :=
  let s := forgetRequests d s0
  if 1 ≤ d ∧ d ≤ 16 then modCore s (d - 1) fun k => k.restarted s.clk.cyc
  else if d = dSIU then { s with siu := s.siu.restarted }
  else if d = dFST then { s with fst := {}, kfs := s.kfs.restarted, rsmp := [{}, {}, {}, {}] }
  else if d = dDRC then { s with drc := { s.drc with mem := {}, patrol := [], trained := true, selfRefresh := false } }
  else if d = dPCI then
    let s1 := { s with pci := s.pci.restarted }
    if s.pci.dlActive then onset { b := bPCI, src := 2 } s1 else s1
  else
    let s1 := modPort s (d - 20) fun _ => Port.restarted s.clk.ns
    freeHolds { s1 with hrn := { s1.hrn with
        peers := s1.hrn.peers.map fun x => { x with out := x.out.filter fun q => q.port != d - 20 } } }

/-- Device cycles of the scrub (Table 17.3). -/
def scrubCycles (d : Nat) : Nat :=
  if 1 ≤ d ∧ d ≤ 16 then 8192 else if d = dSIU then 16384 else if d = dFST then 32768 else 0

/-! ### Reload -/

/-- Step 5 reads the staged Pattern: a Pattern is armed or active, and the domain reloads from it (R416). -/
def reloads (s : State) (d : Nat) : Bool := (s.glb.patState == 3 || s.glb.patState == 4) && d != dDRC && d != dPCI

/-- Sections that a domain's reload reads (Table 17.3). -/
def reloadSections (d : Nat) : List Nat :=
  if d ≤ 16 then [4, 5] else if d = dSIU then [3] else if d = dFST then [7] else [9]

/-- Resident blocks that a domain's reload reads. -/
def reloadBlocks (s : State) (d : Nat) : List Nat := if d ≤ 16 then (residents s).filter fun i => i / 128 == d - 1 else []

/-- The runs of DRAM that the reload reads: address and length. -/
def reloadRuns (s : State) (g : Staged) (d : Nat) : List (Nat × Nat) :=
  (reloadSections d).map (fun ty => (g.a + (g.sect ty).off, (g.sect ty).len)) ++
    (reloadBlocks s d).map fun i => (blockSrc s g i, 65536)

/-- Device cycles of the reload at 64 bytes a cycle (R416). -/
def reloadCycles (s : State) (g : Staged) (d : Nat) : Nat :=
  let own := if d ≤ 16 then (coreImage s g (d - 1)).length + 65536 * (reloadBlocks s d).length
    else sumN ((reloadRuns s g d).map Prod.snd)
  ceilDiv own 64

/-- A section or block read differs from its CRC, or is not readable (R338). -/
def reloadBad (s : State) (g : Staged) (d : Nat) : Bool :=
  (reloadSections d).any (fun ty => !g.crcOk ty) ||
    (reloadBlocks s d).any (fun i => (itmN s 5 2 i 0).testBit 63 &&
      (crc32c (g.m.rdN (blockSrc s g i) 65536)).toNat != itmN s 5 3 i 0) ||
    (reloadRuns s g d).any fun r => poisoned s .dram r.1 r.2

/-- What the reload puts into the domain. -/
def reloadInto (d : Nat) (g : Staged) (s : State) : State :=
  if d ≤ 16 then modCore s (d - 1) (loadCore s g (d - 1))
  else if d = dFST then { s with kfs := s.kfs.config s }
  else s

/-! ### The sequence -/

/-- The domain's PHASE changes; the change is traced (19, Table 19.10). -/
def setPhase (d ph : Nat) (s : State) : State :=
  traceDom d (modDom s d fun k => { k with phase := ph, phaseAt := s.clk.cyc, phaseNs := s.clk.ns })

/-- Time passes until `n` nanoseconds after the fence of the domain. -/
def passFence (d n : Nat) (s : State) : State := passNs s ((domAt s d).fenceAt + n - s.clk.ns)

/-- Step 7's consequences of a D_DRC restart: the Pattern is unloaded and every submission ring disabled (Table 17.3). -/
def drcBack (s : State) : State :=
  if s.glb.patState = 3 ∨ s.glb.patState = 4 then
    unloadNow { s with disp := { s.disp with subs := s.disp.subs.map fun k => { k with en := false } } }
  else s

/-- Steps 6 and 7: a new generation, and the return to service (R417, R418). -/
def unfence (d : Nat) (s : State) : State :=
  let s1 := setPhase d 0 (modDom s d fun k => { k with gen := (k.gen + 1) % 256, restarts := min 255 (k.restarts + 1) })
  let s2 := if d = dFST ∨ d = dDRC then { s1 with dru := { s1.dru with voidNext := true } } else s1
  sendSide 0x02 d (domAt s2 d).gen 0 s2.time.tick (if d = dDRC then drcBack s2 else s2)

/-- Step 5's end: what was reloaded is in the domain, or a CRC differs and the sequence stops (R338, R416). -/
def reloadStep (d : Nat) (s : State) : State :=
  let g := usedImage s
  let bad := reloadBad s g d
  let s1 := (reloadRuns s g d).foldl (fun s r => readRun .dram none r.1 r.2 s) s
  let s2 := passToCyc s1 ((domAt s d).phaseAt + reloadCycles s g d)
  if bad then fire { b := bGLB, src := 2 } (setPhase d 5 s2) else unfence d (reloadInto d g s2)

/-- No transaction that the domain issued is outstanding, and none into it is unanswered (R414). -/
def drained (s : State) (d : Nat) : Bool :=
  (List.range 16).all fun c => !hasRequest s d c && (d != dCore c || ((coreAt s c).st.run.isNone && (coreAt s c).xfers.isEmpty))

/-- DRAIN_NS (R421). -/
def drainNs (s : State) : Nat := itmN s 8 0x30 0 50000

/-- Bound of a domain's restart in nanoseconds (Table 17.1). -/
def restartBound (s : State) (d : Nat) : Nat := if d = dDRC then (if s.drc.attached then 180000000 else 100000000) else 2000000

/-- Bound of the scrub of DRAM in nanoseconds: 70 ms with 16 GiB, 140 ms with 32 GiB (Table 17.3). -/
def scrubBound (s : State) : Nat := if dramU s ≤ 2 ^ 34 then 70000000 else 140000000

/-- Time of the earliest bound that the present step of a domain's restart has: its own, or that of the whole (R412). -/
def boundAt (s : State) (d : Nat) : Nat :=
  let k := domAt s d
  let whole := k.fenceAt + restartBound s d
  if k.phase = 1 then min whole (k.fenceAt + drainNs s)
  else if k.phase = 3 ∧ d = dDRC then min whole (k.phaseNs + scrubBound s)
  else whole

/-- The restart of a fenced domain goes on by one step of Table 17.2: the drain ends, the reset, the scrub or the reload. -/
def restartStep (d : Nat) (s : State) : State :=
  let k := domAt s d
  if k.phase = 1 then (if drained s d then setPhase d 2 s else s)
  else if k.phase = 2 then setPhase d 3 (passToCyc s (k.phaseAt + 2048))
  else if k.phase = 3 then setPhase d 4 (resetDomain d (passToCyc s (k.phaseAt + scrubCycles d)))
  else if reloads s d then reloadStep d s
  else unfence d s

/-- The restart of a domain can go on: it is in progress and within its bounds, and DRAM answers where it reloads. -/
def canRestart (s : State) (d : Nat) : Bool :=
  let k := domAt s d
  decide (1 ≤ k.phase) && decide (k.phase ≤ 4) && !k.frozen && decide (s.clk.ns ≤ boundAt s d) && (k.phase != 4 || !reloads s d || dramUp s)

/-- A restart is requested of a domain in service (R411), or goes on by its next step (R412; DESIGN CHOICE, entry 45). -/
def restartDomain (d : Nat) (s : State) : State :=
  if restartable s d then fenceDomain d s else if canRestart s d then restartStep d s else s

/-- DOMAIN_RESTART_REQUEST. -/
def execDomainRestartRequest (d : Fin 25) (s : State) : Host.Outcome State Fault Refusal := run s (restartDomain d)

/-! ### Sequences that stop -/

/-- A domain that has not drained by DRAIN_NS stops (R414). -/
def drainTimeout (d : Nat) (s : State) : State :=
  let k := domAt s d
  if k.phase ≠ 1 || k.frozen then s
  else fire { b := bDRU, src := 1, det := BitVec.ofNat 32 d } (setPhase d 5 (passFence d (drainNs s) s))

/-- DRAIN_TIMEOUT. -/
def execDrainTimeout (d : Fin 25) (s : State) : Host.Outcome State Fault Refusal := run s (drainTimeout d)

/-- A restart of which a step, or the whole, overruns its bound stops with the domain fenced (R412); the drain's own bound is that of
R414. -/
def restartFail (d : Nat) (s : State) : State :=
  let k := domAt s d
  if k.phase = 0 || decide (5 ≤ k.phase) || k.frozen then s
  else
    let t := if k.phase = 1 then k.fenceAt + restartBound s d else boundAt s d
    fire { b := bDRU, src := 3 } (setPhase d 5 (passNs s (t - s.clk.ns)))

/-- RESTART_BOUND_EXPIRY. -/
def execRestartBoundExpiry (d : Fin 25) (s : State) : Host.Outcome State Fault Refusal := run s (restartFail d)

end Sys2Proof.Machine
end

