-- ==== Sys2Proof/Machine/Tap.lean ====
section
/-!
DEFINITION. The signal pins the device drives (16, R406; 18, Table 18.1) and the IEEE 1149.1 test access port (19, R458).
-/
namespace Sys2Proof.Machine

/-! ### Pins -/

/-- No pin is driven: the detector is asserted, or the XTAL clock is absent (18, Table 18.1). -/
def pinsOff (s : State) : Bool := s.rst.porOn || s.rst.noXtal

/-- DEV_OK (16, R406): high once READY has been reached, outside the safe state. -/
def devOkPin (s : State) : Bool := !pinsOff s && !s.rst.inReset && s.rst.ready && !s.glb.safe

/-- READY (18, R435). -/
def readyPin (s : State) : Bool := !pinsOff s && !s.rst.inReset && s.rst.ready

/-- The byte on TRACE[7:0]: of the record that goes out at 5 ns a byte, 0x00 between records (19, R457). -/
def traceByte (s : State) : Byte :=
  match s.obs.pinQ.find? fun x => decide (x.1 ≤ s.clk.ns) && decide (s.clk.ns < x.1 + 80) with
  | some (t, r) => BitVec.ofNat 8 (r.toNat >>> (8 * ((s.clk.ns - t) / 5)))
  | none => 0

/-- Pins are numbered in the order of 21, Table 21.1, each name of a row by itself, from RESET_N 0 to XTAL_OUT 50. These hold their
level across a warm reset: PPS_OUT, SYNC_OUT, TRACE[7:0], TRACE_CLK, UART_TX and GPIO[7:0] (18, Table 18.1). -/
def isHeld (i : Nat) : Bool := (decide (5 ≤ i) && decide (i ≤ 15)) || i == 39 || (decide (41 ≤ i) && decide (i ≤ 48))

/-- Pins that are outputs alone: DEV_OK, READY, those of isHeld but GPIO, QSPI_CLK and QSPI_CS_N. -/
def isOutput (i : Nat) : Bool := i == 1 || i == 2 || (isHeld i && decide (i ≤ 39)) || i == 21 || i == 22

/-- A pin of isHeld out of reset, its hold released: what the Time Unit, the Observation Unit or the firmware drives. -/
def heldPin (s : State) (i : Nat) : Option Bool :=
  if i = 5 then (if s.time.ppsOutEn then some (ppsOutPin s) else none)
  else if i = 6 then (if s.time.syncOutAt ≠ 0 then some (syncOutPin s) else none)
  else if i ≤ 14 then (if s.obs.pins then some ((traceByte s).getLsbD (14 - i)) else none)
  else if i = 15 then (if s.obs.pins then some (Config.pinLevel s.freeSeq i) else none)
  else Config.pinDrive s.freeSeq i

/-- What the device drives on a pin by its function, none where it is at high impedance, released or an input (18, R427, R428, Table
18.1; 21, Table 21.1); the phase of TRACE_CLK is a free value. -/
def funcPin (s : State) (i : Nat) : Option Bool :=
  if i = 1 then some (devOkPin s)
  else if i = 2 then some (readyPin s)
  else if i = 20 then (if s.tap.tdoOn then some s.tap.tdo else none)
  else if isHeld i then (if s.rst.pinHold then s.rst.held.getD i none else if s.rst.inReset then none else heldPin s i)
  else if i = 21 ∨ i = 22 then
    (if !s.rst.inReset then some (Config.pinLevel s.freeSeq i) else if s.rst.cause then some (i == 22) else none)
  else if 23 ≤ i ∧ i ≤ 37 then (if s.rst.inReset then none else Config.pinDrive s.freeSeq i)
  else none

/-! ### The controller -/

/-- The next state of the controller at a rising edge of TCK. -/
def TapState.next (t : TapState) (tms : Bool) : TapState :=
  match t, tms with
  | .reset, true => .reset  | .reset, false => .idle
  | .idle, true => .selDr   | .idle, false => .idle
  | .selDr, true => .selIr  | .selDr, false => .capDr
  | .capDr, true => .ex1Dr  | .capDr, false => .shDr
  | .shDr, true => .ex1Dr   | .shDr, false => .shDr
  | .ex1Dr, true => .upDr   | .ex1Dr, false => .paDr
  | .paDr, true => .ex2Dr   | .paDr, false => .paDr
  | .ex2Dr, true => .upDr   | .ex2Dr, false => .shDr
  | .upDr, true => .selDr   | .upDr, false => .idle
  | .selIr, true => .reset  | .selIr, false => .capIr
  | .capIr, true => .ex1Ir  | .capIr, false => .shIr
  | .shIr, true => .ex1Ir   | .shIr, false => .shIr
  | .ex1Ir, true => .upIr   | .ex1Ir, false => .paIr
  | .paIr, true => .ex2Ir   | .paIr, false => .paIr
  | .ex2Ir, true => .upIr   | .ex2Ir, false => .shIr
  | .upIr, true => .selDr   | .upIr, false => .idle

/-- What the instruction register selects (R458); EXTEST only in MANUFACTURING. -/
inductive TapOp where
  | extest | idcode | sample | bypass
  deriving DecidableEq, Repr

def tapOp (s : State) : TapOp :=
  if s.tap.ir = 0x00 then (if lifecycle s = 0 then .extest else .bypass)
  else if s.tap.ir = 0x01 then .idcode
  else if s.tap.ir = 0x02 then .sample
  else .bypass

/-- IDCODE (R458). -/
def idcode (s : State) : Word :=
  BitVec.ofNat 32 (s.mgt.otp.dieRev.toNat % 16 * 2 ^ 28 + 0x1600 * 2 ^ 12 + 0x2E5 * 2 + 1)

/-- What the device drives on a pin: nothing while the pins are off, under EXTEST the boundary register's bit on an output. -/
def drivenPin (s : State) (i : Nat) : Option Bool :=
  if pinsOff s then none
  else if tapOp s = .extest ∧ isOutput i then some (s.tap.bsr.getD i false)
  else funcPin s i

/-- Level of a pin: driven, or as its board sets it: DEV_OK and READY pulled down, open-drain lines pulled up (21, R477), else a free
value (entry 38). -/
def pinLevel (tms tdi : Bool) (s : State) (i : Nat) : Bool :=
  match drivenPin s i with
  | some b => b
  | none =>
    if i = 0 then !s.rst.pinLow
    else if i = 1 ∨ i = 2 then false
    else if i = 17 then tms
    else if i = 18 then tdi
    else if i = 16 ∨ i = 19 ∨ (32 ≤ i ∧ i ≤ 37) then true
    else Config.pinLevel s.freeSeq i

/-- The selected data register captures (Capture-DR). -/
def captureDr (tms tdi : Bool) (s : State) : State :=
  let dr := match tapOp s with
    | .idcode => (List.range 32).map (bitAt (idcode s))
    | .bypass => [false]
    | _ => (List.range 51).map (pinLevel tms tdi s)
  bumpFree { s with tap := { s.tap with dr := dr } }

/-- A shift register takes TDI at its far end. -/
def shiftIn (tdi : Bool) (l : List Bool) : List Bool := l.drop 1 ++ [tdi]

/-- A rising edge of TCK: the state acts, and the controller moves. -/
def tapRise (tms tdi : Bool) (s : State) : State :=
  let s1 :=
    match s.tap.st with
    | .capDr => captureDr tms tdi s
    | .shDr => { s with tap := { s.tap with dr := shiftIn tdi s.tap.dr } }
    | .capIr => { s with tap := { s.tap with irShift := 1 } }
    | .shIr => { s with tap := { s.tap with irShift := putBit (s.tap.irShift >>> 1) 7 tdi } }
    | _ => s
  { s1 with tap := { s1.tap with st := s.tap.st.next tms } }

/-- The update stage of the selected data register (Update-DR). -/
def updateDr (s : State) : State :=
  match tapOp s with
  | .extest => { s with tap := { s.tap with bsr := s.tap.dr } }
  | .sample => { s with tap := { s.tap with bsr := s.tap.dr } }
  | _ => s

/-- A falling edge of TCK: TDO changes, and registers update. -/
def tapFall (s : State) : State :=
  match s.tap.st with
  | .shDr => { s with tap := { s.tap with tdo := s.tap.dr.headD false, tdoOn := true } }
  | .shIr => { s with tap := { s.tap with tdo := bitAt s.tap.irShift 0, tdoOn := true } }
  | .upDr => updateDr { s with tap := { s.tap with tdoOn := false } }
  | .upIr => { s with tap := { s.tap with ir := s.tap.irShift, tdoOn := false } }
  | .reset => { s with tap := { s.tap with ir := 1, tdoOn := false } }
  | _ => { s with tap := { s.tap with tdoOn := false } }

/-- TRST_N low: Test-Logic-Reset, IDCODE selected. -/
def tapReset (s : State) : State := { s with tap := { s.tap with st := .reset, ir := 1, tdoOn := false } }

/-- An edge of TCK. The port works in a reset by RESET_N, and not while the pins are off (18, Table 18.1). -/
def tckEdge (rising tms tdi trstN : Bool) (s : State) : State :=
  if pinsOff s then s else if !trstN then tapReset s else if rising then tapRise tms tdi s else tapFall s

/-- TCK_EDGE. -/
def execTckEdge (rising tms tdi trstN : Bool) (s : State) : Host.Outcome State Fault Refusal := .next (tckEdge rising tms tdi trstN s)

end Sys2Proof.Machine
end

