-- ==== Sys2Proof/Machine/Reset.lean ====
section
/-!
DEFINITION. Reset and start-up (18): the two reset sources, what survives (Table 18.2), the boot ROM's choice (R431; 19, R447),
the cold and the warm start, the resume of the retained Pattern (R434), and Minimal Recovery Mode (R436).
-/
namespace Sys2Proof.Machine

/-! ### Into reset -/

/-- The ECC state of the retained SRAM, the top 64 KiB: word 122,880 and those after it (19, R439). -/
def Mgt.keptSram (m : Mgt) : Mem := { ce := m.sram.ce.filter (122880 ≤ ·), ue := m.sram.ue.filter (122880 ≤ ·) }

/-- Whole words of the retained record that the snapshot writes: the magic and CRC, and PAT_ADDR to the captures (Table 18.3). -/
def snapWord (w : Nat) : Bool := w == 122880 || (decide (123009 ≤ w) && decide (w ≤ 123092))

/-- The logic held in reset, with what a warm reset keeps (Table 18.2). -/
def heldThrough (s : State) : State :=
  { State.reset with
    pending := s.pending, host := s.host, freeSeq := s.freeSeq + 1, runSeq := s.runSeq, tap := s.tap
    glb := { patAddr := s.glb.patAddr, patReq := s.glb.patReq }
    drc := { mem := s.drc.mem, attached := s.drc.attached, selfRefresh := s.drc.selfRefresh }
    pci := { bme := s.pci.bme, d3hot := s.pci.d3hot, msixEn := s.pci.msixEn, msixMask := s.pci.msixMask, msix := s.pci.msix,
             configured := s.pci.configured, cfg := s.pci.cfg, aer := s.pci.aer, urSeen := s.pci.urSeen }
    mgt := { fuses := s.mgt.fuses, otp := s.mgt.otp, rec_ := s.mgt.rec_, retained := s.mgt.retained, digest := s.mgt.digest,
             flash := s.mgt.flash, delivered := s.mgt.delivered, life := s.mgt.life, lifeSeq := s.mgt.lifeSeq,
             lifeFlash := s.mgt.lifeFlash, training := s.mgt.training, flashBad := s.mgt.flashBad, sram := s.mgt.keptSram }
    rst := { bkup := s.rst.bkup, resumeEn := s.rst.resumeEn, startLimit := s.rst.startLimit, shortCnt := s.rst.shortCnt,
             gtcAtAssert := s.rst.gtcAtAssert, holdXtal := s.rst.holdXtal, porOn := false, cause := true, pinHold := true,
             held := (List.range 51).map fun i => if isHeld i then funcPin s i else none, pinLow := s.rst.pinLow }
    dru := { doms := s.dru.doms.map fun (d : Dom) => { gen := d.gen }, late := s.dru.late ++ (List.range 16).flatMap (lateOf s) } }

/-- The assertion point of a warm reset (R425): the snapshot, the GTC, DRAM in self-refresh, everything else held in reset. -/
def assertPoint (s : State) : State :=
  let t := heldThrough s
  { t with
    drc := { t.drc with selfRefresh := s.drc.trained || s.drc.selfRefresh }
    mgt := { t.mgt with
      rec_ := some (snapshot s)
      sram := { t.mgt.sram with ce := t.mgt.sram.ce.filter (!snapWord ·), ue := t.mgt.sram.ue.filter (!snapWord ·) } }
    rst := { t.rst with gtcAtAssert := s.clk.gtc, pinLow := true } }

/-- RESET_N has been low for 64 cycles (R424): in a reset it changes only the level of the pin. -/
def resetAssert (s : State) : State :=
  if s.rst.inReset then { s with rst := { s.rst with pinLow := true } } else assertPoint s

/-- RESET_N_ASSERT. -/
def execResetNAssert (s : State) : Host.Outcome State Fault Refusal := .next (resetAssert s)

/-- A low pulse of fewer than 64 cycles (R424; 19, Table 19.8). -/
def shortPulse (s : State) : State :=
  fire { b := bRST, src := 0 } (lifeAdd 480 4 1 { s with rst := { s.rst with shortCnt := satAdd 0xFFFF s.rst.shortCnt 1 } })

/-- RESET_N_SHORT_PULSE. -/
def execResetNShortPulse (s : State) : Host.Outcome State Fault Refusal := run s shortPulse

/-- A supply below its threshold: a cold reset, which only fuses, flash and the pins outlive (R423, R429). -/
def detectorAssert (s : State) : State :=
  { State.reset with
    pending := s.pending, host := s.host, freeSeq := s.freeSeq, runSeq := s.runSeq
    mgt := { fuses := s.mgt.fuses, flash := s.mgt.flash, delivered := s.mgt.delivered, flashBad := s.mgt.flashBad }
    rst := { pinLow := s.rst.pinLow, noXtal := s.rst.noXtal } }

/-- POWER_ON_DETECTOR_ASSERT. -/
def execPowerOnDetectorAssert (s : State) : Host.Outcome State Fault Refusal := .next (detectorAssert s)

/-! ### The boot ROM -/

/-- BKUP0.ATTEMPTS. -/
def attempts (s : State) : Nat := fld (s.rst.bkup.getD 0 0) 7 0

/-- A slot can be booted: at a warm start its digest may stand for the full verification (R433, R447). -/
def slotBoots (s : State) (slot : Nat) : Bool :=
  !s.mgt.flashBad && (verifySlot s slot == 0 || (s.rst.cause && slotDigest s slot == s.mgt.digest))

/-- The boot ROM's choice (R447): the flash as it leaves it, the slot if one boots, TRIAL and FALLBACK. -/
def bootSlot (s : State) (a : Nat) : Mgt × Option Nat × Bool × Bool :=
  let (p0, t0) := bootChoice s.mgt
  let back := t0 && decide (2 ≤ a)
  let m := if back && !s.mgt.flashBad then writeDesc (1 - p0) false s.mgt else s.mgt
  let pref := if back then 1 - p0 else p0
  let trial := t0 && !back
  if slotBoots s pref then (m, some pref, trial, back)
  else if slotBoots s (1 - pref) then (m, some (1 - pref), trial, true)
  else (m, none, trial, false)

/-- The running image's fields (Table 19.13); its body is copied into the SRAM (R446). -/
def bootedMgt (s : State) (m : Mgt) (slot : Nat) (trial fallback : Bool) : Mgt :=
  { m with slot := slot == 1, trial := trial, fallback := fallback, fwVer := slotVer s slot, fwSvn := slotSvn s slot,
           digest := slotDigest s slot, sram := m.sram.store 8 0 (slotBody s slot) }

/-- Minimal Recovery Mode is entered (R436; 19, Table 19.8). -/
def enterMinimal (s : State) : State :=
  lifeAdd 492 4 1 { s with
    rst := { s.rst with minimal := true, phase := 6 }
    dru := { s.dru with doms := s.dru.doms.mapIdx fun d (k : Dom) => if 1 ≤ d ∧ d ≠ dPCI then { k with phase := 6 } else k } }

/-! ### Restored and resumed -/

/-- TIME_CFG restored (R433). -/
def TimeU.restored (t : TimeU) (ws : List Word) (now : Nat) : TimeU :=
  let w := fun i => ws.getD i 0
  let t1 := t.withCtrl (w 0) now
  { t1 with kp := fld (w 1) 15 0, ki := fld (w 1) 31 16, trim := (w 2).toInt, ppsDelay := BitVec.ofNat 16 (fld (w 3) 15 0),
            ppsOutEn := bitAt (w 3) 16, syncOutPer := bitAt (w 3) 17, syncPeriod := (w 4).toNat
            epadj := (List.range 4).map fun i => BitVec.ofNat 64 ((w (5 + 2 * i)).toNat + (w (6 + 2 * i)).toNat * 2 ^ 32) }

/-- GTC and time configuration after a warm start: the firmware writes TIME_STEP and TIME_CFG (R433). -/
def restoreTime (s : State) : State :=
  match s.mgt.rec_ with
  | none => s
  | some r =>
    if s.rst.xtalLost then s
    else
      let g := s.rst.gtcAtAssert + BitVec.ofNat 64 (40 * s.rst.holdXtal.toNat)
      let s1 := timeStep true (hiW g) (timeStep false (loW g) s)
      { s1 with time := s1.time.restored r.timeCfg s1.clk.ns }

/-- The record of the Pattern to resume, if R434's conditions hold. -/
def toResume (s : State) : Option RetRec :=
  match s.mgt.rec_ with
  | none => none
  | some r => if s.rst.resumeEn && (r.patState == 3 || r.patState == 4) && s.rst.srAtRelease then some r else none

/-- The resume check fails (R434, step 2): PATTERN_ID, the CRC of a section or of a referenced block. -/
def resumeBad (t : State) (g : Staged) (id : Word) : Bool :=
  g.id != id || g.crcFail.isSome ||
    (refBlocks t).any fun i => (crc32c (g.m.rdN (blockSrc t g i) 65536)).toNat != itmN t 5 3 i 0

/-- The first tick of a resumed Pattern (R434, step 4). -/
def TimeU.resumed (t : TimeU) (gtc : Gtc) (group : Bool) (r : RetRec) : TimeU :=
  let g := gtc.toNat + 5000000
  if group then
    { t with launch := r.launch, period := r.period
             firstTick := if g ≤ r.launch.toNat then 0 else ceilDiv (g - r.launch.toNat) r.period }
  else { t with launch := BitVec.ofNat 64 (ceilDiv g 5 * 5), firstTick := 0 }

/-- The port a resume aligns on: the lowest-numbered whose IDENT gives the group of the staged image (R434, step 1). -/
def alignPort (t : State) (group : StartIn) : Option Nat :=
  minOf ((group.idents.filter fun x => x.2.1.toNat == groupM1 t && x.2.2 == groupTag t).map fun x => x.1.val)

/-- Measurements until eight in a row lie within 4 ns; whether they have. -/
def alignTo : List Word → State → State × Bool
  | [], s => (s, false)
  | e :: rest, s =>
    let s1 := measure e.toInt s
    if s1.time.last8 fun x => decide (x ≤ 4) then (s1, true) else alignTo rest s1

/-- The Time Unit as a resume aligns it: HARNESS mode, the servo with AUTOSTEP, on a port. -/
def TimeU.aligning (t : TimeU) (p : Nat) : TimeU := { t with mode := 4, servoEn := true, autostep := true, upPort := p, iAcc := 0 }

/-- TIME_CTRL as it was before, after the alignment. -/
def TimeU.afterAlign (t old : TimeU) : TimeU :=
  { t with mode := old.mode, servoEn := old.servoEn, autostep := old.autostep, upPort := old.upPort, iAcc := 0 }

/-- The resume's step 1: the device aligns to its group, or skips that when no port delivers an IDENT of it (R434). Whether the step is
over. -/
def alignGroup (group : StartIn) (s : State) : State × Bool :=
  let t := withItems s (stagedAt s s.glb.patAddr.toNat)
  match (if groupM1 t = 0 then none else alignPort t group) with
  | none => (s, true)
  | some p =>
    let r := alignTo group.offsets { s with time := s.time.aligning p }
    if r.2 then ({ r.1 with time := r.1.time.afterAlign s.time }, true) else (r.1, false)

/-- The resume (R434, steps 2 to 4). -/
def resumeFrom (r : RetRec) (s : State) : State :=
  let g := stagedAt s s.glb.patAddr.toNat
  let t := withItems s g
  if resumeBad t g r.patternId then
    fire { b := bGLB, src := 2 } { s with mgt := { s.mgt with rec_ := some { r with patState := 0xFF } } }
  else
    let s1 := finishLoad { s with glb := { s.glb with patState := 2, patternId := g.id, pat := g.allItems, imgAddr := g.a } }
    if s1.glb.patState = 3 then
      { s1 with time := s1.time.resumed s.clk.gtc (decide (0 < groupM1 s1)) r, rst := { s1.rst with resumed := true } }
    else s1

/-- The resume (R434): while the alignment to the group lasts the start stays in PHASE RESUME. -/
def resume (group : StartIn) (r : RetRec) (s : State) : State :=
  let a := alignGroup group s
  if a.2 then resumeFrom r a.1 else { a.1 with rst := { a.1.rst with phase := 2 } }

/-! ### Out of reset -/

/-- DRAM once it has been trained: zeroed at a cold start, kept in self-refresh across a warm reset; without self-refresh its
content is unspecified (R429, R432, R433). -/
def trainDram (s : State) : State :=
  let mem : Mem :=
    if !s.rst.cause then {} else if s.drc.selfRefresh then s.drc.mem else { fill := .free s.freeSeq }
  let s1 := { s with
    drc := { s.drc with mem := mem, trained := true, selfRefresh := false }
    mgt := { s.mgt with training := true }
    rst := { s.rst with srAtRelease := s.drc.selfRefresh, phase := 3 } }
  if s.rst.cause then bumpFree s1 else s1

/-- A normal start with a slot booted (R432 to R434). -/
def normalStart (group : StartIn) (s : State) : State :=
  let s1 := trainDram s
  if s.rst.cause then
    let s2 := restoreTime s1
    match toResume s2 with
    | some r => resume group r s2
    | none => s2
  else s1

/-- The attempt that this start makes (R431). -/
def countAttempt (a : Nat) (s : State) : State := if 4 ≤ a then s else setAttempts (min 255 (a + 1)) s

/-- The boot ROM's start (R431, R447). -/
def boot (group : StartIn) (s : State) : State :=
  let a := attempts s
  let s1 := countAttempt a { s with rst := { s.rst with attemptsAtStart := a } }
  let s0 := if s1.mgt.flashBad then fire { b := bMGT, src := 8 } s1 else s1
  let s2 := if a ≠ 0 then fire { b := bRST, src := 1 } (lifeAdd 488 4 1 s0) else s0
  if 4 ≤ a then enterMinimal s2
  else
    match bootSlot s2 a with
    | (m, some slot, trial, fallback) => normalStart group { s2 with mgt := bootedMgt s2 m slot trial fallback }
    | (m, none, _, _) => enterMinimal { s2 with mgt := m }

/-- Fuses read, PLLs locked, the lifetime record taken up, generation tags increased at a warm start (R417, R442, R451). -/
def outOfReset (s : State) : State :=
  let s1 := { s with
    rst := { s.rst with inReset := false, releaseAt := 0 }
    time := { s.time with locked := true }
    mgt := lifeStart { s.mgt with otp := s.mgt.fuses }
    dru := { s.dru with doms := s.dru.doms.mapIdx fun d (k : Dom) => if s.rst.cause ∧ 1 ≤ d then { k with gen := (k.gen + 1) % 256 } else k } }
  lifeAdd (if s.rst.cause then 476 else 472) 4 1 s1

/-- The internal release and the start that follows it, which takes no time in the model (DESIGN CHOICE, entry 20). -/
def release (group : StartIn) (s : State) : State := settle (boot group (outOfReset s))

/-- Nothing holds the logic in reset any more: RESET_N is high, the detector released, the XTAL clock there, and every voltage monitor
in its range (R423, R424, R426; 21, R485). -/
def mayStart (s : State) : Bool := s.rst.inReset && !s.rst.pinLow && !s.rst.porOn && !s.rst.noXtal && s.rst.monOut.isEmpty

/-- RESET_N has been high for 64 cycles (R424): the internal release, `hold` XTAL cycles after the assertion point. While something
else holds the reset it changes only the level of the pin. -/
def resetRelease (hold : Word) (group : StartIn) (s : State) : State :=
  if !s.rst.inReset || !s.rst.pinLow then s
  else
    let s1 := { s with rst := { s.rst with pinLow := false } }
    if !mayStart s1 then s1
    else release group (if s.rst.cause then { s1 with rst := { s1.rst with holdXtal := hold } } else s1)

/-- RESET_N_RELEASE. -/
def execResetNRelease (hold : Word) (group : StartIn) (s : State) : Host.Outcome State Fault Refusal :=
  .next (resetRelease hold group s)

/-- The detector releases, 32 or 16 GiB of DRAM being attached, with voltage monitors outside their range or none: the cold start begins
when nothing holds it (R423, R426; 20, R466; 21, R485, R486). -/
def detectorRelease (dram32 : Bool) (out : List (Fin 12)) (s : State) : State :=
  if !s.rst.porOn then s
  else
    let s1 := { s with rst := { s.rst with porOn := false, monOut := out.map Fin.val }, drc := { s.drc with attached := dram32 } }
    if mayStart s1 then release {} s1 else s1

/-- POWER_ON_DETECTOR_RELEASE. -/
def execPowerOnDetectorRelease (dram32 : Bool) (out : List (Fin 12)) (s : State) : Host.Outcome State Fault Refusal :=
  .next (detectorRelease dram32 out s)

/-! ### The XTAL clock -/

/-- No XTAL edge for 10 µs: the device is held in reset (R426). -/
def xtalLoss (s : State) : State :=
  if s.rst.inReset then { s with rst := { s.rst with noXtal := true } }
  else
    let t := heldThrough s
    { t with rst := { t.rst with noXtal := true } }

/-- XTAL_LOSS. -/
def execXtalLoss (s : State) : Host.Outcome State Fault Refusal := .next (xtalLoss s)

/-- The XTAL clock has run for 1,024 cycles: the reset proceeds under R424 (R426). -/
def xtalReturn (group : StartIn) (s : State) : State :=
  if !s.rst.noXtal then s
  else
    let s1 := { s with rst := { s.rst with noXtal := false, xtalLost := true } }
    if mayStart s1 then release group s1 else s1

/-- XTAL_RETURN. -/
def execXtalReturn (group : StartIn) (s : State) : Host.Outcome State Fault Refusal := .next (xtalReturn group s)

/-! ### After the release -/

/-- START_LIMIT milliseconds have passed since the release without READY (R431). -/
def startLimit (s : State) : State :=
  if s.rst.ready || s.rst.late then s
  else
    let s1 := passNs s (s.rst.releaseAt + s.rst.startLimit * 1000000 - s.clk.ns)
    { s1 with rst := { s1.rst with late := true } }

/-- START_LIMIT_EXPIRY. -/
def execStartLimitExpiry (s : State) : Host.Outcome State Fault Refusal := run s startLimit

/-- A write of 1 to RST_CTRL.PIN_HOLD_REL (R428). -/
def pinHoldRel (s : State) : State := { s with rst := { s.rst with pinHold := false } }

/-- PIN_HOLD_REL. -/
def execPinHoldRel (s : State) : Host.Outcome State Fault Refusal := run s pinHoldRel

end Sys2Proof.Machine
end

