-- ==== Sys2Proof/Machine/Monitors.lean ====
section
/-!
DEFINITION. The monitors: memory scrub (08, R211; 10, R272; 19, R439), configuration parity and readback (15, R385), voltage, clock
and temperature (15, R386), the time PLL (11, R299), and the lockstep comparisons (15, R383, R390).
-/
namespace Sys2Proof.Machine

/-! ### Scrub of the on-die memories -/

/-- What the scrub walks in a bank: bytes of its word and words of the bank (Table 8.7; the intake buffers by ECC word). -/
def scrubGeom (m : ScrubMem) : Nat × Nat :=
  match m with
  | .asp _ => (64, 4096)
  | .wbf _ => (64, 8192)
  | .bst _ => (32, 4096)
  | .fst => (256, 12288)
  | .intake => (8, 524288)

/-- Address of word k of a bank: Frame Store banks by address bits [11:8] (R203), the others whole (entry 52). -/
def scrubAddr (m : ScrubMem) (bank k : Nat) : Nat :=
  match m with
  | .fst => (16 * k + bank) * 256
  | _ => ((scrubGeom m).2 * bank + k) * (scrubGeom m).1

/-- Bank of an address. -/
def scrubBank (m : ScrubMem) (a : Nat) : Nat :=
  match m with
  | .fst => a / 256 % 16
  | _ => a / ((scrubGeom m).1 * (scrubGeom m).2)

/-- The memory that holds an address, and the one whose walk the bank's frames count. -/
def scrubMem (s : State) (m : ScrubMem) (a : Nat) : MemId :=
  match m with
  | .asp c => .asp c
  | .wbf c => wbfMem s c a
  | .bst c => .bst c
  | .fst => .fst
  | .intake => .intake

/-- The memory's domain is in service, and its core present. -/
def scrubRuns (s : State) (m : ScrubMem) : Bool :=
  match m with
  | .asp c => present s c && inService s (dCore c)
  | .wbf c => present s c && inService s (dCore c)
  | .bst c => present s c && inService s (dCore c)
  | .fst => inService s dFST
  | .intake => inService s dSIU

/-- Sources of a scrub: block, corrected, uncorrectable (Table 8.8, Table 10.15); a scratchpad word found so fires nothing. -/
def scrubSrcs (m : ScrubMem) : Nat × Nat × Option Nat :=
  match m with
  | .asp c => (bCC c, 0, none)
  | .wbf c => (bCC c, 0, some 2)
  | .bst c => (bCC c, 0, some 3)
  | .fst => (bFST, 0, some 2)
  | .intake => (bSIU, 13, some 14)

/-- What a scrub's fires are attributed to: the core of a core's memory. -/
def scrubWho (m : ScrubMem) : Who :=
  match m with
  | .asp c => .core c
  | .wbf c => .core c
  | .bst c => .core c
  | _ => .none

/-- A running camera frame fails with reason MEMORY (R272). -/
def Cam.spoil (c : Cam) : Cam := if c.discard.isSome || c.err.isSome then c else { c with err := some 9, lines := [] }

/-- A sweep being gathered has used an uncorrectable word. -/
def Sweep.spoil (w : Sweep) : Sweep := if w.capture.isSome && !w.isOver then { w with bad := true } else w

/-- A tile being decoded fails with reason MEMORY. -/
def Tile.spoil (t : Tile) : Tile := if t.err.isSome then t else { t with err := some 9 }

/-- An intake buffer word at byte `a` is uncorrectable: the samples whose data its area holds fail (Table 10.13, in the table's
order, entry 51); of a companding table the mark stays. -/
def spoilIntake (a : Nat) (s : State) : State :=
  let k := a / 1024
  let u := s.siu
  if k < 2048 then { s with siu := { u with cams := u.cams.mapIdx fun n (c : Option Cam) => if n / 4 = k / 256 then c.map Cam.spoil else c } }
  else if k < 2543 then { s with siu := { u with cams := u.cams.map fun (c : Option Cam) => c.map Cam.spoil } }
  else if k < 2560 then { s with siu := { u with buf := { u.buf with ue := addNew u.buf.ue (a / 8) } } }
  else if k < 2816 then { s with siu := { u with sweeps := upd u.sweeps ((k - 2560) / 64) Sweep.spoil } }
  else if k < 3584 then { s with siu := { u with sweeps := u.sweeps.map Sweep.spoil
                                                 flushing := u.flushing.map fun x => (x.1, x.2.spoil) } }
  else { s with siu := { u with tile := u.tile.map Tile.spoil } }

/-- Device cycle of the bank's next cycle 0 in frames counted from the start of the tick (R203): the present cycle, when it is a cycle 0
that the bank has not had yet. -/
def nextFrame (s : State) (m : ScrubMem) (bank : Nat) : Nat :=
  let k := s.clk.cyc - s.clk.tickCyc
  if k % 256 = 0 ∧ (memOf s (scrubMem s m 0)).scrubbed.getD bank 0 ≠ s.clk.cyc + 1 then s.clk.cyc
  else s.clk.tickCyc + 256 * (k / 256 + 1)

/-- The bank has had the cycle 0 of the present cycle. -/
def markFrame (m : ScrubMem) (bank : Nat) (s : State) : State :=
  let id := scrubMem s m 0
  let v := memOf s id
  setMem id { v with scrubbed := putAt 0 v.scrubbed bank (s.clk.cyc + 1) } s

/-- The first corrected word of the bank that waits for its write-back. -/
def pendingWb (s : State) (m : ScrubMem) (bank : Nat) : Option (MemId × Nat) :=
  let ids : List MemId := match m with | .wbf c => [.wbf c, .wbs c] | _ => [scrubMem s m 0]
  ids.findSome? fun i => ((memOf s i).wb.find? fun w => scrubBank m (8 * w) == bank).map fun w => (i, w)

/-- The scrub of one word of a bank: what it corrects or finds, and the walk (R211, R212). `found` is an error of its first ECC word
that no other access has met; errors of its other words are those of the memory. -/
def scrubWord (m : ScrubMem) (bank : Nat) (found : EccFind) (s : State) : State :=
  let walk := scrubMem s m 0
  let k := (memOf s walk).scrubAt.getD bank 0
  let a := scrubAddr m bank k
  let id := scrubMem s m a
  let n := (scrubGeom m).1
  let v := memOf s id
  let ce := found == .ce || v.hasCe 8 a n
  let ue := found == .ue || v.hasUe 8 a n
  let ce' := v.ce.filter fun w => !(eccWords 8 a n).contains w
  let poison := found == .ue && id != .intake
  let s1 := setMem id { v with ce := ce', ue := if poison then addNew v.ue (a / 8) else v.ue } s
  let v1 := memOf s1 walk
  let s2 := setMem walk { v1 with scrubAt := putAt 0 v1.scrubAt bank ((k + 1) % (scrubGeom m).2) } s1
  let s3 := countAccess id false false n (if ue && id == .intake then spoilIntake a s2 else s2)
  let (b, srcCe, srcUe) := scrubSrcs m
  let fires : List Fire := (if ce then [{ b := b, src := srcCe, who := scrubWho m }] else []) ++
    (match srcUe with
    | some u => if ue then [{ b := b, src := u, who := scrubWho m }] else []
    | none => [])
  fireAll fires s3

/-- Cycle 0 of a frame of a bank: a pending write-back, or else one word of the scrub walk (R211). -/
def scrubCycle (m : ScrubMem) (bank : Nat) (found : EccFind) (s : State) : State :=
  if !scrubRuns s m || decide (m.banks ≤ bank) then s
  else
    let s1 := markFrame m bank (passToCyc s (nextFrame s m bank))
    match pendingWb s1 m bank with
    | some (id, w) =>
      let v := memOf s1 id
      countAccess id true false 8 (setMem id { v with wb := v.wb.erase w } s1)
    | none => scrubWord m bank found s1

/-- SCRUB_CYCLE. -/
def execScrubCycle (m : ScrubMem) (bank : Nat) (found : EccFind) (s : State) : Host.Outcome State Fault Refusal :=
  run s (scrubCycle m bank found)

/-! ### Patrol scrub of DRAM -/

/-- The 256-byte runs of 1 KiB block k of a channel (R207). -/
def patrolRuns (ch k : Nat) : List Nat := (List.range 4).map fun j => (4 * k + j) * 2048 + ch * 256

/-- GTC counts until the channel's next slot, a multiple of 4 µs: none, when the present count is one that it has not had yet (R211). -/
def patrolWait (s : State) (ch : Nat) : Nat :=
  let r := s.clk.gtc.toNat % 4000
  if r = 0 ∧ s.drc.patrolAt.getD ch none ≠ some s.clk.gtc then 0 else 4000 - r

/-- The patrol scrub of a channel's next block, in its next slot (R211). -/
def patrolScrub (ch : Nat) (found : EccFind) (s : State) : State :=
  if !dramUp s then s
  else
    let s1 := passNs s (patrolWait s ch)
    let k := s1.drc.patrol.getD ch 0
    let runs := patrolRuns ch k
    let v := s1.drc.mem
    let ce := found == .ce || runs.any fun a => v.hasCe 64 a 256
    let ue := found == .ue || runs.any fun a => v.hasUe 64 a 256
    let first := (k * 4 * 2048 + ch * 256) / 64
    let v1 := { v with
      ce := v.ce.filter fun w => !(runs.any fun a => (eccWords 64 a 256).contains w)
      ue := if found == .ue then addNew v.ue first else v.ue }
    let s2 := { s1 with drc := { s1.drc with mem := v1, patrol := putAt 0 s1.drc.patrol ch ((k + 1) % (dramU s1 / 8192)),
                                              patrolAt := putAt none s1.drc.patrolAt ch (some s1.clk.gtc) } }
    fireAll ((if ce then [({ b := bDRC, src := 0 } : Fire)] else []) ++ (if ue then [({ b := bDRC, src := 2 } : Fire)] else []))
      (countAccess .dram false false 1024 s2)

/-- DRAM_PATROL_SCRUB. -/
def execDramPatrolScrub (ch : Fin 8) (found : EccFind) (s : State) : Host.Outcome State Fault Refusal :=
  run s (patrolScrub ch found)

/-- The scrub of a word of the management SRAM (19, R439). -/
def mgtScrub (word : Nat) (found : EccFind) (s : State) : State :=
  let v := s.mgt.sram
  if found == .ue || v.ue.contains word then
    fire { b := bMGT, src := 7 } { s with mgt := { s.mgt with sram := { v with ue := addNew v.ue word } } }
  else if found == .ce || v.ce.contains word then
    fire { b := bMGT, src := 6 } { s with mgt := { s.mgt with sram := { v with ce := v.ce.filter (· != word) } } }
  else s

/-- MGT_SRAM_SCRUB. -/
def execMgtSramScrub (word : Nat) (found : EccFind) (s : State) : Host.Outcome State Fault Refusal :=
  if word < 131072 then run s (mgtScrub word found) else .fault (.illFormed "MGT_SRAM_SCRUB word")

/-! ### Configuration -/

/-- The sweep checks every register, and those it finds are found (R385). -/
def paritySweep (bad : Bool) (s : State) : State :=
  if bad || !s.glb.badRegs.isEmpty then fire { b := bGLB, src := 4 } { s with glb := { s.glb with badRegs := [] } } else s

/-- CFG_PARITY_SWEEP: a difference raises GLB_CFG_PARITY (R385). -/
def execCfgParitySweep (bad : Bool) (s : State) : Host.Outcome State Fault Refusal := run s (paritySweep bad)

/-- BAR0 offsets of a block's severities and floors. -/
def sevOffsets (b : Nat) : List Nat :=
  (List.range 7).map (fun w => fltBase b + 0x20 + 4 * w) ++ (List.range 7).map fun w => fltBase b + 0x40 + 4 * w

/-- BAR0 offsets of the tunable fields (13, R340). -/
def tunableOffsets : List Nat := [0x200104, 0x200108] ++ (List.range 384).map (0x401000 + 4 * ·)

/-- BAR0 offsets of the registers that activation loads (R337, R385). -/
def mirrorOffsets : List Nat :=
  tunableOffsets ++ [0x100150, 0x100154, 0x100158] ++ (List.range 32).map (0x100200 + 4 * ·) ++ (List.range 4).map (0x200110 + 4 * ·) ++
    [0x580100] ++ (List.range 16).map (0x580120 + 4 * ·) ++ (List.range 36).flatMap sevOffsets

/-- The state whose mirrors hold what the staged image gives. -/
def mirrorState (s : State) : State :=
  let t := withItems s (usedImage s)
  { t with
    time := { t.time.loaded t with firstTick := s.time.firstTick }
    disp := t.disp.loaded t
    kfs := t.kfs.config t
    flt := t.flt.mapIdx fun b (f : FltBlock) => fltLoaded t b f
    siu := t.siu.loaded t }

/-- The lowest offset of a mirror that differs from the staged image, or for a tunable field that software has written since
activation, from what it wrote (DEDUCED, entry 41); the register at `upset` holds a changed value. -/
def mirrorDiff (s : State) (upset : Option Nat) : Option Nat :=
  let t := mirrorState s
  minOf (mirrorOffsets.filter fun o =>
    (if s.glb.tuned.contains o then readReg s o else readReg t o) != (if upset = some o then ~~~(readReg s o) else readReg s o))

/-- READBACK_TICKS (15, Table 15.6). -/
def readbackTicks (s : State) : Nat := itmN s 8 0x21 0 1

/-- The readback of the management firmware after the latest settle point, every READBACK_TICKS ticks (R385). -/
def cfgReadback (upset : Option Nat) (s : State) : State :=
  if !patActive s || !dramUp s || decide (s.time.tick + 1 < s.glb.readbackAt + readbackTicks s) then s
  else
    let s0 := passToOff s (maxN ((List.range 4).map (settleNs s)))
    let s1 := { s0 with glb := { s0.glb with readbackAt := s0.time.tick + 1 } }
    match mirrorDiff s1 upset with
    | some o => fire { b := bMGT, src := 5, det := BitVec.ofNat 32 o } s1
    | none => s1

/-- CFG_READBACK. -/
def execCfgReadback (upset : Option (BitVec 26)) (s : State) : Host.Outcome State Fault Refusal :=
  run s (cfgReadback (upset.map BitVec.toNat))

/-! ### Environment -/

/-- Set point of a voltage monitor in mV (21, Table 21.6). -/
def setPoint (s : State) (m : Nat) : Nat :=
  if m ≤ 4 then s.time.vddCore else ([800, 800, 1800, 1050, 500, 900, 1200] : List Nat).getD (m - 5) 800

/-- A reading lies within ±8 % of its set point. -/
def inVolts (s : State) (m : Nat) (r : Word) : Bool :=
  let v := fld r 15 0
  !bitAt r 31 || (decide (92 * setPoint s m ≤ 100 * v) && decide (100 * v ≤ 108 * setPoint s m))

/-- A reading of a voltage monitor that has lasted 1 µs (R386). -/
def voltage (m : Nat) (mv : BitVec 16) (s : State) : State :=
  let r : Word := BitVec.ofNat 32 (2 ^ 31 + mv.toNat)
  let s1 := { s with mgt := { s.mgt with vmon := putAt 0 s.mgt.vmon m r } }
  if !inVolts s m r then onset { b := bMGT, src := 2, det := BitVec.ofNat 32 m } s1
  else if (List.range 12).all fun i => inVolts s1 i (s1.mgt.vmon.getD i 0) then causeEnds bMGT 2 s1
  else s1

/-- A reading while the boot ROM waits for the monitors (21, R485, R486): the cold start begins with the last of them in range. A
reading still outside stands for the 50 ms after the detector's release (DESIGN CHOICE, entry 74): MGT_VMON, before any start. -/
def bootVoltage (m : Nat) (mv : BitVec 16) (s : State) : State :=
  if s.rst.monOut.isEmpty then s
  else
    let r : Word := BitVec.ofNat 32 (2 ^ 31 + mv.toNat)
    let s1 := { s with mgt := { s.mgt with vmon := putAt 0 s.mgt.vmon m r } }
    if inVolts s m r then
      let s2 := { s1 with rst := { s1.rst with monOut := s1.rst.monOut.filter (· != m) } }
      if mayStart s2 then release {} s2 else s2
    else
      let s2 := { s1 with rst := { s1.rst with monOut := [] } }
      if mayStart s2 then settle (onset { b := bMGT, src := 2, det := BitVec.ofNat 32 m } (outOfReset s2)) else s1

/-- VOLTAGE_MONITOR_TRIP. -/
def execVoltageMonitorTrip (m : Fin 12) (mv : BitVec 16) (s : State) : Host.Outcome State Fault Refusal :=
  if s.rst.inReset then .next (bootVoltage m mv s) else run s (voltage m mv)

/-- CLOCK_MONITOR_TRIP: MGT_CLK_LOSS, whose cause ends when the clocks are within 1 % again (R386; 16, Table 16.9). -/
def execClockMonitorTrip (good : Bool) (s : State) : Host.Outcome State Fault Refusal :=
  run s (if good then causeEnds bMGT 1 else onset { b := bMGT, src := 1 })

/-- Some sensor has read at least `t` in the last sample and in this one. -/
def reached (old new : List Word) (t : Int) : Bool :=
  (List.range 24).any fun i =>
    let a := old.getD i 0
    let b := new.getD i 0
    bitAt a 31 && decide (t ≤ signedOf 16 a.toNat) && decide (t ≤ signedOf 16 b.toNat)

/-- Every sensor reads below `t`. -/
def allBelow (new : List Word) (t : Int) : Bool := new.all fun b => decide (signedOf 16 b.toNat < t)

/-- A sample of the temperature sensors, at the next point of its 50 µs grid (R386). -/
def temperature (vals : List (BitVec 16)) (s : State) : State :=
  let s1 := passNs s (50000 - (s.clk.ns - s.rst.releaseAt) % 50000)
  let old := s1.mgt.temps
  let new : List Word := vals.map fun v => BitVec.ofNat 32 (2 ^ 31 + v.toNat)
  let s2 := { s1 with mgt := { s1.mgt with temps := new } }
  let s3 := if reached old new 1840 then onset { b := bMGT, src := 3 } s2
    else if allBelow new 1760 then causeEnds bMGT 3 s2 else s2
  if reached old new 2000 then onset { b := bMGT, src := 4 } s3
  else if allBelow new 2000 then causeEnds bMGT 4 s3 else s3

/-- TEMPERATURE_SAMPLE. -/
def execTemperatureSample (vals : List (BitVec 16)) (s : State) : Host.Outcome State Fault Refusal :=
  if vals.length = 24 then run s (temperature vals) else .fault (.illFormed "TEMPERATURE_SAMPLE readings")

/-- The time PLL loses its lock, or has locked again, which ends the cause (11, R299; 16, Table 16.9). -/
def pllLock (locked : Bool) (s : State) : State :=
  let s1 := { s with time := { s.time with locked := locked } }
  if locked then causeEnds bTIME 0 s1 else onset { b := bTIME, src := 0 } s1

/-- PLL_UNLOCK. -/
def execPllUnlock (locked : Bool) (s : State) : Host.Outcome State Fault Refusal := run s (pllLock locked)

/-! ### Lockstep -/

/-- The two Scalar Sequencer copies of core c differ (R383): its swatch fails, or its command is ended without a replay. -/
def lockstep (c : Nat) (s : State) : State :=
  let k := (coreAt s c).st
  if !present s c || !inService s (dCore c) then s
  else match k.swatchAt with
  | some t => swatchFailed c 2 [{ b := bCC c, src := 10, who := .core c }] (swatchOver c (s.clk.cyc - t) s)
  | none =>
    let s1 := fire { b := bCC c, src := 10, who := whoOn s c } s
    match k.run with
    | some r => endRun c 0x40 0 (if r.lc then voidParts [r.part] s1 else s1)
    | none => s1

/-- SEQ_LOCKSTEP_DIFF. -/
def execSeqLockstepDiff (c : CoreId) (s : State) : Host.Outcome State Fault Refusal := run s (lockstep c)

/-- MGT_LOCKSTEP_DIFF (R390). -/
def execMgtLockstepDiff (s : State) : Host.Outcome State Fault Refusal := run s (fire { b := bMGT, src := 0 })

end Sys2Proof.Machine
end

