-- ==== Sys2Proof/Machine/Peers.lean ====
section
/-!
DEFINITION. The side channel of a group (14, R360 to R362): the acknowledgement, forwarding and resending of SIDE ordered sets, and
what the device does on each kind (17, R418 to R420, Table 17.4).
-/
namespace Sys2Proof.Machine

/-! ### Hops -/

/-- A SIDE_ACK for a SIDE (14, Table 14.5). -/
def ackBody (body : BitVec 128) : BitVec 128 := BitVec.ofNat 128 (0x04 + fld body 10 8 * 2 ^ 8 + fld body 63 48 * 2 ^ 16)

/-- A SIDE_ACK ends the resending of its SIDE on the hop (R361). -/
def sideAckIn (p origin mseq : Nat) (s : State) : State :=
  if portUp s p then
    modPort s p fun k => { k with sides := k.sides.filter fun x => fld x.body 10 8 != origin || fld x.body 63 48 != mseq }
  else s

/-- SIDE_ACK. -/
def execSideAck (port : Fin 4) (origin : Fin 8) (mseq : BitVec 16) (s : State) : Host.Outcome State Fault Refusal :=
  run s (sideAckIn port origin mseq.toNat)

/-- A SIDE without its SIDE_ACK after 500 ns is sent again; after 8 such resends the port raises HRNn_SIDE_ERR and retrains
(R361). -/
def sideTimeout (p : Nat) (s : State) : State :=
  if !portUp s p then s
  else match (portAt s p).sides with
  | [] => s
  | x :: rest =>
    let s1 := passNs s (x.sentAt + 500 - s.clk.ns)
    if 8 ≤ x.resends then
      fire { b := bHRN p, src := 8 } (retrain p (modPort s1 p fun k => { k with sides := { x with resends := 0 } :: rest }))
    else
      slot15 p [x.body] (modPort s1 p fun k => { k with sides := rest ++ [{ x with sentAt := s1.clk.ns, resends := x.resends + 1 }] })

/-- SIDE_RESEND_TIMEOUT. -/
def execSideResendTimeout (port : Fin 4) (s : State) : Host.Outcome State Fault Refusal := run s (sideTimeout port)

/-- A SIDE is forwarded (R361): by the lead to every other port, FROM_LEAD set; a flooded one by every other device; one on its
way to the lead along the route to it. -/
def forwardSide (p : Nat) (body : BitVec 128) (s : State) : State :=
  let others := (upPorts s).filter (· != p)
  if bitAt body 15 then (if isLead s then s else others.foldl (fun s q => pushSide body q s) s)
  else if isLead s then others.foldl (fun s q => pushSide (setFromLead body) q s) s
  else
    match routeTo s (leadId s) with
    | some q => if others.contains q then pushSide body q s else s
    | none => s

/-! ### What the device does (Table 17.4) -/

/-- Peer x becomes fenced: requests outstanding to it are answered with DENY (17, R420). -/
def fencePeer (x : Nat) (f : Peer → Peer) (s : State) : State :=
  (peerAt s x).out.foldl (fun s q => denyReq x q s) (modPeer s x f)

/-- The tick's settle point has passed for partition p. -/
def settledAt (s : State) (p k : Nat) : Bool := decide (k < s.time.tick) || (k == s.time.tick && decide (settleNs s p < offNs s))

/-- The partitions of peer x's DEP become void for tick k or k + 1, as its placement says; for the next open tick where that
one has settled (17, R419). -/
def depVoid (x k : Nat) (s : State) : State :=
  if !patActive s then s
  else
    let (ps, next) := depOf s x
    let t := if next then k + 1 else k
    voidAt (ps.map fun p => (p, if settledAt s p t then voidTick s p else t)) s

/-- Domains whose fence fences the whole peer: D_FST and D_DRC. -/
def fencing (d : Nat) : Bool := d == dFST || d == dDRC

/-- The action of a SIDE of peer x by its kind. -/
def sideAct (kind x dom tick : Nat) (s : State) : State :=
  match kind with
  | 1 => if fencing dom then fencePeer x (fun p => { p with fences := addNew p.fences dom }) s else s
  | 2 => modPeer s x fun p => { p with fences := p.fences.filter (· != dom) }
  | 3 => depVoid x tick s
  | 4 => fencePeer x (fun p => { p with inSafe := true }) (depVoid x tick s)
  | 5 => modPeer s x fun p => { p with fences := [], inSafe := false }
  | _ => s

/-- What the group map keeps of a SIDE (14, R362; 19, Table 19.6). -/
def Peer.heard (p : Peer) (kind dom gen mseq : Nat) : Peer :=
  let q := { p with known := true, lastKind := kind, lastMseq := mseq, ready := p.ready || kind == 5 }
  if (kind = 1 ∨ kind = 2) ∧ 1 ≤ dom ∧ dom ≤ 24 then
    { q with gens := putAt 0 q.gens dom gen, fenced := putBit q.fenced dom (kind == 1) }
  else q

/-- A SIDE arrives (R360, R361): discarded when its CRC is bad, acknowledged, discarded when its KIND is reserved (Table 14.7), dropped
when seen before, else logged by the lead, forwarded and acted on. -/
def sideIn (p kind : Nat) (body : BitVec 128) (s : State) : State :=
  if !portUp s p || !sideGood body || fld body 7 0 != 3 then s
  else if fld body 23 16 = 0 ∨ 6 ≤ fld body 23 16 then slot15 p [ackBody body] s
  else if fld body 23 16 ≠ kind then s
  else
    let x := fld body 10 8
    let m := fld body 63 48
    let s1 := slot15 p [ackBody body] s
    if s1.hrn.seen.contains (x, m) then s1
    else
      let s2 := logSide body { s1 with hrn := { s1.hrn with seen := markSeen x m s1.hrn.seen } }
      let s3 := modPeer s2 x fun k => k.heard kind (fld body 31 24) (fld body 39 32) m
      let s4 := forwardSide p body s3
      if x = devId s then s4 else sideAct kind x (fld body 31 24) (fld body 111 64) s4

/-- DOMAIN_FENCE. -/
def execDomainFence (port : Fin 4) (body : BitVec 128) (s : State) : Host.Outcome State Fault Refusal := run s (sideIn port 1 body)

/-- DOMAIN_UP. -/
def execDomainUp (port : Fin 4) (body : BitVec 128) (s : State) : Host.Outcome State Fault Refusal := run s (sideIn port 2 body)

/-- PART_VOID. -/
def execPartVoid (port : Fin 4) (body : BitVec 128) (s : State) : Host.Outcome State Fault Refusal := run s (sideIn port 3 body)

/-- DEVICE_SAFE. -/
def execDeviceSafe (port : Fin 4) (body : BitVec 128) (s : State) : Host.Outcome State Fault Refusal := run s (sideIn port 4 body)

/-- DEVICE_READY. -/
def execDeviceReady (port : Fin 4) (body : BitVec 128) (s : State) : Host.Outcome State Fault Refusal := run s (sideIn port 5 body)

end Sys2Proof.Machine
end

