-- ==== Sys2Proof/Machine/RegWrite.lean ====
section
/-!
DEFINITION. A write of any BAR0 register (00, R11 to R13; 13, R341; 20, R467, R473, R474): it goes to the rule of the register, or
acts by the access codes of its fields. A register not named here is read-only or reserved, and a write of it does nothing.
-/
namespace Sys2Proof.Machine

/-- A 64-bit register with one word replaced. -/
def withHalf {w : Nat} (x : BitVec w) (hi : Bool) (v : Word) : BitVec w := putBits x (if hi then 32 else 0) 32 v.toNat

/-- A write of a structural field while a Pattern is active is live: it raises GLB_CFG_LIVE_WRITE and does nothing else (R341). -/
def unlessLive (o : Nat) (f : State → State) (s : State) : State := if patLive s then liveWrite o s else f s

/-! ### GLB -/

/-- GLB_PAT_CTRL: LOAD, then UNLOAD (Table 13.5). -/
def patCtrlWrite (v : Word) (s : State) : State :=
  let s1 := if bitAt v 0 then loadWrite s else s
  if bitAt v 1 then unloadWrite s1 else s1

/-- GLB_PAT_REQ after a write: PERF 3 is reserved. -/
def patReqOf (old : BitVec 4) (v : Word) : BitVec 4 :=
  let x : BitVec 4 := BitVec.ofNat 4 (fld v 3 0)
  if fld v 1 0 = 3 then putBits x 0 2 (fld old 1 0) else x

def writeGlb (r : Nat) (v : Word) (s : State) : State :=
  match r with
  | 0x118 => { s with glb := { s.glb with irqEn := BitVec.ofNat 11 (fld v 10 0) } }
  | 0x200 => unlessLive r (fun s => { s with glb := { s.glb with patAddr := putBits (withHalf s.glb.patAddr false v) 0 8 0 } }) s
  | 0x204 => unlessLive r (fun s => { s with glb := { s.glb with patAddr := withHalf s.glb.patAddr true v } }) s
  | 0x208 => unlessLive r (fun s => { s with glb := { s.glb with patReq := patReqOf s.glb.patReq v } }) s
  | 0x20C => patCtrlWrite v s
  | _ => s

/-! ### TIME -/

/-- Fields of TIME registers that a write takes at once (11, Tables 11.9 to 11.11). -/
def TimeU.writeReg (t : TimeU) (r : Nat) (v : Word) (now : Nat) : TimeU :=
  match r with
  | 0x108 => t.withCtrl v now
  | 0x10C => t.withTrim v
  | 0x110 => { t with kp := fld v 15 0, ki := fld v 31 16 }
  | 0x130 => { t with ppsDelay := BitVec.ofNat 16 (fld v 15 0), ppsOutEn := bitAt v 16, syncOutPer := bitAt v 17 }
  | 0x134 => if v.toNat < 1000 then t else { t with syncPeriod := v.toNat }
  | 0x138 => { t with syncOutAt := withHalf t.syncOutAt false v }
  | 0x13C => { t with syncOutAt := withHalf t.syncOutAt true v }
  | _ =>
    match regIdx r 0x160 4 8 with
    | some i => { t with epadj := upd t.epadj (i / 2) fun x => withHalf x (i % 2 == 1) v }
    | none => t

/-- The TICKPLAN mirrors: TIME_LAUNCH, TIME_PERIOD and TIME_STAGEn (R284, R341). -/
def isMirror (r : Nat) : Bool := r == 0x150 || r == 0x154 || r == 0x158 || (regIdx r 0x200 4 32).isSome

def writeTime (r : Nat) (v : Word) (s : State) : State :=
  if r = 0x114 then offsetIn v s
  else if r = 0x118 then timeStep false v s
  else if r = 0x11C then timeStep true v s
  else if isMirror r then unlessLive (0x100000 + r) id s
  else { s with time := s.time.writeReg r v s.clk.ns }

/-! ### MGT -/

/-- A write that a running command turns away (19, R449). -/
def mbxWrite (f : Mgt → Mgt) (s : State) : State :=
  { s with mgt := if s.mgt.busy then { s.mgt with overrun := true } else f s.mgt }

/-- MGT_MBX_DOORBELL: RING starts the command whose code MGT_MBX_CMD holds. -/
def doorbell (v : Word) (s : State) : State := if bitAt v 0 then ring s else s

def writeMgt (r : Nat) (v : Word) (s : State) : State :=
  match r with
  | 0x100 => mbxWrite (fun m => { m with cmd := v &&& 0xFFFF00FF }) s
  | 0x114 => doorbell v s
  | 0x118 => { s with mgt := { s.mgt with overrun := s.mgt.overrun && !bitAt v 2, done := s.mgt.done && !bitAt v 1 } }
  | _ =>
    match regIdx r 0x104 4 4 with
    | some i => mbxWrite (fun m => { m with args := putAt 0 m.args i v }) s
    | none =>
      if 0x1000 ≤ r ∧ r < 0x2000 then mbxWrite (fun m => { m with buf := m.buf.wrN (r - 0x1000) (leBytes 4 v.toNat) }) s else s

/-! ### RST, OBS, DRU -/

def writeRst (r : Nat) (v : Word) (s : State) : State :=
  match r with
  | 0x104 =>
    let s1 := { s with rst := { s.rst with resumeEn := bitAt v 1 } }
    if bitAt v 0 then pinHoldRel s1 else s1
  | 0x108 => { s with rst := { s.rst with startLimit := inRange 100 60000 s.rst.startLimit (fld v 15 0) } }
  | _ =>
    match regIdx r 0x200 4 16 with
    | some i => { s with rst := { s.rst with bkup := putAt 0 s.rst.bkup i v } }
    | none => s

/-- OBS_TRACE_CTRL and OBS_TRACE_DEST; in FIELD the bundle trace and the pins are not to be had (19, R443, R457). -/
def Obs.writeReg (o : Obs) (field : Bool) (r : Nat) (v : Word) : Obs :=
  if r = 0x100 then
    { o with typeEn := BitVec.ofNat 16 (fld v 15 1 * 2), bundleCores := if field then o.bundleCores else BitVec.ofNat 16 (fld v 31 16) }
  else if r = 0x104 then { o with ring := bitAt v 0, pins := if field then o.pins else bitAt v 1 }
  else o

def writeObs (r : Nat) (v : Word) (s : State) : State := { s with obs := s.obs.writeReg (lifecycle s == 2) r v }

def writeDru (r : Nat) (v : Word) (s : State) : State :=
  if r = 0x100 then hbWrite v s else if r = 0x108 then restartWrite v s else s

/-! ### MSI-X and fault registers -/

/-- A word of an MSI-X table entry. PRESUMED PCI Express layout, entry 33. -/
def MsixEnt.write (e : MsixEnt) (w : Nat) (v : Word) : MsixEnt :=
  match w with
  | 0 => { e with addr := putBits (withHalf e.addr false v) 0 2 0 }
  | 4 => { e with addr := withHalf e.addr true v }
  | 8 => { e with data := v }
  | _ => { e with mask := bitAt v 0 }

/-- A vector's entry written; a message that waited for it is sent. -/
def writeMsix (r : Nat) (v : Word) (s : State) : State :=
  if 0x2000 ≤ r then s
  else flushVecs { s with pci := { s.pci with msix := assocPut s.pci.msix (r / 16) ((msixAt s (r / 16)).write (r % 16) v) } }

/-- A register of a fault register set (16, Table 16.2). -/
def writeFlt (b r : Nat) (v : Word) (s : State) : State :=
  if r = 0 then statWrite b false v s
  else if r = 4 then statWrite b true v s
  else if r = 8 then forceWrite b false v s
  else if r = 0xC then forceWrite b true v s
  else match regIdx r 0x20 4 7 with
  | some w => sevWrite b w v s
  | none => s

/-! ### The whole map -/

/-- A write of the register at a BAR0 offset. -/
def writeReg (o : Nat) (v : Word) (s0 : State) : State :=
  let s := freshReg o s0
  match fltBlockOf o with
  | some (b, r) => writeFlt b r v s
  | none =>
    if 0x3000000 ≤ o then writeMsix (o - 0x3000000) v s
    else if 0x1000000 ≤ o then (if o % 0x100000 = 0x128 then injWrite ((o - 0x1000000) / 0x100000) v s else s)
    else if (ringRegAt o).isSome then ringWriteReg o v s
    else if (subRegAt o).isSome then subWriteReg o v s
    else
      match o / 0x100000 with
      | 0 => writeGlb o v s
      | 1 => writeTime (o - 0x100000) v s
      | 2 => rwsWrite o v s
      | 3 => writeDru (o - 0x300000) v s
      | 4 => rwsWrite o v s
      | 5 => if o = 0x580108 ∧ bitAt v 0 then flushWrite s else s
      | 8 => writeMgt (o - 0x800000) v s
      | 9 => writeRst (o - 0x900000) v s
      | 10 => writeObs (o - 0xA00000) v s
      | _ => s

/-- Registers written in ascending order (R467). -/
def writeRegs (o : Nat) : List Word → State → State
  | [], s => s
  | v :: vs, s => writeRegs (o + 4) vs (writeReg o v s)

/-- A write of BAR0 by the host (R464, R467), or by the management processor, which needs no link. -/
def regWrite (mgt : Bool) (o : Nat) (vs : List Word) (full : Bool) (s : State) : State :=
  if mgt then (if accepts o vs.length full then writeRegs o vs s else s)
  else if !hostReaches s then s
  else if !barsOn s || !accepts o vs.length full then postedUr s
  else writeRegs o vs s

/-- REGISTER_WRITE. -/
def execRegisterWrite (mgt : Bool) (off : BitVec 26) (vs : List Word) (full : Bool) (s : State) : Host.Outcome State Fault Refusal :=
  run s (regWrite mgt off.toNat vs full)

end Sys2Proof.Machine
end

