-- ==== Sys2Proof/Machine/Requests.lean ====
section
/-!
DEFINITION. Requests of a core to the Region Samplers and to the Keyed Feature Store: their issue (05, R124, R134; 09, R223,
R234), and how the units start, pause and complete them (05, R135 to R138; 09, R234, R235; 15, R383).
-/
namespace Sys2Proof.Machine

/-! ### Issue -/

/-- A SAMPLE may issue while its unit has a place (R134). -/
def sampleReady (c : Nat) (req : BitVec 3) (s : State) (_e : QEnt) : Option Nat :=
  let x := ctxOf s c
  if (rsmpAt s (reqOf (reqRec x.img x.hdr req.toNat)).unit).depth < 16 then some 0 else none

/-- A SAMPLE issues: its request joins its unit's queue (R124, R134). -/
def sampleAct (c : Nat) (req : BitVec 3) (token : BitVec 4) (e : QEnt) (s : State) : State :=
  let x := ctxOf s c
  let u := reqRec x.img x.hdr req.toNat
  let q := reqOf u
  let r := (coreAt s c).st.run
  let sr : SReq := { core := c, run := (r.map Run.id).getD 0, lc := runLc s c, stage := (r.map Run.stage).getD 0, seq := e.seq,
                     bundle := e.bundle, token := token.toNat, at_ := s.clk.cyc, req := u,
                     srcs := (List.range q.srcCnt).map fun i => srcRec x.img x.hdr (q.srcFirst + i) }
  orFenced c [(1, 0)] (fun s =>
    addInfl c .load e.seq none (modRsmp s q.unit fun k => { k with queue := joinQueue SReq.at_ SReq.core sr k.queue })) s

/-- SAMPLE (R124, 07 R185). -/
def execSample (c : CoreId) (req : BitVec 3) (token : BitVec 4) (s : State) : Host.Outcome State Fault Refusal :=
  run s (issue c .load (wordSample req token) (sampleReady c req) (sampleAct c req token))

/-- A keyed operation may issue while the store has a place; a scatter also waits so that it writes nothing while a check is
pending (R234; 15, R371). Its first lookup comes 16 cycles after it starts. -/
def keyedReady (c : Nat) (store : Bool) (s : State) (e : QEnt) : Option Nat :=
  if s.kfs.depth < 16 then
    (if store then some (holdPast (coreAt s c).mx.checks (baseCycle s c .store e + 16) - 16) else some 0)
  else none

/-- A keyed operation issues: its request joins the keyed queue (R223, R234). -/
def keyedAct (c : Nat) (q : QId) (kdesc : BitVec 13) (token : BitVec 4) (e : QEnt) (s : State) : State :=
  let r := (coreAt s c).st.run
  let kr : KReq := { core := c, run := (r.map Run.id).getD 0, seq := e.seq, bundle := e.bundle, token := token.toNat,
                     at_ := s.clk.cyc, desc := (ctxOf s c).par kdesc.toNat }
  orFenced c [(1, 0), (2, 0)] (fun s => addInfl c q e.seq none { s with kfs := { s.kfs with queue := joinQueue KReq.at_ KReq.core kr s.kfs.queue } }) s

/-- KGATHER (R223). -/
def execKgather (c : CoreId) (kdesc : BitVec 13) (token : BitVec 4) (s : State) : Host.Outcome State Fault Refusal :=
  run s (issue c .load (wordKeyed 6 kdesc token) (keyedReady c false) (keyedAct c .load kdesc token))

/-- KSCATTER (R223). -/
def execKscatter (c : CoreId) (kdesc : BitVec 13) (token : BitVec 4) (s : State) : Host.Outcome State Fault Refusal :=
  run s (issue c .store (wordKeyed 2 kdesc token) (keyedReady c true) (keyedAct c .store kdesc token))

/-! ### Region Samplers -/

/-- The next request of a unit now: in an open reservation only its stage's, shortly before one no best-effort request,
otherwise the paused one, then the oldest (R134, R137). The flag says that it is the paused one. -/
def nextSample (s : State) (u : Nat) : Option (SReq × Bool) :=
  let k := rsmpAt s u
  match reservation s u with
  | some (st, g) =>
    (if g.openNs ≤ offNs s then k.queue.find? fun r => r.lc && r.stage == st else k.queue.find? SReq.lc).map fun r => (r, false)
  | none =>
    match k.paused with
    | some r => some (r, true)
    | none => k.queue.head?.map fun r => (r, false)

/-- Unit u starts its next request, or resumes a paused one, at the first cycle it is free (R135, R137). -/
def sampleStart (u : Nat) (s : State) : State :=
  if (rsmpAt s u).serving.isSome || !inService s dFST || s.glb.safe then s
  else
    let s1 := passToCyc s (rsmpAt s u).freeAt
    match nextSample s1 u with
    | none => s
    | some (r, resumed) =>
      let t := s1.clk.cyc
      if resumed then modRsmp s1 u fun k => { k with paused := none, serving := some { r with start := t - r.start } }
      else modRsmp s1 u fun k => { k with queue := k.queue.erase r, serving := some { r with start := t } }

/-- SAMPLE_REQUEST_START. -/
def execSampleRequestStart (u : Fin 4) (s : State) : Host.Outcome State Fault Refusal := run s (sampleStart u)

/-- The entry of a request completes, if its command still runs. -/
def requestOver (q : QId) (c runId seq bundle token : Nat) (s : State) : State :=
  match (coreAt s c).st.run with
  | some k => if k.id = runId then completeEntry c q seq bundle token (commit c s.clk.cyc s) else s
  | none => s

/-- Unit u is free again after the request it served; RSMPn_OUTSIDE counts that of a request that has completed (R139). -/
def sampleFree (u : Nat) (r : SReq) (completed : Bool) (s : State) : State :=
  modRsmp s u fun k => { k with serving := none, freeAt := s.clk.cyc + 1, outside := if completed then r.outside else k.outside }

/-- The request that unit u serves ends: with its last output, or at the position where the two copies differ (R135, R138; 15,
R383). Nothing happens when a reservation pauses it before. -/
def sampleDone (u : Nat) (diff : Option Nat) (s : State) : State :=
  match (rsmpAt s u).serving with
  | none => s
  | some r =>
    let q := reqOf r.req
    let stop := diff.filter fun g => decide (r.done ≤ g) && decide (g < q.total)
    let s1 := passToCyc s (match stop with | some g => r.start + q.cycleOf g | none => r.start + q.occupancy - 1)
    if !r.lc && (reservation s1 u).isSome then s
    else
      let (s2, r2) := samplePositions u (stop.getD q.total) s1 ((rsmpAt s1 u).serving.getD r)
      let s3 := sampleFree u r2 stop.isNone s2
      let s4 := match stop with
        | some _ => consumed (r.agent s3) (fire { b := bRSMP u, src := 1, who := agentWho s3 (r.agent s3) } s3)
        | none => s3
      requestOver .load r.core r.run r.seq r.bundle r.token s4

/-- SAMPLE_REQUEST_DONE. -/
def execSampleRequestDone (u : Fin 4) (diff : Option Nat) (s : State) : Host.Outcome State Fault Refusal :=
  run s (sampleDone u diff)

/-- The next stage of the tick that reserves unit u. -/
def nextReservation (s : State) (u : Nat) : Option (Nat × Stage) :=
  let mine := (stages s).filter fun x => x.2.compute && x.2.rsmp.testBit u && decide (offNs s < x.2.closeNs)
  mine.foldl (fun m x => match m with
    | none => some x
    | some y => if x.2.openNs < y.2.openNs then some x else some y) none

/-- 64 cycles before a reservation of unit u opens, its best-effort request is paused (R137). -/
def samplePause (u : Nat) (s : State) : State :=
  if !patActive s then s
  else match nextReservation s u with
  | none => s
  | some (st, g) =>
    let s1 := passToOff s (g.openNs - cycNs s 64)
    let t := s1.clk.cyc
    let s2 := match (rsmpAt s1 u).serving with
      | some r => if r.lc then s1 else samplerAdvance u t s1
      | none => s1
    modRsmp s2 u fun k =>
      match k.serving with
      | some r => if r.lc then { k with resvFor := some st }
                  else { k with serving := none, paused := some { r with start := t - r.start }, freeAt := max k.freeAt t, resvFor := some st }
      | none => { k with resvFor := some st }

/-- RSMP_RESERVATION_PAUSE. -/
def execRsmpReservationPause (u : Fin 4) (s : State) : Host.Outcome State Fault Refusal := run s (samplePause u)

/-! ### Keyed Feature Store -/

/-- Cycle at which the store may start its next request (R228, R234). -/
def keyedFreeAt (s : State) : Nat :=
  max (s.kfs.walkEnd.getD 0) (match s.kfs.serving with
    | some r => r.start + 16 + 2 * (keyedOf r.desc).n
    | none => s.kfs.freeAt)

/-- The keyed queue starts its oldest request (R234); a GRID request reads its origin (R224). -/
def keyedStart (s : State) : State :=
  if s.kfs.queue.isEmpty || !inService s dFST || !dramUp s || s.glb.safe then s
  else
    let s2 := passToCyc s (keyedFreeAt s)
    match s2.kfs.queue with
    | [] => s2
    | r :: rest =>
      let d := keyedOf r.desc
      let s3 := if d.grid then readRun .fst (r.agent s2) d.key 8 s2 else s2
      let r1 := { r with start := s3.clk.cyc, done := 0,
                         origin := if d.grid then BitVec.ofNat 64 (s3.fst.mem.rdLe d.key 8) else 0 }
      { s3 with kfs := { s3.kfs with queue := rest, serving := some r1 } }

/-- KEYED_REQUEST_START. -/
def execKeyedRequestStart (s : State) : Host.Outcome State Fault Refusal := run s keyedStart

/-- The started request that completes first. -/
def nextKeyedDone (s : State) : Option KReq :=
  (s.kfs.finishing ++ s.kfs.serving.toList).foldl (fun m r => match m with
    | none => some r
    | some y => if r.doneAt < y.doneAt then some r else some y) none

/-- A keyed request completes at its fixed cycle and its entry with it (R234). -/
def keyedDone (s : State) : State :=
  match nextKeyedDone s with
  | none => s
  | some r0 =>
    let s2 := passToCyc s r0.doneAt
    match s2.kfs.finishing.find? fun r => r.core == r0.core && r.run == r0.run && r.seq == r0.seq && r.desc == r0.desc with
    | none => s2
    | some r =>
      let s3 := { s2 with kfs := { s2.kfs with finishing := s2.kfs.finishing.erase r } }
      requestOver (if (keyedOf r.desc).scatter then .store else .load) r.core r.run r.seq r.bundle r.token s3

/-- KEYED_REQUEST_DONE. -/
def execKeyedRequestDone (s : State) : Host.Outcome State Fault Refusal := run s keyedDone

end Sys2Proof.Machine
end

