-- ==== Sys2Proof/Machine/Sequence.lean ====
section
/-!
DEFINITION. The Scalar Sequencer: the scalar slot (07, R169, Table 7.1) and the dispatch of bundles (06, R140 to R148).
-/
namespace Sys2Proof.Machine

/-! ### The scalar slot -/

/-- Counter k of a core. -/
def cntAt (k : Core) (i : Nat) : Word := k.sq.cnt.getD i 0

def setCnt (c i : Nat) (v : Word) (s : State) : State := modCore s c fun k => { k with sq := { k.sq with cnt := upd k.sq.cnt i fun _ => v } }

def setPf (c i : Nat) (b : Bool) (s : State) : State := modCore s c fun k => { k with sq := { k.sq with pf := upd k.sq.pf i fun _ => b } }

/-- A branch target lies in the bundle range of the command (R147, R169). -/
def targetIn (h : Hdr) (t : Nat) : Bool := decide (h.entry ≤ t) && decide (t < h.len)

/-- What a scalar word does: a skip with its reason, or an effect with the target that control transfers to. -/
def scalarOp (c : Nat) (h : Hdr) (w : BitVec 32) (s : State) : State × Option Nat × Option Nat :=
  let k := coreAt s c
  let skip := fun (r : Nat) => (s, none, some r)
  match scBad w with
  | some r => skip r
  | none =>
    match fld w 31 26 with
    | 1 => (setCnt c (fld w 25 23) (BitVec.ofNat 32 (fld w 22 0)) s, none, none)
    | 2 =>
      if targetIn h (fld w 12 0) then
        let v := cntAt k (fld w 25 23) - 1
        (setCnt c (fld w 25 23) v s, if v = 0 then none else some (fld w 12 0), none)
      else skip 4
    | 3 => (match condHolds (w.extractLsb' 18 3) (cntAt k (fld w 25 23)) (BitVec.ofNat 32 (fld w 17 0)) with
      | some b => (setPf c (fld w 22 21) b s, none, none)
      | none => skip 2)
    | 4 => (match condHolds (w.extractLsb' 18 3) (cntAt k (fld w 25 23)) (cntAt k (fld w 17 15)) with
      | some b => (setPf c (fld w 22 21) b s, none, none)
      | none => skip 2)
    | 5 =>
      if targetIn h (fld w 12 0) then
        (match brTaken (w.extractLsb' 24 2) (k.sq.pf.getD (fld w 23 22) false) with
        | some b => (s, if b then some (fld w 12 0) else none, none)
        | none => skip 2)
      else skip 4
    | _ => (s, none, none)

/-- Index of the header of the command that core c holds. -/
def hdrIdx (s : State) (c : Nat) : Nat := ((coreAt s c).st.run.map Run.hdr).getD 0

/-- Control transfers to a bundle offset: dispatched no earlier than two cycles later (R147). -/
def jumpTo (c target : Nat) (s : State) : State :=
  modCore s c fun k => { k with sq := { k.sq with pc := hdrIdx s c + target, dispAt := s.clk.cyc + 2 } }

/-- A scalar instruction carried out on its own. -/
def scalarAlone (c : Nat) (w : BitVec 32) (s : State) : State :=
  if !coreLive s c then s
  else
    let bundle := (coreAt s c).sq.pc
    let (s1, target, skip) := scalarOp c (ctxOf s c).hdr w s
    match skip, target with
    | some r, _ => logSkip c 0 r bundle s1
    | none, some t => jumpTo c t s1
    | none, none => s1

/-- NOP (Table 7.1). -/
def execNop (c : CoreId) (s : State) : Host.Outcome State Fault Refusal := run s (scalarAlone c 0)

/-- CSET. -/
def execCset (c : CoreId) (k : BitVec 3) (imm : BitVec 23) (s : State) : Host.Outcome State Fault Refusal :=
  run s (scalarAlone c (wordCset k imm))

/-- LOOP. -/
def execLoop (c : CoreId) (k : BitVec 3) (target : BitVec 13) (s : State) : Host.Outcome State Fault Refusal :=
  run s (scalarAlone c (wordLoop k target))

/-- CMPI. -/
def execCmpi (c : CoreId) (k : BitVec 3) (pf : BitVec 2) (cond : BitVec 3) (imm : BitVec 18) (s : State) :
    Host.Outcome State Fault Refusal :=
  run s (scalarAlone c (wordCmpi k pf cond imm))

/-- CMPC. -/
def execCmpc (c : CoreId) (ka : BitVec 3) (pf : BitVec 2) (cond : BitVec 3) (kb : BitVec 3) (s : State) :
    Host.Outcome State Fault Refusal :=
  run s (scalarAlone c (wordCmpc ka pf cond kb))

/-- BR. -/
def execBr (c : CoreId) (when_ : BitVec 2) (pf : BitVec 2) (target : BitVec 13) (s : State) : Host.Outcome State Fault Refusal :=
  run s (scalarAlone c (wordBr when_ pf target))

/-! ### Bundles -/

/-- Slots that log a skip with reason 0x3: the header when bit 254 is set, and absent slots that hold a bit (R141). -/
def strayBits (u : BitVec 256) : List Nat :=
  (if bitAt u 254 then [6] else []) ++ ((slotsOf u).filter fun x => !x.present && x.word != 0).map SlotAt.num

/-- The legal, present, non-NOP slots other than the scalar one. -/
def entering (s : State) (x : Ctx) (u : BitVec 256) : List SlotAt :=
  ((slotsOf u).drop 1).filter fun y => y.present && y.word != 0 && (slotBad s x (QId.ofSlot y.num) y.word).isNone

/-- The illegal ones, with their reasons (R166). -/
def illegalSlots (s : State) (x : Ctx) (u : BitVec 256) : List (Nat × Nat) :=
  ((slotsOf u).drop 1).filterMap fun y =>
    if y.present && y.word != 0 then (slotBad s x (QId.ofSlot y.num) y.word).map fun r => (y.num, r) else none

/-- An entry joins its queue (R146). -/
def enqueue (c : Nat) (q : QId) (e : QEnt) (s : State) : State :=
  modCore s c fun k => { k with sq := k.sq.setQueue q (k.sq.queue q ++ [e]) }

/-- BUNDLE trace record (19, Table 19.10). -/
def traceBundle (c : Nat) (u : BitVec 256) (idx cyc : Nat) (s : State) : State :=
  if s.obs.bundleCores.getLsbD c then trace 0x07 c (BitVec.ofNat 64 (idx + fld u 253 248 * 2 ^ 13 + cyc * 2 ^ 32)) s else s

/-- The bundle's slots enter their queues, its illegal ones are skipped, its scalar slot executes (R141, R146, R147). Its skips are
logged in the order stray bits, scalar slot, other slots (DESIGN CHOICE, entry 69). -/
def dispatchSlots (c : Nat) (x : Ctx) (u : BitVec 256) (s : State) : State × Option Nat :=
  let k := (coreAt s c).sq
  let pc := k.pc
  let ent := fun (y : SlotAt) => ({ slot := y.word, seq := k.seq, bundle := pc, at_ := s.clk.cyc, ctrs := k.cnt } : QEnt)
  let s1 := (strayBits u).foldl (fun s n => logSkip c n 3 pc s) s
  let (s2, target, skip) := if bitAt u 253 then scalarOp c x.hdr (BitVec.ofNat 32 (fld u 247 216)) s1 else (s1, none, none)
  let s3 := match skip with | some r => logSkip c 0 r pc s2 | none => s2
  let s4 := (illegalSlots s x u).foldl (fun s y => logSkip c y.1 y.2 pc s) s3
  ((entering s x u).foldl (fun s y => enqueue c (QId.ofSlot y.num) (ent y) s) s4, target)

/-- Where dispatch goes after a bundle: to the target of a transfer, to its end, or to the next index (R147, R148). -/
def afterBundle (c : Nat) (r : Run) (len : Nat) (u : BitVec 256) (target : Option Nat) (s : State) : State :=
  let pc := (coreAt s c).sq.pc
  let isOver := fun (s : State) => modSt s c fun k => { k with run := k.run.map fun r => { r with isOver := true } }
  match target with
  | some t => jumpTo c t s
  | none =>
    let s1 := modCore s c fun k => { k with sq := { k.sq with pc := pc + 1, dispAt := s.clk.cyc + 1 } }
    if bitAt u 255 then isOver s1
    else if r.hdr + len ≤ pc + 1 then isOver (logSkip c 7 5 r.hdr s1)
    else s1

/-- The next bundle of the command is dispatched, once every queue that it targets has room (R146). -/
def dispatchBundle (c : Nat) (s : State) : State :=
  match (coreAt s c).st.run with
  | none => s
  | some r =>
    let k := (coreAt s c).sq
    if !coreLive s c || r.phase != .running || r.isOver then s
    else
      let u := BitVec.ofNat 256 ((coreAt s c).bst.rdLe (32 * k.pc) 32)
      let x := ctxOf s c
      if (entering s x u).any fun y => decide (16 ≤ (k.queue (QId.ofSlot y.num)).length) then
        modCore s c fun k => { k with sq := { k.sq with blockedAt := some (k.sq.blockedAt.getD (max k.sq.dispAt s.clk.cyc)) } }
      else
        let s1 := passToCyc s k.dispAt
        let t := s1.clk.cyc
        let s2 := readRun (.bst c) (some c) (32 * k.pc) 32 (countStall c t s1)
        let s3 := traceBundle c u k.pc (t - r.start) s2
        let (s4, target) := dispatchSlots c x u s3
        let s5 := modCore s4 c fun k => { k with sq := { k.sq with seq := k.sq.seq + 1 }, st := { k.st with lastAct := t } }
        afterBundle c r x.hdr.len u target s5

/-- BUNDLE_DISPATCH. -/
def execBundleDispatch (c : CoreId) (up : List Strike) (s : State) : Host.Outcome State Fault Refusal :=
  run s fun s => dispatchBundle c (strikes up s)

end Sys2Proof.Machine
end

