-- ==== Sys2Proof/Machine/Sync.lean ====
section
/-!
DEFINITION. The sync slot (06, R150 to R156; 07, Table 7.12): tokens, barriers, semaphores and arrival counters. A sync command
is carried out at the cycle in which its entry completes.
-/
namespace Sys2Proof.Machine

/-- A sync entry has completed: its gate mask opens (R152, R153). -/
def syncOver (c : Nat) (e : QEnt) (s : State) : State :=
  openGates c (gateMask e.slot) e.seq s.clk.cyc
    (modCore s c fun k => { k with st := { k.st with lastAct := s.clk.cyc }, sq := { k.sq with syAt := s.clk.cyc } })

/-- First cycle at which an entry stands at the head of the sync queue. -/
def headCycle (k : Core) (e : QEnt) : Nat := max (e.at_ + 1) (k.sq.syAt + 1)

/-! ### Tokens -/

/-- First cycle at which token t holds n for a WAIT; none while it does not (R150, R153). A released operand buffer entry stays
valid through the cycle in which its last reader's last step issues (R82). -/
def tokenReady (k : Core) (now t n : Nat) : Option Nat :=
  let at_ := k.st.tokAt.getD t 0
  if t ≤ 3 then
    let a := k.mx.aob.getD t {}
    if a.valid then some (if at_ = 0 then 0 else at_ + 1) else if 0 < at_ ∧ now ≤ at_ then some now else none
  else if n ≤ k.st.tok.getD t 0 then some (if at_ = 0 then 0 else at_ + 1) else none

/-- WAIT's effect: T4 to T15 lose n (Table 6.4). -/
def waitAct (c t n : Nat) (e : QEnt) (s : State) : State :=
  let s1 := if t ≤ 3 then s else modSt s c fun k =>
    { k with tok := putAt 0 k.tok t (k.tok.getD t 0 - n), tokAt := putAt 0 k.tokAt t s.clk.cyc }
  syncOver c e s1

/-- WAIT. -/
def execWait (c : CoreId) (token : BitVec 4) (n : BitVec 8) (gate : BitVec 4) (s : State) : Host.Outcome State Fault Refusal :=
  run s (issue c .sync (wordWait token n gate)
    (fun s e =>
      let now := max (baseCycle s c .sync e) (headCycle (coreAt s c) e)
      (tokenReady (coreAt s c) now token.toNat n.toNat).map (max now)) (waitAct c token.toNat n.toNat))

/-- Every earlier entry of the masked queues has completed (R151, R152). -/
def afterReady (c : Nat) (mask : BitVec 4) (s : State) (e : QEnt) : Option Nat :=
  (earlierDone (coreAt s c) mask.toNat e.seq).map (max (headCycle (coreAt s c) e))

/-- SIGNAL. -/
def execSignal (c : CoreId) (token : BitVec 4) (after : BitVec 4) (s : State) : Host.Outcome State Fault Refusal :=
  run s (issue c .sync (wordSignal token after) (afterReady c after)
    (fun e s => syncOver c e (signalToken c 5 e.bundle token.toNat s)))

/-- BARRIER. -/
def execBarrier (c : CoreId) (mask : BitVec 4) (s : State) : Host.Outcome State Fault Refusal :=
  run s (issue c .sync (wordBarrier mask) (afterReady c mask) (syncOver c))

/-! ### Semaphores -/

/-- A granted SEM_ACQ completes when its grant has reached the core (R154). -/
def semAcqDone (c : Nat) (s : State) : State :=
  match (coreAt s c).sq.qy with
  | e :: _ =>
    (match e.reqAt with
    | some r =>
      let s1 := passToCyc (takeEntry c .sync true s) r
      syncOver c e (commit c s1.clk.cyc s1)
    | none => s)
  | [] => s

/-- The request of a SEM_ACQ at the head of the queue is sent; it reaches the Job Dispatcher 12 cycles later, where SEM_GRANT
grants it (R154). -/
def semRequest (c sem n : Nat) (e : QEnt) (queued : Bool) (s : State) : State :=
  let s1 := if queued then s else modCore s c fun k => { k with sq := { k.sq with qy := [e], seq := k.sq.seq + 1 } }
  let q : SemReq := { sem := sem, core := c, n := n, at_ := max s.clk.cyc (headCycle (coreAt s c) e) + 12 }
  { s1 with disp := { s1.disp with semWait := joinQueue SemReq.at_ SemReq.core q s1.disp.semWait } }

/-- SEM_ACQ: its request is sent once, and it completes with its grant; it stays at the head until then. -/
def semAcq (c : Nat) (w : BitVec 48) (sem n : Nat) (s : State) : State :=
  if !coreLive s c then s
  else match headFor s c .sync w with
  | none => s
  | some (e, queued) =>
    match (if queued then none else slotBad s (ctxOf s c) .sync w) with
    | some reason => logSkip c 5 reason e.bundle (takeEntry c .sync false s)
    | none =>
      if e.reqAt.isSome then semAcqDone c s
      else if s.disp.semWait.any fun q => q.core == c then s
      else semRequest c sem n e queued s

/-- SEM_ACQ. -/
def execSemAcq (c : CoreId) (sem : BitVec 8) (n : BitVec 8) (gate : BitVec 4) (s : State) : Host.Outcome State Fault Refusal :=
  run s (semAcq c (wordSem 4 sem n gate) sem.toNat n.toNat)

/-- SEM_GRANT: the oldest request on the semaphore, if the value covers it (R154). -/
def execSemGrant (sem : BitVec 8) (s : State) : Host.Outcome State Fault Refusal := run s (semGrantOne sem.toNat)

/-- Cycle at which a SEM_REL completes: 12 cycles after its after condition, when the release has reached the Job Dispatcher;
at the head of the queue when the command holds fewer units, whatever its mask (R154, R159). -/
def semRelReady (c sem n : Nat) (after : BitVec 4) (s : State) (e : QEnt) : Option Nat :=
  if semHeld s c sem < n then some (headCycle (coreAt s c) e) else (afterReady c after s e).map (· + 12)

/-- SEM_REL's effect: the units go back, unless the command holds fewer (R154). -/
def semRelAct (c sem n : Nat) (e : QEnt) (s : State) : State :=
  if semHeld s c sem < n then skipAtIssue c .sync e 0xA 0 s
  else
    syncOver c e (semReturn sem n
      (modSt s c fun k => { k with holds := assocPut k.holds sem ((assoc k.holds sem).getD 0 - n) }))

/-- SEM_REL. -/
def execSemRel (c : CoreId) (sem : BitVec 8) (n : BitVec 8) (after : BitVec 4) (s : State) : Host.Outcome State Fault Refusal :=
  run s (issue c .sync (wordSem 5 sem n after) (semRelReady c sem.toNat n.toNat after) (semRelAct c sem.toNat n.toNat))

/-! ### Arrival counters -/

def arrBits (s : State) (a : Nat) : BitVec 16 := s.fst.arr.getD a 0

/-- Arrivals a counter holds. -/
def arrCount (s : State) (a : Nat) : Nat := sumN ((List.range 16).map fun i => b2n (bitAt (arrBits s a) i))

/-- The core's bit is set in an arrival counter (R155). -/
def setArrival (c a : Nat) (s : State) : State :=
  if bitAt (arrBits s a) c then s
  else { s with fst := { s.fst with
    arr := putAt 0 s.fst.arr a (putBit (arrBits s a) c true)
    arrAt := putAt [] s.fst.arrAt a (s.fst.arrAt.getD a [] ++ [s.clk.cyc]) } }

/-- ARRIVE's effect. -/
def arriveAct (c a : Nat) (e : QEnt) (s : State) : State := orFenced c [(1, 0)] (fun s => syncOver c e (setArrival c a s)) s

/-- ARRIVE: the arrival reaches the Frame Store 8 cycles after its after condition. -/
def execArrive (c : CoreId) (ctr : BitVec 8) (after : BitVec 4) (s : State) : Host.Outcome State Fault Refusal :=
  run s (issue c .sync (wordArrive ctr after) (fun s e => (afterReady c after s e).map (· + 8)) (arriveAct c ctr.toNat))

/-- First cycle at which an AWAIT completes: 8 cycles after it reached the head and the count was there (R155). -/
def awaitReady (c a n : Nat) (s : State) (e : QEnt) : Option Nat :=
  if n ≤ arrCount s a then some (max ((s.fst.arrAt.getD a []).getD (n - 1) 0) (headCycle (coreAt s c) e) + 8) else none

/-- AWAIT. -/
def execAwait (c : CoreId) (ctr : BitVec 8) (n : BitVec 5) (gate : BitVec 4) (s : State) : Host.Outcome State Fault Refusal :=
  run s (issue c .sync (wordAwait ctr n gate) (awaitReady c ctr.toNat n.toNat) (fun e s => orFenced c [(1, 0)] (syncOver c e) s))

end Sys2Proof.Machine
end

