-- ==== Sys2Proof/Machine/Tiles.lean ====
section
/-!
DEFINITION. Packed tiles (10, R264 to R271) and the close of the INTAKE stage (01, R29; 10, R246, R247, R271).
-/
namespace Sys2Proof.Machine

/-! ### Header -/

/-- Bytes of a stored element. -/
def efmtBytes (e : Nat) : Nat := if e ≤ 1 then 1 else 2

/-- AUX as the type requires it: the layer of a PRIOR stream, zero for PLAIN. -/
def TileHdr.auxOk (t : TileHdr) (s : State) (n : Nat) : Bool :=
  if t.ty = 1 then bitsAt t.aux 40 4 == par s n 70 && t.aux / 2 ^ 44 == 0 else t.ty == 2 || t.aux == 0

/-- Formats and channels that the type admits (R269, R270). -/
def TileHdr.typeOk (t : TileHdr) : Bool :=
  if t.ty = 2 then (t.efmt == 4 && t.ch == 1) || (t.efmt == 1 && t.ch == 3)
  else if t.ty = 1 then decide (t.efmt ≤ 1)
  else true

/-- Step 1 of R267. -/
def hdrStep (s : State) (n len : Nat) (b : List Byte) : Bool :=
  let t := tileHdrOf b
  b.length == 32 && leAt b 0 2 == 0x5450 && leAt b 2 1 == 1 && t.ty == par s n 2 && t.efmt == par s n 63 && decide (t.efmt ≤ 4) &&
    leAt b 11 1 == 0 && leAt b 16 4 == 0 && len == 32 + t.clen && t.auxOk s n && t.typeOk && t.w != 0 && t.h != 0 && t.ch != 0

/-- Step 2 of R267: the reason of a dimension claim that fails. -/
def claimFail (s : State) (n : Nat) (t : TileHdr) : Option Nat :=
  if 64 * t.clen + 4096 < t.w * t.h * t.ch * efmtBytes t.efmt then some 0xA
  else if par s n 64 < t.w ∨ par s n 65 < t.h ∨ par s n 66 < t.ch ∨ par s n 67 < t.clen then some 0xB
  else none

/-- Cycle budget of a stream's tiles (R268). -/
def budget (s : State) (n : Nat) : Nat := if par s n 69 = 0 then 8 * par s n 68 else par s n 69

/-! ### The fetch -/

/-- What becomes of a tile in the decoder. -/
structure TileOut where
  cost : Nat
  err : Option Nat := none
  cached : Bool := false
  elems : List Int := []

/-- Steps 1 to 4 of R267, with the anchor's lookup before the decoding of a PRIOR tile (R270). -/
def tileRun (n len : Nat) (bytes : List Byte) (bad : Bool) (s : State) : State × TileOut :=
  let b := bytes.take 32
  let t := tileHdrOf b
  if bad then (siuFire 14 s, { cost := 64, err := some 9 })
  else if !hdrStep s n len b then (s, { cost := 64, err := some 0xD })
  else match claimFail s n t with
  | some r => (s, { cost := 64, err := some r })
  | none =>
    let cost := 64 + ceilDiv len 64
    let payload := bytes.drop 32
    if (crc32c (b.take 28 ++ payload)).toNat ≠ t.crc then (s, { cost := cost, err := some 0xC })
    else
      let (s1, hit) := if t.ty = 1 then keyLookup none t.anchor s else (s, none)
      match hit with
      | some _ => (s1, { cost := cost, cached := true })
      | none =>
        let d := decodePayload t.efmt t.w t.h t.ch payload
        if d.bad then (s1, { cost := cost + d.cost, err := some 0xD })
        else (s1, { cost := cost + d.cost, elems := planesOf t.w t.h t.ch d.out })

/-- Status of a reason (Table 10.5). -/
def reasonStatus (r : Nat) : Nat :=
  if r = 0 then 0 else if r ≤ 5 then 0x30 else if r = 0xA ∨ r = 0xB then 0x32 else if r = 0xE then 0x31 else 0x33

/-- The record of a tile with a reason. -/
def tileResult (t : Tile) (reason cycles : Nat) : SampleRes :=
  { stream := t.stream, status := reasonStatus reason, reason := reason, capture := t.capture, admitAt := t.admitAt,
    info0 := cycles / 256, cached := t.cached, tick := t.tick }

/-- The decoder can fetch a descriptor now (R264). -/
def canFetchTile (s : State) : Bool :=
  let k := s.siu.tring
  intakeLive s && intakeOpen s && dramUp s && k.en && k.head != k.tail % k.entries && s.siu.tile.isNone

/-- The ring's head moves past the fetched descriptor. -/
def bumpTring (s : State) : State :=
  { s with siu := { s.siu with tring := { s.siu.tring with head := (s.siu.tring.head + 1) % s.siu.tring.entries } } }

/-- A descriptor of an enabled TILE stream is fetched: the tile is admitted, judged and run through the decoder (R241 to R243,
R264, R267, R268). -/
def fetchTile (n addr len : Nat) (s : State) : State :=
  let s1 := startSample n s.time.tick (bumpTring (readRun .dram none addr (min len 32) s))
  let hdr := s1.drc.mem.rdN addr (min len 32)
  let capture := if par s1 n 2 = 2 then BitVec.ofNat 64 (leAt hdr 20 8) else s1.clk.gtc
  let t : Tile :=
    { stream := n, header := hdr, admitAt := s1.clk.gtc, capture := capture, at_ := s1.clk.cyc, cost := 0, tick := s1.time.tick }
  if !inWindow s1 t.tick capture then addResult (tileResult t 2 0) s1
  else if tooOld s1 n capture s1.clk.gtc then addResult (tileResult t 1 0) s1
  else
    let claim := hdrStep s1 n len hdr && (claimFail s1 n (tileHdrOf hdr)).isNone
    let s2 := if claim then readRun .dram none (addr + 32) (len - 32) s1 else s1
    let body := if claim then s2.drc.mem.rdN (addr + 32) (len - 32) else []
    let (s3, o) := tileRun n len (hdr ++ body) (poisoned s1 .dram addr (if claim then len else min len 32)) s2
    { s3 with siu := { s3.siu with tile := some { t with cost := o.cost, err := o.err, cached := o.cached, elems := o.elems } } }

/-- The descriptor at the head of the tile ring is fetched (R264). -/
def tileFetch (s : State) : State :=
  let s1 := passToCyc s s.siu.decAt
  if !canFetchTile s1 then s
  else
    let a := s1.siu.tring.base.toNat + 32 * s1.siu.tring.head
    let d := s1.drc.mem.rdLe a 32
    let n := bitsAt d 96 6
    let s2 := readRun .dram none a 32 s1
    if n < 36 ∨ 48 ≤ n ∨ !streamEn s2 n then siuFire 11 (bumpTring s2)
    else if startedIn s2 n s2.time.tick then s
    else fetchTile n (bitsAt d 0 64) (bitsAt d 64 32) s2

/-- TILE_DESCRIPTOR_FETCH. -/
def execTileDescriptorFetch (s : State) : Host.Outcome State Fault Refusal := run s tileFetch

/-! ### The outcome -/

/-- The decoder is free, from the cycle after the present one. -/
def freeDecoder (s : State) : State := { s with siu := { s.siu with tile := none, decAt := s.clk.cyc + 1 } }

/-- The tensor of a decoded tile, channel-blocked (R269). -/
def tileTensor (t : TileHdr) (elems : List Int) : List Byte :=
  let e := efmtBytes t.efmt
  let v := elems.toArray
  (List.range (ceilDiv t.ch 64 * t.h * t.w * 64)).flatMap fun i =>
    let ch := i / 64 / (t.h * t.w) * 64 + i % 64
    let px := i / 64 % (t.h * t.w)
    leBytes e (wrapTo (8 * e) (if ch < t.ch then v.getD (ch * t.h * t.w + px) 0 else 0))

/-- The decoded tile is written at the stream's OUT_BASE. -/
def writeTile (t : Tile) (s : State) : State :=
  lateRegion t.stream t.tick (intakeWrite (par s t.stream 4) (tileTensor (tileHdrOf t.header) t.elems) s)

/-- The lines of a replayed frame, as a receiver would have unpacked them (R269, Table 10.7). -/
def replayLines (t : TileHdr) (elems : List Int) : List (List Nat) :=
  let v := elems.toArray
  (List.range t.h).map fun r => (List.range t.w).flatMap fun c => (List.range t.ch).map fun k =>
    let x := (v.getD (k * t.h * t.w + r * t.w + c) 0).toNat
    if t.ch = 3 then x * 256 else x

/-- A replayed tile is a frame of its target camera stream, with a sample of that stream (R240, R269). -/
def replayTile (t : Tile) (s : State) : State :=
  let n := par s t.stream 77
  if 32 ≤ n ∨ !streamEn s n then s
  else
    let res := fun (status reason : Nat) (s : State) =>
      addResult { stream := n, status := status, reason := reason, capture := t.capture, admitAt := t.admitAt,
                  info0 := bitsAt (Config.freeStamp s.freeSeq).toNat 0 16, tick := t.tick } (bumpFree s)
    if startedIn s n t.tick then res 0x30 3 s
    else
      let (s1, status, reason) := judgeFrame n (replayLines (tileHdrOf t.header) t.elems) t.capture t.admitAt t.tick (startSample n t.tick s)
      res status reason s1

/-- The decoder has finished with the tile within its budget: it failed, was found, or is written, replayed or to be inserted
(R267 to R271). -/
def tileDone (s : State) : State :=
  match s.siu.tile with
  | none => s
  | some t =>
    if t.insertAt.isSome || decide (budget s t.stream < t.cost) || !intakeLive s then s
    else
      let s1 := passToCyc s (t.at_ + t.cost)
      let isOver := fun (reason : Nat) (s : State) => addResult (tileResult t reason t.cost) (freeDecoder s)
      match t.err with
      | some r => isOver r s1
      | none =>
        if t.cached then isOver 0 s1
        else match par s1 t.stream 2 with
        | 2 => isOver 0 (replayTile t s1)
        | 1 =>
          let s2 := writeTile t s1
          { s2 with siu := { s2.siu with tile := some { t with insertAt := some s2.clk.cyc } } }
        | _ => isOver 0 (writeTile t s1)

/-- TILE_DECODE_DONE. -/
def execTileDecodeDone (s : State) : Host.Outcome State Fault Refusal := run s tileDone

/-- The decoder's count exceeds the budget: the tile ends OVERTIME in that cycle (R268). -/
def budgetExceeded (s : State) : State :=
  match s.siu.tile with
  | none => s
  | some t =>
    let b := budget s t.stream
    if t.cost ≤ b ∨ !intakeLive s then s
    else
      let s1 := passToCyc s (t.at_ + b + 1)
      completeSample (tileResult t 0xE (b + 1)) (freeDecoder s1)

/-- DECODE_BUDGET_EXCEEDED. -/
def execDecodeBudgetExceeded (s : State) : Host.Outcome State Fault Refusal := run s budgetExceeded

/-! ### Insertion -/

/-- The anchor of a PRIOR tile is inserted, if that comes before the close of the INTAKE stage: the tile completes OK (R271). -/
def priorDone (s : State) : State :=
  match s.siu.tile with
  | none => s
  | some t =>
    match t.insertAt with
    | none => s
    | some at_ =>
      let h := tileHdrOf t.header
      let s1 := passToCyc s (at_ + 2 * (h.w * h.h))
      if !inserting s1 t then s else completeSample (tileResult t 0 t.cost) (freeDecoder (insertCell t s1 (0, 0)))

/-- PRIOR_INSERT_DONE. -/
def execPriorInsertDone (s : State) : Host.Outcome State Fault Refusal := run s priorDone

/-! ### The close of the INTAKE stage -/

/-- A PRIOR tile that the close finds in the decoder ends PRIOR_LATE; the cells inserted before remain (R271). -/
def priorLate (s : State) : State :=
  match s.siu.tile with
  | none => s
  | some t =>
    if par s t.stream 2 ≠ 1 ∨ t.err.isSome ∨ t.cached then s
    else completeSample (tileResult t 5 t.cost) (freeDecoder s)

/-- The INTAKE stage closes: PRIOR insertions stop, the drop set is fixed, the regions of its streams are unspecified (R29, R246,
R247, R271); the tick record follows when the plan has no COMPUTE stage (11, R294). -/
def intakeClose (s : State) : State :=
  match intakeStage s with
  | none => s
  | some (st, g) =>
    if !patActive s || s.disp.closed.contains st then s
    else
      let s1 := passToOff s g.closeNs
      let s2 := trace 0x05 st 1 { s1 with disp := { s1.disp with closed := s1.disp.closed ++ [st] } }
      let s3 := forgetDropped (if intakeLive s2 then priorLate s2 else s2)
      if usedMask s3 = 0 && s3.time.droopAtRec.isNone then postTick false s3 else s3

/-- INTAKE_CLOSE. -/
def execIntakeClose (s : State) : Host.Outcome State Fault Refusal := run s intakeClose

end Sys2Proof.Machine
end

