-- ==== Sys2Proof/Machine/Vector.lean ====
section
/-!
DEFINITION. The vector instructions that work on registers alone (07, Table 7.2): integer, binary32, VTAB and VEXP2.
-/
namespace Sys2Proof.Machine

/-- VADD: wrapping sum (02, R50). -/
def execVadd (c : CoreId) (d : Bool) (vd va vb : BitVec 5) (s : State) : Host.Outcome State Fault Refusal :=
  execR2 c d 0x01 3 (fun a b => a + b) vd va vb s

/-- VSUB: wrapping difference. -/
def execVsub (c : CoreId) (d : Bool) (vd va vb : BitVec 5) (s : State) : Host.Outcome State Fault Refusal :=
  execR2 c d 0x02 3 (fun a b => a - b) vd va vb s

/-- VMUL: low 32 bits of the product. -/
def execVmul (c : CoreId) (d : Bool) (vd va vb : BitVec 5) (s : State) : Host.Outcome State Fault Refusal :=
  execR2 c d 0x03 4 (fun a b => a * b) vd va vb s

/-- VAND. -/
def execVand (c : CoreId) (d : Bool) (vd va vb : BitVec 5) (s : State) : Host.Outcome State Fault Refusal :=
  execR2 c d 0x04 3 (fun a b => a &&& b) vd va vb s

/-- VOR. -/
def execVor (c : CoreId) (d : Bool) (vd va vb : BitVec 5) (s : State) : Host.Outcome State Fault Refusal :=
  execR2 c d 0x05 3 (fun a b => a ||| b) vd va vb s

/-- VXOR. -/
def execVxor (c : CoreId) (d : Bool) (vd va vb : BitVec 5) (s : State) : Host.Outcome State Fault Refusal :=
  execR2 c d 0x06 3 (fun a b => a ^^^ b) vd va vb s

/-- VMIN: signed minimum. -/
def execVmin (c : CoreId) (d : Bool) (vd va vb : BitVec 5) (s : State) : Host.Outcome State Fault Refusal :=
  execR2 c d 0x07 3 (fun a b => if BitVec.slt b a then b else a) vd va vb s

/-- VMAX: signed maximum. -/
def execVmax (c : CoreId) (d : Bool) (vd va vb : BitVec 5) (s : State) : Host.Outcome State Fault Refusal :=
  execR2 c d 0x08 3 (fun a b => if BitVec.slt a b then b else a) vd va vb s

/-- VCMPEQ: 1 or 0. -/
def execVcmpeq (c : CoreId) (d : Bool) (vd va vb : BitVec 5) (s : State) : Host.Outcome State Fault Refusal :=
  execR2 c d 0x09 3 (fun a b => if a = b then 1 else 0) vd va vb s

/-- VCMPLT: signed, 1 or 0. -/
def execVcmplt (c : CoreId) (d : Bool) (vd va vb : BitVec 5) (s : State) : Host.Outcome State Fault Refusal :=
  execR2 c d 0x0A 3 (fun a b => if BitVec.slt a b then 1 else 0) vd va vb s

/-- VSEL: VA where VC is not 0, else VB. -/
def execVsel (c : CoreId) (d : Bool) (vd va vb vc : BitVec 5) (s : State) : Host.Outcome State Fault Refusal :=
  run s (laneOp c (wordR 0x0B vd va vb vc) 3 d [va, vb, vc] vd (lanes3 fun a b m => if m = 0 then b else a))

/-- VSHL: by the low five bits of VB. -/
def execVshl (c : CoreId) (d : Bool) (vd va vb : BitVec 5) (s : State) : Host.Outcome State Fault Refusal :=
  execR2 c d 0x0C 3 (fun a b => a <<< fld b 4 0) vd va vb s

/-- VSRA: arithmetic, floors. -/
def execVsra (c : CoreId) (d : Bool) (vd va vb : BitVec 5) (s : State) : Host.Outcome State Fault Refusal :=
  execR2 c d 0x0D 3 (fun a b => a.sshiftRight (fld b 4 0)) vd va vb s

/-- VSRL. -/
def execVsrl (c : CoreId) (d : Bool) (vd va vb : BitVec 5) (s : State) : Host.Outcome State Fault Refusal :=
  execR2 c d 0x0E 3 (fun a b => a >>> fld b 4 0) vd va vb s

/-- VADDI: IMM16 sign-extended. -/
def execVaddi (c : CoreId) (d : Bool) (vd va : BitVec 5) (imm : BitVec 16) (s : State) : Host.Outcome State Fault Refusal :=
  execI1 c d 0x10 3 (lanes1 fun a => a + imm.signExtend 32) vd va imm s

/-- VSHLI. -/
def execVshli (c : CoreId) (d : Bool) (vd va : BitVec 5) (imm : BitVec 16) (s : State) : Host.Outcome State Fault Refusal :=
  execI1 c d 0x11 3 (lanes1 fun a => a <<< imm.toNat) vd va imm s

/-- VSRAI. -/
def execVsrai (c : CoreId) (d : Bool) (vd va : BitVec 5) (imm : BitVec 16) (s : State) : Host.Outcome State Fault Refusal :=
  execI1 c d 0x12 3 (lanes1 fun a => a.sshiftRight imm.toNat) vd va imm s

/-- VRSHRI: rne_shift (02, R44). -/
def execVrshri (c : CoreId) (d : Bool) (vd va : BitVec 5) (imm : BitVec 16) (s : State) : Host.Outcome State Fault Refusal :=
  execI1 c d 0x13 3 (lanes1 fun a => BitVec.ofInt 32 (rneShift a.toInt imm.toNat)) vd va imm s

/-- VMOVI: IMM16 sign-extended in every lane. -/
def execVmovi (c : CoreId) (d : Bool) (vd : BitVec 5) (imm : BitVec 16) (s : State) : Host.Outcome State Fault Refusal :=
  run s (laneOp c (wordI 0x14 vd 0 imm) 3 d [] vd fun _ => List.replicate 64 (imm.signExtend 32))

/-- VMOVHI: IMM16 above the low half of VA. -/
def execVmovhi (c : CoreId) (d : Bool) (vd va : BitVec 5) (imm : BitVec 16) (s : State) : Host.Outcome State Fault Refusal :=
  execI1 c d 0x15 3 (lanes1 fun a => imm ++ a.truncate 16) vd va imm s

/-- VBCAST: lane IMM16 of VA in every lane. -/
def execVbcast (c : CoreId) (d : Bool) (vd va : BitVec 5) (imm : BitVec 16) (s : State) : Host.Outcome State Fault Refusal :=
  execI1 c d 0x18 3 (fun l => List.replicate 64 ((l.getD 0 []).getD imm.toNat 0)) vd va imm s

/-- VMOV. -/
def execVmov (c : CoreId) (d : Bool) (vd va : BitVec 5) (s : State) : Host.Outcome State Fault Refusal :=
  execR1 c d 0x19 3 (lanes1 id) vd va s

/-- VREDI: wrapped sum of all lanes in every lane. -/
def execVredi (c : CoreId) (d : Bool) (vd va : BitVec 5) (s : State) : Host.Outcome State Fault Refusal :=
  execR1 c d 0x1A 5 (fun l => List.replicate 64 ((l.getD 0 []).foldl (· + ·) 0)) vd va s

/-- VREDF: binary32 sum by the tree of 02, R55. -/
def execVredf (c : CoreId) (d : Bool) (vd va : BitVec 5) (s : State) : Host.Outcome State Fault Refusal :=
  execR1 c d 0x1B 18 (fun l => List.replicate 64 (f32Tree (l.getD 0 []))) vd va s

/-- FADD (02, R51 to R53). -/
def execFadd (c : CoreId) (d : Bool) (vd va vb : BitVec 5) (s : State) : Host.Outcome State Fault Refusal :=
  execR2 c d 0x20 5 f32Add vd va vb s

/-- FSUB. -/
def execFsub (c : CoreId) (d : Bool) (vd va vb : BitVec 5) (s : State) : Host.Outcome State Fault Refusal :=
  execR2 c d 0x21 5 f32Sub vd va vb s

/-- FMUL. -/
def execFmul (c : CoreId) (d : Bool) (vd va vb : BitVec 5) (s : State) : Host.Outcome State Fault Refusal :=
  execR2 c d 0x22 5 f32Mul vd va vb s

/-- FMA: VA × VB + VC, rounded once. -/
def execFma (c : CoreId) (d : Bool) (vd va vb vc : BitVec 5) (s : State) : Host.Outcome State Fault Refusal :=
  run s (laneOp c (wordR 0x23 vd va vb vc) 6 d [va, vb, vc] vd (lanes3 f32Fma))

/-- FMIN (02, R54). -/
def execFmin (c : CoreId) (d : Bool) (vd va vb : BitVec 5) (s : State) : Host.Outcome State Fault Refusal :=
  execR2 c d 0x24 5 f32Min vd va vb s

/-- FMAX. -/
def execFmax (c : CoreId) (d : Bool) (vd va vb : BitVec 5) (s : State) : Host.Outcome State Fault Refusal :=
  execR2 c d 0x25 5 f32Max vd va vb s

/-- ITOF (02, Table 2.5). -/
def execItof (c : CoreId) (d : Bool) (vd va : BitVec 5) (s : State) : Host.Outcome State Fault Refusal :=
  execR1 c d 0x26 5 (lanes1 itofW) vd va s

/-- FTOI. -/
def execFtoi (c : CoreId) (d : Bool) (vd va : BitVec 5) (s : State) : Host.Outcome State Fault Refusal :=
  execR1 c d 0x27 5 (lanes1 ftoiW) vd va s

/-- FCMPLT. -/
def execFcmplt (c : CoreId) (d : Bool) (vd va vb : BitVec 5) (s : State) : Host.Outcome State Fault Refusal :=
  execR2 c d 0x28 5 f32Lt vd va vb s

/-- FCMPEQ. -/
def execFcmpeq (c : CoreId) (d : Bool) (vd va vb : BitVec 5) (s : State) : Host.Outcome State Fault Refusal :=
  execR2 c d 0x29 5 f32Eq vd va vb s

/-- VTAB: interpolation in a loaded table; inconsistent on an unloaded one (02, R58; 07, R174). -/
def execVtab (c : CoreId) (d : Bool) (vd va : BitVec 5) (table : BitVec 16) (s : State) : Host.Outcome State Fault Refusal :=
  run s (vectorOp c (wordI 0x30 vd va table) 1 4 d [va.toNat]
    (fun s _ => match (coreAt s c).vu.tabs.getD table.toNat none with
      | none => .skip 0xC
      | some t => .ok [(vd.toNat, lanes1 (interpolate t.x0 t.sh t.t) [regLanes (coreAt s c) va.toNat])] [] none) id)

/-- VEXP2 (02, R60). -/
def execVexp2 (c : CoreId) (d : Bool) (vd va : BitVec 5) (s : State) : Host.Outcome State Fault Refusal :=
  execR1 c d 0x31 4 (lanes1 exp2W) vd va s

end Sys2Proof.Machine
end

