-- ==== Sys2Proof/Machine/Dispatch.lean ====
section
/-!
DEFINITION. One arm per command: the call of its meaning.
-/
namespace Sys2Proof.Machine

def exec (i : Instr) (s : State) : Host.Outcome State Fault Refusal :=
  match i with
  | .tickStart up => Sys2Proof.Machine.execTickStart up s
  | .swatchStart c => Sys2Proof.Machine.execSwatchStart c s
  | .swatchEnd c found extra => Sys2Proof.Machine.execSwatchEnd c found extra s
  | .swatchTimeout c => Sys2Proof.Machine.execSwatchTimeout c s
  | .stageOpen st => Sys2Proof.Machine.execStageOpen st s
  | .stageClose st => Sys2Proof.Machine.execStageClose st s
  | .intakeClose => Sys2Proof.Machine.execIntakeClose s
  | .settlePoint p => Sys2Proof.Machine.execSettlePoint p s
  | .submissionFetch r => Sys2Proof.Machine.execSubmissionFetch r s
  | .turnEnd p => Sys2Proof.Machine.execTurnEnd p s
  | .beImageCopy r => Sys2Proof.Machine.execBeImageCopy r s
  | .commandDispatch c => Sys2Proof.Machine.execCommandDispatch c s
  | .gracePoint p => Sys2Proof.Machine.execGracePoint p s
  | .cutOff p => Sys2Proof.Machine.execCutOff p s
  | .bundleDispatch c up => Sys2Proof.Machine.execBundleDispatch c up s
  | .commandComplete c => Sys2Proof.Machine.execCommandComplete c s
  | .cmdOverrun c => Sys2Proof.Machine.execCmdOverrun c s
  | .syncStall c => Sys2Proof.Machine.execSyncStall c s
  | .coreIdleGate c => Sys2Proof.Machine.execCoreIdleGate c s
  | .nop c => Sys2Proof.Machine.execNop c s
  | .cset c k imm => Sys2Proof.Machine.execCset c k imm s
  | .loop c k target => Sys2Proof.Machine.execLoop c k target s
  | .cmpi c k pf cond imm => Sys2Proof.Machine.execCmpi c k pf cond imm s
  | .cmpc c ka pf cond kb => Sys2Proof.Machine.execCmpc c ka pf cond kb s
  | .br c when_ pf target => Sys2Proof.Machine.execBr c when_ pf target s
  | .vadd c d vd va vb => Sys2Proof.Machine.execVadd c d vd va vb s
  | .vsub c d vd va vb => Sys2Proof.Machine.execVsub c d vd va vb s
  | .vmul c d vd va vb => Sys2Proof.Machine.execVmul c d vd va vb s
  | .vand c d vd va vb => Sys2Proof.Machine.execVand c d vd va vb s
  | .vor c d vd va vb => Sys2Proof.Machine.execVor c d vd va vb s
  | .vxor c d vd va vb => Sys2Proof.Machine.execVxor c d vd va vb s
  | .vmin c d vd va vb => Sys2Proof.Machine.execVmin c d vd va vb s
  | .vmax c d vd va vb => Sys2Proof.Machine.execVmax c d vd va vb s
  | .vcmpeq c d vd va vb => Sys2Proof.Machine.execVcmpeq c d vd va vb s
  | .vcmplt c d vd va vb => Sys2Proof.Machine.execVcmplt c d vd va vb s
  | .vsel c d vd va vb vc => Sys2Proof.Machine.execVsel c d vd va vb vc s
  | .vshl c d vd va vb => Sys2Proof.Machine.execVshl c d vd va vb s
  | .vsra c d vd va vb => Sys2Proof.Machine.execVsra c d vd va vb s
  | .vsrl c d vd va vb => Sys2Proof.Machine.execVsrl c d vd va vb s
  | .vaddi c d vd va imm => Sys2Proof.Machine.execVaddi c d vd va imm s
  | .vshli c d vd va imm => Sys2Proof.Machine.execVshli c d vd va imm s
  | .vsrai c d vd va imm => Sys2Proof.Machine.execVsrai c d vd va imm s
  | .vrshri c d vd va imm => Sys2Proof.Machine.execVrshri c d vd va imm s
  | .vmovi c d vd imm => Sys2Proof.Machine.execVmovi c d vd imm s
  | .vmovhi c d vd va imm => Sys2Proof.Machine.execVmovhi c d vd va imm s
  | .vbcast c d vd va imm => Sys2Proof.Machine.execVbcast c d vd va imm s
  | .vmov c d vd va => Sys2Proof.Machine.execVmov c d vd va s
  | .vredi c d vd va => Sys2Proof.Machine.execVredi c d vd va s
  | .vredf c d vd va => Sys2Proof.Machine.execVredf c d vd va s
  | .fadd c d vd va vb => Sys2Proof.Machine.execFadd c d vd va vb s
  | .fsub c d vd va vb => Sys2Proof.Machine.execFsub c d vd va vb s
  | .fmul c d vd va vb => Sys2Proof.Machine.execFmul c d vd va vb s
  | .fma c d vd va vb vc => Sys2Proof.Machine.execFma c d vd va vb vc s
  | .fmin c d vd va vb => Sys2Proof.Machine.execFmin c d vd va vb s
  | .fmax c d vd va vb => Sys2Proof.Machine.execFmax c d vd va vb s
  | .itof c d vd va => Sys2Proof.Machine.execItof c d vd va s
  | .ftoi c d vd va => Sys2Proof.Machine.execFtoi c d vd va s
  | .fcmplt c d vd va vb => Sys2Proof.Machine.execFcmplt c d vd va vb s
  | .fcmpeq c d vd va vb => Sys2Proof.Machine.execFcmpeq c d vd va vb s
  | .vtab c d vd va table => Sys2Proof.Machine.execVtab c d vd va table s
  | .vexp2 c d vd va => Sys2Proof.Machine.execVexp2 c d vd va s
  | .vtld c d k poff => Sys2Proof.Machine.execVtld c d k poff s
  | .vld c d f => Sys2Proof.Machine.execVld c d f s
  | .vst c d f => Sys2Proof.Machine.execVst c d f s
  | .vpool c d vd geom base pcnt bcnt => Sys2Proof.Machine.execVpool c d vd geom base pcnt bcnt s
  | .rq c d f => Sys2Proof.Machine.execRq c d f s
  | .vmovacc c d f => Sys2Proof.Machine.execVmovacc c d f s
  | .mma c f up yd => Sys2Proof.Machine.execMma c f up yd s
  | .replayDispatch c => Sys2Proof.Machine.execReplayDispatch c s
  | .ld c f => Sys2Proof.Machine.execLd c f s
  | .st c f => Sys2Proof.Machine.execSt c f s
  | .cgather c grec geom aob pcnt token => Sys2Proof.Machine.execCgather c grec geom aob pcnt token s
  | .wxload c vd grec geom pcnt token => Sys2Proof.Machine.execWxload c vd grec geom pcnt token s
  | .ldacc c addr amask bank tgt otb token => Sys2Proof.Machine.execLdacc c addr amask bank tgt otb token s
  | .sample c req token => Sys2Proof.Machine.execSample c req token s
  | .kgather c kdesc token => Sys2Proof.Machine.execKgather c kdesc token s
  | .kscatter c kdesc token => Sys2Proof.Machine.execKscatter c kdesc token s
  | .transferComplete c store how => Sys2Proof.Machine.execTransferComplete c store how s
  | .drcLatMiss who store delay => Sys2Proof.Machine.execDrcLatMiss who store delay s
  | .wait c token n gate => Sys2Proof.Machine.execWait c token n gate s
  | .signal c token after => Sys2Proof.Machine.execSignal c token after s
  | .barrier c mask => Sys2Proof.Machine.execBarrier c mask s
  | .semAcq c sem n gate => Sys2Proof.Machine.execSemAcq c sem n gate s
  | .semGrant sem => Sys2Proof.Machine.execSemGrant sem s
  | .semRel c sem n after => Sys2Proof.Machine.execSemRel c sem n after s
  | .arrive c ctr after => Sys2Proof.Machine.execArrive c ctr after s
  | .await c ctr n gate => Sys2Proof.Machine.execAwait c ctr n gate s
  | .sampleRequestStart u => Sys2Proof.Machine.execSampleRequestStart u s
  | .sampleRequestDone u diff => Sys2Proof.Machine.execSampleRequestDone u diff s
  | .rsmpReservationPause u => Sys2Proof.Machine.execRsmpReservationPause u s
  | .keyedRequestStart => Sys2Proof.Machine.execKeyedRequestStart s
  | .keyedRequestDone => Sys2Proof.Machine.execKeyedRequestDone s
  | .frameStart rx vc vcx hdr frameNo => Sys2Proof.Machine.execFrameStart rx vc vcx hdr frameNo s
  | .frameEnd rx vc vcx hdr => Sys2Proof.Machine.execFrameEnd rx vc vcx hdr s
  | .csiLongPacket rx vc vcx hdr dt payload crcOk behind => Sys2Proof.Machine.execCsiLongPacket rx vc vcx hdr dt payload crcOk behind s
  | .ethernetFrameReceive mac frame fcsOk sfd behind => Sys2Proof.Machine.execEthernetFrameReceive mac frame fcsOk sfd behind s
  | .sweepClose mac => Sys2Proof.Machine.execSweepClose mac s
  | .sweepComplete mac => Sys2Proof.Machine.execSweepComplete mac s
  | .tileDescriptorFetch => Sys2Proof.Machine.execTileDescriptorFetch s
  | .tileDecodeDone => Sys2Proof.Machine.execTileDecodeDone s
  | .decodeBudgetExceeded => Sys2Proof.Machine.execDecodeBudgetExceeded s
  | .priorInsertDone => Sys2Proof.Machine.execPriorInsertDone s
  | .sampleComplete stream => Sys2Proof.Machine.execSampleComplete stream s
  | .droopEvent detector => Sys2Proof.Machine.execDroopEvent detector s
  | .ppsInEdge => Sys2Proof.Machine.execPpsInEdge s
  | .syncInEdge => Sys2Proof.Machine.execSyncInEdge s
  | .holdoverTimeout => Sys2Proof.Machine.execHoldoverTimeout s
  | .ppsOutPulse => Sys2Proof.Machine.execPpsOutPulse s
  | .syncOutPulse => Sys2Proof.Machine.execSyncOutPulse s
  | .timeOffsetInWrite e => Sys2Proof.Machine.execTimeOffsetInWrite e s
  | .timeStepWrite hi v => Sys2Proof.Machine.execTimeStepWrite hi v s
  | .timeCtrlWrite v => Sys2Proof.Machine.execTimeCtrlWrite v s
  | .timeTrimWrite v => Sys2Proof.Machine.execTimeTrimWrite v s
  | .load => Sys2Proof.Machine.execLoad s
  | .patternLoaded => Sys2Proof.Machine.execPatternLoaded s
  | .patternLaunch => Sys2Proof.Machine.execPatternLaunch s
  | .unload => Sys2Proof.Machine.execUnload s
  | .flush => Sys2Proof.Machine.execFlush s
  | .rwsFieldWrite off v => Sys2Proof.Machine.execRwsFieldWrite off v s
  | .ringCfgWrite off v => Sys2Proof.Machine.execRingCfgWrite off v s
  | .subCfgWrite off v => Sys2Proof.Machine.execSubCfgWrite off v s
  | .registerWrite mgt off vs full => Sys2Proof.Machine.execRegisterWrite mgt off vs full s
  | .loRegisterRead mgt off n full => Sys2Proof.Machine.execLoRegisterRead mgt off n full s
  | .fltStatWrite b hi v => Sys2Proof.Machine.execFltStatWrite b hi v s
  | .fltForceWrite b hi v => Sys2Proof.Machine.execFltForceWrite b hi v s
  | .fltSevWrite b w v => Sys2Proof.Machine.execFltSevWrite b w v s
  | .safetyInjArm c v => Sys2Proof.Machine.execSafetyInjArm c v s
  | .druHbWrite v => Sys2Proof.Machine.execDruHbWrite v s
  | .heartbeatTimerExpiry => Sys2Proof.Machine.execHeartbeatTimerExpiry s
  | .druRestartWrite v => Sys2Proof.Machine.execDruRestartWrite v s
  | .domainRestartRequest d => Sys2Proof.Machine.execDomainRestartRequest d s
  | .drainTimeout d => Sys2Proof.Machine.execDrainTimeout d s
  | .restartBoundExpiry d => Sys2Proof.Machine.execRestartBoundExpiry d s
  | .scrubCycle m bank found => Sys2Proof.Machine.execScrubCycle m bank found s
  | .dramPatrolScrub ch found => Sys2Proof.Machine.execDramPatrolScrub ch found s
  | .cfgParitySweep bad => Sys2Proof.Machine.execCfgParitySweep bad s
  | .cfgReadback upset => Sys2Proof.Machine.execCfgReadback upset s
  | .voltageMonitorTrip m mv => Sys2Proof.Machine.execVoltageMonitorTrip m mv s
  | .clockMonitorTrip good => Sys2Proof.Machine.execClockMonitorTrip good s
  | .temperatureSample vals => Sys2Proof.Machine.execTemperatureSample vals s
  | .pllUnlock locked => Sys2Proof.Machine.execPllUnlock locked s
  | .linkTrained port inv reversed => Sys2Proof.Machine.execLinkTrained port inv reversed s
  | .trainingTimeout port => Sys2Proof.Machine.execTrainingTimeout port s
  | .flitReceive port flit => Sys2Proof.Machine.execFlitReceive port flit s
  | .flitReplayTimeout port => Sys2Proof.Machine.execFlitReplayTimeout port s
  | .rdReq port hdr => Sys2Proof.Machine.execRdReq port hdr s
  | .wrReq port hdr data => Sys2Proof.Machine.execWrReq port hdr data s
  | .rdRsp port hdr data => Sys2Proof.Machine.execRdRsp port hdr data s
  | .wrAck port hdr => Sys2Proof.Machine.execWrAck port hdr s
  | .deny port hdr => Sys2Proof.Machine.execDeny port hdr s
  | .remoteLatMiss dev rid => Sys2Proof.Machine.execRemoteLatMiss dev rid s
  | .remoteRequestAbandon dev rid => Sys2Proof.Machine.execRemoteRequestAbandon dev rid s
  | .sync port ttx echoTx echoRx half => Sys2Proof.Machine.execSync port ttx echoTx echoRx half s
  | .syncSend => Sys2Proof.Machine.execSyncSend s
  | .skip port => Sys2Proof.Machine.execSkip port s
  | .ident port dev gm1 farPort tag => Sys2Proof.Machine.execIdent port dev gm1 farPort tag s
  | .identSend => Sys2Proof.Machine.execIdentSend s
  | .sideAck port origin mseq => Sys2Proof.Machine.execSideAck port origin mseq s
  | .sideResendTimeout port => Sys2Proof.Machine.execSideResendTimeout port s
  | .domainFence port body => Sys2Proof.Machine.execDomainFence port body s
  | .domainUp port body => Sys2Proof.Machine.execDomainUp port body s
  | .partVoid port body => Sys2Proof.Machine.execPartVoid port body s
  | .deviceSafe port body => Sys2Proof.Machine.execDeviceSafe port body s
  | .deviceReady port body => Sys2Proof.Machine.execDeviceReady port body s
  | .bar2Access r noc => Sys2Proof.Machine.execBar2Access r noc s
  | .bar4Access r noc => Sys2Proof.Machine.execBar4Access r noc s
  | .hotReset => Sys2Proof.Machine.execHotReset s
  | .dataLinkDown => Sys2Proof.Machine.execDataLinkDown s
  | .dataLinkUp speed width => Sys2Proof.Machine.execDataLinkUp speed width s
  | .pciCompletionTimeout ring readAt => Sys2Proof.Machine.execPciCompletionTimeout ring readAt s
  | .tlpReceive k => Sys2Proof.Machine.execTlpReceive k s
  | .ringVectorDeferralEnd ring => Sys2Proof.Machine.execRingVectorDeferralEnd ring s
  | .getInfo => Sys2Proof.Machine.execGetInfo s
  | .sensors => Sys2Proof.Machine.execSensors s
  | .lifetimeRead => Sys2Proof.Machine.execLifetimeRead s
  | .retainedRead => Sys2Proof.Machine.execRetainedRead s
  | .attemptsClear => Sys2Proof.Machine.execAttemptsClear s
  | .fwWrite => Sys2Proof.Machine.execFwWrite s
  | .fwVerify => Sys2Proof.Machine.execFwVerify s
  | .fwActivate => Sys2Proof.Machine.execFwActivate s
  | .fwConfirm => Sys2Proof.Machine.execFwConfirm s
  | .svnCommit => Sys2Proof.Machine.execSvnCommit s
  | .lcAdvance => Sys2Proof.Machine.execLcAdvance s
  | .keyProgram => Sys2Proof.Machine.execKeyProgram s
  | .groupMap => Sys2Proof.Machine.execGroupMap s
  | .ptpStatus => Sys2Proof.Machine.execPtpStatus s
  | .flashRead => Sys2Proof.Machine.execFlashRead s
  | .mailboxUnknown => Sys2Proof.Machine.execMailboxUnknown s
  | .lifetimeCountUpdate => Sys2Proof.Machine.execLifetimeCountUpdate s
  | .lifetimeFlashWrite => Sys2Proof.Machine.execLifetimeFlashWrite s
  | .resetNAssert => Sys2Proof.Machine.execResetNAssert s
  | .resetNShortPulse => Sys2Proof.Machine.execResetNShortPulse s
  | .resetNRelease hold group => Sys2Proof.Machine.execResetNRelease hold group s
  | .powerOnDetectorAssert => Sys2Proof.Machine.execPowerOnDetectorAssert s
  | .powerOnDetectorRelease dram32 out => Sys2Proof.Machine.execPowerOnDetectorRelease dram32 out s
  | .xtalLoss => Sys2Proof.Machine.execXtalLoss s
  | .startLimitExpiry => Sys2Proof.Machine.execStartLimitExpiry s
  | .pinHoldRel => Sys2Proof.Machine.execPinHoldRel s
  | .directoryWalkEnd => Sys2Proof.Machine.execDirectoryWalkEnd s
  | .xtalReturn group => Sys2Proof.Machine.execXtalReturn group s
  | .seqLockstepDiff c => Sys2Proof.Machine.execSeqLockstepDiff c s
  | .mgtLockstepDiff => Sys2Proof.Machine.execMgtLockstepDiff s
  | .mgtSramScrub word found => Sys2Proof.Machine.execMgtSramScrub word found s
  | .tckEdge rising tms tdi trstN => Sys2Proof.Machine.execTckEdge rising tms tdi trstN s
  | .farEndReset port => Sys2Proof.Machine.execFarEndReset port s
  | .configurationWrite bme d3hot msixEn msixMask cfg aer clearUr => Sys2Proof.Machine.execConfigurationWrite bme d3hot msixEn msixMask cfg aer clearUr s

end Sys2Proof.Machine
end

