-- ==== Sys2Proof/Machine/Step.lean ====
section
/-!
DEFINITION. One step: the command at the front of the queue, or one count of the GTC when none waits.
-/
namespace Sys2Proof.Machine

/-- What the device does while no command waits: one count of the GTC passes, and the trace buffer drains. DESIGN
CHOICE, entry 1. -/
def idle (s : State) : State := if s.rst.inReset then s else drainTrace (passNs s 1)

/-- The command at the front is taken from the queue and carried out on the rest of the state. -/
def step (s : State) : Host.Outcome State Fault Refusal :=
  match s.pending with
  | [] => .next (idle s)
  | c :: rest => exec c { s with pending := rest }

/-- The command that a word spells, put at the front of the queue. -/
def State.withFetchWord (s : State) (nbits w : Nat) : State :=
  match decodeTableWord nbits w with
  | some c => { s with pending := c :: s.pending }
  | none => s

end Sys2Proof.Machine
end

