-- ==== Sys2Proof/Safety.lean ====
section
/-!
DEFINITION. What statements say of a state: the canonical form of every memory it holds, and fuses that are only ever blown.
-/
namespace Sys2Proof.Machine

/-- The memories of a core are in canonical form. -/
def Core.memsWf (k : Core) : Bool := k.asp.wf && k.wbf.wf && k.wbs.wf && k.bst.wf

/-- The memories of the management subsystem are in canonical form. -/
def Mgt.memsWf (m : Mgt) : Bool := m.buf.wf && m.sram.wf && m.retained.wf && m.flash.wf && m.life.wf && m.lifeFlash.wf

/-- Every memory that the state holds is in canonical form: addresses strictly rising, none listed that reads as unlisted. -/
def State.memsWf (s : State) : Bool :=
  s.cores.all Core.memsWf && s.fst.mem.wf && s.drc.mem.wf && s.siu.buf.wf && s.mgt.memsWf && s.host.wf

/-- Fuses `b` are fuses `a` with more of them blown: no fuse is cleared (19, R442). -/
def Otp.upTo (a b : Otp) : Prop :=
  b.corePresent = a.corePresent ∧ b.dieId = a.dieId ∧ b.dieRev = a.dieRev ∧
    (∀ i, a.lc.getLsbD i = true → b.lc.getLsbD i = true) ∧ a.svn ≤ b.svn ∧
    (keySet a.fwKey = true → b.fwKey = a.fwKey) ∧ (keySet a.patKey = true → b.patKey = a.patKey)

/-- The mark that a running command is to complete VOID, taken away. -/
def Core.unmarked (k : Core) : Core := { k with st := { k.st with run := k.st.run.map fun r => { r with void := false } } }

/-- State t differs from s at most in what the fire of a fault source touches (16, R398 to R401): the fault register sets, the
messages in host memory and the PBA, trace and Harness ordered sets, the voids, the VOID mark of a running command, and what is due
at the end of the command (restarts, the safe state, OBS_TRACE_OVF). -/
def ByFire (s t : State) : Prop :=
  t.pending = s.pending ∧ t.clk = s.clk ∧ t.time = s.time ∧ t.disp = s.disp ∧ t.rsmp = s.rsmp ∧ t.kfs = s.kfs ∧ t.fst = s.fst ∧
    t.drc = s.drc ∧ t.siu = s.siu ∧ t.mgt = s.mgt ∧ t.rst = s.rst ∧ t.tap = s.tap ∧ t.loHost = s.loHost ∧ t.loMgt = s.loMgt ∧
    t.freeSeq = s.freeSeq ∧ t.runSeq = s.runSeq ∧ t.cores.map Core.unmarked = s.cores.map Core.unmarked ∧
    { t.pci with pba := s.pci.pba } = s.pci ∧ { t.glb with voids := s.glb.voids, safeDue := s.glb.safeDue } = s.glb ∧
    { t.dru with req := s.dru.req } = s.dru

/-! ### What statements suppose of a state -/

/-- Between two commands, out of reset: nothing that an earlier fire asked for is left to carry out. -/
def State.Ready (s : State) : Prop :=
  s.rst.inReset = false ∧ s.dru.req = [] ∧ s.glb.safeDue = none ∧ s.obs.ovfDue = false

/-- Core c issues the instruction that word w names from queue q in cycle t, as entry e: the core executes, e stands at the head of
the queue (or was never dispatched and is sound), no gate is closed, and t is the first cycle that the dispatch of e, its gates and
the unit, free from cycle `free` on, allow (06, R146, R149, R152, R153). -/
def IssuesAt (s : State) (c : Nat) (q : QId) (w : BitVec 48) (free : Nat) (e : QEnt) (queued : Bool) (t : Nat) : Prop :=
  s.rst.inReset = false ∧ coreLive s c = true ∧ headFor s c q w = some (e, queued) ∧
    (queued = true ∨ slotBad s (ctxOf s c) q w = none) ∧
    ∃ g, gateCycle (coreAt s c) q e = some g ∧ t = max (max g free) (if queued then e.at_ + 1 else s.clk.cyc)

/-- The device at the cycle in which an entry of core c issues: the entry has left its queue, time has passed to cycle t, and what
becomes visible by then is visible. -/
def issuing (s : State) (c : Nat) (q : QId) (queued : Bool) (t : Nat) : State :=
  commit c (max t s.clk.cyc) (passToCyc (takeEntry c q queued s) t)

/-- Lane i of register r of core c. -/
def lane (s : State) (c : Nat) (r : BitVec 5) (i : Nat) : Word := (regLanes (coreAt s c) r.toNat).getD i 0

/-- A vector instruction of latency `lat` has issued in state s as entry e: its 64 results, one for each lane, are on their way to
register vd, become visible `lat` cycles later, and the queue is free for its next entry in the next cycle (06, R157; 07, R171);
CCn_VU_HAZARD fires where a register it uses is in flight (06, R158). -/
def laneIssued (c lat : Nat) (vd : BitVec 5) (srcs : List (BitVec 5)) (res : Nat → Word) (e : QEnt) (s : State) : State :=
  let t := s.clk.cyc
  modCore (hazardFire c t (t + lat) (srcs.map BitVec.toNat) [vd.toNat] s) c fun k =>
    { k with
      vu := { k.vu with vAt := t + 1, vwr := k.vu.vwr ++ [⟨t + lat, vd.toNat, (List.range 64).map res⟩] }
      sq := { k.sq with infl := k.sq.infl ++ [{ q := .vector, seq := e.seq, doneAt := some (t + lat) }] }
      st := { k.st with lastAct := t } }

/-- The same where the two copies of the Vector Unit differ on the result (15, R370): a disagreement event of unit 5 and the
register, at the cycle in which the result would be visible. -/
def laneEnd (c : Nat) (diff : Bool) (lat : Nat) (vd : BitVec 5) (srcs : List (BitVec 5)) (res : Nat → Word) (e : QEnt) (s : State) : State :=
  let s1 := laneIssued c lat vd srcs res e s
  let v := s.clk.cyc + lat
  if diff then disagree c { det := BitVec.ofNat 32 (5 * 2 ^ 16 + vd.toNat) } (commit c v (passToCyc s1 v)) else s1

/-- A vector instruction of occupancy `occ` and latency `lat` has issued in state s as entry e: after what it reads, registers,
scratchpad bytes and a table are on their way and become visible `lat` cycles later (06, R157; 07, R171). -/
def vectorIssued (c occ lat : Nat) (srcs : List Nat) (regs : List (Nat × List Word)) (cells : List Host.Cell)
    (table : Option (Nat × VTable)) (reads : State → State) (e : QEnt) (s : State) : State :=
  let t := s.clk.cyc
  modCore (reads (hazardFire c t (t + lat) srcs (regs.map Prod.fst) s)) c fun k =>
    { k with
      vu := { k.vu with
        vAt := t + occ
        vwr := k.vu.vwr ++ regs.map fun r => ⟨t + lat, r.1, r.2⟩
        tabWr := k.vu.tabWr ++ (table.map fun x => (t + lat, x.1, x.2)).toList }
      pend := if cells = [] then k.pend else k.pend ++ [{ at_ := t + lat, by_ := .vector, cells := cells }]
      sq := { k.sq with infl := k.sq.infl ++ [{ q := .vector, seq := e.seq, doneAt := some (t + lat) }] }
      st := { k.st with lastAct := t } }

/-- The same where the two copies of the Vector Unit differ on the result (15, R370). -/
def vectorEnd (c occ lat : Nat) (diff : Bool) (srcs : List Nat) (regs : List (Nat × List Word)) (cells : List Host.Cell)
    (table : Option (Nat × VTable)) (reads : State → State) (e : QEnt) (s : State) : State :=
  let s1 := vectorIssued c occ lat srcs regs cells table reads e s
  let v := s.clk.cyc + lat
  if diff then disagree c (vuEvent regs) (commit c v (passToCyc s1 v)) else s1

/-- A vector instruction found inconsistent at its issue: skipped with a reason, the queue free in the next cycle (06, R159). -/
def vectorSkipped (c reason : Nat) (e : QEnt) (s : State) : State :=
  skipAtIssue c .vector e reason 0 s

/-! ### What several statements have in common -/

/-- The vector instruction `i` of core c has word w, latency `lat` and source registers `srcs`, and writes `res` of the state in which it
issues, lane by lane, to register vd: from every state that lets it issue, whatever registers and lanes hold, the next state is that of its
issue. -/
def LaneResult (i : Instr) (c : CoreId) (d : Bool) (w : BitVec 48) (lat : Nat) (vd : BitVec 5) (srcs : List (BitVec 5))
    (res : State → Nat → Word) : Prop :=
  ∀ (s : State) (e : QEnt) (queued : Bool) (t : Nat), IssuesAt s c .vector w (coreAt s c).vu.vAt e queued t →
    exec i s = .next (settle (laneEnd c d lat vd srcs (res (issuing s c .vector queued t)) e (issuing s c .vector queued t)))

/-- A lane-wise instruction of two source registers, format R. -/
def TwoSource (mk : CoreId → Bool → BitVec 5 → BitVec 5 → BitVec 5 → Instr) (op lat : Nat) (f : Word → Word → Word) : Prop :=
  ∀ c d vd va vb, LaneResult (mk c d vd va vb) c d (wordR op vd va vb 0) lat vd [va, vb]
    fun s i => f (lane s c va i) (lane s c vb i)

/-- A lane-wise instruction of three source registers, format R. -/
def ThreeSource (mk : CoreId → Bool → BitVec 5 → BitVec 5 → BitVec 5 → BitVec 5 → Instr) (op lat : Nat)
    (f : Word → Word → Word → Word) : Prop :=
  ∀ c d vd va vb vc, LaneResult (mk c d vd va vb vc) c d (wordR op vd va vb vc) lat vd [va, vb, vc]
    fun s i => f (lane s c va i) (lane s c vb i) (lane s c vc i)

/-- A lane-wise instruction of one source register, format R. -/
def OneSource (mk : CoreId → Bool → BitVec 5 → BitVec 5 → Instr) (op lat : Nat) (f : Word → Word) : Prop :=
  ∀ c d vd va, LaneResult (mk c d vd va) c d (wordR op vd va 0 0) lat vd [va] fun s i => f (lane s c va i)

/-- A lane-wise instruction of one source register and a 16-bit immediate, format I. -/
def Immediate (mk : CoreId → Bool → BitVec 5 → BitVec 5 → BitVec 16 → Instr) (op : Nat) (f : Word → BitVec 16 → Word) : Prop :=
  ∀ c d vd va imm, LaneResult (mk c d vd va imm) c d (wordI op vd va imm) 3 vd [va] fun s i => f (lane s c va i) imm

/-- What the steps of a matrix instruction do to the bank of array a: a chain opens first where INIT is not 0; unless the operand buffer entry
is marked SKIP, each of the n steps takes its rows of activations and the next block of weights; the chain is n steps longer (03, R72 to
R78; 04, R105; 07, R180). -/
def mmaBank (s : State) (c : Nat) (f : MmaF) (now : Nat) (acts : List (List Int)) (a : Nat) (b : Bank) : Bank :=
  let x := (coreAt s c).mx.aob.getD f.aob.toNat {}
  let g := x.gather.getD ⟨0, 0, 0, 0, 0, 0⟩
  let n := mmaSteps (coreAt s c) f
  let w := weightBytes f.mode.toNat f.afmt.toNat f.wfmt.toNat
  let d := rowElems f.mode.toNat f.wfmt.toNat
  let b1 := if f.init = 0 then b else b.openChain f now
  let b2 := if x.skip then b1 else (List.range n).foldl (fun b i =>
    b.step (acts.map fun r => (r.drop (i * d)).take d) (stepWeights f.mode.toNat g.cpg a (g.stepFirst + i)
      (operands f.wfmt.toNat (wbfBytes s c (a * 0x200000 + f.waddr.toNat * 256 + i * w) w)))) b1
  { b2 with chain := b2.chain.map fun ch => { ch with steps := ch.steps + n } }

/-- Rows and columns of operands that a step can have: 64 rows of activations, as many elements as weight rows, 64 columns, and every element of
at most 12 bits. -/
def StepSized (x : List (List Int) × List (List Int)) : Prop :=
  x.1.length = 64 ∧ x.2.length ≤ 128 ∧ (∀ r ∈ x.1, r.length = x.2.length ∧ ∀ v ∈ r, -4096 ≤ v ∧ v ≤ 4096) ∧
    ∀ r ∈ x.2, r.length = 64 ∧ ∀ v ∈ r, -4096 ≤ v ∧ v ≤ 4096

/-- A bank on which a chain has opened and taken some steps. -/
def chained (b : Bank) (f : MmaF) (t : Nat) (steps : List (List (List Int) × List (List Int))) : Bank :=
  steps.foldl (fun b x => b.step x.1 x.2) (b.openChain f t)

/-- A CSI-2 packet that its receiver takes for an enabled camera stream: the intake and the Frame Store are in service, the device is not in the
safe state, a Pattern is ACTIVE, the extended virtual channel is not used, the stream is enabled and no replay takes its place (10, R238,
R248, R269). -/
def CameraPacket (s : State) (rx : Fin 8) (vc : Fin 4) : Prop :=
  s.rst.inReset = false ∧ inService s dSIU = true ∧ s.glb.safe = false ∧ patActive s = true ∧ streamEn s (4 * rx + vc) = true ∧
    isReplayTarget s (4 * rx + vc) = false ∧ inService s dFST = true

/-- Port p carries traffic: it is UP and its domain is in service. -/
def PortUp (s : State) (p : Nat) : Prop := s.rst.inReset = false ∧ (portAt s p).up = true ∧ portLive s p = true

/-- Memory m exists in state s: the memories of a core are those of a core that State holds. -/
def Has (s : State) (m : MemId) : Prop :=
  match m with
  | .asp c => c < s.cores.length
  | .wbf c => c < s.cores.length
  | .wbs c => c < s.cores.length
  | .bst c => c < s.cores.length
  | .fst => True
  | .dram => True
  | .intake => True

/-- Between states s and u nothing has changed but, in core c, its sequencer's queues, its vector registers with their writes in flight, and its
status beside the tokens and the run. -/
def OnlyVector (c : Nat) (s u : State) : Prop :=
  (∀ m : MemId, memOf u m = memOf s m) ∧ (∀ k, k ≠ c → coreAt u k = coreAt s k) ∧
    (coreAt u c).mx = (coreAt s c).mx ∧ (coreAt u c).xfers = (coreAt s c).xfers ∧ (coreAt u c).st.tok = (coreAt s c).st.tok ∧
    (coreAt u c).st.run = (coreAt s c).st.run ∧ (coreAt u c).sq.cnt = (coreAt s c).sq.cnt ∧ (coreAt u c).sq.pf = (coreAt s c).sq.pf ∧
    u.clk = s.clk ∧ u.flt = s.flt ∧ u.glb = s.glb ∧ u.time = s.time ∧ u.disp = s.disp ∧ u.rsmp = s.rsmp ∧ u.kfs = s.kfs ∧ u.fst = s.fst ∧
    u.drc = s.drc ∧ u.siu = s.siu ∧ u.dru = s.dru ∧ u.hrn = s.hrn ∧ u.pci = s.pci ∧ u.mgt = s.mgt ∧ u.rst = s.rst ∧ u.tap = s.tap ∧
    u.host = s.host ∧ u.obs = s.obs ∧ u.pending = s.pending

end Sys2Proof.Machine

namespace Sys2Proof

/-- The commands that can put the device into reset or take it out: the reset sources and the XTAL clock (18, R423 to R426), and a reading
of a voltage monitor while the start waits for it (21, R485). -/
def Instr.isReset (i : Instr) (s : Machine.State) : Bool :=
  match i with
  | .voltageMonitorTrip _ _ => s.rst.inReset
  | .resetNAssert => true
  | .resetNRelease _ _ => true
  | .powerOnDetectorAssert => true
  | .powerOnDetectorRelease _ _ => true
  | .xtalLoss => true
  | .xtalReturn _ => true
  | _ => false

/-- An edge of the test access port (19, R458). -/
def Instr.isTck (i : Instr) : Bool :=
  match i with
  | .tckEdge _ _ _ _ => true
  | _ => false

end Sys2Proof
end

