-- ==== Sys2Proof/Certificates/Slice0/Obligations.lean ====
section
/-!
DEFINITION. What is claimed of the machine: one Prop for each entry of OBLIGATIONS.json. Each docstring names the rules of the
spec that the statement formalises. A statement about a command that something triggers (a tick, a stage, a timer, a completion)
lets time pass to that moment first: that is the model's choice, log entry 2.
-/
open Sys2Proof Sys2Proof.Machine

/-- With commands waiting, a step is the command at the front of the queue on the state with the queue's rest; with none waiting, outside a
reset one count of the GTC passes and the trace buffer drains, and in a reset nothing changes (the model's choice, log entry 1). -/
def Obligations.StepRunsCommand : Prop :=
  (∀ (c : Instr) (s : State), step { s with pending := c :: s.pending } = exec c s) ∧
  (∀ (s : State), s.pending = [] → s.rst.inReset = true → step s = .next s) ∧
  (∀ (s : State), s.pending = [] → s.rst.inReset = false → step s = .next (drainTrace (passNs s 1)))

/-- No command is refused. Every well-formed command answers a next state and leaves the queue; one that is not well formed stops with a fault
that names it, except a scrub of a bank that does not exist, which changes nothing (the model's choice, log entry 2). -/
def Obligations.EveryCommandAnswers : Prop :=
  (∀ (c : Instr) (s : State), c.wellFormed = true → ∃ t, exec c s = .next t ∧ t.pending = s.pending) ∧
  (∀ (c : Instr) (s : State), c.wellFormed = false → (∃ m bank found, c = .scrubCycle m bank found) ∨ ∃ w, exec c s = .fault (.illFormed w)) ∧
  (∀ (c : Instr) (s : State) (r : Refusal), exec c s ≠ .refused r)

/-- 00, R14; 08; 13, R342; 15, R387; 16, R394; 17, R422; 18, R423: the state after power-on: held in reset, no Pattern, no safe state, no void,
every fault status, count and capture 0, every submission and record ring disabled, every domain of generation 0 and in service, the GTC 0,
every memory in canonical form, no command waiting. That State.reset still stands in the cold reset is the model's choice, entry 11. -/
def Obligations.ResetState : Prop :=
  State.reset.memsWf = true ∧ State.reset.pending = [] ∧ State.reset.rst.inReset = true ∧ State.reset.rst.porOn = true ∧ State.reset.rst.ready = false ∧
  State.reset.clk.gtc = 0 ∧ State.reset.glb.patState = 0 ∧ State.reset.glb.patternId = 0 ∧ State.reset.glb.safe = false ∧ State.reset.glb.voids = [] ∧
  State.reset.time.autostep = true ∧ State.reset.time.kp = 1100 ∧ State.reset.time.ki = 110 ∧ State.reset.time.syncPeriod = 1000000000 ∧
  State.reset.disp.slice = (1000000, 1000000) ∧ State.reset.disp.grace = (20000, 20000) ∧
  State.reset.disp.subs.length = 8 ∧ (∀ k ∈ State.reset.disp.subs, k.en = false ∧ k.job = none) ∧
  State.reset.disp.cpl.length = 8 ∧ (∀ k ∈ State.reset.disp.cpl, k.en = false ∧ k.held = []) ∧
  State.reset.cores.length = 16 ∧ (∀ k ∈ State.reset.cores, k.st.run = none) ∧
  State.reset.flt.length = 36 ∧ (∀ b < 36, (fltAt State.reset b).stat = 0 ∧ (fltAt State.reset b).info0 = 0 ∧ ∀ i, (fltAt State.reset b).cnt.getD i 0 = 0) ∧
  (∀ d < 25, (domAt State.reset d).gen = 0 ∧ (domAt State.reset d).phase = 0)

/-- 08, R192, R195: every step keeps every memory in its canonical form, addresses strictly rising and no address listed with what it reads as
unlisted, so that equal memories are equal data. The form is the model's own, entry 12. -/
def Obligations.MemoriesStayCanonical : Prop :=
  ∀ s t : State, s.memsWf = true → step s = .next t → t.memsWf = true

/-- 15, R387; 18, R423, R430; 19, R458; 20, R464: who may change what. Only a reset leaves the safe state, and only the reset sources put the
device into reset or out of it and write the retained record. Only an edge of TCK and a power-on reset change the test access port.
Configuration space changes by configuration writes, Hot Resets and resets alone. -/
def Obligations.OnlyNamedCommandsChange : Prop :=
  ∀ (c : Instr) (s t : State), exec c s = .next t →
    (c.isReset s = false → s.glb.safe = true → t.glb.safe = true) ∧
    (c.isReset s = false → t.rst.inReset = s.rst.inReset ∧ t.mgt.rec_ = s.mgt.rec_) ∧
    (c.isTck = false → c ≠ .powerOnDetectorAssert → t.tap = s.tap) ∧
    (c.isReset s = false → c ≠ .hotReset → (∀ b d e m cfg aer cl, c ≠ .configurationWrite b d e m cfg aer cl) →
      t.pci.bme = s.pci.bme ∧ t.pci.d3hot = s.pci.d3hot ∧ t.pci.msixEn = s.pci.msixEn ∧ t.pci.msixMask = s.pci.msixMask ∧ t.pci.configured = s.pci.configured ∧ t.pci.cfg = s.pci.cfg ∧ t.pci.aer = s.pci.aer)

/-- 19, R442: no step clears a blown fuse bit, and the security version and the keys only ever come to be set. What the device acts on is what
the boot ROM read at the last internal release: no command but the reset sources changes it, and at the end of a reset it is the fuses'
content. The lifecycle is the highest blown bit of LC, and MANUFACTURING when none is blown. -/
def Obligations.FusesOnlyBlown : Prop :=
  (∀ s t : State, step s = .next t → s.mgt.fuses.upTo t.mgt.fuses) ∧
  (∀ (c : Instr) (s t : State), exec c s = .next t → c.isReset s = false → t.mgt.otp = s.mgt.otp) ∧
  (∀ (c : Instr) (s t : State), exec c s = .next t → s.rst.inReset = true → t.rst.inReset = false → t.mgt.otp = s.mgt.fuses) ∧
  (∀ s : State, lifecycle s = if s.mgt.otp.lc.getLsbD 2 then 3 else if s.mgt.otp.lc.getLsbD 1 then 2 else if s.mgt.otp.lc.getLsbD 0 then 1 else 0)

/-- 11, R280: the device clock. At P0 the device advances one cycle per GTC count, at P1 four cycles per 5 counts, at P2 three cycles per 5
counts, counted from a cycle's edge with no droop stretch owed. Where nothing that the engines, queues and links do falls due, passing time
is that and nothing else, before the ports send what waits on them. -/
def Obligations.ClockRatios : Prop :=
  (∀ (s : State) (n : Nat), s.clk.sub = 0 → s.clk.ahead = 0 → s.clk.stretch = 0 → s.time.perf = 0 → (clockNs s n).clk.cyc = s.clk.cyc + n) ∧
  (∀ (s : State) (n : Nat), s.clk.sub = 0 → s.clk.ahead = 0 → s.clk.stretch = 0 →
    let t := clockNs s (5 * n)
    t.clk.gtc = s.clk.gtc + BitVec.ofNat 64 (5 * n) ∧
    (s.time.perf = 0 → t.clk.cyc = s.clk.cyc + 5 * n) ∧ (s.time.perf = 1 → t.clk.cyc = s.clk.cyc + 4 * n) ∧ (s.time.perf = 2 → t.clk.cyc = s.clk.cyc + 3 * n) ∧
    t.clk.sub = 0 ∧ t.clk.ahead = 0 ∧ t.clk.stretch = 0) ∧
  (∀ (s : State) (n : Nat), 0 < n → nextDue (drainTrace s) = none → passNs s n = portsRun (clockNs (drainTrace s) n))

/-- 08, R192, R193, R213: the accesses that every store, transfer and unit makes. A write of a run of bytes leaves each byte where it is stored,
every other byte of that memory as it was, and every other memory as it was; a read changes no byte of any memory, whatever words it finds
upset or poisoned. -/
def Obligations.MemoryAccesses : Prop :=
  ∀ (m : MemId) (agent : Option Nat) (s : State), s.memsWf = true → Has s m →
    (∀ (a : Nat) (bs : List Byte) (x : Nat), (memOf (writeRun m agent a bs s) m).rd x = if a ≤ x ∧ x < a + bs.length then bs.getD (x - a) 0 else (memOf s m).rd x) ∧
    (∀ (a : Nat) (bs : List Byte) (m' : MemId), m' ≠ m → memOf (writeRun m agent a bs s) m' = memOf s m') ∧
    (∀ (a n x : Nat) (m' : MemId), (memOf (readRun m agent a n s) m').rd x = (memOf s m').rd x)

/-- 06, R142. A present slot whose bits are all zero is a NOP. It enters no queue and has no effect. -/
def Obligations.ZeroSlotIsNop : Prop :=
  (∀ (s : State) (x : Ctx) (u : BitVec 256) (y : SlotAt), y.word = 0 → y ∉ entering s x u) ∧
  (∀ (s : State) (x : Ctx) (u : BitVec 256) (n r : Nat), (n, r) ∈ illegalSlots s x u → ∃ y ∈ slotsOf u, y.num = n ∧ y.word ≠ 0) ∧
  (∀ (c : Nat) (h : Hdr) (s : State), scalarOp c h 0 s = (s, none, none)) ∧
  (∀ (c : CoreId) (s : State), s.Ready → exec (.nop c) s = .next s)

/-- 07, R169, Table 7.1; 06, R147: the scalar slot. On a core that executes: NOP changes nothing; CSET loads a counter with its 23-bit
immediate; LOOP takes 1 from a counter and, unless that left 0, transfers control, its target dispatched no earlier than two cycles later;
CMPI and CMPC write a flag with an unsigned comparison (EQ, NE, LT, GE); BR transfers always, on its flag, or on its flag clear. A reserved
COND or WHEN is skipped with reason 2, a target outside the bundle range of the command with reason 4. Nothing else changes. -/
def Obligations.ScalarSlot : Prop :=
  ∀ (s : State) (c : CoreId), s.Ready → coreLive s c = true →
    let h := (ctxOf s c).hdr
    let pc := (coreAt s c).sq.pc
    let cnt := fun (k : BitVec 3) => (coreAt s c).sq.cnt.getD k.toNat 0
    let holds := fun (cond : BitVec 3) (a b : Nat) =>
      if cond = 0 then decide (a = b) else if cond = 1 then decide (a ≠ b) else if cond = 2 then decide (a < b) else decide (b ≤ a)
    let inRange := fun (t : BitVec 13) => h.entry ≤ t.toNat ∧ t.toNat < h.len
    exec (.nop c) s = .next s ∧
    (∀ (k : BitVec 3) (imm : BitVec 23), exec (.cset c k imm) s = .next (setCnt c k.toNat (BitVec.ofNat 32 imm.toNat) s)) ∧
    (∀ (k : BitVec 3) (t : BitVec 13), inRange t → exec (.loop c k t) s = .next (
      let s1 := setCnt c k.toNat (cnt k - 1) s
      if cnt k = 1 then s1 else jumpTo c t.toNat s1)) ∧
    (∀ (k : BitVec 3) (t : BitVec 13), ¬ inRange t → exec (.loop c k t) s = .next (settle (logSkip c 0 4 pc s))) ∧
    (∀ (k : BitVec 3) (pf : BitVec 2) (cond : BitVec 3) (imm : BitVec 18), cond.toNat ≤ 3 →
      exec (.cmpi c k pf cond imm) s = .next (setPf c pf.toNat (holds cond (cnt k).toNat imm.toNat) s)) ∧
    (∀ (k : BitVec 3) (pf : BitVec 2) (cond : BitVec 3) (imm : BitVec 18), 4 ≤ cond.toNat →
      exec (.cmpi c k pf cond imm) s = .next (settle (logSkip c 0 2 pc s))) ∧
    (∀ (ka : BitVec 3) (pf : BitVec 2) (cond kb : BitVec 3), cond.toNat ≤ 3 →
      exec (.cmpc c ka pf cond kb) s = .next (setPf c pf.toNat (holds cond (cnt ka).toNat (cnt kb).toNat) s)) ∧
    (∀ (ka : BitVec 3) (pf : BitVec 2) (cond kb : BitVec 3), 4 ≤ cond.toNat →
      exec (.cmpc c ka pf cond kb) s = .next (settle (logSkip c 0 2 pc s))) ∧
    (∀ (w pf : BitVec 2) (t : BitVec 13), w.toNat ≤ 2 → inRange t → exec (.br c w pf t) s = .next (
      let flag := (coreAt s c).sq.pf.getD pf.toNat false
      if w = 0 ∨ (w = 1 ∧ flag = true) ∨ (w = 2 ∧ flag = false) then jumpTo c t.toNat s else s)) ∧
    (∀ (w pf : BitVec 2) (t : BitVec 13), w.toNat ≤ 2 → ¬ inRange t → exec (.br c w pf t) s = .next (settle (logSkip c 0 4 pc s))) ∧
    (∀ (w pf : BitVec 2) (t : BitVec 13), w.toNat = 3 → exec (.br c w pf t) s = .next (settle (logSkip c 0 2 pc s)))

/-- 06, R150 to R153; 07, Table 7.12: the tokens and the barrier. From every state in which one can complete, with the cycle r from which its
own condition holds: WAIT takes n from a counter token (an operand buffer token, T0 to T3, is only read), SIGNAL adds one to a token (T0
names none, and a full counter is skipped with reason 0xB), BARRIER changes no token; each is then complete in that cycle and the queues of
its gate mask may issue from the next one. 06, R155; 17, R413: the arrival counters, while D_FST is in service. ARRIVE sets the core's bit 8
cycles after its condition, once; AWAIT completes 8 cycles after n arrivals are there and changes none. With D_FST fenced the command ends
with status FENCED. -/
def Obligations.SyncInstructions : Prop :=
  ((∀ (c : CoreId) (token : BitVec 4) (n : BitVec 8) (gate : BitVec 4) (s : State) (e : QEnt) (queued : Bool) (t r : Nat),
    tokenReady (coreAt s c) (max (baseCycle s c .sync e) (headCycle (coreAt s c) e)) token.toNat n.toNat = some r →
    IssuesAt s c .sync (wordWait token n gate) (max (max (baseCycle s c .sync e) (headCycle (coreAt s c) e)) r) e queued t →
    let s1 := issuing s c .sync queued t
    exec (.wait c token n gate) s = .next (settle (syncOver c e (if token.toNat ≤ 3 then s1 else
      modSt s1 c fun k => { k with
        tok := putAt 0 k.tok token.toNat (k.tok.getD token.toNat 0 - n.toNat)
        tokAt := putAt 0 k.tokAt token.toNat s1.clk.cyc })))) ∧
  (∀ (c : CoreId) (token after : BitVec 4) (s : State) (e : QEnt) (queued : Bool) (t r : Nat),
    earlierDone (coreAt s c) after.toNat e.seq = some r →
    IssuesAt s c .sync (wordSignal token after) (max (headCycle (coreAt s c) e) r) e queued t →
    let s1 := issuing s c .sync queued t
    let v := (coreAt s1 c).st.tok.getD token.toNat 0
    exec (.signal c token after) s = .next (settle (syncOver c e (
      if token = 0 then s1 else if 255 ≤ v then logSkip c 5 0xB e.bundle s1
      else modSt s1 c fun k => { k with
        tok := putAt 0 k.tok token.toNat (k.tok.getD token.toNat 0 + 1)
        tokAt := putAt 0 k.tokAt token.toNat s1.clk.cyc })))) ∧
  (∀ (c : CoreId) (mask : BitVec 4) (s : State) (e : QEnt) (queued : Bool) (t r : Nat),
    earlierDone (coreAt s c) mask.toNat e.seq = some r →
    IssuesAt s c .sync (wordBarrier mask) (max (headCycle (coreAt s c) e) r) e queued t →
    exec (.barrier c mask) s = .next (settle (syncOver c e (issuing s c .sync queued t))))) ∧
  ((∀ (c : CoreId) (ctr : BitVec 8) (after : BitVec 4) (s : State) (e : QEnt) (queued : Bool) (t r : Nat),
    earlierDone (coreAt s c) after.toNat e.seq = some r →
    IssuesAt s c .sync (wordArrive ctr after) (max (headCycle (coreAt s c) e) r + 8) e queued t →
    let s1 := issuing s c .sync queued t
    exec (.arrive c ctr after) s = .next (settle (if spaceFenced s1 1 then endRun c 0x21 4 s1
      else syncOver c e (setArrival c ctr.toNat s1)))) ∧
  (∀ (c : CoreId) (ctr : BitVec 8) (n : BitVec 5) (gate : BitVec 4) (s : State) (e : QEnt) (queued : Bool) (t : Nat),
    n.toNat ≤ arrCount s ctr.toNat →
    IssuesAt s c .sync (wordAwait ctr n gate)
      (max ((s.fst.arrAt.getD ctr.toNat []).getD (n.toNat - 1) 0) (headCycle (coreAt s c) e) + 8) e queued t →
    let s1 := issuing s c .sync queued t
    exec (.await c ctr n gate) s = .next (settle (if spaceFenced s1 1 then endRun c 0x21 4 s1 else syncOver c e s1))) ∧
  (∀ (c a : Nat) (s : State), c < 16 → a < 256 → s.fst.arr.length = 256 →
    arrCount (setArrival c a s) a = arrCount s a + (if bitAt (arrBits s a) c then 0 else 1) ∧
    ∀ b, b ≠ a → arrBits (setArrival c a s) b = arrBits s b))

/-- 06, R154: the semaphores. SEM_ACQ sends its request once, which reaches the Job Dispatcher 12 cycles later and waits behind those that
arrive before it, or in its cycle from a lower core; a later SEM_ACQ of the same entry completes it when its grant has reached the core.
SEM_GRANT grants the oldest request on a semaphore, once it has arrived, when the value covers it: the units pass from the value to the
core, and the entry may complete 12 cycles later; it changes nothing otherwise. SEM_REL returns the units 12 cycles after its condition,
which may grant waiting requests; when the command holds fewer it is skipped with reason 0xA as soon as it is at the head. That a command of
an entry first sends its request and a later one completes it is the model's choice, entry 3. -/
def Obligations.Semaphores : Prop :=
  (∀ (c : CoreId) (sem n : BitVec 8) (gate : BitVec 4) (s : State) (e : QEnt) (queued : Bool), s.rst.inReset = false → coreLive s c = true →
    headFor s c .sync (wordSem 4 sem n gate) = some (e, queued) →
    (queued = true ∨ slotBad s (ctxOf s c) .sync (wordSem 4 sem n gate) = none) → e.reqAt = none →
    (∀ q ∈ s.disp.semWait, q.core ≠ c.val) →
    let s1 := if queued then s else modCore s c fun k => { k with sq := { k.sq with qy := [e], seq := k.sq.seq + 1 } }
    let q : SemReq := { sem := sem.toNat, core := c, n := n.toNat, at_ := max s.clk.cyc (headCycle (coreAt s c) e) + 12 }
    exec (.semAcq c sem n gate) s = .next (settle
      { s1 with disp := { s1.disp with semWait := joinQueue SemReq.at_ SemReq.core q s1.disp.semWait } })) ∧
  (∀ (c : CoreId) (sem n : BitVec 8) (gate : BitVec 4) (s : State) (e : QEnt) (l : List QEnt) (r : Nat), s.rst.inReset = false →
    coreLive s c = true → (coreAt s c).sq.qy = e :: l → e.slot = wordSem 4 sem n gate → e.reqAt = some r →
    let s1 := passToCyc (takeEntry c .sync true s) r
    exec (.semAcq c sem n gate) s = .next (settle (syncOver c e (commit c s1.clk.cyc s1)))) ∧
  (∀ (sem : BitVec 8) (s : State) (q : SemReq), s.Ready → s.disp.semWait.find? (fun q => q.sem == sem.toNat) = some q →
    let v := fun (s : State) => s.disp.sems.getD sem.toNat 0
    let s1 := passToCyc s q.at_
    exec (.semGrant sem) s = .next (if v s < q.n then s else settle
      (modCore { s1 with disp := { s1.disp with semWait := s1.disp.semWait.erase q, sems := putAt 0 s1.disp.sems sem.toNat (v s1 - q.n) } } q.core
        fun k => { k with
          st := { k.st with holds := assocPut k.st.holds sem.toNat ((assoc k.st.holds sem.toNat).getD 0 + q.n) }
          sq := { k.sq with qy := match k.sq.qy with
            | e :: rest => { e with reqAt := some (s1.clk.cyc + 12) } :: rest
            | [] => [] } }))) ∧
  (∀ (c : CoreId) (sem n : BitVec 8) (after : BitVec 4) (s : State) (e : QEnt) (queued : Bool) (t r : Nat),
    let held := fun (s : State) => (assoc (coreAt s c).st.holds sem.toNat).getD 0
    (held s < n.toNat → r = headCycle (coreAt s c) e) →
    (n.toNat ≤ held s → ∃ d, earlierDone (coreAt s c) after.toNat e.seq = some d ∧ r = max (headCycle (coreAt s c) e) d + 12) →
    IssuesAt s c .sync (wordSem 5 sem n after) r e queued t →
    let s1 := issuing s c .sync queued t
    exec (.semRel c sem n after) s = .next (settle (if held s1 < n.toNat then skipAtIssue c .sync e 0xA 0 s1
      else
        let s2 := modSt s1 c fun k => { k with holds := assocPut k.holds sem.toNat ((assoc k.holds sem.toNat).getD 0 - n.toNat) }
        syncOver c e (semReturn sem.toNat n.toNat s2))))

/-- 07, Table 7.2; 02, R50; 06, R157: the integer vector instructions of two and three sources. From every state in which such an instruction
can issue, exec answers the state in which its 64 results are in flight to VD, where they become visible three cycles later (four for VMUL);
registers are read as they are visible in the cycle of issue. The differing form d is the disagreement event of the two copies of the unit
(15, R370). 07, Table 7.2: the integer vector instructions with an immediate, the moves, the broadcast and the integer reduction, each with
what it makes of its operands; VRSHRI rounds half to even (02, R44), VREDI is the wrapped sum of the 64 lanes in every lane. -/
def Obligations.VectorInteger : Prop :=
  (TwoSource .vadd 0x01 3 (fun a b => a + b) ∧ TwoSource .vsub 0x02 3 (fun a b => a - b) ∧
  TwoSource .vmul 0x03 4 (fun a b => a * b) ∧ TwoSource .vand 0x04 3 (fun a b => a &&& b) ∧
  TwoSource .vor 0x05 3 (fun a b => a ||| b) ∧ TwoSource .vxor 0x06 3 (fun a b => a ^^^ b) ∧
  TwoSource .vmin 0x07 3 (fun a b => BitVec.ofInt 32 (min a.toInt b.toInt)) ∧
  TwoSource .vmax 0x08 3 (fun a b => BitVec.ofInt 32 (max a.toInt b.toInt)) ∧
  TwoSource .vcmpeq 0x09 3 (fun a b => if a = b then 1 else 0) ∧
  TwoSource .vcmplt 0x0A 3 (fun a b => if a.toInt < b.toInt then 1 else 0) ∧
  ThreeSource .vsel 0x0B 3 (fun a b m => if m ≠ 0 then a else b) ∧
  TwoSource .vshl 0x0C 3 (fun a b => a <<< (b.toNat % 32)) ∧
  TwoSource .vsra 0x0D 3 (fun a b => BitVec.ofInt 32 (a.toInt / 2 ^ (b.toNat % 32))) ∧
  TwoSource .vsrl 0x0E 3 (fun a b => BitVec.ofNat 32 (a.toNat / 2 ^ (b.toNat % 32)))) ∧
  (Immediate .vaddi 0x10 (fun a imm => a + imm.signExtend 32) ∧ Immediate .vshli 0x11 (fun a imm => a <<< imm.toNat) ∧
  Immediate .vsrai 0x12 (fun a imm => BitVec.ofInt 32 (a.toInt / 2 ^ imm.toNat)) ∧
  Immediate .vrshri 0x13 (fun a imm => BitVec.ofInt 32 (rneShift a.toInt imm.toNat)) ∧
  (∀ c d vd imm, LaneResult (.vmovi c d vd imm) c d (wordI 0x14 vd 0 imm) 3 vd [] fun _ _ => imm.signExtend 32) ∧
  Immediate .vmovhi 0x15 (fun a imm => BitVec.ofNat 32 (imm.toNat * 2 ^ 16 + a.toNat % 2 ^ 16)) ∧
  (∀ c d vd va (imm : BitVec 16), LaneResult (.vbcast c d vd va imm) c d (wordI 0x18 vd va imm) 3 vd [va]
    fun s _ => lane s c va imm.toNat) ∧
  OneSource .vmov 0x19 3 id ∧
  (∀ c d vd va, LaneResult (.vredi c d vd va) c d (wordR 0x1A vd va 0 0) 5 vd [va]
    fun s _ => ((List.range 64).map (lane s c va)).foldl (fun a b => a + b) 0))

/-- 07, Table 7.2; 02, R51 to R55, Table 2.5, R60: the binary32 vector instructions, each with the operation of 02 that it carries out on every
lane and its latency; FMA rounds once, VREDF sums the 64 lanes by the tree of R55. 07, R174; 02, R58: VTAB interpolates in its table when
the table is loaded, and is skipped with reason 0xC, its token and its queue as otherwise, when it is not. -/
def Obligations.VectorFloat : Prop :=
  (TwoSource .fadd 0x20 5 f32Add ∧ TwoSource .fsub 0x21 5 f32Sub ∧ TwoSource .fmul 0x22 5 f32Mul ∧ ThreeSource .fma 0x23 6 f32Fma ∧
  TwoSource .fmin 0x24 5 f32Min ∧ TwoSource .fmax 0x25 5 f32Max ∧ OneSource .itof 0x26 5 itofW ∧ OneSource .ftoi 0x27 5 ftoiW ∧
  TwoSource .fcmplt 0x28 5 f32Lt ∧ TwoSource .fcmpeq 0x29 5 f32Eq ∧ OneSource .vexp2 0x31 4 exp2W ∧
  (∀ c d vd va, LaneResult (.vredf c d vd va) c d (wordR 0x1B vd va 0 0) 18 vd [va]
    fun s _ => f32Tree ((List.range 64).map (lane s c va)))) ∧
  ((∀ (c : CoreId) (d : Bool) (vd va : BitVec 5) (table : BitVec 16) (s : State) (e : QEnt) (queued : Bool) (t : Nat) (tab : VTable),
    IssuesAt s c .vector (wordI 0x30 vd va table) (coreAt s c).vu.vAt e queued t →
    (coreAt (issuing s c .vector queued t) c).vu.tabs.getD table.toNat none = some tab →
    exec (.vtab c d vd va table) s = .next (settle (laneEnd c d 4 vd [va]
      (fun i => interpolate tab.x0 tab.sh tab.t (lane (issuing s c .vector queued t) c va i)) e (issuing s c .vector queued t)))) ∧
  (∀ (c : CoreId) (d : Bool) (vd va : BitVec 5) (table : BitVec 16) (s : State) (e : QEnt) (queued : Bool) (t : Nat),
    IssuesAt s c .vector (wordI 0x30 vd va table) (coreAt s c).vu.vAt e queued t →
    (coreAt (issuing s c .vector queued t) c).vu.tabs.getD table.toNat none = none →
    exec (.vtab c d vd va table) s = .next (settle (vectorSkipped c 0xC e (issuing s c .vector queued t)))))

/-- 02, R54: the binary32 minimum and maximum. With a NaN operand the result is 0x7FC0_0000; otherwise it is the lesser, or the greater, of the
two in the order of the numbers in which −0 stands below +0, a subnormal taken as the zero of its sign (R52). -/
def Obligations.FloatMinMax : Prop :=
  ∀ a b : Word,
    let nan := fun (x : Word) => decide (0x7F800000 < x.toNat % 2 ^ 31)
    let fl := fun (x : Word) => if x.toNat % 2 ^ 31 < 0x00800000 then (if 2 ^ 31 ≤ x.toNat then (0x80000000 : Word) else 0) else x
    let key := fun (x : Word) => if 2 ^ 31 ≤ x.toNat then -((x.toNat - 2 ^ 31 : Nat) : Int) - 1 else (x.toNat : Int)
    ((nan a = true ∨ nan b = true) → f32Min a b = 0x7FC00000 ∧ f32Max a b = 0x7FC00000) ∧
    (nan a = false → nan b = false →
      f32Min a b = (if key (fl a) ≤ key (fl b) then fl a else fl b) ∧ f32Max a b = (if key (fl a) ≤ key (fl b) then fl b else fl a))

/-- 02, R38: INT12 in its 16-bit container. A read takes the sign-extended bits [11:0] and ignores the others, in the vector units' loads and in
the elements of tiles and pools; what VST writes has copies of bit 11 in bits [15:12]. -/
def Obligations.Int12Containers : Prop :=
  (∀ w : BitVec 16, loadLane 2 (leBytes 2 w.toNat) 0 = (w.truncate 12).signExtend 32 ∧ elemVal 2 w.toNat = (w.truncate 12).toInt) ∧
  (∀ x : Word, ∃ w : BitVec 16, storeLane 2 x = leBytes 2 w.toNat ∧ w = (w.truncate 12).signExtend 16)

/-- 07, R172 and Table 7.3; R174: VLD, VST and VTLD. From every state in which one can issue it does, and the next state is that of its issue:
VLD reads FMT's bytes at (ADDR + CNT) × 64, those that the Vector Unit writes in that cycle among them, and its 64 lanes become visible four
cycles later; VST reads no memory and its bytes are written four cycles later; a VLD or VST that reaches beyond offset 0x1E0000 is skipped
with reason 0xC; VTLD takes the queue for 16 cycles, and its table becomes visible after 17. 07, Table 7.3: what the formats of VLD and VST
do to a lane: a lane that VST stores and VLD loads again is the lane limited to the range of the format (INT8, UINT8, INT12, INT16), and FMT
4 keeps all 32 bits. -/
def Obligations.VectorLoadsAndStores : Prop :=
  ((∀ (c : CoreId) (d : Bool) (f : VmemF) (s : State) (e : QEnt) (queued : Bool) (t : Nat),
    IssuesAt s c .vector (wordVmem 0x38 f) (coreAt s c).vu.vAt e queued t →
    let s1 := issuing s c .vector queued t
    let a := (f.addr.toNat + if f.cen then (e.ctrs.getD f.cnt.toNat 0).toNat else 0) * 64
    let n := fmtBytes f.fmt.toNat
    exec (.vld c d f) s = .next (settle (if 0x1E0000 < a + n then vectorSkipped c 0xC e s1
      else vectorEnd c 1 4 d [] [(f.reg.toNat, (List.range 64).map (loadLane f.fmt.toNat ((vectorView (coreAt s1 c) s1.clk.cyc).rdN a n)))] [] none
        (readRun (.asp c) (some c.val) a n) e s1))) ∧
  (∀ (c : CoreId) (d : Bool) (f : VmemF) (s : State) (e : QEnt) (queued : Bool) (t : Nat),
    IssuesAt s c .vector (wordVmem 0x39 f) (coreAt s c).vu.vAt e queued t →
    let s1 := issuing s c .vector queued t
    let a := (f.addr.toNat + if f.cen then (e.ctrs.getD f.cnt.toNat 0).toNat else 0) * 64
    let n := fmtBytes f.fmt.toNat
    exec (.vst c d f) s = .next (settle (if 0x1E0000 < a + n then vectorSkipped c 0xC e s1
      else vectorEnd c 1 4 d [f.reg.toNat] []
        (((List.range 64).flatMap fun i => storeLane f.fmt.toNat (lane s1 c f.reg i)).mapIdx fun i b => (a + i, b)) none id e s1))) ∧
  (∀ (c : CoreId) (d : Bool) (k : BitVec 3) (poff : BitVec 13) (s : State) (e : QEnt) (queued : Bool) (t : Nat),
    IssuesAt s c .vector (wordVtld k poff) (coreAt s c).vu.vAt e queued t →
    let s1 := issuing s c .vector queued t
    exec (.vtld c d k poff) s =
      .next (settle (vectorEnd c 16 17 d [] [] [] (some (k.toNat, tableOf (ctxOf s1 c) poff.toNat)) id e s1)))) ∧
  (∀ x : Word,
    loadLane 0 (storeLane 0 x) 0 = BitVec.ofInt 32 (max (-128) (min 127 x.toInt)) ∧
    loadLane 1 (storeLane 1 x) 0 = BitVec.ofInt 32 (max 0 (min 255 x.toInt)) ∧
    loadLane 2 (storeLane 2 x) 0 = BitVec.ofInt 32 (max (-2048) (min 2047 x.toInt)) ∧
    loadLane 3 (storeLane 3 x) 0 = BitVec.ofInt 32 (max (-32768) (min 32767 x.toInt)) ∧
    loadLane 4 (storeLane 4 x) 0 = x)

/-- 07, R173; 04, R121, R122: VPOOL pools the window of the output pixel that a loop counter names. With a record that the image does not carry,
a pixel beyond the output or a window element beyond offset 0x1E0000 it is skipped with reason 0xC; where the record is there, the pixel
lies in the output and every window element within the scratchpad, it completes: it reads each in-image pixel of the window and the 64
pooled values become visible three cycles after its occupancy. -/
def Obligations.VectorPool : Prop :=
  ∀ (c : CoreId) (d : Bool) (vd : BitVec 5) (geom : BitVec 3) (base : BitVec 15) (pcnt bcnt : BitVec 3) (s : State) (e : QEnt)
    (queued : Bool) (t : Nat),
    IssuesAt s c .vector (wordVpool vd geom base pcnt bcnt) (coreAt s c).vu.vAt e queued t →
    let s1 := issuing s c .vector queued t
    (poolGeom s1 c geom.toNat = none → exec (.vpool c d vd geom base pcnt bcnt) s = .next (settle (skipAtIssue c .vector e 0xC 0 s1))) ∧
    ∀ g, poolGeom s1 c geom.toNat = some g →
      let p := (e.ctrs.getD pcnt.toNat 0).toNat
      let n := 64 * elemBytes g.afmt
      let px := poolReads g (base.toNat * 64) (e.ctrs.getD bcnt.toNat 0).toNat p
      let rows := px.map fun a => (vectorView (coreAt s1 c) s1.clk.cyc).rdN a n
      ((g.ho * g.wo ≤ p ∨ ∃ a ∈ px, 0x1E0000 < a + n) →
        exec (.vpool c d vd geom base pcnt bcnt) s = .next (settle (vectorSkipped c 0xC e s1))) ∧
      (p < g.ho * g.wo → (∀ a ∈ px, a + n ≤ 0x1E0000) →
        exec (.vpool c d vd geom base pcnt bcnt) s = .next (settle (vectorEnd c g.poolCycles (g.poolCycles + 3) d []
          [(vd.toNat, (List.range 64).map fun k => BitVec.ofInt 32 (g.pooled
            (rows.map fun r => elemVal g.afmt (leAt r (elemBytes g.afmt * k) (elemBytes g.afmt))) (g.kh * g.kw)))]
          [] none (fun s => px.foldl (fun s a => readRun (.asp c) (some c.val) a n s) s) e s1)))

/-- 04, R121, R122: what pooling makes of the in-image elements of a window of `size` positions. MAXPOOL takes their greatest, AVGPOOL their
mean, AVGPOOL_PAD the mean of all positions with PAD_VALUE at the padding; with no in-image position MAXPOOL and AVGPOOL give PAD_VALUE. A
mean is the quotient s / n rounded to nearest, ties to even. -/
def Obligations.PoolingValues : Prop :=
  ∀ (g : Geom) (vals : List Int) (size : Nat), vals.length ≤ size → 0 < size →
    let mean := fun (s n : Int) =>
      let q := s / n
      let r := s - q * n
      if 2 * r > n ∨ (2 * r = n ∧ q % 2 = 1) then q + 1 else q
    (g.mode = 4 → vals ≠ [] → g.pooled vals size ∈ vals ∧ ∀ v ∈ vals, v ≤ g.pooled vals size) ∧
    ((g.mode = 4 ∨ g.mode = 5) → vals = [] → g.pooled vals size = g.padVal) ∧
    (g.mode = 5 → vals ≠ [] → g.pooled vals size = mean vals.sum vals.length) ∧
    (g.mode = 6 → g.pooled vals size = mean (vals.sum + (size - vals.length : Int) * g.padVal) size)

/-- 07, R175 to R178; 04, R120: RQ and VMOVACC read 256 accumulators of a row-group. From every state in which one can issue, the read being
possible from cycle r on: a read that R178 forbids is skipped with reason 0x6; a VMOVACC that reaches beyond offset 0x1E0000, or an RQ that
selects a parameter entry that is not there or has a reserved bit set, with reason 0xC; else the row-group is marked read, and the
requantised values reach the four registers from VD, or the accumulators in 8-byte containers the scratchpad, five cycles later. -/
def Obligations.DrainReads : Prop :=
  (∀ (c : CoreId) (d : Bool) (f : RqF) (s : State) (e : QEnt) (queued : Bool) (t r : Nat),
    drainWait c (rqRd f) s e = some r → IssuesAt s c .vector (wordRq f) r e queued t →
    let s1 := issuing s c .vector queued t
    let de := rqDescOf ((ctxOf s1 c).par f.pset.toNat)
    (drainBad (coreAt s1 c) (rqRd f) s1.clk.cyc = true →
      exec (.rq c d f) s = .next (settle (skipAtIssue c .vector e 6 0 s1))) ∧
    (drainBad (coreAt s1 c) (rqRd f) s1.clk.cyc = false → rqParams (ctxOf s1 c) de (rqRd f) (e.ctrIf f.cen f.cnt) = none →
      exec (.rq c d f) s = .next (settle (skipAtIssue c .vector e 0xC 0 s1))) ∧
    (∀ ps, drainBad (coreAt s1 c) (rqRd f) s1.clk.cyc = false → rqParams (ctxOf s1 c) de (rqRd f) (e.ctrIf f.cen f.cnt) = some ps →
      let y := (ps.zip (drainVals (coreAt s1 c) (rqRd f))).map fun x => BitVec.ofInt 32 (requant x.1 de.bounds.1 de.bounds.2 x.2)
      exec (.rq c d f) s = .next (settle (vectorEnd c 1 5 d []
        [(f.vd.toNat, y.take 64), (f.vd.toNat + 1, (y.drop 64).take 64), (f.vd.toNat + 2, (y.drop 128).take 64),
          (f.vd.toNat + 3, (y.drop 192).take 64)] [] none (drainRead c (rqRd f)) e s1)))) ∧
  (∀ (c : CoreId) (d : Bool) (f : MovAccF) (s : State) (e : QEnt) (queued : Bool) (t r : Nat),
    drainWait c (movRd f) s e = some r → IssuesAt s c .vector (wordMovAcc f) r e queued t →
    let s1 := issuing s c .vector queued t
    let a := f.addr.toNat * 64
    exec (.vmovacc c d f) s = .next (settle (
      if drainBad (coreAt s1 c) (movRd f) s1.clk.cyc then skipAtIssue c .vector e 6 0 s1
      else if 0x1E0000 < a + 2048 then skipAtIssue c .vector e 0xC 0 s1
      else vectorEnd c 2 5 d [] []
        (((drainVals (coreAt s1 c) (movRd f)).flatMap fun v => leBytes 8 (wrapTo 64 v.toInt)).mapIdx fun i b => (a + i, b)) none
        (drainRead c (movRd f)) e s1)))

/-- 06, R157; 07, R170, R171: a vector result becomes visible. At any cycle from the issue's plus the latency on, unless a later visible write
of VD is in flight too, the 64 lanes of VD are the results; every other register reads as it would without the instruction. -/
def Obligations.VectorResultsBecomeVisible : Prop :=
  ∀ (c lat t : Nat) (vd : BitVec 5) (srcs : List (BitVec 5)) (res : Nat → Word) (e : QEnt) (s : State), c < s.cores.length → s.clk.cyc + lat ≤ t →
    (∀ w ∈ (coreAt s c).vu.vwr, w.reg = vd.toNat → w.visibleAt ≤ s.clk.cyc + lat) →
    (∀ i < 64, lane (commit c t (laneIssued c lat vd srcs res e s)) c vd i = res i) ∧
    ∀ (r : BitVec 5) (i : Nat), r ≠ vd → lane (commit c t (laneIssued c lat vd srcs res e s)) c r i = lane (commit c t s) c r i

/-- 06, R157, R158; 07, R170, R171: the frame of the lane-wise vector instructions. Where nothing is due at its issue and no hazard is found,
such an instruction changes nothing of the device as it stands then but its core's vector pipeline: no byte of any memory, no other core, no
vector register (VD included, until its result becomes visible), nothing of the Matrix Arrays, the transfers and the tokens, and no other
unit. Where it issues in the present cycle, the device as it stands then is the one before it, but for the results that become visible. -/
def Obligations.LaneInstructionFrame : Prop :=
  ∀ (i : Instr) (c : CoreId) (w : BitVec 48) (lat : Nat) (vd : BitVec 5) (srcs : List (BitVec 5)) (res : State → Nat → Word),
    LaneResult i c false w lat vd srcs res → ∀ (s u : State) (e : QEnt) (queued : Bool) (t : Nat),
    IssuesAt s c .vector w (coreAt s c).vu.vAt e queued t →
    let s1 := issuing s c .vector queued t
    s1.Ready → hazardOf (coreAt s1 c) s1.clk.cyc (s1.clk.cyc + lat) (srcs.map BitVec.toNat) [vd.toNat] = none →
    exec i s = .next u →
    OnlyVector c s1 u ∧ (∀ r : Nat, regLanes (coreAt u c) r = regLanes (coreAt s1 c) r) ∧
    (t ≤ s.clk.cyc → OnlyVector c s s1 ∧
      ∀ r : Nat, (∀ x ∈ (coreAt s c).vu.vwr, x.reg ≠ r) → regLanes (coreAt s1 c) r = regLanes (coreAt s c) r)

/-- 03, R72 to R85; 04, R104, R105; 07, R180, R181: MMA. From every state in which one can issue, its unit allowing it from cycle r on: an
inconsistent one is skipped with reason 0x6 and the matrix queue is free in the next cycle; one that is not the last of its chain takes n =
N_M1 + 1 cycles (1 with SKIP), accumulates into the bank of every array of AMASK and of no other, marks when its operand buffer entry has
been read (releasing it with REL), completes 33 cycles after its last step, and counts its steps. -/
def Obligations.MatrixAccumulates : Prop :=
  ∀ (c : CoreId) (f : MmaF) (up : List Upset) (yd : Bool) (s : State) (e : QEnt) (queued : Bool) (t r : Nat),
    mmaReady c f s e = some r → IssuesAt s c .matrix (wordMma f) r e queued t →
    let s1 := issuing s c .matrix queued t
    let now := s1.clk.cyc
    let k := coreAt s1 c
    let n := mmaSteps k f
    ((mmaBadBank k f e.seq || mmaBadAob k f) = true → exec (.mma c f up yd) s = .next (settle (skipAtIssue c .matrix e 6 0
      (modCore s1 c fun k => { k with mx := { k.mx with mFirst := now + 1 } })))) ∧
    ((mmaBadBank k f e.seq || mmaBadAob k f) = false → f.last = false →
      let s2 := if (k.mx.aob.getD f.aob.toNat {}).skip then s1 else mmaReads c f n s1
      exec (.mma c f up yd) s = .next (settle (modCore s2 c fun k =>
        let writing := k.xfers.any Xfer.store || (s1.kfs.queue ++ s1.kfs.serving.toList).any fun r => r.core == c && (keyedOf r.desc).scatter
        let used := if writing then k.mx.checks else k.mx.checks.filter fun x => decide (now < x.2)
        { k with
          mx := { k.mx with
            banks := (arraysOf f.amask).foldl (fun bs a => upd bs (2 * a + b2n f.bank) (mmaBank s2 c f now (aobRows s2 c f n) a))
              k.mx.banks
            aob := upd k.mx.aob f.aob.toNat fun x => if f.rel then { readAt := now + n - 1 } else { x with readAt := now + n - 1 }
            checks := used, mAt := now + n - 1 + 1, mFirst := now }
          sq := { k.sq with infl := k.sq.infl ++ [{ q := .matrix, seq := e.seq, doneAt := some (now + n - 1 + 33) }] }
          st := { k.st with
            obs := putAt 0 k.st.obs 3 (k.st.obs.getD 3 0 + n)
            tokAt := if f.rel then putAt 0 k.st.tokAt f.aob.toNat (now + n - 1) else k.st.tokAt
            lastAct := now } })))

/-- 03, R42, R72, R89: one step adds to every accumulator the inner product of its row of activations and its column of weights, and keeps the
low 40 bits of the sum in two's complement. -/
def Obligations.BankStepAccumulates : Prop :=
  ∀ (b : Bank) (act w : List (List Int)) (i j : Nat), act.length = 64 → (∀ r ∈ act, r.length = w.length) → (∀ r ∈ w, r.length = 64) →
    i < 64 → j < 64 →
    (b.step act w).acc.getD (64 * i + j) 0 = wrap40 ((b.acc.getD (64 * i + j) 0).toInt +
      ((List.range w.length).map fun x => (act.getD i []).getD x 0 * (w.getD x []).getD j 0).sum)

/-- 03, R73, R86, R90: when the last step of a chain issues at e (not in WINOGRAD mode, no upset, no armed injection), the bank's tile is in its
Drain Buffer entry, the chain is over, and an event is signalled at e + 36 exactly when the check finds a row or a column. The cycle e + 36
of the event is the model's reading, entry 27. -/
def Obligations.ChainCloses : Prop :=
  ∀ (f : MmaF) (e a : Nat) (yd : Bool) (k : Core) (ev : List (Nat × DisEvent)), a < 4 → f.mode ≠ 1 → k.st.injArmed = false →
    k.mx.banks.length = 8 → k.mx.drains.length = 8 →
    let i := 2 * a + b2n f.bank
    let b := k.mx.banks.getD i {}
    let tile := b.acc ++ List.replicate (4096 - b.acc.length) 0
    let r := closeChain f e [] yd (k, ev) a
    r.1.mx.drains.getD i none = some { e := e, mode := f.mode.toNat, tile := tile } ∧
    r.1.mx.banks.getD i {} = { b with chain := none, lastStep := some e } ∧
    (∀ i', i' ≠ i → r.1.mx.banks.getD i' {} = k.mx.banks.getD i' {} ∧ r.1.mx.drains.getD i' none = k.mx.drains.getD i' none) ∧
    r.1.mx.otbs = k.mx.otbs ∧ r.1.st = k.st ∧
    r.2 = ev ++ (if b.check tile = ([], []) then [] else [(e + 36, { det := BitVec.ofNat 32 (a * 2 ^ 16 + locator a (b2n f.bank) (b.check tile)) })])

/-- 03, R88 to R90: the Residue Checker is sound. Whatever the accumulators held and whatever the steps of the chain, a tile that drains as it
was accumulated, wraps of the 40-bit accumulators included, agrees with the predicted residues of all 64 rows and 64 columns. -/
def Obligations.ResidueCheckerSound : Prop :=
  ∀ (b : Bank) (f : MmaF) (t : Nat) (steps : List (List (List Int) × List (List Int))), b.acc.length ≤ 4096 →
    (∀ x ∈ steps, StepSized x) → (chained b f t steps).check (chained b f t steps).acc = ([], [])

/-- 03, R88 to R90: the Residue Checker finds every upset of one bit of a drained tile, and finds it in the row and the column of the upset
alone: 2 to the power of no bit position is a multiple of the modulus 2^20 − 1. -/
def Obligations.ResidueCheckerFindsOneBit : Prop :=
  ∀ (b : Bank) (f : MmaF) (t : Nat) (steps : List (List (List Int) × List (List Int))) (row col bit : Nat), b.acc.length ≤ 4096 →
    (∀ x ∈ steps, StepSized x) → row < 64 → col < 64 → bit < 40 →
    (chained b f t steps).check (flipBit (chained b f t steps).acc row col bit) = ([row], [col])

/-- 07, R185 to R188; 03, R82; 04, R104: the loads and stores. From every state in which one can issue, with the cycle r from which a place
among the four transfers of its engine and the operand buffer entry it fills are free: an access outside its space or its regions (or an
operand buffer entry not wholly covered), a gather beyond the output, or a walk beyond the scratchpad is skipped with reason 0xC, with its
token; one to a memory or a Harness port in a fenced domain ends the command FENCED; a CGATHER of a skip-eligible range fills its entry
marked SKIP without reading; every other one starts its transfer. -/
def Obligations.TransfersStart : Prop :=
  (∀ (c : CoreId) (store : Bool) (f : LdF) (s : State) (e : QEnt) (queued : Bool) (t r : Nat),
    ldReady c store s e = some r → IssuesAt s c (xferQ store) (wordLd f) r e queued t →
    let s1 := issuing s c (xferQ store) queued t
    let p := (ldPlan (ctxOf s1 c) e).1
    let src := (ldPlan (ctxOf s1 c) e).2.1
    let dst := (ldPlan (ctxOf s1 c) e).2.2
    let inside := walkInside s1 c (ctxOf s1 c) p.src p.sdev false src && walkInside s1 c (ctxOf s1 c) p.dst p.ddev true dst
    let tok := (ldOf e.slot).token.toNat
    exec (if store then .st c f else .ld c f) s = .next (settle (
      if inside && (aobOf p.dst p.druns).isSome then
        (if sideFenced s1 (p.src, p.sdev) || sideFenced s1 (p.dst, p.ddev) then endRun c 0x21 4 s1
         else startXfer c store e tok p (((aobOf p.dst p.druns).getD none).map fun a => (a, none)) false s1)
      else skipAtIssue c (xferQ store) e 0xC tok s1))) ∧
  (∀ (c : CoreId) (grec : BitVec 13) (geom : BitVec 3) (aob : BitVec 2) (pcnt : BitVec 3) (token : BitVec 4) (s : State) (e : QEnt)
    (queued : Bool) (t r : Nat),
    cgatherReady c aob.toNat s e = some r → IssuesAt s c .load (wordCgather grec geom aob pcnt token) r e queued t →
    let s1 := issuing s c .load queued t
    let g := (gatherRecs (ctxOf s1 c) e.slot).1
    let q := (gatherRecs (ctxOf s1 c) e.slot).2
    let j := e.ctr (fld e.slot 23 21)
    let a := fld e.slot 25 24
    let p := cgatherPlan (ctxOf s1 c) e
    let filled : GatherRec := { n := q.stepCnt, mode := g.mode, afmt := g.afmt, wfmt := g.wfmt,
                                cpg := if g.mode = 3 then g.cpg else 0, stepFirst := q.stepFirst }
    exec (.cgather c grec geom aob pcnt token) s = .next (settle (
      if g.ho * g.wo ≤ 64 * j then skipAtIssue c .load e 0xC token.toNat s1
      else if skipEligible g q j then
        completeEntry c .load e.seq e.bundle token.toNat (fillAob c a true (some filled) (addInfl c .load e.seq none s1))
      else if !walkInside s1 c (ctxOf s1 c) p.src p.sdev false (p.sruns.map fun x => ((x.1 : Int), x.2)) then
        skipAtIssue c .load e 0xC token.toNat s1
      else if sideFenced s1 (p.src, p.sdev) then endRun c 0x21 4 s1
      else startXfer c false e token.toNat p (some (a, some filled)) false s1))) ∧
  (∀ (c : CoreId) (vd : Bool) (grec : BitVec 13) (geom pcnt : BitVec 3) (token : BitVec 4) (s : State) (e : QEnt) (queued : Bool) (t r : Nat),
    loadRoom c s e = some r → IssuesAt s c .load (wordWxload grec geom pcnt token) r e queued t →
    let s1 := issuing s c .load queued t
    let g := (gatherRecs (ctxOf s1 c) e.slot).1
    let q := (gatherRecs (ctxOf s1 c) e.slot).2
    let p := wxloadPlan (ctxOf s1 c) e
    exec (.wxload c vd grec geom pcnt token) s = .next (settle (
      if g.tiles ≤ 64 * e.ctr (fld e.slot 23 21) ∨ 0x1E0000 < q.dest + 15 * q.pstride + 128 * q.ccnt then
        skipAtIssue c .load e 0xC token.toNat s1
      else if !walkInside s1 c (ctxOf s1 c) p.src p.sdev false (p.sruns.map fun x => ((x.1 : Int), x.2)) then
        skipAtIssue c .load e 0xC token.toNat s1
      else if sideFenced s1 (p.src, p.sdev) then endRun c 0x21 4 s1
      else startXfer c false e token.toNat p none vd s1))) ∧
  (∀ (c : CoreId) (addr : BitVec 15) (amask : BitVec 4) (bank tgt otb : Bool) (token : BitVec 4) (s : State) (e : QEnt) (queued : Bool)
    (t r : Nat),
    ldaccReady c amask bank tgt otb s e = some r → IssuesAt s c .load (wordLdacc addr amask bank tgt otb token) r e queued t →
    let s1 := issuing s c .load queued t
    let p := ldaccPlan e
    exec (.ldacc c addr amask bank tgt otb token) s = .next (settle (
      if ∃ x ∈ p.sruns, 0x200000 < x.1 + x.2 then skipAtIssue c .load e 0xC token.toNat s1
      else if tgt = false ∧ ldaccOpen (coreAt s1 c) amask bank = true then skipAtIssue c .load e 6 token.toNat s1
      else startXfer c false e token.toNat p none false s1)))

/-- 06, Table 6.3; 08, R206, R500; 15, R371, R384: the end of a transfer. While the core executes, the oldest transfer of an engine, no message
of which is unanswered, finishes at its completion cycle: it leaves the list, what it has not written yet is written, the operand buffer
entry it fills is valid, and its entry completes with its token (a difference at V is a disagreement event instead). One that arrives with a
parity error finishes as well, after GLB_NOC_PARITY and with its command VOID: a store with the error in its address or control is dropped,
and the bytes of every other one are poisoned. DRC_LAT_MISS puts off the oldest transfer over DRAM of a latency-critical command, with the
pieces it has not written, and fires the source. -/
def Obligations.TransfersEnd : Prop :=
  (∀ (c : CoreId) (store : Bool) (s : State) (x : Xfer), s.rst.inReset = false → coreLive s c = true →
    (coreAt s c).xfers.find? (fun x => x.store == store) = some x → x.msgs = none → x.waiting = [] → (x.dspace = 6 → pciUp s = true) →
    let t := xferDone (coreAt s c) x
    let s1 := commit c (max t s.clk.cyc) (passToCyc s t)
    (∀ e, exec (.transferComplete c store (.parity e)) s =
      .next (settle (finishXfer c (nocXfer c x (some e) s1).2 (nocXfer c x (some e) s1).1))) ∧
    let s2 := modCore s1 c fun k => { k with xfers := k.xfers.filter fun y => y.store != store || y.ent.seq != x.ent.seq }
    let s3 := writeXfer c x s2
    exec (.transferComplete c store .whole) s = .next (settle (
      if x.vdiff then disagree c { det := BitVec.ofNat 32 (4 * 2 ^ 16) } s2
      else completeEntry c (xferQ store) x.ent.seq x.ent.bundle x.token
        (match x.aob with | some (a, g) => fillAob c a false g (landXfer c x.ent.seq s3) | none => s3)))) ∧
  (∀ (c : Nat) (x : Xfer) (e : NocErr) (s : State) (space dev : Nat) (cells : List Host.Cell) (ps : List Bool),
    x.dst = .bytes space dev cells ps → x.dspace ≠ 0 → x.dspace ≠ 3 →
    (nocXfer c x (some e) s).1 = consumed (some c) (fire { b := bGLB, src := 3, who := whoOn s c } s) ∧
    (nocXfer c x (some e) s).2 = { x with dst := if e = .control ∧ x.store = true then .none else .bytes space dev cells (cells.map fun _ => true) }) ∧
  (∀ (c : CoreId) (store : Bool) (delay : Word) (s : State) (x : Xfer) (r : Run), s.rst.inReset = false → (coreAt s c).st.run = some r →
    r.lc = true → (coreAt s c).xfers.find? (fun x => x.store == store && (x.src == 2 || x.dspace == 2)) = some x →
    exec (.drcLatMiss (some c) store delay) s = .next (settle (fire { b := bDRC, src := 4, who := .lcCmd r.part }
      (delayXfer c x delay.toNat s)))) ∧
  (∀ (store : Bool) (delay : Word) (s : State), s.rst.inReset = false → dramUp s = true →
    exec (.drcLatMiss none store delay) s = .next (settle (fire { b := bDRC, src := 4 } s)))

/-- 05, R124, R134; 09, R223, R234; 15, R371: SAMPLE, KGATHER and KSCATTER. From every state in which one can issue, its unit having a place
among its 16 requests (a KSCATTER also waiting so that its first lookup, 16 cycles on, meets no pending check): with D_FST (or, for a keyed
request, D_DRC) fenced the command ends FENCED; else the request joins the unit's queue, behind all but those that higher cores made in its
cycle, carrying the run, the record and the token, and the entry is in flight until the request completes. -/
def Obligations.RequestsIssue : Prop :=
  (∀ (c : CoreId) (req : BitVec 3) (token : BitVec 4) (s : State) (e : QEnt) (queued : Bool) (t : Nat),
    (rsmpAt s (reqOf (reqRec (ctxOf s c).img (ctxOf s c).hdr req.toNat)).unit).depth < 16 →
    IssuesAt s c .load (wordSample req token) 0 e queued t →
    let s1 := issuing s c .load queued t
    let x := ctxOf s1 c
    let rec0 := reqRec x.img x.hdr req.toNat
    let r := (coreAt s1 c).st.run
    exec (.sample c req token) s = .next (settle (if spaceFenced s1 1 then endRun c 0x21 4 s1
      else addInfl c .load e.seq none (modRsmp s1 (reqOf rec0).unit fun k => { k with
        queue := joinQueue SReq.at_ SReq.core
          { core := c, run := (r.map Run.id).getD 0, lc := (r.map Run.lc).getD false, stage := (r.map Run.stage).getD 0, seq := e.seq,
            bundle := e.bundle, token := token.toNat, at_ := s1.clk.cyc, req := rec0,
            srcs := (List.range (reqOf rec0).srcCnt).map fun i => srcRec x.img x.hdr ((reqOf rec0).srcFirst + i) } k.queue })))) ∧
  (∀ (c : CoreId) (store : Bool) (kdesc : BitVec 13) (token : BitVec 4) (s : State) (e : QEnt) (queued : Bool) (t : Nat),
    s.kfs.depth < 16 →
    IssuesAt s c (xferQ store) (wordKeyed (if store then 2 else 6) kdesc token)
      (if store then holdPast (coreAt s c).mx.checks (baseCycle s c .store e + 16) - 16 else 0) e queued t →
    let s1 := issuing s c (xferQ store) queued t
    let r := (coreAt s1 c).st.run
    exec (if store then .kscatter c kdesc token else .kgather c kdesc token) s = .next (settle (
      if spaceFenced s1 1 || spaceFenced s1 2 then endRun c 0x21 4 s1
      else addInfl c (xferQ store) e.seq none { s1 with kfs := { s1.kfs with
        queue := joinQueue KReq.at_ KReq.core
          { core := c, run := (r.map Run.id).getD 0, seq := e.seq, bundle := e.bundle, token := token.toNat, at_ := s1.clk.cyc,
            desc := (ctxOf s1 c).par kdesc.toNat } s1.kfs.queue } })))

/-- 05, R134 to R138; 15, R383: a Region Sampler that serves nothing, with D_FST in service and out of the safe state, starts at the first cycle
it is free: a fresh request leaves the queue, a paused one resumes where it stood, and with no request that it may serve nothing changes. It
ends a request with its last output, or at the position where its two copies differ: then RSMP_CMP_FAIL fires and the command is to complete
VOID, and the count of outside positions stays that of the last completed request. 64 cycles before a reservation opens, a best-effort
request is paused and a latency-critical one is not. 09, R224, R228, R234: the Keyed Feature Store, with D_FST and D_DRC in service and out
of the safe state, starts its oldest request at the first cycle the store is free, a GRID request reading its origin from the Frame Store;
the started request that completes first does so at its fixed cycle, every key up to it looked up. -/
def Obligations.UnitsServe : Prop :=
  ((∀ (u : Fin 4) (s : State), s.Ready → (rsmpAt s u).serving = none → inService s dFST = true → s.glb.safe = false →
    let s1 := passToCyc s (rsmpAt s u).freeAt
    exec (.sampleRequestStart u) s = .next (match nextSample s1 u with
      | none => s
      | some (r, true) => settle (modRsmp s1 u fun k => { k with paused := none, serving := some { r with start := s1.clk.cyc - r.start } })
      | some (r, false) => settle (modRsmp s1 u fun k => { k with queue := k.queue.erase r, serving := some { r with start := s1.clk.cyc } }))) ∧
  (∀ (u : Fin 4) (s : State) (r : SReq), s.rst.inReset = false → (rsmpAt s u).serving = some r →
    let q := reqOf r.req
    let s1 := passToCyc s (r.start + q.occupancy - 1)
    (r.lc = true ∨ reservation s1 u = none) →
    let x := samplePositions u q.total s1 ((rsmpAt s1 u).serving.getD r)
    exec (.sampleRequestDone u none) s = .next (settle (requestOver .load r.core r.run r.seq r.bundle r.token
      (modRsmp x.1 u fun k => { k with serving := none, freeAt := x.1.clk.cyc + 1, outside := x.2.outside })))) ∧
  (∀ (u : Fin 4) (s : State) (r : SReq) (g : Nat), s.rst.inReset = false → (rsmpAt s u).serving = some r →
    r.done ≤ g → g < (reqOf r.req).total →
    let s1 := passToCyc s (r.start + (reqOf r.req).cycleOf g)
    (r.lc = true ∨ reservation s1 u = none) →
    let x := samplePositions u g s1 ((rsmpAt s1 u).serving.getD r)
    let s3 := modRsmp x.1 u fun k => { k with serving := none, freeAt := x.1.clk.cyc + 1 }
    exec (.sampleRequestDone u (some g)) s = .next (settle (requestOver .load r.core r.run r.seq r.bundle r.token
      (consumed (r.agent s3) (fire { b := bRSMP u, src := 1, who := agentWho s3 (r.agent s3) } s3))))) ∧
  (∀ (u : Fin 4) (s : State) (st : Nat) (g : Stage), s.rst.inReset = false → patActive s = true → nextReservation s u = some (st, g) →
    let s1 := passToOff s (g.openNs - cycNs s 64)
    exec (.rsmpReservationPause u) s = .next (settle (match (rsmpAt s1 u).serving with
      | none => modRsmp s1 u fun k => { k with resvFor := some st }
      | some r => if r.lc then modRsmp s1 u fun k => { k with resvFor := some st }
        else modRsmp (samplerAdvance u s1.clk.cyc s1) u fun k =>
          match k.serving with
          | some r => if r.lc then { k with resvFor := some st }
            else { k with serving := none, paused := some { r with start := s1.clk.cyc - r.start }, freeAt := max k.freeAt s1.clk.cyc, resvFor := some st }
          | none => { k with resvFor := some st })))) ∧
  ((∀ (s : State), s.rst.inReset = false → s.kfs.queue ≠ [] → inService s dFST = true → dramUp s = true → s.glb.safe = false →
    let s2 := passToCyc s (keyedFreeAt s)
    ∀ (r : KReq) (rest : List KReq), s2.kfs.queue = r :: rest →
      let d := keyedOf r.desc
      let s3 := if d.grid then readRun .fst (r.agent s2) d.key 8 s2 else s2
      exec .keyedRequestStart s = .next (settle { s3 with kfs := { s3.kfs with
        queue := rest
        serving := some { r with start := s3.clk.cyc, done := 0,
                                 origin := if d.grid then BitVec.ofNat 64 (s3.fst.mem.rdLe d.key 8) else 0 } } })) ∧
  (∀ (s : State) (r0 r : KReq), s.rst.inReset = false → nextKeyedDone s = some r0 →
    let s2 := passToCyc s r0.doneAt
    s2.kfs.finishing.find? (fun r => r.core == r0.core && r.run == r0.run && r.seq == r0.seq && r.desc == r0.desc) = some r →
    exec .keyedRequestDone s = .next (settle (requestOver (if (keyedOf r.desc).scatter then .store else .load) r.core r.run r.seq r.bundle
      r.token { s2 with kfs := { s2.kfs with finishing := s2.kfs.finishing.erase r } }))))

/-- 12, R303; 06, R144, R145; 15, R372, R376; 17, R413: latency-critical commands reach their cores. COMMAND_DISPATCH places the next command of
core c when no command and no swatch holds the core and the device is not in the safe state: its setup begins once its job is launched, the
core is idle and every command before it in the list has been placed; one whose first bundle comes before the open of its stage is noted. On
a retired core the command is not executed, its partition is void, DISP source 1 fires and the record is VOID; on a core out of service its
record has status 0x21. REPLAY_DISPATCH begins the replay of an ended command on the idle core. A setup takes the cycles that the command's
header sets, 24 more when the core's clocks are gated; then the command is rejected with status 0x23, or it runs from its entry bundle with
the core as a command finds it. -/
def Obligations.CommandsDispatched : Prop :=
  (∀ (c : CoreId) (s : State) (j : LcJob) (x : LcCmd), s.rst.inReset = false → s.glb.safe = false → (coreAt s c).st.swatchAt = none →
    (coreAt s c).st.swatchDue = false → (coreAt s c).st.run = none → lcTurn s c = some (j, x) →
    (isRetired s x.core = true → exec (.commandDispatch c) s = .next (settle (lcOver j.stage j.job x.idx 0x40 0
      (fire { b := bDISP, src := 1, who := .lcCmd j.part } (voidParts [j.part] s))))) ∧
    (isRetired s x.core = false → inService s (dCore x.core) = false →
      exec (.commandDispatch c) s = .next (settle (lcOver j.stage j.job x.idx 0x21 0 s))) ∧
    (isRetired s x.core = false → inService s (dCore x.core) = true →
      let t := max (max j.at_ (coreAt s x.core).st.idleAt) (maxN ((j.cmds.filter fun y => decide (y.idx < x.idx)).map fun y => (placedAt s j y).getD 0))
      let r := lcRun s j x
      let s1 := modCmd j.stage j.job x.idx (fun y => { y with phase := .placed, at_ := t }) { s with runSeq := s.runSeq + 1 }
      exec (.commandDispatch c) s = .next (settle (dispatchedEarly j x (setupRun x.core r t (modSt s1 x.core fun k => { k with run := some r })))))) ∧
  (∀ (c : CoreId) (s : State) (j : LcJob) (x : LcCmd), s.rst.inReset = false → s.glb.safe = false → (coreAt s c).st.run = none →
    replayTurn s c = some (j, x) → inService s (dCore c) = true →
    let r := lcRun s j x
    let s1 := modCmd j.stage j.job x.idx (fun y => { y with phase := .placed }) { s with runSeq := s.runSeq + 1 }
    exec (.replayDispatch c) s = .next (settle (setupRun c r (coreAt s c).st.idleAt (modSt s1 c fun k => { k with run := some r })))) ∧
  (∀ (c : Nat) (r0 : Run) (t : Nat) (s : State),
    let im := imgOn s c r0.hdr
    let h := hdrOf (im.unit 0)
    let r := { r0 with phase := .setup, decl := h.decl, setup := setupCycles im r0.hdr }
    let s1 := modSt (passToCyc s (t + r.setup + if (coreAt s c).st.gated then 24 else 0)) c fun k =>
      { k with run := some { r with void := r.void || (k.run.map Run.void).getD false } }
    (∀ f, commandFail s1 im r.hdr r.lc = some f → setupRun c r0 t s = rejectCmd c r f.1 f.2 (setupReads c r.hdr {} s1)) ∧
    (commandFail s1 im r.hdr r.lc = none →
      let s2 := setupReads c r.hdr h s1
      let r1 := { (coreAt s2 c).st.run.getD r with phase := .running, start := s2.clk.cyc }
      let s3 := modCore { s2 with freeSeq := s2.freeSeq + 2 } c fun k => k.fresh r1 h.entry s2.freeSeq s2.clk.cyc
      setupRun c r0 t s = traceStart c (jobrefOf s3 r1) r1 s3))

/-- 06, R140, R141, R146, R147, R148: BUNDLE_DISPATCH on a core whose command runs and is not over. While a queue that the bundle enters is
full, nothing but the cycle since which it waits is noted. Otherwise time passes to the cycle of dispatch, the bundle is read, its slots
enter their queues or are skipped, its scalar slot executes, and dispatch goes on at the target of a transfer, at the end of the command, or
at the next index. Faults that strike memories and registers meanwhile come before all this. -/
def Obligations.BundlesDispatch : Prop :=
  (∀ (c : CoreId) (up : List Strike) (s : State), s.rst.inReset = false → exec (.bundleDispatch c up) s = exec (.bundleDispatch c []) (strikes up s)) ∧
  ∀ (c : CoreId) (s : State) (r : Run), s.rst.inReset = false → coreLive s c = true → (coreAt s c).st.run = some r → r.phase = .running → r.isOver = false →
    let k := (coreAt s c).sq
    let u := BitVec.ofNat 256 ((coreAt s c).bst.rdLe (32 * k.pc) 32)
    let x := ctxOf s c
    (((entering s x u).any fun y => decide (16 ≤ (k.queue (QId.ofSlot y.num)).length)) = true →
      exec (.bundleDispatch c []) s = .next (settle (modCore s c fun k =>
        { k with sq := { k.sq with blockedAt := some (k.sq.blockedAt.getD (max k.sq.dispAt s.clk.cyc)) } }))) ∧
    (((entering s x u).any fun y => decide (16 ≤ (k.queue (QId.ofSlot y.num)).length)) = false →
      let s1 := passToCyc s k.dispAt
      let t := s1.clk.cyc
      let s2 := traceBundle c u k.pc (t - r.start) (readRun (.bst c) (some c) (32 * k.pc) 32 (countStall c t s1))
      let p := dispatchSlots c x u s2
      let s3 := modCore p.1 c fun k => { k with sq := { k.sq with seq := k.sq.seq + 1 }, st := { k.st with lastAct := t } }
      exec (.bundleDispatch c []) s = .next (settle (afterBundle c r x.hdr.len u p.2 s3)))

/-- 06, R148, R161, R163; 11, R282: the ends of a command that time brings. COMMAND_COMPLETE ends the command with its result at the first cycle
in which all it issued has completed. CMD_OVERRUN fires CCn_CMD_OVERRUN once, at the cycle after 17/16 of the declared count. SYNC_STALL
fires CCn_SYNC_STALL and ends the command with status 0x23 when it has waited on its own tokens for 4,096 cycles, no drain read of it
waiting on a matrix instruction. CORE_IDLE_GATE gates the array clocks of a core idle for 4,096 cycles. -/
def Obligations.CommandsEnd : Prop :=
  (∀ (c : CoreId) (s : State) (r : Run) (t : Nat), s.rst.inReset = false → (coreAt s c).st.run = some r → completeAt s c r = some t →
    let s1 := passToCyc s t
    exec (.commandComplete c) s = .next (settle (finishRun c 0 (commit c s1.clk.cyc s1)))) ∧
  (∀ (c : CoreId) (s : State) (r : Run), s.Ready → (coreAt s c).st.run = some r → completeAt s c r = none → exec (.commandComplete c) s = .next s) ∧
  (∀ (c : CoreId) (s : State) (r : Run), s.rst.inReset = false → (coreAt s c).st.run = some r → r.phase = .running → r.overrun = false →
    let s1 := passToCyc s (r.start + r.decl + r.decl / 16 + 1)
    exec (.cmdOverrun c) s = .next (settle (fire { b := bCC c, src := 13, who := whoOn s1 c }
      (modSt s1 c fun k => { k with run := k.run.map fun r => { r with overrun := true } })))) ∧
  (∀ (c : CoreId) (s : State) (r : Run), s.rst.inReset = false → (coreAt s c).st.run = some r → r.phase = .running →
    (r.isOver = true ∨ (coreAt s c).sq.blockedAt ≠ none) → completeAt s c r = none → outstanding s c r = false →
    drainAwaited (coreAt s c) s.clk.cyc = false →
    let k := coreAt s c
    let s1 := passToCyc s (max k.st.lastAct (max k.sq.syAt (maxN (k.sq.infl.filterMap Infl.doneAt))) + 4096)
    exec (.syncStall c) s = .next (settle (finishRun c 0x23 (fire { b := bCC c, src := 11, who := whoOn s1 c } (commit c s1.clk.cyc s1))))) ∧
  (∀ (c : CoreId) (s : State), s.Ready → s.time.idleGate = true → present s c = true → (coreAt s c).st.run = none → (coreAt s c).st.swatchAt = none →
    (coreAt s c).st.gated = false →
    exec (.coreIdleGate c) s = .next (settle (modSt (passToCyc s ((coreAt s c).st.idleSince + 4096)) c fun k => { k with gated := true })))

/-- 12, R304, R307, R310, R311, R316: submission and turns. SUBMISSION_FETCH of a ring that can be fetched from takes one entry: a SEQ that is
not ahead of HIGH_SEQ is a duplicate and gets a job record of status 2 with the status of the original, 0xFF when it is not among the last
64; otherwise HIGH_SEQ takes the SEQ, and a sound entry becomes the job in progress while another gets a job record of status 0x23 and DISP
source 2 fires. TURN_END, when the slice runs out before the next grace point, ends the turn and begins the next. -/
def Obligations.SubmissionsAndTurns : Prop :=
  (∀ (r : Fin 8) (s : State), s.rst.inReset = false → canFetch s r = true →
    let k := subAt s r
    let e := subEntryOf (BitVec.ofNat 512 (s.host.rdLe (k.base.toNat + 64 * k.head) 64))
    let s1 := modSub s r fun k => { k with head := (k.head + 1) % 2 ^ k.sizeLog2 }
    let s2 := modSub s1 r fun k => { k with highSeq := e.seq }
    let d := (e.seq - k.highSeq).toNat
    ((d = 0 ∨ 2 ^ 31 ≤ d) → exec (.submissionFetch r) s = .next (settle (postCpl s1
      (jobRecord s1 r e 0x02 (((k.history.find? fun h => h.1 == e.seq).map Prod.snd).getD 0xFF))))) ∧
    (0 < d → d < 2 ^ 31 → e.ok s2 = true → exec (.submissionFetch r) s = .next (settle (startTurns
      (modSub s2 r fun k => { k with job := some { seq := e.seq, tag := e.tag, clist := e.clist, cnt := e.cnt } })))) ∧
    (0 < d → d < 2 ^ 31 → e.ok s2 = false → exec (.submissionFetch r) s = .next (settle (fire { b := bDISP, src := 2 }
      (postCpl (modSub s2 r fun k => { k with history := ((e.seq, 0x23) :: k.history).take 64 }) (jobRecord s2 r e 0x23 0)))))) ∧
  (∀ (p : Fin 4) (s : State) (t : Turn) (n : Nat), s.rst.inReset = false → s.disp.turns.getD p none = some t → patActive s = true → s.glb.safe = false →
    lcOccupied s p = false → turnEndIn (offNs s) (freeIvs s p) t.left = some n →
    exec (.turnEnd p) s = .next (settle (endTurn p t.ring (passNs s n))))

/-- 12, R305, R306, R318, R319, R320: best-effort commands. BE_IMAGE_COPY reads the list entry of the next command of the ring's job and rejects
the command, or copies its image into the core's best-effort range once the core is idle. GRACE_POINT lets time pass to the grace point
before the next boundary and aborts every best-effort command of the partition that does not run or whose remaining declared cycles end
later than 1,000 ns before the boundary; CUT_OFF, 1,000 ns before the boundary, aborts every one still there, DISP source 5 firing for each. -/
def Obligations.BestEffort : Prop :=
  (∀ (r : Fin 8) (s : State) (j : BeJob) (i : Nat), s.rst.inReset = false → (subAt s r).job = some j → j.nextCmd = some i →
    let s1 := if patActive s && decide (offNs s < 100000) then passToOff s 100000 else s
    beMay s1 r = true →
    let a := j.clist + 32 * i
    let s2 := readRun .dram none a 32 s1
    let e := listEntryOf (BitVec.ofNat 256 (s2.drc.mem.rdLe a 32))
    (∀ st src, listEntryBad s2 (subAt s1 r).part e = some (st, src) →
      exec (.beImageCopy r) s = .next (settle (beOver r i e.core st 0 (modBe r (fun j => j.take)
        (match src with | some n => fire { b := bDISP, src := n, who := .parts [] } s2 | none => s2))))) ∧
    (listEntryBad s2 (subAt s1 r).part e = none → (coreAt s2 e.core).st.run = none → (coreAt s2 e.core).st.swatchAt = none →
      (coreAt s2 e.core).st.swatchDue = false → beMay (passToCyc s2 (coreAt s2 e.core).st.idleAt) r = true →
      exec (.beImageCopy r) s = .next (settle (copyImage r i j e (passToCyc s2 (coreAt s2 e.core).st.idleAt))))) ∧
  (∀ (p : Fin 4) (s : State), s.rst.inReset = false → patActive s = true →
    let b := nextBoundary s p
    let s1 := if offNs s < b - s.disp.grace.1 then passToOff s (b - s.disp.grace.1) else s
    exec (.gracePoint p) s = .next (settle (((beRuns s1 p).filter fun x =>
      !(x.2.phase == .running && decide (offNs s1 + cycNs s1 (remaining s1 x.2) ≤ b - 1000))).foldl (abortBe 1) s1))) ∧
  (∀ (p : Fin 4) (s : State), s.rst.inReset = false → patActive s = true →
    let b := nextBoundary s p
    let s1 := if offNs s < b - 1000 then passToOff s (b - 1000) else s
    exec (.cutOff p) s = .next (settle ((beRuns s1 p).foldl (fun s x => abortBe 2 (fire { b := bDISP, src := 5, who := .beCmd x.1 } s) x) s1)))

/-- 01, R22; 11, R282, R283, R285, R287; 13, R339, R340; 15, R375; 09, R228: the start of a tick, while a Pattern is ACTIVE. TICK_START lets
time pass to the next tick boundary. With an UNLOAD waiting the Pattern is unloaded there. Otherwise the tick number goes up by one; the
droop count of the tick before is kept and the count begins again; due cores are retired; every tunable field takes its shadow; the lists of
the tick are emptied (a closed sweep goes on to the end of its flush) and every core that may is to run its swatch; the voids that fences
and peers in the safe state cause are set; the intake status table and the directory walk begin; waiting best-effort turns start. Faults
that strike memories and registers at the tick boundary come before all this. With AVS_EN the VDD_CORE set point moves by at most one step
of 5 mV within 650 to 800 mV, which step being a free value, and without it not. -/
def Obligations.TickStarts : Prop :=
  (∀ (up : List Strike) (s : State), s.rst.inReset = false → exec (.tickStart up) s = exec (.tickStart []) (strikes up s)) ∧
  (∀ (s : State), s.rst.inReset = false → patActive s = true →
    let k := s.time.tick + 1
    let s0 := passToGtc s (tickGtc s k)
    (s0.glb.unloadPend = true → exec (.tickStart []) s = .next (settle (unloadNow s0))) ∧
    (s0.glb.unloadPend = false →
      let s1 := { s0 with
        clk := { s0.clk with tickCyc := startCyc s0 }
        time := { s0.time with
          tick := k
          active := true
          droopLast := min s0.time.droopCur 65535
          droopCur := 0
          droopAtRec := none
          prevTail := min (match s0.time.droopAtRec with | some n => s0.time.droopCur - n | none => 0) 65535
          vddCore := (s0.time.avsStepped s0.freeSeq).vddCore }
        freeSeq := s0.freeSeq + 1
        disp := { s0.disp with
          retired := s0.disp.retired ||| s0.disp.retireDue
          retireDue := 0
          slice := (s0.disp.slice.2, s0.disp.slice.2), grace := (s0.disp.grace.2, s0.disp.grace.2)
          jobs := s0.disp.jobs.filter fun j => !j.ended
          opened := []
          closed := []
          settled := []
          stageEnded := []
          deadline := 0
          slack := [none, none, none, none]
          subs := s0.disp.subs.map fun (x : SubRing) => { x with refetch := false } }
        siu := { s0.siu with
          tune := s0.siu.shadow
          aged := []
          sweeps := [{}, {}, {}, {}]
          flushing := s0.siu.flushing ++ ((List.range 4).map fun m => (m, s0.siu.sweeps.getD m {})).filter fun (x : Nat × Sweep) => x.2.closed.isSome && !x.2.isOver }
        fst := { s0.fst with arr := [], arrAt := [] }
        glb := { s0.glb with voids := s0.glb.voids.filter fun v => decide (k ≤ v.2 + 1) }
        dru := { s0.dru with voidNext := false } }
      let s2 := { s1 with cores := s1.cores.mapIdx fun c (x : Core) => { x with st := { x.st with swatchDue := swatchCore s1 c } } }
      let s3 := voidAt ((tickVoids s0).map (fun p => (p, k)) ++ peerVoids s0 k) s2
      exec (.tickStart []) s = .next (settle (startTurns (startWalk k (forgetAll (initStatus k (trace 0x04 0 (BitVec.ofNat 64 k) s3)))))))) ∧
  (∀ (t : TimeU) (n : Nat), (t.avsEn = false → t.avsStepped n = t) ∧
    (650 ≤ t.vddCore → t.vddCore ≤ 800 → 650 ≤ (t.avsStepped n).vddCore ∧ (t.avsStepped n).vddCore ≤ 800 ∧
      t.vddCore ≤ (t.avsStepped n).vddCore + 5 ∧ (t.avsStepped n).vddCore ≤ t.vddCore + 5))

/-- 01, R26, R28, R29; 05, R137; 12, R303; 15, R381: the stages of the plan while a Pattern is ACTIVE, each opened and closed once in a tick.
STAGE_OPEN lets time pass to the stage's open and launches the jobs bound to it, none in the safe state; STAGE_CLOSE to its close, where a
reservation for the stage ends and, when jobs of it have not ended, they are ended with DEADLINE; INTAKE_CLOSE to the close of the INTAKE
stage, where the regions of the streams that are dropped become unspecified, and the tick record follows when no partition is used. 01, R30;
11, R294; 09, R228, R237: SETTLE_POINT of a partition that the plan uses, once in a tick, lets time pass to the latest close of its stages
and posts the held records of the partition; after the last partition the tick record is written. DIRECTORY_WALK_END lets time pass to the
end of the walk, where the valid ways of the directory have been counted. -/
def Obligations.StagesOpenAndClose : Prop :=
  ((∀ (st : Fin 16) (s : State) (g : Stage), s.rst.inReset = false → patActive s = true → stageAt s st = some g → st.val ∉ s.disp.opened →
    let s1 := trace 0x05 st 0 (passToOff s g.openNs)
    let jobs := if g.compute && !s1.glb.safe then (jobsOfStage s1 st).map (launchJob s1 st) else []
    exec (.stageOpen st) s = .next (settle { s1 with disp := { s1.disp with opened := s1.disp.opened ++ [st.val], jobs := s1.disp.jobs ++ jobs } })) ∧
  (∀ (st : Fin 16) (s : State) (g : Stage), s.rst.inReset = false → patActive s = true → stageAt s st = some g → g.compute = true →
    st.val ∉ s.disp.closed →
    let s1 := trace 0x05 st 1 (passToOff s g.closeNs)
    let s2 := { s1 with
      disp := { s1.disp with closed := s1.disp.closed ++ [st.val] }
      rsmp := s1.rsmp.map fun (k : Rsmp) => if k.resvFor = some st.val then { k with resvFor := none } else k }
    let late := (List.range 4).filter fun p => s2.disp.jobs.any fun j => j.stage == st.val && j.part == p && !j.ended
    exec (.stageClose st) s = .next (settle (if late = [] ∨ s2.glb.safe = true then s2 else closeLate st late s2))) ∧
  (∀ (s : State) (st : Nat) (g : Stage), s.rst.inReset = false → patActive s = true → intakeStage s = some (st, g) → st ∉ s.disp.closed →
    let s1 := passToOff s g.closeNs
    let s2 := trace 0x05 st 1 { s1 with disp := { s1.disp with closed := s1.disp.closed ++ [st] } }
    let s3 := forgetDropped (if intakeLive s2 then priorLate s2 else s2)
    exec .intakeClose s = .next (settle (if usedMask s3 = 0 ∧ s3.time.droopAtRec = none then postTick false s3 else s3)))) ∧
  ((∀ (p : Fin 4) (s : State), s.rst.inReset = false → patActive s = true → usesPart s p = true → p.val ∉ s.disp.settled →
    let s1 := postHeld p (passToOff s (settleNs s p))
    let s2 := { s1 with disp := { s1.disp with settled := s1.disp.settled ++ [p.val] } }
    let all := (∀ q < 4, usesPart s2 q = true → q ∈ s2.disp.settled) ∧ s2.time.droopAtRec = none
    (all → exec (.settlePoint p) s = .next (settle (postTick false s2))) ∧ (¬ all → exec (.settlePoint p) s = .next (settle s2))) ∧
  (∀ (s : State) (t : Nat), s.Ready → s.kfs.walkEnd = some t →
    let s1 := passToCyc s t
    exec .directoryWalkEnd s = .next (settle { s1 with kfs := { s1.kfs with
      walkEnd := none, occ := sumN (s1.kfs.dir.map fun e => (e.2.filter fun w => w.2 ≠ 0).length) } })) ∧
  (∀ (s : State), s.Ready → s.kfs.walkEnd = none → exec .directoryWalkEnd s = .next s))

/-- 15, R377 to R380; 08, R197; 11, R282: the self-test swatch of a core. It starts at the first cycle from the tick start on at which the core
is idle, 24 cycles later when its clocks are gated, and uses the core's scratchpad, operand buffer, accumulators and buffers; it ends after
49,152 cycles, unless offset 100,000 ns comes first, passing when the CRC-32 of the scratchpad's first 65,536 bytes and the check response
(expected detections, and a saturating count of other events) is the Pattern's signature, and failing otherwise; one that has not ended at
that offset, of a core that is not fenced, is stopped there and has failed. A failure fires CCn_SWATCH_FAIL, and with one before it
CCn_SWATCH_FAIL2 in the same cycle. What the swatch leaves in the core's memories is a free value, entry 48. -/
def Obligations.Swatch : Prop :=
  (∀ (c : CoreId) (s : State), s.Ready → (coreAt s c).st.swatchDue = true → (coreAt s c).st.run = none → swatchCore s c = true →
    let s1 := passToCyc s (max s.clk.tickCyc (coreAt s c).st.idleAt + if (coreAt s c).st.gated then 24 else 0)
    exec (.swatchStart c) s = .next (settle (modCore s1 c fun k => k.swatch c s1.clk.cyc))) ∧
  (∀ (c : CoreId) (found : BitVec 11) (extra : Nat) (s : State) (t : Nat), s.rst.inReset = false → (coreAt s c).st.swatchAt = some t →
    let s1 := passToCyc s (t + 49152)
    offNs s1 ≤ 100000 →
    let sig := crc32 ((coreAt s1 c).asp.rdN 0 65536 ++ leBytes 4 (BitVec.ofNat 32 (found.toNat + min extra 0xFFFF * 2 ^ 16)).toNat)
    let s2 := modSt (swatchOver c 49152 s1) c fun k => { k with swSig := sig }
    exec (.swatchEnd c found extra) s = .next (settle (
      if sig.toNat = itmN s 8 0x10 c 0 then modSt s2 c fun k => { k with swFail := 0, swPass := true } else swatchFailed c 0 [] s2))) ∧
  (∀ (c : CoreId) (s : State), s.rst.inReset = false → inService s (dCore c) = true → ((coreAt s c).st.swatchAt ≠ none ∨ (coreAt s c).st.swatchDue = true) →
    let s1 := passToOff s 100000
    exec (.swatchTimeout c) s = .next (settle (swatchFailed c 1 []
      (swatchOver c (match (coreAt s c).st.swatchAt with | some t => s1.clk.cyc - t | none => 0) s1)))) ∧
  (∀ (c : CoreId) (det : Nat) (s : State), (coreAt s c).st.swFail = 0 →
    swatchFailed c det [] s = fire { b := bCC c, src := 7, det := BitVec.ofNat 32 det, who := .core c }
      (modSt s c fun k => { k with swFail := 1, swPass := false })) ∧
  (∀ (c : CoreId) (det : Nat) (s : State), (coreAt s c).st.swFail ≠ 0 →
    swatchFailed c det [] s = fireAll [{ b := bCC c, src := 7, det := BitVec.ofNat 32 det, who := .core c }, { b := bCC c, src := 8, who := .core c }]
      (modSt s c fun k => { k with swFail := min ((coreAt s c).st.swFail + 1) 7, swPass := false }))

/-- 10, R238, R240 to R243, R248, R273: the frames of a camera stream. FRAME_START ends a frame that runs, with reason 6 and SIU source 4 unless
it has failed already, and starts a frame captured at the GTC's count, discarded for reason 3 when the stream has started a sample in the
tick and for reason 2 outside the INTAKE window. CSI_LONG_PACKET adds one line of pixel values to the running frame, fails it with reason 7
and source 3 when its checksum is wrong, and with reason 6 and source 4 when its data type or length is not the stream's, and with reason 8
and source 4 when the line buffer overflows. FRAME_END fixes the outcome. A header that ECC corrected fires source 2 first; one it cannot
correct fails a running frame with reason 7 and fires source 3. Embedded data (data type 0x12) and a packet of no enabled stream are
counted. -/
def Obligations.CameraFrames : Prop :=
  (∀ (rx : Fin 8) (vc : Fin 4) (no : BitVec 16) (s : State), CameraPacket s rx vc →
    let n := 4 * rx.val + vc.val
    let s1 := match s.siu.cams.getD n none with
      | some cam => (match cam.err with
        | some r => camResult n cam 0x33 r s
        | none => camResult n cam 0x33 6 (fire { b := bSIU, src := 4 } s))
      | none => s
    let cam : Cam := { capture := s1.clk.gtc, frameNo := no.toNat, discard := if startedIn s1 n s1.time.tick then some 3 else if !inWindow s1 s1.time.tick s1.clk.gtc then some 2 else none }
    exec (.frameStart rx vc false .ok no) s = .next (settle (startSample n s1.time.tick { s1 with siu := { s1.siu with cams := upd s1.siu.cams n fun _ => some cam } }))) ∧
  (∀ (rx : Fin 8) (vc : Fin 4) (dt : BitVec 6) (payload : List Byte) (crcOk behind : Bool) (s : State) (cam : Cam), CameraPacket s rx vc →
    s.siu.cams.getD (4 * rx + vc) none = some cam → cam.discard = none → cam.err = none → dtKnown dt.toNat = true → dt ≠ 0x12 →
    let n := 4 * rx.val + vc.val
    let g := camCfg s n
    exec (.csiLongPacket rx vc false .ok dt payload crcOk behind) s = .next (settle (
      if crcOk = false then failCam n 7 3 cam s
      else if dt.toNat ≠ g.dt ∨ payload.length ≠ lineBytes g.dt g.w then failCam n 6 4 cam s
      else if behind = true then failCam n 8 4 cam s
      else { s with siu := { s.siu with cams := upd s.siu.cams n fun _ => some { cam with lines := cam.lines ++ [lineValues g.dt g.w payload] } } }))) ∧
  (∀ (rx : Fin 8) (vc : Fin 4) (s : State) (cam : Cam), CameraPacket s rx vc → s.siu.cams.getD (4 * rx + vc) none = some cam →
    let n := 4 * rx.val + vc.val
    (∀ r, cam.discard = some r → exec (.frameEnd rx vc false .ok) s = .next (settle (camResult n cam 0x30 r s))) ∧
    (∀ r, cam.discard = none → cam.err = some r → exec (.frameEnd rx vc false .ok) s = .next (settle (camResult n cam 0x33 r s))) ∧
    (cam.discard = none → cam.err = none →
      let o := judgeFrame n cam.lines cam.capture s.clk.gtc s.time.tick s
      exec (.frameEnd rx vc false .ok) s = .next (settle (camResult n cam o.2.1 o.2.2 o.1)))) ∧
  (∀ (rx : Fin 8) (vc : Fin 4) (payload : List Byte) (crcOk behind : Bool) (s : State), CameraPacket s rx vc →
    exec (.csiLongPacket rx vc false .ok 0x12 payload crcOk behind) s =
      .next (settle { s with siu := { s.siu with unclaimedCsi := min (s.siu.unclaimedCsi + 1) 0xFFFFFFFF } })) ∧
  (∀ (rx : Fin 8) (vc : Fin 4) (dt : Nat) (act : Nat → State → State) (s : State), CameraPacket s rx vc →
    csiPacket rx vc false .corrected dt act s = act (4 * rx + vc) (fire { b := bSIU, src := 2 } s) ∧
    ∀ cam, s.siu.cams.getD (4 * rx + vc) none = some cam → cam.discard = none → cam.err = none →
      csiPacket rx vc false .bad dt act s =
        fire { b := bSIU, src := 3 } { s with siu := { s.siu with cams := upd s.siu.cams (4 * rx + vc) fun _ => some { cam with err := some 7 } } }) ∧
  (∀ (rx : Fin 8) (vc : Fin 4) (vcx : Bool) (hdr : HdrEcc) (dt : Nat) (act : Nat → State → State) (s : State), inService s dSIU = true → s.glb.safe = false →
    (vcx = true ∨ patActive s = false ∨ streamEn s (4 * rx + vc) = false) →
    csiPacket rx vc vcx hdr dt act s = { s with siu := { s.siu with unclaimedCsi := min (s.siu.unclaimedCsi + 1) 0xFFFFFFFF } })

/-- 10, R257, R258, R273, R277: Ethernet frames, while the intake is in service and the device is not in the safe state. ETHERNET_FRAME_RECEIVE
with a wrong frame check sequence fires SIU source 5; a frame whose address the filter does not pass, and a PTP message, goes no further; a
frame that matches the template of the enabled stream of its MAC is the stream's next packet, or is lost with the sweep when the buffer
overflows, or goes no further when it is over 9,216 bytes or the Frame Store is fenced; any other is counted. 10, R239 to R246, R263, R273:
lidar sweeps and completions, while the intake takes samples (a Pattern is ACTIVE, D_SIU and D_FST are in service, no safe state).
SWEEP_CLOSE lets time pass to the close offset of the enabled stream, whose sweep has not closed in the tick: the sweep is closed at the
GTC's count and the stream has started its sample of the tick. SWEEP_COMPLETE ends the flush of the closed sweep that comes next, one of an
earlier tick first: the pillar table, the cell list and the zero points are written and the sample completes, OK when a packet was accepted,
with reason 4 when none was, with reason 9 when a word of its buffers is bad, 8 when a buffer overflowed. SAMPLE_COMPLETE completes the
oldest sample of a stream whose outcome is fixed. -/
def Obligations.LidarSweeps : Prop :=
  (∀ (m : Fin 4) (frame : List Byte) (sfd : BitVec 32) (behind : Bool) (s : State), s.rst.inReset = false → inService s dSIU = true → s.glb.safe = false →
    exec (.ethernetFrameReceive m frame false sfd behind) s = .next (settle (fire { b := bSIU, src := 5 } s)) ∧
    ((addressOk s m frame = false ∨ isPtp frame = true) → exec (.ethernetFrameReceive m frame true sfd behind) s = .next (settle s)) ∧
    (addressOk s m frame = true → isPtp frame = false →
      let mac := s.clk.gtc - BitVec.ofNat 64 sfd.toNat + BitVec.ofInt 64 (parI s (32 + m.val) 49)
      let packet := if patActive s = true ∧ streamEn s (32 + m) = true then matchFrame (template s (32 + m)) frame else none
      (∀ p, packet = some p → (inService s dFST = false ∨ 9216 < frame.length + 4) → exec (.ethernetFrameReceive m frame true sfd behind) s = .next (settle s)) ∧
      (∀ p, packet = some p → inService s dFST = true → frame.length + 4 ≤ 9216 → behind = true →
        exec (.ethernetFrameReceive m frame true sfd behind) s =
          .next (settle (modSweep m (fun w => { w with overrun := w.overrun || w.closed.isNone }) s))) ∧
      (∀ p, packet = some p → inService s dFST = true → frame.length + 4 ≤ 9216 → behind = false →
        exec (.ethernetFrameReceive m frame true sfd behind) s = .next (settle (lidarPacket m (32 + m) frame p mac s))) ∧
      (packet = none → exec (.ethernetFrameReceive m frame true sfd behind) s =
        .next (settle { s with siu := { s.siu with unclaimedEth := min (s.siu.unclaimedEth + 1) 0xFFFFFFFF } })))) ∧
  ((∀ (m : Fin 4) (s : State), s.rst.inReset = false → intakeLive s = true → streamEn s (32 + m) = true → (sweepAt s m).closed = none →
    let s1 := passToOff s (par s (32 + m) 59)
    exec (.sweepClose m) s = .next (settle (startSample (32 + m) s1.time.tick
      (modSweep m (fun w => { w with closed := some s1.clk.gtc, tick := s1.time.tick }) s1)))) ∧
  (∀ (m : Fin 4) (s : State) (w : Sweep) (adm : Gtc), s.rst.inReset = false → intakeLive s = true → nextFlush s m = some w → w.closed = some adm →
    let o : Nat × Nat := if w.bad then (0x33, 9) else if w.overrun then (0x33, 8) else if w.capture.isSome then (0, 0) else (0x30, 4)
    exec (.sweepComplete m) s = .next (settle (completeSample {
      stream := 32 + m
      status := o.1
      reason := o.2
      capture := w.capture.getD (Config.freeStamp s.freeSeq)
      admitAt := adm
      info0 := w.slots.length
      info1 := w.discarded
      tick := w.tick } (bumpFree (sweepOver m (flushSweep m w s)))))) ∧
  (∀ (n : Fin 48) (s : State) (r : SampleRes), s.rst.inReset = false → intakeLive s = true → (s.siu.results.find? fun r => r.stream == n.val) = some r →
    exec (.sampleComplete n) s = .next (settle (completeSample r { s with siu := { s.siu with results := s.siu.results.erase r } }))))

/-- 10, R264, R267 to R271: packed tiles. TILE_DESCRIPTOR_FETCH takes the descriptor at the head of the tile ring; one of no enabled TILE stream
is dropped and fires SIU source 11. TILE_DECODE_DONE, when the decoder's count stays within the stream's budget, ends the tile: with its
reason when it failed, OK when it was found in the store, written, or replayed; a PRIOR tile is written and its insertion begins.
DECODE_BUDGET_EXCEEDED ends the tile with reason 14 in the cycle after its budget. The insertion puts one cell in every two cycles, in
row-major order and the anchor last; PRIOR_INSERT_DONE puts in the anchor, two cycles for each cell after the insertion began, and ends the
tile OK. -/
def Obligations.PackedTiles : Prop :=
  (∀ (s : State), s.rst.inReset = false →
    let s1 := passToCyc s s.siu.decAt
    canFetchTile s1 = true →
    let a := s1.siu.tring.base.toNat + 32 * s1.siu.tring.head
    let d := s1.drc.mem.rdLe a 32
    let n := bitsAt d 96 6
    let s2 := readRun .dram none a 32 s1
    ((n < 36 ∨ 48 ≤ n ∨ streamEn s2 n = false) → exec .tileDescriptorFetch s = .next (settle (fire { b := bSIU, src := 11 } (bumpTring s2)))) ∧
    (36 ≤ n → n < 48 → streamEn s2 n = true → startedIn s2 n s2.time.tick = false →
      exec .tileDescriptorFetch s = .next (settle (fetchTile n (bitsAt d 0 64) (bitsAt d 64 32) s2)))) ∧
  (∀ (s : State) (t : Tile), s.rst.inReset = false → s.siu.tile = some t → t.insertAt = none → t.cost ≤ budget s t.stream → intakeLive s = true →
    let s1 := passToCyc s (t.at_ + t.cost)
    let done := fun (reason : Nat) (s : State) => addResult (tileResult t reason t.cost) (freeDecoder s)
    (∀ r, t.err = some r → exec .tileDecodeDone s = .next (settle (done r s1))) ∧
    (t.err = none → t.cached = true → exec .tileDecodeDone s = .next (settle (done 0 s1))) ∧
    (t.err = none → t.cached = false → par s1 t.stream 2 = 2 → exec .tileDecodeDone s = .next (settle (done 0 (replayTile t s1)))) ∧
    (t.err = none → t.cached = false → par s1 t.stream 2 = 1 →
      let s2 := writeTile t s1
      exec .tileDecodeDone s = .next (settle { s2 with siu := { s2.siu with tile := some { t with insertAt := some s2.clk.cyc } } })) ∧
    (t.err = none → t.cached = false → par s1 t.stream 2 = 0 → exec .tileDecodeDone s = .next (settle (done 0 (writeTile t s1))))) ∧
  (∀ (s : State) (t : Tile), s.rst.inReset = false → s.siu.tile = some t → budget s t.stream < t.cost → intakeLive s = true →
    let b := budget s t.stream
    let s1 := passToCyc s (t.at_ + b + 1)
    exec .decodeBudgetExceeded s = .next (settle (completeSample (tileResult t 14 (b + 1)) (freeDecoder s1)))) ∧
  (∀ (s : State) (t : Tile) (at_ : Nat), s.rst.inReset = false → s.siu.tile = some t → t.insertAt = some at_ →
    let h := tileHdrOf t.header
    let s1 := passToCyc s (at_ + 2 * (h.w * h.h))
    inserting s1 t = true →
    exec .priorInsertDone s = .next (settle (completeSample (tileResult t 0 t.cost) (freeDecoder (insertCell t s1 (0, 0)))))) ∧
  (∀ (s : State) (t : Tile) (at_ : Nat), s.siu.tile = some t → t.insertAt = some at_ → inserting s t = true →
    let h := tileHdrOf t.header
    (t.inserted + 1 < h.w * h.h → insertDue s = some (at_ + 2 * (t.inserted + 1)) ∧
      insertNext (at_ + 2 * (t.inserted + 1)) s = insertCell t { s with siu := { s.siu with tile := some { t with inserted := t.inserted + 1 } } }
        ((insertOrder h.w h.h).getD t.inserted (0, 0))) ∧
    (h.w * h.h ≤ t.inserted + 1 → insertDue s = none))

/-- 11, R286, R288 to R291, R293: what the Time Unit measures. A write of TIME_OFFSET_IN in PTP mode is a measurement, in another mode nothing.
A rising edge of PPS_IN or SYNC_IN is captured in its register, and in PPS or SYNC mode it is a measurement of the distance from the nearest
multiple of the period, but for the delay of the pin; with a Pattern live one of more than 1,000,000 ns is refused and fires TIME source 3.
An accepted measurement e is limited to 32 bits, ends holdover, and with the servo enabled either steps the GTC (AUTOSTEP, no Pattern live,
more than 1,000 ns) or sets the integrator to i + e × KI and TRIM to (e × KP + i) / 256, each within its limits. Without one for the mode's
time, HOLDOVER is set. -/
def Obligations.Measurements : Prop :=
  (∀ (e : Word) (s : State), s.rst.inReset = false →
    exec (.timeOffsetInWrite e) s = .next (settle (if s.time.mode = 2 then measure e.toInt s else s))) ∧
  (∀ (s : State), s.rst.inReset = false →
    let s1 := { s with time := { s.time with ppsCapt := s.clk.gtc } }
    exec .ppsInEdge s = .next (settle (if s.time.mode = 1 then pinMeasure s.clk.gtc 1000000000 s1 else s1))) ∧
  (∀ (s : State), s.rst.inReset = false →
    let s1 := { s with time := { s.time with syncCapt := s.clk.gtc } }
    exec .syncInEdge s = .next (settle (if s.time.mode = 3 then pinMeasure s.clk.gtc s.time.syncPeriod s1 else s1))) ∧
  (∀ (g : Gtc) (p : Nat) (s : State),
    let c : Int := (g.toNat : Int) - s.time.ppsDelay.toInt
    let e := rneDiv c p * (p : Int) - c
    pinMeasure g p s = if patLive s = true ∧ 1000000 < e.natAbs then fire { b := bTIME, src := 3 } s else measure e s) ∧
  (∀ (e0 : Int) (s : State),
    let e := max (-2147483648) (min e0 2147483647)
    let i := max (-219902208) (min (s.time.iAcc + e * s.time.ki) 219902208)
    let t := measure e0 s
    t.time.lastOffset = e ∧ t.time.holdover = false ∧ t.time.measAt = s.clk.ns ∧
    (s.time.servoEn = false → t.clk = s.clk ∧ t.time.trim = s.time.trim ∧ t.time.iAcc = s.time.iAcc) ∧
    (s.time.servoEn = true → s.time.autostep = true → patLive s = false → 1000 < e.natAbs →
      t.clk = { s.clk with gtc := s.clk.gtc + BitVec.ofInt 64 e } ∧ t.time.trim = s.time.trim ∧ t.time.iAcc = s.time.iAcc) ∧
    (s.time.servoEn = true → (s.time.autostep = false ∨ patLive s = true ∨ e.natAbs ≤ 1000) →
      t.clk = s.clk ∧ t.time.iAcc = i ∧ t.time.trim = max (-858993) (min (rneShift (e * s.time.kp + i) 8) 858993))) ∧
  (∀ (s : State) (n : Nat), s.rst.inReset = false → holdoverNs s.time = some n → s.time.holdover = false →
    let s1 := passNs s (s.time.measAt + n - s.clk.ns)
    exec .holdoverTimeout s = .next (settle (onset { b := bTIME, src := 2 } { s1 with time := { s1.time with holdover := true } })))

/-- 11, R279, R287 to R289, R292, R295: the pins and registers of the Time Unit. PPS_OUT is driven for 100,000 ns from the next whole second
while it is enabled, SYNC_OUT for 1,000 ns from its next time. An armed detector that asserts, at the next edge of the device clock, is
disarmed for 64 cycles, and unless a droop event has come at that edge makes one: the cycle that begins is two periods long, and the event
is counted; the sixty-fifth of a tick fires TIME source 5. TIME_STEP_LO is kept and TIME_STEP_HI adds the 64-bit step to the GTC, but with a
Pattern live both are ignored and raise GLB_CFG_LIVE_WRITE. A write of TIME_CTRL takes its fields and clears the integrator, a reserved MODE
leaving that field as it was. TIME_TRIM is taken while the servo is off and the value is in range. -/
def Obligations.TimeWritesAndPins : Prop :=
  (∀ (s : State), s.Ready → s.time.ppsOutEn = true →
    let r := s.clk.gtc.toNat % 1000000000
    let s1 := passNs s (if r = 0 then 0 else 1000000000 - r)
    exec .ppsOutPulse s = .next (settle { s1 with time := { s1.time with ppsOutUntil := s1.clk.ns + 100000 } })) ∧
  (∀ (s : State) (n : Nat), s.Ready → syncOutNs s = some n →
    let s1 := passNs s n
    exec .syncOutPulse s = .next (settle { s1 with time := { s1.time with syncOutUntil := s1.clk.ns + 1000 } })) ∧
  (∀ (d : Fin 17) (s : State), s.rst.inReset = false →
    let s1 := if s.clk.sub = 0 then s else passToCyc s (s.clk.cyc + 1)
    let n := s1.time.droopCur + 1
    let s2 := { s1 with clk := { s1.clk with droopArmAt := putAt 0 s1.clk.droopArmAt d (s1.clk.cyc + 64) } }
    let s3 := trace 0x09 0 (BitVec.ofNat 64 (min n 0xFFFF)) { s2 with
      clk := { s2.clk with stretch := 1 }
      time := { s2.time with droopCur := n } }
    (s1.clk.cyc < s1.clk.droopArmAt.getD d 0 → exec (.droopEvent d) s = .next (settle s1)) ∧
    (s1.clk.droopArmAt.getD d 0 ≤ s1.clk.cyc → s1.clk.stretch ≠ 0 → exec (.droopEvent d) s = .next (settle s2)) ∧
    (s1.clk.droopArmAt.getD d 0 ≤ s1.clk.cyc → s1.clk.stretch = 0 →
      exec (.droopEvent d) s = .next (settle (if patActive s3 = true ∧ n = 65 then fire { b := bTIME, src := 5 } s3 else s3)))) ∧
  (∀ (v : Word) (s : State), s.Ready → patLive s = false →
    exec (.timeStepWrite false v) s = .next { s with time := { s.time with stepLo := v } } ∧
    exec (.timeStepWrite true v) s = .next { s with clk := { s.clk with gtc := s.clk.gtc + (v ++ s.time.stepLo) } }) ∧
  (∀ (hi : Bool) (v : Word) (s : State), s.rst.inReset = false → patLive s = true →
    exec (.timeStepWrite hi v) s = .next (settle (liveWrite (if hi then 0x10011C else 0x100118) s))) ∧
  (∀ (v : Word) (s : State), s.Ready →
    let m := if fld v 2 0 ≤ 4 then fld v 2 0 else s.time.mode
    exec (.timeCtrlWrite v) s = .next { s with time := { s.time with
      mode := m
      ptpPort := fld v 5 4
      servoEn := bitAt v 7
      autostep := bitAt v 8
      upPort := fld v 10 9
      iAcc := 0
      measAt := if m = s.time.mode then s.time.measAt else s.clk.ns } }) ∧
  (∀ (v : Word) (s : State), s.Ready →
    exec (.timeTrimWrite v) s = .next (if s.time.servoEn = false ∧ -858993 ≤ v.toInt ∧ v.toInt ≤ 858993 then
      { s with time := { s.time with trim := v.toInt } } else s))

/-- 13, R333, R337, R339, R341; 11, R283, R285: the Pattern's life. A write of LOAD with a Pattern live, or in Minimal Recovery Mode, does
nothing but raise GLB_CFG_LIVE_WRITE; otherwise the staged image is validated, and the first failure gives FAILED with its section, reason
and detail and GLB_PAT_FAIL, while a sound image gives LOADING with its items taken. PATTERN_LOADED, when DRAM answers, ends the loading:
ARMED, or FAILED with LOAD_ERROR when a burst it reads is uncorrectable, no core then holding an image. PATTERN_LAUNCH of an ARMED Pattern
lets time pass to LAUNCH_COUNT, makes it ACTIVE and begins the first tick. 13, R339, R341; 09, R229: a write of UNLOAD with a submission
ring enabled or with no Pattern ARMED or ACTIVE does nothing but raise GLB_CFG_LIVE_WRITE; an ARMED Pattern is unloaded at once and an
ACTIVE one at the next tick boundary: every command ends, STATE is NONE, and the registers that mirror the Pattern read 0. A write of FLUSH
while a Pattern is ACTIVE makes the next tick's walk a flush, and does nothing otherwise. That validation and loading take no time is the
model's choice, entry 21. -/
def Obligations.PatternLife : Prop :=
  ((∀ (s : State), s.rst.inReset = false → (patLive s = true ∨ s.rst.minimal = true) → exec .load s = .next (settle (liveWrite 0x20C s))) ∧
  (∀ (s : State), s.rst.inReset = false → patLive s = false → s.rst.minimal = false →
    let g := stagedAt s s.glb.patAddr.toNat
    let t := withItems s g
    let s1 := readImage g ((refBlocks t).map (blockSrc t g)) s
    (∀ sec reason det, formFail s g = some (sec, reason, det) → exec .load s = .next (settle (fire { b := bGLB, src := 1 } (setPat 5 sec reason det s)))) ∧
    (∀ sec reason det, formFail s g = none → contentFail t g = some (sec, reason, det) →
      exec .load s = .next (settle (fire { b := bGLB, src := 1 } (setPat 5 sec reason det s1)))) ∧
    (formFail s g = none → contentFail t g = none → exec .load s = .next (settle (setPat 2 0 0 0 { s1 with
      glb := { s1.glb with patternId := g.id, pat := g.allItems, imgAddr := g.a }
      rst := { s1.rst with phase := if s1.rst.phase = 5 then 5 else 4 } })))) ∧
  (∀ (s : State), s.rst.inReset = false → s.glb.patState = 2 → dramUp s = true →
    let g := stagedAt s s.glb.imgAddr
    let s1 := readImage g ((refBlocks s).map (blockSrc s g)) s
    exec .patternLoaded s = .next (settle (
      if loadPoisoned s then setPat 5 0 0x0F 0 { dropImages s1 with
        glb := { s1.glb with patternId := 0, pat := [], imgAddr := 0 }
        rst := { s1.rst with phase := if s1.rst.phase = 4 then 3 else s1.rst.phase } }
      else readyRise (sendIdents (setPat 3 0 0 0 (loadAll g s1)))))) ∧
  (∀ (s : State), s.rst.inReset = false → s.glb.patState = 3 →
    let s1 := passToGtc s (tickGtc s s.time.firstTick)
    exec .patternLaunch s = .next (settle (beginTick s.time.firstTick (patVec { s1 with
      glb := { s1.glb with patState := 4 }
      time := { s1.time with droopCur := 0, droopAtRec := none }
      clk := { s1.clk with cyc := startCyc s1, sub := 0, ahead := 0, stretch := 0 } }))))) ∧
  ((∀ (s : State), s.rst.inReset = false → ((∃ r < 8, (subAt s r).en = true) ∨ (s.glb.patState ≠ 3 ∧ s.glb.patState ≠ 4)) →
    exec .unload s = .next (settle (liveWrite 0x20C s))) ∧
  (∀ (s : State), s.rst.inReset = false → (∀ r < 8, (subAt s r).en = false) → s.glb.patState = 3 →
    let s1 := stopSwatches (abortAll 7 s)
    exec .unload s = .next (settle (patVec { s1 with
      glb := { s1.glb with patState := 0, patternId := 0, pat := [], imgAddr := 0, unloadPend := false, voids := [] }
      time := { s1.time with active := false, tick := 0, launch := 0, period := 0, stages := [] }
      disp := s1.disp.idle
      kfs := { s1.kfs with ageEpoch := 0, pitch := 0, layers := [], flushPend := false } }))) ∧
  (∀ (s : State), s.rst.inReset = false → (∀ r < 8, (subAt s r).en = false) → s.glb.patState = 4 →
    exec .unload s = .next (settle { s with glb := { s.glb with unloadPend := true } })) ∧
  (∀ (s : State), s.Ready → exec .flush s = .next (if patActive s then { s with kfs := { s.kfs with flushPend := true } } else s)))

/-- 00, R11 to R13; 10, R276; 12, R309, R311, R324; 13, R340, R341; 15, R385; 20, R464, R467, R469, R470: register access. BAR0 accepts requests
for one or two aligned DWORDs with every byte enabled, within its spans; the registers are then written (those of a fault register set as 16
says) or read in ascending order, and any other host request, or one in D3hot, is an Unsupported Request. A tunable field's write loads the
shadow and leaves the value in use. The BASE and SIZE of an enabled ring do not change, and a write that would change them raises
GLB_CFG_LIVE_WRITE; enabling a record ring empties it. A SUB_CFG write is ignored and live while STATE is 1 to 3, and enabling a submission
ring clears its history and takes the HIGH_SEQ last written. A register of a unit that Minimal Recovery Mode holds in reset takes no write.
A write renews a register's parity bit, and a read of one whose bit is wrong fires GLB_REG_PARITY. A read of a low half holds the high half
for the reader's next read of it. -/
def Obligations.RegisterAccess : Prop :=
  (∀ (o n : Nat) (full : Bool), accepts o n full = true ↔ full = true ∧ o % 4 = 0 ∧ (n = 1 ∨ n = 2) ∧ ∀ i < n, inSpan (o + 4 * i) = true) ∧
  (∀ (o : BitVec 26) (vs : List Word) (full : Bool) (s : State), s.rst.inReset = false →
    (accepts o.toNat vs.length full = true → exec (.registerWrite true o vs full) s = .next (settle (writeRegs o.toNat vs s))) ∧
    (hostReaches s = true → (barsOn s = false ∨ accepts o.toNat vs.length full = false) →
      exec (.registerWrite false o vs full) s = .next (settle (fire { b := bPCI, src := 4 } { s with pci := s.pci.signalUr }))) ∧
    (hostReaches s = true → barsOn s = true → accepts o.toNat vs.length full = true →
      exec (.registerWrite false o vs full) s = .next (settle (writeRegs o.toNat vs s)))) ∧
  (∀ (o : Nat) (v w : Word) (s : State), writeRegs o [v] s = writeReg o v s ∧ writeRegs o [v, w] s = writeReg (o + 4) w (writeReg o v s) ∧
    ∀ b r, fltBlockOf o = some (b, r) → writeReg o v s = writeFlt b r v (freshReg o s)) ∧
  (∀ (v : Word) (s : State), s.Ready →
    let s1 := markTuned 0x200104 (freshReg 0x200104 s)
    let s2 := markTuned 0x200108 (freshReg 0x200108 s)
    exec (.rwsFieldWrite 0x200104#26 v) s = .next { s1 with disp := { s.disp with
      slice := (s.disp.slice.1, if 100000 ≤ v.toNat ∧ v.toNat ≤ 100000000 then v.toNat else s.disp.slice.2) } } ∧
    exec (.rwsFieldWrite 0x200108#26 v) s = .next { s2 with disp := { s.disp with
      grace := (s.disp.grace.1, if 2000 ≤ v.toNat ∧ v.toNat ≤ 1000000 then v.toNat else s.disp.grace.2) } }) ∧
  (∀ (o : BitVec 26) (v : Word) (s : State) (i : Nat), s.Ready → regIdx o.toNat 0x401000 4 384 = some i → s.rst.minimal = false →
    exec (.rwsFieldWrite o v) s = .next { markTuned o.toNat (freshReg o.toNat s) with
      siu := { s.siu with shadow := upd s.siu.shadow (i / 8) fun x => tuneWrite x (i % 8) v } }) ∧
  (∀ (o : BitVec 26) (v : Word) (s : State) (r : RingReg) (reg : Nat), s.rst.inReset = false → ringRegAt o.toNat = some (r, reg) → heldOff s o.toNat = false →
    let w := (ringOfReg s r).write r.align reg v
    let s1 := setRingReg r w.1 (freshReg o.toNat s)
    exec (.ringCfgWrite o v) s = .next (settle (if w.2 then liveWrite o.toNat s1 else s1))) ∧
  (∀ (o : BitVec 26) (v : Word) (s : State), s.Ready → heldOff s o.toNat = true →
    exec (.ringCfgWrite o v) s = .next s ∧ exec (.rwsFieldWrite o v) s = .next s) ∧
  (∀ (k : Ring) (align reg : Nat) (v : Word),
    (k.en = true → ((k.write align reg v).1.base = k.base ∧ (k.write align reg v).1.sizeLog2 = k.sizeLog2)) ∧
    (k.en = false → (k.write align reg v).2 = false) ∧
    (k.en = false → bitAt v 8 = true → (k.write align 2 v).1.en = true ∧ (k.write align 2 v).1.head = k.tail % 2 ^ (k.write align 2 v).1.sizeLog2)) ∧
  (∀ (n : Fin 8) (v : Word) (s : State), s.rst.inReset = false →
    let o : BitVec 26 := BitVec.ofNat 26 (0x201000 + 0x40 * n.val + 8)
    let s0 := freshReg o.toNat s
    (1 ≤ s.glb.patState → s.glb.patState ≤ 3 → exec (.subCfgWrite o v) s = .next (settle (liveWrite o.toNat s0))) ∧
    ((s.glb.patState = 0 ∨ 4 ≤ s.glb.patState) →
      let w := (subAt s n).writeCfg v
      let s1 := modSub s0 n fun _ => w.1
      exec (.subCfgWrite o v) s = .next (settle (ringBad n (subAt s n).en (if w.2 then liveWrite o.toNat s1 else s1))))) ∧
  (∀ (k : SubRing) (v : Word), (k.writeCfg v).1.en = bitAt v 8 ∧
    (k.en = true → (k.writeCfg v).1.sizeLog2 = k.sizeLog2 ∧ (k.writeCfg v).1.part = k.part) ∧
    (k.en = false → bitAt v 8 = true → (k.writeCfg v).1.history = [] ∧ (k.writeCfg v).1.highSeq = k.wrSeq)) ∧
  (∀ (o : BitVec 26) (n : Nat) (full : Bool) (s : State), s.rst.inReset = false →
    (accepts o.toNat n full = true → exec (.loRegisterRead true o n full) s = .next (settle (readRegs true o.toNat n s).1)) ∧
    (hostReaches s = true → (barsOn s = false ∨ accepts o.toNat n full = false) →
      exec (.loRegisterRead false o n full) s = .next (settle (fire { b := bPCI, src := 4 } { s with pci := { s.pci with ans := { ur := true } } }))) ∧
    (hostReaches s = true → barsOn s = true → accepts o.toNat n full = true →
      let p := readRegs false o.toNat n s
      exec (.loRegisterRead false o n full) s = .next (settle { p.1 with pci := { p.1.pci with ans := { data := p.2 } } }))) ∧
  (∀ (m : Bool) (o : Nat) (s : State), s.glb.badRegs.contains o = false → readRegs m o 1 s = ((readBy m o s).1, leBytes 4 (readBy m o s).2.toNat)) ∧
  (∀ (o : Nat) (s : State), s.glb.badRegs.contains o = true → useReg o s =
    fire { b := bGLB, src := 4 } { s with glb := { s.glb with badRegs := s.glb.badRegs.filter (· != o) } }) ∧
  (∀ (o : Nat) (s : State), isLo o = true →
    (readBy false o s).2 = readReg s o ∧ assoc (readBy false o s).1.loHost (o + 4) = some (readReg s (o + 4))) ∧
  (∀ (o : Nat) (s : State) (x : Word), isLo o = false → assoc s.loHost o = some x →
    (readBy false o s).2 = x ∧ assoc (readBy false o s).1.loHost o = none)

/-- 16, R398 to R404, R407; 17, R411; 15, R387: a fault source fires. Its effective level follows from the status at the start of the device
cycle. A force in a cycle in which its source has fired is that same fire, and so is a fire after a force, which counts once. Else its
status bit is set, its count goes up and stays at 65,535, its stored level, as it stood before any clearing write of the cycle, takes the
effective level when that is greater; no other fault register set changes, and nothing but voids, the VOID mark of a best-effort command,
trace records, SIDE sets, messages, and what is due to follow, changes in the device. Outside the safe state the restart of the block's
domain is requested at S3 and the safe state is due at S4; where nothing is due, the end of a command changes nothing. That S3 and S4 are
carried out at the end of the command is the model's choice, entry 17. -/
def Obligations.FaultFires : Prop :=
  (∀ (f : Fire) (s : State) (info : SrcInfo), srcInfo f.b f.src = some info → f.b < s.flt.length → f.src < 64 →
    let k := (fltAt s f.b).inCycle s.clk.cyc
    let e := effLevel f.b info.cls ((fltAt s f.b).atStart s.clk.cyc) ((fltAt s f.b).sev.getD (slotOf f) 0)
    let t := fire f s
    (f.force = true → k.fired.getLsbD f.src = true → t = s) ∧
    ((f.force = false ∨ k.fired.getLsbD f.src = false) →
      (fltAt t f.b).stat = putBit k.stat f.src true ∧
      (fltAt t f.b).cnt.getD f.src 0 = min (k.cnt.getD f.src 0 + (if k.joins f then f.count - 1 else f.count)) 65535 ∧
      (fltAt t f.b).lvl.getD f.src 0 = max (k.levelOf f.src) e.1 ∧
      (∀ b, b ≠ f.b → fltAt t b = fltAt s b) ∧ ByFire s t ∧
      (s.glb.safe = false →
        (e.1 = 4 → t.glb.safeDue = some (s.glb.safeDue.getD (f.b, f.src))) ∧
        (e.1 = 3 → ∀ d, blockDomain f.b = some d → inService s d = true → 1 ≤ d → d ≤ 24 → (16 < d ∨ present s (d - 1) = true) → d ∈ t.dru.req)))) ∧
  (∀ s : State, s.Ready → settle s = s)

/-- 16, R402, R404, R405; 15, R392: writes of the fault registers. FLT_STAT clears the bits written with 1, but not those of a level source
whose cause lasts, unless a force alone set them, nor those of a source that fires in the cycle of the write. FLT_FORCE fires the named
sources in the next cycle. FLT_SEV, in STATE NONE or FAILED, takes each slot's level, 5 to 7 leaving the slot as it was, and in lifecycle
FIELD the floor where the level is lower; in another STATE it is ignored and raises GLB_CFG_LIVE_WRITE. CCn_SAFETY_INJ takes its fields and
its ARM bit arms, but not in FIELD. -/
def Obligations.FaultRegisterWrites : Prop :=
  (∀ (b : Fin 36) (hi : Bool) (v : Word) (s : State), s.Ready → deadBlock s b = false → b.val < s.flt.length →
    ∃ k : FltBlock, exec (.fltStatWrite b hi v) s = .next { s with flt := upd s.flt b fun _ => k } ∧
      ∀ i < 64, k.stat.getLsbD i = ((fltAt s b).stat.getLsbD i && !((asHalf hi v).getLsbD i &&
        !((srcInfo b i).map SrcInfo.level == some true && (fltAt s b).cause.getLsbD i && !(fltAt s b).forced.getLsbD i) &&
        !((fltAt s b).inCycle s.clk.cyc).fired.getLsbD i))) ∧
  (∀ (b : Fin 36) (hi : Bool) (v : Word) (s : State), s.rst.inReset = false → deadBlock s b = false → forced b hi v ≠ [] →
    let s1 := passToCyc s (s.clk.cyc + 1)
    exec (.fltForceWrite b hi v) s = .next (settle (fireAll ((forced b hi v).map (forceOf s1 b)) s1))) ∧
  (∀ (b : Fin 36) (w : Fin 7) (v : Word) (s : State), s.rst.inReset = false → deadBlock s b = false →
    (s.glb.patState ≠ 0 → s.glb.patState ≠ 5 → exec (.fltSevWrite b w v) s = .next (settle (liveWrite (fltBase b + 0x20 + 4 * w) s))) ∧
    ((s.glb.patState = 0 ∨ s.glb.patState = 5) → exec (.fltSevWrite b w v) s = .next (settle { s with flt := upd s.flt b fun f =>
      { f with sev := f.sev.mapIdx fun i old =>
          let n := fld v (3 * (i % 10) + 2) (3 * (i % 10))
          if slotUsed b i = true ∧ i / 10 = w then (if 4 < n then old else if lifecycle s = 2 then max n (f.floor.getD i 0) else n) else old } }))) ∧
  (∀ (c : CoreId) (v : Word) (s : State), s.Ready →
    ((lifecycle s = 2 ∨ present s c = false ∨ s.rst.minimal = true) → exec (.safetyInjArm c v) s = .next s) ∧
    (lifecycle s ≠ 2 → present s c = true → s.rst.minimal = false →
      exec (.safetyInjArm c v) s = .next (modSt s c fun k => { k with inj := injWord k.inj v, injArmed := k.injArmed || bitAt v 0 })))

/-- 17, R410 to R415; 15, R391: recovery. A write of DRU_HB arms the monitor the first time, and later counts only as the next value; after
1,000,000 ns without one a beat is missed, and with the third DRU source 0 fires and the monitor stops. A write of DRU_RESTART fences the
named domains that are in service. DOMAIN_RESTART_REQUEST, the sequence of R412, fences a domain in service, and carries one in restart on
by its next step (one step a command: the model's choice, entry 45): the end of the drain, the reset of 2,048 device cycles, the scrub, the
reload once DRAM answers, which returns the domain to service unless a CRC differs; it changes nothing of a domain that is stopped or
frozen. A domain that has not drained by DRAIN_NS, or not returned by its bound, or whose scrub of DRAM overruns its own, stops fenced, and
DRU source 1 or 3 fires. That DOMAIN_RESTART_REQUEST carries a restart on by one step a command is the model's choice, entry 45. -/
def Obligations.Recovery : Prop :=
  (∀ (v : Word) (s : State), s.Ready →
    ((s.dru.started = false ∨ (s.dru.armed = true ∧ v.truncate 16 = s.dru.last + 1)) → exec (.druHbWrite v) s =
      .next { s with dru := { s.dru with started := true, armed := true, last := v.truncate 16, missed := 0, timerAt := s.clk.ns } }) ∧
    (s.dru.started = true → (s.dru.armed = false ∨ v.truncate 16 ≠ s.dru.last + 1) → exec (.druHbWrite v) s = .next s)) ∧
  (∀ (s : State), s.rst.inReset = false → s.dru.armed = true →
    let s1 := passNs s (s.dru.timerAt + 1000000 - s.clk.ns)
    let n := s1.dru.missed + 1
    let s2 := { s1 with dru := { s1.dru with missed := min n 3, timerAt := s1.clk.ns, armed := decide (n < 3) } }
    exec .heartbeatTimerExpiry s = .next (settle (if n < 3 then s2 else fire { b := bDRU, src := 0 } s2))) ∧
  (∀ (v : Word) (s : State), s.rst.inReset = false →
    exec (.druRestartWrite v) s = .next (settle ((List.range 25).foldl (fun s d => if bitAt v d && restartable s d then fenceDomain d s else s) s))) ∧
  (∀ (d : Fin 25) (s : State), s.rst.inReset = false →
    let k := domAt s d
    (restartable s d = true → exec (.domainRestartRequest d) s = .next (settle (fenceDomain d s))) ∧
    (k.phase = 1 → k.frozen = false → s.clk.ns ≤ boundAt s d → drained s d = true → exec (.domainRestartRequest d) s = .next (settle (setPhase d 2 s))) ∧
    (k.phase = 1 → k.frozen = false → drained s d = false → exec (.domainRestartRequest d) s = .next (settle s)) ∧
    (k.phase = 2 → k.frozen = false → s.clk.ns ≤ boundAt s d →
      exec (.domainRestartRequest d) s = .next (settle (setPhase d 3 (passToCyc s (k.phaseAt + 2048))))) ∧
    (k.phase = 3 → k.frozen = false → s.clk.ns ≤ boundAt s d →
      exec (.domainRestartRequest d) s = .next (settle (setPhase d 4 (resetDomain d (passToCyc s (k.phaseAt + scrubCycles d)))))) ∧
    (k.phase = 4 → k.frozen = false → s.clk.ns ≤ boundAt s d → reloads s d = true → dramUp s = true →
      let g := usedImage s
      let s1 := passToCyc ((reloadRuns s g d).foldl (fun s r => readRun .dram none r.1 r.2 s) s) (k.phaseAt + reloadCycles s g d)
      exec (.domainRestartRequest d) s = .next (settle (if reloadBad s g d then fire { b := bGLB, src := 2 } (setPhase d 5 s1)
        else unfence d (reloadInto d g s1)))) ∧
    (k.phase = 4 → k.frozen = false → s.clk.ns ≤ boundAt s d → reloads s d = false → exec (.domainRestartRequest d) s = .next (settle (unfence d s))) ∧
    (restartable s d = false → (k.phase = 0 ∨ 5 ≤ k.phase ∨ k.frozen = true ∨ boundAt s d < s.clk.ns ∨ (k.phase = 4 ∧ reloads s d = true ∧ dramUp s = false)) →
      exec (.domainRestartRequest d) s = .next (settle s))) ∧
  (∀ (d : Fin 25) (s : State), s.rst.inReset = false → (domAt s d).phase = 1 → (domAt s d).frozen = false →
    exec (.drainTimeout d) s = .next (settle (fire { b := bDRU, src := 1, det := BitVec.ofNat 32 d }
      (setPhase d 5 (passNs s ((domAt s d).fenceAt + drainNs s - s.clk.ns)))))) ∧
  (∀ (d : Fin 25) (s : State), s.rst.inReset = false → (domAt s d).phase ≠ 0 → (domAt s d).phase < 5 → (domAt s d).frozen = false →
    exec (.restartBoundExpiry d) s = .next (settle (fire { b := bDRU, src := 3 }
      (setPhase d 5 (passNs s
      ((if (domAt s d).phase = 1 then (domAt s d).fenceAt + restartBound s d else boundAt s d) - s.clk.ns))))))

/-- 08, R203, R211, R212; 10, R272; 19, R439: memory scrub. SCRUB_CYCLE of a bank whose domain is in service takes cycle 0 of a frame, the
present one where the bank has not been scrubbed in it: a word corrected before is written back, and with none waiting the next word of the
walk is read, what ECC corrects or finds being recorded and fired. DRAM_PATROL_SCRUB, at the next point of the 4,000 ns grid of the GTC at
which the channel has not been scrubbed, reads the next block of the channel: corrected words fire DRC source 0, uncorrectable ones source
2, and the walk moves on. A word of the management SRAM found uncorrectable fires MGT source 7, a corrected one source 6; a sound one
changes nothing. -/
def Obligations.Scrubs : Prop :=
  (∀ (m : ScrubMem) (bank : Nat) (found : EccFind) (s : State), s.rst.inReset = false → scrubRuns s m = true → bank < m.banks →
    let k := s.clk.cyc - s.clk.tickCyc
    let s1 := markFrame m bank (passToCyc s
      (if k % 256 = 0 ∧ (memOf s (scrubMem s m 0)).scrubbed.getD bank 0 ≠ s.clk.cyc + 1 then s.clk.cyc else s.clk.tickCyc + 256 * (k / 256 + 1)))
    (∀ id w, pendingWb s1 m bank = some (id, w) → exec (.scrubCycle m bank found) s =
      .next (settle (let v := memOf s1 id; countAccess id true false 8 (setMem id { v with wb := v.wb.erase w } s1)))) ∧
    (pendingWb s1 m bank = none → exec (.scrubCycle m bank found) s = .next (settle (scrubWord m bank found s1)))) ∧
  (∀ (ch : Fin 8) (found : EccFind) (s : State), s.rst.inReset = false → dramUp s = true →
    let r := s.clk.gtc.toNat % 4000
    let s1 := passNs s (if r = 0 ∧ s.drc.patrolAt.getD ch none ≠ some s.clk.gtc then 0 else 4000 - r)
    let k := s1.drc.patrol.getD ch 0
    let runs := patrolRuns ch k
    let v := s1.drc.mem
    let ce := found == .ce || runs.any fun a => v.hasCe 64 a 256
    let ue := found == .ue || runs.any fun a => v.hasUe 64 a 256
    let v1 := { v with
      ce := v.ce.filter fun w => !(runs.any fun a => (eccWords 64 a 256).contains w)
      ue := if found == .ue then addNew v.ue ((k * 4 * 2048 + ch * 256) / 64) else v.ue }
    let s2 := { s1 with drc := { s1.drc with mem := v1, patrol := putAt 0 s1.drc.patrol ch ((k + 1) % (dramU s1 / 8192)),
                                              patrolAt := putAt none s1.drc.patrolAt ch (some s1.clk.gtc) } }
    exec (.dramPatrolScrub ch found) s = .next (settle (fireAll
      ((if ce then [({ b := bDRC, src := 0 } : Fire)] else []) ++ (if ue then [({ b := bDRC, src := 2 } : Fire)] else []))
      (countAccess .dram false false 1024 s2)))) ∧
  (∀ (word : Nat) (found : EccFind) (s : State), s.rst.inReset = false → word < 131072 →
    let v := s.mgt.sram
    ((found = .ue ∨ word ∈ v.ue) → exec (.mgtSramScrub word found) s = .next (settle (fire { b := bMGT, src := 7 }
      { s with mgt := { s.mgt with sram := { v with ue := addNew v.ue word } } }))) ∧
    (found ≠ .ue → word ∉ v.ue → (found = .ce ∨ word ∈ v.ce) → exec (.mgtSramScrub word found) s = .next (settle (fire { b := bMGT, src := 6 }
      { s with mgt := { s.mgt with sram := { v with ce := v.ce.filter (· != word) } } }))) ∧
    (found = .clean → word ∉ v.ue → word ∉ v.ce → exec (.mgtSramScrub word found) s = .next (settle s)))

/-- 11, R299; 15, R383, R385, R386, R390: the other monitors. CFG_PARITY_SWEEP fires GLB source 4 for a difference, its own or that of a
register marked since; CFG_READBACK, when READBACK_TICKS ticks have passed since the last, and after the last settle point of the tick,
fires MGT source 5 with the lowest offset at which a mirror differs. A voltage reading more than 8 % from its set point begins the cause of
MGT source 2, and the cause ends when all twelve are within. The clock monitor begins and ends the cause of MGT source 1, the time PLL's
lock that of TIME source 0. Temperatures, at the next point of the 50,000 ns grid, begin the causes of MGT sources 3 and 4 at 1,840 and
2,000 units in two samples in a row, and end them when every sensor reads below 1,760 and 2,000. A difference of a core's sequencers fires
CCn_SEQ_LOCKSTEP: it fails the swatch, or ends the command VOID; one of the management processors fires MGT source 0. -/
def Obligations.Monitors : Prop :=
  (∀ (bad : Bool) (s : State), s.rst.inReset = false →
    exec (.cfgParitySweep bad) s = .next (settle (if bad = true ∨ s.glb.badRegs ≠ [] then
      fire { b := bGLB, src := 4 } { s with glb := { s.glb with badRegs := [] } } else s))) ∧
  (∀ (upset : Option (BitVec 26)) (s : State), s.rst.inReset = false → patActive s = true → dramUp s = true →
    (s.time.tick + 1 < s.glb.readbackAt + readbackTicks s → exec (.cfgReadback upset) s = .next (settle s)) ∧
    (s.glb.readbackAt + readbackTicks s ≤ s.time.tick + 1 →
    let s0 := passToOff s (maxN ((List.range 4).map (settleNs s)))
    let s1 := { s0 with glb := { s0.glb with readbackAt := s0.time.tick + 1 } }
    exec (.cfgReadback upset) s = .next (settle (match mirrorDiff s1 (upset.map BitVec.toNat) with
      | some o => fire { b := bMGT, src := 5, det := BitVec.ofNat 32 o } s1
      | none => s1)))) ∧
  (∀ (m : Fin 12) (mv : BitVec 16) (s : State), s.rst.inReset = false →
    let s1 := { s with mgt := { s.mgt with vmon := putAt 0 s.mgt.vmon m (BitVec.ofNat 32 (2 ^ 31 + mv.toNat)) } }
    ((100 * mv.toNat < 92 * setPoint s m ∨ 108 * setPoint s m < 100 * mv.toNat) →
      exec (.voltageMonitorTrip m mv) s = .next (settle (onset { b := bMGT, src := 2, det := BitVec.ofNat 32 m } s1))) ∧
    (92 * setPoint s m ≤ 100 * mv.toNat → 100 * mv.toNat ≤ 108 * setPoint s m →
      exec (.voltageMonitorTrip m mv) s = .next (settle (
        if (List.range 12).all fun i => inVolts s1 i (s1.mgt.vmon.getD i 0) then causeEnds bMGT 2 s1 else s1)))) ∧
  (∀ (good : Bool) (s : State), s.rst.inReset = false →
    exec (.clockMonitorTrip good) s = .next (settle (if good then causeEnds bMGT 1 s else onset { b := bMGT, src := 1 } s)) ∧
    exec (.pllUnlock good) s = .next (settle (let s1 := { s with time := { s.time with locked := good } }
      if good then causeEnds bTIME 0 s1 else onset { b := bTIME, src := 0 } s1))) ∧
  (∀ (vals : List (BitVec 16)) (s : State), s.rst.inReset = false → vals.length = 24 →
    let s1 := passNs s (50000 - (s.clk.ns - s.rst.releaseAt) % 50000)
    let new : List Word := vals.map fun v => BitVec.ofNat 32 (2 ^ 31 + v.toNat)
    let s2 := { s1 with mgt := { s1.mgt with temps := new } }
    let two := fun (t : Int) => reached s1.mgt.temps new t
    let below := fun (t : Int) => vals.all fun v => decide (v.toInt < t)
    let s3 := if two 1840 then onset { b := bMGT, src := 3 } s2 else if below 1760 then causeEnds bMGT 3 s2 else s2
    exec (.temperatureSample vals) s = .next (settle (
      if two 2000 then onset { b := bMGT, src := 4 } s3 else if below 2000 then causeEnds bMGT 4 s3 else s3))) ∧
  (∀ (c : CoreId) (s : State), s.rst.inReset = false → present s c = true → inService s (dCore c) = true →
    (∀ t, (coreAt s c).st.swatchAt = some t → exec (.seqLockstepDiff c) s = .next (settle (
      swatchFailed c 2 [{ b := bCC c, src := 10, who := .core c }] (swatchOver c (s.clk.cyc - t) s)))) ∧
    ((coreAt s c).st.swatchAt = none → (coreAt s c).st.run = none →
      exec (.seqLockstepDiff c) s = .next (settle (fire { b := bCC c, src := 10, who := .core c } s))) ∧
    (∀ r, (coreAt s c).st.swatchAt = none → (coreAt s c).st.run = some r →
      let s1 := fire { b := bCC c, src := 10, who := if r.lc then .lcCmd r.part else .beCmd c } s
      exec (.seqLockstepDiff c) s = .next (settle (endRun c 0x40 0 (if r.lc then voidParts [r.part] s1 else s1))))) ∧
  (∀ (s : State), s.rst.inReset = false → exec .mgtLockstepDiff s = .next (settle (fire { b := bMGT, src := 0 } s)))

/-- 14, R344, R345, R348, R357: a port trains. LINK_TRAINED makes it UP: its flits that no ACK has covered are numbered from 0 and are to be
sent again in order, slot 0 begins, and its first slots 15 carry a SYNC and then the SIDE sets without an acknowledgement. Training that has
not succeeded within 1,000,000 ns begins again; the third failed retrain in a row begins the cause of HRNn source 2. When the far end enters
reset the port trains anew. 14, R345, R357 to R359; 11, R291: SYNC, SKIP and IDENT. A SYNC's stamps, to half a nanosecond, are kept for the
next SYNC; on UP_PORT, with an echo no older than 10,000 ns, it gives the link delay and in HARNESS mode a measurement. SYNC_SEND at the
next multiple of 2,000 ns, and IDENT_SEND with a Pattern in use, put their sets in the queue of slot 15 of every UP port; a slot 15 carries
at most 16 sets, a SKIP among them in one slot of 1,024. A SKIP received does nothing. An IDENT names the peer; with a Pattern in use one
that differs begins the cause of HRNn source 7 and stops the port's messages, and one that matches ends both. How a port goes on after
training is the model's reading, entry 31. -/
def Obligations.LinksTrainAndMeasure : Prop :=
  ((∀ (p : Fin 4) (inv : BitVec 8) (rev : Bool) (s : State), s.rst.inReset = false → (portAt s p).up = false → portLive s p = true →
    exec (.linkTrained p inv rev) s = .next (settle
      (causeEnds (bHRN p) 2 (modPort s p fun k => k.trained inv rev (portCredits s p) s.clk.ns)))) ∧
  (∀ (k : Port) (inv : BitVec 8) (rev : Bool) (cr : Nat × Nat) (now : Nat),
    let t := k.trained inv rev cr now
    t.up = true ∧ t.retraining = false ∧ t.failed = 0 ∧ t.rxSeq = 0 ∧ t.txSeq = k.replay.length ∧ t.txSlot = 0 ∧ t.upAt = now ∧
      t.redo = t.replay.map TxFlit.seq ∧ t.pend15 = OSet.sync :: k.sides.map (fun x => OSet.body x.body) ∧
      t.replay.map TxFlit.payload = k.replay.map TxFlit.payload ∧ ∀ (i : Nat) (f : TxFlit), t.replay[i]? = some f → f.seq = i) ∧
  (∀ (p : Fin 4) (s : State), s.rst.inReset = false → (portAt s p).up = false → portLive s p = true →
    let k := portAt s p
    let s1 := passNs s (k.trainAt + 1000000 - s.clk.ns)
    let n := if k.retraining then min 3 (k.failed + 1) else k.failed
    let s2 := modPort s1 p fun k => { k with trainAt := s1.clk.ns, failed := n, down := k.down || n == 3 }
    exec (.trainingTimeout p) s = .next (settle (if n = 3 then onset { b := bHRN p, src := 2 } s2 else s2))) ∧
  (∀ (p : Fin 4) (s : State), s.Ready → portLive s p = true →
    exec (.farEndReset p) s = .next (modPort s p fun k => { k with up := false, retraining := false, failed := 0, trainAt := s.clk.ns }))) ∧
  ((∀ (p : Fin 4) (t1 t3 t4 : Word) (half : Bool) (s : State), PortUp s p →
    let t2 := BitVec.ofNat 32 (2 * s.clk.gtc.toNat + b2n half)
    let s1 := modPort s p fun k => { k with echo := (t1, t2) }
    ((p.val ≠ s.time.upPort ∨ 20000 < (t2 - t3).toNat) → exec (.sync p t1 t3 t4 half) s = .next (settle s1)) ∧
    (p.val = s.time.upPort → (t2 - t3).toNat ≤ 20000 →
      let s2 := modPort s1 p fun k => { k with delay := fld (t2 - t1 + (t4 - t3)) 15 0 }
      exec (.sync p t1 t3 t4 half) s = .next (settle (
        if s.time.mode = 4 then Machine.measure (rneDiv ((t4 - t3).toInt - (t2 - t1).toInt) 4) s2 else s2)))) ∧
  (∀ (s : State), s.rst.inReset = false →
    let s1 := passNs s (2000 - s.clk.gtc.toNat % 2000)
    exec .syncSend s = .next (settle ((upPorts s1).foldl (fun s p => modPort s p fun k => { k with pend15 := k.pend15 ++ [.sync] }) s1))) ∧
  (∀ (s : State), s.rst.inReset = false → (s.glb.patState = 3 ∨ s.glb.patState = 4) →
    exec .identSend s = .next (settle ((upPorts s).foldl (fun s p => slot15 p [identBody s p] s) s))) ∧
  (∀ (p : Fin 4) (n : Nat) (s : State), p.val < s.hrn.ports.length →
    let k := portAt (sendSets p n s) p
    k.sent15.length ≤ 16 ∧ (skipSlot n = true → k.sent15.getLast? = some skipBody ∧ k.pend15 = (portAt s p).pend15.drop 15) ∧
      (skipSlot n = false → k.pend15 = (portAt s p).pend15.drop 16)) ∧
  (∀ (p : Fin 4) (s : State), s.Ready → exec (.skip p) s = .next s) ∧
  (∀ (p : Fin 4) (dev gm1 far : Byte) (tag : Word) (s : State), PortUp s p →
    let ok := patInUse s && identMatches s p dev.toNat gm1.toNat tag
    let s1 := modPeer (modPort s p fun k => { k with
      peer := dev.toNat % 8
      identOk := ok
      identOf := some (gm1.toNat, tag)
      stopped := if patInUse s then !ok else k.stopped }) dev.toNat fun x => { x with known := true }
    (patInUse s = false → exec (.ident p dev gm1 far tag) s = .next (settle s1)) ∧
    (patInUse s = true → ok = true → exec (.ident p dev gm1 far tag) s = .next (settle (causeEnds (bHRN p) 7 s1))) ∧
    (patInUse s = true → ok = false → exec (.ident p dev gm1 far tag) s = .next (settle (onset { b := bHRN p, src := 7 } s1)))))

/-- 14, R346 to R350: flits. A flit whose CRC is wrong fires HRNn source 0 and is answered with a NAK. Of one whose CRC is right the
acknowledgement, the credits and the NAK count; its payload is taken when its SEQ is the next one and its VC exists, a SEQ ahead is answered
with a NAK, and one behind is dropped. A flit of other than 256 bytes does not exist. With the oldest flit 1,000 ns without its ACK, every
flit of the replay buffer is to be sent again. The slots send them: one sent again counts as a replay, and the eighth time fires HRNn source
1 and the port trains again. -/
def Obligations.Flits : Prop :=
  (∀ (p : Fin 4) (flit : List Byte) (s : State), flit.length ≠ 256 → ∃ w, exec (.flitReceive p flit) s = .fault (.illFormed w)) ∧
  (∀ (p : Fin 4) (flit : List Byte) (s : State), PortUp s p → flit.length = 256 →
    ((crc32c (flit.take 248)).toNat ≠ leAt flit 248 4 →
      exec (.flitReceive p flit) s = .next (settle (fire { b := bHRN p, src := 0 } (modPort s p fun k => { k with nakDue := true })))) ∧
    ((crc32c (flit.take 248)).toNat = leAt flit 248 4 →
      let h := leAt flit 0 8
      let vc := bitsAt h 25 2
      let s1 := flitControl p (bitsAt h 12 12) (bitsAt h 32 8) (bitsAt h 40 8) (h.testBit 24) s
      let ahead := (bitsAt h 0 12 + 4096 - (portAt s1 p).rxSeq) % 4096
      ((2 ≤ vc ∨ 2048 ≤ ahead) → exec (.flitReceive p flit) s = .next (settle s1)) ∧
      (vc < 2 → ahead = 0 → exec (.flitReceive p flit) s = .next (settle (flitPayloadIn p vc (slice flit 8 240) s1))) ∧
      (vc < 2 → 0 < ahead → ahead < 2048 →
        exec (.flitReceive p flit) s = .next (settle (modPort s1 p fun k => { k with nakDue := true }))))) ∧
  (∀ (p : Fin 4) (s : State) (f : TxFlit) (fs : List TxFlit), PortUp s p → (portAt s p).replay = f :: fs →
    let s1 := passNs s (f.sentAt + 1000 - s.clk.ns)
    exec (.flitReplayTimeout p) s = .next (settle (modPort s1 p fun k => { k with redo := k.replay.map TxFlit.seq }))) ∧
  (∀ (p : Fin 4) (n : Nat) (s : State) (q : Nat) (rest : List Nat), p.val < s.hrn.ports.length → (portAt s p).redo = q :: rest →
    ∃ s1, (portAt s1 p).redo = rest ∧ (portAt s1 p).replays = min 0xFFFFFFFF ((portAt s p).replays + 1) ∧ (portAt s1 p).up = (portAt s p).up ∧
      resendFlit p n s = if (portAt s p).replay.any fun f => f.seq == q && decide (7 ≤ f.resends) then
        fire { b := bHRN p, src := 1 } (retrain p s1) else s1)

/-- 08, R215; 14, R350 to R356; 17, R413, R417, R420: messages. A message for another device is forwarded, and a request that cannot be is
answered with DENY. A request for this device is refused when its identifier is old, firing HRNn source 5, answered with WR_ACK and not
carried out again when it has been, and otherwise served: DENY where its source or its memory is fenced or no import window permits it, else
the data or the write with its acknowledgement. A response with no entry in the request table is dropped and fires DRU source 2; one with an
entry takes it. A response later than its fixed cycle fires HRNn source 3, and a request with none within 20,000 ns is abandoned as if
denied. -/
def Obligations.RemoteMessages : Prop :=
  (∀ (p : Fin 4) (hdr : BitVec 128) (data : List Byte) (s : State), PortUp s p → (portAt s p).stopped = false →
    let m := msgOf hdr
    exec (.rdReq p hdr) s = .next (settle (messageIn p { m with ty := 1 } [] s)) ∧
    (data.length = m.len → exec (.wrReq p hdr data) s = .next (settle (messageIn p { m with ty := 2 } data s))) ∧
    (data.length = m.len → exec (.rdRsp p hdr data) s = .next (settle (messageIn p { m with ty := 3 } data s))) ∧
    (data.length ≠ m.len → ∃ w, exec (.wrReq p hdr data) s = .fault (.illFormed w)) ∧
    (data.length ≠ m.len → ∃ w, exec (.rdRsp p hdr data) s = .fault (.illFormed w)) ∧
    exec (.wrAck p hdr) s = .next (settle (messageIn p { m with ty := 4 } [] s)) ∧
    exec (.deny p hdr) s = .next (settle (messageIn p { m with ty := 5 } [] s))) ∧
  (∀ (p : Nat) (m : Msg) (data : List Byte) (s : State), m.dst ≠ devId s → messageIn p m data s =
    (if (sendMsg m data (some p) .none s).2 = false ∧ m.ty ≤ 2 then respond m 5 false [] (sendMsg m data (some p) .none s).1 else (sendMsg m data (some p) .none s).1)) ∧
  (∀ (p : Nat) (m : Msg) (data : List Byte) (s : State), m.dst = devId s → m.ty = 1 ∨ m.ty = 2 →
    let s1 := modPeer s m.src fun k => k.sawRid m.rid
    ((peerAt s m.src).tooOld m.rid = true → messageIn p m data s = fire { b := bHRN p, src := 5 } s) ∧
    ((peerAt s m.src).tooOld m.rid = false → m.ty = 2 → m.rid ∈ (peerAt s1 m.src).executed →
      messageIn p m data s = respond m 4 false [] (fire { b := bHRN p, src := 5 } s1)) ∧
    ((peerAt s m.src).tooOld m.rid = false → (m.ty = 2 → m.rid ∉ (peerAt s1 m.src).executed) →
      (cannotServe s1 m = true → messageIn p m data s = respond m 5 false [] s1) ∧
      (cannotServe s1 m = false → windowOk s1 m = false → messageIn p m data s = refuse m s1) ∧
      (cannotServe s1 m = false → windowOk s1 m = true → m.ty = 1 → messageIn p m data s =
        respond m 3 (poisoned s1 (msgMem m) m.addr m.len) ((memOf s1 (msgMem m)).rdN m.addr m.len)
          (lcAccess m (readRun (msgMem m) none m.addr m.len s1))) ∧
      (cannotServe s1 m = false → windowOk s1 m = true → m.ty = 2 →
        let s2 := lcAccess m (writeRun (msgMem m) none m.addr data s1)
        messageIn p m data s = respond m 4 false [] (modPeer s2 m.src fun p => { p with executed := addNew p.executed m.rid })))) ∧
  (∀ (p : Nat) (m : Msg) (data : List Byte) (s : State), m.dst = devId s → 3 ≤ m.ty → answers s p m = none →
    messageIn p m data s = fire { b := bDRU, src := 2, det := BitVec.ofNat 32 (dHRN p) } s) ∧
  (∀ (dev : Fin 8) (rid : BitVec 16) (s : State) (q : RemReq), s.rst.inReset = false → findReq s dev rid.toNat = some q →
    exec (.remoteRequestAbandon dev rid) s = .next (settle (denyReq dev q (passNs s (q.sentAt + 20000 - s.clk.ns)))) ∧
    (q.lc = true → q.missed = false → reqAlive s q = true → exec (.remoteLatMiss dev rid) s = .next (settle
      (fire { b := bHRN (routePort s dev), src := 3, who := whoOn s q.core }
        (modPeer (passToCyc s (q.due + 1)) dev fun p =>
          { p with out := p.out.map fun x => if x.rid = rid.toNat then { x with missed := true } else x })))))

/-- 14, R360 to R362; 17, R418 to R420: the side channel. A SIDE whose CRC is right is acknowledged on its port; one of a reserved kind has no
other effect; another not seen before is logged by the lead, noted of its origin, forwarded, and acted on by its kind unless it is this
device's own: a fence of D_FST or D_DRC fences the origin, DOMAIN_UP lifts that, PART_VOID voids the partitions that depend on the origin,
DEVICE_SAFE does both, and DEVICE_READY lifts everything. SIDE_ACK ends the resending of its SIDE; one without it for 500 ns is sent again,
and after eight resends HRNn source 8 fires and the port trains again. -/
def Obligations.SideChannel : Prop :=
  (∀ (p : Fin 4) (kind : Nat) (body : BitVec 128) (s : State), PortUp s p → sideGood body = true → fld body 7 0 = 3 →
    (fld body 23 16 = 0 ∨ 6 ≤ fld body 23 16) → run s (sideIn p kind body) = .next (settle (slot15 p [ackBody body] s))) ∧
  (∀ (p : Fin 4) (body : BitVec 128) (s : State),
    exec (.domainFence p body) s = run s (sideIn p 1 body) ∧ exec (.domainUp p body) s = run s (sideIn p 2 body) ∧
    exec (.partVoid p body) s = run s (sideIn p 3 body) ∧ exec (.deviceSafe p body) s = run s (sideIn p 4 body) ∧
    exec (.deviceReady p body) s = run s (sideIn p 5 body)) ∧
  (∀ (p : Fin 4) (kind : Nat) (body : BitVec 128) (s : State), PortUp s p → sideGood body = true → fld body 7 0 = 3 →
    fld body 23 16 = kind → 1 ≤ kind → kind ≤ 5 →
      let x := fld body 10 8
      let m := fld body 63 48
      let s1 := slot15 p [ackBody body] s
      let s2 := logSide body { s1 with hrn := { s1.hrn with seen := markSeen x m s1.hrn.seen } }
      let s3 := forwardSide p body (modPeer s2 x fun k => k.heard kind (fld body 31 24) (fld body 39 32) m)
      ((x, m) ∈ s.hrn.seen → run s (sideIn p kind body) = .next (settle s1)) ∧
      ((x, m) ∉ s.hrn.seen → run s (sideIn p kind body) =
        .next (settle (if x = devId s then s3 else sideAct kind x (fld body 31 24) (fld body 111 64) s3)))) ∧
  (∀ (x dom k : Nat) (s : State),
    sideAct 1 x dom k s = (if dom = dFST ∨ dom = dDRC then fencePeer x (fun p => { p with fences := addNew p.fences dom }) s else s) ∧
    sideAct 2 x dom k s = modPeer s x (fun p => { p with fences := p.fences.filter (· != dom) }) ∧
    sideAct 3 x dom k s = depVoid x k s ∧
    sideAct 4 x dom k s = fencePeer x (fun p => { p with inSafe := true }) (depVoid x k s) ∧
    sideAct 5 x dom k s = modPeer s x (fun p => { p with fences := [], inSafe := false })) ∧
  (∀ (p : Fin 4) (o : Fin 8) (m : BitVec 16) (s : State), s.Ready → PortUp s p →
    exec (.sideAck p o m) s = .next (modPort s p fun k =>
      { k with sides := k.sides.filter fun x => fld x.body 10 8 != o.val || fld x.body 63 48 != m.toNat })) ∧
  (∀ (p : Fin 4) (s : State) (x : SideOut) (rest : List SideOut), PortUp s p → (portAt s p).sides = x :: rest →
    let s1 := passNs s (x.sentAt + 500 - s.clk.ns)
    exec (.sideResendTimeout p) s = .next (settle (
      if 8 ≤ x.resends then fire { b := bHRN p, src := 8 } (retrain p (modPort s1 p fun k => { k with sides := { x with resends := 0 } :: rest }))
      else slot15 p [x.body] (modPort s1 p fun k => { k with sides := rest ++ [{ x with sentAt := s1.clk.ns, resends := x.resends + 1 }] }))))

/-- 08, R209, R212; 15, R384; 20, R468 to R470: the memory windows. A host's read in a window is answered with the bytes, EP set when a word of
them is uncorrectable; outside it, and while the window's memory cannot be reached, the request is an Unsupported Request, which fires PCI
source 4, and which a read is answered with. A write stores the bytes that its enables select; through BAR4 one that touches the protected
region stores nothing and fires PCI source 0, and a read of that region gives 0. A parity error on the die fires GLB source 3: in data it
sets EP or poisons what is stored, in control it drops the access, a read being answered with EP. -/
def Obligations.HostWindows : Prop :=
  (∀ (a n : Nat) (noc : Option NocErr) (s : State), s.rst.inReset = false → hostReaches s = true →
    let ur := fire { b := bPCI, src := 4 } { s with pci := { s.pci with ans := { ur := true } } }
    (bar2Refuses s a n = true → exec (.bar2Access (.read a n) noc) s = .next (settle ur)) ∧
    (bar2Refuses s a n = false → exec (.bar2Access (.read a n) none) s =
      .next (settle (hostData (s.fst.mem.rdN a n) (poisoned s .fst a n) (readRun .fst none a n s)))) ∧
    (bar2Refuses s a n = false → exec (.bar2Access (.read a n) (some .data)) s =
      .next (settle (hostData (s.fst.mem.rdN a n) true (fire { b := bGLB, src := 3 } (readRun .fst none a n s))))) ∧
    (bar2Refuses s a n = false → ∃ bs, exec (.bar2Access (.read a n) (some .control)) s =
      .next (settle (hostData bs true (fire { b := bGLB, src := 3 } (bumpFree s))))) ∧
    (bar4Refuses s a n = true → exec (.bar4Access (.read a n) noc) s = .next (settle ur)) ∧
    (bar4Refuses s a n = false →
      let k := min n (mgtBase s - a)
      let bs := s.drc.mem.rdN a k ++ List.replicate (n - k) 0
      exec (.bar4Access (.read a n) none) s = .next (settle (hostData bs (poisoned s .dram a k) (readRun .dram none a k s))) ∧
      exec (.bar4Access (.read a n) (some .data)) s = .next (settle (hostData bs true (fire { b := bGLB, src := 3 } (readRun .dram none a k s)))) ∧
      ∃ bs, exec (.bar4Access (.read a n) (some .control)) s =
        .next (settle (hostData bs true (fire { b := bGLB, src := 3 } (bumpFree s)))))) ∧
  (∀ (a : Nat) (d : List (Byte × Bool)) (noc : Option NocErr) (s : State), s.rst.inReset = false → hostReaches s = true →
    let cells := enabledCells a d
    let ur := fire { b := bPCI, src := 4 } { s with pci := s.pci.signalUr }
    let stored := fun m => match noc with
      | none => hostStore m cells s
      | some .data => writeCells (fun _ => m) none cells (cells.map fun _ => true) (fire { b := bGLB, src := 3 } s)
      | some .control => fire { b := bGLB, src := 3 } s
    (bar2Refuses s a d.length = true → exec (.bar2Access (.write a d) noc) s = .next (settle ur)) ∧
    (bar2Refuses s a d.length = false → exec (.bar2Access (.write a d) noc) s = .next (settle (stored .fst))) ∧
    (bar4Refuses s a d.length = true → exec (.bar4Access (.write a d) noc) s = .next (settle ur)) ∧
    (bar4Refuses s a d.length = false → (∃ c ∈ cells, dramGenEnd s ≤ c.1) → exec (.bar4Access (.write a d) noc) s = .next (settle (fire { b := bPCI, src := 0 } s))) ∧
    (bar4Refuses s a d.length = false → (∀ c ∈ cells, c.1 < dramGenEnd s) → exec (.bar4Access (.write a d) noc) s = .next (settle (stored .dram))))

/-- 20, R462 to R464, R472: the endpoint. HOT_RESET returns configuration space to its defaults and changes nothing else. A configuration write
sets Bus Master Enable, the power state and the MSI-X control bits, and what was held may flow. The data link's fall begins the cause of PCI
source 2, its return ends it. A completion that does not come within 10 ms of its read, or comes poisoned, marks the fetch of the ring's
entry to be made again and fires PCI source 3; a replay fires source 1 and is counted; a poisoned write fires source 3. A deferred ring
vector is sent 2,000 ns after the last one. -/
def Obligations.PciEndpoint : Prop :=
  (∀ (s : State), s.Ready → hostReaches s = true →
    exec .hotReset s = .next { s with pci := { s.pci with bme := false, d3hot := false, msixEn := false, msixMask := false, configured := false, cfg := {} } }) ∧
  (∀ (bme d3 en mask clr : Bool) (cfg : CfgSpace) (aer : AerSet) (s : State), s.rst.inReset = false → hostReaches s = true →
    exec (.configurationWrite bme d3 en mask cfg aer clr) s = .next (settle (requestsFlow { s with pci := { s.pci with
      bme := bme, d3hot := d3, msixEn := en, msixMask := mask, configured := true
      cfg := keepCfg s cfg, aer := aer, urSeen := s.pci.urSeen && !clr } })) ∧
    (keepCfg s cfg).bar2.toNat % 2 ^ 26 = 0) ∧
  (∀ (s : State), s.rst.inReset = false → s.pci.dlActive = true → exec .dataLinkDown s = .next (settle (onset { b := bPCI, src := 2 }
    { s with pci := { s.pci with dlActive := false, speed := 0, width := 0 } }))) ∧
  (∀ (sp : BitVec 4) (w : BitVec 6) (s : State), s.rst.inReset = false → inService s dPCI = true → linkRuns sp w = true → exec (.dataLinkUp sp w) s =
    .next (settle (requestsFlow (causeEnds bPCI 2 { s with pci := { s.pci with dlActive := true, speed := sp, width := w } })))) ∧
  (∀ (r : Fin 8) (at_ : Nat) (s : State), s.rst.inReset = false → wantsFetch s r = true →
    let lost := fun s => if wantsFetch s r then fire { b := bPCI, src := 3 } (modSub s r fun k => { k with refetch := true }) else s
    (at_ ≤ s.clk.ns → exec (.pciCompletionTimeout r at_) s = .next (settle (lost (passNs s (at_ + 10000000 - s.clk.ns))))) ∧
    (hostReaches s = true → exec (.tlpReceive (.badCompletion r)) s = .next (settle (lost s)))) ∧
  (∀ (s : State), s.rst.inReset = false → hostReaches s = true →
    exec (.tlpReceive .replayed) s = .next (settle (fire { b := bPCI, src := 1 } { s with pci := { s.pci with replays := min 0xFFFFFFFF (s.pci.replays + 1) } })) ∧
    exec (.tlpReceive .poisonedWrite) s = .next (settle (fire { b := bPCI, src := 3 } s))) ∧
  (∀ (n : Fin 10) (s : State) (t : Nat), s.rst.inReset = false → (ringAt s (ringOfNum n)).vecDue = true → (ringAt s (ringOfNum n)).vecAt = some t →
    exec (.ringVectorDeferralEnd n) s = .next (settle (ringVector (ringOfNum n)
      (modRing (ringOfNum n) (fun k => { k with vecDue := false }) (passNs s (t + 2000 - s.clk.ns))))))

/-- 18, R436, R437; 19, R444, R447 to R451: the mailbox and the lifetime record. RING makes the mailbox busy, and sets OVERRUN when it is busy.
A command ends with TAG, a result and DONE, and the mailbox's vector is sent; with a result other than OK nothing else changes but that
FLASH fires MGT source 8, in Minimal Recovery Mode a command that it does not offer ends NOT_NOW, and a code that is not listed ends
UNKNOWN. Each listed command's effect is the one of its code. LIFETIME_COUNT_UPDATE adds what the fault counters have grown by since the
last, and once in ten the second's counts; LIFETIME_FLASH_WRITE writes the record to the next flash copy with SEQ one greater, or fires MGT
source 8. -/
def Obligations.MailboxAndLifetime : Prop :=
  (∀ s : State, Machine.ring s = if s.mgt.busy then { s with mgt := { s.mgt with overrun := true } } else { s with mgt := { s.mgt with busy := true } }) ∧
  (∀ (c : Instr) (code : Nat) (s : State), s.rst.inReset = false →
    (c, code) ∈ [(Instr.getInfo, 0x01), (.sensors, 0x02), (.lifetimeRead, 0x03), (.retainedRead, 0x04), (.attemptsClear, 0x05), (.fwWrite, 0x10),
      (.fwVerify, 0x11), (.fwActivate, 0x12), (.fwConfirm, 0x13), (.svnCommit, 0x14), (.lcAdvance, 0x20), (.keyProgram, 0x21), (.groupMap, 0x30),
      (.ptpStatus, 0x31), (.flashRead, 0x40)] →
    let b := mbxBody code
    let done := fun s1 =>
      let r := if s1.rst.minimal && !b.1 then 2 else (b.2 s1).2
      let s2 := if r = 0 then (b.2 s1).1 else s1
      mbxEnd r (if r = 6 then fire { b := bMGT, src := 8 } s2 else s2)
    (s.mgt.busy = true → fld s.mgt.cmd 7 0 = code → exec c s = .next (settle (done s))) ∧
    (s.mgt.busy = true → fld s.mgt.cmd 7 0 ≠ code → exec c s = .next (settle { s with mgt := { s.mgt with overrun := true } })) ∧
    (s.mgt.busy = false → mbxReached s = true →
      exec c s = .next (settle (done { s with mgt := { s.mgt with cmd := putBits s.mgt.cmd 0 8 code } })))) ∧
  (∀ (s : State), s.rst.inReset = false → s.mgt.busy = false → mbxReached s = true → exec .mailboxUnknown s = .next (settle (mbxEnd 1 s))) ∧
  (∀ (r : Nat) (s : State), mbxEnd r s = sendVec 144 { s with mgt := { s.mgt with
    stTag := BitVec.ofNat 16 (fld s.mgt.cmd 31 16), result := r, done := true, busy := false } }) ∧
  (∀ (s : State), (mbxBody 0x01).2 s = ({ s with mgt := { s.mgt with buf := s.mgt.buf.wrN 0 (infoBytes s) } }, 0) ∧
    (mbxBody 0x02).2 s = ({ s with mgt := { s.mgt with buf := s.mgt.buf.wrN 0 (sensorBytes s) } }, 0) ∧
    (mbxBody 0x05).2 s = ({ s with rst := { s.rst with bkup := putAt 0 s.rst.bkup 0 (putBits (s.rst.bkup.getD 0 0) 0 8 0) } }, 0) ∧
    (mbxBody 0x14).2 s = (if (bootChoice s.mgt).2 then (s, 2)
      else ({ s with mgt := { s.mgt with fuses := { s.mgt.fuses with svn := max s.mgt.fuses.svn s.mgt.fwSvn } } }, 0)) ∧
    (mbxBody 0x20).2 s = (
      let target := (s.mgt.args.getD 0 0).toNat
      if s.rst.minimal ∧ target ≠ 3 then (s, 2)
      else if 3 < target then (s, 3)
      else if lcAllowed s target = false then (s, 7)
      else if target = 3 ∧ tokenOk s = false then (s, 4)
      else ({ s with mgt := { s.mgt with fuses := { s.mgt.fuses with lc := putBit s.mgt.fuses.lc (target - 1) true } } }, 0))) ∧
  (∀ (s : State), s.Ready → s.rst.minimal = false →
    (s.mgt.flashBad = false → exec .lifetimeFlashWrite s = .next { s with mgt :=
      { (s.mgt.eraseSector (lifeCopy (s.mgt.lifeSeq + 1))).program (lifeCopy (s.mgt.lifeSeq + 1)) (lifeBytes s (s.mgt.lifeSeq + 1)) with
        lifeSeq := s.mgt.lifeSeq + 1, lifeFlash := s.mgt.life } }) ∧
    (s.mgt.flashBad = true → exec .lifetimeFlashWrite s = .next (settle (fire { b := bMGT, src := 8 } s)))) ∧
  (∀ (s : State), s.rst.inReset = false → s.rst.minimal = false →
    let s1 := (List.range 36).foldl lifeBlock s
    let s2 := { s1 with mgt := { s1.mgt with lifeCnt := s.flt.map FltBlock.cnt, lifeTenths := (s.mgt.lifeTenths + 1) % 10 } }
    exec .lifetimeCountUpdate s = .next (settle (if s.mgt.lifeTenths = 9 then lifeSecond s2 else s2)))

/-- 18, R423 to R426, R428, R429, R431: the reset sources. A warm reset holds the device in reset from its assertion point on, with DRAM in
self-refresh and a snapshot in the retained record, whose words are correct again, and keeps what heldThrough names; a cold reset keeps the
fuses, the flash and the level of RESET_N. The start follows the internal release, when RESET_N, the detector the monitors and the XTAL
clock all allow it. In a reset, RESET_N, the XTAL clock and a monitor that reads in range only change what the reset waits for; a monitor
out of range at the end of the wait begins the cause of MGT source 2 in a device that does not start. A low pulse of fewer than 64 cycles
fires RST source 0 and is counted. 18, R423 to R426: while the device is held in reset, every command but the reset sources and the test
access port changes nothing, and an idle step changes nothing. That the start takes no time is the model's choice, entry 20. -/
def Obligations.ResetSources : Prop :=
  ((∀ (s : State), s.rst.inReset = false →
    let t := heldThrough s
    exec .resetNAssert s = .next { t with
      drc := { t.drc with selfRefresh := s.drc.trained || s.drc.selfRefresh }
      mgt := { t.mgt with
        rec_ := some (snapshot s)
        sram := { t.mgt.sram with ce := t.mgt.sram.ce.filter (!snapWord ·), ue := t.mgt.sram.ue.filter (!snapWord ·) } }
      rst := { t.rst with gtcAtAssert := s.clk.gtc, pinLow := true } } ∧
    exec .xtalLoss s = .next { t with rst := { t.rst with noXtal := true } } ∧
    (heldThrough s).rst.inReset = true ∧ (heldThrough s).mgt.fuses = s.mgt.fuses ∧ (heldThrough s).mgt.flash = s.mgt.flash ∧
    (heldThrough s).mgt.retained = s.mgt.retained ∧ (heldThrough s).drc.mem = s.drc.mem ∧ (heldThrough s).rst.bkup = s.rst.bkup ∧
    (heldThrough s).glb.patAddr = s.glb.patAddr ∧ (heldThrough s).glb.patReq = s.glb.patReq ∧
    (∀ k ∈ (heldThrough s).cores, k = {}) ∧ (heldThrough s).glb.patState = 0) ∧
  (∀ (s : State), s.rst.inReset = true → exec .resetNAssert s = .next { s with rst := { s.rst with pinLow := true } } ∧
    exec .xtalLoss s = .next { s with rst := { s.rst with noXtal := true } }) ∧
  (∀ (s : State), exec .powerOnDetectorAssert s = .next { State.reset with
    pending := s.pending
    host := s.host
    freeSeq := s.freeSeq
    runSeq := s.runSeq
    mgt := { fuses := s.mgt.fuses, flash := s.mgt.flash, delivered := s.mgt.delivered, flashBad := s.mgt.flashBad }
    rst := { pinLow := s.rst.pinLow, noXtal := s.rst.noXtal } }) ∧
  (∀ (hold : Word) (g : StartIn) (s : State), s.rst.inReset = true → s.rst.pinLow = true →
    let s1 := { s with rst := { s.rst with pinLow := false } }
    ((s.rst.porOn = true ∨ s.rst.noXtal = true ∨ s.rst.monOut ≠ []) → exec (.resetNRelease hold g) s = .next s1) ∧
    (s.rst.porOn = false → s.rst.noXtal = false → s.rst.monOut = [] →
      exec (.resetNRelease hold g) s = .next (release g (if s.rst.cause then { s1 with rst := { s1.rst with holdXtal := hold } } else s1)))) ∧
  (∀ (d32 : Bool) (out : List (Fin 12)) (s : State), s.rst.inReset = true → s.rst.porOn = true →
    let s1 := { s with rst := { s.rst with porOn := false, monOut := out.map Fin.val }, drc := { s.drc with attached := d32 } }
    ((s.rst.pinLow = true ∨ s.rst.noXtal = true ∨ out ≠ []) → exec (.powerOnDetectorRelease d32 out) s = .next s1) ∧
    (s.rst.pinLow = false → s.rst.noXtal = false → out = [] → exec (.powerOnDetectorRelease d32 out) s = .next (release {} s1))) ∧
  (∀ (g : StartIn) (s : State), s.rst.inReset = true → s.rst.noXtal = true →
    let s1 := { s with rst := { s.rst with noXtal := false, xtalLost := true } }
    ((s.rst.pinLow = true ∨ s.rst.porOn = true ∨ s.rst.monOut ≠ []) → exec (.xtalReturn g) s = .next s1) ∧
    (s.rst.pinLow = false → s.rst.porOn = false → s.rst.monOut = [] → exec (.xtalReturn g) s = .next (release g s1))) ∧
  (∀ (m : Fin 12) (mv : BitVec 16) (s : State), s.rst.inReset = true → s.rst.monOut ≠ [] →
    let r : Word := BitVec.ofNat 32 (2 ^ 31 + mv.toNat)
    let s1 := { s with mgt := { s.mgt with vmon := putAt 0 s.mgt.vmon m r } }
    let s2 := { s1 with rst := { s1.rst with monOut := s1.rst.monOut.filter (· != m.val) } }
    let s3 := { s1 with rst := { s1.rst with monOut := [] } }
    (inVolts s m r = true → exec (.voltageMonitorTrip m mv) s = .next (if mayStart s2 then release {} s2 else s2)) ∧
    (inVolts s m r = false → exec (.voltageMonitorTrip m mv) s = .next (if mayStart s3 then
      settle (onset { b := bMGT, src := 2, det := BitVec.ofNat 32 m } (outOfReset s3)) else s1))) ∧
  (∀ (s : State), s.rst.inReset = false → exec .resetNShortPulse s = .next (settle (fire { b := bRST, src := 0 }
    (lifeAdd 480 4 1 { s with rst := { s.rst with shortCnt := min 0xFFFF (s.rst.shortCnt + 1) } })))) ∧
  (∀ (s : State), s.rst.inReset = false → s.rst.ready = false → s.rst.late = false →
    let s1 := passNs s (s.rst.releaseAt + s.rst.startLimit * 1000000 - s.clk.ns)
    exec .startLimitExpiry s = .next (settle { s1 with rst := { s1.rst with late := true } })) ∧
  (∀ (s : State), s.Ready → exec .pinHoldRel s = .next { s with rst := { s.rst with pinHold := false } })) ∧
  ((∀ (c : Instr) (s : State), s.rst.inReset = true → c.wellFormed = true → c.isReset s = false → c.isTck = false → exec c s = .next s) ∧
  (∀ (s : State), s.rst.inReset = true → s.pending = [] → step s = .next s))

/-- 19, R458; 18, R423: the test access port. TRST_N low selects IDCODE in Test-Logic-Reset; a rising edge of TCK captures, shifts, and moves
the controller as IEEE 1149.1 says; a falling edge changes TDO and updates. No edge changes anything of the device but the port and the
model's own count of free values, and with the pins off none changes anything. -/
def Obligations.TestAccessPort : Prop :=
  (∀ (rising tms tdi trst : Bool) (s : State), ∃ t : Tap, ∃ n : Nat, exec (.tckEdge rising tms tdi trst) s = .next { s with tap := t, freeSeq := n } ∧
    (pinsOff s = true → t = s.tap ∧ n = s.freeSeq) ∧
    (pinsOff s = false → trst = false → t.st = .reset ∧ t.ir = 1) ∧
    (pinsOff s = false → trst = true → rising = true → t.st = s.tap.st.next tms ∧ t.ir = s.tap.ir ∧
      (s.tap.st = .shDr → t.dr = s.tap.dr.drop 1 ++ [tdi]) ∧ (s.tap.st = .capIr → t.irShift = 1)) ∧
    (pinsOff s = false → trst = true → rising = false → t.st = s.tap.st ∧ (s.tap.st = .upIr → t.ir = s.tap.irShift) ∧
      (s.tap.st = .shDr → t.tdo = s.tap.dr.headD false ∧ t.tdoOn = true)))
end

