-- ==== Sys2Proof/Laws/Bits.lean ====
section
/-!
SUPPORT. Bits, list updates and fields of words, as later proofs use them.
-/
namespace Sys2Proof.Laws

open Sys2Proof.Machine

/-- One bit set or cleared: that bit reads what was written, every other bit as before. -/
theorem getLsbD_putBit {w : Nat} (x : BitVec w) (i j : Nat) (b : Bool) :
    (putBit x i b).getLsbD j = if j = i then (b && decide (i < w)) else x.getLsbD j := by
  have e1 : (2 ^ 1 - 1) <<< i = 2 ^ i := by simp [Nat.shiftLeft_eq]
  have e2 : ((if b then 1 else 0) % 2 ^ 1) <<< i = if b then 2 ^ i else 0 := by cases b <;> simp [Nat.shiftLeft_eq]
  have h : (putBit x i b).getLsbD j = ((x.getLsbD j && !(decide (j < w) && (2 ^ i).testBit j)) ||
      (decide (j < w) && (if b then 2 ^ i else 0).testBit j)) := by
    simp only [putBit, putBits, BitVec.getLsbD_or, BitVec.getLsbD_and, BitVec.getLsbD_not, BitVec.getLsbD_ofNat, e1, e2]
    by_cases hj : j < w
    · simp [hj]
    · simp [hj, BitVec.getLsbD_of_ge x j (by omega)]
  rw [h]
  by_cases hij : j = i
  · subst hij
    have hx : ¬ j < w → x.getLsbD j = false := fun hj => BitVec.getLsbD_of_ge x j (by omega)
    by_cases hj : j < w
    · cases b <;> simp [hj, Nat.testBit_two_pow_self]
    · cases b <;> simp [hj, hx hj]
  · cases b <;> simp [hij, Nat.testBit_two_pow_of_ne (Ne.symm hij)]

/-- An element set: that element reads what was written. -/
theorem getD_putAt_same {α : Type} (d : α) (l : List α) (i : Nat) (x : α) : (putAt d l i x).getD i d = x := by
  unfold putAt
  split
  · rename_i h; simp [List.getD, h]
  · rename_i h
    have : (l ++ List.replicate (i - l.length) d).length = i := by simp; omega
    rw [List.getD, List.getElem?_append_right (by omega), this]; simp

/-- An element set: every other element reads as before, `d` where none is. -/
theorem getD_putAt_ne {α : Type} (d : α) (l : List α) (i j : Nat) (x : α) (h : j ≠ i) : (putAt d l i x).getD j d = l.getD j d := by
  unfold putAt
  split
  · simp [List.getD, Ne.symm h]
  · rename_i hi
    simp only [List.getD, List.append_assoc]
    by_cases h1 : j < l.length
    · rw [List.getElem?_append_left h1]
    · rw [List.getElem?_append_right (by omega), List.getElem?_eq_none (l := l) (by omega)]
      by_cases h2 : j < i
      · rw [List.getElem?_append_left (by simp; omega)]
        simp only [List.getElem?_replicate]; split <;> rfl
      · rw [List.getElem?_eq_none (by simp; omega)]

/-- A field of a number written as a word. -/
theorem fld_ofNat {w : Nat} (x hi lo : Nat) : fld (BitVec.ofNat w x) hi lo = x % 2 ^ w / 2 ^ lo % 2 ^ (hi + 1 - lo) := by
  simp [fld, bitsAt, Nat.shiftRight_eq_div_pow]

/-- The changed element, read. -/
theorem getD_upd_same {α : Type} (d : α) (l : List α) (i : Nat) (f : α → α) (h : i < l.length) :
    (upd l i f).getD i d = f (l.getD i d) := by
  unfold upd
  simp only [List.getD_eq_getElem?_getD, List.getElem?_modify, if_true, List.getElem?_eq_getElem h]
  rfl

/-- Another element, read. -/
theorem getD_upd_ne {α : Type} (d : α) (l : List α) (i j : Nat) (f : α → α) (h : j ≠ i) : (upd l i f).getD j d = l.getD j d := by
  unfold upd
  have : ¬ i = j := fun e => h e.symm
  simp only [List.getD_eq_getElem?_getD, List.getElem?_modify, if_neg this]
  cases l[j]? <;> rfl

/-- A change is the setting of one value. -/
theorem upd_set {α : Type} (d : α) (l : List α) (i : Nat) (f : α → α) : upd l i f = upd l i fun _ => f (l.getD i d) := by
  unfold upd
  apply List.ext_getElem?
  intro j
  simp only [List.getElem?_modify]
  by_cases e : i = j
  · subst e
    simp only [if_true, List.getD_eq_getElem?_getD]
    cases l[i]? <;> rfl
  · simp only [if_neg e]

end Sys2Proof.Laws
end

