-- ==== Sys2Proof/Laws/Memory.lean ====
section
/-!
SUPPORT. One byte-addressed memory: a read after a write, and the canonical form, which every operation keeps.
-/
namespace Sys2Proof.Laws
open Sys2Proof.Machine

/-! ### Rising lists of cells -/

theorem cellsRise_tail {c : Host.Cell} {l : List Host.Cell} (h : cellsRise (c :: l) = true) : cellsRise l = true := by
  cases l with
  | nil => rfl
  | cons d l => simp [cellsRise] at h; exact h.2

/-- In a rising list every later address is larger. -/
theorem cellsRise_lt {c : Host.Cell} {l : List Host.Cell} (h : cellsRise (c :: l) = true) : ∀ x ∈ l, c.1 < x.1 := by
  induction l generalizing c with
  | nil => simp
  | cons d l ih =>
    simp only [cellsRise, Bool.and_eq_true, decide_eq_true_eq] at h
    intro x hx
    rcases List.mem_cons.1 hx with rfl | hx
    · exact h.1
    · exact Nat.lt_trans h.1 (ih h.2 x hx)

theorem cellsRise_cons {c : Host.Cell} {l : List Host.Cell} (h : cellsRise l = true) (hc : ∀ x ∈ l, c.1 < x.1) :
    cellsRise (c :: l) = true := by
  cases l with
  | nil => rfl
  | cons d l => simp only [cellsRise, Bool.and_eq_true, decide_eq_true_eq]; exact ⟨hc d (by simp), h⟩

/-- Every cell after a write is the one written or was there before. -/
theorem mem_cellPut {drop : Bool} {a : Nat} {b : Byte} {l : List Host.Cell} {x : Host.Cell} (h : x ∈ cellPut drop a b l) :
    (x = (a, b) ∧ drop = false) ∨ x ∈ l := by
  induction l with
  | nil => cases drop <;> simp_all [cellPut]
  | cons c l ih =>
    obtain ⟨k, v⟩ := c
    simp only [cellPut] at h
    split at h
    · cases drop <;> simp_all
    · split at h
      · cases drop <;> simp_all
        rcases h with h | h <;> simp_all
      · rcases List.mem_cons.1 h with h | h
        · simp [h]
        · rcases ih h with h | h <;> simp_all

theorem cellsRise_cellPut (drop : Bool) (a : Nat) (b : Byte) {l : List Host.Cell} (h : cellsRise l = true) :
    cellsRise (cellPut drop a b l) = true := by
  induction l with
  | nil => cases drop <;> rfl
  | cons c l ih =>
    obtain ⟨k, v⟩ := c
    have ht := cellsRise_tail h
    have hl := cellsRise_lt h
    simp only [cellPut]
    split
    · rename_i hak
      cases drop
      · refine cellsRise_cons h fun x hx => ?_
        rcases List.mem_cons.1 hx with rfl | hx
        · exact hak
        · exact Nat.lt_trans hak (hl x hx)
      · exact h
    · split
      · rename_i hak
        subst hak
        cases drop
        · exact cellsRise_cons ht hl
        · exact ht
      · refine cellsRise_cons (ih ht) fun x hx => ?_
        rcases mem_cellPut hx with ⟨rfl, -⟩ | hx
        · simp only; omega
        · exact hl x hx

theorem cellsRise_filter (p : Host.Cell → Bool) {l : List Host.Cell} (h : cellsRise l = true) : cellsRise (l.filter p) = true := by
  induction l with
  | nil => rfl
  | cons c l ih =>
    simp only [List.filter]
    split
    · exact cellsRise_cons (ih (cellsRise_tail h)) fun x hx => cellsRise_lt h x (List.mem_filter.1 hx).1
    · exact ih (cellsRise_tail h)

/-! ### A read after a write -/

/-- An address below every listed one is not listed. -/
theorem cellGet_none {l : List Host.Cell} {a : Nat} (h : ∀ x ∈ l, a < x.1) : cellGet l a = none := by
  induction l with
  | nil => rfl
  | cons c l ih =>
    obtain ⟨k, v⟩ := c
    have : a < k := h (k, v) (by simp)
    simp only [cellGet, show k ≠ a by omega, if_false]
    exact ih fun x hx => h x (List.mem_cons_of_mem _ hx)

theorem cellGet_cellPut (drop : Bool) (a : Nat) (b : Byte) {l : List Host.Cell} (h : cellsRise l = true) (a' : Nat) :
    cellGet (cellPut drop a b l) a' = if a' = a then (if drop then none else some b) else cellGet l a' := by
  induction l with
  | nil => cases drop <;> simp [cellPut, cellGet, eq_comm]
  | cons c l ih =>
    obtain ⟨k, v⟩ := c
    have ht := cellsRise_tail h
    have hl := cellsRise_lt h
    have hn : ∀ y, y ≤ k → cellGet l y = none := fun y hy => cellGet_none fun x hx => Nat.lt_of_le_of_lt hy (hl x hx)
    simp only [cellPut]
    split
    · rename_i hak
      by_cases e : a' = a
      · subst e
        cases drop
        · simp [cellGet]
        · simp [cellGet, show k ≠ a' by omega, hn a' (by omega)]
      · cases drop <;> simp [cellGet, e, Ne.symm e]
    · split
      · rename_i hak
        subst hak
        by_cases e : a' = a
        · subst e
          cases drop <;> simp [cellGet, hn a' (Nat.le_refl _)]
        · cases drop <;> simp [cellGet, e, Ne.symm e]
      · rename_i h1 h2
        by_cases e : a' = a
        · subst e
          simp [cellGet, show k ≠ a' by omega, ih ht]
        · simp only [cellGet, ih ht, e, if_false]

theorem Fill.at_isByte {f : Fill} {b : Byte} (h : f.isByte b = true) (a : Nat) : f.at a = b := by
  cases f with
  | byte x => simpa [Fill.isByte, Fill.at] using h
  | free => simp [Fill.isByte] at h
  | swatch => simp [Fill.isByte] at h

/-- The written byte is read back. -/
theorem rd_wr (m : Mem) (a : Nat) (b : Byte) (h : m.wf = true) (a' : Nat) : (m.wr a b).rd a' = if a' = a then b else m.rd a' := by
  have hr : cellsRise m.cells = true := by simp [Mem.wf] at h; exact h.1
  simp only [Mem.rd, Mem.wr, cellGet_cellPut _ _ _ hr]
  by_cases e : a' = a
  · subst e
    cases hd : m.fill.isByte b
    · simp
    · simp [Fill.at_isByte hd]
  · simp [e]

/-! ### The canonical form -/

/-- The canonical form is a matter of the cells and the fill alone. -/
theorem wf_congr {m n : Mem} (hc : n.cells = m.cells) (hf : n.fill = m.fill) (h : m.wf = true) : n.wf = true := by
  simpa [Mem.wf, hc, hf] using h

theorem wf_wr (m : Mem) (a : Nat) (b : Byte) (h : m.wf = true) : (m.wr a b).wf = true := by
  simp only [Mem.wf, Bool.and_eq_true, List.all_eq_true] at h ⊢
  refine ⟨cellsRise_cellPut _ _ _ h.1, fun x hx => ?_⟩
  rcases mem_cellPut hx with ⟨rfl, hd⟩ | hx
  · simp only [Mem.wr, hd]; rfl
  · exact h.2 x hx

theorem wf_wrN (m : Mem) (a : Nat) (bs : List Byte) (h : m.wf = true) : (m.wrN a bs).wf = true := by
  induction bs generalizing m a with
  | nil => exact h
  | cons b bs ih => exact ih _ _ (wf_wr _ _ _ h)

theorem wf_foldl {α : Type} (l : List α) (f : Mem → α → Mem) (hf : ∀ m x, m.wf = true → (f m x).wf = true) (m : Mem)
    (h : m.wf = true) : (l.foldl f m).wf = true := by
  induction l generalizing m with
  | nil => exact h
  | cons x xs ih => exact ih _ (hf _ _ h)

theorem wf_wrCells (m : Mem) (cs : List Host.Cell) (h : m.wf = true) : (m.wrCells cs).wf = true :=
  wf_foldl _ _ (fun _ _ hm => wf_wr _ _ _ hm) _ h

theorem wf_filled (b : Byte) : (Mem.filled b).wf = true := rfl

theorem wf_corrected (m : Mem) (w a n : Nat) (h : m.wf = true) : (m.corrected w a n).wf = true := by
  unfold Mem.corrected
  split
  · exact h
  · exact wf_congr rfl rfl h

theorem wf_store (m : Mem) (w a : Nat) (bs : List Byte) (h : m.wf = true) : (m.store w a bs).wf = true := by
  unfold Mem.store
  simp only []
  split
  · exact wf_wrN _ _ _ h
  · exact wf_congr rfl rfl (wf_wrN _ _ _ h)

theorem wf_poison (m : Mem) (w a n : Nat) (h : m.wf = true) : (m.poison w a n).wf = true := wf_congr rfl rfl h

theorem wf_storeCells (m : Mem) (w : Nat) (cs : List Host.Cell) (h : m.wf = true) : (m.storeCells w cs).wf = true :=
  wf_foldl _ _ (fun _ _ hm => wf_store _ _ _ _ hm) _ h

theorem wf_erased (m : Mem) (a n : Nat) (h : m.wf = true) : (m.erased a n).wf = true := by
  unfold Mem.erased
  split
  · simp only [Mem.wf, Bool.and_eq_true, List.all_eq_true] at h ⊢
    exact ⟨cellsRise_filter _ h.1, fun x hx => h.2 x (List.mem_filter.1 hx).1⟩
  · exact wf_wrN _ _ _ h

/-- Bytes written from `a` on: each is read back, and every other address reads as before. -/
theorem rd_wrN (m : Mem) (a : Nat) (bs : List Byte) (h : m.wf = true) (x : Nat) :
    (m.wrN a bs).rd x = if a ≤ x ∧ x < a + bs.length then bs.getD (x - a) 0 else m.rd x := by
  induction bs generalizing m a with
  | nil => simp [Mem.wrN] <;> omega
  | cons b bs ih =>
    rw [Mem.wrN, ih _ _ (wf_wr _ _ _ h), rd_wr _ _ _ h]
    by_cases e : x = a
    · subst e; simp <;> omega
    · by_cases h1 : a + 1 ≤ x ∧ x < a + 1 + bs.length
      · obtain ⟨d, hd⟩ : ∃ d, x - a = d + 1 := ⟨x - a - 1, by omega⟩
        simp only [h1, and_self, if_true, hd, show x - (a + 1) = d by omega]
        simp only [List.length_cons, show a ≤ x ∧ x < a + (bs.length + 1) by omega, and_self, if_true, List.getD_cons_succ]
      · simp only [h1, if_false, e]
        simp only [List.length_cons, show ¬ (a ≤ x ∧ x < a + (bs.length + 1)) by omega, if_false]

/-- A store reads as the bytes written, whatever it does to the ECC state. -/
theorem rd_store (m : Mem) (w a : Nat) (bs : List Byte) (x : Nat) : (m.store w a bs).rd x = (m.wrN a bs).rd x := by
  unfold Mem.store
  simp only []
  split <;> rfl

end Sys2Proof.Laws
end

