-- ==== Sys2Proof/Laws/Canonical.lean ====
section
/-!
SUPPORT. Every memory of the state stays in canonical form under every operation: one lemma for each operation that answers a state.
-/
namespace Sys2Proof.Laws
open Sys2Proof Sys2Proof.Machine

/-- `memsWf` as a proposition. -/
def Ok (s : State) : Prop := s.memsWf = true

def CoreOk (k : Core) : Prop := k.memsWf = true

theorem ok_def (s : State) : Ok s ↔ (∀ k ∈ s.cores, CoreOk k) ∧ s.fst.mem.wf = true ∧ s.drc.mem.wf = true ∧
    s.siu.buf.wf = true ∧ s.mgt.memsWf = true ∧ s.host.wf = true := by
  simp [Ok, State.memsWf, CoreOk, List.all_eq_true, and_assoc]

theorem coreOk_def (k : Core) : CoreOk k ↔ k.asp.wf = true ∧ k.wbf.wf = true ∧ k.wbs.wf = true ∧ k.bst.wf = true := by
  simp [CoreOk, Core.memsWf, and_assoc]

theorem ok_mk (s : State) (clk : Clock) (g : Glb) (time : TimeU) (disp : Disp) (cores : List Core) (rsmp : List Rsmp)
    (kfs : Kfs) (fst : Fst) (d : Drc) (siu : Siu) (hrn : Hrn) (p : Pci) (m : Mgt) (r : Rst) (dru : Dru) (obs : Obs)
    (flt : List FltBlock) (lh lm : List (Nat × Word)) (host : Mem) (fs rs : Nat) (h : Ok s)
    (hc : cores = s.cores) (hf : fst.mem = s.fst.mem) (hd : d.mem = s.drc.mem) (hs : siu.buf = s.siu.buf)
    (hm : m.memsWf = s.mgt.memsWf) (hh : host = s.host) :
    Ok (State.mk s.pending clk g time disp cores rsmp kfs fst d siu hrn p m r dru obs flt s.tap lh lm host fs rs) := by
  rw [ok_def] at h ⊢
  simp only [hc, hf, hd, hs, hm, hh]
  exact h

theorem ok_foldl {α : Type} (l : List α) (f : State → α → State) (s : State) (h : Ok s) (hf : ∀ s x, Ok s → Ok (f s x)) :
    Ok (l.foldl f s) := by
  induction l generalizing s with
  | nil => exact h
  | cons x xs ih => exact ih _ (hf _ _ h)

theorem ok_foldl_fst {α β : Type} (l : List α) (f : State × β → α → State × β) (a : State × β) (h : Ok a.1)
    (hf : ∀ a x, Ok a.1 → Ok (f a x).1) : Ok (l.foldl f a).1 := by
  induction l generalizing a with
  | nil => exact h
  | cons x xs ih => exact ih _ (hf _ _ h)

theorem coreOk_empty : CoreOk {} := rfl

theorem ok_coreAt {s : State} (h : Ok s) (c : Nat) : CoreOk (coreAt s c) := by
  rw [ok_def] at h
  unfold coreAt
  rw [List.getD_eq_getElem?_getD]
  cases hc : s.cores[c]? with
  | none => rfl
  | some k => exact h.1 k (List.mem_of_getElem? hc)

theorem mem_upd {α : Type} (l : List α) (i : Nat) (f : α → α) (x : α) (h : x ∈ upd l i f) : x ∈ l ∨ ∃ y ∈ l, x = f y := by
  unfold upd at h
  induction l generalizing i with
  | nil => cases i <;> simp at h
  | cons a l ih =>
    cases i with
    | zero =>
      simp only [List.modify_zero_cons, List.mem_cons] at h
      rcases h with rfl | h
      · exact .inr ⟨a, by simp, rfl⟩
      · exact .inl (List.mem_cons_of_mem _ h)
    | succ i =>
      simp only [List.modify_succ_cons, List.mem_cons] at h
      rcases h with rfl | h
      · exact .inl (by simp)
      · rcases ih i h with h | ⟨y, hy, rfl⟩
        · exact .inl (List.mem_cons_of_mem _ h)
        · exact .inr ⟨y, List.mem_cons_of_mem _ hy, rfl⟩

theorem ok_cores (s : State) (cores : List Core) (h : Ok s) (hc : ∀ k ∈ cores, CoreOk k) : Ok { s with cores := cores } := by
  rw [ok_def] at h ⊢
  exact ⟨hc, h.2⟩

theorem ok_modCore (s : State) (c : Nat) (f : Core → Core) (h : Ok s) (hf : ∀ k, CoreOk k → CoreOk (f k)) :
    Ok (modCore s c f) := by
  refine ok_cores s _ h fun k hk => ?_
  rcases mem_upd _ _ _ _ hk with hk | ⟨y, hy, rfl⟩
  · exact ((ok_def s).1 h).1 k hk
  · exact hf y (((ok_def s).1 h).1 y hy)

theorem ok_memOf {s : State} (h : Ok s) (m : MemId) : (memOf s m).wf = true := by
  have hc := fun c => (coreOk_def _).1 (ok_coreAt h c)
  have h' := (ok_def s).1 h
  cases m
  · exact (hc _).1
  · exact (hc _).2.1
  · exact (hc _).2.2.1
  · exact (hc _).2.2.2
  · exact h'.2.1
  · exact h'.2.2.1
  · exact h'.2.2.2.1

theorem ok_setMem (m : MemId) (v : Mem) (s : State) (h : Ok s) (hv : v.wf = true) : Ok (setMem m v s) := by
  have h' := (ok_def s).1 h
  cases m
  · exact ok_modCore _ _ _ h fun k hk => by rw [coreOk_def] at hk ⊢; exact ⟨hv, hk.2⟩
  · exact ok_modCore _ _ _ h fun k hk => by rw [coreOk_def] at hk ⊢; exact ⟨hk.1, hv, hk.2.2⟩
  · exact ok_modCore _ _ _ h fun k hk => by rw [coreOk_def] at hk ⊢; exact ⟨hk.1, hk.2.1, hv, hk.2.2.2⟩
  · exact ok_modCore _ _ _ h fun k hk => by rw [coreOk_def] at hk ⊢; exact ⟨hk.1, hk.2.1, hk.2.2.1, hv⟩
  · exact (ok_def _).2 ⟨h'.1, hv, h'.2.2⟩
  · exact (ok_def _).2 ⟨h'.1, h'.2.1, hv, h'.2.2.2⟩
  · exact (ok_def _).2 ⟨h'.1, h'.2.1, h'.2.2.1, hv, h'.2.2.2.2⟩

theorem ok_ite (c : Prop) [Decidable c] (a b : State) : Ok (if c then a else b) = if c then Ok a else Ok b := by
  split <;> rfl

theorem ok_leaf (s : State) (clk : Clock) (g : Glb) (time : TimeU) (disp : Disp) (rsmp : List Rsmp)
    (kfs : Kfs) (hrn : Hrn) (p : Pci) (r : Rst) (dru : Dru) (obs : Obs)
    (flt : List FltBlock) (lh lm : List (Nat × Word)) (fs rs : Nat) (h : Ok s) :
    Ok (State.mk s.pending clk g time disp s.cores rsmp kfs s.fst s.drc s.siu hrn p s.mgt r dru obs flt s.tap lh lm s.host fs rs) :=
  h

theorem coreOk_mk (k : Core) (st : CStat) (sq : Seqr) (vu : Vu) (mx : Mx) (xf : List Xfer) (pend : List PendWr) (h : CoreOk k) :
    CoreOk (Core.mk st sq vu mx xf pend k.asp k.wbf k.wbs k.bst) := h
/-! ### The management subsystem -/

def MgtOk (m : Mgt) : Prop := m.memsWf = true

theorem mgtOk_def (m : Mgt) : MgtOk m ↔ m.buf.wf = true ∧ m.sram.wf = true ∧ m.retained.wf = true ∧ m.flash.wf = true ∧ m.life.wf = true ∧
    m.lifeFlash.wf = true := by
  simp [MgtOk, Mgt.memsWf, and_assoc]

theorem ok_mgt (s : State) (m : Mgt) (h : Ok s) (hm : MgtOk s.mgt → MgtOk m) : Ok { s with mgt := m } := by
  rw [ok_def] at h ⊢
  exact ⟨h.1, h.2.1, h.2.2.1, h.2.2.2.1, hm h.2.2.2.2.1, h.2.2.2.2.2⟩

theorem mgtOk_touched (m : Mgt) (a : Nat) (h : MgtOk m) : MgtOk (m.touched a) := by
  unfold Mgt.touched
  split <;> exact h

theorem mgtOk_erase (m : Mgt) (a : Nat) (h : MgtOk m) : MgtOk (m.eraseSector a) := by
  refine mgtOk_touched _ _ ?_
  rw [mgtOk_def] at h ⊢
  exact ⟨h.1, h.2.1, h.2.2.1, wf_erased _ _ _ h.2.2.2.1, h.2.2.2.2⟩

theorem mgtOk_program (m : Mgt) (a : Nat) (bs : List Byte) (h : MgtOk m) : MgtOk (m.program a bs) := by
  refine mgtOk_touched _ _ ?_
  rw [mgtOk_def] at h ⊢
  exact ⟨h.1, h.2.1, h.2.2.1, wf_wrN _ _ _ h.2.2.2.1, h.2.2.2.2⟩

theorem mgtOk_writeDesc (pref : Nat) (trial : Bool) (m : Mgt) (h : MgtOk m) : MgtOk (writeDesc pref trial m) :=
  mgtOk_program _ _ _ (mgtOk_erase _ _ h)

theorem ok_ite_fst {β : Type} (c : Prop) [Decidable c] (a b : State × β) :
    Ok (if c then a else b).1 = if c then Ok a.1 else Ok b.1 := by
  split <;> rfl

theorem ok_reset : Ok State.reset := by
  refine (ok_def _).2 ⟨fun k hk => ?_, rfl, rfl, rfl, rfl, rfl⟩
  have := List.eq_of_mem_replicate hk
  subst this
  rfl

theorem coreOk_mapIdx {s : State} (h : Ok s) (f : Nat → Core → Core) (hf : ∀ c k, CoreOk k → CoreOk (f c k)) :
    ∀ x ∈ s.cores.mapIdx f, CoreOk x := by
  intro x hx
  obtain ⟨i, hi, rfl⟩ := List.mem_mapIdx.1 hx
  exact hf _ _ (((ok_def s).1 h).1 _ (List.getElem_mem hi))

theorem coreOk_st (k : Core) (st : CStat) (h : CoreOk k) : CoreOk { k with st := st } := h

/-! ### Base -/

theorem ok_modSt (s : State) (c : Nat) (f : CStat → CStat) (h : Ok s) : Ok (modSt s c f) := by
  unfold modSt
  simp +contextual (maxDischargeDepth := 20) only [ok_modCore, implies_true, coreOk_mk, h]

theorem ok_modPort (s : State) (p : Nat) (f : Port → Port) (h : Ok s) : Ok (modPort s p f) := by
  unfold modPort
  simp +contextual (maxDischargeDepth := 20) only [ok_leaf, h]

theorem ok_modPeer (s : State) (d : Nat) (f : Peer → Peer) (h : Ok s) : Ok (modPeer s d f) := by
  unfold modPeer
  simp +contextual (maxDischargeDepth := 20) only [ok_leaf, h]

theorem ok_modDom (s : State) (d : Nat) (f : Dom → Dom) (h : Ok s) : Ok (modDom s d f) := by
  unfold modDom
  simp +contextual (maxDischargeDepth := 20) only [ok_leaf, h]

theorem ok_modSub (s : State) (r : Nat) (f : SubRing → SubRing) (h : Ok s) : Ok (modSub s r f) := by
  unfold modSub
  simp +contextual (maxDischargeDepth := 20) only [ok_leaf, h]

theorem ok_modRsmp (s : State) (u : Nat) (f : Rsmp → Rsmp) (h : Ok s) : Ok (modRsmp s u f) := by
  unfold modRsmp
  simp +contextual (maxDischargeDepth := 20) only [ok_leaf, h]

theorem ok_clockNs (s : State) (n : Nat) (h : Ok s) : Ok (clockNs s n) := by
  unfold clockNs
  simp +contextual (maxDischargeDepth := 20) only [ok_ite, ite_self, ok_leaf, h]

theorem ok_clockToCyc (s : State) (c : Nat) (h : Ok s) : Ok (clockToCyc s c) := by
  unfold clockToCyc
  simp +contextual (maxDischargeDepth := 20) only [ok_clockNs, ok_ite, ite_self, ok_leaf, h]

theorem ok_lifeAdd (off w n : Nat) (s : State) (h : Ok s) : Ok (lifeAdd off w n s) := by
  unfold lifeAdd
  split
  · exact h
  · exact ok_mgt _ _ h fun hm => by
      rw [mgtOk_def] at hm ⊢
      exact ⟨hm.1, hm.2.1, hm.2.2.1, hm.2.2.2.1, wf_wrN _ _ _ hm.2.2.2.2.1, hm.2.2.2.2.2⟩

theorem ok_bumpFree (s : State) (h : Ok s) : Ok (bumpFree s) := by
  unfold bumpFree
  simp +contextual (maxDischargeDepth := 20) only [ok_leaf, h]


/-! ### Fire -/

theorem ok_hostWr (s : State) (a : Nat) (bs : List Byte) (h : Ok s) : Ok (hostWr s a bs) := by
  rw [ok_def] at h ⊢
  exact ⟨h.1, h.2.1, h.2.2.1, h.2.2.2.1, h.2.2.2.2.1, wf_wrN _ _ _ h.2.2.2.2.2⟩

theorem ok_stampVec (v : Nat) (s : State) (h : Ok s) : Ok (stampVec v s) := by
  unfold stampVec
  (repeat' split) <;> first | (simp +contextual (maxDischargeDepth := 20) only [ok_leaf, h]; done) | (refine ok_mk _ _ _ _ _ _ _ _ _ _ _ _ _ _ _ _ _ _ _ _ _ _ _ ?_ rfl rfl rfl rfl rfl rfl; simp +contextual (maxDischargeDepth := 20) only [h]; done) | (simp +contextual (maxDischargeDepth := 20) only [ok_ite, ite_self, ok_foldl, implies_true, ok_leaf, coreOk_mk, h]; refine ok_mk _ _ _ _ _ _ _ _ _ _ _ _ _ _ _ _ _ _ _ _ _ _ _ ?_ rfl rfl rfl rfl rfl rfl; simp +contextual (maxDischargeDepth := 20) only [ok_ite, ite_self, ok_foldl, implies_true, ok_leaf, coreOk_mk, h]; done)

theorem ok_postVec (v : Nat) (s : State) (h : Ok s) : Ok (postVec v s) := by
  unfold postVec
  simp +contextual (maxDischargeDepth := 20) only [ok_hostWr, ok_ite, ite_self, ok_leaf, h]

theorem ok_sendVec (v : Nat) (s : State) (h : Ok s) : Ok (sendVec v s) := by
  unfold sendVec
  simp +contextual (maxDischargeDepth := 20) only [ok_postVec, ok_stampVec, ok_ite, ite_self, h]

theorem ok_flushVecs (s : State) (h : Ok s) : Ok (flushVecs s) := by
  unfold flushVecs
  simp +contextual (maxDischargeDepth := 20) only [ok_sendVec, ok_ite, ite_self, ok_foldl, implies_true, h]

theorem ok_trace (ty src : Nat) (payload : BitVec 64) (s : State) (h : Ok s) : Ok (trace ty src payload s) := by
  unfold trace
  simp +contextual (maxDischargeDepth := 20) only [ok_ite, ite_self, ok_leaf, h]

theorem ok_drainOne (s : State) (h : Ok s) : Ok (drainOne s) := by
  unfold drainOne
  split
  · exact h
  · rw [ok_def] at h ⊢
    exact ⟨h.1, h.2.1, wf_store _ _ _ _ h.2.2.1, h.2.2.2⟩

theorem ok_drainTrace (s : State) (h : Ok s) : Ok (drainTrace s) := by
  unfold drainTrace
  simp +contextual (maxDischargeDepth := 20) only [ok_drainOne, ok_ite, ite_self, ok_foldl, implies_true, h]

theorem ok_traceDom (d : Nat) (s : State) (h : Ok s) : Ok (traceDom d s) := by
  unfold traceDom
  simp +contextual (maxDischargeDepth := 20) only [ok_trace, h]

theorem ok_slot15 (p : Nat) (bodies : List (BitVec 128)) (s : State) (h : Ok s) : Ok (slot15 p bodies s) := by
  unfold slot15
  simp +contextual (maxDischargeDepth := 20) only [ok_modPort, h]

theorem ok_pushSide (body : BitVec 128) (p : Nat) (s : State) (h : Ok s) : Ok (pushSide body p s) := by
  unfold pushSide
  simp +contextual (maxDischargeDepth := 20) only [ok_modPort, ok_slot15, h]

theorem ok_logSide (body : BitVec 128) (s : State) (h : Ok s) : Ok (logSide body s) := by
  unfold logSide
  simp +contextual (maxDischargeDepth := 20) only [ok_ite, ite_self, ok_leaf, h]

theorem ok_sendSide (kind dom gen mask tick : Nat) (s : State) (h : Ok s) : Ok (sendSide kind dom gen mask tick s) := by
  unfold sendSide
  simp +contextual (maxDischargeDepth := 20) only [ok_logSide, ok_modPeer, ok_pushSide, ok_foldl, implies_true, ok_leaf, h]

theorem ok_sendIdents (s : State) (h : Ok s) : Ok (sendIdents s) := by
  unfold sendIdents
  simp +contextual (maxDischargeDepth := 20) only [ok_slot15, ok_foldl, implies_true, h]

theorem ok_addVoid (p k : Nat) (s : State) (h : Ok s) : Ok (addVoid p k s) := by
  unfold addVoid
  simp +contextual (maxDischargeDepth := 20) only [ok_leaf, h]

theorem ok_voidAt (pks : List (Nat × Nat)) (s : State) (h : Ok s) : Ok (voidAt pks s) := by
  unfold voidAt
  simp +contextual (maxDischargeDepth := 20) only [ok_addVoid, ok_sendSide, ok_foldl, implies_true, h]

theorem ok_voidParts (ps : List Nat) (s : State) (h : Ok s) : Ok (voidParts ps s) := by
  unfold voidParts
  simp +contextual (maxDischargeDepth := 20) only [ok_voidAt, ok_ite, ite_self, h]

theorem ok_markVoid (w : Who) (s : State) (h : Ok s) : Ok (markVoid w s) := by
  unfold markVoid
  (repeat' split) <;> simp +contextual (maxDischargeDepth := 20) only [ok_modSt, h]

theorem ok_dueSafe (b src : Nat) (s : State) (h : Ok s) : Ok (dueSafe b src s) := by
  unfold dueSafe
  (repeat' split) <;> simp +contextual (maxDischargeDepth := 20) only [ok_leaf, h]

theorem ok_requestRestart (d : Nat) (s : State) (h : Ok s) : Ok (requestRestart d s) := by
  unfold requestRestart
  simp +contextual (maxDischargeDepth := 20) only [ok_ite, ite_self, ok_leaf, h]

theorem ok_traceFault (f : Fire) (info : SrcInfo) (lvl : Nat) (esc joins : Bool) (s : State) (h : Ok s) : Ok (traceFault f info lvl esc joins s) := by
  unfold traceFault
  simp +contextual (maxDischargeDepth := 20) only [ok_trace, ok_ite, ite_self, ok_leaf, h]

theorem ok_fireMsg (f : Fire) (lvl : Nat) (s : State) (h : Ok s) : Ok (fireMsg f lvl s) := by
  unfold fireMsg
  simp +contextual (maxDischargeDepth := 20) only [ok_postVec, ok_ite, ite_self, ok_leaf, h]

theorem ok_fireEffect (f : Fire) (lvl : Nat) (s : State) (h : Ok s) : Ok (fireEffect f lvl s) := by
  unfold fireEffect
  (repeat' split) <;> simp +contextual (maxDischargeDepth := 20) only [ok_dueSafe, ok_requestRestart, h]

theorem ok_fireOne (s : State) (f : Fire) (h : Ok s) : Ok (fireOne s f) := by
  unfold fireOne
  (repeat' split) <;> simp +contextual (maxDischargeDepth := 20) only [ok_fireEffect, ok_fireMsg, ok_markVoid, ok_traceFault, ok_voidParts, ok_ite, ite_self, ok_leaf, h]

theorem ok_fireAll (fs : List Fire) (s : State) (h : Ok s) : Ok (fireAll fs s) := by
  unfold fireAll
  simp +contextual (maxDischargeDepth := 20) only [ok_fireOne, ok_foldl, implies_true, h]

theorem ok_fire (f : Fire) (s : State) (h : Ok s) : Ok (fire f s) := by
  unfold fire
  simp +contextual (maxDischargeDepth := 20) only [ok_fireAll, h]

theorem ok_onset (f : Fire) (s : State) (h : Ok s) : Ok (onset f s) := by
  unfold onset
  simp +contextual (maxDischargeDepth := 20) only [ok_fire, ok_ite, ite_self, ok_leaf, h]

theorem ok_causeEnds (b src : Nat) (s : State) (h : Ok s) : Ok (causeEnds b src s) := by
  unfold causeEnds
  simp +contextual (maxDischargeDepth := 20) only [ok_leaf, h]

theorem ok_liveWrite (off : Nat) (s : State) (h : Ok s) : Ok (liveWrite off s) := by
  unfold liveWrite
  simp +contextual (maxDischargeDepth := 20) only [ok_fire, h]


/-! ### Rings -/

theorem ok_modRing (r : RingId) (f : Ring → Ring) (s : State) (h : Ok s) : Ok (modRing r f s) := by
  unfold modRing
  (repeat' split) <;> first | exact h | simp +contextual (maxDischargeDepth := 20) only [ok_ite, ite_self, ok_foldl, implies_true, ok_leaf, coreOk_mk, h]

theorem ok_ringVector (r : RingId) (s : State) (h : Ok s) : Ok (ringVector r s) := by
  unfold ringVector
  (repeat' split) <;> simp +contextual (maxDischargeDepth := 20) only [ok_modRing, ok_sendVec, h]

theorem ok_ringWrite (r : RingId) (bs : List Byte) (s : State) (h : Ok s) : Ok (ringWrite r bs s) := by
  unfold ringWrite
  simp +contextual (maxDischargeDepth := 20) only [ok_hostWr, ok_modRing, ok_ringVector, h]

theorem ok_postRec (r : RingId) (bs : List Byte) (s : State) (h : Ok s) : Ok (postRec r bs s) := by
  unfold postRec
  simp +contextual (maxDischargeDepth := 20) only [ok_fire, ok_modRing, ok_ringWrite, ok_ite, ite_self, h]

theorem ok_flushRing (s : State) (r : RingId) (h : Ok s) : Ok (flushRing s r) := by
  unfold flushRing
  simp +contextual (maxDischargeDepth := 20) only [ok_modRing, ok_postRec, ok_foldl, implies_true, h]

theorem ok_requestsFlow (s : State) (h : Ok s) : Ok (requestsFlow s) := by
  unfold requestsFlow
  simp +contextual (maxDischargeDepth := 20) only [ok_flushRing, ok_flushVecs, ok_ite, ite_self, ok_foldl, implies_true, h]

theorem ok_patVec (s : State) (h : Ok s) : Ok (patVec s) := by
  unfold patVec
  simp +contextual (maxDischargeDepth := 20) only [ok_sendVec, ok_ite, ite_self, h]

theorem ok_postCpl (s : State) (r : CplRec) (h : Ok s) : Ok (postCpl s r) := by
  unfold postCpl
  simp +contextual (maxDischargeDepth := 20) only [ok_postRec, h]

theorem ok_postHeld (p : Nat) (s : State) (h : Ok s) : Ok (postHeld p s) := by
  unfold postHeld
  simp +contextual (maxDischargeDepth := 20) only [ok_postCpl, ok_foldl, implies_true, ok_leaf, h]

theorem ok_lifeTick (s : State) (h : Ok s) : Ok (lifeTick s) := by
  unfold lifeTick
  simp +contextual (maxDischargeDepth := 20) only [ok_lifeAdd, h]

theorem ok_postTick (allVoid : Bool) (s : State) (h : Ok s) : Ok (postTick allVoid s) := by
  unfold postTick
  simp +contextual (maxDischargeDepth := 20) only [ok_lifeTick, ok_postRec, ok_leaf, h]


/-! ### Access -/

theorem ok_consumed (agent : Option Nat) (s : State) (h : Ok s) : Ok (consumed agent s) := by
  unfold consumed
  (repeat' split) <;> simp +contextual (maxDischargeDepth := 20) only [ok_modSt, h]

theorem ok_countAccess (m : MemId) (write : Bool) (lc : Bool) (n : Nat) (s : State) (h : Ok s) : Ok (countAccess m write lc n s) := by
  unfold countAccess
  (repeat' split) <;> simp +contextual (maxDischargeDepth := 20) only [ok_leaf, h]

theorem ok_readSpans (m : MemId) (agent : Option Nat) (spans : List (Nat × Nat)) (s : State) (h : Ok s) : Ok (readSpans m agent spans s) := by
  unfold readSpans
  have hw := wf_foldl spans (fun v x => v.corrected m.word x.1 x.2) (fun v x hv => wf_corrected v m.word x.1 x.2 hv) _ (ok_memOf h m)
  have h1 := fun n => ok_setMem m _ _ (ok_countAccess m false (agentLc s agent) n s h) hw
  dsimp only
  split
  · simp only [ok_ite, ok_consumed, ok_fireAll, h1, ite_self]
  · exact ok_countAccess _ _ _ _ _ h

theorem ok_readOne (m : MemId) (agent : Option Nat) (s : State) (x : Nat × Nat) (h : Ok s) : Ok (readOne m agent s x) := by
  exact ok_readSpans _ _ _ _ h

theorem ok_readRun (m : MemId) (agent : Option Nat) (a n : Nat) (s : State) (h : Ok s) : Ok (readRun m agent a n s) := by
  unfold readRun
  simp +contextual (maxDischargeDepth := 20) only [ok_readOne, ok_foldl, implies_true, h]

theorem ok_writeOne (m : MemId) (agent : Option Nat) (bs : List Byte) (a0 : Nat) (s : State) (x : Nat × Nat) (h : Ok s) : Ok (writeOne m agent bs a0 s x) := by
  unfold writeOne
  have h1 := ok_setMem m _ _ (ok_countAccess m true (agentLc s agent) x.2 s h) (wf_store _ m.word x.1 (slice bs (x.1 - a0) x.2) (ok_memOf h m))
  dsimp only
  simp only [ok_ite, ok_fireAll, h1, ite_self]

theorem ok_writeRun (m : MemId) (agent : Option Nat) (a : Nat) (bs : List Byte) (s : State) (h : Ok s) : Ok (writeRun m agent a bs s) := by
  unfold writeRun
  simp +contextual (maxDischargeDepth := 20) only [ok_writeOne, ok_foldl, implies_true, h]

theorem ok_intakeWrite (a : Nat) (bs : List Byte) (s : State) (h : Ok s) : Ok (intakeWrite a bs s) := by
  unfold intakeWrite
  simp +contextual (maxDischargeDepth := 20) only [ok_writeOne, ok_foldl, implies_true, h]

theorem ok_writeData (m : MemId) (agent : Option Nat) (a : Nat) (bs : List Byte) (bad : Bool) (s : State) (h : Ok s) : Ok (writeData m agent a bs bad s) := by
  unfold writeData
  have h1 := ok_writeRun m agent a bs s h
  dsimp only
  split
  · exact ok_setMem _ _ _ h1 (wf_poison _ _ _ _ (ok_memOf h1 m))
  · exact h1

theorem ok_writeCells (mem : Nat → MemId) (agent : Option Nat) (cells : List Host.Cell) (marks : List Bool) (s : State) (h : Ok s) : Ok (writeCells mem agent cells marks s) := by
  unfold writeCells
  exact ok_foldl _ _ _ (ok_foldl _ _ _ h fun s r hs => ok_writeRun _ _ _ _ _ hs) fun s a hs => ok_setMem _ _ _ hs (wf_poison _ _ _ _ (ok_memOf hs _))

theorem ok_landWr (c : Nat) (s : State) (w : PendWr) (h : Ok s) : Ok (landWr c s w) := by
  unfold landWr
  simp +contextual (maxDischargeDepth := 20) only [ok_writeCells, h]


/-! ### SamplerUnit -/

theorem ok_sampleReads (agent : Option Nat) (t : Src) (cb : Nat) (q : Int × Int) (s : State) (h : Ok s) :
    Ok (sampleReads agent t cb q s).1 := by
  unfold sampleReads
  exact ok_foldl_fst _ _ (s, false) h (fun a x ha => ok_readRun _ _ _ _ _ ha)

theorem ok_sampleWrite (r : SReq) (q : Req) (a : Nat) (bytes : List Byte) (bad : Bool) (s : State) (h : Ok s) : Ok (sampleWrite r q a bytes bad s) := by
  unfold sampleWrite
  simp +contextual (maxDischargeDepth := 20) only [ok_modCore, ok_writeData, ok_ite, ite_self, implies_true, coreOk_mk, h]

theorem ok_samplePosition (u : Nat) (sr : State × SReq) (g : Nat) (h : Ok sr.1) : Ok (samplePosition u sr g).1 := by
  obtain ⟨s, r⟩ := sr
  have hs : ∀ s2 e i k, Ok s2 → Ok (match r.source (reqOf r.req) e with
      | some t => if insideSrc t ((reqOf r.req).position e i) then sampleReads (r.agent s) t ((reqOf r.req).cbFirst + k) ((reqOf r.req).position e i) s2 else (s2, false)
      | none => (s2, false)).1 := by
    intro s2 e i k h
    split
    · split
      · exact ok_sampleReads _ _ _ _ _ h
      · exact h
    · exact h
  dsimp only at h
  have key : ∀ (c : Prop) [Decidable c] (a b : State), Ok a → Ok b → Ok (if c then a else b) := by
    intro c _ a b ha hb
    split <;> assumption
  unfold samplePosition
  dsimp only
  refine key _ _ _ (ok_writeRun _ _ _ _ _ (ok_sampleWrite _ _ _ _ _ _ (hs _ _ _ _ ?_))) (ok_sampleWrite _ _ _ _ _ _ (hs _ _ _ _ ?_))
  all_goals
    refine key _ _ _ (ok_fire _ _ ?_) ?_
  all_goals
    exact key _ _ _ (ok_readRun _ _ _ _ _ h) h

theorem ok_samplePositions (u upTo : Nat) (s : State) (r : SReq) (h : Ok s) : Ok (samplePositions u upTo s r).1 := by
  unfold samplePositions
  exact ok_foldl_fst _ _ (s, r) h (fun a x ha => ok_samplePosition _ _ _ ha)

theorem ok_samplerAdvance (u t : Nat) (s : State) (h : Ok s) : Ok (samplerAdvance u t s) := by
  unfold samplerAdvance
  split
  · exact h
  · exact ok_modRsmp _ _ _ (ok_samplePositions _ _ _ _ h)

theorem ok_samplerStop (c run t : Nat) (s : State) (h : Ok s) : Ok (samplerStop c run t s) := by
  unfold samplerStop
  refine ok_foldl _ _ s h (fun s u h => ?_)
  refine ok_modRsmp _ _ _ ?_
  dsimp only
  split
  · simp only [ok_ite, ok_modRsmp, ok_samplerAdvance, h, ite_self]
  · exact h


/-! ### Messages -/

theorem ok_countTx (p : Nat) (s : State) (h : Ok s) : Ok (countTx p s) := by
  unfold countTx
  simp +contextual (maxDischargeDepth := 20) only [ok_leaf, h]

theorem ok_retrain (p : Nat) (s : State) (h : Ok s) : Ok (retrain p s) := by
  unfold retrain
  simp +contextual (maxDischargeDepth := 20) only [ok_modPort, h]

theorem ok_freeHolds (s : State) (h : Ok s) : Ok (freeHolds s) := by
  unfold freeHolds
  simp +contextual (maxDischargeDepth := 20) only [ok_modPort, ok_foldl, implies_true, ok_leaf, h]

theorem ok_sendFlit (p vc at_ : Nat) (s : State) (h : Ok s) : Ok (sendFlit p vc at_ s) := by
  unfold sendFlit
  simp +contextual (maxDischargeDepth := 20) only [ok_countTx, ok_freeHolds, ok_modPort, h]

theorem ok_resendFlit (p at_ : Nat) (s : State) (h : Ok s) : Ok (resendFlit p at_ s) := by
  unfold resendFlit
  (repeat' split) <;> simp +contextual (maxDischargeDepth := 20) only [ok_countTx, ok_fire, ok_lifeAdd, ok_modPort, ok_retrain, ok_ite, ite_self, h]

theorem ok_sendSets (p n : Nat) (s : State) (h : Ok s) : Ok (sendSets p n s) := by
  unfold sendSets
  simp +contextual (maxDischargeDepth := 20) only [ok_modPort, h]

theorem ok_fillSlot (p n : Nat) (s : State) (h : Ok s) : Ok (fillSlot p n s) := by
  unfold fillSlot
  simp +contextual (maxDischargeDepth := 20) only [ok_sendSets, ok_ite, h]
  (repeat' split) <;> first | (simp +contextual (maxDischargeDepth := 20) only [ok_resendFlit, ok_sendFlit, h]; done) | (refine ok_mk _ _ _ _ _ _ _ _ _ _ _ _ _ _ _ _ _ _ _ _ _ _ _ ?_ rfl rfl rfl rfl rfl rfl; simp +contextual (maxDischargeDepth := 20) only [ok_resendFlit, ok_sendFlit, ok_sendSets, ok_ite, ite_self, ok_foldl, implies_true, ok_leaf, coreOk_mk, h]; done) | (simp +contextual (maxDischargeDepth := 20) only [ok_resendFlit, ok_sendFlit, ok_sendSets, ok_ite, ite_self, ok_foldl, implies_true, ok_leaf, coreOk_mk, h]; refine ok_mk _ _ _ _ _ _ _ _ _ _ _ _ _ _ _ _ _ _ _ _ _ _ _ ?_ rfl rfl rfl rfl rfl rfl; simp +contextual (maxDischargeDepth := 20) only [ok_resendFlit, ok_sendFlit, ok_sendSets, ok_ite, ite_self, ok_foldl, implies_true, ok_leaf, coreOk_mk, h]; done)

theorem ok_runSlots (p n : Nat) (s : State) (h : Ok s) : Ok (runSlots p n s) := by
  induction n generalizing s with
  | zero => exact h
  | succ n ih =>
    unfold runSlots
    dsimp only
    split
    · exact ok_modPort _ _ _ h
    · split
      · exact ok_modPort _ _ _ h
      · split
        · exact h
        · refine ih _ (ok_modPort _ _ _ (ok_fillSlot _ _ _ ?_))
          split
          · exact ok_modPort _ _ _ h
          · exact h

theorem ok_portsRun (s : State) (h : Ok s) : Ok (portsRun s) := by
  unfold portsRun
  exact ok_foldl _ _ _ h fun s p hs => ok_runSlots _ _ _ hs

theorem ok_putMsg (p : Nat) (be fwd : Bool) (bs : List Byte) (s : State) (h : Ok s) : Ok (putMsg p be fwd bs s) := by
  unfold putMsg
  simp +contextual (maxDischargeDepth := 20) only [ok_modPort, h]

theorem ok_sendMsg (m : Msg) (data : List Byte) (inPort : Option Nat) (who : Who) (s : State) (h : Ok s) : Ok (sendMsg m data inPort who s).1 := by
  unfold sendMsg
  simp only [ok_ite_fst, ok_putMsg, ok_fire, h, ite_self]

theorem ok_remoteErr (c : Nat) (s : State) (h : Ok s) : Ok (remoteErr c s) := by
  unfold remoteErr
  simp +contextual (maxDischargeDepth := 20) only [ok_consumed, ok_fire, h]

theorem ok_modXfers (c : Nat) (f : List Xfer → List Xfer) (s : State) (h : Ok s) : Ok (modXfers c f s) := by
  unfold modXfers
  simp +contextual (maxDischargeDepth := 20) only [ok_modCore, implies_true, coreOk_mk, h]

theorem ok_modXfer (c : Nat) (store : Bool) (seq : Nat) (f : Xfer → Xfer) (s : State) (h : Ok s) : Ok (modXfer c store seq f s) := by
  unfold modXfer
  simp +contextual (maxDischargeDepth := 20) only [ok_modXfers, h]

theorem ok_sendRequest (c : Nat) (r : Run) (x : Xfer) (g : Msgs) (m : MsgOut) (s : State) (h : Ok s) : Ok (sendRequest c r x g m s) := by
  unfold sendRequest
  simp only []
  generalize hq : (if peerFenced s g.dev = true then (s, false) else sendMsg _ _ none _ s) = q
  have h1 : Ok q.1 := by
    rw [← hq, ok_ite_fst]
    simp only [ok_sendMsg, h, ite_self]
  obtain ⟨s2, sent⟩ := q
  simp only [] at h1 ⊢
  split
  · exact ok_modXfer _ _ _ _ _ (ok_modPeer _ _ _ h1)
  · exact ok_modXfer _ _ _ _ _ (ok_remoteErr _ _ h1)

theorem ok_sendMsgs (c : Nat) (store : Bool) (seq n : Nat) (s : State) (h : Ok s) : Ok (sendMsgs c store seq n s) := by
  induction n generalizing s with
  | zero => exact h
  | succ n ih =>
    unfold sendMsgs
    split
    · split
      · split
        · exact ok_modXfer _ _ _ _ _ h
        · dsimp only
          split
          · exact ih _ (ok_sendRequest _ _ _ _ _ _ (ok_modXfer _ _ _ _ _ h))
          · exact h
      · exact h
    · exact h

theorem ok_pumpXfers (c : Nat) (store : Bool) (s : State) (h : Ok s) : Ok (pumpXfers c store s) := by
  unfold pumpXfers
  split
  · exact ok_sendMsgs _ _ _ _ _ h
  · exact h


/-! ### KeyedUnit -/

theorem ok_dirPut (set : Nat) (ws : List (Nat × Nat)) (s : State) (h : Ok s) : Ok (dirPut set ws s) := by
  unfold dirPut
  simp +contextual (maxDischargeDepth := 20) only [ok_leaf, h]

theorem ok_dirRead (agent : Option Nat) (set : Nat) (s : State) (h : Ok s) : Ok (dirRead agent set s) := by
  unfold dirRead
  simp +contextual (maxDischargeDepth := 20) only [ok_dirPut, ok_fireAll, ok_ite, ite_self, ok_leaf, h]

theorem ok_keyLookup (agent : Option Nat) (k : Key) (s : State) (h : Ok s) : Ok (keyLookup agent k s).1 := by
  unfold keyLookup
  simp only []
  split
  · exact ok_dirRead _ _ _ h
  · simp (maxDischargeDepth := 20) only [ok_ite_fst, ok_fire, ok_readRun, ok_dirRead, ite_self, h]

theorem ok_keyWrite (agent : Option Nat) (k : Key) (payload : List Byte) (marks : List Bool) (s : State) (h : Ok s) : Ok (keyWrite agent k payload marks s) := by
  unfold keyWrite
  simp +contextual (maxDischargeDepth := 20) only [ok_dirPut, ok_dirRead, ok_fire, ok_writeCells, ok_ite, ite_self, h]

theorem ok_priorTouch (hh : Hit) (s : State) (h : Ok s) : Ok (priorTouch hh s) := by
  exact ok_dirPut _ _ _ h

theorem ok_keyReads (agent : Option Nat) (d : Keyed) (n : Nat) (s : State) (h : Ok s) : Ok (keyReads agent d n s) := by
  unfold keyReads
  simp +contextual (maxDischargeDepth := 20) only [ok_readRun, ok_ite, ite_self, h]

theorem ok_mapBit (agent : Option Nat) (a n : Nat) (v : Bool) (s : State) (h : Ok s) : Ok (mapBit agent a n v s) := by
  unfold mapBit
  simp +contextual (maxDischargeDepth := 20) only [ok_writeRun, h]

theorem ok_gatherKey (r : KReq) (d : Keyed) (n : Nat) (s : State) (h : Ok s) : Ok (gatherKey r d n s) := by
  have h : Ok (if (r.key s d n).2 = true then (keyReads (r.agent s) d n s, none) else keyLookup (r.agent s) (r.key s d n).1 (keyReads (r.agent s) d n s)).1 := by
    split
    · exact ok_keyReads _ _ _ _ h
    · exact ok_keyLookup _ _ _ (ok_keyReads _ _ _ _ h)
  unfold gatherKey
  simp only []
  generalize (if (r.key s d n).2 = true then (keyReads (r.agent s) d n s, none) else keyLookup (r.agent s) (r.key s d n).1 (keyReads (r.agent s) d n s)) = p at h ⊢
  obtain ⟨s2, hit⟩ := p
  simp only [] at h ⊢
  split <;> simp +contextual (maxDischargeDepth := 20) only [ok_ite, ok_priorTouch, ok_writeRun, ok_mapBit, ok_foldl, ok_writeData, implies_true, ite_self, h]

theorem ok_scatterKey (r : KReq) (d : Keyed) (n : Nat) (s : State) (h : Ok s) : Ok (scatterKey r d n s) := by
  unfold scatterKey
  simp +contextual (maxDischargeDepth := 20) only [ok_keyReads, ok_keyWrite, ok_readRun, ok_ite, ite_self, ok_foldl, implies_true, h]

theorem ok_keyStep (s : State) (r : KReq) (n : Nat) (h : Ok s) : Ok (keyStep s r n) := by
  unfold keyStep
  simp +contextual (maxDischargeDepth := 20) only [ok_gatherKey, ok_scatterKey, ok_ite, ite_self, h]

theorem ok_keyedAdvance (t : Nat) (s : State) (h : Ok s) : Ok (keyedAdvance t s) := by
  unfold keyedAdvance
  (repeat' split) <;> simp +contextual (maxDischargeDepth := 20) only [ok_keyStep, ok_ite, ite_self, ok_foldl, implies_true, ok_leaf, h]

theorem ok_forgetGather (r : KReq) (s : State) (h : Ok s) : Ok (forgetGather r s) := by
  unfold forgetGather
  simp +contextual (maxDischargeDepth := 20) only [ok_bumpFree, ok_writeRun, ok_ite, ite_self, h]

theorem ok_keyedStop (c run t : Nat) (s : State) (h : Ok s) : Ok (keyedStop c run t s) := by
  unfold keyedStop
  simp +contextual (maxDischargeDepth := 20) only []
  (repeat' split) <;> first | (simp +contextual (maxDischargeDepth := 20) only [ok_forgetGather, ok_keyedAdvance, ok_foldl, implies_true, ok_leaf, h]; done) | (refine ok_mk _ _ _ _ _ _ _ _ _ _ _ _ _ _ _ _ _ _ _ _ _ _ _ ?_ rfl rfl rfl rfl rfl rfl; simp +contextual (maxDischargeDepth := 20) only [ok_forgetGather, ok_keyedAdvance, ok_ite, ite_self, ok_foldl, implies_true, ok_leaf, coreOk_mk, h]; done) | (simp +contextual (maxDischargeDepth := 20) only [ok_forgetGather, ok_keyedAdvance, ok_ite, ite_self, ok_foldl, implies_true, ok_leaf, coreOk_mk, h]; refine ok_mk _ _ _ _ _ _ _ _ _ _ _ _ _ _ _ _ _ _ _ _ _ _ _ ?_ rfl rfl rfl rfl rfl rfl; simp +contextual (maxDischargeDepth := 20) only [ok_forgetGather, ok_keyedAdvance, ok_ite, ite_self, ok_foldl, implies_true, ok_leaf, coreOk_mk, h]; done)


/-! ### Insertion -/

theorem ok_insertCell (t : Tile) (s : State) (rc : Nat × Nat) (h : Ok s) : Ok (insertCell t s rc) := by
  unfold insertCell
  simp +contextual (maxDischargeDepth := 20) only [ok_keyWrite, h]

theorem ok_insertNext (c : Nat) (s : State) (h : Ok s) : Ok (insertNext c s) := by
  unfold insertNext
  split
  · split
    · exact h
    · exact ok_insertCell _ _ _ ((ok_def _).2 ((ok_def s).1 h))
  · exact h


/-! ### Engines -/

theorem ok_landDue (t : Nat) (s : State) (c : Nat) (h : Ok s) : Ok (landDue t s c) := by
  unfold landDue
  simp +contextual (maxDischargeDepth := 20) only [ok_landWr, ok_modCore, ok_foldl, implies_true, coreOk_mk, h]

theorem ok_spansDue (t : Nat) (s : State) (c : Nat) (h : Ok s) : Ok (spansDue t s c) := by
  unfold spansDue
  simp +contextual (maxDischargeDepth := 20) only [ok_fire, ok_modCore, ok_foldl, implies_true, coreOk_mk, h]

theorem ok_pumpAll (s : State) (h : Ok s) : Ok (pumpAll s) := by
  unfold pumpAll
  simp +contextual (maxDischargeDepth := 20) only [ok_pumpXfers, ok_foldl, implies_true, h]

theorem ok_happen (c : Nat) (s0 : State) (h : Ok s0) : Ok (happen c s0) := by
  unfold happen
  simp +contextual (maxDischargeDepth := 20) only [ok_insertNext, ok_keyedAdvance, ok_landDue, ok_portsRun, ok_pumpAll, ok_samplerAdvance, ok_spansDue, ok_foldl, implies_true, h]

theorem ok_engines (lim n : Nat) (s : State) (h : Ok s) : Ok (engines lim n s) := by
  induction n generalizing s with
  | zero => exact h
  | succ n ih =>
    unfold engines
    split
    · exact h
    · dsimp only
      split
      · exact ih _ (ok_happen _ _ (ok_clockToCyc _ _ h))
      · exact h

theorem ok_runUnits (lim : Nat) (s : State) (h : Ok s) : Ok (runUnits lim s) := by
  unfold runUnits
  simp +contextual (maxDischargeDepth := 20) only [ok_drainTrace, ok_engines, h]

theorem ok_passNs (s : State) (n : Nat) (h : Ok s) : Ok (passNs s n) := by
  unfold passNs
  simp +contextual (maxDischargeDepth := 20) only [ok_clockNs, ok_portsRun, ok_runUnits, ok_ite, ite_self, h]

theorem ok_passToCyc (s : State) (c : Nat) (h : Ok s) : Ok (passToCyc s c) := by
  unfold passToCyc
  simp +contextual (maxDischargeDepth := 20) only [ok_clockToCyc, ok_portsRun, ok_runUnits, ok_ite, ite_self, h]

theorem ok_passToGtc (s : State) (g : Gtc) (h : Ok s) : Ok (passToGtc s g) := by
  unfold passToGtc
  simp +contextual (maxDischargeDepth := 20) only [ok_passNs, h]

theorem ok_passToOff (s : State) (o : Nat) (h : Ok s) : Ok (passToOff s o) := by
  unfold passToOff
  simp +contextual (maxDischargeDepth := 20) only [ok_passToGtc, h]


/-! ### Upsets -/

theorem ok_strikeWord (m : EccMem) (k : Nat) (double : Bool) (s : State) (h : Ok s) : Ok (strikeWord m k double s) := by
  unfold strikeWord
  split
  · exact ok_setMem _ _ _ h (wf_congr rfl rfl (ok_memOf h _))
  · split
    · exact h
    · exact ok_mgt _ _ h fun hm => by
        rw [mgtOk_def] at hm ⊢
        exact ⟨hm.1, wf_congr rfl rfl hm.2.1, hm.2.2⟩

theorem ok_strike (s : State) (x : Strike) (h : Ok s) : Ok (strike s x) := by
  unfold strike
  (repeat' split) <;> first | exact h | simp +contextual (maxDischargeDepth := 20) only [ok_fire, ok_strikeWord, h]

theorem ok_strikes (up : List Strike) (s : State) (h : Ok s) : Ok (strikes up s) := by
  unfold strikes
  simp +contextual (maxDischargeDepth := 20) only [ok_strike, ok_foldl, implies_true, h]


/-! ### Flash -/

theorem ok_lifeWrite (s : State) (h : Ok s) : Ok (lifeWrite s) := by
  unfold lifeWrite
  split
  · exact h
  split
  · exact ok_fire _ _ h
  · exact ok_mgt _ _ h fun hm => by
      have h1 := (mgtOk_def _).1 (mgtOk_program _ (lifeCopy (s.mgt.lifeSeq + 1)) (lifeBytes s (s.mgt.lifeSeq + 1)) (mgtOk_erase _ (lifeCopy (s.mgt.lifeSeq + 1)) hm))
      have h2 := (mgtOk_def _).1 hm
      exact (mgtOk_def _).2 ⟨h1.1, h1.2.1, h1.2.2.1, h1.2.2.2.1, h1.2.2.2.2.1, h2.2.2.2.2.1⟩


/-! ### Ops -/

theorem ok_logSkip (c slot reason bundle : Nat) (s : State) (h : Ok s) : Ok (logSkip c slot reason bundle s) := by
  unfold logSkip
  simp +contextual (maxDischargeDepth := 20) only [ok_fire, ok_modSt, h]

theorem ok_signalToken (c slot bundle t : Nat) (s : State) (h : Ok s) : Ok (signalToken c slot bundle t s) := by
  unfold signalToken
  simp +contextual (maxDischargeDepth := 20) only [ok_logSkip, ok_modSt, ok_ite, ite_self, h]

theorem ok_setSem (i v : Nat) (s : State) (h : Ok s) : Ok (setSem i v s) := by
  unfold setSem
  simp +contextual (maxDischargeDepth := 20) only [ok_leaf, h]

theorem ok_semGive (q : SemReq) (s : State) (h : Ok s) : Ok (semGive q s) := by
  unfold semGive
  simp +contextual (maxDischargeDepth := 20) only [ok_modCore, ok_setSem, implies_true, ok_leaf, coreOk_mk, h]

theorem ok_semGrantOne (i : Nat) (s : State) (h : Ok s) : Ok (semGrantOne i s) := by
  unfold semGrantOne
  (repeat' split) <;> simp +contextual (maxDischargeDepth := 20) only [ok_passToCyc, ok_semGive, h]

theorem ok_semGrantDue (i : Nat) (s : State) (h : Ok s) : Ok (semGrantDue i s) := by
  unfold semGrantDue
  (repeat' split) <;> simp +contextual (maxDischargeDepth := 20) only [ok_semGive, h]

theorem ok_semGrants (i : Nat) (s : State) (h : Ok s) : Ok (semGrants i s) := by
  unfold semGrants
  simp +contextual (maxDischargeDepth := 20) only [ok_semGrantDue, ok_foldl, implies_true, h]

theorem ok_semReturn (i n : Nat) (s : State) (h : Ok s) : Ok (semReturn i n s) := by
  unfold semReturn
  simp +contextual (maxDischargeDepth := 20) only [ok_semGrants, ok_setSem, h]

theorem ok_dropSems (c : Nat) (s : State) (h : Ok s) : Ok (dropSems c s) := by
  unfold dropSems
  simp +contextual (maxDischargeDepth := 20) only [ok_modSt, ok_semReturn, ok_foldl, implies_true, ok_leaf, h]

theorem ok_traceEnd (c status reason cycles : Nat) (s : State) (h : Ok s) : Ok (traceEnd c status reason cycles s) := by
  unfold traceEnd
  simp +contextual (maxDischargeDepth := 20) only [ok_trace, h]

theorem ok_countRun (c kind n : Nat) (s : State) (h : Ok s) : Ok (countRun c kind n s) := by
  unfold countRun
  simp +contextual (maxDischargeDepth := 20) only [ok_modSt, h]

theorem ok_countStall (c t : Nat) (s : State) (h : Ok s) : Ok (countStall c t s) := by
  unfold countStall
  (repeat' split) <;> simp +contextual (maxDischargeDepth := 20) only [ok_countRun, ok_modCore, implies_true, coreOk_mk, h]

theorem ok_dropRemote (c run : Nat) (s : State) (h : Ok s) : Ok (dropRemote c run s) := by
  unfold dropRemote
  simp +contextual (maxDischargeDepth := 20) only [ok_leaf, h]

theorem ok_leaveCore (c idleAt : Nat) (s : State) (h : Ok s) : Ok (leaveCore c idleAt s) := by
  unfold leaveCore
  exact ok_dropSems _ _ (ok_modCore _ _ _ (ok_countStall _ _ _ h) fun k hk => hk)

theorem ok_abortRun (c : Nat) (r : Run) (reason : Nat) (s : State) (h : Ok s) : Ok (abortRun c r reason s) := by
  unfold abortRun
  simp +contextual (maxDischargeDepth := 20) only [ok_countRun, ok_dropRemote, ok_keyedStop, ok_leaveCore, ok_samplerStop, ok_traceEnd, h]

theorem ok_modJob (stage job : Nat) (f : LcJob → LcJob) (s : State) (h : Ok s) : Ok (modJob stage job f s) := by
  unfold modJob
  simp +contextual (maxDischargeDepth := 20) only [ok_leaf, h]

theorem ok_modCmd (stage job idx : Nat) (f : LcCmd → LcCmd) (s : State) (h : Ok s) : Ok (modCmd stage job idx f s) := by
  unfold modCmd
  simp +contextual (maxDischargeDepth := 20) only [ok_modJob, h]

theorem ok_jobsEnded (stage p : Nat) (s : State) (h : Ok s) : Ok (jobsEnded stage p s) := by
  unfold jobsEnded
  simp +contextual (maxDischargeDepth := 20) only [ok_fire, ok_ite, ite_self, ok_leaf, h]

theorem ok_lcOver (stage job idx status cycles : Nat) (s : State) (h : Ok s) : Ok (lcOver stage job idx status cycles s) := by
  unfold lcOver
  (repeat' split) <;> simp +contextual (maxDischargeDepth := 20) only [ok_jobsEnded, ok_modCmd, ok_modSt, ok_leaf, h]

theorem ok_modBe (r : Nat) (f : BeJob → BeJob) (s : State) (h : Ok s) : Ok (modBe r f s) := by
  unfold modBe
  simp +contextual (maxDischargeDepth := 20) only [ok_modSub, h]

theorem ok_pickTurn (p slice fuel last : Nat) (s : State) (h : Ok s) : Ok (pickTurn p slice fuel last s).1 := by
  induction fuel generalizing last s with
  | zero => exact h
  | succ n ih =>
    unfold pickTurn
    split
    · exact h
    · simp only [ok_ite_fst, ih, ok_modBe, h, ite_self]

theorem ok_beginTurn (p : Nat) (s : State) (h : Ok s) : Ok (beginTurn p s) := by
  unfold beginTurn
  simp only []
  replace h := ok_pickTurn p s.disp.slice.1 (8 + sumN (s.disp.subs.map fun k => ((k.job.map BeJob.debt).getD 0) / (s.disp.slice.1 + 1) * 8 + 8))
    (s.disp.lastRing.getD p 7) s h
  generalize pickTurn p s.disp.slice.1 _ _ s = q at h ⊢
  obtain ⟨s1, pick⟩ := q
  simp only [] at h ⊢
  split
  · exact h
  · exact ok_leaf _ _ _ _ _ _ _ _ _ _ _ _ _ _ _ _ _ (ok_modBe _ _ _ h)

theorem ok_startTurns (s : State) (h : Ok s) : Ok (startTurns s) := by
  unfold startTurns
  simp +contextual (maxDischargeDepth := 20) only [ok_beginTurn, ok_ite, ite_self, ok_foldl, implies_true, h]

theorem ok_beJobEnd (r : Nat) (seq : Word) (status : Nat) (s : State) (h : Ok s) : Ok (beJobEnd r seq status s) := by
  unfold beJobEnd
  simp +contextual (maxDischargeDepth := 20) only []
  (repeat' split) <;> first | (simp +contextual (maxDischargeDepth := 20) only [ok_beginTurn, ok_modSub, h]; done) | (refine ok_mk _ _ _ _ _ _ _ _ _ _ _ _ _ _ _ _ _ _ _ _ _ _ _ ?_ rfl rfl rfl rfl rfl rfl; simp +contextual (maxDischargeDepth := 20) only [ok_beginTurn, ok_modSub, ok_ite, ite_self, ok_foldl, implies_true, ok_leaf, coreOk_mk, h]; done) | (simp +contextual (maxDischargeDepth := 20) only [ok_beginTurn, ok_modSub, ok_ite, ite_self, ok_foldl, implies_true, ok_leaf, coreOk_mk, h]; refine ok_mk _ _ _ _ _ _ _ _ _ _ _ _ _ _ _ _ _ _ _ _ _ _ _ ?_ rfl rfl rfl rfl rfl rfl; simp +contextual (maxDischargeDepth := 20) only [ok_beginTurn, ok_modSub, ok_ite, ite_self, ok_foldl, implies_true, ok_leaf, coreOk_mk, h]; done)

theorem ok_beOver (r idx core status cycles : Nat) (s : State) (h : Ok s) : Ok (beOver r idx core status cycles s) := by
  unfold beOver
  (repeat' split) <;> simp +contextual (maxDischargeDepth := 20) only [ok_beJobEnd, ok_modSt, ok_modSub, ok_postCpl, ok_ite, ite_self, h]

theorem ok_beAborted (r idx : Nat) (s : State) (h : Ok s) : Ok (beAborted r idx s) := by
  unfold beAborted
  (repeat' split) <;> simp +contextual (maxDischargeDepth := 20) only [ok_fire, ok_modSub, ok_ite, ite_self, h]

theorem ok_runOver (c : Nat) (r : Run) (status cycles : Nat) (s : State) (h : Ok s) : Ok (runOver c r status cycles s) := by
  unfold runOver
  simp +contextual (maxDischargeDepth := 20) only [ok_beOver, ok_lcOver, ok_ite, ite_self, h]

theorem ok_endRun (c : Nat) (status reason : Nat) (s : State) (h : Ok s) : Ok (endRun c status reason s) := by
  unfold endRun
  (repeat' split) <;> simp +contextual (maxDischargeDepth := 20) only [ok_abortRun, ok_runOver, h]

theorem ok_countTransient (c unit : Nat) (inj : Bool) (s : State) (h : Ok s) : Ok (countTransient c unit inj s) := by
  unfold countTransient
  simp +contextual (maxDischargeDepth := 20) only []
  (repeat' split) <;> first | (simp +contextual (maxDischargeDepth := 20) only [ok_fire, ok_modSt, ok_leaf, h]; done) | (refine ok_mk _ _ _ _ _ _ _ _ _ _ _ _ _ _ _ _ _ _ _ _ _ _ _ ?_ rfl rfl rfl rfl rfl rfl; simp +contextual (maxDischargeDepth := 20) only [ok_fire, ok_modSt, ok_ite, ite_self, ok_foldl, implies_true, ok_leaf, coreOk_mk, h]; done) | (simp +contextual (maxDischargeDepth := 20) only [ok_fire, ok_modSt, ok_ite, ite_self, ok_foldl, implies_true, ok_leaf, coreOk_mk, h]; refine ok_mk _ _ _ _ _ _ _ _ _ _ _ _ _ _ _ _ _ _ _ _ _ _ _ ?_ rfl rfl rfl rfl rfl rfl; simp +contextual (maxDischargeDepth := 20) only [ok_fire, ok_modSt, ok_ite, ite_self, ok_foldl, implies_true, ok_leaf, coreOk_mk, h]; done)

theorem ok_replayClean (c : Nat) (ev : DisEvent) (s : State) (h : Ok s) : Ok (replayClean c ev s) := by
  unfold replayClean
  simp +contextual (maxDischargeDepth := 20) only [ok_countTransient, ok_fire, h]

theorem ok_persist (c : Nat) (ev : DisEvent) (lc : Bool) (part : Nat) (s : State) (h : Ok s) : Ok (persist c ev lc part s) := by
  unfold persist
  simp +contextual (maxDischargeDepth := 20) only [ok_fire, ok_voidParts, ok_ite, ite_self, h]

theorem ok_lifeDisagree (c : Nat) (det : Word) (s : State) (h : Ok s) : Ok (lifeDisagree c det s) := by
  unfold lifeDisagree
  simp +contextual (maxDischargeDepth := 20) only [ok_lifeAdd, h]

theorem ok_disagree (c : Nat) (ev : DisEvent) (s : State) (h : Ok s) : Ok (disagree c ev s) := by
  unfold disagree
  (repeat' split) <;> simp +contextual (maxDischargeDepth := 20) only [ok_abortRun, ok_beAborted, ok_lifeDisagree, ok_modBe, ok_modCmd, ok_persist, ok_runOver, ok_ite, ite_self, ok_foldl, implies_true, h]

theorem ok_discardSkips (c : Nat) (r : Run) (s : State) (h : Ok s) : Ok (discardSkips c r s) := by
  unfold discardSkips
  simp +contextual (maxDischargeDepth := 20) only [ok_logSkip, ok_foldl, implies_true, h]

theorem ok_finishRun (c extra : Nat) (s : State) (h : Ok s) : Ok (finishRun c extra s) := by
  unfold finishRun
  (repeat' split) <;> simp +contextual (maxDischargeDepth := 20) only [ok_countRun, ok_discardSkips, ok_leaveCore, ok_replayClean, ok_runOver, ok_traceEnd, ok_ite, ite_self, h]

theorem ok_stopSwatch (c : Nat) (s : State) (h : Ok s) : Ok (stopSwatch c s) := by
  unfold stopSwatch
  (repeat' split) <;> simp +contextual (maxDischargeDepth := 20) only [ok_countRun, ok_modSt, h]

theorem ok_abandonIntake (s : State) (h : Ok s) : Ok (abandonIntake s) := by
  unfold abandonIntake
  exact h

theorem ok_markFence (d : Nat) (cs : List Nat) (s : State) (h : Ok s) : Ok (markFence d cs s) := by
  unfold markFence
  simp +contextual (maxDischargeDepth := 20) only [ok_leaf, h]

theorem ok_fenceDomain (d : Nat) (s : State) (h : Ok s) : Ok (fenceDomain d s) := by
  unfold fenceDomain
  simp +contextual (maxDischargeDepth := 20) only [ok_abandonIntake, ok_endRun, ok_markFence, ok_modDom, ok_sendSide, ok_stopSwatch, ok_traceDom, ok_voidParts, ok_ite, ite_self, ok_foldl, implies_true, ok_leaf, h]

theorem ok_stopCores (s : State) (h : Ok s) : Ok (stopCores s) := by
  unfold stopCores
  refine ok_foldl _ _ s h (fun s c h => ?_)
  refine ok_stopSwatch _ _ ?_
  split
  · exact ok_abortRun _ _ _ _ h
  · exact h

theorem ok_holdEnded (s0 s : State) (h : Ok s) : Ok (holdEnded s0 s) := by
  unfold holdEnded
  refine ok_foldl _ _ s h (fun s c h => ?_)
  split
  · simp only [ok_ite, ok_lcOver, h, ite_self]
  · exact h

theorem ok_enterSafe (b src : Nat) (s : State) (h : Ok s) : Ok (enterSafe b src s) := by
  unfold enterSafe
  simp +contextual (maxDischargeDepth := 20) only [ok_abandonIntake, ok_holdEnded, ok_lifeAdd, ok_lifeWrite, ok_postHeld, ok_postTick, ok_sendSide, ok_stopCores, ok_voidAt, ok_ite, ite_self, ok_foldl, implies_true, ok_leaf, h]

theorem ok_settleTrace (s : State) (h : Ok s) : Ok (settleTrace s) := by
  unfold settleTrace
  simp +contextual (maxDischargeDepth := 20) only [ok_fire, ok_ite, ite_self, ok_leaf, h]

theorem ok_settleFences (s : State) (h : Ok s) : Ok (settleFences s) := by
  unfold settleFences
  simp +contextual (maxDischargeDepth := 20) only [ok_fenceDomain, ok_foldl, implies_true, ok_leaf, h]

theorem ok_settleSafe (s : State) (h : Ok s) : Ok (settleSafe s) := by
  unfold settleSafe
  (repeat' split) <;> simp +contextual (maxDischargeDepth := 20) only [ok_enterSafe, ok_leaf, h]

theorem ok_clearDue (s : State) (h : Ok s) : Ok (clearDue s) := by
  unfold clearDue
  simp +contextual (maxDischargeDepth := 20) only [ok_leaf, h]

theorem ok_settle (s : State) (h : Ok s) : Ok (settle s) := by
  unfold settle
  simp +contextual (maxDischargeDepth := 20) only [ok_clearDue, ok_settleFences, ok_settleSafe, ok_settleTrace, h]


/-! ### Discipline -/

theorem ok_judgeAligned (s : State) (h : Ok s) : Ok (judgeAligned s) := by
  unfold judgeAligned
  simp +contextual (maxDischargeDepth := 20) only [ok_causeEnds, ok_onset, ok_ite, ite_self, ok_leaf, h]

theorem ok_applyServo (e : Int) (s : State) (h : Ok s) : Ok (applyServo e s) := by
  unfold applyServo
  simp +contextual (maxDischargeDepth := 20) only [ok_ite, ite_self, ok_leaf, h]

theorem ok_measure (e0 : Int) (s : State) (h : Ok s) : Ok (Machine.measure e0 s) := by
  unfold Machine.measure
  have h1 : Ok (applyServo (clampE e0) (judgeAligned (causeEnds bTIME 2 { s with time := s.time.accept (clampE e0) s.clk.ns }))) :=
    ok_applyServo _ _ (ok_judgeAligned _ (ok_causeEnds _ _ _ h))
  simp only [ok_ite, ok_fire, h1, ite_self]

theorem ok_pinMeasure (capture : Gtc) (p : Nat) (s : State) (h : Ok s) : Ok (pinMeasure capture p s) := by
  unfold pinMeasure
  simp +contextual (maxDischargeDepth := 20) only [ok_fire, ok_measure, ok_ite, ite_self, h]

theorem ok_ppsEdge (s : State) (h : Ok s) : Ok (ppsEdge s) := by
  unfold ppsEdge
  simp +contextual (maxDischargeDepth := 20) only [ok_pinMeasure, ok_ite, ite_self, ok_leaf, h]

theorem ok_syncEdge (s : State) (h : Ok s) : Ok (syncEdge s) := by
  unfold syncEdge
  simp +contextual (maxDischargeDepth := 20) only [ok_pinMeasure, ok_ite, ite_self, ok_leaf, h]

theorem ok_holdover (s : State) (h : Ok s) : Ok (holdover s) := by
  unfold holdover
  (repeat' split) <;> simp +contextual (maxDischargeDepth := 20) only [ok_onset, ok_passNs, ok_leaf, h]

theorem ok_ppsOut (s : State) (h : Ok s) : Ok (ppsOut s) := by
  unfold ppsOut
  simp +contextual (maxDischargeDepth := 20) only [ok_passNs, ok_ite, ite_self, ok_leaf, h]

theorem ok_syncOut (s : State) (h : Ok s) : Ok (syncOut s) := by
  unfold syncOut
  (repeat' split) <;> simp +contextual (maxDischargeDepth := 20) only [ok_passNs, ok_leaf, h]

theorem ok_toEdge (s : State) (h : Ok s) : Ok (toEdge s) := by
  unfold toEdge
  simp +contextual (maxDischargeDepth := 20) only [ok_passToCyc, ok_ite, ite_self, h]

theorem ok_droopEdge (s : State) (h : Ok s) : Ok (droopEdge s) := by
  unfold droopEdge
  simp +contextual (maxDischargeDepth := 20) only [ok_fire, ok_trace, ok_ite, ite_self, ok_leaf, h]

theorem ok_droop (d : Nat) (s : State) (h : Ok s) : Ok (droop d s) := by
  unfold droop
  simp +contextual (maxDischargeDepth := 20) only [ok_droopEdge, ok_toEdge, ok_ite, ite_self, ok_leaf, h]

theorem ok_offsetIn (e : Word) (s : State) (h : Ok s) : Ok (offsetIn e s) := by
  unfold offsetIn
  simp +contextual (maxDischargeDepth := 20) only [ok_measure, ok_ite, ite_self, h]

theorem ok_timeStep (hi : Bool) (v : Word) (s : State) (h : Ok s) : Ok (timeStep hi v s) := by
  unfold timeStep
  simp +contextual (maxDischargeDepth := 20) only [ok_liveWrite, ok_ite, ite_self, ok_leaf, h]


/-! ### Regs -/

theorem ok_readBy (mgt : Bool) (o : Nat) (s : State) (h : Ok s) : Ok (readBy mgt o s).1 := by
  unfold readBy
  cases mgt <;> simp only [] <;> split <;> (try split) <;> exact h

theorem ok_answerUr (s : State) (h : Ok s) : Ok (answerUr s) := by
  unfold answerUr
  simp +contextual (maxDischargeDepth := 20) only [ok_fire, ok_leaf, h]

theorem ok_postedUr (s : State) (h : Ok s) : Ok (postedUr s) := by
  unfold postedUr
  simp +contextual (maxDischargeDepth := 20) only [ok_fire, ok_leaf, h]

theorem ok_useReg (o : Nat) (s : State) (h : Ok s) : Ok (useReg o s) := by
  unfold useReg
  simp +contextual (maxDischargeDepth := 20) only [ok_fire, ok_ite, ite_self, ok_leaf, h]

theorem ok_freshReg (o : Nat) (s : State) (h : Ok s) : Ok (freshReg o s) := by
  unfold freshReg
  simp +contextual (maxDischargeDepth := 20) only [ok_ite, ite_self, ok_leaf, h]

theorem ok_readRegs (mgt : Bool) (o n : Nat) (s : State) (h : Ok s) : Ok (readRegs mgt o n s).1 := by
  induction n generalizing o s with
  | zero => exact h
  | succ n ih =>
    unfold readRegs
    exact ih _ _ (ok_readBy _ _ _ (ok_useReg _ _ h))

theorem ok_regRead (mgt : Bool) (o n : Nat) (full : Bool) (s : State) (h : Ok s) : Ok (regRead mgt o n full s) := by
  unfold regRead
  have h1 := ok_readRegs false o n s h
  have h2 : ∀ a, Ok { (readRegs false o n s).1 with pci := { (readRegs false o n s).1.pci with ans := a } } := fun _ => h1
  simp only [ok_ite, ok_readRegs, ok_answerUr, h2, h, ite_self]


/-! ### Firmware -/

theorem mgtOk_lifeSet (m : Mgt) (life lf : Mem) (q : Nat) (h : MgtOk m) (hl : life.wf = true) (hf : lf.wf = true) :
    MgtOk { m with life := life, lifeFlash := lf, lifeSeq := q } := by
  rw [mgtOk_def] at h ⊢
  exact ⟨h.1, h.2.1, h.2.2.1, h.2.2.2.1, hl, hf⟩

theorem mgtOk_lifeStart (m : Mgt) (h : MgtOk m) : MgtOk (lifeStart m) := by
  unfold lifeStart
  split
  · exact h
  · split
    · apply mgtOk_lifeSet _ _ _ _ h <;> apply wf_wrN <;> rfl
    · exact mgtOk_lifeSet _ _ _ _ h rfl rfl

theorem ok_lifeSecond (s : State) (h : Ok s) : Ok (lifeSecond s) := by
  unfold lifeSecond
  simp +contextual (maxDischargeDepth := 20) only []
  (repeat' split) <;> first | (simp +contextual (maxDischargeDepth := 20) only [ok_lifeAdd, h]; done) | (refine ok_mk _ _ _ _ _ _ _ _ _ _ _ _ _ _ _ _ _ _ _ _ _ _ _ ?_ rfl rfl rfl rfl rfl rfl; simp +contextual (maxDischargeDepth := 20) only [ok_lifeAdd, ok_ite, ite_self, ok_foldl, implies_true, ok_leaf, coreOk_mk, h]; done) | (simp +contextual (maxDischargeDepth := 20) only [ok_lifeAdd, ok_ite, ite_self, ok_foldl, implies_true, ok_leaf, coreOk_mk, h]; refine ok_mk _ _ _ _ _ _ _ _ _ _ _ _ _ _ _ _ _ _ _ _ _ _ _ ?_ rfl rfl rfl rfl rfl rfl; simp +contextual (maxDischargeDepth := 20) only [ok_lifeAdd, ok_ite, ite_self, ok_foldl, implies_true, ok_leaf, coreOk_mk, h]; done)

theorem ok_lifeBlock (s : State) (b : Nat) (h : Ok s) : Ok (lifeBlock s b) := by
  unfold lifeBlock
  simp +contextual (maxDischargeDepth := 20) only [ok_lifeAdd, ok_ite, ite_self, ok_foldl, implies_true, h]

theorem ok_lifeUpdate (s : State) (h : Ok s) : Ok (lifeUpdate s) := by
  unfold lifeUpdate
  split
  · exact h
  · have h1 : Ok ((List.range 36).foldl lifeBlock s) := ok_foldl _ _ s h (fun s c h => ok_lifeBlock _ _ h)
    dsimp only
    generalize (List.range 36).foldl lifeBlock s = t at h1 ⊢
    simp only [ok_ite]
    split
    · exact ok_lifeSecond _ h1
    · exact h1


/-! ### Issue -/

theorem ok_takeEntry (c : Nat) (q : QId) (queued : Bool) (s : State) (h : Ok s) : Ok (takeEntry c q queued s) := by
  unfold takeEntry
  simp +contextual (maxDischargeDepth := 20) only [ok_modCore, implies_true, coreOk_mk, h]

theorem ok_openGates (c m seq t : Nat) (s : State) (h : Ok s) : Ok (openGates c m seq t s) := by
  unfold openGates
  simp +contextual (maxDischargeDepth := 20) only [ok_modCore, implies_true, coreOk_mk, h]

theorem ok_addInfl (c : Nat) (q : QId) (seq : Nat) (doneAt : Option Nat) (s : State) (h : Ok s) : Ok (addInfl c q seq doneAt s) := by
  unfold addInfl
  simp +contextual (maxDischargeDepth := 20) only [ok_modCore, implies_true, coreOk_mk, h]

theorem ok_releaseHeld (c : Nat) (q : QId) (n : Nat) (s : State) (h : Ok s) : Ok (releaseHeld c q n s) := by
  induction n generalizing s with
  | zero => exact h
  | succ n ih =>
    unfold releaseHeld
    split
    · exact h
    · split
      · exact h
      · exact ih _ (ok_signalToken _ _ _ _ _ (ok_modCore _ _ _ h fun k hk => hk))

theorem ok_completeEntry (c : Nat) (q : QId) (seq bundle token : Nat) (s : State) (h : Ok s) : Ok (completeEntry c q seq bundle token s) := by
  unfold completeEntry
  exact ok_releaseHeld _ _ _ _ (ok_modCore _ _ _ h fun k hk => hk)

theorem ok_commit (c t : Nat) (s : State) (h : Ok s) : Ok (commit c t s) := by
  unfold commit
  simp +contextual (maxDischargeDepth := 20) only [ok_modCore, implies_true, coreOk_mk, h]

theorem ok_issue (c : Nat) (q : QId) (w : BitVec 48) (ready : State → QEnt → Option Nat) (act : QEnt → State → State)
    (s : State) (h : Ok s) (ha : ∀ e s, Ok s → Ok (act e s)) : Ok (issue c q w ready act s) := by
  unfold issue
  repeat' split
  all_goals first
  | exact h
  | exact ok_logSkip _ _ _ _ _ (ok_takeEntry _ _ _ _ h)
  | exact ha _ _ (ok_commit _ _ _ (ok_passToCyc _ _ (ok_takeEntry _ _ _ _ h)))

theorem ok_skipAtIssue (c : Nat) (q : QId) (e : QEnt) (reason token : Nat) (s : State) (h : Ok s) : Ok (skipAtIssue c q e reason token s) := by
  unfold skipAtIssue
  simp +contextual (maxDischargeDepth := 20) only [ok_addInfl, ok_logSkip, ok_modCore, ok_signalToken, implies_true, coreOk_mk, h]

theorem ok_hazardFire (c t v : Nat) (srcs dsts : List Nat) (s : State) (h : Ok s) : Ok (hazardFire c t v srcs dsts s) := by
  unfold hazardFire
  (repeat' split) <;> simp +contextual (maxDischargeDepth := 20) only [ok_fire, h]

theorem ok_putInFlight (c v : Nat) (regs : List (Nat × List Word)) (cells : List Host.Cell) (table : Option (Nat × VTable)) (s : State) (h : Ok s) : Ok (putInFlight c v regs cells table s) := by
  unfold putInFlight
  simp +contextual (maxDischargeDepth := 20) only [ok_modCore, implies_true, coreOk_mk, h]

theorem ok_vectorAct (c occ lat : Nat) (diff : Bool) (srcs : List Nat) (op : State → QEnt → VRes) (reads : State → State)
    (e : QEnt) (s : State) (h : Ok s) (hr : ∀ s, Ok s → Ok (reads s)) : Ok (vectorAct c occ lat diff srcs op reads e s) := by
  unfold vectorAct
  dsimp only
  split
  · exact ok_skipAtIssue _ _ _ _ _ _ h
  · rename_i regs cells table _
    have h3 := ok_addInfl c .vector e.seq (some (s.clk.cyc + lat)) _ (ok_modCore _ c (fun k => { k with vu := { k.vu with vAt := s.clk.cyc + occ } })
      (ok_putInFlight c (s.clk.cyc + lat) regs cells table _ (hr _ (ok_hazardFire c s.clk.cyc (s.clk.cyc + lat) srcs (regs.map Prod.fst) s h))) fun k hk => hk)
    split
    · exact ok_disagree _ _ _ (ok_commit _ _ _ (ok_passToCyc _ _ h3))
    · exact h3

theorem ok_vectorOp (c : Nat) (w : BitVec 48) (occ lat : Nat) (diff : Bool) (srcs : List Nat) (op : State → QEnt → VRes)
    (reads : State → State) (s : State) (h : Ok s) (hr : ∀ s, Ok s → Ok (reads s)) : Ok (vectorOp c w occ lat diff srcs op reads s) :=
  ok_issue _ _ _ _ _ _ h (fun _ _ hs => ok_vectorAct _ _ _ _ _ _ _ _ _ hs hr)

theorem ok_laneOp (c : CoreId) (w : BitVec 48) (lat : Nat) (diff : Bool) (srcs : List (BitVec 5)) (vd : BitVec 5)
    (f : List (List Word) → List Word) (s : State) (h : Ok s) : Ok (laneOp c w lat diff srcs vd f s) :=
  ok_vectorOp _ _ _ _ _ _ _ _ _ h (fun _ hs => hs)


/-! ### Tick -/

theorem ok_abortAll (reason : Nat) (s : State) (h : Ok s) : Ok (abortAll reason s) := by
  unfold abortAll
  refine ok_foldl _ _ s h (fun s c h => ?_)
  split
  · exact ok_abortRun _ _ _ _ h
  · exact h

theorem ok_stopSwatches (s : State) (h : Ok s) : Ok (stopSwatches s) := by
  unfold stopSwatches
  simp +contextual (maxDischargeDepth := 20) only [ok_modSt, ok_stopSwatch, ok_foldl, implies_true, h]

theorem ok_unloadNow (s : State) (h : Ok s) : Ok (unloadNow s) := by
  unfold unloadNow
  simp +contextual (maxDischargeDepth := 20) only [ok_abortAll, ok_patVec, ok_stopSwatches, ok_leaf, h]

theorem ok_walkErrors (s : State) (h : Ok s) : Ok (walkErrors s) := by
  unfold walkErrors
  simp +contextual (maxDischargeDepth := 20) only [ok_dirRead, ok_foldl, implies_true, h]

theorem ok_startWalk (k : Nat) (s : State) (h : Ok s) : Ok (startWalk k s) := by
  unfold startWalk
  simp +contextual (maxDischargeDepth := 20) only [ok_keyedAdvance, ok_walkErrors, ok_ite, ite_self, ok_leaf, h]

theorem ok_endWalk (s : State) (h : Ok s) : Ok (endWalk s) := by
  unfold endWalk
  (repeat' split) <;> simp +contextual (maxDischargeDepth := 20) only [ok_passToCyc, ok_leaf, h]

theorem ok_forgetRegion (s : State) (r : Nat × Nat) (h : Ok s) : Ok (forgetRegion s r) := by
  have h' := (ok_def s).1 h
  exact (ok_def _).2 ⟨h'.1, wf_wrN _ _ _ h'.2.1, h'.2.2⟩

theorem ok_forgetStream (s : State) (n : Nat) (h : Ok s) : Ok (forgetStream s n) := by
  unfold forgetStream
  simp +contextual (maxDischargeDepth := 20) only [ok_forgetRegion, ok_foldl, implies_true, h]

theorem ok_forgetDropped (s : State) (h : Ok s) : Ok (forgetDropped s) := by
  unfold forgetDropped
  simp +contextual (maxDischargeDepth := 20) only [ok_forgetStream, ok_foldl, implies_true, h]

theorem ok_forgetAll (s : State) (h : Ok s) : Ok (forgetAll s) := by
  unfold forgetAll
  simp +contextual (maxDischargeDepth := 20) only [ok_forgetDropped, ok_ite, ite_self, h]

theorem ok_initStatus (k : Nat) (s : State) (h : Ok s) : Ok (initStatus k s) := by
  unfold initStatus
  (repeat' split) <;> simp +contextual (maxDischargeDepth := 20) only [ok_writeRun, h]

theorem ok_beginTick (k : Nat) (s : State) (h : Ok s) : Ok (beginTick k s) := by
  unfold beginTick
  refine ok_startTurns _ (ok_startWalk _ _ (ok_forgetAll _ (ok_initStatus _ _ (ok_trace _ _ _ _ (ok_voidAt _ _ ((ok_def _).2 ⟨fun x hx => ?_, ((ok_def s).1 h).2⟩))))))
  obtain ⟨i, hi, rfl⟩ := List.mem_mapIdx.1 hx
  exact ((ok_def s).1 h).1 (s.cores[i]) (List.getElem_mem hi)

theorem ok_launchNow (s : State) (h : Ok s) : Ok (launchNow s) := by
  unfold launchNow
  simp +contextual (maxDischargeDepth := 20) only [ok_beginTick, ok_passToGtc, ok_patVec, ok_leaf, h]

theorem ok_tickBoundary (s : State) (h : Ok s) : Ok (tickBoundary s) := by
  unfold tickBoundary
  simp +contextual (maxDischargeDepth := 20) only [ok_beginTick, ok_launchNow, ok_passToGtc, ok_unloadNow, ok_ite, ite_self, h]

theorem ok_swatchStart (c : Nat) (s : State) (h : Ok s) : Ok (swatchStart c s) := by
  unfold swatchStart
  dsimp only
  split
  · exact h
  · refine ok_modCore _ _ _ (ok_passToCyc _ _ h) fun k hk => ?_
    rw [coreOk_def] at hk ⊢
    exact ⟨rfl, hk.2⟩

theorem ok_swatchFailed (c det : Nat) (more : List Fire) (s : State) (h : Ok s) : Ok (swatchFailed c det more s) := by
  unfold swatchFailed
  simp +contextual (maxDischargeDepth := 20) only [ok_fireAll, ok_modSt, h]

theorem ok_swatchOver (c n : Nat) (s : State) (h : Ok s) : Ok (swatchOver c n s) := by
  unfold swatchOver
  simp +contextual (maxDischargeDepth := 20) only [ok_countRun, ok_modSt, h]

theorem ok_swatchEnd (c : Nat) (resp : Word) (s : State) (h : Ok s) : Ok (swatchEnd c resp s) := by
  unfold swatchEnd
  (repeat' split) <;> simp +contextual (maxDischargeDepth := 20) only [ok_modSt, ok_passToCyc, ok_swatchFailed, ok_swatchOver, ok_ite, ite_self, h]

theorem ok_swatchTimeout (c : Nat) (s : State) (h : Ok s) : Ok (swatchTimeout c s) := by
  unfold swatchTimeout
  simp +contextual (maxDischargeDepth := 20) only [ok_passToOff, ok_swatchFailed, ok_swatchOver, ok_ite, ite_self, h]

theorem ok_settlePoint (p : Nat) (s : State) (h : Ok s) : Ok (settlePoint p s) := by
  unfold settlePoint
  simp +contextual (maxDischargeDepth := 20) only [ok_passToOff, ok_postHeld, ok_postTick, ok_ite, ite_self, ok_leaf, h]


/-! ### Writes -/

theorem ok_markTuned (o : Nat) (s : State) (h : Ok s) : Ok (markTuned o s) := by
  unfold markTuned
  simp +contextual (maxDischargeDepth := 20) only [ok_leaf, h]

theorem ok_rwsWrite (o : Nat) (v : Word) (s0 : State) (h : Ok s0) : Ok (rwsWrite o v s0) := by
  unfold rwsWrite
  (repeat' split) <;> first | (simp +contextual (maxDischargeDepth := 20) only [ok_freshReg, ok_markTuned, ok_leaf, h]; done) | (refine ok_mk _ _ _ _ _ _ _ _ _ _ _ _ _ _ _ _ _ _ _ _ _ _ _ ?_ rfl rfl rfl rfl rfl rfl; simp +contextual (maxDischargeDepth := 20) only [ok_freshReg, ok_markTuned, h]; done) | (simp +contextual (maxDischargeDepth := 20) only [ok_freshReg, ok_markTuned, ok_ite, ite_self, ok_foldl, implies_true, ok_leaf, coreOk_mk, h]; refine ok_mk _ _ _ _ _ _ _ _ _ _ _ _ _ _ _ _ _ _ _ _ _ _ _ ?_ rfl rfl rfl rfl rfl rfl; simp +contextual (maxDischargeDepth := 20) only [ok_freshReg, ok_markTuned, ok_ite, ite_self, ok_foldl, implies_true, ok_leaf, coreOk_mk, h]; done)

theorem ok_setRingReg (r : RingReg) (k : Ring) (s : State) (h : Ok s) : Ok (setRingReg r k s) := by
  unfold setRingReg
  (repeat' split) <;> first | exact h | simp +contextual (maxDischargeDepth := 20) only [ok_ite, ite_self, ok_foldl, implies_true, ok_leaf, coreOk_mk, h]

theorem ok_ringWriteReg (o : Nat) (v : Word) (s : State) (h : Ok s) : Ok (ringWriteReg o v s) := by
  unfold ringWriteReg
  (repeat' split) <;> simp +contextual (maxDischargeDepth := 20) only [ok_freshReg, ok_liveWrite, ok_setRingReg, ok_ite, ite_self, h]

theorem ok_ringBad (n : Nat) (was : Bool) (s : State) (h : Ok s) : Ok (ringBad n was s) := by
  unfold ringBad
  simp +contextual (maxDischargeDepth := 20) only [ok_fire, ok_ite, ite_self, h]

theorem ok_subWriteReg (o : Nat) (v : Word) (s0 : State) (h : Ok s0) : Ok (subWriteReg o v s0) := by
  unfold subWriteReg
  (repeat' split) <;> simp +contextual (maxDischargeDepth := 20) only [ok_freshReg, ok_liveWrite, ok_modSub, ok_ringBad, ok_ite, ite_self, h]

theorem ok_statWrite (b : Nat) (hi : Bool) (v : Word) (s : State) (h : Ok s) : Ok (statWrite b hi v s) := by
  unfold statWrite
  simp +contextual (maxDischargeDepth := 20) only [ok_ite, ite_self, ok_leaf, h]

theorem ok_forceWrite (b : Nat) (hi : Bool) (v : Word) (s : State) (h : Ok s) : Ok (forceWrite b hi v s) := by
  unfold forceWrite
  simp +contextual (maxDischargeDepth := 20) only [ok_fireAll, ok_passToCyc, ok_ite, ite_self, h]

theorem ok_sevWrite (b w : Nat) (v : Word) (s : State) (h : Ok s) : Ok (sevWrite b w v s) := by
  unfold sevWrite
  simp +contextual (maxDischargeDepth := 20) only [ok_liveWrite, ok_ite, ite_self, ok_leaf, h]

theorem ok_injWrite (c : Nat) (v : Word) (s : State) (h : Ok s) : Ok (injWrite c v s) := by
  unfold injWrite
  simp +contextual (maxDischargeDepth := 20) only [ok_modSt, ok_ite, ite_self, h]


/-! ### VectorMem -/

theorem ok_drainRead (c : Nat) (r : DrainRd) (s : State) (h : Ok s) : Ok (drainRead c r s) := by
  unfold drainRead
  (repeat' split) <;> simp +contextual (maxDischargeDepth := 20) only [ok_modCore, implies_true, coreOk_mk, h]


/-! ### Jobs -/

theorem ok_stageOpen (st : Nat) (s : State) (h : Ok s) : Ok (stageOpen st s) := by
  unfold stageOpen
  (repeat' split) <;> simp +contextual (maxDischargeDepth := 20) only [ok_passToOff, ok_trace, ok_leaf, h]

theorem ok_closeCmd (st : Nat) (j : LcJob) (s : State) (x : LcCmd) (h : Ok s) : Ok (closeCmd st j s x) := by
  unfold closeCmd
  simp +contextual (maxDischargeDepth := 20) only [ok_ite, h]
  (repeat' split) <;> first | (simp +contextual (maxDischargeDepth := 20) only [ok_abortRun, ok_lcOver, ok_persist, h]; done) | (refine ok_mk _ _ _ _ _ _ _ _ _ _ _ _ _ _ _ _ _ _ _ _ _ _ _ ?_ rfl rfl rfl rfl rfl rfl; simp +contextual (maxDischargeDepth := 20) only [ok_abortRun, ok_lcOver, ok_persist, ok_ite, ite_self, ok_foldl, implies_true, ok_leaf, coreOk_mk, h]; done) | (simp +contextual (maxDischargeDepth := 20) only [ok_abortRun, ok_lcOver, ok_persist, ok_ite, ite_self, ok_foldl, implies_true, ok_leaf, coreOk_mk, h]; refine ok_mk _ _ _ _ _ _ _ _ _ _ _ _ _ _ _ _ _ _ _ _ _ _ _ ?_ rfl rfl rfl rfl rfl rfl; simp +contextual (maxDischargeDepth := 20) only [ok_abortRun, ok_lcOver, ok_persist, ok_ite, ite_self, ok_foldl, implies_true, ok_leaf, coreOk_mk, h]; done)

theorem ok_closeLate (st : Nat) (late : List Nat) (s : State) (h : Ok s) : Ok (closeLate st late s) := by
  unfold closeLate
  simp +contextual (maxDischargeDepth := 20) only [ok_closeCmd, ok_fire, ok_voidParts, ok_foldl, implies_true, ok_leaf, h]

theorem ok_stageClose (st : Nat) (s : State) (h : Ok s) : Ok (stageClose st s) := by
  unfold stageClose
  (repeat' split) <;> simp +contextual (maxDischargeDepth := 20) only [ok_closeLate, ok_passToOff, ok_trace, ok_ite, ite_self, ok_leaf, h]

theorem ok_submissionFetch (r : Nat) (s : State) (h : Ok s) : Ok (submissionFetch r s) := by
  unfold submissionFetch
  simp +contextual (maxDischargeDepth := 20) only [ok_fire, ok_modSub, ok_postCpl, ok_startTurns, ok_ite, ite_self, h]

theorem ok_endTurn (p r : Nat) (s : State) (h : Ok s) : Ok (endTurn p r s) := by
  unfold endTurn
  simp +contextual (maxDischargeDepth := 20) only [ok_beginTurn, ok_modBe, h]

theorem ok_turnEnd (p : Nat) (s : State) (h : Ok s) : Ok (turnEnd p s) := by
  unfold turnEnd
  (repeat' split) <;> simp +contextual (maxDischargeDepth := 20) only [ok_endTurn, ok_passNs, h]

theorem ok_copyImage (r i : Nat) (j : BeJob) (e : ListEntry) (s : State) (h : Ok s) : Ok (copyImage r i j e s) := by
  unfold copyImage
  simp +contextual (maxDischargeDepth := 20) only [ok_modBe, ok_modSt, ok_readRun, ok_writeData, ok_leaf, h]

theorem ok_takeCmd (r i : Nat) (j : BeJob) (s : State) (h : Ok s) : Ok (takeCmd r i j s) := by
  unfold takeCmd
  simp +contextual (maxDischargeDepth := 20) only []
  (repeat' split) <;> first | (simp +contextual (maxDischargeDepth := 20) only [ok_beOver, ok_copyImage, ok_fire, ok_modBe, ok_passToCyc, ok_readRun, h]; done) | (refine ok_mk _ _ _ _ _ _ _ _ _ _ _ _ _ _ _ _ _ _ _ _ _ _ _ ?_ rfl rfl rfl rfl rfl rfl; simp +contextual (maxDischargeDepth := 20) only [ok_beOver, ok_copyImage, ok_fire, ok_modBe, ok_passToCyc, ok_readRun, ok_ite, ite_self, ok_foldl, implies_true, ok_leaf, coreOk_mk, h]; done) | (simp +contextual (maxDischargeDepth := 20) only [ok_beOver, ok_copyImage, ok_fire, ok_modBe, ok_passToCyc, ok_readRun, ok_ite, ite_self, ok_foldl, implies_true, ok_leaf, coreOk_mk, h]; refine ok_mk _ _ _ _ _ _ _ _ _ _ _ _ _ _ _ _ _ _ _ _ _ _ _ ?_ rfl rfl rfl rfl rfl rfl; simp +contextual (maxDischargeDepth := 20) only [ok_beOver, ok_copyImage, ok_fire, ok_modBe, ok_passToCyc, ok_readRun, ok_ite, ite_self, ok_foldl, implies_true, ok_leaf, coreOk_mk, h]; done)

theorem ok_imageCopy (r : Nat) (s : State) (h : Ok s) : Ok (imageCopy r s) := by
  unfold imageCopy
  (repeat' split) <;> simp +contextual (maxDischargeDepth := 20) only [ok_passToOff, ok_takeCmd, ok_ite, ite_self, h]

theorem ok_setupReads (c hdr : Nat) (hh : Hdr) (s : State) (h : Ok s) : Ok (setupReads c hdr hh s) := by
  unfold setupReads
  refine ok_foldl _ _ s h (fun s b h => ?_)
  simp only [ok_ite, ok_readRun, h, ite_self]

theorem ok_traceStart (c : Nat) (jobref : Word) (r : Run) (s : State) (h : Ok s) : Ok (traceStart c jobref r s) := by
  unfold traceStart
  simp +contextual (maxDischargeDepth := 20) only [ok_trace, h]

theorem ok_rejectCmd (c : Nat) (r : Run) (src det : Nat) (s : State) (h : Ok s) : Ok (rejectCmd c r src det s) := by
  unfold rejectCmd
  simp +contextual (maxDischargeDepth := 20) only [ok_fire, ok_leaveCore, ok_runOver, ok_traceEnd, h]

theorem ok_setupRun (c : Nat) (r0 : Run) (from_ : Nat) (s : State) (h : Ok s) : Ok (setupRun c r0 from_ s) := by
  unfold setupRun
  simp only []
  split
  · simp (maxDischargeDepth := 20) only [ok_rejectCmd, ok_setupReads, ok_modSt, ok_passToCyc, h]
  · refine ok_traceStart _ _ _ _ (ok_modCore _ _ _ (ok_leaf _ _ _ _ _ _ _ _ _ _ _ _ _ _ _ _ _ (ok_setupReads _ _ _ _ (ok_modSt _ _ _ (ok_passToCyc _ _ h)))) fun k hk => ?_)
    rw [coreOk_def] at hk ⊢
    exact ⟨rfl, hk.2.1, rfl, hk.2.2.2⟩

theorem ok_beSetup (c : Nat) (r : Run) (s : State) (h : Ok s) : Ok (beSetup c r s) := by
  unfold beSetup
  simp +contextual (maxDischargeDepth := 20) only [ok_setupRun, ok_ite, ite_self, h]

theorem ok_placeLc (j : LcJob) (x : LcCmd) (s : State) (h : Ok s) : Ok (placeLc j x s) := by
  unfold placeLc
  simp +contextual (maxDischargeDepth := 20) only [ok_modCmd, ok_modSt, ok_setupRun, ok_leaf, h]

theorem ok_dispatchedEarly (j : LcJob) (x : LcCmd) (s : State) (h : Ok s) : Ok (dispatchedEarly j x s) := by
  unfold dispatchedEarly
  simp +contextual (maxDischargeDepth := 20) only [ok_fire, ok_ite, ite_self, h]

theorem ok_dispatchLc (j : LcJob) (x : LcCmd) (s : State) (h : Ok s) : Ok (dispatchLc j x s) := by
  unfold dispatchLc
  simp +contextual (maxDischargeDepth := 20) only [ok_dispatchedEarly, ok_fire, ok_lcOver, ok_placeLc, ok_voidParts, ok_ite, ite_self, h]

theorem ok_commandDispatch (c : Nat) (s : State) (h : Ok s) : Ok (commandDispatch c s) := by
  unfold commandDispatch
  simp +contextual (maxDischargeDepth := 20) only [ok_ite, h]
  (repeat' split) <;> first | (simp +contextual (maxDischargeDepth := 20) only [ok_beSetup, ok_dispatchLc, h]; done) | (refine ok_mk _ _ _ _ _ _ _ _ _ _ _ _ _ _ _ _ _ _ _ _ _ _ _ ?_ rfl rfl rfl rfl rfl rfl; simp +contextual (maxDischargeDepth := 20) only [ok_beSetup, ok_dispatchLc, ok_ite, ite_self, ok_foldl, implies_true, ok_leaf, coreOk_mk, h]; done) | (simp +contextual (maxDischargeDepth := 20) only [ok_beSetup, ok_dispatchLc, ok_ite, ite_self, ok_foldl, implies_true, ok_leaf, coreOk_mk, h]; refine ok_mk _ _ _ _ _ _ _ _ _ _ _ _ _ _ _ _ _ _ _ _ _ _ _ ?_ rfl rfl rfl rfl rfl rfl; simp +contextual (maxDischargeDepth := 20) only [ok_beSetup, ok_dispatchLc, ok_ite, ite_self, ok_foldl, implies_true, ok_leaf, coreOk_mk, h]; done)

theorem ok_replayDispatch (c : Nat) (s : State) (h : Ok s) : Ok (replayDispatch c s) := by
  unfold replayDispatch
  (repeat' split) <;> simp +contextual (maxDischargeDepth := 20) only [ok_lcOver, ok_modCmd, ok_modSt, ok_persist, ok_setupRun, ok_leaf, h]

theorem ok_abortBe (reason : Nat) (s : State) (cr : Nat × Run) (h : Ok s) : Ok (abortBe reason s cr) := by
  unfold abortBe
  simp +contextual (maxDischargeDepth := 20) only [ok_abortRun, ok_beAborted, h]

theorem ok_gracePoint (p : Nat) (s : State) (h : Ok s) : Ok (gracePoint p s) := by
  unfold gracePoint
  simp +contextual (maxDischargeDepth := 20) only [ok_abortBe, ok_passToOff, ok_ite, ite_self, ok_foldl, implies_true, h]

theorem ok_cutOff (p : Nat) (s : State) (h : Ok s) : Ok (cutOff p s) := by
  unfold cutOff
  simp +contextual (maxDischargeDepth := 20) only [ok_abortBe, ok_fire, ok_passToOff, ok_ite, ite_self, ok_foldl, implies_true, h]

theorem ok_commandComplete (c : Nat) (s : State) (h : Ok s) : Ok (commandComplete c s) := by
  unfold commandComplete
  (repeat' split) <;> simp +contextual (maxDischargeDepth := 20) only [ok_commit, ok_finishRun, ok_passToCyc, h]

theorem ok_cmdOverrun (c : Nat) (s : State) (h : Ok s) : Ok (cmdOverrun c s) := by
  unfold cmdOverrun
  (repeat' split) <;> simp +contextual (maxDischargeDepth := 20) only [ok_fire, ok_modSt, ok_passToCyc, h]

theorem ok_syncStall (c : Nat) (s : State) (h : Ok s) : Ok (syncStall c s) := by
  unfold syncStall
  (repeat' split) <;> simp +contextual (maxDischargeDepth := 20) only [ok_commit, ok_finishRun, ok_fire, ok_passToCyc, ok_ite, ite_self, h]

theorem ok_idleGate (c : Nat) (s : State) (h : Ok s) : Ok (idleGate c s) := by
  unfold idleGate
  simp +contextual (maxDischargeDepth := 20) only [ok_modSt, ok_passToCyc, ok_ite, ite_self, h]


/-! ### HostPort -/

theorem ok_hostStore (m : MemId) (cells : List Host.Cell) (s : State) (h : Ok s) : Ok (hostStore m cells s) := by
  unfold hostStore
  simp +contextual (maxDischargeDepth := 20) only [ok_writeRun, ok_foldl, implies_true, h]

theorem ok_hostData (bs : List Byte) (ep : Bool) (s : State) (h : Ok s) : Ok (hostData bs ep s) := by
  unfold hostData
  simp +contextual (maxDischargeDepth := 20) only [ok_leaf, h]

theorem ok_nocFire (s : State) (h : Ok s) : Ok (nocFire s) := by
  unfold nocFire
  simp +contextual (maxDischargeDepth := 20) only [ok_fire, h]

theorem ok_hostWrite (m : MemId) (cells : List Host.Cell) (noc : Option NocErr) (s : State) (h : Ok s) : Ok (hostWrite m cells noc s) := by
  unfold hostWrite
  (repeat' split) <;> simp +contextual (maxDischargeDepth := 20) only [ok_hostStore, ok_nocFire, ok_writeCells, h]

theorem ok_hostRead (bs : List Byte) (ep : Bool) (noc : Option NocErr) (s : State) (h : Ok s) : Ok (hostRead bs ep noc s) := by
  unfold hostRead
  (repeat' split) <;> simp +contextual (maxDischargeDepth := 20) only [ok_bumpFree, ok_hostData, ok_nocFire, h]

theorem ok_bar2 (r : BarReq) (noc : Option NocErr) (s : State) (h : Ok s) : Ok (bar2 r noc s) := by
  unfold bar2
  (repeat' split) <;> simp +contextual (maxDischargeDepth := 20) only [ok_answerUr, ok_hostRead, ok_hostWrite, ok_postedUr, ok_readRun, h]

theorem ok_bar4Read (a n : Nat) (noc : Option NocErr) (s : State) (h : Ok s) : Ok (bar4Read a n noc s) := by
  unfold bar4Read
  simp +contextual (maxDischargeDepth := 20) only [ok_hostRead, ok_readRun, ok_ite, ite_self, h]

theorem ok_bar4 (r : BarReq) (noc : Option NocErr) (s : State) (h : Ok s) : Ok (bar4 r noc s) := by
  unfold bar4
  (repeat' split) <;> simp +contextual (maxDischargeDepth := 20) only [ok_answerUr, ok_bar4Read, ok_fire, ok_hostWrite, ok_postedUr, ok_ite, ite_self, h]

theorem ok_configure (bme d3hot msixEn msixMask : Bool) (cfg : CfgSpace) (aer : AerSet) (clearUr : Bool) (s : State) (h : Ok s) : Ok (configure bme d3hot msixEn msixMask cfg aer clearUr s) := by
  unfold configure
  simp +contextual (maxDischargeDepth := 20) only [ok_requestsFlow, ok_ite, ite_self, ok_leaf, h]

theorem ok_linkDown (s : State) (h : Ok s) : Ok (linkDown s) := by
  unfold linkDown
  simp +contextual (maxDischargeDepth := 20) only [ok_onset, ok_ite, ite_self, ok_leaf, h]

theorem ok_linkUp (speed : BitVec 4) (width : BitVec 6) (s : State) (h : Ok s) : Ok (linkUp speed width s) := by
  unfold linkUp
  simp +contextual (maxDischargeDepth := 20) only [ok_causeEnds, ok_requestsFlow, ok_ite, ite_self, ok_leaf, h]

theorem ok_fetchFailed (r : Nat) (s : State) (h : Ok s) : Ok (fetchFailed r s) := by
  unfold fetchFailed
  simp +contextual (maxDischargeDepth := 20) only [ok_fire, ok_modSub, ok_ite, ite_self, h]

theorem ok_completionTimeout (r readAt : Nat) (s : State) (h : Ok s) : Ok (completionTimeout r readAt s) := by
  unfold completionTimeout
  simp +contextual (maxDischargeDepth := 20) only [ok_fetchFailed, ok_passNs, ok_ite, ite_self, h]

theorem ok_tlp (k : TlpKind) (s : State) (h : Ok s) : Ok (tlp k s) := by
  unfold tlp
  (repeat' split) <;> simp +contextual (maxDischargeDepth := 20) only [ok_fetchFailed, ok_fire, ok_leaf, h]

theorem ok_vectorDue (n : Nat) (s : State) (h : Ok s) : Ok (vectorDue n s) := by
  unfold vectorDue
  simp +contextual (maxDischargeDepth := 20) only [ok_modRing, ok_passNs, ok_ringVector, ok_ite, ite_self, h]


/-! ### Intake -/

theorem ok_siuFire (src : Nat) (s : State) (h : Ok s) : Ok (siuFire src s) := by
  unfold siuFire
  simp +contextual (maxDischargeDepth := 20) only [ok_fire, h]

theorem ok_countCsi (s : State) (h : Ok s) : Ok (countCsi s) := by
  unfold countCsi
  exact h

theorem ok_countEth (s : State) (h : Ok s) : Ok (countEth s) := by
  unfold countEth
  exact h

theorem ok_startSample (stream k : Nat) (s : State) (h : Ok s) : Ok (startSample stream k s) := by
  unfold startSample
  exact h

theorem ok_lateRegion (n k : Nat) (s : State) (h : Ok s) : Ok (lateRegion n k s) := by
  unfold lateRegion
  simp +contextual (maxDischargeDepth := 20) only [ok_forgetStream, ok_ite, ite_self, h]

theorem ok_setStatusBit (stream : Nat) (s : State) (h : Ok s) : Ok (setStatusBit stream s) := by
  unfold setStatusBit
  (repeat' split) <;> simp +contextual (maxDischargeDepth := 20) only [ok_intakeWrite, h]

theorem ok_completeSample (r : SampleRes) (s : State) (h : Ok s) : Ok (completeSample r s) := by
  unfold completeSample
  dsimp only
  refine ok_postRec _ _ _ (ok_trace _ _ _ _ (ok_fireAll _ _ ?_))
  have h1 : Ok { s with siu := { s.siu with seqNo := upd s.siu.seqNo r.stream fun n => (n + 1) % 2 ^ 26 } } := h
  split
  · exact ok_setStatusBit _ _ h1
  · exact h1

theorem ok_addResult (r : SampleRes) (s : State) (h : Ok s) : Ok (addResult r s) := by
  unfold addResult
  exact h

theorem ok_sampleComplete (stream : Nat) (s : State) (h : Ok s) : Ok (sampleComplete stream s) := by
  unfold sampleComplete
  split
  · exact h
  · split
    · exact ok_completeSample _ _ h
    · exact h

theorem ok_csiPacket (rx vc : Nat) (vcx : Bool) (hdr : HdrEcc) (dt : Nat) (act : Nat → State → State) (s : State) (h : Ok s)
    (ha : ∀ n s, Ok s → Ok (act n s)) : Ok (csiPacket rx vc vcx hdr dt act s) := by
  have key : ∀ (c : Prop) [Decidable c] (a b : State), Ok a → Ok b → Ok (if c then a else b) := by
    intro c _ a b ha hb
    split <;> assumption
  unfold csiPacket
  dsimp only
  refine key _ _ _ h (key _ _ _ (ok_countCsi _ h) (key _ _ _ (key _ _ _ (ok_countCsi _ h) h) ?_))
  cases hdr with
  | ok => exact ha _ _ h
  | corrected => exact ha _ _ (ok_siuFire _ _ h)
  | bad =>
    dsimp only
    split
    · exact key _ _ _ h (ok_siuFire _ _ h)
    · exact h

theorem ok_camResult (n : Nat) (cam : Cam) (status reason : Nat) (s : State) (h : Ok s) : Ok (camResult n cam status reason s) := by
  unfold camResult
  exact ok_addResult _ _ h

theorem ok_frameStart (frameNo : Nat) (n : Nat) (s : State) (h : Ok s) : Ok (frameStart frameNo n s) := by
  unfold frameStart
  dsimp only
  refine ok_startSample _ _ _ ?_
  refine ok_mk _ _ _ _ _ _ _ _ _ _ _ _ _ _ _ _ _ _ _ _ _ _ _ ?_ rfl rfl rfl rfl rfl rfl
  split
  · split
    · exact ok_camResult _ _ _ _ _ h
    · exact ok_camResult _ _ _ _ _ (ok_siuFire _ _ h)
  · exact h

theorem ok_failCam (n reason src : Nat) (cam : Cam) (s : State) (h : Ok s) : Ok (failCam n reason src cam s) := by
  unfold failCam
  exact ok_siuFire _ _ h

theorem ok_csiLine (dt : Nat) (payload : List Byte) (crcOk behind : Bool) (n : Nat) (s : State) (h : Ok s) : Ok (csiLine dt payload crcOk behind n s) := by
  unfold csiLine
  simp +contextual (maxDischargeDepth := 20) only [ok_countCsi, ok_ite, h]
  (repeat' split) <;> first | (simp +contextual (maxDischargeDepth := 20) only [ok_failCam, ok_siuFire, h]; done) | (refine ok_mk _ _ _ _ _ _ _ _ _ _ _ _ _ _ _ _ _ _ _ _ _ _ _ ?_ rfl rfl rfl rfl rfl rfl; simp +contextual (maxDischargeDepth := 20) only [ok_siuFire, h]; done) | (simp +contextual (maxDischargeDepth := 20) only [ok_countCsi, ok_failCam, ok_siuFire, ok_ite, ite_self, ok_foldl, implies_true, ok_leaf, coreOk_mk, h]; refine ok_mk _ _ _ _ _ _ _ _ _ _ _ _ _ _ _ _ _ _ _ _ _ _ _ ?_ rfl rfl rfl rfl rfl rfl; simp +contextual (maxDischargeDepth := 20) only [ok_countCsi, ok_failCam, ok_siuFire, ok_ite, ite_self, ok_foldl, implies_true, ok_leaf, coreOk_mk, h]; done)

theorem ok_writeFrame (n : Nat) (lines : List (List Nat)) (s : State) (h : Ok s) : Ok (writeFrame n lines s) := by
  unfold writeFrame
  simp +contextual (maxDischargeDepth := 20) only [ok_intakeWrite, ok_readRun, ok_ite, ite_self, h]

theorem ok_judgeFrame (n : Nat) (lines : List (List Nat)) (capture adm : Gtc) (k : Nat) (s : State) (h : Ok s) : Ok (judgeFrame n lines capture adm k s).1 := by
  unfold judgeFrame
  have h1 := ok_writeFrame n lines s h
  have h2 : ∀ a, Ok { writeFrame n lines s with siu := { (writeFrame n lines s).siu with aged := a } } := fun a => h1
  simp only [ok_ite_fst, ok_siuFire, ok_lateRegion, h1, h2, h, ite_self]

theorem ok_frameEnd (n : Nat) (s : State) (h : Ok s) : Ok (frameEnd n s) := by
  unfold frameEnd
  split
  · exact h
  · split
    · exact ok_camResult _ _ _ _ _ h
    · exact ok_camResult _ _ _ _ _ h
    · exact ok_camResult _ _ _ _ _ (ok_judgeFrame _ _ _ _ _ _ h)

theorem ok_modSweep (m : Nat) (f : Sweep → Sweep) (s : State) (h : Ok s) : Ok (modSweep m f s) := by
  unfold modSweep
  exact h

theorem ok_dropPoint (m : Nat) (s : State) (h : Ok s) : Ok (dropPoint m s) := by
  unfold dropPoint
  simp +contextual (maxDischargeDepth := 20) only [ok_modSweep, ok_siuFire, h]

theorem ok_putPoint (m n slot j : Nat) (p : Pt) (stamp : Gtc) (s : State) (h : Ok s) : Ok (putPoint m n slot j p stamp s) := by
  unfold putPoint
  simp +contextual (maxDischargeDepth := 20) only [ok_intakeWrite, h]

theorem ok_binPoint (m n : Nat) (stamp : Gtc) (s : State) (p : Pt) (h : Ok s) : Ok (binPoint m n stamp s p) := by
  unfold binPoint
  simp +contextual (maxDischargeDepth := 20) only []
  (repeat' split) <;> first | (simp +contextual (maxDischargeDepth := 20) only [ok_dropPoint, ok_modSweep, ok_putPoint, h]; done) | (refine ok_mk _ _ _ _ _ _ _ _ _ _ _ _ _ _ _ _ _ _ _ _ _ _ _ ?_ rfl rfl rfl rfl rfl rfl; simp +contextual (maxDischargeDepth := 20) only [ok_dropPoint, ok_modSweep, ok_putPoint, ok_ite, ite_self, ok_foldl, implies_true, ok_leaf, coreOk_mk, h]; done) | (simp +contextual (maxDischargeDepth := 20) only [ok_dropPoint, ok_modSweep, ok_putPoint, ok_ite, ite_self, ok_foldl, implies_true, ok_leaf, coreOk_mk, h]; refine ok_mk _ _ _ _ _ _ _ _ _ _ _ _ _ _ _ _ _ _ _ _ _ _ _ ?_ rfl rfl rfl rfl rfl rfl; simp +contextual (maxDischargeDepth := 20) only [ok_dropPoint, ok_modSweep, ok_putPoint, ok_ite, ite_self, ok_foldl, implies_true, ok_leaf, coreOk_mk, h]; done)

theorem ok_discardPoints (m k : Nat) (s : State) (h : Ok s) : Ok (discardPoints m k s) := by
  unfold discardPoints
  simp +contextual (maxDischargeDepth := 20) only [ok_modSweep, h]

theorem ok_lidarPacket (m n : Nat) (frame payload : List Byte) (mac : Gtc) (s : State) (h : Ok s) : Ok (lidarPacket m n frame payload mac s) := by
  unfold lidarPacket
  simp +contextual (maxDischargeDepth := 20) only [ok_binPoint, ok_discardPoints, ok_modSweep, ok_siuFire, ok_ite, ite_self, ok_foldl, implies_true, h]

theorem ok_overrunSweep (m : Nat) (s : State) (h : Ok s) : Ok (overrunSweep m s) := by
  unfold overrunSweep
  simp +contextual (maxDischargeDepth := 20) only [ok_modSweep, h]

theorem ok_ethernetFrame (m : Nat) (frame : List Byte) (fcsOk : Bool) (sfd : Nat) (behind : Bool) (s : State) (h : Ok s) : Ok (ethernetFrame m frame fcsOk sfd behind s) := by
  unfold ethernetFrame
  simp +contextual (maxDischargeDepth := 20) only [ok_siuFire, ok_ite, h]
  (repeat' split) <;> first | (simp +contextual (maxDischargeDepth := 20) only [ok_countEth, ok_lidarPacket, ok_overrunSweep, h]; done) | (refine ok_mk _ _ _ _ _ _ _ _ _ _ _ _ _ _ _ _ _ _ _ _ _ _ _ ?_ rfl rfl rfl rfl rfl rfl; simp +contextual (maxDischargeDepth := 20) only [ok_countEth, ok_lidarPacket, ok_overrunSweep, ok_siuFire, ok_ite, ite_self, ok_foldl, implies_true, ok_leaf, coreOk_mk, h]; done) | (simp +contextual (maxDischargeDepth := 20) only [ok_countEth, ok_lidarPacket, ok_overrunSweep, ok_siuFire, ok_ite, ite_self, ok_foldl, implies_true, ok_leaf, coreOk_mk, h]; refine ok_mk _ _ _ _ _ _ _ _ _ _ _ _ _ _ _ _ _ _ _ _ _ _ _ ?_ rfl rfl rfl rfl rfl rfl; simp +contextual (maxDischargeDepth := 20) only [ok_countEth, ok_lidarPacket, ok_overrunSweep, ok_siuFire, ok_ite, ite_self, ok_foldl, implies_true, ok_leaf, coreOk_mk, h]; done)

theorem ok_sweepClose (m : Nat) (s : State) (h : Ok s) : Ok (sweepClose m s) := by
  unfold sweepClose
  simp +contextual (maxDischargeDepth := 20) only [ok_modSweep, ok_passToOff, ok_startSample, ok_ite, ite_self, h]

theorem ok_flushSweep (m : Nat) (w : Sweep) (s : State) (h : Ok s) : Ok (flushSweep m w s) := by
  unfold flushSweep
  simp +contextual (maxDischargeDepth := 20) only [ok_intakeWrite, ok_lateRegion, ok_ite, ite_self, ok_foldl, implies_true, h]

theorem ok_sweepOver (m : Nat) (s : State) (h : Ok s) : Ok (sweepOver m s) := by
  unfold sweepOver
  (repeat' split) <;> first | exact h | simp +contextual (maxDischargeDepth := 20) only [ok_modSweep, ok_ite, ite_self, ok_foldl, implies_true, ok_leaf, coreOk_mk, h]

theorem ok_sweepComplete (m : Nat) (s : State) (h : Ok s) : Ok (sweepComplete m s) := by
  unfold sweepComplete
  (repeat' split) <;> simp +contextual (maxDischargeDepth := 20) only [ok_bumpFree, ok_completeSample, ok_flushSweep, ok_sweepOver, h]


/-! ### Matrix -/

theorem coreOk_closeChain (f : MmaF) (e : Nat) (up : List Upset) (yd : Bool) (acc : Core × List (Nat × DisEvent)) (a : Nat) (h : CoreOk acc.1) :
    CoreOk (closeChain f e up yd acc a).1 := by
  obtain ⟨k, ev⟩ := acc
  unfold closeChain
  dsimp only
  split
  · exact h
  · exact h

theorem coreOk_closeChains (f : MmaF) (e : Nat) (up : List Upset) (yd : Bool) (l : List Nat) (acc : Core × List (Nat × DisEvent)) (h : CoreOk acc.1) :
    CoreOk (l.foldl (closeChain f e up yd) acc).1 := by
  induction l generalizing acc with
  | nil => exact h
  | cons x xs ih => exact ih _ (coreOk_closeChain _ _ _ _ _ _ h)

theorem coreOk_arraySteps (s : State) (c : Nat) (f : MmaF) (t : Nat) (acts : List (List Int)) (k : Core) (a : Nat) (h : CoreOk k) :
    CoreOk (arraySteps s c f t acts k a) := h

theorem coreOk_foldl {α : Type} (l : List α) (f : Core → α → Core) (k : Core) (h : CoreOk k) (hf : ∀ k x, CoreOk k → CoreOk (f k x)) :
    CoreOk (l.foldl f k) := by
  induction l generalizing k with
  | nil => exact h
  | cons x xs ih => exact ih _ (hf _ _ h)

theorem ok_stepReads (c : Nat) (f : MmaF) (s : State) (st : Nat) (h : Ok s) : Ok (stepReads c f s st) := by
  unfold stepReads
  simp +contextual (maxDischargeDepth := 20) only [ok_readSpans, ok_foldl, implies_true, h]

theorem ok_mmaReads (c : Nat) (f : MmaF) (n : Nat) (s : State) (h : Ok s) : Ok (mmaReads c f n s) := by
  unfold mmaReads
  simp +contextual (maxDischargeDepth := 20) only [ok_stepReads, ok_foldl, implies_true, h]

theorem ok_drainEvents (c : Nat) (evs : List (Nat × DisEvent)) (s : State) (h : Ok s) : Ok (drainEvents c evs s) := by
  unfold drainEvents
  simp +contextual (maxDischargeDepth := 20) only []
  (repeat' split) <;> first | (simp +contextual (maxDischargeDepth := 20) only [ok_commit, ok_disagree, ok_passToCyc, h]; done) | (refine ok_mk _ _ _ _ _ _ _ _ _ _ _ _ _ _ _ _ _ _ _ _ _ _ _ ?_ rfl rfl rfl rfl rfl rfl; simp +contextual (maxDischargeDepth := 20) only [ok_commit, ok_disagree, ok_passToCyc, ok_ite, ite_self, ok_foldl, implies_true, ok_leaf, coreOk_mk, h]; done) | (simp +contextual (maxDischargeDepth := 20) only [ok_commit, ok_disagree, ok_passToCyc, ok_ite, ite_self, ok_foldl, implies_true, ok_leaf, coreOk_mk, h]; refine ok_mk _ _ _ _ _ _ _ _ _ _ _ _ _ _ _ _ _ _ _ _ _ _ _ ?_ rfl rfl rfl rfl rfl rfl; simp +contextual (maxDischargeDepth := 20) only [ok_commit, ok_disagree, ok_passToCyc, ok_ite, ite_self, ok_foldl, implies_true, ok_leaf, coreOk_mk, h]; done)

theorem ok_mmaAct (c : Nat) (f : MmaF) (up : List Upset) (yd : Bool) (e : QEnt) (s : State) (h : Ok s) : Ok (mmaAct c f up yd e s) := by
  have key : ∀ (b : Prop) [Decidable b] (x y : State), Ok x → Ok y → Ok (if b then x else y) := by
    intro b _ x y hx hy
    split <;> assumption
  have keyc : ∀ (b : Prop) [Decidable b] (x y : Core), CoreOk x → CoreOk y → CoreOk (if b then x else y) := by
    intro b _ x y hx hy
    split <;> assumption
  have keyp : ∀ (b : Prop) [Decidable b] (x y : Core × List (Nat × DisEvent)), CoreOk x.1 → CoreOk y.1 → CoreOk (if b then x else y).1 := by
    intro b _ x y hx hy
    split <;> assumption
  unfold mmaAct
  dsimp only
  refine key _ _ _ ?_ ?_
  · exact ok_skipAtIssue _ _ _ _ _ _ (ok_modCore _ _ _ h fun k hk => hk)
  · apply ok_drainEvents
    apply ok_addInfl
    have hs : Ok (if ((coreAt s c).mx.aob.getD f.aob.toNat {}).skip then s else mmaReads c f (mmaSteps (coreAt s c) f) s) :=
      key _ _ _ h (ok_mmaReads _ _ _ _ h)
    generalize (if ((coreAt s c).mx.aob.getD f.aob.toNat {}).skip then s else mmaReads c f (mmaSteps (coreAt s c) f) s) = s1 at hs ⊢
    apply ok_modCore _ _ _ hs
    intro _ _
    have h1 := coreOk_foldl (arraysOf f.amask) (arraySteps s1 c f s.clk.cyc (aobRows s1 c f (mmaSteps (coreAt s c) f)))
      _ (ok_coreAt hs c) (fun k x hk => coreOk_arraySteps _ _ _ _ _ _ _ hk)
    generalize (arraysOf f.amask).foldl _ (coreAt s1 c) = k1 at h1 ⊢
    have h2 : ∀ (b : Bool) (m : Mx), CoreOk (if b then k1 else { k1 with mx := m }) := fun b m => keyc _ _ _ h1 h1
    have h3 := fun (k2 : Core) (hk : CoreOk k2) => keyp (f.last = true) _ (k2, []) (coreOk_closeChains f (s.clk.cyc + mmaSteps (coreAt s c) f - 1) up yd (arraysOf f.amask) (k2, []) hk) hk
    have h4 := h3 _ (h2 (k1.xfers.any Xfer.store || (s.kfs.queue ++ s.kfs.serving.toList).any fun r => r.core == c && (keyedOf r.desc).scatter)
      { k1.mx with checks := k1.mx.checks.filter fun x => decide (s.clk.cyc < x.2) })
    generalize (if f.last then _ else _ : Core × List (Nat × DisEvent)) = p at h4 ⊢
    exact keyc _ _ _ h4 h4


/-! ### Transfer -/

theorem ok_sourceReads (c space : Nat) (runs : List (Nat × Nat)) (s : State) (h : Ok s) : Ok (sourceReads c space runs s) := by
  unfold sourceReads
  simp +contextual (maxDischargeDepth := 20) only [ok_readRun, ok_foldl, implies_true, h]

theorem ok_placeXfer (c : Nat) (x : Xfer) (p : Plan) (bs : List Byte) (marks : List Bool) (s : State) (h : Ok s) : Ok (placeXfer c x p bs marks s) := by
  unfold placeXfer
  simp +contextual (maxDischargeDepth := 20) only []
  (repeat' split) <;> first | (simp +contextual (maxDischargeDepth := 20) only [ok_modCore, ok_modXfer, ok_pumpXfers, implies_true, coreOk_mk, h]; done) | (refine ok_mk _ _ _ _ _ _ _ _ _ _ _ _ _ _ _ _ _ _ _ _ _ _ _ ?_ rfl rfl rfl rfl rfl rfl; simp +contextual (maxDischargeDepth := 20) only [ok_modCore, ok_modXfer, ok_pumpXfers, ok_ite, ite_self, ok_foldl, implies_true, ok_leaf, coreOk_mk, h]; done) | (simp +contextual (maxDischargeDepth := 20) only [ok_modCore, ok_modXfer, ok_pumpXfers, ok_ite, ite_self, ok_foldl, implies_true, ok_leaf, coreOk_mk, h]; refine ok_mk _ _ _ _ _ _ _ _ _ _ _ _ _ _ _ _ _ _ _ _ _ _ _ ?_ rfl rfl rfl rfl rfl rfl; simp +contextual (maxDischargeDepth := 20) only [ok_modCore, ok_modXfer, ok_pumpXfers, ok_ite, ite_self, ok_foldl, implies_true, ok_leaf, coreOk_mk, h]; done)

theorem ok_startXfer (c : Nat) (store : Bool) (e : QEnt) (token : Nat) (p : Plan) (aob : Option (Nat × Option GatherRec)) (vdiff : Bool) (s : State) (h : Ok s) : Ok (startXfer c store e token p aob vdiff s) := by
  unfold startXfer
  simp +contextual (maxDischargeDepth := 20) only [ok_addInfl, ok_modXfers, ok_placeXfer, ok_pumpXfers, ok_sourceReads, ok_ite, ite_self, h]

theorem ok_readsIn (c : Nat) (x : Xfer) (s : State) (h : Ok s) : Ok (readsIn c x s) := by
  unfold readsIn
  simp +contextual (maxDischargeDepth := 20) only [ok_modXfer, ok_ite, h]
  (repeat' split) <;> first | (simp +contextual (maxDischargeDepth := 20) only [ok_modCore, ok_modXfer, implies_true, coreOk_mk, h]; done) | (refine ok_mk _ _ _ _ _ _ _ _ _ _ _ _ _ _ _ _ _ _ _ _ _ _ _ ?_ rfl rfl rfl rfl rfl rfl; simp +contextual (maxDischargeDepth := 20) only [ok_modCore, ok_modXfer, ok_ite, ite_self, ok_foldl, implies_true, ok_leaf, coreOk_mk, h]; done) | (simp +contextual (maxDischargeDepth := 20) only [ok_modCore, ok_modXfer, ok_ite, ite_self, ok_foldl, implies_true, ok_leaf, coreOk_mk, h]; refine ok_mk _ _ _ _ _ _ _ _ _ _ _ _ _ _ _ _ _ _ _ _ _ _ _ ?_ rfl rfl rfl rfl rfl rfl; simp +contextual (maxDischargeDepth := 20) only [ok_modCore, ok_modXfer, ok_ite, ite_self, ok_foldl, implies_true, ok_leaf, coreOk_mk, h]; done)

theorem ok_orFenced (c : Nat) (spaces : List (Nat × Nat)) (f : State → State) (s : State) (h : Ok s) (hf : ∀ s, Ok s → Ok (f s)) :
    Ok (orFenced c spaces f s) := by
  unfold orFenced
  simp only [ok_ite, ok_endRun, hf, h, ite_self]

theorem ok_ldAct (c : Nat) (store : Bool) (e : QEnt) (s : State) (h : Ok s) : Ok (ldAct c store e s) := by
  unfold ldAct
  simp +contextual (maxDischargeDepth := 20) only [ok_orFenced, ok_skipAtIssue, ok_startXfer, ok_ite, ite_self, implies_true, h]

theorem ok_fillAob (c e : Nat) (skip : Bool) (g : Option GatherRec) (s : State) (h : Ok s) : Ok (fillAob c e skip g s) := by
  unfold fillAob
  simp +contextual (maxDischargeDepth := 20) only [ok_modCore, implies_true, coreOk_mk, h]

theorem ok_cgatherAct (c : Nat) (token : BitVec 4) (e : QEnt) (s : State) (h : Ok s) : Ok (cgatherAct c token e s) := by
  unfold cgatherAct
  simp +contextual (maxDischargeDepth := 20) only [ok_addInfl, ok_completeEntry, ok_fillAob, ok_orFenced, ok_skipAtIssue, ok_startXfer, ok_ite, ite_self, implies_true, h]

theorem ok_wxloadAct (c : Nat) (vd : Bool) (token : BitVec 4) (e : QEnt) (s : State) (h : Ok s) : Ok (wxloadAct c vd token e s) := by
  unfold wxloadAct
  simp +contextual (maxDischargeDepth := 20) only [ok_orFenced, ok_skipAtIssue, ok_startXfer, ok_ite, ite_self, implies_true, h]

theorem ok_ldaccAct (c : Nat) (amask : BitVec 4) (bank tgt : Bool) (token : BitVec 4) (e : QEnt) (s : State) (h : Ok s) : Ok (ldaccAct c amask bank tgt token e s) := by
  unfold ldaccAct
  simp +contextual (maxDischargeDepth := 20) only [ok_skipAtIssue, ok_startXfer, ok_ite, ite_self, h]

theorem ok_writeXfer (c : Nat) (x : Xfer) (s : State) (h : Ok s) : Ok (writeXfer c x s) := by
  unfold writeXfer
  (repeat' split) <;> simp +contextual (maxDischargeDepth := 20) only [ok_hostWr, ok_modCore, ok_writeCells, ok_foldl, implies_true, coreOk_mk, h]

theorem ok_landXfer (c seq : Nat) (s : State) (h : Ok s) : Ok (landXfer c seq s) := by
  unfold landXfer
  simp +contextual (maxDischargeDepth := 20) only [ok_landWr, ok_modCore, ok_foldl, implies_true, coreOk_mk, h]

theorem ok_finishXfer (c : Nat) (x : Xfer) (s : State) (h : Ok s) : Ok (finishXfer c x s) := by
  unfold finishXfer
  (repeat' split) <;> simp +contextual (maxDischargeDepth := 20) only [ok_completeEntry, ok_disagree, ok_fillAob, ok_landXfer, ok_modXfers, ok_writeXfer, h]

theorem ok_nocXfer (c : Nat) (x : Xfer) (noc : Option NocErr) (s : State) (h : Ok s) : Ok (nocXfer c x noc s).1 := by
  unfold nocXfer
  split
  · exact h
  · dsimp only
    refine ok_foldl _ _ _ ?_ fun s a hs => ok_setMem _ _ _ hs (wf_poison _ _ _ _ (ok_memOf hs _))
    have h1 := ok_consumed (some c) _ (ok_fire { b := bGLB, src := 3, who := whoOn s c } s h)
    split
    · exact ok_landXfer _ _ _ h1
    · exact h1

theorem ok_transferDone (c : Nat) (store : Bool) (noc : Option NocErr) (s : State) (h : Ok s) : Ok (transferDone c store noc s) := by
  unfold transferDone
  split
  · exact h
  split
  · exact h
  split
  · exact h
  · exact ok_finishXfer _ _ _ (ok_nocXfer _ _ _ _ (ok_commit _ _ _ (ok_passToCyc _ _ h)))

theorem ok_lateMsg (c : Nat) (store request : Bool) (s : State) (h : Ok s) : Ok (lateMsg c store request s) := by
  unfold lateMsg
  (repeat' split) <;> simp +contextual (maxDischargeDepth := 20) only [ok_fire, ok_leaf, h]

theorem ok_delayXfer (c : Nat) (x : Xfer) (delay : Nat) (s : State) (h : Ok s) : Ok (delayXfer c x delay s) := by
  unfold delayXfer
  simp +contextual (maxDischargeDepth := 20) only [ok_modCore, ok_modXfer, implies_true, coreOk_mk, h]

theorem ok_delayKeyed (c : Nat) (scatter : Bool) (delay : Nat) (s : State) (h : Ok s) : Ok (delayKeyed c scatter delay s) := by
  unfold delayKeyed
  simp +contextual (maxDischargeDepth := 20) only []
  (repeat' split) <;> first | (simp +contextual (maxDischargeDepth := 20) only [ok_leaf, h]; done) | (refine ok_mk _ _ _ _ _ _ _ _ _ _ _ _ _ _ _ _ _ _ _ _ _ _ _ ?_ rfl rfl rfl rfl rfl rfl; simp +contextual (maxDischargeDepth := 20) only [ok_ite, ite_self, ok_foldl, implies_true, ok_leaf, coreOk_mk, h]; done) | (simp +contextual (maxDischargeDepth := 20) only [ok_ite, ite_self, ok_foldl, implies_true, ok_leaf, coreOk_mk, h]; refine ok_mk _ _ _ _ _ _ _ _ _ _ _ _ _ _ _ _ _ _ _ _ _ _ _ ?_ rfl rfl rfl rfl rfl rfl; simp +contextual (maxDischargeDepth := 20) only [ok_ite, ite_self, ok_foldl, implies_true, ok_leaf, coreOk_mk, h]; done)

theorem ok_latMiss (c : Nat) (store : Bool) (delay : Nat) (s : State) (h : Ok s) : Ok (latMiss c store delay s) := by
  unfold latMiss
  (repeat' split) <;> simp +contextual (maxDischargeDepth := 20) only [ok_delayKeyed, ok_delayXfer, ok_fire, h]

theorem ok_latMissPeer (s : State) (h : Ok s) : Ok (latMissPeer s) := by
  unfold latMissPeer
  simp +contextual (maxDischargeDepth := 20) only [ok_fire, ok_ite, ite_self, h]


/-! ### Placement -/

theorem ok_withItems (s : State) (g : Staged) (h : Ok s) : Ok (withItems s g) := by
  unfold withItems
  simp +contextual (maxDischargeDepth := 20) only [ok_leaf, h]


/-! ### Pattern -/

theorem ok_readImage (g : Staged) (blocks : List Nat) (s : State) (h : Ok s) : Ok (readImage g blocks s) := by
  unfold readImage
  simp +contextual (maxDischargeDepth := 20) only [ok_readRun, ok_foldl, implies_true, h]

theorem ok_setPat (st sec reason det : Nat) (s : State) (h : Ok s) : Ok (setPat st sec reason det s) := by
  unfold setPat
  simp +contextual (maxDischargeDepth := 20) only [ok_patVec, ok_leaf, h]

theorem ok_loadFrom (s : State) (h : Ok s) : Ok (loadFrom s) := by
  unfold loadFrom
  simp +contextual (maxDischargeDepth := 20) only []
  (repeat' split) <;> first | (simp +contextual (maxDischargeDepth := 20) only [ok_fire, ok_readImage, ok_setPat, ok_leaf, h]; done) | (refine ok_mk _ _ _ _ _ _ _ _ _ _ _ _ _ _ _ _ _ _ _ _ _ _ _ ?_ rfl rfl rfl rfl rfl rfl; simp +contextual (maxDischargeDepth := 20) only [ok_fire, ok_readImage, ok_setPat, ok_withItems, ok_ite, ite_self, ok_foldl, implies_true, ok_leaf, coreOk_mk, h]; done) | (simp +contextual (maxDischargeDepth := 20) only [ok_fire, ok_readImage, ok_setPat, ok_withItems, ok_ite, ite_self, ok_foldl, implies_true, ok_leaf, coreOk_mk, h]; refine ok_mk _ _ _ _ _ _ _ _ _ _ _ _ _ _ _ _ _ _ _ _ _ _ _ ?_ rfl rfl rfl rfl rfl rfl; simp +contextual (maxDischargeDepth := 20) only [ok_fire, ok_readImage, ok_setPat, ok_withItems, ok_ite, ite_self, ok_foldl, implies_true, ok_leaf, coreOk_mk, h]; done)

theorem ok_loadWrite (s : State) (h : Ok s) : Ok (loadWrite s) := by
  unfold loadWrite
  simp +contextual (maxDischargeDepth := 20) only [ok_liveWrite, ok_loadFrom, ok_ite, ite_self, h]

theorem coreOk_loadCore (s : State) (g : Staged) (c : Nat) (k : Core) (hk : CoreOk k) : CoreOk (loadCore s g c k) := by
  have h' := (coreOk_def k).1 hk
  unfold loadCore
  rw [coreOk_def]
  refine ⟨h'.1, ?_, h'.2.2.1, ?_⟩
  · dsimp only
    apply wf_foldl _ _ (fun m x hm => ?_) _ h'.2.1
    apply wf_store _ _ _ _ hm
  · dsimp only
    apply wf_store _ _ _ _ h'.2.2.2

theorem ok_readyRise (s : State) (h : Ok s) : Ok (readyRise s) := by
  unfold readyRise
  simp +contextual (maxDischargeDepth := 20) only [ok_patVec, ok_sendSide, ok_ite, ite_self, ok_leaf, h]

theorem ok_loadAll (g : Staged) (s : State) (h : Ok s) : Ok (loadAll g s) := by
  have h' := (ok_def s).1 h
  unfold loadAll
  rw [ok_def]
  refine ⟨?_, h'.2⟩
  apply coreOk_mapIdx h
  intro c k hk
  apply coreOk_st
  apply coreOk_loadCore _ _ _ _ hk

theorem ok_activate (g : Staged) (s : State) (h : Ok s) : Ok (activate g s) := by
  unfold activate
  simp +contextual (maxDischargeDepth := 20) only [ok_loadAll, ok_readyRise, ok_sendIdents, ok_setPat, h]

theorem ok_dropImages (s : State) (h : Ok s) : Ok (dropImages s) := by
  unfold dropImages
  exact (ok_def _).2 ⟨coreOk_mapIdx h _ fun c k hk => by
    rw [coreOk_def] at hk ⊢
    exact ⟨hk.1, rfl, hk.2.2.1, rfl⟩, ((ok_def s).1 h).2⟩

theorem ok_loadError (s0 : State) (h : Ok s0) : Ok (loadError s0) := by
  unfold loadError
  simp +contextual (maxDischargeDepth := 20) only [ok_dropImages, ok_setPat, ok_leaf, h]

theorem ok_finishLoad (s : State) (h : Ok s) : Ok (finishLoad s) := by
  unfold finishLoad
  simp +contextual (maxDischargeDepth := 20) only [ok_activate, ok_loadError, ok_readImage, ok_ite, ite_self, h]

theorem ok_patternLoaded (s : State) (h : Ok s) : Ok (patternLoaded s) := by
  unfold patternLoaded
  simp +contextual (maxDischargeDepth := 20) only [ok_finishLoad, ok_ite, ite_self, h]

theorem ok_unloadWrite (s : State) (h : Ok s) : Ok (unloadWrite s) := by
  unfold unloadWrite
  simp +contextual (maxDischargeDepth := 20) only [ok_liveWrite, ok_unloadNow, ok_ite, ite_self, ok_leaf, h]

theorem ok_flushWrite (s : State) (h : Ok s) : Ok (flushWrite s) := by
  unfold flushWrite
  simp +contextual (maxDischargeDepth := 20) only [ok_ite, ite_self, ok_leaf, h]


/-! ### Links -/

theorem ok_linkTrained (p : Nat) (inv : BitVec 8) (reversed : Bool) (s : State) (h : Ok s) : Ok (linkTrained p inv reversed s) := by
  unfold linkTrained
  simp +contextual (maxDischargeDepth := 20) only [ok_causeEnds, ok_modPort, ok_ite, ite_self, h]

theorem ok_trainingTimeout (p : Nat) (s : State) (h : Ok s) : Ok (trainingTimeout p s) := by
  unfold trainingTimeout
  simp +contextual (maxDischargeDepth := 20) only [ok_modPort, ok_onset, ok_passNs, ok_ite, ite_self, h]

theorem ok_farEndReset (p : Nat) (s : State) (h : Ok s) : Ok (farEndReset p s) := by
  unfold farEndReset
  simp +contextual (maxDischargeDepth := 20) only [ok_modPort, ok_ite, ite_self, h]

theorem ok_resendAll (p : Nat) (s : State) (h : Ok s) : Ok (resendAll p s) := by
  unfold resendAll
  simp +contextual (maxDischargeDepth := 20) only [ok_modPort, h]

theorem ok_flitTimeout (p : Nat) (s : State) (h : Ok s) : Ok (flitTimeout p s) := by
  unfold flitTimeout
  (repeat' split) <;> simp +contextual (maxDischargeDepth := 20) only [ok_passNs, ok_resendAll, h]

theorem ok_flitControl (p ack lc be : Nat) (nak : Bool) (s : State) (h : Ok s) : Ok (flitControl p ack lc be nak s) := by
  unfold flitControl
  simp +contextual (maxDischargeDepth := 20) only [ok_fire, ok_modPort, ok_resendAll, ok_ite, ite_self, h]

theorem ok_takeReq (dev rid : Nat) (s : State) (h : Ok s) : Ok (takeReq dev rid s) := by
  unfold takeReq
  simp +contextual (maxDischargeDepth := 20) only [ok_modPeer, h]

theorem ok_answered (dev : Nat) (q : RemReq) (got : Option ReadIn) (s : State) (h : Ok s) : Ok (answered dev q got s) := by
  unfold answered
  simp +contextual (maxDischargeDepth := 20) only []
  (repeat' split) <;> first | (simp +contextual (maxDischargeDepth := 20) only [ok_modXfer, ok_readsIn, h]; done) | (refine ok_mk _ _ _ _ _ _ _ _ _ _ _ _ _ _ _ _ _ _ _ _ _ _ _ ?_ rfl rfl rfl rfl rfl rfl; simp +contextual (maxDischargeDepth := 20) only [ok_modXfer, ok_readsIn, ok_ite, ite_self, ok_foldl, implies_true, ok_leaf, coreOk_mk, h]; done) | (simp +contextual (maxDischargeDepth := 20) only [ok_modXfer, ok_readsIn, ok_ite, ite_self, ok_foldl, implies_true, ok_leaf, coreOk_mk, h]; refine ok_mk _ _ _ _ _ _ _ _ _ _ _ _ _ _ _ _ _ _ _ _ _ _ _ ?_ rfl rfl rfl rfl rfl rfl; simp +contextual (maxDischargeDepth := 20) only [ok_modXfer, ok_readsIn, ok_ite, ite_self, ok_foldl, implies_true, ok_leaf, coreOk_mk, h]; done)

theorem ok_denyReq (dev : Nat) (q : RemReq) (s : State) (h : Ok s) : Ok (denyReq dev q s) := by
  unfold denyReq
  simp +contextual (maxDischargeDepth := 20) only [ok_answered, ok_pumpAll, ok_remoteErr, ok_takeReq, ok_ite, ite_self, h]

theorem ok_poisonArrives (q : RemReq) (s : State) (h : Ok s) : Ok (poisonArrives q s) := by
  unfold poisonArrives
  simp +contextual (maxDischargeDepth := 20) only [ok_consumed, ok_fire, h]

theorem ok_responseIn (p : Nat) (m : Msg) (data : List Byte) (s : State) (h : Ok s) : Ok (responseIn p m data s) := by
  unfold responseIn
  (repeat' split) <;> simp +contextual (maxDischargeDepth := 20) only [ok_answered, ok_denyReq, ok_fire, ok_poisonArrives, ok_pumpAll, ok_takeReq, h]

theorem ok_respond (m : Msg) (ty : Nat) (poison : Bool) (data : List Byte) (s : State) (h : Ok s) : Ok (respond m ty poison data s) := by
  exact ok_sendMsg _ _ _ _ _ h

theorem ok_lcAccess (m : Msg) (s : State) (h : Ok s) : Ok (lcAccess m s) := by
  unfold lcAccess
  simp +contextual (maxDischargeDepth := 20) only [ok_ite, ite_self, ok_leaf, h]

theorem ok_refuse (m : Msg) (s : State) (h : Ok s) : Ok (refuse m s) := by
  unfold refuse
  simp +contextual (maxDischargeDepth := 20) only [ok_fire, ok_respond, h]

theorem ok_serveRead (m : Msg) (s : State) (h : Ok s) : Ok (serveRead m s) := by
  unfold serveRead
  simp +contextual (maxDischargeDepth := 20) only [ok_lcAccess, ok_readRun, ok_refuse, ok_respond, ok_ite, ite_self, h]

theorem ok_serveWrite (m : Msg) (data : List Byte) (s : State) (h : Ok s) : Ok (serveWrite m data s) := by
  unfold serveWrite
  simp +contextual (maxDischargeDepth := 20) only [ok_lcAccess, ok_modPeer, ok_refuse, ok_respond, ok_writeRun, ok_ite, ite_self, h]

theorem ok_requestIn (p : Nat) (m : Msg) (data : List Byte) (s : State) (h : Ok s) : Ok (requestIn p m data s) := by
  unfold requestIn
  simp +contextual (maxDischargeDepth := 20) only [ok_fire, ok_modPeer, ok_respond, ok_serveRead, ok_serveWrite, ok_ite, ite_self, h]

theorem ok_forward (p : Nat) (m : Msg) (data : List Byte) (s : State) (h : Ok s) : Ok (forward p m data s) := by
  unfold forward
  have h1 := ok_sendMsg m data (some p) .none s h
  dsimp only
  split
  · exact ok_respond _ _ _ _ _ h1
  · exact h1

theorem ok_messageIn (p : Nat) (m : Msg) (data : List Byte) (s : State) (h : Ok s) : Ok (messageIn p m data s) := by
  unfold messageIn
  simp +contextual (maxDischargeDepth := 20) only [ok_forward, ok_requestIn, ok_responseIn, ok_ite, ite_self, h]

theorem ok_oneMessage (p ty : Nat) (hdr : BitVec 128) (data : List Byte) (s : State) (h : Ok s) : Ok (oneMessage p ty hdr data s) := by
  unfold oneMessage
  simp +contextual (maxDischargeDepth := 20) only [ok_messageIn, ok_ite, ite_self, h]

theorem ok_returnCredits (p vc n : Nat) (s : State) (h : Ok s) : Ok (returnCredits p vc n s) := by
  unfold returnCredits
  simp +contextual (maxDischargeDepth := 20) only [ok_freeHolds, ok_leaf, h]

theorem ok_flitPayloadIn (p vc : Nat) (pay : List Byte) (s : State) (h : Ok s) : Ok (flitPayloadIn p vc pay s) := by
  unfold flitPayloadIn
  simp +contextual (maxDischargeDepth := 20) only [ok_messageIn, ok_modPort, ok_returnCredits, ok_ite, ite_self, ok_foldl, implies_true, ok_leaf, h]

theorem ok_flitIn (p : Nat) (flit : List Byte) (s : State) (h : Ok s) : Ok (flitIn p flit s) := by
  unfold flitIn
  simp +contextual (maxDischargeDepth := 20) only [ok_fire, ok_flitControl, ok_flitPayloadIn, ok_modPort, ok_ite, ite_self, h]

theorem ok_latencyMiss (dev rid : Nat) (s : State) (h : Ok s) : Ok (latencyMiss dev rid s) := by
  unfold latencyMiss
  (repeat' split) <;> simp +contextual (maxDischargeDepth := 20) only [ok_fire, ok_modPeer, ok_passToCyc, h]

theorem ok_abandonReq (dev rid : Nat) (s : State) (h : Ok s) : Ok (abandonReq dev rid s) := by
  unfold abandonReq
  (repeat' split) <;> simp +contextual (maxDischargeDepth := 20) only [ok_denyReq, ok_passNs, h]

theorem ok_syncIn (p : Nat) (t1 t3 t4 : Word) (half : Bool) (s : State) (h : Ok s) : Ok (syncIn p t1 t3 t4 half s) := by
  unfold syncIn
  simp +contextual (maxDischargeDepth := 20) only [ok_measure, ok_modPort, ok_ite, ite_self, h]

theorem ok_syncSend (s : State) (h : Ok s) : Ok (syncSend s) := by
  unfold syncSend
  simp +contextual (maxDischargeDepth := 20) only [ok_modPort, ok_passNs, ok_foldl, implies_true, h]

theorem ok_identIn (p dev gm1 : Nat) (tag : Word) (s : State) (h : Ok s) : Ok (identIn p dev gm1 tag s) := by
  unfold identIn
  simp +contextual (maxDischargeDepth := 20) only [ok_causeEnds, ok_modPeer, ok_modPort, ok_onset, ok_ite, ite_self, h]


/-! ### Mailbox -/

theorem ok_mbxPut (bs : List Byte) (s : State) (h : Ok s) : Ok (mbxPut bs s) := by
  exact ok_mgt _ _ h fun hm => by
    rw [mgtOk_def] at hm ⊢
    exact ⟨wf_wrN _ _ _ hm.1, hm.2⟩

theorem ok_mbxEnd (result : Nat) (s : State) (h : Ok s) : Ok (mbxEnd result s) := by
  exact ok_sendVec _ _ (ok_mgt _ _ h fun hm => hm)

theorem ok_mbxFinish (offered : Bool) (body : State → State × Nat) (s : State) (h : Ok s) (hb : ∀ s, Ok s → Ok (body s).1) :
    Ok (mbxFinish offered body s) := by
  unfold mbxFinish
  have h1 : Ok (if s.rst.minimal && !offered then (s, rNotNow) else body s).1 := by
    rw [ok_ite_fst]
    simp only [hb, h, ite_self]
  refine ok_mbxEnd _ _ ?_
  generalize (if s.rst.minimal && !offered then (s, rNotNow) else body s) = q at h1 ⊢
  simp only [ok_ite, ok_fire, h1, h, ite_self]

theorem ok_mbxOverrun (s : State) (h : Ok s) : Ok (mbxOverrun s) := by
  exact ok_mgt _ _ h fun hm => hm

theorem ok_ring (s : State) (h : Ok s) : Ok (ring s) := by
  unfold ring
  split
  · exact ok_mbxOverrun _ h
  · exact ok_mgt _ _ h fun hm => hm

theorem ok_mbxRun (mine : Nat → Bool) (code : Option Nat) (offered : Bool) (body : State → State × Nat) (s : State) (h : Ok s)
    (hb : ∀ s, Ok s → Ok (body s).1) : Ok (mbxRun mine code offered body s) := by
  unfold mbxRun
  split
  · split
    · exact ok_mbxFinish _ _ _ h hb
    · exact ok_mbxOverrun _ h
  · split
    · exact h
    · refine ok_mbxFinish _ _ _ ?_ hb
      split
      · exact ok_mgt _ _ h fun hm => hm
      · exact h

theorem ok_answer (bs : State → List Byte) (s : State) (h : Ok s) : Ok (answer bs s).1 := ok_mbxPut _ _ h

theorem ok_mbxRead (size : Nat) (bytes : State → Nat → Nat → List Byte) (s : State) (h : Ok s) : Ok (mbxRead size bytes s).1 := by
  unfold mbxRead
  dsimp only
  split
  · exact ok_mbxPut _ _ h
  · exact h

theorem ok_retainedRead (s : State) (h : Ok s) : Ok (retainedRead s).1 := by
  unfold retainedRead
  have h1 := ok_mbxRead 0x10000 retainedBytes s h
  dsimp only
  split
  · exact h1
  · refine ok_fireAll _ _ (ok_mgt _ _ h1 fun hm => ?_)
    rw [mgtOk_def] at hm ⊢
    have hs := ((mgtOk_def _).1 ((ok_def s).1 h).2.2.2.2.1).2.1
    exact ⟨hm.1, wf_congr rfl rfl hs, hm.2.2⟩

theorem ok_flashRead (s : State) (h : Ok s) : Ok (flashRead s).1 := by
  unfold flashRead
  have h1 := ok_mbxRead 0x1000000 (fun s a n => flashBytes s.mgt a n) s h
  dsimp only
  split
  · exact h
  · exact h1

theorem ok_setAttempts (n : Nat) (s : State) (h : Ok s) : Ok (setAttempts n s) := by
  unfold setAttempts
  simp +contextual (maxDischargeDepth := 20) only [ok_leaf, h]

theorem ok_fwWrite (s : State) (h : Ok s) : Ok (fwWrite s).1 := by
  unfold fwWrite
  dsimp only
  split
  · split
    · exact h
    · refine ok_mgt _ _ h fun hm => mgtOk_program _ _ _ ?_
      split
      · exact mgtOk_erase _ _ hm
      · exact hm
  · exact h

theorem ok_fwVerify (s : State) (h : Ok s) : Ok (fwVerify s).1 := by
  unfold fwVerify
  split
  · exact h
  · exact ok_mgt _ _ h fun hm => hm

theorem ok_fwActivate (s : State) (h : Ok s) : Ok (fwActivate s).1 := by
  unfold fwActivate
  split
  · exact h
  split
  · exact h
  · exact ok_mgt _ _ h fun hm => mgtOk_writeDesc _ _ _ hm

theorem ok_fwConfirm (s : State) (h : Ok s) : Ok (fwConfirm s).1 := by
  unfold fwConfirm
  split
  · exact h
  split
  · exact h
  · exact ok_mgt _ _ h fun hm => mgtOk_writeDesc _ _ _ hm

theorem ok_blow (f : Otp → Otp) (s : State) (h : Ok s) : Ok (blow f s) := by
  unfold blow
  exact h

theorem ok_svnCommit (s : State) (h : Ok s) : Ok (svnCommit s).1 := by
  unfold svnCommit
  split
  · exact h
  · exact ok_blow _ _ h

theorem ok_lcAdvance (s : State) (h : Ok s) : Ok (lcAdvance s).1 := by
  unfold lcAdvance
  dsimp only
  repeat' split
  all_goals first | exact h | exact ok_blow _ _ h

theorem ok_keyProgram (s : State) (h : Ok s) : Ok (keyProgram s).1 := by
  unfold keyProgram
  dsimp only
  repeat' split
  all_goals first | exact h | exact ok_blow _ _ h

theorem ok_groupMap (s : State) (h : Ok s) : Ok (groupMap s).1 := by
  unfold groupMap
  split
  · exact ok_mbxPut _ _ h
  · exact h

theorem ok_ptpStatus (s : State) (h : Ok s) : Ok (ptpStatus s).1 := by
  unfold ptpStatus
  dsimp only
  exact ok_mk _ _ _ _ _ _ _ _ _ _ _ _ _ _ _ _ _ _ _ _ _ _ _ (ok_mbxPut _ _ (ok_bumpFree _ h)) rfl rfl rfl rfl rfl rfl

theorem ok_mbxBody (code : Nat) (s : State) (h : Ok s) : Ok ((mbxBody code).2 s).1 := by
  unfold mbxBody
  split
  · exact ok_answer _ _ h
  · exact ok_answer _ _ h
  · apply ok_mbxRead _ _ _ h
  · exact ok_retainedRead _ h
  · exact ok_setAttempts _ _ h
  · exact ok_fwWrite _ h
  · exact ok_fwVerify _ h
  · exact ok_fwActivate _ h
  · exact ok_fwConfirm _ h
  · exact ok_svnCommit _ h
  · exact ok_lcAdvance _ h
  · exact ok_keyProgram _ h
  · exact ok_groupMap _ h
  · exact ok_ptpStatus _ h
  · exact ok_flashRead _ h
  · exact h

theorem ok_mbxCommand (code : Nat) (s : State) (h : Ok s) : Ok (mbxCommand code s) := by
  exact ok_mbxRun _ _ _ _ _ h fun s hs => ok_mbxBody _ _ hs

theorem ok_mbxUnknown (s : State) (h : Ok s) : Ok (mbxUnknown s) := by
  exact ok_mbxRun _ _ _ _ _ h fun s hs => hs


/-! ### Recovery -/

theorem ok_hbWrite (v : Word) (s : State) (h : Ok s) : Ok (hbWrite v s) := by
  unfold hbWrite
  simp +contextual (maxDischargeDepth := 20) only [ok_ite, ite_self, ok_leaf, h]

theorem ok_hbExpiry (s : State) (h : Ok s) : Ok (hbExpiry s) := by
  unfold hbExpiry
  simp +contextual (maxDischargeDepth := 20) only [ok_fire, ok_passNs, ok_ite, ite_self, ok_leaf, h]

theorem ok_restartWrite (v : Word) (s : State) (h : Ok s) : Ok (restartWrite v s) := by
  unfold restartWrite
  simp +contextual (maxDischargeDepth := 20) only [ok_fenceDomain, ok_ite, ite_self, ok_foldl, implies_true, h]

theorem ok_forgetRequests (d : Nat) (s : State) (h : Ok s) : Ok (forgetRequests d s) := by
  unfold forgetRequests
  simp +contextual (maxDischargeDepth := 20) only [ok_leaf, h]

theorem ok_resetDomain (d : Nat) (s0 : State) (h0 : Ok s0) : Ok (resetDomain d s0) := by
  unfold resetDomain
  have h := ok_forgetRequests d _ h0
  generalize forgetRequests d s0 = s at h ⊢
  dsimp only
  split
  · exact ok_modCore _ _ _ h fun k hk => rfl
  have h' := (ok_def s).1 h
  split
  · exact (ok_def _).2 ⟨h'.1, h'.2.1, h'.2.2.1, rfl, h'.2.2.2.2⟩
  split
  · exact (ok_def _).2 ⟨h'.1, rfl, h'.2.2⟩
  split
  · exact (ok_def _).2 ⟨h'.1, h'.2.1, rfl, h'.2.2.2⟩
  split
  · split
    · exact ok_onset _ _ h
    · exact h
  · exact ok_freeHolds _ (ok_leaf _ _ _ _ _ _ _ _ _ _ _ _ _ _ _ _ _ (ok_modPort _ _ _ h))

theorem ok_reloadInto (d : Nat) (g : Staged) (s : State) (h : Ok s) : Ok (reloadInto d g s) := by
  unfold reloadInto
  split
  · exact ok_modCore _ _ _ h fun k hk => coreOk_loadCore _ _ _ _ hk
  · split <;> exact h

theorem ok_setPhase (d ph : Nat) (s : State) (h : Ok s) : Ok (setPhase d ph s) := by
  unfold setPhase
  simp +contextual (maxDischargeDepth := 20) only [ok_modDom, ok_traceDom, h]

theorem ok_passFence (d n : Nat) (s : State) (h : Ok s) : Ok (passFence d n s) := by
  unfold passFence
  simp +contextual (maxDischargeDepth := 20) only [ok_passNs, h]

theorem ok_drcBack (s : State) (h : Ok s) : Ok (drcBack s) := by
  unfold drcBack
  simp +contextual (maxDischargeDepth := 20) only [ok_unloadNow, ok_ite, ite_self, ok_leaf, h]

theorem ok_unfence (d : Nat) (s : State) (h : Ok s) : Ok (unfence d s) := by
  unfold unfence
  simp +contextual (maxDischargeDepth := 20) only [ok_drcBack, ok_modDom, ok_sendSide, ok_setPhase, ok_ite, ite_self, ok_leaf, h]

theorem ok_reloadStep (d : Nat) (s : State) (h : Ok s) : Ok (reloadStep d s) := by
  unfold reloadStep
  simp +contextual (maxDischargeDepth := 20) only [ok_fire, ok_passToCyc, ok_readRun, ok_reloadInto, ok_setPhase, ok_unfence, ok_ite, ite_self, ok_foldl, implies_true, h]

theorem ok_restartStep (d : Nat) (s : State) (h : Ok s) : Ok (restartStep d s) := by
  unfold restartStep
  simp +contextual (maxDischargeDepth := 20) only [ok_passToCyc, ok_reloadStep, ok_resetDomain, ok_setPhase, ok_unfence, ok_ite, ite_self, h]

theorem ok_restartDomain (d : Nat) (s : State) (h : Ok s) : Ok (restartDomain d s) := by
  unfold restartDomain
  simp +contextual (maxDischargeDepth := 20) only [ok_fenceDomain, ok_restartStep, ok_ite, ite_self, h]

theorem ok_drainTimeout (d : Nat) (s : State) (h : Ok s) : Ok (drainTimeout d s) := by
  unfold drainTimeout
  simp +contextual (maxDischargeDepth := 20) only [ok_fire, ok_passFence, ok_setPhase, ok_ite, ite_self, h]

theorem ok_restartFail (d : Nat) (s : State) (h : Ok s) : Ok (restartFail d s) := by
  unfold restartFail
  simp +contextual (maxDischargeDepth := 20) only [ok_fire, ok_passNs, ok_setPhase, ok_ite, ite_self, h]


/-! ### Tap -/

theorem ok_captureDr (tms tdi : Bool) (s : State) (h : Ok s) : Ok (captureDr tms tdi s) := by
  unfold captureDr
  repeat' split
  all_goals first | exact h | exact ok_updateDr _ h | exact ok_bumpFree _ h

theorem ok_tapRise (tms tdi : Bool) (s : State) (h : Ok s) : Ok (tapRise tms tdi s) := by
  unfold tapRise
  have key : ∀ s1 t, Ok s1 → Ok { s1 with tap := t } := fun s1 t h => h
  refine key _ _ ?_
  split
  · exact ok_captureDr _ _ _ h
  all_goals exact h

theorem ok_updateDr (s : State) (h : Ok s) : Ok (updateDr s) := by
  unfold updateDr
  repeat' split
  all_goals first | exact h | exact ok_updateDr _ h | exact ok_bumpFree _ h

theorem ok_tapFall (s : State) (h : Ok s) : Ok (tapFall s) := by
  unfold tapFall
  repeat' split
  all_goals first | exact h | exact ok_updateDr _ h | exact ok_bumpFree _ h

theorem ok_tapReset (s : State) (h : Ok s) : Ok (tapReset s) := by
  unfold tapReset
  repeat' split
  all_goals first | exact h | exact ok_updateDr _ h | exact ok_bumpFree _ h

theorem ok_tckEdge (rising tms tdi trstN : Bool) (s : State) (h : Ok s) : Ok (tckEdge rising tms tdi trstN s) := by
  unfold tckEdge
  simp +contextual (maxDischargeDepth := 20) only [ok_tapFall, ok_tapReset, ok_tapRise, ok_ite, ite_self, h]


/-! ### Reset -/

theorem ok_heldThrough (s : State) (h : Ok s) : Ok (heldThrough s) := by
  have h' := (ok_def s).1 h
  have hm := (mgtOk_def _).1 h'.2.2.2.2.1
  refine (ok_def _).2 ⟨((ok_def State.reset).1 ok_reset).1, rfl, h'.2.2.1, rfl, (mgtOk_def _).2 ⟨rfl, rfl, hm.2.2⟩, h'.2.2.2.2.2⟩

theorem ok_assertPoint (s : State) (h : Ok s) : Ok (assertPoint s) := by
  unfold assertPoint
  (repeat' split) <;> first | (simp +contextual (maxDischargeDepth := 20) only []; done) | (refine ok_mk _ _ _ _ _ _ _ _ _ _ _ _ _ _ _ _ _ _ _ _ _ _ _ ?_ rfl rfl rfl rfl rfl rfl; simp +contextual (maxDischargeDepth := 20) only [ok_heldThrough, h]; done) | (simp +contextual (maxDischargeDepth := 20) only [ok_heldThrough, ok_ite, ite_self, ok_foldl, implies_true, ok_leaf, coreOk_mk, h]; refine ok_mk _ _ _ _ _ _ _ _ _ _ _ _ _ _ _ _ _ _ _ _ _ _ _ ?_ rfl rfl rfl rfl rfl rfl; simp +contextual (maxDischargeDepth := 20) only [ok_heldThrough, ok_ite, ite_self, ok_foldl, implies_true, ok_leaf, coreOk_mk, h]; done)

theorem ok_resetAssert (s : State) (h : Ok s) : Ok (resetAssert s) := by
  unfold resetAssert
  simp +contextual (maxDischargeDepth := 20) only [ok_assertPoint, ok_ite, ite_self, ok_leaf, h]

theorem ok_shortPulse (s : State) (h : Ok s) : Ok (shortPulse s) := by
  unfold shortPulse
  simp +contextual (maxDischargeDepth := 20) only [ok_fire, ok_lifeAdd, ok_leaf, h]

theorem ok_detectorAssert (s : State) (h : Ok s) : Ok (detectorAssert s) := by
  have h' := (ok_def s).1 h
  have hm := (mgtOk_def _).1 h'.2.2.2.2.1
  refine (ok_def _).2 ⟨((ok_def State.reset).1 ok_reset).1, rfl, rfl, rfl, (mgtOk_def _).2 ⟨rfl, rfl, rfl, hm.2.2.2.1, rfl, rfl⟩, h'.2.2.2.2.2⟩

theorem ok_bootSlot (s : State) (a : Nat) (h : MgtOk s.mgt) : MgtOk (bootSlot s a).1 := by
  have h1 : ∀ (c : Prop) [Decidable c] p, MgtOk (if c then writeDesc p false s.mgt else s.mgt) := by
    intro c _ p
    split
    · exact mgtOk_writeDesc _ _ _ h
    · exact h
  unfold bootSlot
  generalize bootChoice s.mgt = q
  obtain ⟨p0, t0⟩ := q
  dsimp only
  generalize (if t0 && decide (2 ≤ a) then 1 - p0 else p0) = pref
  cases slotBoots s pref
  · cases slotBoots s (1 - pref) <;> exact h1 _ _
  · exact h1 _ _

theorem ok_enterMinimal (s : State) (h : Ok s) : Ok (enterMinimal s) := by
  unfold enterMinimal
  simp +contextual (maxDischargeDepth := 20) only [ok_lifeAdd, ok_leaf, h]

theorem ok_restoreTime (s : State) (h : Ok s) : Ok (restoreTime s) := by
  unfold restoreTime
  (repeat' split) <;> simp +contextual (maxDischargeDepth := 20) only [ok_timeStep, ok_leaf, h]

theorem ok_alignTo (l : List Word) (s : State) (h : Ok s) : Ok (alignTo l s).1 := by
  induction l generalizing s with
  | nil => exact h
  | cons e l ih =>
    unfold alignTo
    dsimp only
    split
    · exact ok_measure _ _ h
    · exact ih _ (ok_measure _ _ h)

theorem ok_alignGroup (group : StartIn) (s : State) (h : Ok s) : Ok (alignGroup group s).1 := by
  unfold alignGroup
  dsimp only
  split
  · exact h
  · have h1 := fun p => ok_alignTo group.offsets { s with time := s.time.aligning p } h
    split
    · exact ok_leaf _ _ _ _ _ _ _ _ _ _ _ _ _ _ _ _ _ (h1 _)
    · exact h1 _

theorem ok_resumeFrom (r : RetRec) (s : State) (h : Ok s) : Ok (resumeFrom r s) := by
  unfold resumeFrom
  dsimp only
  split
  · exact ok_fire _ _ (ok_mgt _ _ h fun hm => hm)
  · have h1 := ok_finishLoad { s with glb := { s.glb with patState := 2, patternId := (stagedAt s s.glb.patAddr.toNat).id, pat := (stagedAt s s.glb.patAddr.toNat).allItems, imgAddr := (stagedAt s s.glb.patAddr.toNat).a } } h
    split
    · exact ok_leaf _ _ _ _ _ _ _ _ _ _ _ _ _ _ _ _ _ h1
    · exact h1

theorem ok_resume (group : StartIn) (r : RetRec) (s : State) (h : Ok s) : Ok (resume group r s) := by
  unfold resume
  have h1 := ok_alignGroup group s h
  dsimp only
  split
  · exact ok_resumeFrom _ _ h1
  · exact ok_leaf _ _ _ _ _ _ _ _ _ _ _ _ _ _ _ _ _ h1

theorem ok_trainDram (s : State) (h : Ok s) : Ok (trainDram s) := by
  have h' := (ok_def s).1 h
  have h1 : Ok { s with
      drc := { s.drc with mem := if !s.rst.cause then {} else if s.drc.selfRefresh then s.drc.mem else { fill := .free s.freeSeq }, trained := true, selfRefresh := false }
      rst := { s.rst with srAtRelease := s.drc.selfRefresh, phase := 3 } } := by
    refine (ok_def _).2 ⟨h'.1, h'.2.1, ?_, h'.2.2.2⟩
    dsimp only
    split
    · rfl
    · split
      · exact h'.2.2.1
      · rfl
  unfold trainDram
  dsimp only
  split
  · exact ok_bumpFree _ h1
  · exact h1

theorem ok_normalStart (group : StartIn) (s : State) (h : Ok s) : Ok (normalStart group s) := by
  unfold normalStart
  have h1 := ok_trainDram s h
  have h2 := ok_restoreTime _ h1
  dsimp only
  split
  · split
    · exact ok_resume _ _ _ h2
    · exact h2
  · exact h1

theorem ok_countAttempt (a : Nat) (s : State) (h : Ok s) : Ok (countAttempt a s) := by
  unfold countAttempt
  simp +contextual (maxDischargeDepth := 20) only [ok_setAttempts, ok_ite, ite_self, h]

theorem ok_boot (group : StartIn) (s : State) (h : Ok s) : Ok (boot group s) := by
  unfold boot
  dsimp only
  have h1 := ok_countAttempt (attempts s) { s with rst := { s.rst with attemptsAtStart := attempts s } } h
  generalize countAttempt (attempts s) { s with rst := { s.rst with attemptsAtStart := attempts s } } = u at h1 ⊢
  have h0 : Ok (if u.mgt.flashBad then fire { b := bMGT, src := 8 } u else u) := by
    split
    · exact ok_fire _ _ h1
    · exact h1
  generalize (if u.mgt.flashBad then fire { b := bMGT, src := 8 } u else u) = v at h0 ⊢
  have h2 : Ok (if attempts s ≠ 0 then fire { b := bRST, src := 1 } (lifeAdd 488 4 1 v) else v) := by
    split
    · exact ok_fire _ _ (ok_lifeAdd _ _ _ _ h0)
    · exact h0
  generalize (if attempts s ≠ 0 then fire { b := bRST, src := 1 } (lifeAdd 488 4 1 v) else v) = t at h2 ⊢
  split
  · exact ok_enterMinimal _ h2
  · have hm := ok_bootSlot t (attempts s) ((ok_def _).1 h2).2.2.2.2.1
    generalize bootSlot t (attempts s) = q at hm ⊢
    obtain ⟨m, o, b1, b2⟩ := q
    cases o with
    | some slot =>
      refine ok_normalStart _ _ (ok_mgt _ _ h2 fun _ => ?_)
      rw [mgtOk_def] at hm ⊢
      exact ⟨hm.1, wf_store _ _ _ _ hm.2.1, hm.2.2⟩
    | none => exact ok_enterMinimal _ (ok_mgt _ _ h2 fun _ => hm)

theorem ok_outOfReset (s : State) (h : Ok s) : Ok (outOfReset s) := by
  unfold outOfReset
  exact ok_lifeAdd _ _ _ _ (ok_mgt _ _ h fun hm => mgtOk_lifeStart _ hm)

theorem ok_release (group : StartIn) (s : State) (h : Ok s) : Ok (release group s) := by
  exact ok_settle _ (ok_boot _ _ (ok_outOfReset _ h))

theorem ok_resetRelease (hold : Word) (group : StartIn) (s : State) (h : Ok s) : Ok (resetRelease hold group s) := by
  unfold resetRelease
  simp +contextual (maxDischargeDepth := 20) only [ok_release, ok_ite, ite_self, ok_leaf, h]

theorem ok_detectorRelease (dram32 : Bool) (out : List (Fin 12)) (s : State) (h : Ok s) : Ok (detectorRelease dram32 out s) := by
  unfold detectorRelease
  have h1 : Ok { s with rst := { s.rst with porOn := false, monOut := out.map Fin.val }, drc := { s.drc with attached := dram32 } } := h
  dsimp only
  split
  · exact h
  · split
    · exact ok_release _ _ h1
    · exact h1

theorem ok_xtalLoss (s : State) (h : Ok s) : Ok (xtalLoss s) := by
  unfold xtalLoss
  simp +contextual (maxDischargeDepth := 20) only [ok_heldThrough, ok_ite, ite_self, ok_leaf, h]

theorem ok_xtalReturn (group : StartIn) (s : State) (h : Ok s) : Ok (xtalReturn group s) := by
  unfold xtalReturn
  simp +contextual (maxDischargeDepth := 20) only [ok_release, ok_ite, ite_self, ok_leaf, h]

theorem ok_startLimit (s : State) (h : Ok s) : Ok (startLimit s) := by
  unfold startLimit
  simp +contextual (maxDischargeDepth := 20) only [ok_passNs, ok_ite, ite_self, ok_leaf, h]

theorem ok_pinHoldRel (s : State) (h : Ok s) : Ok (pinHoldRel s) := by
  unfold pinHoldRel
  simp +contextual (maxDischargeDepth := 20) only [ok_leaf, h]


/-! ### Monitors -/

theorem ok_spoilIntake (a : Nat) (s : State) (h : Ok s) : Ok (spoilIntake a s) := by
  unfold spoilIntake
  dsimp only
  repeat' split
  all_goals exact h

theorem ok_markFrame (m : ScrubMem) (bank : Nat) (s : State) (h : Ok s) : Ok (markFrame m bank s) := by
  unfold markFrame
  exact ok_setMem _ _ _ h (wf_congr rfl rfl (ok_memOf h _))

theorem ok_scrubWord (m : ScrubMem) (bank : Nat) (found : EccFind) (s : State) (h : Ok s) : Ok (scrubWord m bank found s) := by
  unfold scrubWord
  dsimp only
  refine ok_fireAll _ _ (ok_countAccess _ _ _ _ _ ?_)
  have h1 := fun (id : MemId) (x y : List Nat) => ok_setMem id _ s h (wf_congr (n := { memOf s id with ce := x, ue := y }) rfl rfl (ok_memOf h _))
  have h2 := fun (id id2 : MemId) (x y : List Nat) (z : List Nat) =>
    ok_setMem id2 _ _ (h1 id x y) (wf_congr (n := { memOf (setMem id { memOf s id with ce := x, ue := y } s) id2 with scrubAt := z }) rfl rfl (ok_memOf (h1 id x y) _))
  split
  · exact ok_spoilIntake _ _ (h2 _ _ _ _ _)
  · exact h2 _ _ _ _ _

theorem ok_scrubCycle (m : ScrubMem) (bank : Nat) (found : EccFind) (s : State) (h : Ok s) : Ok (scrubCycle m bank found s) := by
  unfold scrubCycle
  dsimp only
  split
  · exact h
  · have h1 := ok_markFrame m bank _ (ok_passToCyc s (nextFrame s m bank) h)
    split
    · exact ok_countAccess _ _ _ _ _ (ok_setMem _ _ _ h1 (wf_congr rfl rfl (ok_memOf h1 _)))
    · exact ok_scrubWord _ _ _ _ h1

theorem ok_patrolScrub (ch : Nat) (found : EccFind) (s : State) (h : Ok s) : Ok (patrolScrub ch found s) := by
  unfold patrolScrub
  dsimp only
  split
  · exact h
  · have h1 := (ok_def _).1 (ok_passNs s (patrolWait s ch) h)
    exact ok_fireAll _ _ (ok_countAccess _ _ _ _ _ ((ok_def _).2 ⟨h1.1, h1.2.1, wf_congr rfl rfl h1.2.2.1, h1.2.2.2⟩))

theorem ok_mgtScrub (word : Nat) (found : EccFind) (s : State) (h : Ok s) : Ok (mgtScrub word found s) := by
  unfold mgtScrub
  dsimp only
  split
  · refine ok_fire _ _ (ok_mgt _ _ h fun hm => ?_)
    exact hm
  · split
    · exact ok_fire _ _ h
    · exact h

theorem ok_paritySweep (bad : Bool) (s : State) (h : Ok s) : Ok (paritySweep bad s) := by
  unfold paritySweep
  simp +contextual (maxDischargeDepth := 20) only [ok_fire, ok_ite, ite_self, ok_leaf, h]

theorem ok_mirrorState (s : State) (h : Ok s) : Ok (mirrorState s) := by
  unfold mirrorState
  (repeat' split) <;> first | (simp +contextual (maxDischargeDepth := 20) only []; done) | (refine ok_mk _ _ _ _ _ _ _ _ _ _ _ _ _ _ _ _ _ _ _ _ _ _ _ ?_ rfl rfl rfl rfl rfl rfl; simp +contextual (maxDischargeDepth := 20) only [ok_withItems, h]; done) | (simp +contextual (maxDischargeDepth := 20) only [ok_withItems, ok_ite, ite_self, ok_foldl, implies_true, ok_leaf, coreOk_mk, h]; refine ok_mk _ _ _ _ _ _ _ _ _ _ _ _ _ _ _ _ _ _ _ _ _ _ _ ?_ rfl rfl rfl rfl rfl rfl; simp +contextual (maxDischargeDepth := 20) only [ok_withItems, ok_ite, ite_self, ok_foldl, implies_true, ok_leaf, coreOk_mk, h]; done)

theorem ok_cfgReadback (upset : Option Nat) (s : State) (h : Ok s) : Ok (cfgReadback upset s) := by
  unfold cfgReadback
  dsimp only
  split
  · exact h
  · have h1 := ok_passToOff s (maxN ((List.range 4).map (settleNs s))) h
    generalize passToOff s (maxN ((List.range 4).map (settleNs s))) = t at h1 ⊢
    have h2 : Ok { t with glb := { t.glb with readbackAt := t.time.tick + 1 } } := h1
    split
    · exact ok_fire _ _ h2
    · exact h2

theorem ok_voltage (m : Nat) (mv : BitVec 16) (s : State) (h : Ok s) : Ok (voltage m mv s) := by
  unfold voltage
  have h1 : Ok { s with mgt := { s.mgt with vmon := putAt 0 s.mgt.vmon m (BitVec.ofNat 32 (2 ^ 31 + mv.toNat)) } } := h
  dsimp only
  split
  · exact ok_onset _ _ h1
  · split
    · exact ok_causeEnds _ _ _ h1
    · exact h1

theorem ok_bootVoltage (m : Nat) (mv : BitVec 16) (s : State) (h : Ok s) : Ok (bootVoltage m mv s) := by
  unfold bootVoltage
  dsimp only
  have h1 : ∀ v l, Ok { s with mgt := { s.mgt with vmon := v }, rst := { s.rst with monOut := l } } := fun v l => ok_mgt { s with rst := { s.rst with monOut := l } } _ h fun hm => hm
  split
  · exact h
  · split
    · split
      · exact ok_release _ _ (h1 _ _)
      · exact h1 _ _
    · split
      · exact ok_settle _ (ok_onset _ _ (ok_outOfReset _ (h1 _ _)))
      · exact h1 _ s.rst.monOut

theorem ok_temperature (vals : List (BitVec 16)) (s : State) (h : Ok s) : Ok (temperature vals s) := by
  unfold temperature
  dsimp only
  have h1 := ok_passNs s (50000 - (s.clk.ns - s.rst.releaseAt) % 50000) h
  generalize passNs s (50000 - (s.clk.ns - s.rst.releaseAt) % 50000) = t at h1 ⊢
  have h2 : Ok { t with mgt := { t.mgt with temps := vals.map fun v => BitVec.ofNat 32 (2 ^ 31 + v.toNat) } } := h1
  simp +contextual (maxDischargeDepth := 20) only [ok_ite, ok_onset, ok_causeEnds, h2, ite_self]

theorem ok_pllLock (locked : Bool) (s : State) (h : Ok s) : Ok (pllLock locked s) := by
  unfold pllLock
  simp +contextual (maxDischargeDepth := 20) only [ok_causeEnds, ok_onset, ok_ite, ite_self, ok_leaf, h]

theorem ok_lockstep (c : Nat) (s : State) (h : Ok s) : Ok (lockstep c s) := by
  unfold lockstep
  simp +contextual (maxDischargeDepth := 20) only [ok_ite, h]
  (repeat' split) <;> first | (simp +contextual (maxDischargeDepth := 20) only [ok_endRun, ok_fire, ok_swatchFailed, ok_swatchOver, ok_voidParts, h]; done) | (refine ok_mk _ _ _ _ _ _ _ _ _ _ _ _ _ _ _ _ _ _ _ _ _ _ _ ?_ rfl rfl rfl rfl rfl rfl; simp +contextual (maxDischargeDepth := 20) only [ok_endRun, ok_fire, ok_swatchFailed, ok_swatchOver, ok_voidParts, ok_ite, ite_self, ok_foldl, implies_true, ok_leaf, coreOk_mk, h]; done) | (simp +contextual (maxDischargeDepth := 20) only [ok_endRun, ok_fire, ok_swatchFailed, ok_swatchOver, ok_voidParts, ok_ite, ite_self, ok_foldl, implies_true, ok_leaf, coreOk_mk, h]; refine ok_mk _ _ _ _ _ _ _ _ _ _ _ _ _ _ _ _ _ _ _ _ _ _ _ ?_ rfl rfl rfl rfl rfl rfl; simp +contextual (maxDischargeDepth := 20) only [ok_endRun, ok_fire, ok_swatchFailed, ok_swatchOver, ok_voidParts, ok_ite, ite_self, ok_foldl, implies_true, ok_leaf, coreOk_mk, h]; done)


/-! ### Peers -/

theorem ok_sideAckIn (p origin mseq : Nat) (s : State) (h : Ok s) : Ok (sideAckIn p origin mseq s) := by
  unfold sideAckIn
  simp +contextual (maxDischargeDepth := 20) only [ok_modPort, ok_ite, ite_self, h]

theorem ok_sideTimeout (p : Nat) (s : State) (h : Ok s) : Ok (sideTimeout p s) := by
  unfold sideTimeout
  (repeat' split) <;> simp +contextual (maxDischargeDepth := 20) only [ok_fire, ok_modPort, ok_passNs, ok_retrain, ok_slot15, h]

theorem ok_forwardSide (p : Nat) (body : BitVec 128) (s : State) (h : Ok s) : Ok (forwardSide p body s) := by
  unfold forwardSide
  (repeat' split) <;> simp +contextual (maxDischargeDepth := 20) only [ok_pushSide, ok_ite, ite_self, ok_foldl, implies_true, h]

theorem ok_fencePeer (x : Nat) (f : Peer → Peer) (s : State) (h : Ok s) : Ok (fencePeer x f s) := by
  unfold fencePeer
  simp +contextual (maxDischargeDepth := 20) only [ok_denyReq, ok_modPeer, ok_foldl, implies_true, h]

theorem ok_depVoid (x k : Nat) (s : State) (h : Ok s) : Ok (depVoid x k s) := by
  unfold depVoid
  simp +contextual (maxDischargeDepth := 20) only [ok_voidAt, ok_ite, ite_self, h]

theorem ok_sideAct (kind x dom tick : Nat) (s : State) (h : Ok s) : Ok (sideAct kind x dom tick s) := by
  unfold sideAct
  (repeat' split) <;> simp +contextual (maxDischargeDepth := 20) only [ok_depVoid, ok_fencePeer, ok_modPeer, h]

theorem ok_sideIn (p kind : Nat) (body : BitVec 128) (s : State) (h : Ok s) : Ok (sideIn p kind body s) := by
  unfold sideIn
  simp +contextual (maxDischargeDepth := 20) only [ok_forwardSide, ok_logSide, ok_modPeer, ok_sideAct, ok_slot15, ok_ite, ite_self, ok_leaf, h]


/-! ### RegWrite -/

theorem ok_unlessLive (o : Nat) (f : State → State) (s : State) (h : Ok s) (hf : ∀ s, Ok s → Ok (f s)) : Ok (unlessLive o f s) := by
  unfold unlessLive
  simp only [ok_ite, ok_liveWrite, hf, h, ite_self]

theorem ok_patCtrlWrite (v : Word) (s : State) (h : Ok s) : Ok (patCtrlWrite v s) := by
  unfold patCtrlWrite
  simp +contextual (maxDischargeDepth := 20) only [ok_loadWrite, ok_unloadWrite, ok_ite, ite_self, h]

theorem ok_writeGlb (r : Nat) (v : Word) (s : State) (h : Ok s) : Ok (writeGlb r v s) := by
  unfold writeGlb
  (repeat' split) <;> simp +contextual (maxDischargeDepth := 20) only [ok_patCtrlWrite, ok_unlessLive, implies_true, ok_leaf, h]

theorem ok_writeTime (r : Nat) (v : Word) (s : State) (h : Ok s) : Ok (writeTime r v s) := by
  unfold writeTime
  repeat' split
  · exact ok_offsetIn _ _ h
  · exact ok_timeStep _ _ _ h
  · exact ok_timeStep _ _ _ h
  · exact ok_unlessLive _ _ _ h fun s hs => hs
  · exact h

theorem ok_mbxWrite (f : Mgt → Mgt) (s : State) (h : Ok s) (hf : ∀ m, MgtOk m → MgtOk (f m)) : Ok (mbxWrite f s) := by
  refine ok_mgt _ _ h fun hm => ?_
  split
  · exact hm
  · exact hf _ hm

theorem ok_doorbell (v : Word) (s : State) (h : Ok s) : Ok (doorbell v s) := by
  unfold doorbell
  simp +contextual (maxDischargeDepth := 20) only [ok_ring, ok_ite, ite_self, h]

theorem ok_writeMgt (r : Nat) (v : Word) (s : State) (h : Ok s) : Ok (writeMgt r v s) := by
  unfold writeMgt
  split
  · exact ok_mbxWrite _ _ h fun m hm => hm
  · exact ok_doorbell _ _ h
  · exact ok_mgt _ _ h fun hm => hm
  · split
    · exact ok_mbxWrite _ _ h fun m hm => hm
    · split
      · refine ok_mbxWrite _ _ h fun m hm => ?_
        rw [mgtOk_def] at hm ⊢
        exact ⟨wf_wrN _ _ _ hm.1, hm.2⟩
      · exact h

theorem ok_writeRst (r : Nat) (v : Word) (s : State) (h : Ok s) : Ok (writeRst r v s) := by
  unfold writeRst
  (repeat' split) <;> simp +contextual (maxDischargeDepth := 20) only [ok_pinHoldRel, ok_leaf, h]

theorem ok_writeObs (r : Nat) (v : Word) (s : State) (h : Ok s) : Ok (writeObs r v s) := by
  unfold writeObs
  simp +contextual (maxDischargeDepth := 20) only [ok_leaf, h]

theorem ok_writeDru (r : Nat) (v : Word) (s : State) (h : Ok s) : Ok (writeDru r v s) := by
  unfold writeDru
  simp +contextual (maxDischargeDepth := 20) only [ok_hbWrite, ok_restartWrite, ok_ite, ite_self, h]

theorem ok_writeMsix (r : Nat) (v : Word) (s : State) (h : Ok s) : Ok (writeMsix r v s) := by
  unfold writeMsix
  simp +contextual (maxDischargeDepth := 20) only [ok_flushVecs, ok_ite, ite_self, ok_leaf, h]

theorem ok_writeFlt (b r : Nat) (v : Word) (s : State) (h : Ok s) : Ok (writeFlt b r v s) := by
  unfold writeFlt
  (repeat' split) <;> simp +contextual (maxDischargeDepth := 20) only [ok_forceWrite, ok_sevWrite, ok_statWrite, h]

theorem ok_writeReg (o : Nat) (v : Word) (s0 : State) (h : Ok s0) : Ok (writeReg o v s0) := by
  unfold writeReg
  (repeat' split) <;> simp +contextual (maxDischargeDepth := 20) only [ok_flushWrite, ok_freshReg, ok_injWrite, ok_ringWriteReg, ok_rwsWrite, ok_subWriteReg, ok_writeDru, ok_writeFlt, ok_writeGlb, ok_writeMgt, ok_writeMsix, ok_writeObs, ok_writeRst, ok_writeTime, h]

theorem ok_writeRegs (o : Nat) (l : List Word) (s : State) (h : Ok s) : Ok (writeRegs o l s) := by
  induction l generalizing o s with
  | nil => exact h
  | cons v l ih => exact ih _ _ (ok_writeReg _ _ _ h)

theorem ok_regWrite (mgt : Bool) (o : Nat) (vs : List Word) (full : Bool) (s : State) (h : Ok s) : Ok (regWrite mgt o vs full s) := by
  unfold regWrite
  simp only [ok_ite, ok_writeRegs, ok_postedUr, h, ite_self]


/-! ### Requests -/

theorem ok_sampleAct (c : Nat) (req : BitVec 3) (token : BitVec 4) (e : QEnt) (s : State) (h : Ok s) : Ok (sampleAct c req token e s) := by
  unfold sampleAct
  simp +contextual (maxDischargeDepth := 20) only [ok_addInfl, ok_modRsmp, ok_orFenced, implies_true, h]

theorem ok_keyedAct (c : Nat) (q : QId) (kdesc : BitVec 13) (token : BitVec 4) (e : QEnt) (s : State) (h : Ok s) : Ok (keyedAct c q kdesc token e s) := by
  unfold keyedAct
  simp +contextual (maxDischargeDepth := 20) only [ok_addInfl, ok_orFenced, implies_true, ok_leaf, h]

theorem ok_sampleStart (u : Nat) (s : State) (h : Ok s) : Ok (sampleStart u s) := by
  unfold sampleStart
  simp +contextual (maxDischargeDepth := 20) only [ok_ite, h]
  (repeat' split) <;> first | (simp +contextual (maxDischargeDepth := 20) only [ok_modRsmp, ok_passToCyc, h]; done) | (refine ok_mk _ _ _ _ _ _ _ _ _ _ _ _ _ _ _ _ _ _ _ _ _ _ _ ?_ rfl rfl rfl rfl rfl rfl; simp +contextual (maxDischargeDepth := 20) only [ok_modRsmp, ok_passToCyc, ok_ite, ite_self, ok_foldl, implies_true, ok_leaf, coreOk_mk, h]; done) | (simp +contextual (maxDischargeDepth := 20) only [ok_modRsmp, ok_passToCyc, ok_ite, ite_self, ok_foldl, implies_true, ok_leaf, coreOk_mk, h]; refine ok_mk _ _ _ _ _ _ _ _ _ _ _ _ _ _ _ _ _ _ _ _ _ _ _ ?_ rfl rfl rfl rfl rfl rfl; simp +contextual (maxDischargeDepth := 20) only [ok_modRsmp, ok_passToCyc, ok_ite, ite_self, ok_foldl, implies_true, ok_leaf, coreOk_mk, h]; done)

theorem ok_requestOver (q : QId) (c runId seq bundle token : Nat) (s : State) (h : Ok s) : Ok (requestOver q c runId seq bundle token s) := by
  unfold requestOver
  (repeat' split) <;> simp +contextual (maxDischargeDepth := 20) only [ok_commit, ok_completeEntry, h]

theorem ok_sampleFree (u : Nat) (r : SReq) (completed : Bool) (s : State) (h : Ok s) : Ok (sampleFree u r completed s) := by
  unfold sampleFree
  simp +contextual (maxDischargeDepth := 20) only [ok_modRsmp, h]

theorem ok_sampleDone (u : Nat) (diff : Option Nat) (s : State) (h : Ok s) : Ok (sampleDone u diff s) := by
  unfold sampleDone
  simp +contextual (maxDischargeDepth := 20) only []
  (repeat' split) <;> first | (simp +contextual (maxDischargeDepth := 20) only [ok_consumed, ok_fire, ok_passToCyc, ok_requestOver, ok_sampleFree, ok_samplePositions, h]; done) | (refine ok_mk _ _ _ _ _ _ _ _ _ _ _ _ _ _ _ _ _ _ _ _ _ _ _ ?_ rfl rfl rfl rfl rfl rfl; simp +contextual (maxDischargeDepth := 20) only [ok_consumed, ok_fire, ok_passToCyc, ok_requestOver, ok_sampleFree, ok_samplePositions, ok_ite, ite_self, ok_foldl, implies_true, ok_leaf, coreOk_mk, h]; done) | (simp +contextual (maxDischargeDepth := 20) only [ok_consumed, ok_fire, ok_passToCyc, ok_requestOver, ok_sampleFree, ok_samplePositions, ok_ite, ite_self, ok_foldl, implies_true, ok_leaf, coreOk_mk, h]; refine ok_mk _ _ _ _ _ _ _ _ _ _ _ _ _ _ _ _ _ _ _ _ _ _ _ ?_ rfl rfl rfl rfl rfl rfl; simp +contextual (maxDischargeDepth := 20) only [ok_consumed, ok_fire, ok_passToCyc, ok_requestOver, ok_sampleFree, ok_samplePositions, ok_ite, ite_self, ok_foldl, implies_true, ok_leaf, coreOk_mk, h]; done)

theorem ok_samplePause (u : Nat) (s : State) (h : Ok s) : Ok (samplePause u s) := by
  unfold samplePause
  simp +contextual (maxDischargeDepth := 20) only [ok_ite, h]
  (repeat' split) <;> first | (simp +contextual (maxDischargeDepth := 20) only [ok_modRsmp, ok_passToOff, ok_samplerAdvance, h]; done) | (refine ok_mk _ _ _ _ _ _ _ _ _ _ _ _ _ _ _ _ _ _ _ _ _ _ _ ?_ rfl rfl rfl rfl rfl rfl; simp +contextual (maxDischargeDepth := 20) only [ok_modRsmp, ok_passToOff, ok_samplerAdvance, ok_ite, ite_self, ok_foldl, implies_true, ok_leaf, coreOk_mk, h]; done) | (simp +contextual (maxDischargeDepth := 20) only [ok_modRsmp, ok_passToOff, ok_samplerAdvance, ok_ite, ite_self, ok_foldl, implies_true, ok_leaf, coreOk_mk, h]; refine ok_mk _ _ _ _ _ _ _ _ _ _ _ _ _ _ _ _ _ _ _ _ _ _ _ ?_ rfl rfl rfl rfl rfl rfl; simp +contextual (maxDischargeDepth := 20) only [ok_modRsmp, ok_passToOff, ok_samplerAdvance, ok_ite, ite_self, ok_foldl, implies_true, ok_leaf, coreOk_mk, h]; done)

theorem ok_keyedStart (s : State) (h : Ok s) : Ok (keyedStart s) := by
  unfold keyedStart
  simp +contextual (maxDischargeDepth := 20) only [ok_ite, h]
  (repeat' split) <;> first | (simp +contextual (maxDischargeDepth := 20) only [ok_passToCyc, ok_readRun, ok_leaf, h]; done) | (refine ok_mk _ _ _ _ _ _ _ _ _ _ _ _ _ _ _ _ _ _ _ _ _ _ _ ?_ rfl rfl rfl rfl rfl rfl; simp +contextual (maxDischargeDepth := 20) only [ok_passToCyc, ok_readRun, ok_ite, ite_self, ok_foldl, implies_true, ok_leaf, coreOk_mk, h]; done) | (simp +contextual (maxDischargeDepth := 20) only [ok_passToCyc, ok_readRun, ok_ite, ite_self, ok_foldl, implies_true, ok_leaf, coreOk_mk, h]; refine ok_mk _ _ _ _ _ _ _ _ _ _ _ _ _ _ _ _ _ _ _ _ _ _ _ ?_ rfl rfl rfl rfl rfl rfl; simp +contextual (maxDischargeDepth := 20) only [ok_passToCyc, ok_readRun, ok_ite, ite_self, ok_foldl, implies_true, ok_leaf, coreOk_mk, h]; done)

theorem ok_keyedDone (s : State) (h : Ok s) : Ok (keyedDone s) := by
  unfold keyedDone
  simp +contextual (maxDischargeDepth := 20) only []
  (repeat' split) <;> first | (simp +contextual (maxDischargeDepth := 20) only [ok_passToCyc, ok_requestOver, ok_leaf, h]; done) | (refine ok_mk _ _ _ _ _ _ _ _ _ _ _ _ _ _ _ _ _ _ _ _ _ _ _ ?_ rfl rfl rfl rfl rfl rfl; simp +contextual (maxDischargeDepth := 20) only [ok_passToCyc, ok_requestOver, ok_ite, ite_self, ok_foldl, implies_true, ok_leaf, coreOk_mk, h]; done) | (simp +contextual (maxDischargeDepth := 20) only [ok_passToCyc, ok_requestOver, ok_ite, ite_self, ok_foldl, implies_true, ok_leaf, coreOk_mk, h]; refine ok_mk _ _ _ _ _ _ _ _ _ _ _ _ _ _ _ _ _ _ _ _ _ _ _ ?_ rfl rfl rfl rfl rfl rfl; simp +contextual (maxDischargeDepth := 20) only [ok_passToCyc, ok_requestOver, ok_ite, ite_self, ok_foldl, implies_true, ok_leaf, coreOk_mk, h]; done)


/-! ### Sequence -/

theorem ok_setCnt (c i : Nat) (v : Word) (s : State) (h : Ok s) : Ok (setCnt c i v s) := by
  unfold setCnt
  simp +contextual (maxDischargeDepth := 20) only [ok_modCore, implies_true, coreOk_mk, h]

theorem ok_setPf (c i : Nat) (b : Bool) (s : State) (h : Ok s) : Ok (setPf c i b s) := by
  unfold setPf
  simp +contextual (maxDischargeDepth := 20) only [ok_modCore, implies_true, coreOk_mk, h]

theorem ok_scalarOp (c : Nat) (hh : Hdr) (w : BitVec 32) (s : State) (h : Ok s) : Ok (scalarOp c hh w s).1 := by
  have h1 := fun k v => ok_setCnt c k v s h
  have h2 := fun k v => ok_setPf c k v s h
  unfold scalarOp
  simp only []
  split
  · exact h
  split
  · exact h1 _ _
  · split
    · exact h1 _ _
    · exact h
  · split
    · exact h2 _ _
    · exact h
  · split
    · exact h2 _ _
    · exact h
  · split
    · split <;> exact h
    · exact h
  · exact h

theorem ok_jumpTo (c target : Nat) (s : State) (h : Ok s) : Ok (jumpTo c target s) := by
  unfold jumpTo
  simp +contextual (maxDischargeDepth := 20) only [ok_modCore, implies_true, coreOk_mk, h]

theorem ok_scalarAlone (c : Nat) (w : BitVec 32) (s : State) (h : Ok s) : Ok (scalarAlone c w s) := by
  unfold scalarAlone
  split
  · exact h
  · replace h := ok_scalarOp c (ctxOf s c).hdr w s h
    simp only []
    generalize scalarOp c (ctxOf s c).hdr w s = q at h ⊢
    obtain ⟨s1, target, skip⟩ := q
    simp only [] at h ⊢
    split
    · exact ok_logSkip _ _ _ _ _ h
    · exact ok_jumpTo _ _ _ h
    · exact h

theorem ok_enqueue (c : Nat) (q : QId) (e : QEnt) (s : State) (h : Ok s) : Ok (enqueue c q e s) := by
  unfold enqueue
  simp +contextual (maxDischargeDepth := 20) only [ok_modCore, implies_true, coreOk_mk, h]

theorem ok_traceBundle (c : Nat) (u : BitVec 256) (idx cyc : Nat) (s : State) (h : Ok s) : Ok (traceBundle c u idx cyc s) := by
  unfold traceBundle
  simp +contextual (maxDischargeDepth := 20) only [ok_trace, ok_ite, ite_self, h]

theorem ok_dispatchSlots (c : Nat) (x : Ctx) (u : BitVec 256) (s : State) (h : Ok s) : Ok (dispatchSlots c x u s).1 := by
  have h1 : Ok ((strayBits u).foldl (fun s n => logSkip c n 3 (coreAt s c).sq.pc s) s) := ok_foldl _ _ _ h (fun s y h => ok_logSkip _ _ _ _ _ h)
  unfold dispatchSlots
  simp only []
  refine ok_foldl _ _ _ (ok_foldl _ _ _ ?_ (fun s y h => ok_logSkip _ _ _ _ _ h)) (fun s y h => ok_enqueue _ _ _ _ h)
  have h2 : Ok (if bitAt u 253 then scalarOp c x.hdr (BitVec.ofNat 32 (fld u 247 216)) ((strayBits u).foldl (fun s1 n => logSkip c n 3 (coreAt s c).sq.pc s1) s) else ((strayBits u).foldl (fun s1 n => logSkip c n 3 (coreAt s c).sq.pc s1) s, none, none)).1 := by
    have h1 : Ok ((strayBits u).foldl (fun s1 n => logSkip c n 3 (coreAt s c).sq.pc s1) s) := ok_foldl _ _ _ h (fun s y h => ok_logSkip _ _ _ _ _ h)
    rw [ok_ite_fst]
    simp only [ok_scalarOp, h1, ite_self]
  split
  · exact ok_logSkip _ _ _ _ _ h2
  · exact h2

theorem ok_afterBundle (c : Nat) (r : Run) (len : Nat) (u : BitVec 256) (target : Option Nat) (s : State) (h : Ok s) : Ok (afterBundle c r len u target s) := by
  unfold afterBundle
  (repeat' split) <;> simp +contextual (maxDischargeDepth := 20) only [ok_jumpTo, ok_logSkip, ok_modCore, ok_modSt, ok_ite, ite_self, implies_true, coreOk_mk, h]

theorem ok_dispatchBundle (c : Nat) (s : State) (h : Ok s) : Ok (dispatchBundle c s) := by
  unfold dispatchBundle
  split
  · exact h
  · simp +contextual (maxDischargeDepth := 20) only [ok_ite, ok_modCore, coreOk_mk, ok_afterBundle, ok_dispatchSlots, ok_traceBundle, ok_readRun, ok_countStall,
      ok_passToCyc, h, implies_true, ite_self]


/-! ### Sync -/

theorem ok_syncOver (c : Nat) (e : QEnt) (s : State) (h : Ok s) : Ok (syncOver c e s) := by
  unfold syncOver
  simp +contextual (maxDischargeDepth := 20) only [ok_modCore, ok_openGates, implies_true, coreOk_mk, h]

theorem ok_waitAct (c t n : Nat) (e : QEnt) (s : State) (h : Ok s) : Ok (waitAct c t n e s) := by
  unfold waitAct
  simp +contextual (maxDischargeDepth := 20) only [ok_modSt, ok_syncOver, ok_ite, ite_self, h]

theorem ok_semAcqDone (c : Nat) (s : State) (h : Ok s) : Ok (semAcqDone c s) := by
  unfold semAcqDone
  (repeat' split) <;> simp +contextual (maxDischargeDepth := 20) only [ok_commit, ok_passToCyc, ok_syncOver, ok_takeEntry, h]

theorem ok_semRequest (c sem n : Nat) (e : QEnt) (queued : Bool) (s : State) (h : Ok s) : Ok (semRequest c sem n e queued s) := by
  unfold semRequest
  simp +contextual (maxDischargeDepth := 20) only [ok_modCore, ok_ite, ite_self, implies_true, ok_leaf, coreOk_mk, h]

theorem ok_semAcq (c : Nat) (w : BitVec 48) (sem n : Nat) (s : State) (h : Ok s) : Ok (semAcq c w sem n s) := by
  unfold semAcq
  (repeat' split) <;> simp +contextual (maxDischargeDepth := 20) only [ok_logSkip, ok_semAcqDone, ok_semRequest, ok_takeEntry, h]

theorem ok_semRelAct (c sem n : Nat) (e : QEnt) (s : State) (h : Ok s) : Ok (semRelAct c sem n e s) := by
  unfold semRelAct
  simp +contextual (maxDischargeDepth := 20) only [ok_modSt, ok_semReturn, ok_skipAtIssue, ok_syncOver, ok_ite, ite_self, h]

theorem ok_setArrival (c a : Nat) (s : State) (h : Ok s) : Ok (setArrival c a s) := by
  unfold setArrival
  (repeat' split) <;> first | exact h | simp +contextual (maxDischargeDepth := 20) only [ok_ite, ite_self, ok_foldl, implies_true, ok_leaf, coreOk_mk, h]

theorem ok_arriveAct (c a : Nat) (e : QEnt) (s : State) (h : Ok s) : Ok (arriveAct c a e s) := by
  unfold arriveAct
  exact ok_orFenced _ _ _ _ h fun s hs => ok_syncOver _ _ _ (ok_setArrival _ _ _ hs)


/-! ### Tiles -/

theorem ok_tileRun (n len : Nat) (bytes : List Byte) (bad : Bool) (s : State) (h : Ok s) : Ok (tileRun n len bytes bad s).1 := by
  have h1 : ∀ t : TileHdr, Ok (if t.ty = 1 then keyLookup none t.anchor s else (s, none)).1 := by
    intro t
    rw [ok_ite_fst]
    simp only [ok_keyLookup, h, ite_self]
  unfold tileRun
  simp only []
  split
  · exact ok_siuFire _ _ h
  split
  · exact h
  split
  · exact h
  split
  · exact h
  have h2 := h1 (tileHdrOf (bytes.take 32))
  generalize (if (tileHdrOf (bytes.take 32)).ty = 1 then keyLookup none (tileHdrOf (bytes.take 32)).anchor s else (s, none)) = q at h2 ⊢
  obtain ⟨s1, hit⟩ := q
  simp only [] at h2 ⊢
  split <;> simp only [ok_ite_fst, h2, ite_self]

theorem ok_bumpTring (s : State) (h : Ok s) : Ok (bumpTring s) := by
  unfold bumpTring
  exact h

theorem ok_fetchTile (n addr len : Nat) (s : State) (h : Ok s) : Ok (fetchTile n addr len s) := by
  unfold fetchTile
  have h1 := ok_startSample n s.time.tick _ (ok_bumpTring _ (ok_readRun .dram none addr (min len 32) s h))
  generalize startSample n s.time.tick (bumpTring (readRun .dram none addr (min len 32) s)) = s1 at h1 ⊢
  have h2 : ∀ r, Ok (addResult r s1) := fun r => ok_addResult _ _ h1
  have h3 : ∀ (c : Bool), Ok (if c then readRun .dram none (addr + 32) (len - 32) s1 else s1) := by
    intro c
    cases c
    · exact h1
    · exact ok_readRun _ _ _ _ _ h1
  dsimp only
  have key : ∀ (c : Prop) [Decidable c] (a b : State), Ok a → Ok b → Ok (if c then a else b) := by
    intro c _ a b ha hb
    split <;> assumption
  refine key _ _ _ (h2 _) (key _ _ _ (h2 _) ?_)
  apply ok_mk (tileRun _ _ _ _ _).1
  · exact ok_tileRun _ _ _ _ _ (h3 _)
  all_goals rfl

theorem ok_tileFetch (s : State) (h : Ok s) : Ok (tileFetch s) := by
  unfold tileFetch
  simp +contextual (maxDischargeDepth := 20) only [ok_bumpTring, ok_fetchTile, ok_passToCyc, ok_readRun, ok_siuFire, ok_ite, ite_self, h]

theorem ok_freeDecoder (s : State) (h : Ok s) : Ok (freeDecoder s) := by
  unfold freeDecoder
  exact h

theorem ok_writeTile (t : Tile) (s : State) (h : Ok s) : Ok (writeTile t s) := by
  unfold writeTile
  simp +contextual (maxDischargeDepth := 20) only [ok_intakeWrite, ok_lateRegion, h]

theorem ok_replayTile (t : Tile) (s : State) (h : Ok s) : Ok (replayTile t s) := by
  unfold replayTile
  dsimp only
  split
  · exact h
  split
  · exact ok_addResult _ _ (ok_bumpFree _ h)
  · exact ok_addResult _ _ (ok_bumpFree _ (ok_judgeFrame _ _ _ _ _ _ (ok_startSample _ _ _ h)))

theorem ok_tileDone (s : State) (h : Ok s) : Ok (tileDone s) := by
  unfold tileDone
  simp +contextual (maxDischargeDepth := 20) only []
  (repeat' split) <;> first | (simp +contextual (maxDischargeDepth := 20) only [ok_addResult, ok_freeDecoder, ok_passToCyc, ok_replayTile, ok_writeTile, h]; done) | (refine ok_mk _ _ _ _ _ _ _ _ _ _ _ _ _ _ _ _ _ _ _ _ _ _ _ ?_ rfl rfl rfl rfl rfl rfl; simp +contextual (maxDischargeDepth := 20) only [ok_passToCyc, ok_writeTile, h]; done) | (simp +contextual (maxDischargeDepth := 20) only [ok_addResult, ok_freeDecoder, ok_passToCyc, ok_replayTile, ok_writeTile, ok_ite, ite_self, ok_foldl, implies_true, ok_leaf, coreOk_mk, h]; refine ok_mk _ _ _ _ _ _ _ _ _ _ _ _ _ _ _ _ _ _ _ _ _ _ _ ?_ rfl rfl rfl rfl rfl rfl; simp +contextual (maxDischargeDepth := 20) only [ok_addResult, ok_freeDecoder, ok_passToCyc, ok_replayTile, ok_writeTile, ok_ite, ite_self, ok_foldl, implies_true, ok_leaf, coreOk_mk, h]; done)

theorem ok_budgetExceeded (s : State) (h : Ok s) : Ok (budgetExceeded s) := by
  unfold budgetExceeded
  (repeat' split) <;> simp +contextual (maxDischargeDepth := 20) only [ok_completeSample, ok_freeDecoder, ok_passToCyc, ok_ite, ite_self, h]

theorem ok_priorDone (s : State) (h : Ok s) : Ok (priorDone s) := by
  unfold priorDone
  (repeat' split) <;> simp +contextual (maxDischargeDepth := 20) only [ok_completeSample, ok_freeDecoder, ok_insertCell, ok_passToCyc, ok_ite, ite_self, h]

theorem ok_priorLate (s : State) (h : Ok s) : Ok (priorLate s) := by
  unfold priorLate
  (repeat' split) <;> simp +contextual (maxDischargeDepth := 20) only [ok_completeSample, ok_freeDecoder, h]

theorem ok_intakeClose (s : State) (h : Ok s) : Ok (intakeClose s) := by
  unfold intakeClose
  (repeat' split) <;> simp +contextual (maxDischargeDepth := 20) only [ok_forgetDropped, ok_passToOff, ok_postTick, ok_priorLate, ok_trace, ok_ite, ite_self, ok_leaf, h]


/-! ### Step -/

theorem ok_idle (s : State) (h : Ok s) : Ok (idle s) := by
  unfold idle
  simp +contextual (maxDischargeDepth := 20) only [ok_drainTrace, ok_passNs, ok_ite, ite_self, h]


end Sys2Proof.Laws
end

