-- ==== Sys2Proof/Laws/Fire.lean ====
section
/-!
SUPPORT. What the fire of a fault source can change (16, R398 to R401), said once.
-/
namespace Sys2Proof.Laws

open Sys2Proof.Machine

theorem byFire_refl (s : State) : ByFire s s := by simp [ByFire]

theorem byFire_trans {a b c : State} (h1 : ByFire a b) (h2 : ByFire b c) : ByFire a c := by
  obtain ⟨p1, p2, p3, p4, p5, p6, p7, p8, p9, p10, p11, p12, p13, p14, p15, p16, p17, p18, p19, p20⟩ := h1
  obtain ⟨q1, q2, q3, q4, q5, q6, q7, q8, q9, q10, q11, q12, q13, q14, q15, q16, q17, q18, q19, q20⟩ := h2
  refine ⟨q1.trans p1, q2.trans p2, q3.trans p3, q4.trans p4, q5.trans p5, q6.trans p6, q7.trans p7, q8.trans p8, q9.trans p9,
    q10.trans p10, q11.trans p11, q12.trans p12, q13.trans p13, q14.trans p14, q15.trans p15, q16.trans p16, q17.trans p17, ?_, ?_, ?_⟩
  · rw [← p18, ← q18]
  · rw [← p19, ← q19]
  · rw [← p20, ← q20]

theorem byFire_foldl {β : Type} (f : State → β → State) (h : ∀ s b, ByFire s (f s b)) (l : List β) (s : State) :
    ByFire s (l.foldl f s) := by
  induction l generalizing s with
  | nil => exact byFire_refl s
  | cons b l ih => exact byFire_trans (h s b) (ih _)

theorem byFire_ite {s a b : State} {p : Prop} [Decidable p] (ha : ByFire s a) (hb : ByFire s b) : ByFire s (if p then a else b) := by
  split <;> assumption

theorem byFire_trace (ty src : Nat) (x : BitVec 64) (s : State) : ByFire s (trace ty src x s) := by
  unfold trace
  split <;> simp [ByFire]

theorem byFire_postVec (v : Nat) (s : State) : ByFire s (postVec v s) := by
  unfold postVec hostWr
  split <;> simp [ByFire]

theorem byFire_modPort (p : Nat) (f : Port → Port) (s : State) : ByFire s (modPort s p f) := by simp [ByFire, modPort]

theorem byFire_pushSide (b : BitVec 128) (p : Nat) (s : State) : ByFire s (pushSide b p s) :=
  byFire_trans (byFire_modPort p _ s) (byFire_modPort p _ _)

theorem byFire_logSide (b : BitVec 128) (s : State) : ByFire s (logSide b s) := by
  unfold logSide
  split <;> simp [ByFire]

theorem byFire_sendSide (kind dom gen mask tick : Nat) (s : State) : ByFire s (sendSide kind dom gen mask tick s) := by
  unfold sendSide
  refine byFire_trans (byFire_trans ?_ (byFire_logSide _ _)) (byFire_foldl _ (fun s p => byFire_pushSide _ p s) _ _)
  simp [ByFire, modPeer]

theorem byFire_addVoid (p k : Nat) (s : State) : ByFire s (addVoid p k s) := by simp [ByFire, addVoid]

theorem byFire_voidAt (pks : List (Nat × Nat)) (s : State) : ByFire s (voidAt pks s) :=
  byFire_trans (byFire_foldl _ (fun s (pk : Nat × Nat) => byFire_addVoid pk.1 pk.2 s) _ _) (byFire_foldl _ (fun s _ => byFire_sendSide _ _ _ _ _ s) _ _)

theorem byFire_voidParts (ps : List Nat) (s : State) : ByFire s (voidParts ps s) := by
  unfold voidParts
  split
  · exact byFire_voidAt _ s
  · exact byFire_refl s

theorem map_upd {α β : Type} (g : α → β) (f : α → α) (h : ∀ a, g (f a) = g a) (l : List α) (c : Nat) : (upd l c f).map g = l.map g := by
  simp only [upd]
  induction l generalizing c with
  | nil => simp
  | cons a l ih => cases c <;> simp_all

theorem byFire_markVoid (w : Who) (s : State) : ByFire s (markVoid w s) := by
  unfold markVoid
  split
  · refine ⟨rfl, rfl, rfl, rfl, rfl, rfl, rfl, rfl, rfl, rfl, rfl, rfl, rfl, rfl, rfl, rfl, ?_, rfl, rfl, rfl⟩
    refine map_upd _ _ (fun k => ?_) _ _
    cases h : k.st.run <;> simp [Core.unmarked, h]
  · exact byFire_refl s

theorem byFire_dueSafe (b src : Nat) (s : State) : ByFire s (dueSafe b src s) := by
  unfold dueSafe
  split
  · exact byFire_refl s
  · split <;> simp [ByFire]

theorem byFire_requestRestart (d : Nat) (s : State) : ByFire s (requestRestart d s) := by
  unfold requestRestart
  split <;> simp [ByFire]

theorem byFire_flt (l : List FltBlock) (s : State) : ByFire s { s with flt := l } := by simp [ByFire]

theorem byFire_fireMsg (f : Fire) (lvl : Nat) (s : State) : ByFire s (fireMsg f lvl s) := by
  unfold fireMsg
  exact byFire_ite (byFire_trans (byFire_flt _ s) (byFire_postVec _ _)) (byFire_refl s)

theorem byFire_traceFault (f : Fire) (info : SrcInfo) (lvl : Nat) (esc joins : Bool) (s : State) :
    ByFire s (traceFault f info lvl esc joins s) := by
  unfold traceFault
  split
  · simp [ByFire]
  · exact byFire_trace ..

theorem byFire_fireEffect (f : Fire) (lvl : Nat) (s : State) : ByFire s (fireEffect f lvl s) := by
  unfold fireEffect
  refine byFire_ite (byFire_refl s) (byFire_ite (byFire_dueSafe ..) (byFire_ite ?_ (byFire_refl s)))
  split
  · exact byFire_requestRestart ..
  · exact byFire_refl s

theorem byFire_fireOne (s : State) (f : Fire) : ByFire s (fireOne s f) := by
  unfold fireOne
  split
  · exact byFire_refl s
  · refine byFire_ite (byFire_refl s) (byFire_trans (byFire_trans ?_ (byFire_traceFault ..)) (byFire_fireEffect ..))
    have h : ∀ lvl l, ByFire s { fireMsg f lvl s with flt := l } := fun lvl l => byFire_trans (byFire_fireMsg f lvl s) (byFire_flt l _)
    exact byFire_ite (byFire_trans (h _ _) (byFire_trans (byFire_voidParts ..) (byFire_markVoid ..))) (h _ _)

/-- A fire changes nothing but what 16 says it touches. -/
theorem byFire_fireAll (fs : List Fire) (s : State) : ByFire s (fireAll fs s) := byFire_foldl _ byFire_fireOne fs s

theorem byFire_fire (f : Fire) (s : State) : ByFire s (fire f s) := byFire_fireAll [f] s

theorem byFire_hazardFire (c t v : Nat) (srcs dsts : List Nat) (s : State) : ByFire s (hazardFire c t v srcs dsts s) := by
  unfold hazardFire
  split
  · exact byFire_fire _ s
  · exact byFire_refl s

theorem byFire_onset (f : Fire) (s : State) : ByFire s (onset f s) := by
  unfold onset
  split
  · exact byFire_refl s
  · exact byFire_trans (byFire_flt _ s) (byFire_fire _ _)

/-! ### What of a fire leaves the fault register sets alone -/

theorem flt_trace (ty src : Nat) (x : BitVec 64) (s : State) : (trace ty src x s).flt = s.flt := by unfold trace; split <;> rfl

theorem flt_postVec (v : Nat) (s : State) : (postVec v s).flt = s.flt := by unfold postVec; split <;> rfl

theorem flt_foldl {β : Type} (f : State → β → State) (h : ∀ s b, (f s b).flt = s.flt) (l : List β) (s : State) :
    (l.foldl f s).flt = s.flt := by
  induction l generalizing s with
  | nil => rfl
  | cons b l ih => rw [List.foldl_cons, ih, h]

theorem flt_sendSide (kind dom gen mask tick : Nat) (s : State) : (sendSide kind dom gen mask tick s).flt = s.flt := by
  unfold sendSide
  refine (flt_foldl _ (by intros; rfl) _ _).trans ?_
  unfold logSide
  dsimp only
  split <;> rfl

theorem flt_voidParts (ps : List Nat) (s : State) : (voidParts ps s).flt = s.flt := by
  unfold voidParts voidAt
  split
  · exact (flt_foldl _ (by intros; exact flt_sendSide ..) _ _).trans (flt_foldl _ (by intros; rfl) _ _)
  · rfl

theorem flt_markVoid (w : Who) (s : State) : (markVoid w s).flt = s.flt := by unfold markVoid; split <;> rfl

theorem flt_dueSafe (b src : Nat) (s : State) : (dueSafe b src s).flt = s.flt := by
  unfold dueSafe
  split
  · rfl
  · split <;> rfl

theorem flt_requestRestart (d : Nat) (s : State) : (requestRestart d s).flt = s.flt := by unfold requestRestart; split <;> rfl

end Sys2Proof.Laws
end

