-- ==== Sys2Proof/Laws/State.lean ====
section
/-!
SUPPORT. What each update of a part of the state leaves in every field, so that no proof unfolds the record update; the passing of
time; and the ends that every command shares.
-/
namespace Sys2Proof.Laws
open Sys2Proof Sys2Proof.Machine

/-! ### modCore -/

@[simp] theorem modCore_pending (s : State) (c : Nat) (f : Core → Core) : (modCore s c f).pending = s.pending := rfl
@[simp] theorem modCore_clk (s : State) (c : Nat) (f : Core → Core) : (modCore s c f).clk = s.clk := rfl
@[simp] theorem modCore_glb (s : State) (c : Nat) (f : Core → Core) : (modCore s c f).glb = s.glb := rfl
@[simp] theorem modCore_time (s : State) (c : Nat) (f : Core → Core) : (modCore s c f).time = s.time := rfl
@[simp] theorem modCore_disp (s : State) (c : Nat) (f : Core → Core) : (modCore s c f).disp = s.disp := rfl
@[simp] theorem modCore_cores (s : State) (c : Nat) (f : Core → Core) : (modCore s c f).cores = upd s.cores c f := rfl
@[simp] theorem modCore_rsmp (s : State) (c : Nat) (f : Core → Core) : (modCore s c f).rsmp = s.rsmp := rfl
@[simp] theorem modCore_kfs (s : State) (c : Nat) (f : Core → Core) : (modCore s c f).kfs = s.kfs := rfl
@[simp] theorem modCore_fst (s : State) (c : Nat) (f : Core → Core) : (modCore s c f).fst = s.fst := rfl
@[simp] theorem modCore_drc (s : State) (c : Nat) (f : Core → Core) : (modCore s c f).drc = s.drc := rfl
@[simp] theorem modCore_siu (s : State) (c : Nat) (f : Core → Core) : (modCore s c f).siu = s.siu := rfl
@[simp] theorem modCore_hrn (s : State) (c : Nat) (f : Core → Core) : (modCore s c f).hrn = s.hrn := rfl
@[simp] theorem modCore_pci (s : State) (c : Nat) (f : Core → Core) : (modCore s c f).pci = s.pci := rfl
@[simp] theorem modCore_mgt (s : State) (c : Nat) (f : Core → Core) : (modCore s c f).mgt = s.mgt := rfl
@[simp] theorem modCore_rst (s : State) (c : Nat) (f : Core → Core) : (modCore s c f).rst = s.rst := rfl
@[simp] theorem modCore_dru (s : State) (c : Nat) (f : Core → Core) : (modCore s c f).dru = s.dru := rfl
@[simp] theorem modCore_obs (s : State) (c : Nat) (f : Core → Core) : (modCore s c f).obs = s.obs := rfl
@[simp] theorem modCore_flt (s : State) (c : Nat) (f : Core → Core) : (modCore s c f).flt = s.flt := rfl
@[simp] theorem modCore_tap (s : State) (c : Nat) (f : Core → Core) : (modCore s c f).tap = s.tap := rfl
@[simp] theorem modCore_loHost (s : State) (c : Nat) (f : Core → Core) : (modCore s c f).loHost = s.loHost := rfl
@[simp] theorem modCore_loMgt (s : State) (c : Nat) (f : Core → Core) : (modCore s c f).loMgt = s.loMgt := rfl
@[simp] theorem modCore_host (s : State) (c : Nat) (f : Core → Core) : (modCore s c f).host = s.host := rfl
@[simp] theorem modCore_freeSeq (s : State) (c : Nat) (f : Core → Core) : (modCore s c f).freeSeq = s.freeSeq := rfl
@[simp] theorem modCore_runSeq (s : State) (c : Nat) (f : Core → Core) : (modCore s c f).runSeq = s.runSeq := rfl

/-! ### modSt -/

@[simp] theorem modSt_pending (s : State) (c : Nat) (f : CStat → CStat) : (modSt s c f).pending = s.pending := rfl
@[simp] theorem modSt_clk (s : State) (c : Nat) (f : CStat → CStat) : (modSt s c f).clk = s.clk := rfl
@[simp] theorem modSt_glb (s : State) (c : Nat) (f : CStat → CStat) : (modSt s c f).glb = s.glb := rfl
@[simp] theorem modSt_time (s : State) (c : Nat) (f : CStat → CStat) : (modSt s c f).time = s.time := rfl
@[simp] theorem modSt_disp (s : State) (c : Nat) (f : CStat → CStat) : (modSt s c f).disp = s.disp := rfl
@[simp] theorem modSt_cores (s : State) (c : Nat) (f : CStat → CStat) : (modSt s c f).cores = upd s.cores c fun k => { k with st := f k.st } := rfl
@[simp] theorem modSt_rsmp (s : State) (c : Nat) (f : CStat → CStat) : (modSt s c f).rsmp = s.rsmp := rfl
@[simp] theorem modSt_kfs (s : State) (c : Nat) (f : CStat → CStat) : (modSt s c f).kfs = s.kfs := rfl
@[simp] theorem modSt_fst (s : State) (c : Nat) (f : CStat → CStat) : (modSt s c f).fst = s.fst := rfl
@[simp] theorem modSt_drc (s : State) (c : Nat) (f : CStat → CStat) : (modSt s c f).drc = s.drc := rfl
@[simp] theorem modSt_siu (s : State) (c : Nat) (f : CStat → CStat) : (modSt s c f).siu = s.siu := rfl
@[simp] theorem modSt_hrn (s : State) (c : Nat) (f : CStat → CStat) : (modSt s c f).hrn = s.hrn := rfl
@[simp] theorem modSt_pci (s : State) (c : Nat) (f : CStat → CStat) : (modSt s c f).pci = s.pci := rfl
@[simp] theorem modSt_mgt (s : State) (c : Nat) (f : CStat → CStat) : (modSt s c f).mgt = s.mgt := rfl
@[simp] theorem modSt_rst (s : State) (c : Nat) (f : CStat → CStat) : (modSt s c f).rst = s.rst := rfl
@[simp] theorem modSt_dru (s : State) (c : Nat) (f : CStat → CStat) : (modSt s c f).dru = s.dru := rfl
@[simp] theorem modSt_obs (s : State) (c : Nat) (f : CStat → CStat) : (modSt s c f).obs = s.obs := rfl
@[simp] theorem modSt_flt (s : State) (c : Nat) (f : CStat → CStat) : (modSt s c f).flt = s.flt := rfl
@[simp] theorem modSt_tap (s : State) (c : Nat) (f : CStat → CStat) : (modSt s c f).tap = s.tap := rfl
@[simp] theorem modSt_loHost (s : State) (c : Nat) (f : CStat → CStat) : (modSt s c f).loHost = s.loHost := rfl
@[simp] theorem modSt_loMgt (s : State) (c : Nat) (f : CStat → CStat) : (modSt s c f).loMgt = s.loMgt := rfl
@[simp] theorem modSt_host (s : State) (c : Nat) (f : CStat → CStat) : (modSt s c f).host = s.host := rfl
@[simp] theorem modSt_freeSeq (s : State) (c : Nat) (f : CStat → CStat) : (modSt s c f).freeSeq = s.freeSeq := rfl
@[simp] theorem modSt_runSeq (s : State) (c : Nat) (f : CStat → CStat) : (modSt s c f).runSeq = s.runSeq := rfl

/-! ### modPort -/

@[simp] theorem modPort_pending (s : State) (p : Nat) (f : Port → Port) : (modPort s p f).pending = s.pending := rfl
@[simp] theorem modPort_clk (s : State) (p : Nat) (f : Port → Port) : (modPort s p f).clk = s.clk := rfl
@[simp] theorem modPort_glb (s : State) (p : Nat) (f : Port → Port) : (modPort s p f).glb = s.glb := rfl
@[simp] theorem modPort_time (s : State) (p : Nat) (f : Port → Port) : (modPort s p f).time = s.time := rfl
@[simp] theorem modPort_disp (s : State) (p : Nat) (f : Port → Port) : (modPort s p f).disp = s.disp := rfl
@[simp] theorem modPort_cores (s : State) (p : Nat) (f : Port → Port) : (modPort s p f).cores = s.cores := rfl
@[simp] theorem modPort_rsmp (s : State) (p : Nat) (f : Port → Port) : (modPort s p f).rsmp = s.rsmp := rfl
@[simp] theorem modPort_kfs (s : State) (p : Nat) (f : Port → Port) : (modPort s p f).kfs = s.kfs := rfl
@[simp] theorem modPort_fst (s : State) (p : Nat) (f : Port → Port) : (modPort s p f).fst = s.fst := rfl
@[simp] theorem modPort_drc (s : State) (p : Nat) (f : Port → Port) : (modPort s p f).drc = s.drc := rfl
@[simp] theorem modPort_siu (s : State) (p : Nat) (f : Port → Port) : (modPort s p f).siu = s.siu := rfl
@[simp] theorem modPort_hrn (s : State) (p : Nat) (f : Port → Port) : (modPort s p f).hrn = { s.hrn with ports := upd s.hrn.ports p f } := rfl
@[simp] theorem modPort_pci (s : State) (p : Nat) (f : Port → Port) : (modPort s p f).pci = s.pci := rfl
@[simp] theorem modPort_mgt (s : State) (p : Nat) (f : Port → Port) : (modPort s p f).mgt = s.mgt := rfl
@[simp] theorem modPort_rst (s : State) (p : Nat) (f : Port → Port) : (modPort s p f).rst = s.rst := rfl
@[simp] theorem modPort_dru (s : State) (p : Nat) (f : Port → Port) : (modPort s p f).dru = s.dru := rfl
@[simp] theorem modPort_obs (s : State) (p : Nat) (f : Port → Port) : (modPort s p f).obs = s.obs := rfl
@[simp] theorem modPort_flt (s : State) (p : Nat) (f : Port → Port) : (modPort s p f).flt = s.flt := rfl
@[simp] theorem modPort_tap (s : State) (p : Nat) (f : Port → Port) : (modPort s p f).tap = s.tap := rfl
@[simp] theorem modPort_loHost (s : State) (p : Nat) (f : Port → Port) : (modPort s p f).loHost = s.loHost := rfl
@[simp] theorem modPort_loMgt (s : State) (p : Nat) (f : Port → Port) : (modPort s p f).loMgt = s.loMgt := rfl
@[simp] theorem modPort_host (s : State) (p : Nat) (f : Port → Port) : (modPort s p f).host = s.host := rfl
@[simp] theorem modPort_freeSeq (s : State) (p : Nat) (f : Port → Port) : (modPort s p f).freeSeq = s.freeSeq := rfl
@[simp] theorem modPort_runSeq (s : State) (p : Nat) (f : Port → Port) : (modPort s p f).runSeq = s.runSeq := rfl

/-! ### modPeer -/

@[simp] theorem modPeer_pending (s : State) (d : Nat) (f : Peer → Peer) : (modPeer s d f).pending = s.pending := rfl
@[simp] theorem modPeer_clk (s : State) (d : Nat) (f : Peer → Peer) : (modPeer s d f).clk = s.clk := rfl
@[simp] theorem modPeer_glb (s : State) (d : Nat) (f : Peer → Peer) : (modPeer s d f).glb = s.glb := rfl
@[simp] theorem modPeer_time (s : State) (d : Nat) (f : Peer → Peer) : (modPeer s d f).time = s.time := rfl
@[simp] theorem modPeer_disp (s : State) (d : Nat) (f : Peer → Peer) : (modPeer s d f).disp = s.disp := rfl
@[simp] theorem modPeer_cores (s : State) (d : Nat) (f : Peer → Peer) : (modPeer s d f).cores = s.cores := rfl
@[simp] theorem modPeer_rsmp (s : State) (d : Nat) (f : Peer → Peer) : (modPeer s d f).rsmp = s.rsmp := rfl
@[simp] theorem modPeer_kfs (s : State) (d : Nat) (f : Peer → Peer) : (modPeer s d f).kfs = s.kfs := rfl
@[simp] theorem modPeer_fst (s : State) (d : Nat) (f : Peer → Peer) : (modPeer s d f).fst = s.fst := rfl
@[simp] theorem modPeer_drc (s : State) (d : Nat) (f : Peer → Peer) : (modPeer s d f).drc = s.drc := rfl
@[simp] theorem modPeer_siu (s : State) (d : Nat) (f : Peer → Peer) : (modPeer s d f).siu = s.siu := rfl
@[simp] theorem modPeer_hrn (s : State) (d : Nat) (f : Peer → Peer) : (modPeer s d f).hrn = { s.hrn with peers := upd s.hrn.peers d f } := rfl
@[simp] theorem modPeer_pci (s : State) (d : Nat) (f : Peer → Peer) : (modPeer s d f).pci = s.pci := rfl
@[simp] theorem modPeer_mgt (s : State) (d : Nat) (f : Peer → Peer) : (modPeer s d f).mgt = s.mgt := rfl
@[simp] theorem modPeer_rst (s : State) (d : Nat) (f : Peer → Peer) : (modPeer s d f).rst = s.rst := rfl
@[simp] theorem modPeer_dru (s : State) (d : Nat) (f : Peer → Peer) : (modPeer s d f).dru = s.dru := rfl
@[simp] theorem modPeer_obs (s : State) (d : Nat) (f : Peer → Peer) : (modPeer s d f).obs = s.obs := rfl
@[simp] theorem modPeer_flt (s : State) (d : Nat) (f : Peer → Peer) : (modPeer s d f).flt = s.flt := rfl
@[simp] theorem modPeer_tap (s : State) (d : Nat) (f : Peer → Peer) : (modPeer s d f).tap = s.tap := rfl
@[simp] theorem modPeer_loHost (s : State) (d : Nat) (f : Peer → Peer) : (modPeer s d f).loHost = s.loHost := rfl
@[simp] theorem modPeer_loMgt (s : State) (d : Nat) (f : Peer → Peer) : (modPeer s d f).loMgt = s.loMgt := rfl
@[simp] theorem modPeer_host (s : State) (d : Nat) (f : Peer → Peer) : (modPeer s d f).host = s.host := rfl
@[simp] theorem modPeer_freeSeq (s : State) (d : Nat) (f : Peer → Peer) : (modPeer s d f).freeSeq = s.freeSeq := rfl
@[simp] theorem modPeer_runSeq (s : State) (d : Nat) (f : Peer → Peer) : (modPeer s d f).runSeq = s.runSeq := rfl

/-! ### modDom -/

@[simp] theorem modDom_pending (s : State) (d : Nat) (f : Dom → Dom) : (modDom s d f).pending = s.pending := rfl
@[simp] theorem modDom_clk (s : State) (d : Nat) (f : Dom → Dom) : (modDom s d f).clk = s.clk := rfl
@[simp] theorem modDom_glb (s : State) (d : Nat) (f : Dom → Dom) : (modDom s d f).glb = s.glb := rfl
@[simp] theorem modDom_time (s : State) (d : Nat) (f : Dom → Dom) : (modDom s d f).time = s.time := rfl
@[simp] theorem modDom_disp (s : State) (d : Nat) (f : Dom → Dom) : (modDom s d f).disp = s.disp := rfl
@[simp] theorem modDom_cores (s : State) (d : Nat) (f : Dom → Dom) : (modDom s d f).cores = s.cores := rfl
@[simp] theorem modDom_rsmp (s : State) (d : Nat) (f : Dom → Dom) : (modDom s d f).rsmp = s.rsmp := rfl
@[simp] theorem modDom_kfs (s : State) (d : Nat) (f : Dom → Dom) : (modDom s d f).kfs = s.kfs := rfl
@[simp] theorem modDom_fst (s : State) (d : Nat) (f : Dom → Dom) : (modDom s d f).fst = s.fst := rfl
@[simp] theorem modDom_drc (s : State) (d : Nat) (f : Dom → Dom) : (modDom s d f).drc = s.drc := rfl
@[simp] theorem modDom_siu (s : State) (d : Nat) (f : Dom → Dom) : (modDom s d f).siu = s.siu := rfl
@[simp] theorem modDom_hrn (s : State) (d : Nat) (f : Dom → Dom) : (modDom s d f).hrn = s.hrn := rfl
@[simp] theorem modDom_pci (s : State) (d : Nat) (f : Dom → Dom) : (modDom s d f).pci = s.pci := rfl
@[simp] theorem modDom_mgt (s : State) (d : Nat) (f : Dom → Dom) : (modDom s d f).mgt = s.mgt := rfl
@[simp] theorem modDom_rst (s : State) (d : Nat) (f : Dom → Dom) : (modDom s d f).rst = s.rst := rfl
@[simp] theorem modDom_dru (s : State) (d : Nat) (f : Dom → Dom) : (modDom s d f).dru = { s.dru with doms := upd s.dru.doms d f } := rfl
@[simp] theorem modDom_obs (s : State) (d : Nat) (f : Dom → Dom) : (modDom s d f).obs = s.obs := rfl
@[simp] theorem modDom_flt (s : State) (d : Nat) (f : Dom → Dom) : (modDom s d f).flt = s.flt := rfl
@[simp] theorem modDom_tap (s : State) (d : Nat) (f : Dom → Dom) : (modDom s d f).tap = s.tap := rfl
@[simp] theorem modDom_loHost (s : State) (d : Nat) (f : Dom → Dom) : (modDom s d f).loHost = s.loHost := rfl
@[simp] theorem modDom_loMgt (s : State) (d : Nat) (f : Dom → Dom) : (modDom s d f).loMgt = s.loMgt := rfl
@[simp] theorem modDom_host (s : State) (d : Nat) (f : Dom → Dom) : (modDom s d f).host = s.host := rfl
@[simp] theorem modDom_freeSeq (s : State) (d : Nat) (f : Dom → Dom) : (modDom s d f).freeSeq = s.freeSeq := rfl
@[simp] theorem modDom_runSeq (s : State) (d : Nat) (f : Dom → Dom) : (modDom s d f).runSeq = s.runSeq := rfl

/-! ### modSub -/

@[simp] theorem modSub_pending (s : State) (r : Nat) (f : SubRing → SubRing) : (modSub s r f).pending = s.pending := rfl
@[simp] theorem modSub_clk (s : State) (r : Nat) (f : SubRing → SubRing) : (modSub s r f).clk = s.clk := rfl
@[simp] theorem modSub_glb (s : State) (r : Nat) (f : SubRing → SubRing) : (modSub s r f).glb = s.glb := rfl
@[simp] theorem modSub_time (s : State) (r : Nat) (f : SubRing → SubRing) : (modSub s r f).time = s.time := rfl
@[simp] theorem modSub_disp (s : State) (r : Nat) (f : SubRing → SubRing) : (modSub s r f).disp = { s.disp with subs := upd s.disp.subs r f } := rfl
@[simp] theorem modSub_cores (s : State) (r : Nat) (f : SubRing → SubRing) : (modSub s r f).cores = s.cores := rfl
@[simp] theorem modSub_rsmp (s : State) (r : Nat) (f : SubRing → SubRing) : (modSub s r f).rsmp = s.rsmp := rfl
@[simp] theorem modSub_kfs (s : State) (r : Nat) (f : SubRing → SubRing) : (modSub s r f).kfs = s.kfs := rfl
@[simp] theorem modSub_fst (s : State) (r : Nat) (f : SubRing → SubRing) : (modSub s r f).fst = s.fst := rfl
@[simp] theorem modSub_drc (s : State) (r : Nat) (f : SubRing → SubRing) : (modSub s r f).drc = s.drc := rfl
@[simp] theorem modSub_siu (s : State) (r : Nat) (f : SubRing → SubRing) : (modSub s r f).siu = s.siu := rfl
@[simp] theorem modSub_hrn (s : State) (r : Nat) (f : SubRing → SubRing) : (modSub s r f).hrn = s.hrn := rfl
@[simp] theorem modSub_pci (s : State) (r : Nat) (f : SubRing → SubRing) : (modSub s r f).pci = s.pci := rfl
@[simp] theorem modSub_mgt (s : State) (r : Nat) (f : SubRing → SubRing) : (modSub s r f).mgt = s.mgt := rfl
@[simp] theorem modSub_rst (s : State) (r : Nat) (f : SubRing → SubRing) : (modSub s r f).rst = s.rst := rfl
@[simp] theorem modSub_dru (s : State) (r : Nat) (f : SubRing → SubRing) : (modSub s r f).dru = s.dru := rfl
@[simp] theorem modSub_obs (s : State) (r : Nat) (f : SubRing → SubRing) : (modSub s r f).obs = s.obs := rfl
@[simp] theorem modSub_flt (s : State) (r : Nat) (f : SubRing → SubRing) : (modSub s r f).flt = s.flt := rfl
@[simp] theorem modSub_tap (s : State) (r : Nat) (f : SubRing → SubRing) : (modSub s r f).tap = s.tap := rfl
@[simp] theorem modSub_loHost (s : State) (r : Nat) (f : SubRing → SubRing) : (modSub s r f).loHost = s.loHost := rfl
@[simp] theorem modSub_loMgt (s : State) (r : Nat) (f : SubRing → SubRing) : (modSub s r f).loMgt = s.loMgt := rfl
@[simp] theorem modSub_host (s : State) (r : Nat) (f : SubRing → SubRing) : (modSub s r f).host = s.host := rfl
@[simp] theorem modSub_freeSeq (s : State) (r : Nat) (f : SubRing → SubRing) : (modSub s r f).freeSeq = s.freeSeq := rfl
@[simp] theorem modSub_runSeq (s : State) (r : Nat) (f : SubRing → SubRing) : (modSub s r f).runSeq = s.runSeq := rfl

/-! ### modRsmp -/

@[simp] theorem modRsmp_pending (s : State) (u : Nat) (f : Rsmp → Rsmp) : (modRsmp s u f).pending = s.pending := rfl
@[simp] theorem modRsmp_clk (s : State) (u : Nat) (f : Rsmp → Rsmp) : (modRsmp s u f).clk = s.clk := rfl
@[simp] theorem modRsmp_glb (s : State) (u : Nat) (f : Rsmp → Rsmp) : (modRsmp s u f).glb = s.glb := rfl
@[simp] theorem modRsmp_time (s : State) (u : Nat) (f : Rsmp → Rsmp) : (modRsmp s u f).time = s.time := rfl
@[simp] theorem modRsmp_disp (s : State) (u : Nat) (f : Rsmp → Rsmp) : (modRsmp s u f).disp = s.disp := rfl
@[simp] theorem modRsmp_cores (s : State) (u : Nat) (f : Rsmp → Rsmp) : (modRsmp s u f).cores = s.cores := rfl
@[simp] theorem modRsmp_rsmp (s : State) (u : Nat) (f : Rsmp → Rsmp) : (modRsmp s u f).rsmp = upd s.rsmp u f := rfl
@[simp] theorem modRsmp_kfs (s : State) (u : Nat) (f : Rsmp → Rsmp) : (modRsmp s u f).kfs = s.kfs := rfl
@[simp] theorem modRsmp_fst (s : State) (u : Nat) (f : Rsmp → Rsmp) : (modRsmp s u f).fst = s.fst := rfl
@[simp] theorem modRsmp_drc (s : State) (u : Nat) (f : Rsmp → Rsmp) : (modRsmp s u f).drc = s.drc := rfl
@[simp] theorem modRsmp_siu (s : State) (u : Nat) (f : Rsmp → Rsmp) : (modRsmp s u f).siu = s.siu := rfl
@[simp] theorem modRsmp_hrn (s : State) (u : Nat) (f : Rsmp → Rsmp) : (modRsmp s u f).hrn = s.hrn := rfl
@[simp] theorem modRsmp_pci (s : State) (u : Nat) (f : Rsmp → Rsmp) : (modRsmp s u f).pci = s.pci := rfl
@[simp] theorem modRsmp_mgt (s : State) (u : Nat) (f : Rsmp → Rsmp) : (modRsmp s u f).mgt = s.mgt := rfl
@[simp] theorem modRsmp_rst (s : State) (u : Nat) (f : Rsmp → Rsmp) : (modRsmp s u f).rst = s.rst := rfl
@[simp] theorem modRsmp_dru (s : State) (u : Nat) (f : Rsmp → Rsmp) : (modRsmp s u f).dru = s.dru := rfl
@[simp] theorem modRsmp_obs (s : State) (u : Nat) (f : Rsmp → Rsmp) : (modRsmp s u f).obs = s.obs := rfl
@[simp] theorem modRsmp_flt (s : State) (u : Nat) (f : Rsmp → Rsmp) : (modRsmp s u f).flt = s.flt := rfl
@[simp] theorem modRsmp_tap (s : State) (u : Nat) (f : Rsmp → Rsmp) : (modRsmp s u f).tap = s.tap := rfl
@[simp] theorem modRsmp_loHost (s : State) (u : Nat) (f : Rsmp → Rsmp) : (modRsmp s u f).loHost = s.loHost := rfl
@[simp] theorem modRsmp_loMgt (s : State) (u : Nat) (f : Rsmp → Rsmp) : (modRsmp s u f).loMgt = s.loMgt := rfl
@[simp] theorem modRsmp_host (s : State) (u : Nat) (f : Rsmp → Rsmp) : (modRsmp s u f).host = s.host := rfl
@[simp] theorem modRsmp_freeSeq (s : State) (u : Nat) (f : Rsmp → Rsmp) : (modRsmp s u f).freeSeq = s.freeSeq := rfl
@[simp] theorem modRsmp_runSeq (s : State) (u : Nat) (f : Rsmp → Rsmp) : (modRsmp s u f).runSeq = s.runSeq := rfl

/-! ### bumpFree -/

@[simp] theorem bumpFree_pending (s : State) : (bumpFree s).pending = s.pending := rfl
@[simp] theorem bumpFree_clk (s : State) : (bumpFree s).clk = s.clk := rfl
@[simp] theorem bumpFree_glb (s : State) : (bumpFree s).glb = s.glb := rfl
@[simp] theorem bumpFree_time (s : State) : (bumpFree s).time = s.time := rfl
@[simp] theorem bumpFree_disp (s : State) : (bumpFree s).disp = s.disp := rfl
@[simp] theorem bumpFree_cores (s : State) : (bumpFree s).cores = s.cores := rfl
@[simp] theorem bumpFree_rsmp (s : State) : (bumpFree s).rsmp = s.rsmp := rfl
@[simp] theorem bumpFree_kfs (s : State) : (bumpFree s).kfs = s.kfs := rfl
@[simp] theorem bumpFree_fst (s : State) : (bumpFree s).fst = s.fst := rfl
@[simp] theorem bumpFree_drc (s : State) : (bumpFree s).drc = s.drc := rfl
@[simp] theorem bumpFree_siu (s : State) : (bumpFree s).siu = s.siu := rfl
@[simp] theorem bumpFree_hrn (s : State) : (bumpFree s).hrn = s.hrn := rfl
@[simp] theorem bumpFree_pci (s : State) : (bumpFree s).pci = s.pci := rfl
@[simp] theorem bumpFree_mgt (s : State) : (bumpFree s).mgt = s.mgt := rfl
@[simp] theorem bumpFree_rst (s : State) : (bumpFree s).rst = s.rst := rfl
@[simp] theorem bumpFree_dru (s : State) : (bumpFree s).dru = s.dru := rfl
@[simp] theorem bumpFree_obs (s : State) : (bumpFree s).obs = s.obs := rfl
@[simp] theorem bumpFree_flt (s : State) : (bumpFree s).flt = s.flt := rfl
@[simp] theorem bumpFree_tap (s : State) : (bumpFree s).tap = s.tap := rfl
@[simp] theorem bumpFree_loHost (s : State) : (bumpFree s).loHost = s.loHost := rfl
@[simp] theorem bumpFree_loMgt (s : State) : (bumpFree s).loMgt = s.loMgt := rfl
@[simp] theorem bumpFree_host (s : State) : (bumpFree s).host = s.host := rfl
@[simp] theorem bumpFree_freeSeq (s : State) : (bumpFree s).freeSeq = s.freeSeq + 1 := rfl
@[simp] theorem bumpFree_runSeq (s : State) : (bumpFree s).runSeq = s.runSeq := rfl

/-! ### addVoid -/

@[simp] theorem addVoid_pending (p k : Nat) (s : State) : (addVoid p k s).pending = s.pending := rfl
@[simp] theorem addVoid_clk (p k : Nat) (s : State) : (addVoid p k s).clk = s.clk := rfl
@[simp] theorem addVoid_glb (p k : Nat) (s : State) : (addVoid p k s).glb = { s.glb with voids := addNew s.glb.voids (p, k) } := rfl
@[simp] theorem addVoid_time (p k : Nat) (s : State) : (addVoid p k s).time = s.time := rfl
@[simp] theorem addVoid_disp (p k : Nat) (s : State) : (addVoid p k s).disp = s.disp := rfl
@[simp] theorem addVoid_cores (p k : Nat) (s : State) : (addVoid p k s).cores = s.cores := rfl
@[simp] theorem addVoid_rsmp (p k : Nat) (s : State) : (addVoid p k s).rsmp = s.rsmp := rfl
@[simp] theorem addVoid_kfs (p k : Nat) (s : State) : (addVoid p k s).kfs = s.kfs := rfl
@[simp] theorem addVoid_fst (p k : Nat) (s : State) : (addVoid p k s).fst = s.fst := rfl
@[simp] theorem addVoid_drc (p k : Nat) (s : State) : (addVoid p k s).drc = s.drc := rfl
@[simp] theorem addVoid_siu (p k : Nat) (s : State) : (addVoid p k s).siu = s.siu := rfl
@[simp] theorem addVoid_hrn (p k : Nat) (s : State) : (addVoid p k s).hrn = s.hrn := rfl
@[simp] theorem addVoid_pci (p k : Nat) (s : State) : (addVoid p k s).pci = s.pci := rfl
@[simp] theorem addVoid_mgt (p k : Nat) (s : State) : (addVoid p k s).mgt = s.mgt := rfl
@[simp] theorem addVoid_rst (p k : Nat) (s : State) : (addVoid p k s).rst = s.rst := rfl
@[simp] theorem addVoid_dru (p k : Nat) (s : State) : (addVoid p k s).dru = s.dru := rfl
@[simp] theorem addVoid_obs (p k : Nat) (s : State) : (addVoid p k s).obs = s.obs := rfl
@[simp] theorem addVoid_flt (p k : Nat) (s : State) : (addVoid p k s).flt = s.flt := rfl
@[simp] theorem addVoid_tap (p k : Nat) (s : State) : (addVoid p k s).tap = s.tap := rfl
@[simp] theorem addVoid_loHost (p k : Nat) (s : State) : (addVoid p k s).loHost = s.loHost := rfl
@[simp] theorem addVoid_loMgt (p k : Nat) (s : State) : (addVoid p k s).loMgt = s.loMgt := rfl
@[simp] theorem addVoid_host (p k : Nat) (s : State) : (addVoid p k s).host = s.host := rfl
@[simp] theorem addVoid_freeSeq (p k : Nat) (s : State) : (addVoid p k s).freeSeq = s.freeSeq := rfl
@[simp] theorem addVoid_runSeq (p k : Nat) (s : State) : (addVoid p k s).runSeq = s.runSeq := rfl

/-! ### setSem -/

@[simp] theorem setSem_pending (i v : Nat) (s : State) : (setSem i v s).pending = s.pending := rfl
@[simp] theorem setSem_clk (i v : Nat) (s : State) : (setSem i v s).clk = s.clk := rfl
@[simp] theorem setSem_glb (i v : Nat) (s : State) : (setSem i v s).glb = s.glb := rfl
@[simp] theorem setSem_time (i v : Nat) (s : State) : (setSem i v s).time = s.time := rfl
@[simp] theorem setSem_disp (i v : Nat) (s : State) : (setSem i v s).disp = { s.disp with sems := putAt 0 s.disp.sems i v } := rfl
@[simp] theorem setSem_cores (i v : Nat) (s : State) : (setSem i v s).cores = s.cores := rfl
@[simp] theorem setSem_rsmp (i v : Nat) (s : State) : (setSem i v s).rsmp = s.rsmp := rfl
@[simp] theorem setSem_kfs (i v : Nat) (s : State) : (setSem i v s).kfs = s.kfs := rfl
@[simp] theorem setSem_fst (i v : Nat) (s : State) : (setSem i v s).fst = s.fst := rfl
@[simp] theorem setSem_drc (i v : Nat) (s : State) : (setSem i v s).drc = s.drc := rfl
@[simp] theorem setSem_siu (i v : Nat) (s : State) : (setSem i v s).siu = s.siu := rfl
@[simp] theorem setSem_hrn (i v : Nat) (s : State) : (setSem i v s).hrn = s.hrn := rfl
@[simp] theorem setSem_pci (i v : Nat) (s : State) : (setSem i v s).pci = s.pci := rfl
@[simp] theorem setSem_mgt (i v : Nat) (s : State) : (setSem i v s).mgt = s.mgt := rfl
@[simp] theorem setSem_rst (i v : Nat) (s : State) : (setSem i v s).rst = s.rst := rfl
@[simp] theorem setSem_dru (i v : Nat) (s : State) : (setSem i v s).dru = s.dru := rfl
@[simp] theorem setSem_obs (i v : Nat) (s : State) : (setSem i v s).obs = s.obs := rfl
@[simp] theorem setSem_flt (i v : Nat) (s : State) : (setSem i v s).flt = s.flt := rfl
@[simp] theorem setSem_tap (i v : Nat) (s : State) : (setSem i v s).tap = s.tap := rfl
@[simp] theorem setSem_loHost (i v : Nat) (s : State) : (setSem i v s).loHost = s.loHost := rfl
@[simp] theorem setSem_loMgt (i v : Nat) (s : State) : (setSem i v s).loMgt = s.loMgt := rfl
@[simp] theorem setSem_host (i v : Nat) (s : State) : (setSem i v s).host = s.host := rfl
@[simp] theorem setSem_freeSeq (i v : Nat) (s : State) : (setSem i v s).freeSeq = s.freeSeq := rfl
@[simp] theorem setSem_runSeq (i v : Nat) (s : State) : (setSem i v s).runSeq = s.runSeq := rfl

/-! ### causeEnds -/

@[simp] theorem causeEnds_pending (b src : Nat) (s : State) : (causeEnds b src s).pending = s.pending := rfl
@[simp] theorem causeEnds_clk (b src : Nat) (s : State) : (causeEnds b src s).clk = s.clk := rfl
@[simp] theorem causeEnds_glb (b src : Nat) (s : State) : (causeEnds b src s).glb = s.glb := rfl
@[simp] theorem causeEnds_time (b src : Nat) (s : State) : (causeEnds b src s).time = s.time := rfl
@[simp] theorem causeEnds_disp (b src : Nat) (s : State) : (causeEnds b src s).disp = s.disp := rfl
@[simp] theorem causeEnds_cores (b src : Nat) (s : State) : (causeEnds b src s).cores = s.cores := rfl
@[simp] theorem causeEnds_rsmp (b src : Nat) (s : State) : (causeEnds b src s).rsmp = s.rsmp := rfl
@[simp] theorem causeEnds_kfs (b src : Nat) (s : State) : (causeEnds b src s).kfs = s.kfs := rfl
@[simp] theorem causeEnds_fst (b src : Nat) (s : State) : (causeEnds b src s).fst = s.fst := rfl
@[simp] theorem causeEnds_drc (b src : Nat) (s : State) : (causeEnds b src s).drc = s.drc := rfl
@[simp] theorem causeEnds_siu (b src : Nat) (s : State) : (causeEnds b src s).siu = s.siu := rfl
@[simp] theorem causeEnds_hrn (b src : Nat) (s : State) : (causeEnds b src s).hrn = s.hrn := rfl
@[simp] theorem causeEnds_pci (b src : Nat) (s : State) : (causeEnds b src s).pci = s.pci := rfl
@[simp] theorem causeEnds_mgt (b src : Nat) (s : State) : (causeEnds b src s).mgt = s.mgt := rfl
@[simp] theorem causeEnds_rst (b src : Nat) (s : State) : (causeEnds b src s).rst = s.rst := rfl
@[simp] theorem causeEnds_dru (b src : Nat) (s : State) : (causeEnds b src s).dru = s.dru := rfl
@[simp] theorem causeEnds_obs (b src : Nat) (s : State) : (causeEnds b src s).obs = s.obs := rfl
@[simp] theorem causeEnds_flt (b src : Nat) (s : State) : (causeEnds b src s).flt = upd s.flt b fun k => { k with cause := putBit k.cause src false } := rfl
@[simp] theorem causeEnds_tap (b src : Nat) (s : State) : (causeEnds b src s).tap = s.tap := rfl
@[simp] theorem causeEnds_loHost (b src : Nat) (s : State) : (causeEnds b src s).loHost = s.loHost := rfl
@[simp] theorem causeEnds_loMgt (b src : Nat) (s : State) : (causeEnds b src s).loMgt = s.loMgt := rfl
@[simp] theorem causeEnds_host (b src : Nat) (s : State) : (causeEnds b src s).host = s.host := rfl
@[simp] theorem causeEnds_freeSeq (b src : Nat) (s : State) : (causeEnds b src s).freeSeq = s.freeSeq := rfl
@[simp] theorem causeEnds_runSeq (b src : Nat) (s : State) : (causeEnds b src s).runSeq = s.runSeq := rfl

/-! ### Time -/

@[simp] theorem passNs_zero (s : State) : passNs s 0 = s := rfl

/-- No time passes to a device cycle that has begun. -/
theorem passToCyc_le {s : State} {c : Nat} (h : c ≤ s.clk.cyc) : passToCyc s c = s := by
  simp [passToCyc, h]

/-- No time passes to the present count. -/
@[simp] theorem passToGtc_self (s : State) : passToGtc s s.clk.gtc = s := by
  simp [passToGtc, nsUntil]

@[simp] theorem passToCyc_self (s : State) : passToCyc s s.clk.cyc = s := passToCyc_le (Nat.le_refl _)

/-! ### The end of a command -/

/-- Nothing that an earlier fire asked for is left to carry out. -/
def Settled (s : State) : Prop := s.dru.req = [] ∧ s.glb.safeDue = none ∧ s.obs.ovfDue = false

theorem clearDue_settled (s : State) : Settled (clearDue s) := ⟨rfl, rfl, rfl⟩

theorem clearDue_eq {s : State} (h : Settled s) : clearDue s = s := by
  obtain ⟨h1, h2, h3⟩ := h
  cases s with
  | mk pending clk glb time disp cores rsmp kfs fst drc siu hrn pci mgt rst dru obs flt tap lh lm host fs rs =>
    cases glb; cases dru; cases obs
    simp_all [clearDue]

theorem settleTrace_eq {s : State} (h : s.obs.ovfDue = false) : settleTrace s = s := by
  simp [settleTrace, h]

theorem settleFences_eq {s : State} (h : s.dru.req = []) : settleFences s = s := by
  cases s with
  | mk pending clk glb time disp cores rsmp kfs fst drc siu hrn pci mgt rst dru obs flt tap lh lm host fs rs =>
    cases dru
    simp_all [settleFences]

theorem settleSafe_eq {s : State} (h : s.glb.safeDue = none) : settleSafe s = s := by
  simp [settleSafe, h]

/-- Where nothing is left to carry out, a command ends with its own effect. -/
theorem settle_eq {s : State} (h : Settled s) : settle s = s := by
  obtain ⟨h1, h2, h3⟩ := h
  simp only [settle, settleTrace_eq h3, settleFences_eq h1, settleSafe_eq h2]
  exact clearDue_eq ⟨h1, h2, h3⟩

/-- After any command out of reset nothing is left to carry out. -/
theorem settle_settled (s : State) : Settled (settle s) := clearDue_settled _

/-- A command out of reset is its effect, followed by what its fires ask for. -/
theorem run_eq {s : State} (f : State → State) (h : s.rst.inReset = false) : run s f = .next (settle (f s)) := by
  simp [run, h]

/-- A command out of reset whose effect asks for nothing more is its effect alone. -/
theorem run_settled {s : State} (f : State → State) (h : s.rst.inReset = false) (hf : Settled (f s)) : run s f = .next (f s) := by
  rw [run_eq f h, settle_eq hf]

/-- Nothing happens while the logic is held in reset. -/
theorem run_reset {s : State} (f : State → State) (h : s.rst.inReset = true) : run s f = .next s := by
  simp [run, h]

end Sys2Proof.Laws
end

