-- ==== Sys2Proof/Laws/Issue.lean ====
section
/-!
SUPPORT. What an instruction does once nothing holds it back: the state in which it acts (06, R146, R149, R152, R153), and the
effect of a lane-wise vector instruction.
-/
namespace Sys2Proof.Laws

open Sys2Proof.Machine

/-- An entry that can issue acts in the state at its cycle of issue. -/
theorem issue_at {s : State} {c : Nat} {q : QId} {w : BitVec 48} {free : Nat} {e : QEnt} {queued : Bool} {t : Nat}
    (ready : State → QEnt → Option Nat) (act : QEnt → State → State) (hr : ready s e = some free)
    (h : IssuesAt s c q w free e queued t) : issue c q w ready act s = act e (issuing s c q queued t) := by
  obtain ⟨_, hl, hh, hq, g, hg, ht⟩ := h
  have hb : (if queued = true then none else slotBad s (ctxOf s c) q w) = none := by
    rcases hq with h | h <;> simp [h]
  simp only [issue, hl, hh, hb, hg, hr, ← ht, issuing, Bool.not_true, Bool.false_eq_true, if_false]

/-- Two changes of one entry of a list are one. -/
theorem upd_upd {α : Type} (l : List α) (i : Nat) (f g : α → α) : upd (upd l i f) i g = upd l i fun a => g (f a) := by
  simp only [upd]
  induction l generalizing i with
  | nil => simp
  | cons a l ih => cases i <;> simp_all

/-- What a lane-wise vector instruction does when it issues. -/
theorem lane_act {c lat : Nat} {d : Bool} {vd : BitVec 5} {srcs : List (BitVec 5)} {ls : List Word} {res : Nat → Word}
    {op : State → QEnt → VRes} {e : QEnt} {s : State} (ho : op s e = .ok [(vd.toNat, ls)] [] none)
    (hl : ls = (List.range 64).map res) :
    vectorAct c 1 lat d (srcs.map BitVec.toNat) op id e s = laneEnd c d lat vd srcs res e s := by
  have hf : (hazardFire c s.clk.cyc (s.clk.cyc + lat) (srcs.map BitVec.toNat) [vd.toNat] s).clk = s.clk :=
    (byFire_hazardFire ..).2.1
  have h1 : addInfl c .vector e.seq (some (s.clk.cyc + lat)) (modCore (putInFlight c (s.clk.cyc + lat) [(vd.toNat, ls)] [] none
      (hazardFire c s.clk.cyc (s.clk.cyc + lat) (srcs.map BitVec.toNat) [vd.toNat] s)) c
      fun k => { k with vu := { k.vu with vAt := s.clk.cyc + 1 } }) = laneIssued c lat vd srcs res e s := by
    simp only [laneIssued, addInfl, putInFlight]
    generalize hazardFire c s.clk.cyc (s.clk.cyc + lat) (srcs.map BitVec.toNat) [vd.toNat] s = u at hf
    simp only [modCore, upd_upd, hl, hf, List.isEmpty_nil, if_true, List.map_cons, List.map_nil]
  simp only [vectorAct, ho, List.map_cons, List.map_nil, id_eq, h1, laneEnd, vuEvent]

theorem clk_foldl {β : Type} (f : State → β → State) (h : ∀ s b, (f s b).clk = s.clk) (l : List β) (s : State) :
    (l.foldl f s).clk = s.clk := by
  induction l generalizing s with
  | nil => rfl
  | cons b l ih => exact (ih _).trans (h s b)

theorem setMem_clk (m : MemId) (v : Mem) (s : State) : (setMem m v s).clk = s.clk := by cases m <;> rfl

theorem countAccess_clk (m : MemId) (w lc : Bool) (n : Nat) (s : State) : (countAccess m w lc n s).clk = s.clk := by
  unfold countAccess
  split <;> (try split) <;> rfl

theorem fireAll_clk (fs : List Fire) (s : State) : (fireAll fs s).clk = s.clk := (byFire_fireAll fs s).2.1

theorem consumed_clk (a : Option Nat) (s : State) : (consumed a s).clk = s.clk := by cases a <;> rfl

theorem readOne_clk (m : MemId) (a : Option Nat) (s : State) (x : Nat × Nat) : (readOne m a s x).clk = s.clk := by
  simp only [readOne, readSpans]
  repeat' split
  all_goals simp only [consumed_clk, fireAll_clk, setMem_clk, countAccess_clk]

/-- A read takes no time of its own. -/
theorem readRun_clk (m : MemId) (a : Option Nat) (b n : Nat) (s : State) : (readRun m a b n s).clk = s.clk :=
  clk_foldl _ (readOne_clk m a) _ s

theorem writeOne_clk (m : MemId) (a : Option Nat) (bs : List Byte) (a0 : Nat) (s : State) (x : Nat × Nat) :
    (writeOne m a bs a0 s x).clk = s.clk := by
  simp only [writeOne]
  split <;> simp only [fireAll_clk, setMem_clk, countAccess_clk]

/-- A write takes no time of its own. -/
theorem writeRun_clk (m : MemId) (a : Option Nat) (b : Nat) (bs : List Byte) (s : State) : (writeRun m a b bs s).clk = s.clk :=
  clk_foldl _ (writeOne_clk m a bs b) _ s

/-- What a consistent vector instruction does when it issues. -/
theorem vector_act {c occ lat : Nat} {d : Bool} {srcs : List Nat} {regs : List (Nat × List Word)} {cells : List Host.Cell}
    {table : Option (Nat × VTable)} {reads : State → State} {op : State → QEnt → VRes} {e : QEnt} {s : State}
    (ho : op s e = .ok regs cells table) (hr : ∀ s, (reads s).clk = s.clk) :
    vectorAct c occ lat d srcs op reads e s = vectorEnd c occ lat d srcs regs cells table reads e s := by
  have hf : (reads (hazardFire c s.clk.cyc (s.clk.cyc + lat) srcs (regs.map Prod.fst) s)).clk = s.clk := by
    rw [hr]; exact (byFire_hazardFire ..).2.1
  have h1 : addInfl c .vector e.seq (some (s.clk.cyc + lat)) (modCore (putInFlight c (s.clk.cyc + lat) regs cells table
      (reads (hazardFire c s.clk.cyc (s.clk.cyc + lat) srcs (regs.map Prod.fst) s))) c
      fun k => { k with vu := { k.vu with vAt := s.clk.cyc + occ } }) = vectorIssued c occ lat srcs regs cells table reads e s := by
    simp only [vectorIssued, addInfl, putInFlight]
    generalize reads (hazardFire c s.clk.cyc (s.clk.cyc + lat) srcs (regs.map Prod.fst) s) = u at hf
    simp only [modCore, upd_upd, hf, List.isEmpty_iff]
    cases table <;> simp
  simp only [vectorAct, ho, h1, vectorEnd]

/-- What an inconsistent vector instruction does when it issues. -/
theorem vector_skip {c occ lat reason : Nat} {d : Bool} {srcs : List Nat} {reads : State → State} {op : State → QEnt → VRes}
    {e : QEnt} {s : State} (ho : op s e = .skip reason) :
    vectorAct c occ lat d srcs op reads e s = vectorSkipped c reason e s := by
  simp only [vectorAct, ho, vectorSkipped]

end Sys2Proof.Laws
end

