-- ==== Sys2Proof/Laws/Access.lean ====
section
/-!
SUPPORT. What the accesses of agents do to the memories, byte by byte, and what becomes visible of the vector writes in flight.
-/
namespace Sys2Proof.Laws
open Sys2Proof Sys2Proof.Machine

/-! ### Cores and memories -/

theorem coreAt_modCore_ne {s : State} {c k : Nat} (f : Core → Core) (h : k ≠ c) : coreAt (modCore s c f) k = coreAt s k :=
  getD_upd_ne _ _ _ _ _ h

theorem coreAt_modCore_same {s : State} {c : Nat} (f : Core → Core) (h : c < s.cores.length) : coreAt (modCore s c f) c = f (coreAt s c) :=
  getD_upd_same _ _ _ _ h

theorem modCore_out {s : State} {c : Nat} (f : Core → Core) (h : s.cores.length ≤ c) : modCore s c f = s := by
  have : upd s.cores c f = s.cores := by rw [upd, List.modify_eq_self h]
  rw [modCore, this]

theorem memOf_byFire {s t : State} (h : ByFire s t) (m : MemId) : memOf t m = memOf s m := by
  have hc := h.2.2.2.2.2.2.2.2.2.2.2.2.2.2.2.2.1
  have key : ∀ c : Nat, (coreAt t c).unmarked = (coreAt s c).unmarked := by
    intro c
    have h1 : ∀ l : List Core, (l.map Core.unmarked).getD c (Core.unmarked {}) = Core.unmarked (l.getD c {}) := by
      intro l
      simp only [List.getD_eq_getElem?_getD, List.getElem?_map]
      cases l[c]? <;> rfl
    exact (h1 _).symm.trans ((congrArg (fun l => List.getD l c (Core.unmarked {})) hc).trans (h1 _))
  cases m with
  | asp c => have h := congrArg Core.asp (key c); exact h
  | wbf c => have h := congrArg Core.wbf (key c); exact h
  | wbs c => have h := congrArg Core.wbs (key c); exact h
  | bst c => have h := congrArg Core.bst (key c); exact h
  | fst => exact congrArg (·.mem) h.2.2.2.2.2.2.1
  | dram => exact congrArg (·.mem) h.2.2.2.2.2.2.2.1
  | intake => exact congrArg (·.buf) h.2.2.2.2.2.2.2.2.1

theorem memOf_setMem_ne {m m' : MemId} (v : Mem) (s : State) (h : m' ≠ m) : memOf (setMem m v s) m' = memOf s m' := by
  cases m <;> cases m' <;> simp only [memOf, setMem] <;> try first | rfl | exact absurd rfl h
  all_goals
    rename_i c c'
    by_cases e : c' = c
    · subst e
      first
        | exact absurd rfl h
        | (by_cases hl : c' < s.cores.length
           · rw [coreAt_modCore_same _ hl]
           · rw [modCore_out _ (by omega)])
    · rw [coreAt_modCore_ne _ e]

theorem memOf_setMem_same {m : MemId} (v : Mem) (s : State) (h : Has s m) : memOf (setMem m v s) m = v := by
  cases m <;> simp only [memOf, setMem] <;> first | rfl | rw [coreAt_modCore_same _ h]

theorem byFire_has {s t : State} (h : ByFire s t) (m : MemId) (hm : Has s m) : Has t m := by
  have hc := congrArg List.length h.2.2.2.2.2.2.2.2.2.2.2.2.2.2.2.2.1
  simp only [List.length_map] at hc
  cases m <;> simp_all [Has]

theorem has_setMem {m m' : MemId} (v : Mem) (s : State) (h : Has s m) : Has (setMem m' v s) m := by
  cases m' <;> cases m <;> first | trivial | simpa [Has, setMem, modCore, upd] using h

theorem memOf_countAccess (m : MemId) (w lc : Bool) (n : Nat) (s : State) (m' : MemId) : memOf (countAccess m w lc n s) m' = memOf s m' := by
  unfold countAccess; split <;> first | rfl | (split <;> (cases m' <;> rfl))

theorem has_countAccess (m : MemId) (w lc : Bool) (n : Nat) (s : State) (m' : MemId) (h : Has s m') : Has (countAccess m w lc n s) m' := by
  unfold countAccess; split <;> first | exact h | (split <;> (cases m' <;> exact h))

theorem memOf_consumed (a : Option Nat) (s : State) (m : MemId) : memOf (consumed a s) m = memOf s m := by
  cases a with
  | none => rfl
  | some c =>
    cases m <;> simp only [memOf, consumed, modSt] <;> try rfl
    all_goals
      rename_i c'
      by_cases e : c' = c
      · subst e
        by_cases hl : c' < s.cores.length
        · rw [coreAt_modCore_same _ hl]
        · rw [modCore_out _ (by omega)]
      · rw [coreAt_modCore_ne _ e]

theorem has_consumed (a : Option Nat) (s : State) (m : MemId) (h : Has s m) : Has (consumed a s) m := by
  cases a <;> cases m <;> first | trivial | simpa [Has, consumed, modSt, modCore, upd] using h

theorem rd_corrected (m : Mem) (w a n x : Nat) : (m.corrected w a n).rd x = m.rd x := by
  unfold Mem.corrected; simp only []; split <;> rfl

/-- A read in spans leaves the bytes of every memory as they were. -/
theorem readSpans_rd (m : MemId) (ag : Option Nat) (l : List (Nat × Nat)) (s : State) (hm : Has s m) :
    Has (readSpans m ag l s) m ∧ ∀ m' y, (memOf (readSpans m ag l s) m').rd y = (memOf s m').rd y := by
  have fix : ∀ (l : List (Nat × Nat)) (v : Mem) y, (l.foldl (fun v x => v.corrected m.word x.1 x.2) v).rd y = v.rd y := by
    intro l; induction l with
    | nil => intros; rfl
    | cons x l ih => intro v y; rw [List.foldl_cons, ih, rd_corrected]
  unfold readSpans
  simp only []
  generalize (l.any fun x => (memOf s m).hasCe m.word x.1 x.2) = ce
  generalize (l.any fun x => (memOf s m).hasUe m.word x.1 x.2) = ue
  have hs := has_countAccess m false (agentLc s ag) (sumN (l.map Prod.snd)) s m hm
  split
  · generalize hv : l.foldl (fun v x => v.corrected m.word x.1 x.2) (memOf s m) = v
    have key : ∀ m' y, (memOf (fireAll (accessFires m (agentWho s ag) ce ue)
          (setMem m v (countAccess m false (agentLc s ag) (sumN (l.map Prod.snd)) s))) m').rd y = (memOf s m').rd y := by
      intro m' y
      rw [memOf_byFire (byFire_fireAll _ _)]
      by_cases e : m' = m
      · subst e; rw [memOf_setMem_same _ _ hs, ← hv, fix]
      · rw [memOf_setMem_ne _ _ e, memOf_countAccess]
    have h2 := byFire_has (byFire_fireAll (accessFires m (agentWho s ag) ce ue) _) m (has_setMem (m' := m) v _ hs)
    split
    · exact ⟨has_consumed _ _ _ h2, fun m' y => by rw [memOf_consumed, key]⟩
    · exact ⟨h2, key⟩
  · exact ⟨hs, fun m' y => by rw [memOf_countAccess]⟩

theorem readOne_rd (m : MemId) (ag : Option Nat) (s : State) (x : Nat × Nat) (hm : Has s m) :
    Has (readOne m ag s x) m ∧ ∀ m' y, (memOf (readOne m ag s x) m').rd y = (memOf s m').rd y :=
  readSpans_rd m ag [x] s hm

theorem memOf_writeOne (m : MemId) (ag : Option Nat) (bs : List Byte) (a0 : Nat) (s : State) (x : Nat × Nat) (hm : Has s m) :
    Has (writeOne m ag bs a0 s x) m ∧ memOf (writeOne m ag bs a0 s x) m = (memOf s m).store m.word x.1 (slice bs (x.1 - a0) x.2) ∧
    ∀ m', m' ≠ m → memOf (writeOne m ag bs a0 s x) m' = memOf s m' := by
  unfold writeOne
  simp only []
  have hs := has_countAccess m true (agentLc s ag) x.2 s m hm
  have h2 := has_setMem (m' := m) ((memOf s m).store m.word x.1 (slice bs (x.1 - a0) x.2)) _ hs
  have key : ∀ m', m' ≠ m → memOf (setMem m ((memOf s m).store m.word x.1 (slice bs (x.1 - a0) x.2)) (countAccess m true (agentLc s ag) x.2 s)) m' = memOf s m' :=
    fun m' e => by rw [memOf_setMem_ne _ _ e, memOf_countAccess]
  split
  · exact ⟨byFire_has (byFire_fireAll _ _) m h2, by rw [memOf_byFire (byFire_fireAll _ _), memOf_setMem_same _ _ hs],
      fun m' e => by rw [memOf_byFire (byFire_fireAll _ _), key m' e]⟩
  · exact ⟨h2, memOf_setMem_same _ _ hs, key⟩

theorem writeFold (m : MemId) (ag : Option Nat) (bs : List Byte) (a0 blk : Nat) (hb : 0 < blk) : ∀ (fuel a n : Nat) (s : State), Has s m → (memOf s m).wf = true →
    a0 ≤ a → a + n = a0 + bs.length → n ≤ fuel * blk - a % blk ∨ n = 0 →
    (∀ x, (memOf ((accessesOf blk a fuel n).foldl (writeOne m ag bs a0) s) m).rd x = if a ≤ x ∧ x < a + n then bs.getD (x - a0) 0 else (memOf s m).rd x) ∧
    ∀ m', m' ≠ m → memOf ((accessesOf blk a fuel n).foldl (writeOne m ag bs a0) s) m' = memOf s m' := by
  intro fuel
  induction fuel with
  | zero => intro a n s _ _ _ _ h; have : n = 0 := by omega
            subst this; simp [accessesOf]
  | succ fuel ih =>
    intro a n s hm hw h1 h2 h3
    cases n with
    | zero => simp [accessesOf]
    | succ n =>
      have hlt := Nat.mod_lt a hb
      simp only [accessesOf, List.foldl_cons]
      generalize hk : min (n + 1) (blk - a % blk) = k
      obtain ⟨g1, g2, g3⟩ := memOf_writeOne m ag bs a0 s (a, k) hm
      have hmod : k = n + 1 ∨ (a + k) % blk = 0 := by
        by_cases e : n + 1 ≤ blk - a % blk
        · left; omega
        · right
          have : k = blk - a % blk := by omega
          have e2 := Nat.div_add_mod a blk
          have : a + k = blk * (a / blk + 1) := by rw [Nat.mul_add]; omega
          rw [this]; exact Nat.mul_mod_right _ _
      have hfu : (fuel + 1) * blk = fuel * blk + blk := by ring
      obtain ⟨i1, i2⟩ := ih (a + k) (n + 1 - k) (writeOne m ag bs a0 s (a, k)) g1 (by rw [g2]; exact wf_store _ _ _ _ hw) (by omega) (by omega)
        (by rcases hmod with h | h <;> [right; left] <;> omega)
      refine ⟨fun x => ?_, fun m' e => by rw [i2 m' e, g3 m' e]⟩
      rw [i1, g2, rd_store, rd_wrN _ _ _ hw]
      have hl : (slice bs (a - a0) k).length = k := by simp [slice]; omega
      simp only [hl]
      by_cases c1 : a + k ≤ x ∧ x < a + k + (n + 1 - k)
      · rw [if_pos c1, if_pos (by omega)]
      · rw [if_neg c1]
        by_cases c2 : a ≤ x ∧ x < a + k
        · rw [if_pos c2, if_pos (by omega)]
          simp only [slice, List.getD_eq_getElem?_getD, List.getElem?_take, List.getElem?_drop]
          rw [if_pos (by omega), show a - a0 + (x - a) = x - a0 by omega]
        · rw [if_neg c2, if_neg (by omega)]

/-! ### Register writes in flight become visible in order -/

theorem mem_sorted (w : VWrite) : ∀ (l : List VWrite) (x : VWrite), x ∈ writeInsert w l ↔ x = w ∨ x ∈ l := by
  intro l; induction l with
  | nil => simp [writeInsert]
  | cons y l ih => intro x; simp only [writeInsert]; split <;> simp [ih] <;> tauto

theorem sortWrites_append (l : List VWrite) (w : VWrite) : sortWrites (l ++ [w]) = writeInsert w (sortWrites l) := by simp [sortWrites]

theorem mem_sortWrites (l : List VWrite) : ∀ x, x ∈ sortWrites l ↔ x ∈ l := by
  induction l using List.reverseRecOn with
  | nil => simp [sortWrites]
  | append_singleton l w ih => intro x; rw [sortWrites_append, mem_sorted, ih]; simp [or_comm]

/-- One register write made. -/
def putWrite (r : List (List Word)) (w : VWrite) : List (List Word) := putAt [] r w.reg w.lanes

theorem putWrite_ne (w : VWrite) (j : Nat) (h : j ≠ w.reg) (r : List (List Word)) : (putWrite r w).getD j [] = r.getD j [] := getD_putAt_ne _ _ _ _ _ h

theorem puts_ne (j : Nat) : ∀ (l : List VWrite) (r : List (List Word)), (∀ w ∈ l, w.reg ≠ j) → (l.foldl putWrite r).getD j [] = r.getD j [] := by
  intro l; induction l with
  | nil => intros; rfl
  | cons w l ih => intro r h; rw [List.foldl_cons, ih _ fun x hx => h x (by simp [hx]), putWrite_ne _ _ (Ne.symm (h w (by simp)))]

theorem puts_congr (j : Nat) : ∀ (l : List VWrite) (r r' : List (List Word)), r.getD j [] = r'.getD j [] → (l.foldl putWrite r).getD j [] = (l.foldl putWrite r').getD j [] := by
  intro l; induction l with
  | nil => intro r r' h; exact h
  | cons w l ih =>
    intro r r' h
    refine ih _ _ ?_
    by_cases e : j = w.reg
    · subst e; rw [putWrite, putWrite, getD_putAt_same, getD_putAt_same]
    · rw [putWrite_ne _ _ e, putWrite_ne _ _ e, h]

/-- a register that the inserted write does not touch -/
theorem insert_ne (w : VWrite) (j : Nat) (h : j ≠ w.reg) : ∀ (l : List VWrite) (r : List (List Word)),
    ((writeInsert w l).foldl putWrite r).getD j [] = (l.foldl putWrite r).getD j [] := by
  intro l; induction l with
  | nil => intro r; exact putWrite_ne _ _ h r
  | cons x l ih =>
    intro r; simp only [writeInsert]; split
    · exact puts_congr j (x :: l) _ _ (putWrite_ne _ _ h r)
    · simp only [List.foldl_cons]; exact ih _

/-- the inserted write is the last of its register -/
theorem insert_same (w : VWrite) : ∀ (l : List VWrite) (r : List (List Word)), (∀ x ∈ l, x.reg = w.reg → x.visibleAt ≤ w.visibleAt) → l.Pairwise (fun a b => a.visibleAt ≤ b.visibleAt) →
    ((writeInsert w l).foldl putWrite r).getD w.reg [] = w.lanes := by
  intro l; induction l with
  | nil => intros; exact getD_putAt_same _ _ _ _
  | cons x l ih =>
    intro r h hp; simp only [writeInsert]; split
    · rename_i hlt
      rw [List.foldl_cons, puts_ne]
      · exact getD_putAt_same _ _ _ _
      · intro y hy e
        have h1 := h y hy e
        have h2 : x.visibleAt ≤ y.visibleAt := by
          rcases List.mem_cons.1 hy with rfl | hy
          · exact le_refl _
          · exact (List.pairwise_cons.1 hp).1 y hy
        omega
    · rw [List.foldl_cons]; exact ih _ (fun y hy => h y (by simp [hy])) (List.pairwise_cons.1 hp).2

theorem insert_sorted (w : VWrite) : ∀ (l : List VWrite), l.Pairwise (fun a b => a.visibleAt ≤ b.visibleAt) → (writeInsert w l).Pairwise (fun a b => a.visibleAt ≤ b.visibleAt) := by
  intro l; induction l with
  | nil => intro _; simp [writeInsert]
  | cons x l ih =>
    intro h; simp only [writeInsert]; split
    · rename_i hlt
      refine List.pairwise_cons.2 ⟨fun y hy => ?_, h⟩
      rcases List.mem_cons.1 hy with rfl | hy
      · omega
      · have := (List.pairwise_cons.1 h).1 y hy; omega
    · refine List.pairwise_cons.2 ⟨fun y hy => ?_, ih (List.pairwise_cons.1 h).2⟩
      rcases (mem_sorted w l y).1 hy with rfl | hy
      · omega
      · exact (List.pairwise_cons.1 h).1 y hy

theorem sortWrites_sorted (l : List VWrite) : (sortWrites l).Pairwise (fun a b => a.visibleAt ≤ b.visibleAt) := by
  induction l using List.reverseRecOn with
  | nil => simp [sortWrites]
  | append_singleton l w ih => rw [sortWrites_append]; exact insert_sorted _ _ ih

theorem vu_modSt (s : State) (c' : Nat) (f : CStat → CStat) (c : Nat) : (coreAt (modSt s c' f) c).vu = (coreAt s c).vu := by
  by_cases e : c = c'
  · subst e
    by_cases h : c < s.cores.length
    · rw [modSt, coreAt_modCore_same _ h]
    · rw [modSt, modCore_out _ (by omega)]
  · rw [modSt, coreAt_modCore_ne _ e]

theorem core_byFire {s t : State} (h : ByFire s t) (c : Nat) : (coreAt t c).unmarked = (coreAt s c).unmarked := by
  have hc := h.2.2.2.2.2.2.2.2.2.2.2.2.2.2.2.2.1
  have h1 : ∀ l : List Core, (l.map Core.unmarked).getD c (Core.unmarked {}) = Core.unmarked (l.getD c {}) := by
    intro l
    simp only [List.getD_eq_getElem?_getD, List.getElem?_map]
    cases l[c]? <;> rfl
  exact (h1 _).symm.trans ((congrArg (fun l => List.getD l c (Core.unmarked {})) hc).trans (h1 _))

theorem len_byFire {s t : State} (h : ByFire s t) : t.cores.length = s.cores.length := by
  have hc := congrArg List.length h.2.2.2.2.2.2.2.2.2.2.2.2.2.2.2.2.1
  simpa using hc

theorem writeOne_vu (m : MemId) (ag : Option Nat) (bs : List Byte) (a0 : Nat) (s : State) (x : Nat × Nat) (c : Nat) :
    (coreAt (writeOne m ag bs a0 s x) c).vu = (coreAt s c).vu ∧ (writeOne m ag bs a0 s x).cores.length = s.cores.length := by
  have h1 : ∀ v s, (coreAt (setMem m v s) c).vu = (coreAt s c).vu ∧ (setMem m v s).cores.length = s.cores.length := by
    intro v s
    cases m <;> simp only [setMem]
    case fst => exact ⟨rfl, trivial⟩
    case dram => exact ⟨rfl, trivial⟩
    case intake => exact ⟨rfl, trivial⟩
    all_goals
      rename_i c'
      refine ⟨?_, by simp [modCore, upd]⟩
      by_cases e : c = c'
      · subst e
        by_cases h : c < s.cores.length
        · rw [coreAt_modCore_same _ h]
        · rw [modCore_out _ (by omega)]
      · rw [coreAt_modCore_ne _ e]
  have h2 : ∀ w lc n s, (coreAt (countAccess m w lc n s) c).vu = (coreAt s c).vu ∧ (countAccess m w lc n s).cores.length = s.cores.length := by
    intro w lc n s; unfold countAccess; split <;> first | exact ⟨rfl, rfl⟩ | (split <;> exact ⟨rfl, rfl⟩)
  unfold writeOne
  simp only []
  split
  · have := congrArg Core.vu (core_byFire (byFire_fireAll (accessFires m (agentWho s ag) ((memOf s m).mergeFinds m.word x.1 x.2).1 ((memOf s m).mergeFinds m.word x.1 x.2).2)
      (setMem m ((memOf s m).store m.word x.1 (slice bs (x.1 - a0) x.2)) (countAccess m true (agentLc s ag) x.2 s))) c)
    exact ⟨this.trans ((h1 _ _).1.trans (h2 _ _ _ _).1), (len_byFire (byFire_fireAll _ _)).trans ((h1 _ _).2.trans (h2 _ _ _ _).2)⟩
  · exact ⟨(h1 _ _).1.trans (h2 _ _ _ _).1, (h1 _ _).2.trans (h2 _ _ _ _).2⟩

theorem fold_vu {β : Type} (f : State → β → State) (c : Nat) (h : ∀ s b, (coreAt (f s b) c).vu = (coreAt s c).vu ∧ (f s b).cores.length = s.cores.length) :
    ∀ (l : List β) (s : State), (coreAt (l.foldl f s) c).vu = (coreAt s c).vu ∧ (l.foldl f s).cores.length = s.cores.length := by
  intro l; induction l with
  | nil => intro s; exact ⟨rfl, rfl⟩
  | cons b l ih => intro s; rw [List.foldl_cons]; exact ⟨(ih _).1.trans (h s b).1, (ih _).2.trans (h s b).2⟩

theorem commit_vu (c t : Nat) (s : State) (h : c < s.cores.length) : (coreAt (commit c t s) c).vu = (coreAt s c).vu.commit t := by
  unfold commit
  rw [coreAt_modCore_same _ h]

theorem lane_eq (s : State) (c : Nat) (r : BitVec 5) (i : Nat) : lane s c r i = if i < 64 then ((coreAt s c).vu.vreg.getD r.toNat []).getD i 0 else 0 := by
  simp only [lane, regLanes, List.getD_eq_getElem?_getD, List.getElem?_map]
  by_cases h : i < 64
  · rw [if_pos h, List.getElem?_range h]; rfl
  · rw [if_neg h]
    have : (List.range 64)[i]? = none := by simp; omega
    rw [this]; rfl

theorem laneIssued_vu (c lat : Nat) (vd : BitVec 5) (srcs : List (BitVec 5)) (res : Nat → Word) (e : QEnt) (s : State) (h : c < s.cores.length) :
    (coreAt (laneIssued c lat vd srcs res e s) c).vu = { (coreAt s c).vu with vAt := s.clk.cyc + 1, vwr := (coreAt s c).vu.vwr ++ [⟨s.clk.cyc + lat, vd.toNat, (List.range 64).map res⟩] } ∧
    c < (laneIssued c lat vd srcs res e s).cores.length := by
  have hl := len_byFire (byFire_hazardFire c s.clk.cyc (s.clk.cyc + lat) (srcs.map BitVec.toNat) [vd.toNat] s)
  have hv := congrArg Core.vu (core_byFire (byFire_hazardFire c s.clk.cyc (s.clk.cyc + lat) (srcs.map BitVec.toNat) [vd.toNat] s) c)
  unfold laneIssued
  constructor
  · rw [coreAt_modCore_same _ (by rw [hl]; exact h)]
    simp only [Core.unmarked] at hv
    simp only [hv]
  · simpa [modCore, upd, hl] using h

theorem core_take (c k : Nat) (q : QId) (b : Bool) (s : State) : (k ≠ c → coreAt (takeEntry c q b s) k = coreAt s k) ∧
    (coreAt (takeEntry c q b s) c).vu = (coreAt s c).vu := by
  refine ⟨fun h => coreAt_modCore_ne _ h, ?_⟩
  by_cases h : c < s.cores.length
  · rw [takeEntry, coreAt_modCore_same _ h]
  · rw [takeEntry, modCore_out _ (by omega)]

end Sys2Proof.Laws
end

