-- ==== Sys2Proof/Laws/Kept.lean ====
section
/-!
SUPPORT. What no operation of the device changes, but for the few that a whole-machine rule names: one equation for each operation
that answers a state. The operations that do change some of it (resets, the TAP, configuration space, the mailbox, some register
writes) are in `Laws/Whole.lean`.
-/
namespace Sys2Proof.Laws
open Sys2Proof Sys2Proof.Machine

/-- The part of the state that only a few commands change: the queue, the TAP, pattern address and request, interrupt enables and the
safe state, the DRAM size, configuration space, fuses, retained SRAM, and the registers of the reset block. -/
structure Kept where
  pending : List Instr
  tap : Tap
  glb : DWord × BitVec 4 × BitVec 11 × Bool
  drc : Bool
  pci : (Bool × Bool × Bool × Bool × Bool) × CfgSpace × AerSet
  mgt : (Otp × Otp) × BitVec 64 × Mem × Option RetRec
  rst : (Bool × Bool × Bool × Bool × Bool × Bool × Bool) × Nat × Word × Gtc

def glbOf (g : Glb) : DWord × BitVec 4 × BitVec 11 × Bool := (g.patAddr, g.patReq, g.irqEn, g.safe)

def drcOf (d : Drc) : Bool := d.attached

def pciOf (p : Pci) : (Bool × Bool × Bool × Bool × Bool) × CfgSpace × AerSet :=
  ((p.bme, p.d3hot, p.msixEn, p.msixMask, p.configured), p.cfg, p.aer)

def mgtOf (m : Mgt) : (Otp × Otp) × BitVec 64 × Mem × Option RetRec := ((m.fuses, m.otp), m.delivered, m.retained, m.rec_)

def rstOf (r : Rst) : (Bool × Bool × Bool × Bool × Bool × Bool × Bool) × Nat × Word × Gtc :=
  ((r.inReset, r.porOn, r.noXtal, r.pinLow, r.minimal, r.cause, r.resumeEn), r.startLimit, r.holdXtal, r.gtcAtAssert)

def keptOf (s : State) : Kept :=
  { pending := s.pending, tap := s.tap, glb := glbOf s.glb, drc := drcOf s.drc, pci := pciOf s.pci, mgt := mgtOf s.mgt
    rst := rstOf s.rst }

theorem kept_mk (s : State) (clk : Clock) (g : Glb) (time : TimeU) (disp : Disp) (cores : List Core) (rsmp : List Rsmp)
    (kfs : Kfs) (fst : Fst) (d : Drc) (siu : Siu) (hrn : Hrn) (p : Pci) (m : Mgt) (r : Rst) (dru : Dru) (obs : Obs)
    (flt : List FltBlock) (lh lm : List (Nat × Word)) (host : Mem) (fs rs : Nat)
    (hg : glbOf g = glbOf s.glb) (hd : drcOf d = drcOf s.drc) (hp : pciOf p = pciOf s.pci) (hm : mgtOf m = mgtOf s.mgt)
    (hr : rstOf r = rstOf s.rst) :
    keptOf (State.mk s.pending clk g time disp cores rsmp kfs fst d siu hrn p m r dru obs flt s.tap lh lm host fs rs) =
      keptOf s := by
  simp [keptOf, hg, hd, hp, hm, hr]

theorem keptOf_ite (c : Prop) [Decidable c] (a b : State) : keptOf (if c then a else b) = if c then keptOf a else keptOf b := by
  split <;> rfl

theorem kept_foldl {α : Type} (l : List α) (f : State → α → State) (h : ∀ s x, keptOf (f s x) = keptOf s) (s : State) :
    keptOf (l.foldl f s) = keptOf s := by
  induction l generalizing s with
  | nil => rfl
  | cons x xs ih => simp [ih, h]

theorem kept_foldl_fst {α β : Type} (l : List α) (f : State × β → α → State × β) (h : ∀ a x, keptOf (f a x).1 = keptOf a.1)
    (a : State × β) : keptOf (l.foldl f a).1 = keptOf a.1 := by
  induction l generalizing a with
  | nil => rfl
  | cons x xs ih => simp [ih, h]

theorem keptOf_ite_fst {β : Type} (c : Prop) [Decidable c] (a b : State × β) :
    keptOf (if c then a else b).1 = if c then keptOf a.1 else keptOf b.1 := by
  split <;> rfl

/-! ### Base -/

theorem kept_modCore (s : State) (c : Nat) (f : Core → Core) : keptOf (modCore s c f) = keptOf s := by
  unfold modCore
  simp only [kept_mk]

theorem kept_modSt (s : State) (c : Nat) (f : CStat → CStat) : keptOf (modSt s c f) = keptOf s := by
  unfold modSt
  simp only [kept_modCore]

theorem kept_modPort (s : State) (p : Nat) (f : Port → Port) : keptOf (modPort s p f) = keptOf s := by
  unfold modPort
  simp only [kept_mk]

theorem kept_modPeer (s : State) (d : Nat) (f : Peer → Peer) : keptOf (modPeer s d f) = keptOf s := by
  unfold modPeer
  simp only [kept_mk]

theorem kept_modDom (s : State) (d : Nat) (f : Dom → Dom) : keptOf (modDom s d f) = keptOf s := by
  unfold modDom
  simp only [kept_mk]

theorem kept_modSub (s : State) (r : Nat) (f : SubRing → SubRing) : keptOf (modSub s r f) = keptOf s := by
  unfold modSub
  simp only [kept_mk]

theorem kept_modRsmp (s : State) (u : Nat) (f : Rsmp → Rsmp) : keptOf (modRsmp s u f) = keptOf s := by
  unfold modRsmp
  simp only [kept_mk]

theorem kept_clockNs (s : State) (n : Nat) : keptOf (clockNs s n) = keptOf s := by
  unfold clockNs
  simp only [keptOf_ite, ite_self, kept_mk]

theorem kept_clockToCyc (s : State) (c : Nat) : keptOf (clockToCyc s c) = keptOf s := by
  unfold clockToCyc
  simp only [kept_clockNs, keptOf_ite, ite_self, kept_mk]

theorem kept_lifeAdd (off w n : Nat) (s : State) : keptOf (lifeAdd off w n s) = keptOf s := by
  unfold lifeAdd
  (repeat' split) <;> first | rfl | simp only [keptOf_ite, ite_self, kept_foldl, implies_true, kept_mk]

theorem kept_bumpFree (s : State) : keptOf (bumpFree s) = keptOf s := by
  unfold bumpFree
  simp only [kept_mk]


/-! ### Fire -/

theorem kept_hostWr (s : State) (a : Nat) (bs : List Byte) : keptOf (hostWr s a bs) = keptOf s := by
  unfold hostWr
  simp only [kept_mk]

theorem kept_stampVec (v : Nat) (s : State) : keptOf (stampVec v s) = keptOf s := by
  unfold stampVec
  simp only [keptOf_ite, ite_self, kept_mk]

theorem kept_postVec (v : Nat) (s : State) : keptOf (postVec v s) = keptOf s := by
  unfold postVec
  (repeat' split) <;> first | rfl | simp only [kept_hostWr, keptOf_ite, ite_self, kept_foldl, implies_true, kept_mk]

theorem kept_sendVec (v : Nat) (s : State) : keptOf (sendVec v s) = keptOf s := by
  unfold sendVec
  simp only [kept_postVec, kept_stampVec, keptOf_ite, ite_self]

theorem kept_flushVecs (s : State) : keptOf (flushVecs s) = keptOf s := by
  unfold flushVecs
  simp only [kept_sendVec, keptOf_ite, ite_self, kept_foldl, implies_true]

theorem kept_trace (ty src : Nat) (payload : BitVec 64) (s : State) : keptOf (trace ty src payload s) = keptOf s := by
  unfold trace
  simp only [keptOf_ite, ite_self, kept_mk]

theorem kept_drainOne (s : State) : keptOf (drainOne s) = keptOf s := by
  unfold drainOne
  (repeat' split) <;> first | rfl | simp only [keptOf_ite, ite_self, kept_foldl, implies_true, kept_mk]

theorem kept_drainTrace (s : State) : keptOf (drainTrace s) = keptOf s := by
  unfold drainTrace
  simp only [kept_drainOne, keptOf_ite, ite_self, kept_foldl, implies_true]

theorem kept_traceDom (d : Nat) (s : State) : keptOf (traceDom d s) = keptOf s := by
  unfold traceDom
  simp only [kept_trace]

theorem kept_slot15 (p : Nat) (bodies : List (BitVec 128)) (s : State) : keptOf (slot15 p bodies s) = keptOf s := by
  unfold slot15
  simp only [kept_modPort]

theorem kept_pushSide (body : BitVec 128) (p : Nat) (s : State) : keptOf (pushSide body p s) = keptOf s := by
  unfold pushSide
  simp only [kept_modPort, kept_slot15]

theorem kept_logSide (body : BitVec 128) (s : State) : keptOf (logSide body s) = keptOf s := by
  unfold logSide
  simp only [keptOf_ite, ite_self, kept_mk]

theorem kept_sendSide (kind dom gen mask tick : Nat) (s : State) : keptOf (sendSide kind dom gen mask tick s) = keptOf s := by
  unfold sendSide
  simp only [kept_logSide, kept_modPeer, kept_pushSide, kept_foldl, implies_true, kept_mk]

theorem kept_sendIdents (s : State) : keptOf (sendIdents s) = keptOf s := by
  unfold sendIdents
  simp only [kept_slot15, kept_foldl, implies_true]

theorem kept_addVoid (p k : Nat) (s : State) : keptOf (addVoid p k s) = keptOf s := rfl

theorem kept_voidAt (pks : List (Nat × Nat)) (s : State) : keptOf (voidAt pks s) = keptOf s := by
  unfold voidAt
  dsimp only
  rw [kept_foldl _ _ (fun s k => kept_sendSide ..), kept_foldl _ _ (fun s pk => kept_addVoid ..)]

theorem kept_voidParts (ps : List Nat) (s : State) : keptOf (voidParts ps s) = keptOf s := by
  unfold voidParts
  simp only [kept_voidAt, keptOf_ite, ite_self]

theorem kept_markVoid (w : Who) (s : State) : keptOf (markVoid w s) = keptOf s := by
  unfold markVoid
  (repeat' split) <;> simp only [kept_modSt]

theorem kept_dueSafe (b src : Nat) (s : State) : keptOf (dueSafe b src s) = keptOf s := by
  unfold dueSafe
  (repeat' split) <;> first | rfl | simp only [keptOf_ite, ite_self, kept_foldl, implies_true, kept_mk]

theorem kept_requestRestart (d : Nat) (s : State) : keptOf (requestRestart d s) = keptOf s := by
  unfold requestRestart
  simp only [keptOf_ite, ite_self, kept_mk]

theorem kept_traceFault (f : Fire) (info : SrcInfo) (lvl : Nat) (esc joins : Bool) (s : State) : keptOf (traceFault f info lvl esc joins s) = keptOf s := by
  unfold traceFault
  simp only [kept_trace, keptOf_ite, ite_self, kept_mk]

theorem kept_fireMsg (f : Fire) (lvl : Nat) (s : State) : keptOf (fireMsg f lvl s) = keptOf s := by
  unfold fireMsg
  simp only [kept_postVec, keptOf_ite, ite_self, kept_mk]

theorem kept_fireEffect (f : Fire) (lvl : Nat) (s : State) : keptOf (fireEffect f lvl s) = keptOf s := by
  unfold fireEffect
  (repeat' split) <;> simp only [kept_dueSafe, kept_requestRestart]

theorem kept_fireOne (s : State) (f : Fire) : keptOf (fireOne s f) = keptOf s := by
  unfold fireOne
  (repeat' split) <;> simp only [kept_fireEffect, kept_fireMsg, kept_markVoid, kept_traceFault, kept_voidParts, keptOf_ite, ite_self, kept_mk]

theorem kept_fireAll (fs : List Fire) (s : State) : keptOf (fireAll fs s) = keptOf s := by
  unfold fireAll
  simp only [kept_fireOne, kept_foldl, implies_true]

theorem kept_fire (f : Fire) (s : State) : keptOf (fire f s) = keptOf s := by
  unfold fire
  simp only [kept_fireAll]

theorem kept_onset (f : Fire) (s : State) : keptOf (onset f s) = keptOf s := by
  unfold onset
  simp only [kept_fire, keptOf_ite, ite_self, kept_mk]

theorem kept_causeEnds (b src : Nat) (s : State) : keptOf (causeEnds b src s) = keptOf s := by
  unfold causeEnds
  simp only [kept_mk]

theorem kept_liveWrite (off : Nat) (s : State) : keptOf (liveWrite off s) = keptOf s := by
  unfold liveWrite
  simp only [kept_fire]


/-! ### Rings -/

theorem kept_modRing (r : RingId) (f : Ring → Ring) (s : State) : keptOf (modRing r f s) = keptOf s := by
  unfold modRing
  (repeat' split) <;> simp only [kept_mk]

theorem kept_ringVector (r : RingId) (s : State) : keptOf (ringVector r s) = keptOf s := by
  unfold ringVector
  (repeat' split) <;> simp only [kept_modRing, kept_sendVec]

theorem kept_ringWrite (r : RingId) (bs : List Byte) (s : State) : keptOf (ringWrite r bs s) = keptOf s := by
  unfold ringWrite
  simp only [kept_hostWr, kept_modRing, kept_ringVector]

theorem kept_postRec (r : RingId) (bs : List Byte) (s : State) : keptOf (postRec r bs s) = keptOf s := by
  unfold postRec
  simp only [kept_fire, kept_modRing, kept_ringWrite, keptOf_ite, ite_self]

theorem kept_flushRing (s : State) (r : RingId) : keptOf (flushRing s r) = keptOf s := by
  unfold flushRing
  simp only [kept_modRing, kept_postRec, kept_foldl, implies_true]

theorem kept_requestsFlow (s : State) : keptOf (requestsFlow s) = keptOf s := by
  unfold requestsFlow
  simp only [kept_flushRing, kept_flushVecs, keptOf_ite, ite_self, kept_foldl, implies_true]

theorem kept_patVec (s : State) : keptOf (patVec s) = keptOf s := by
  unfold patVec
  simp only [kept_sendVec, keptOf_ite, ite_self]

theorem kept_postCpl (s : State) (r : CplRec) : keptOf (postCpl s r) = keptOf s := by
  unfold postCpl
  simp only [kept_postRec]

theorem kept_postHeld (p : Nat) (s : State) : keptOf (postHeld p s) = keptOf s := by
  unfold postHeld
  simp only [kept_postCpl, kept_foldl, implies_true, kept_mk]

theorem kept_lifeTick (s : State) : keptOf (lifeTick s) = keptOf s := by
  unfold lifeTick
  simp only [kept_lifeAdd]

theorem kept_postTick (allVoid : Bool) (s : State) : keptOf (postTick allVoid s) = keptOf s := by
  unfold postTick
  simp only [kept_lifeTick, kept_postRec, kept_mk]


/-! ### Access -/

theorem kept_setMem (m : MemId) (v : Mem) (s : State) : keptOf (setMem m v s) = keptOf s := by
  unfold setMem
  (repeat' split) <;> first | rfl | simp only [kept_modCore, keptOf_ite, ite_self, kept_foldl, implies_true, kept_mk]

theorem kept_consumed (agent : Option Nat) (s : State) : keptOf (consumed agent s) = keptOf s := by
  unfold consumed
  (repeat' split) <;> simp only [kept_modSt]

theorem kept_countAccess (m : MemId) (write : Bool) (lc : Bool) (n : Nat) (s : State) : keptOf (countAccess m write lc n s) = keptOf s := by
  unfold countAccess
  (repeat' split) <;> simp only [kept_mk]

theorem kept_readSpans (m : MemId) (agent : Option Nat) (spans : List (Nat × Nat)) (s : State) : keptOf (readSpans m agent spans s) = keptOf s := by
  unfold readSpans
  simp only [kept_consumed, kept_countAccess, kept_fireAll, kept_setMem, keptOf_ite, ite_self]

theorem kept_readOne (m : MemId) (agent : Option Nat) (s : State) (x : Nat × Nat) : keptOf (readOne m agent s x) = keptOf s := by
  unfold readOne
  simp only [kept_readSpans]

theorem kept_readRun (m : MemId) (agent : Option Nat) (a n : Nat) (s : State) : keptOf (readRun m agent a n s) = keptOf s := by
  unfold readRun
  simp only [kept_readOne, kept_foldl, implies_true]

theorem kept_writeOne (m : MemId) (agent : Option Nat) (bs : List Byte) (a0 : Nat) (s : State) (x : Nat × Nat) : keptOf (writeOne m agent bs a0 s x) = keptOf s := by
  unfold writeOne
  simp only [kept_countAccess, kept_fireAll, kept_setMem, keptOf_ite, ite_self]

theorem kept_writeRun (m : MemId) (agent : Option Nat) (a : Nat) (bs : List Byte) (s : State) : keptOf (writeRun m agent a bs s) = keptOf s := by
  unfold writeRun
  simp only [kept_writeOne, kept_foldl, implies_true]

theorem kept_intakeWrite (a : Nat) (bs : List Byte) (s : State) : keptOf (intakeWrite a bs s) = keptOf s := by
  unfold intakeWrite
  simp only [kept_writeOne, kept_foldl, implies_true]

theorem kept_writeData (m : MemId) (agent : Option Nat) (a : Nat) (bs : List Byte) (bad : Bool) (s : State) : keptOf (writeData m agent a bs bad s) = keptOf s := by
  unfold writeData
  simp only [kept_setMem, kept_writeRun, keptOf_ite, ite_self]

theorem kept_writeCells (mem : Nat → MemId) (agent : Option Nat) (cells : List Host.Cell) (marks : List Bool) (s : State) : keptOf (writeCells mem agent cells marks s) = keptOf s := by
  unfold writeCells
  simp only [kept_setMem, kept_writeRun, kept_foldl, implies_true]

theorem kept_landWr (c : Nat) (s : State) (w : PendWr) : keptOf (landWr c s w) = keptOf s := by
  unfold landWr
  simp only [kept_writeCells]


/-! ### SamplerUnit -/

theorem kept_sampleReads (agent : Option Nat) (t : Src) (cb : Nat) (q : Int × Int) (s : State) : keptOf (sampleReads agent t cb q s).1 = keptOf s := by
  unfold sampleReads
  exact kept_foldl_fst _ _ (fun a x => kept_readRun ..) (s, false)

theorem kept_sampleReads' (agent : Option Nat) (t : Src) (cb : Nat) (q : Int × Int) (s : State) {p} (h : sampleReads agent t cb q s = p) : keptOf p.1 = keptOf s := h ▸ kept_sampleReads ..

theorem kept_sampleWrite (r : SReq) (q : Req) (a : Nat) (bytes : List Byte) (bad : Bool) (s : State) : keptOf (sampleWrite r q a bytes bad s) = keptOf s := by
  unfold sampleWrite
  simp only [kept_modCore, kept_writeData, keptOf_ite, ite_self]

theorem kept_samplePosition (u : Nat) (sr : State × SReq) (g : Nat) : keptOf (samplePosition u sr g).1 = keptOf sr.1 := by
  obtain ⟨s, r⟩ := sr
  have hs : ∀ s2 e i k, keptOf s2 = keptOf s → keptOf (match r.source (reqOf r.req) e with
      | some t => if insideSrc t ((reqOf r.req).position e i) then sampleReads (r.agent s) t ((reqOf r.req).cbFirst + k) ((reqOf r.req).position e i) s2 else (s2, false)
      | none => (s2, false)).1 = keptOf s := by
    intro s2 e i k h
    split
    · rw [keptOf_ite_fst, kept_sampleReads, h, ite_self]
    · exact h
  unfold samplePosition
  simp only [keptOf_ite, kept_writeRun, kept_sampleWrite, ite_self]
  apply hs
  simp only [keptOf_ite, kept_fire, kept_readRun, ite_self]

theorem kept_samplePositions (u upTo : Nat) (s : State) (r : SReq) : keptOf (samplePositions u upTo s r).1 = keptOf s := by
  unfold samplePositions
  exact kept_foldl_fst _ _ (fun a x => kept_samplePosition ..) (s, r)

theorem kept_samplerAdvance (u t : Nat) (s : State) : keptOf (samplerAdvance u t s) = keptOf s := by
  unfold samplerAdvance
  split
  · rfl
  · exact kept_samplePositions ..

theorem kept_samplerStop (c run t : Nat) (s : State) : keptOf (samplerStop c run t s) = keptOf s := by
  unfold samplerStop
  refine kept_foldl _ _ (fun s u => ?_) s
  simp only [kept_modRsmp]
  split <;> simp only [keptOf_ite, kept_modRsmp, kept_samplerAdvance, ite_self]


/-! ### Messages -/

theorem kept_countTx (p : Nat) (s : State) : keptOf (countTx p s) = keptOf s := by
  unfold countTx
  simp only [kept_mk]

theorem kept_retrain (p : Nat) (s : State) : keptOf (retrain p s) = keptOf s := by
  unfold retrain
  simp only [kept_modPort]

theorem kept_freeHolds (s : State) : keptOf (freeHolds s) = keptOf s := by
  unfold freeHolds
  simp only [kept_modPort, kept_foldl, implies_true, kept_mk]

theorem kept_sendFlit (p vc at_ : Nat) (s : State) : keptOf (sendFlit p vc at_ s) = keptOf s := by
  unfold sendFlit
  simp only [kept_countTx, kept_freeHolds, kept_modPort]

theorem kept_resendFlit (p at_ : Nat) (s : State) : keptOf (resendFlit p at_ s) = keptOf s := by
  unfold resendFlit
  (repeat' split) <;> simp only [kept_countTx, kept_fire, kept_lifeAdd, kept_modPort, kept_retrain, keptOf_ite, ite_self]

theorem kept_sendSets (p n : Nat) (s : State) : keptOf (sendSets p n s) = keptOf s := by
  unfold sendSets
  simp only [kept_modPort]

theorem kept_fillSlot (p n : Nat) (s : State) : keptOf (fillSlot p n s) = keptOf s := by
  unfold fillSlot
  simp only [kept_sendSets, keptOf_ite]
  (repeat' split) <;> first | (simp only [kept_resendFlit, kept_sendFlit]; done) | (rw [kept_mk] <;> first | rfl | (simp only [kept_resendFlit, kept_sendFlit, kept_sendSets, keptOf_ite, ite_self, kept_foldl, implies_true, kept_mk]; done)) | (simp only [kept_resendFlit, kept_sendFlit, kept_sendSets, keptOf_ite, ite_self, kept_foldl, implies_true, kept_mk]; rw [kept_mk] <;> first | rfl | (simp only [kept_resendFlit, kept_sendFlit, kept_sendSets, keptOf_ite, ite_self, kept_foldl, implies_true, kept_mk]; done)) | rfl

theorem kept_runSlots (p n : Nat) (s : State) : keptOf (runSlots p n s) = keptOf s := by
  induction n generalizing s with
  | zero => rfl
  | succ n ih =>
    unfold runSlots
    simp only []
    repeat' split
    all_goals first | rfl | simp only [ih, kept_modPort, kept_fillSlot]

theorem kept_portsRun (s : State) : keptOf (portsRun s) = keptOf s := by
  unfold portsRun
  exact kept_foldl _ _ (fun s p => kept_runSlots ..) s

theorem kept_putMsg (p : Nat) (be fwd : Bool) (bs : List Byte) (s : State) : keptOf (putMsg p be fwd bs s) = keptOf s := by
  unfold putMsg
  simp only [kept_modPort]

theorem kept_sendMsg (m : Msg) (data : List Byte) (inPort : Option Nat) (who : Who) (s : State) : keptOf (sendMsg m data inPort who s).1 = keptOf s := by
  unfold sendMsg
  simp only [keptOf_ite_fst, kept_putMsg, kept_fire, ite_self]

theorem kept_sendMsg' (m : Msg) (data : List Byte) (inPort : Option Nat) (who : Who) (s : State) {q} (h : sendMsg m data inPort who s = q) : keptOf q.1 = keptOf s := h ▸ kept_sendMsg ..

theorem kept_remoteErr (c : Nat) (s : State) : keptOf (remoteErr c s) = keptOf s := by
  unfold remoteErr
  simp only [kept_consumed, kept_fire]

theorem kept_modXfers (c : Nat) (f : List Xfer → List Xfer) (s : State) : keptOf (modXfers c f s) = keptOf s := by
  unfold modXfers
  simp only [kept_modCore]

theorem kept_modXfer (c : Nat) (store : Bool) (seq : Nat) (f : Xfer → Xfer) (s : State) : keptOf (modXfer c store seq f s) = keptOf s := by
  unfold modXfer
  simp only [kept_modXfers]

theorem kept_sendRequest (c : Nat) (r : Run) (x : Xfer) (g : Msgs) (m : MsgOut) (s : State) : keptOf (sendRequest c r x g m s) = keptOf s := by
  unfold sendRequest
  simp only []
  generalize hq : (if peerFenced s g.dev = true then (s, false) else sendMsg _ _ none _ s) = q
  have h : keptOf q.1 = keptOf s := by
    rw [← hq, keptOf_ite_fst, kept_sendMsg, ite_self]
  obtain ⟨s2, sent⟩ := q
  simp only [] at h ⊢
  split <;> simp only [kept_modXfer, kept_modPeer, kept_remoteErr, h]

theorem kept_sendMsgs (c : Nat) (store : Bool) (seq n : Nat) (s : State) : keptOf (sendMsgs c store seq n s) = keptOf s := by
  induction n generalizing s with
  | zero => rfl
  | succ n ih =>
    unfold sendMsgs
    split
    · split
      · split
        · exact kept_modXfer ..
        · simp only [keptOf_ite, ih, kept_sendRequest, kept_modXfer, ite_self]
      · rfl
    · rfl

theorem kept_pumpXfers (c : Nat) (store : Bool) (s : State) : keptOf (pumpXfers c store s) = keptOf s := by
  unfold pumpXfers
  (repeat' split) <;> simp only [kept_sendMsgs]


/-! ### KeyedUnit -/

theorem kept_dirPut (set : Nat) (ws : List (Nat × Nat)) (s : State) : keptOf (dirPut set ws s) = keptOf s := by
  unfold dirPut
  simp only [kept_mk]

theorem kept_dirRead (agent : Option Nat) (set : Nat) (s : State) : keptOf (dirRead agent set s) = keptOf s := by
  unfold dirRead
  simp only [kept_dirPut, kept_fireAll, keptOf_ite, ite_self, kept_mk]

theorem kept_keyLookup (agent : Option Nat) (k : Key) (s : State) : keptOf (keyLookup agent k s).1 = keptOf s := by
  unfold keyLookup
  simp only []
  split
  · exact kept_dirRead ..
  · simp only [keptOf_ite_fst, kept_fire, kept_readRun, kept_dirRead, ite_self]

theorem kept_keyLookup' (agent : Option Nat) (k : Key) (s : State) {p} (h : keyLookup agent k s = p) : keptOf p.1 = keptOf s := h ▸ kept_keyLookup ..

theorem kept_keyWrite (agent : Option Nat) (k : Key) (payload : List Byte) (marks : List Bool) (s : State) : keptOf (keyWrite agent k payload marks s) = keptOf s := by
  unfold keyWrite
  simp only [kept_dirPut, kept_dirRead, kept_fire, kept_writeCells, keptOf_ite, ite_self]

theorem kept_priorTouch (h : Hit) (s : State) : keptOf (priorTouch h s) = keptOf s := by
  unfold priorTouch
  simp only [kept_dirPut]

theorem kept_keyReads (agent : Option Nat) (d : Keyed) (n : Nat) (s : State) : keptOf (keyReads agent d n s) = keptOf s := by
  unfold keyReads
  simp only [kept_readRun, keptOf_ite, ite_self]

theorem kept_mapBit (agent : Option Nat) (a n : Nat) (v : Bool) (s : State) : keptOf (mapBit agent a n v s) = keptOf s := by
  unfold mapBit
  simp only [kept_writeRun]

theorem kept_gatherKey (r : KReq) (d : Keyed) (n : Nat) (s : State) : keptOf (gatherKey r d n s) = keptOf s := by
  have hs : ∀ s1, keptOf s1 = keptOf s → ∀ p, (if (r.key s d n).2 = true then (s1, none) else keyLookup (r.agent s) (r.key s d n).1 s1) = p →
      keptOf p.1 = keptOf s := by
    intro s1 h1 p hp
    rw [← hp]; split
    · exact h1
    · rw [kept_keyLookup, h1]
  have h := hs (keyReads (r.agent s) d n s) (kept_keyReads ..) _ rfl
  unfold gatherKey
  simp only []
  generalize (if (r.key s d n).2 = true then (keyReads (r.agent s) d n s, none) else keyLookup (r.agent s) (r.key s d n).1 (keyReads (r.agent s) d n s)) = p at h ⊢
  obtain ⟨s2, hit⟩ := p
  simp only [] at h ⊢
  split <;> simp only [keptOf_ite, kept_priorTouch, kept_writeRun, kept_mapBit, kept_foldl, kept_writeData, implies_true, ite_self, h]

theorem kept_scatterKey (r : KReq) (d : Keyed) (n : Nat) (s : State) : keptOf (scatterKey r d n s) = keptOf s := by
  unfold scatterKey
  simp only [kept_keyReads, kept_keyWrite, kept_readRun, keptOf_ite, ite_self, kept_foldl, implies_true]

theorem kept_keyStep (s : State) (r : KReq) (n : Nat) : keptOf (keyStep s r n) = keptOf s := by
  unfold keyStep
  simp only [kept_gatherKey, kept_scatterKey, keptOf_ite, ite_self]

theorem kept_keyedAdvance (t : Nat) (s : State) : keptOf (keyedAdvance t s) = keptOf s := by
  unfold keyedAdvance
  (repeat' split) <;> simp only [kept_keyStep, keptOf_ite, ite_self, kept_foldl, implies_true, kept_mk]

theorem kept_forgetGather (r : KReq) (s : State) : keptOf (forgetGather r s) = keptOf s := by
  unfold forgetGather
  simp only [kept_bumpFree, kept_writeRun, keptOf_ite, ite_self]

theorem kept_keyedStop (c run t : Nat) (s : State) : keptOf (keyedStop c run t s) = keptOf s := by
  unfold keyedStop
  simp only [kept_forgetGather, kept_foldl, implies_true, kept_mk]
  (repeat' split) <;> first | (simp only [kept_forgetGather, kept_keyedAdvance, kept_mk]; done) | (rw [kept_mk] <;> first | rfl | (simp only [kept_forgetGather, kept_keyedAdvance, keptOf_ite, ite_self, kept_foldl, implies_true, kept_mk]; done)) | (simp only [kept_forgetGather, kept_keyedAdvance, keptOf_ite, ite_self, kept_foldl, implies_true, kept_mk]; rw [kept_mk] <;> first | rfl | (simp only [kept_forgetGather, kept_keyedAdvance, keptOf_ite, ite_self, kept_foldl, implies_true, kept_mk]; done)) | rfl


/-! ### Insertion -/

theorem kept_insertCell (t : Tile) (s : State) (rc : Nat × Nat) : keptOf (insertCell t s rc) = keptOf s := by
  unfold insertCell
  simp only [kept_keyWrite]

theorem kept_insertNext (c : Nat) (s : State) : keptOf (insertNext c s) = keptOf s := by
  unfold insertNext
  (repeat' split) <;> simp only [kept_insertCell, kept_mk]


/-! ### Engines -/

theorem kept_landDue (t : Nat) (s : State) (c : Nat) : keptOf (landDue t s c) = keptOf s := by
  unfold landDue
  simp only [kept_landWr, kept_modCore, kept_foldl, implies_true]

theorem kept_spansDue (t : Nat) (s : State) (c : Nat) : keptOf (spansDue t s c) = keptOf s := by
  unfold spansDue
  simp only [kept_fire, kept_modCore, kept_foldl, implies_true]

theorem kept_pumpAll (s : State) : keptOf (pumpAll s) = keptOf s := by
  unfold pumpAll
  simp only [kept_pumpXfers, kept_foldl, implies_true]

theorem kept_happen (c : Nat) (s0 : State) : keptOf (happen c s0) = keptOf s0 := by
  unfold happen
  simp only [kept_insertNext, kept_keyedAdvance, kept_landDue, kept_portsRun, kept_pumpAll, kept_samplerAdvance, kept_spansDue, kept_foldl, implies_true]

theorem kept_engines (lim n : Nat) (s : State) : keptOf (engines lim n s) = keptOf s := by
  induction n generalizing s with
  | zero => rfl
  | succ n ih =>
    unfold engines
    split
    · rfl
    · simp only [keptOf_ite, ih, kept_happen, kept_clockToCyc, ite_self]

theorem kept_runUnits (lim : Nat) (s : State) : keptOf (runUnits lim s) = keptOf s := by
  unfold runUnits
  simp only [kept_drainTrace, kept_engines]

theorem kept_passNs (s : State) (n : Nat) : keptOf (passNs s n) = keptOf s := by
  unfold passNs
  simp only [kept_clockNs, kept_portsRun, kept_runUnits, keptOf_ite, ite_self]

theorem kept_passToCyc (s : State) (c : Nat) : keptOf (passToCyc s c) = keptOf s := by
  unfold passToCyc
  simp only [kept_clockToCyc, kept_portsRun, kept_runUnits, keptOf_ite, ite_self]

theorem kept_passToGtc (s : State) (g : Gtc) : keptOf (passToGtc s g) = keptOf s := by
  unfold passToGtc
  simp only [kept_passNs]

theorem kept_passToOff (s : State) (o : Nat) : keptOf (passToOff s o) = keptOf s := by
  unfold passToOff
  simp only [kept_passToGtc]


/-! ### Upsets -/

theorem kept_strikeWord (m : EccMem) (k : Nat) (double : Bool) (s : State) : keptOf (strikeWord m k double s) = keptOf s := by
  unfold strikeWord
  (repeat' split) <;> first | rfl | simp only [kept_setMem]

theorem kept_strike (s : State) (x : Strike) : keptOf (strike s x) = keptOf s := by
  unfold strike
  (repeat' split) <;> first | rfl | simp only [kept_fire, kept_strikeWord]

theorem kept_strikes (up : List Strike) (s : State) : keptOf (strikes up s) = keptOf s := by
  unfold strikes
  simp only [kept_strike, kept_foldl, implies_true]


/-! ### Flash -/

theorem kept_lifeWrite (s : State) : keptOf (lifeWrite s) = keptOf s := by
  unfold lifeWrite
  split
  · rfl
  split
  · exact kept_fire ..
  · have ht : ∀ (m : Mgt) a, 0x900000 ≤ a → m.touched a = m := by
      intro m a ha
      unfold Mgt.touched slotBase
      rw [if_neg (by omega)]
    have ha : 0x900000 ≤ lifeCopy (s.mgt.lifeSeq + 1) := Nat.le_add_right ..
    rw [kept_mk s _ _ _ _ _ _ _ _ _ _ _ _ _ _ _ _ _ _ _ _ _ _ rfl rfl rfl ?_ rfl]
    simp only [mgtOf, Mgt.program, Mgt.eraseSector, ht _ _ ha]


/-! ### Ops -/

theorem kept_logSkip (c slot reason bundle : Nat) (s : State) : keptOf (logSkip c slot reason bundle s) = keptOf s := by
  unfold logSkip
  simp only [kept_fire, kept_modSt]

theorem kept_signalToken (c slot bundle t : Nat) (s : State) : keptOf (signalToken c slot bundle t s) = keptOf s := by
  unfold signalToken
  simp only [kept_logSkip, kept_modSt, keptOf_ite, ite_self]

theorem kept_setSem (i v : Nat) (s : State) : keptOf (setSem i v s) = keptOf s := by
  unfold setSem
  simp only [kept_mk]

theorem kept_semGive (q : SemReq) (s : State) : keptOf (semGive q s) = keptOf s := by
  unfold semGive
  simp only [kept_modCore, kept_setSem, kept_mk]

theorem kept_semGrantOne (i : Nat) (s : State) : keptOf (semGrantOne i s) = keptOf s := by
  unfold semGrantOne
  (repeat' split) <;> simp only [kept_passToCyc, kept_semGive]

theorem kept_semGrantDue (i : Nat) (s : State) : keptOf (semGrantDue i s) = keptOf s := by
  unfold semGrantDue
  (repeat' split) <;> simp only [kept_semGive]

theorem kept_semGrants (i : Nat) (s : State) : keptOf (semGrants i s) = keptOf s := by
  unfold semGrants
  simp only [kept_semGrantDue, kept_foldl, implies_true]

theorem kept_semReturn (i n : Nat) (s : State) : keptOf (semReturn i n s) = keptOf s := by
  unfold semReturn
  simp only [kept_semGrants, kept_setSem]

theorem kept_dropSems (c : Nat) (s : State) : keptOf (dropSems c s) = keptOf s := by
  unfold dropSems
  simp only [kept_modSt, kept_semReturn, kept_foldl, implies_true, kept_mk]

theorem kept_traceEnd (c status reason cycles : Nat) (s : State) : keptOf (traceEnd c status reason cycles s) = keptOf s := by
  unfold traceEnd
  simp only [kept_trace]

theorem kept_countRun (c kind n : Nat) (s : State) : keptOf (countRun c kind n s) = keptOf s := by
  unfold countRun
  simp only [kept_modSt]

theorem kept_countStall (c t : Nat) (s : State) : keptOf (countStall c t s) = keptOf s := by
  unfold countStall
  (repeat' split) <;> simp only [kept_countRun, kept_modCore]

theorem kept_dropRemote (c run : Nat) (s : State) : keptOf (dropRemote c run s) = keptOf s := by
  unfold dropRemote
  simp only [kept_mk]

theorem kept_leaveCore (c idleAt : Nat) (s : State) : keptOf (leaveCore c idleAt s) = keptOf s := by
  unfold leaveCore
  simp only [kept_countStall, kept_dropSems, kept_modCore]

theorem kept_abortRun (c : Nat) (r : Run) (reason : Nat) (s : State) : keptOf (abortRun c r reason s) = keptOf s := by
  unfold abortRun
  simp only [kept_countRun, kept_dropRemote, kept_keyedStop, kept_leaveCore, kept_samplerStop, kept_traceEnd]

theorem kept_modJob (stage job : Nat) (f : LcJob → LcJob) (s : State) : keptOf (modJob stage job f s) = keptOf s := by
  unfold modJob
  simp only [kept_mk]

theorem kept_modCmd (stage job idx : Nat) (f : LcCmd → LcCmd) (s : State) : keptOf (modCmd stage job idx f s) = keptOf s := by
  unfold modCmd
  simp only [kept_modJob]

theorem kept_jobsEnded (stage p : Nat) (s : State) : keptOf (jobsEnded stage p s) = keptOf s := by
  unfold jobsEnded
  simp only [kept_fire, keptOf_ite, ite_self, kept_mk]

theorem kept_lcOver (stage job idx status cycles : Nat) (s : State) : keptOf (lcOver stage job idx status cycles s) = keptOf s := by
  unfold lcOver
  (repeat' split) <;> simp only [kept_jobsEnded, kept_modCmd, kept_modSt, kept_mk]

theorem kept_modBe (r : Nat) (f : BeJob → BeJob) (s : State) : keptOf (modBe r f s) = keptOf s := by
  unfold modBe
  simp only [kept_modSub]

theorem kept_pickTurn (p slice fuel last : Nat) (s : State) : keptOf (pickTurn p slice fuel last s).1 = keptOf s := by
  induction fuel generalizing last s with
  | zero => rfl
  | succ n ih =>
    unfold pickTurn
    split
    · rfl
    · simp only [keptOf_ite_fst, ih, kept_modBe, ite_self]

theorem kept_pickTurn' (p slice fuel last : Nat) (s : State) {q} (h : pickTurn p slice fuel last s = q) : keptOf q.1 = keptOf s := h ▸ kept_pickTurn ..

theorem kept_beginTurn (p : Nat) (s : State) : keptOf (beginTurn p s) = keptOf s := by
  unfold beginTurn
  simp only []
  have h := kept_pickTurn p s.disp.slice.1 (8 + sumN (s.disp.subs.map fun k => ((k.job.map BeJob.debt).getD 0) / (s.disp.slice.1 + 1) * 8 + 8))
    (s.disp.lastRing.getD p 7) s
  generalize pickTurn p s.disp.slice.1 _ _ s = q at h ⊢
  obtain ⟨s1, pick⟩ := q
  simp only [] at h ⊢
  split <;> simp only [kept_mk, kept_modBe, h]

theorem kept_startTurns (s : State) : keptOf (startTurns s) = keptOf s := by
  unfold startTurns
  simp only [kept_beginTurn, keptOf_ite, ite_self, kept_foldl, implies_true]

theorem kept_beJobEnd (r : Nat) (seq : Word) (status : Nat) (s : State) : keptOf (beJobEnd r seq status s) = keptOf s := by
  unfold beJobEnd
  simp only []
  (repeat' split) <;> first | (simp only [kept_beginTurn, kept_modSub]; done) | (rw [kept_mk] <;> first | rfl | (simp only [kept_beginTurn, kept_modSub, keptOf_ite, ite_self, kept_foldl, implies_true, kept_mk]; done)) | (simp only [kept_beginTurn, kept_modSub, keptOf_ite, ite_self, kept_foldl, implies_true, kept_mk]; rw [kept_mk] <;> first | rfl | (simp only [kept_beginTurn, kept_modSub, keptOf_ite, ite_self, kept_foldl, implies_true, kept_mk]; done)) | rfl

theorem kept_beOver (r idx core status cycles : Nat) (s : State) : keptOf (beOver r idx core status cycles s) = keptOf s := by
  unfold beOver
  (repeat' split) <;> simp only [kept_beJobEnd, kept_modSt, kept_modSub, kept_postCpl, keptOf_ite, ite_self]

theorem kept_beAborted (r idx : Nat) (s : State) : keptOf (beAborted r idx s) = keptOf s := by
  unfold beAborted
  (repeat' split) <;> simp only [kept_fire, kept_modSub, keptOf_ite, ite_self]

theorem kept_runOver (c : Nat) (r : Run) (status cycles : Nat) (s : State) : keptOf (runOver c r status cycles s) = keptOf s := by
  unfold runOver
  simp only [kept_beOver, kept_lcOver, keptOf_ite, ite_self]

theorem kept_endRun (c : Nat) (status reason : Nat) (s : State) : keptOf (endRun c status reason s) = keptOf s := by
  unfold endRun
  (repeat' split) <;> simp only [kept_abortRun, kept_runOver]

theorem kept_countTransient (c unit : Nat) (inj : Bool) (s : State) : keptOf (countTransient c unit inj s) = keptOf s := by
  unfold countTransient
  simp only []
  (repeat' split) <;> first | (simp only [kept_fire, kept_modSt, kept_mk]; done) | (rw [kept_mk] <;> first | rfl | (simp only [kept_fire, kept_modSt, keptOf_ite, ite_self, kept_foldl, implies_true, kept_mk]; done)) | (simp only [kept_fire, kept_modSt, keptOf_ite, ite_self, kept_foldl, implies_true, kept_mk]; rw [kept_mk] <;> first | rfl | (simp only [kept_fire, kept_modSt, keptOf_ite, ite_self, kept_foldl, implies_true, kept_mk]; done)) | rfl

theorem kept_replayClean (c : Nat) (ev : DisEvent) (s : State) : keptOf (replayClean c ev s) = keptOf s := by
  unfold replayClean
  simp only [kept_countTransient, kept_fire]

theorem kept_persist (c : Nat) (ev : DisEvent) (lc : Bool) (part : Nat) (s : State) : keptOf (persist c ev lc part s) = keptOf s := by
  unfold persist
  simp only [kept_fire, kept_voidParts, keptOf_ite, ite_self]

theorem kept_lifeDisagree (c : Nat) (det : Word) (s : State) : keptOf (lifeDisagree c det s) = keptOf s := by
  unfold lifeDisagree
  simp only [kept_lifeAdd]

theorem kept_disagree (c : Nat) (ev : DisEvent) (s : State) : keptOf (disagree c ev s) = keptOf s := by
  unfold disagree
  (repeat' split) <;> simp only [kept_abortRun, kept_beAborted, kept_lifeDisagree, kept_modBe, kept_modCmd, kept_persist, kept_runOver, keptOf_ite, ite_self, kept_foldl, implies_true]

theorem kept_discardSkips (c : Nat) (r : Run) (s : State) : keptOf (discardSkips c r s) = keptOf s := by
  unfold discardSkips
  simp only [kept_logSkip, kept_foldl, implies_true]

theorem kept_finishRun (c extra : Nat) (s : State) : keptOf (finishRun c extra s) = keptOf s := by
  unfold finishRun
  (repeat' split) <;> simp only [kept_countRun, kept_discardSkips, kept_leaveCore, kept_replayClean, kept_runOver, kept_traceEnd, keptOf_ite, ite_self]

theorem kept_stopSwatch (c : Nat) (s : State) : keptOf (stopSwatch c s) = keptOf s := by
  unfold stopSwatch
  (repeat' split) <;> simp only [kept_countRun, kept_modSt]

theorem kept_abandonIntake (s : State) : keptOf (abandonIntake s) = keptOf s := by
  unfold abandonIntake
  simp only [kept_mk]

theorem kept_markFence (d : Nat) (cs : List Nat) (s : State) : keptOf (markFence d cs s) = keptOf s := by
  unfold markFence
  simp only [kept_mk]

theorem kept_fenceDomain (d : Nat) (s : State) : keptOf (fenceDomain d s) = keptOf s := by
  unfold fenceDomain
  simp only [kept_abandonIntake, kept_endRun, kept_markFence, kept_modDom, kept_sendSide, kept_stopSwatch, kept_traceDom, kept_voidParts, keptOf_ite, ite_self, kept_foldl, implies_true, kept_mk]

theorem kept_stopCores (s : State) : keptOf (stopCores s) = keptOf s := by
  unfold stopCores
  refine kept_foldl _ _ (fun s c => ?_) s
  simp only [kept_stopSwatch]
  split <;> simp only [kept_abortRun]

theorem kept_holdEnded (s0 s : State) : keptOf (holdEnded s0 s) = keptOf s := by
  unfold holdEnded
  refine kept_foldl _ _ (fun s c => ?_) s
  split
  · simp only [keptOf_ite, kept_lcOver, ite_self]
  · rfl

theorem kept_settleTrace (s : State) : keptOf (settleTrace s) = keptOf s := by
  unfold settleTrace
  simp only [kept_fire, keptOf_ite, ite_self, kept_mk]

theorem kept_settleFences (s : State) : keptOf (settleFences s) = keptOf s := by
  unfold settleFences
  simp only [kept_fenceDomain, kept_foldl, implies_true, kept_mk]

theorem kept_clearDue (s : State) : keptOf (clearDue s) = keptOf s := rfl


/-! ### Discipline -/

theorem kept_judgeAligned (s : State) : keptOf (judgeAligned s) = keptOf s := by
  unfold judgeAligned
  simp only [kept_causeEnds, kept_onset, keptOf_ite, ite_self, kept_mk]

theorem kept_applyServo (e : Int) (s : State) : keptOf (applyServo e s) = keptOf s := by
  unfold applyServo
  simp only [keptOf_ite, ite_self, kept_mk]

theorem kept_measure (e0 : Int) (s : State) : keptOf (Machine.measure e0 s) = keptOf s := by
  unfold Machine.measure
  have h : keptOf (applyServo (clampE e0) (judgeAligned (causeEnds bTIME 2 { s with time := s.time.accept (clampE e0) s.clk.ns }))) = keptOf s := by
    rw [kept_applyServo, kept_judgeAligned, kept_causeEnds]; rfl
  simp only [keptOf_ite, kept_fire, h, ite_self]

theorem kept_pinMeasure (capture : Gtc) (p : Nat) (s : State) : keptOf (pinMeasure capture p s) = keptOf s := by
  unfold pinMeasure
  simp only [kept_fire, kept_measure, keptOf_ite, ite_self]

theorem kept_ppsEdge (s : State) : keptOf (ppsEdge s) = keptOf s := by
  unfold ppsEdge
  simp only [kept_pinMeasure, keptOf_ite, ite_self, kept_mk]

theorem kept_syncEdge (s : State) : keptOf (syncEdge s) = keptOf s := by
  unfold syncEdge
  simp only [kept_pinMeasure, keptOf_ite, ite_self, kept_mk]

theorem kept_holdover (s : State) : keptOf (holdover s) = keptOf s := by
  unfold holdover
  (repeat' split) <;> simp only [kept_onset, kept_passNs, kept_mk]

theorem kept_ppsOut (s : State) : keptOf (ppsOut s) = keptOf s := by
  unfold ppsOut
  simp only [kept_passNs, keptOf_ite, ite_self, kept_mk]

theorem kept_syncOut (s : State) : keptOf (syncOut s) = keptOf s := by
  unfold syncOut
  (repeat' split) <;> simp only [kept_passNs, kept_mk]

theorem kept_toEdge (s : State) : keptOf (toEdge s) = keptOf s := by
  unfold toEdge
  simp only [kept_passToCyc, keptOf_ite, ite_self]

theorem kept_droopEdge (s : State) : keptOf (droopEdge s) = keptOf s := by
  unfold droopEdge
  simp only [kept_fire, kept_trace, keptOf_ite, ite_self, kept_mk]

theorem kept_droop (d : Nat) (s : State) : keptOf (droop d s) = keptOf s := by
  unfold droop
  simp only [kept_droopEdge, kept_toEdge, keptOf_ite, ite_self, kept_mk]

theorem kept_offsetIn (e : Word) (s : State) : keptOf (offsetIn e s) = keptOf s := by
  unfold offsetIn
  simp only [kept_measure, keptOf_ite, ite_self]

theorem kept_timeStep (hi : Bool) (v : Word) (s : State) : keptOf (timeStep hi v s) = keptOf s := by
  unfold timeStep
  simp only [kept_liveWrite, keptOf_ite, ite_self, kept_mk]


/-! ### Regs -/

theorem kept_readBy (mgt : Bool) (o : Nat) (s : State) : keptOf (readBy mgt o s).1 = keptOf s := by
  unfold readBy
  cases mgt <;> simp only [] <;> split <;> (try split) <;> rfl

theorem kept_readBy' (mgt : Bool) (o : Nat) (s : State) {p} (h : readBy mgt o s = p) : keptOf p.1 = keptOf s := h ▸ kept_readBy ..

theorem kept_answerUr (s : State) : keptOf (answerUr s) = keptOf s := by
  unfold answerUr
  (repeat' split) <;> first | (simp only [kept_fire]; done) | (rw [kept_mk] <;> first | rfl | (simp only [kept_fire]; done)) | (simp only [kept_fire]; rw [kept_mk] <;> first | rfl | (simp only [kept_fire, keptOf_ite, ite_self, kept_foldl, implies_true, kept_mk]; done)) | rfl

theorem kept_postedUr (s : State) : keptOf (postedUr s) = keptOf s := by
  unfold postedUr
  (repeat' split) <;> first | (simp only [kept_fire]; done) | (rw [kept_mk] <;> first | rfl | (simp only [kept_fire]; done)) | (simp only [kept_fire]; rw [kept_mk] <;> first | rfl | (simp only [kept_fire, keptOf_ite, ite_self, kept_foldl, implies_true, kept_mk]; done)) | rfl

theorem kept_useReg (o : Nat) (s : State) : keptOf (useReg o s) = keptOf s := by
  unfold useReg
  (repeat' split) <;> first | (simp only [kept_fire]; done) | (rw [kept_mk] <;> first | rfl | (simp only [kept_fire]; done)) | (simp only [kept_fire]; rw [kept_mk] <;> first | rfl | (simp only [kept_fire, keptOf_ite, ite_self, kept_foldl, implies_true, kept_mk]; done)) | rfl

theorem kept_freshReg (o : Nat) (s : State) : keptOf (freshReg o s) = keptOf s := by
  unfold freshReg
  (repeat' split) <;> first | rfl | simp only [keptOf_ite, ite_self, kept_foldl, implies_true, kept_mk]

theorem kept_readRegs (mgt : Bool) (o n : Nat) (s : State) : keptOf (readRegs mgt o n s).1 = keptOf s := by
  induction n generalizing o s with
  | zero => rfl
  | succ n ih =>
    unfold readRegs
    simp only [ih, kept_readBy, kept_useReg]

theorem kept_readRegs' (mgt : Bool) (o n : Nat) (s : State) {q} (h : readRegs mgt o n s = q) : keptOf q.1 = keptOf s := h ▸ kept_readRegs ..

theorem kept_regRead (mgt : Bool) (o n : Nat) (full : Bool) (s : State) : keptOf (regRead mgt o n full s) = keptOf s := by
  unfold regRead
  have h : ∀ a, keptOf { (readRegs false o n s).1 with pci := { (readRegs false o n s).1.pci with ans := a } } = keptOf s :=
    fun a => (show _ = keptOf (readRegs false o n s).1 from rfl).trans (kept_readRegs ..)
  simp only [keptOf_ite, kept_readRegs, kept_answerUr, h, ite_self]


/-! ### Firmware -/

theorem kept_lifeSecond (s : State) : keptOf (lifeSecond s) = keptOf s := by
  unfold lifeSecond
  simp only []
  split <;> simp only [kept_lifeAdd]

theorem kept_lifeBlock (s : State) (b : Nat) : keptOf (lifeBlock s b) = keptOf s := by
  unfold lifeBlock
  simp only [kept_lifeAdd, keptOf_ite, ite_self, kept_foldl, implies_true]

theorem kept_lifeUpdate (s : State) : keptOf (lifeUpdate s) = keptOf s := by
  unfold lifeUpdate
  split
  · rfl
  · have h : keptOf ((List.range 36).foldl lifeBlock s) = keptOf s := kept_foldl _ _ (fun s c => kept_lifeBlock ..) s
    simp only [keptOf_ite, kept_lifeSecond]
    generalize (List.range 36).foldl lifeBlock s = t at h ⊢
    rw [kept_mk t, h, ite_self] <;> rfl


/-! ### Issue -/

theorem kept_takeEntry (c : Nat) (q : QId) (queued : Bool) (s : State) : keptOf (takeEntry c q queued s) = keptOf s := by
  unfold takeEntry
  simp only [kept_modCore]

theorem kept_openGates (c m seq t : Nat) (s : State) : keptOf (openGates c m seq t s) = keptOf s := by
  unfold openGates
  simp only [kept_modCore]

theorem kept_addInfl (c : Nat) (q : QId) (seq : Nat) (doneAt : Option Nat) (s : State) : keptOf (addInfl c q seq doneAt s) = keptOf s := by
  unfold addInfl
  simp only [kept_modCore]

theorem kept_releaseHeld (c : Nat) (q : QId) (n : Nat) (s : State) : keptOf (releaseHeld c q n s) = keptOf s := by
  induction n generalizing s with
  | zero => rfl
  | succ n ih =>
    unfold releaseHeld
    split
    · rfl
    · split
      · rfl
      · simp only [ih, kept_signalToken, kept_modCore]

theorem kept_completeEntry (c : Nat) (q : QId) (seq bundle token : Nat) (s : State) : keptOf (completeEntry c q seq bundle token s) = keptOf s := by
  unfold completeEntry
  simp only [kept_modCore, kept_releaseHeld]

theorem kept_commit (c t : Nat) (s : State) : keptOf (commit c t s) = keptOf s := by
  unfold commit
  simp only [kept_modCore]

theorem kept_issue (c : Nat) (q : QId) (w : BitVec 48) (ready : State → QEnt → Option Nat) (act : QEnt → State → State)
    (h : ∀ e s, keptOf (act e s) = keptOf s) (s : State) : keptOf (issue c q w ready act s) = keptOf s := by
  unfold issue
  repeat' split
  all_goals first | rfl | simp only [kept_logSkip, kept_takeEntry, h, kept_commit, kept_passToCyc]

theorem kept_skipAtIssue (c : Nat) (q : QId) (e : QEnt) (reason token : Nat) (s : State) : keptOf (skipAtIssue c q e reason token s) = keptOf s := by
  unfold skipAtIssue
  simp only [kept_addInfl, kept_logSkip, kept_modCore, kept_signalToken]

theorem kept_hazardFire (c t v : Nat) (srcs dsts : List Nat) (s : State) : keptOf (hazardFire c t v srcs dsts s) = keptOf s := by
  unfold hazardFire
  (repeat' split) <;> simp only [kept_fire]

theorem kept_putInFlight (c v : Nat) (regs : List (Nat × List Word)) (cells : List Host.Cell) (table : Option (Nat × VTable)) (s : State) : keptOf (putInFlight c v regs cells table s) = keptOf s := by
  unfold putInFlight
  simp only [kept_modCore]

theorem kept_vectorAct (c occ lat : Nat) (diff : Bool) (srcs : List Nat) (op : State → QEnt → VRes) (reads : State → State)
    (h : ∀ s, keptOf (reads s) = keptOf s) (e : QEnt) (s : State) : keptOf (vectorAct c occ lat diff srcs op reads e s) = keptOf s := by
  unfold vectorAct
  repeat' split
  all_goals simp only [kept_skipAtIssue, kept_modCore, kept_disagree, kept_commit, kept_passToCyc, kept_addInfl,
    kept_putInFlight, kept_hazardFire, h]

theorem kept_vectorOp (c : Nat) (w : BitVec 48) (occ lat : Nat) (diff : Bool) (srcs : List Nat) (op : State → QEnt → VRes)
    (reads : State → State) (h : ∀ s, keptOf (reads s) = keptOf s) (s : State) :
    keptOf (vectorOp c w occ lat diff srcs op reads s) = keptOf s := by
  unfold vectorOp
  exact kept_issue _ _ _ _ _ (fun e s => kept_vectorAct _ _ _ _ _ _ _ h e s) s

theorem kept_laneOp (c : CoreId) (w : BitVec 48) (lat : Nat) (diff : Bool) (srcs : List (BitVec 5)) (vd : BitVec 5)
    (f : List (List Word) → List Word) (s : State) : keptOf (laneOp c w lat diff srcs vd f s) = keptOf s :=
  kept_vectorOp _ _ _ _ _ _ _ _ (fun _ => rfl) s


/-! ### Tick -/

theorem kept_abortAll (reason : Nat) (s : State) : keptOf (abortAll reason s) = keptOf s := by
  unfold abortAll
  refine kept_foldl _ _ (fun s c => ?_) s
  split <;> simp only [kept_abortRun]

theorem kept_stopSwatches (s : State) : keptOf (stopSwatches s) = keptOf s := by
  unfold stopSwatches
  refine kept_foldl _ _ (fun s c => ?_) s
  simp only [kept_stopSwatch, kept_modSt]

theorem kept_unloadNow (s : State) : keptOf (unloadNow s) = keptOf s := by
  unfold unloadNow
  have h : keptOf (stopSwatches (abortAll 7 s)) = keptOf s := by rw [kept_stopSwatches, kept_abortAll]
  generalize stopSwatches (abortAll 7 s) = t at h ⊢
  simp only [kept_patVec]
  rw [kept_mk t, h] <;> rfl

theorem kept_walkErrors (s : State) : keptOf (walkErrors s) = keptOf s := by
  unfold walkErrors
  simp only [kept_dirRead, kept_foldl, implies_true]

theorem kept_startWalk (k : Nat) (s : State) : keptOf (startWalk k s) = keptOf s := by
  unfold startWalk
  simp only [kept_keyedAdvance, kept_walkErrors, keptOf_ite, ite_self, kept_mk]

theorem kept_endWalk (s : State) : keptOf (endWalk s) = keptOf s := by
  unfold endWalk
  (repeat' split) <;> simp only [kept_passToCyc, kept_mk]

theorem kept_forgetRegion (s : State) (r : Nat × Nat) : keptOf (forgetRegion s r) = keptOf s := by
  unfold forgetRegion
  simp only [kept_bumpFree, kept_mk]

theorem kept_forgetStream (s : State) (n : Nat) : keptOf (forgetStream s n) = keptOf s := by
  unfold forgetStream
  simp only [kept_forgetRegion, kept_foldl, implies_true]

theorem kept_forgetDropped (s : State) : keptOf (forgetDropped s) = keptOf s := by
  unfold forgetDropped
  simp only [kept_forgetStream, kept_foldl, implies_true]

theorem kept_forgetAll (s : State) : keptOf (forgetAll s) = keptOf s := by
  unfold forgetAll
  simp only [kept_forgetDropped, keptOf_ite, ite_self]

theorem kept_initStatus (k : Nat) (s : State) : keptOf (initStatus k s) = keptOf s := by
  unfold initStatus
  (repeat' split) <;> simp only [kept_writeRun]

theorem kept_beginTick (k : Nat) (s : State) : keptOf (beginTick k s) = keptOf s := by
  unfold beginTick
  simp only [kept_startTurns, kept_startWalk, kept_forgetAll, kept_initStatus, kept_trace, kept_voidAt]
  exact kept_mk s _ _ _ _ _ _ _ _ _ _ _ _ _ _ _ _ _ _ _ _ _ _ rfl rfl rfl rfl rfl

theorem kept_launchNow (s : State) : keptOf (launchNow s) = keptOf s := by
  unfold launchNow
  have h : keptOf (passToGtc s (tickGtc s s.time.firstTick)) = keptOf s := kept_passToGtc ..
  simp only [kept_beginTick, kept_patVec]
  generalize passToGtc s (tickGtc s s.time.firstTick) = t at h ⊢
  rw [kept_mk t, h] <;> rfl

theorem kept_tickBoundary (s : State) : keptOf (tickBoundary s) = keptOf s := by
  unfold tickBoundary
  simp only [kept_beginTick, kept_launchNow, kept_passToGtc, kept_unloadNow, keptOf_ite, ite_self]

theorem kept_swatchStart (c : Nat) (s : State) : keptOf (swatchStart c s) = keptOf s := by
  unfold swatchStart
  simp only [kept_modCore, kept_passToCyc, keptOf_ite, ite_self]

theorem kept_swatchFailed (c det : Nat) (more : List Fire) (s : State) : keptOf (swatchFailed c det more s) = keptOf s := by
  unfold swatchFailed
  simp only [kept_fireAll, kept_modSt]

theorem kept_swatchOver (c n : Nat) (s : State) : keptOf (swatchOver c n s) = keptOf s := by
  unfold swatchOver
  simp only [kept_countRun, kept_modSt]

theorem kept_swatchEnd (c : Nat) (resp : Word) (s : State) : keptOf (swatchEnd c resp s) = keptOf s := by
  unfold swatchEnd
  (repeat' split) <;> simp only [kept_modSt, kept_passToCyc, kept_swatchFailed, kept_swatchOver, keptOf_ite, ite_self]

theorem kept_swatchTimeout (c : Nat) (s : State) : keptOf (swatchTimeout c s) = keptOf s := by
  unfold swatchTimeout
  simp only [kept_passToOff, kept_swatchFailed, kept_swatchOver, keptOf_ite, ite_self]

theorem kept_settlePoint (p : Nat) (s : State) : keptOf (settlePoint p s) = keptOf s := by
  unfold settlePoint
  simp only [kept_passToOff, kept_postHeld, kept_postTick, keptOf_ite, ite_self, kept_mk]


/-! ### Writes -/

theorem kept_markTuned (o : Nat) (s : State) : keptOf (markTuned o s) = keptOf s := rfl

theorem kept_rwsWrite (o : Nat) (v : Word) (s0 : State) : keptOf (rwsWrite o v s0) = keptOf s0 := by
  unfold rwsWrite
  (repeat' split) <;> simp only [kept_freshReg, kept_markTuned, kept_mk]

theorem kept_setRingReg (r : RingReg) (k : Ring) (s : State) : keptOf (setRingReg r k s) = keptOf s := by
  unfold setRingReg
  (repeat' split) <;> simp only [kept_mk]

theorem kept_ringWriteReg (o : Nat) (v : Word) (s : State) : keptOf (ringWriteReg o v s) = keptOf s := by
  unfold ringWriteReg
  (repeat' split) <;> simp only [kept_freshReg, kept_liveWrite, kept_setRingReg, keptOf_ite, ite_self]

theorem kept_ringBad (n : Nat) (was : Bool) (s : State) : keptOf (ringBad n was s) = keptOf s := by
  unfold ringBad
  simp only [kept_fire, keptOf_ite, ite_self]

theorem kept_subWriteReg (o : Nat) (v : Word) (s0 : State) : keptOf (subWriteReg o v s0) = keptOf s0 := by
  unfold subWriteReg
  (repeat' split) <;> simp only [kept_freshReg, kept_liveWrite, kept_modSub, kept_ringBad, keptOf_ite, ite_self]

theorem kept_statWrite (b : Nat) (hi : Bool) (v : Word) (s : State) : keptOf (statWrite b hi v s) = keptOf s := by
  unfold statWrite
  simp only [keptOf_ite, ite_self, kept_mk]

theorem kept_forceWrite (b : Nat) (hi : Bool) (v : Word) (s : State) : keptOf (forceWrite b hi v s) = keptOf s := by
  unfold forceWrite
  simp only [kept_fireAll, kept_passToCyc, keptOf_ite, ite_self]

theorem kept_sevWrite (b w : Nat) (v : Word) (s : State) : keptOf (sevWrite b w v s) = keptOf s := by
  unfold sevWrite
  simp only [kept_liveWrite, keptOf_ite, ite_self, kept_mk]

theorem kept_injWrite (c : Nat) (v : Word) (s : State) : keptOf (injWrite c v s) = keptOf s := by
  unfold injWrite
  simp only [kept_modSt, keptOf_ite, ite_self]


/-! ### VectorMem -/

theorem kept_drainRead (c : Nat) (r : DrainRd) (s : State) : keptOf (drainRead c r s) = keptOf s := by
  unfold drainRead
  simp only [kept_modCore]


/-! ### Jobs -/

theorem kept_stageOpen (st : Nat) (s : State) : keptOf (stageOpen st s) = keptOf s := by
  unfold stageOpen
  (repeat' split) <;> simp only [kept_passToOff, kept_trace, kept_mk]

theorem kept_closeCmd (st : Nat) (j : LcJob) (s : State) (x : LcCmd) : keptOf (closeCmd st j s x) = keptOf s := by
  unfold closeCmd
  simp only [kept_lcOver, keptOf_ite]
  (repeat' split) <;> first | (simp only [kept_abortRun, kept_persist]; done) | (rw [kept_mk] <;> first | rfl | (simp only [kept_abortRun, kept_lcOver, kept_persist, keptOf_ite, ite_self, kept_foldl, implies_true, kept_mk]; done)) | (simp only [kept_abortRun, kept_lcOver, kept_persist, keptOf_ite, ite_self, kept_foldl, implies_true, kept_mk]; rw [kept_mk] <;> first | rfl | (simp only [kept_abortRun, kept_lcOver, kept_persist, keptOf_ite, ite_self, kept_foldl, implies_true, kept_mk]; done)) | rfl

theorem kept_closeLate (st : Nat) (late : List Nat) (s : State) : keptOf (closeLate st late s) = keptOf s := by
  unfold closeLate
  simp only [kept_closeCmd, kept_fire, kept_voidParts, kept_foldl, implies_true, kept_mk]

theorem kept_stageClose (st : Nat) (s : State) : keptOf (stageClose st s) = keptOf s := by
  unfold stageClose
  (repeat' split) <;> simp only [kept_closeLate, kept_passToOff, kept_trace, keptOf_ite, ite_self, kept_mk]

theorem kept_submissionFetch (r : Nat) (s : State) : keptOf (submissionFetch r s) = keptOf s := by
  unfold submissionFetch
  simp only [kept_fire, kept_modSub, kept_postCpl, kept_startTurns, keptOf_ite, ite_self]

theorem kept_endTurn (p r : Nat) (s : State) : keptOf (endTurn p r s) = keptOf s := by
  unfold endTurn
  simp only [kept_beginTurn, kept_modBe]

theorem kept_turnEnd (p : Nat) (s : State) : keptOf (turnEnd p s) = keptOf s := by
  unfold turnEnd
  (repeat' split) <;> simp only [kept_endTurn, kept_passNs]

theorem kept_copyImage (r i : Nat) (j : BeJob) (e : ListEntry) (s : State) : keptOf (copyImage r i j e s) = keptOf s := by
  unfold copyImage
  simp only [kept_modBe, kept_modSt, kept_readRun, kept_writeData, kept_mk]

theorem kept_takeCmd (r i : Nat) (j : BeJob) (s : State) : keptOf (takeCmd r i j s) = keptOf s := by
  unfold takeCmd
  simp only []
  (repeat' split) <;> first | (simp only [kept_beOver, kept_copyImage, kept_fire, kept_modBe, kept_passToCyc, kept_readRun]; done) | (rw [kept_mk] <;> first | rfl | (simp only [kept_beOver, kept_copyImage, kept_fire, kept_modBe, kept_passToCyc, kept_readRun, keptOf_ite, ite_self, kept_foldl, implies_true, kept_mk]; done)) | (simp only [kept_beOver, kept_copyImage, kept_fire, kept_modBe, kept_passToCyc, kept_readRun, keptOf_ite, ite_self, kept_foldl, implies_true, kept_mk]; rw [kept_mk] <;> first | rfl | (simp only [kept_beOver, kept_copyImage, kept_fire, kept_modBe, kept_passToCyc, kept_readRun, keptOf_ite, ite_self, kept_foldl, implies_true, kept_mk]; done)) | rfl

theorem kept_imageCopy (r : Nat) (s : State) : keptOf (imageCopy r s) = keptOf s := by
  unfold imageCopy
  (repeat' split) <;> simp only [kept_passToOff, kept_takeCmd, keptOf_ite, ite_self]

theorem kept_setupReads (c hdr : Nat) (h : Hdr) (s : State) : keptOf (setupReads c hdr h s) = keptOf s := by
  unfold setupReads
  simp only [kept_readRun, keptOf_ite, ite_self, kept_foldl, implies_true]

theorem kept_traceStart (c : Nat) (jobref : Word) (r : Run) (s : State) : keptOf (traceStart c jobref r s) = keptOf s := by
  unfold traceStart
  simp only [kept_trace]

theorem kept_rejectCmd (c : Nat) (r : Run) (src det : Nat) (s : State) : keptOf (rejectCmd c r src det s) = keptOf s := by
  unfold rejectCmd
  simp only [kept_fire, kept_leaveCore, kept_runOver, kept_traceEnd]

theorem kept_setupRun (c : Nat) (r0 : Run) (from_ : Nat) (s : State) : keptOf (setupRun c r0 from_ s) = keptOf s := by
  unfold setupRun
  simp only []
  split
  · simp only [kept_rejectCmd, kept_setupReads, kept_modSt, kept_passToCyc]
  · rw [kept_traceStart, kept_modCore, kept_mk _ _ _ _ _ _ _ _ _ _ _ _ _ _ _ _ _ _ _ _ _ _ _ rfl rfl rfl rfl rfl]
    simp only [kept_setupReads, kept_modSt, kept_passToCyc]

theorem kept_beSetup (c : Nat) (r : Run) (s : State) : keptOf (beSetup c r s) = keptOf s := by
  unfold beSetup
  simp only [kept_setupRun, keptOf_ite, ite_self]

theorem kept_placeLc (j : LcJob) (x : LcCmd) (s : State) : keptOf (placeLc j x s) = keptOf s := by
  unfold placeLc
  simp only [kept_modCmd, kept_modSt, kept_setupRun, kept_mk]

theorem kept_dispatchedEarly (j : LcJob) (x : LcCmd) (s : State) : keptOf (dispatchedEarly j x s) = keptOf s := by
  unfold dispatchedEarly
  simp only [kept_fire, keptOf_ite, ite_self]

theorem kept_dispatchLc (j : LcJob) (x : LcCmd) (s : State) : keptOf (dispatchLc j x s) = keptOf s := by
  unfold dispatchLc
  simp only [kept_dispatchedEarly, kept_fire, kept_lcOver, kept_placeLc, kept_voidParts, keptOf_ite, ite_self]

theorem kept_commandDispatch (c : Nat) (s : State) : keptOf (commandDispatch c s) = keptOf s := by
  unfold commandDispatch
  simp only [keptOf_ite]
  (repeat' split) <;> first | (simp only [kept_beSetup, kept_dispatchLc]; done) | (rw [kept_mk] <;> first | rfl | (simp only [kept_beSetup, kept_dispatchLc, keptOf_ite, ite_self, kept_foldl, implies_true, kept_mk]; done)) | (simp only [kept_beSetup, kept_dispatchLc, keptOf_ite, ite_self, kept_foldl, implies_true, kept_mk]; rw [kept_mk] <;> first | rfl | (simp only [kept_beSetup, kept_dispatchLc, keptOf_ite, ite_self, kept_foldl, implies_true, kept_mk]; done)) | rfl

theorem kept_replayDispatch (c : Nat) (s : State) : keptOf (replayDispatch c s) = keptOf s := by
  unfold replayDispatch
  (repeat' split) <;> simp only [kept_lcOver, kept_modCmd, kept_modSt, kept_persist, kept_setupRun, kept_mk]

theorem kept_abortBe (reason : Nat) (s : State) (cr : Nat × Run) : keptOf (abortBe reason s cr) = keptOf s := by
  unfold abortBe
  simp only [kept_abortRun, kept_beAborted]

theorem kept_gracePoint (p : Nat) (s : State) : keptOf (gracePoint p s) = keptOf s := by
  unfold gracePoint
  simp only [kept_abortBe, kept_passToOff, keptOf_ite, ite_self, kept_foldl, implies_true]

theorem kept_cutOff (p : Nat) (s : State) : keptOf (cutOff p s) = keptOf s := by
  unfold cutOff
  simp only [kept_abortBe, kept_fire, kept_passToOff, keptOf_ite, ite_self, kept_foldl, implies_true]

theorem kept_commandComplete (c : Nat) (s : State) : keptOf (commandComplete c s) = keptOf s := by
  unfold commandComplete
  (repeat' split) <;> simp only [kept_commit, kept_finishRun, kept_passToCyc]

theorem kept_cmdOverrun (c : Nat) (s : State) : keptOf (cmdOverrun c s) = keptOf s := by
  unfold cmdOverrun
  (repeat' split) <;> simp only [kept_fire, kept_modSt, kept_passToCyc]

theorem kept_syncStall (c : Nat) (s : State) : keptOf (syncStall c s) = keptOf s := by
  unfold syncStall
  (repeat' split) <;> simp only [kept_commit, kept_finishRun, kept_fire, kept_passToCyc, keptOf_ite, ite_self]

theorem kept_idleGate (c : Nat) (s : State) : keptOf (idleGate c s) = keptOf s := by
  unfold idleGate
  simp only [kept_modSt, kept_passToCyc, keptOf_ite, ite_self]


/-! ### HostPort -/

theorem kept_hostStore (m : MemId) (cells : List Host.Cell) (s : State) : keptOf (hostStore m cells s) = keptOf s := by
  unfold hostStore
  simp only [kept_writeRun, kept_foldl, implies_true]

theorem kept_hostData (bs : List Byte) (ep : Bool) (s : State) : keptOf (hostData bs ep s) = keptOf s := rfl

theorem kept_nocFire (s : State) : keptOf (nocFire s) = keptOf s := by
  unfold nocFire
  simp only [kept_fire]

theorem kept_hostWrite (m : MemId) (cells : List Host.Cell) (noc : Option NocErr) (s : State) : keptOf (hostWrite m cells noc s) = keptOf s := by
  unfold hostWrite
  (repeat' split) <;> simp only [kept_hostStore, kept_nocFire, kept_writeCells]

theorem kept_hostRead (bs : List Byte) (ep : Bool) (noc : Option NocErr) (s : State) : keptOf (hostRead bs ep noc s) = keptOf s := by
  unfold hostRead
  (repeat' split) <;> simp only [kept_bumpFree, kept_hostData, kept_nocFire]

theorem kept_bar2 (r : BarReq) (noc : Option NocErr) (s : State) : keptOf (bar2 r noc s) = keptOf s := by
  unfold bar2
  (repeat' split) <;> simp only [kept_answerUr, kept_hostRead, kept_hostWrite, kept_postedUr, kept_readRun]

theorem kept_bar4Read (a n : Nat) (noc : Option NocErr) (s : State) : keptOf (bar4Read a n noc s) = keptOf s := by
  unfold bar4Read
  simp only [kept_hostRead, kept_readRun, keptOf_ite, ite_self]

theorem kept_bar4 (r : BarReq) (noc : Option NocErr) (s : State) : keptOf (bar4 r noc s) = keptOf s := by
  unfold bar4
  (repeat' split) <;> simp only [kept_answerUr, kept_bar4Read, kept_fire, kept_hostWrite, kept_postedUr, keptOf_ite, ite_self]

theorem kept_linkDown (s : State) : keptOf (linkDown s) = keptOf s := by
  unfold linkDown
  (repeat' split) <;> first | (simp only [kept_onset]; done) | (rw [kept_mk] <;> first | rfl | (simp only [kept_onset]; done)) | (simp only [kept_onset]; rw [kept_mk] <;> first | rfl | (simp only [kept_onset, keptOf_ite, ite_self, kept_foldl, implies_true, kept_mk]; done)) | rfl

theorem kept_linkUp (speed : BitVec 4) (width : BitVec 6) (s : State) : keptOf (linkUp speed width s) = keptOf s := by
  unfold linkUp
  (repeat' split) <;> first | (simp only [kept_causeEnds, kept_requestsFlow]; done) | (rw [kept_mk] <;> first | rfl | (simp only [kept_causeEnds, kept_requestsFlow]; done)) | (simp only [kept_causeEnds, kept_requestsFlow]; rw [kept_mk] <;> first | rfl | (simp only [kept_causeEnds, kept_requestsFlow, keptOf_ite, ite_self, kept_foldl, implies_true, kept_mk]; done)) | rfl

theorem kept_fetchFailed (r : Nat) (s : State) : keptOf (fetchFailed r s) = keptOf s := by
  unfold fetchFailed
  simp only [kept_fire, kept_modSub, keptOf_ite, ite_self]

theorem kept_completionTimeout (r readAt : Nat) (s : State) : keptOf (completionTimeout r readAt s) = keptOf s := by
  unfold completionTimeout
  simp only [kept_fetchFailed, kept_passNs, keptOf_ite, ite_self]

theorem kept_tlp (k : TlpKind) (s : State) : keptOf (tlp k s) = keptOf s := by
  unfold tlp
  (repeat' split) <;> first | (simp only [kept_fetchFailed, kept_fire]; done) | (rw [kept_mk] <;> first | rfl | (simp only [kept_fire]; done)) | (simp only [kept_fire]; rw [kept_mk] <;> first | rfl | (simp only [kept_fetchFailed, kept_fire, keptOf_ite, ite_self, kept_foldl, implies_true, kept_mk]; done)) | rfl

theorem kept_vectorDue (n : Nat) (s : State) : keptOf (vectorDue n s) = keptOf s := by
  unfold vectorDue
  simp only [kept_modRing, kept_passNs, kept_ringVector, keptOf_ite, ite_self]


/-! ### Intake -/

theorem kept_siuFire (src : Nat) (s : State) : keptOf (siuFire src s) = keptOf s := by
  unfold siuFire
  simp only [kept_fire]

theorem kept_countCsi (s : State) : keptOf (countCsi s) = keptOf s := by
  unfold countCsi
  simp only [kept_mk]

theorem kept_countEth (s : State) : keptOf (countEth s) = keptOf s := by
  unfold countEth
  simp only [kept_mk]

theorem kept_startSample (stream k : Nat) (s : State) : keptOf (startSample stream k s) = keptOf s := by
  unfold startSample
  simp only [kept_mk]

theorem kept_lateRegion (n k : Nat) (s : State) : keptOf (lateRegion n k s) = keptOf s := by
  unfold lateRegion
  simp only [kept_forgetStream, keptOf_ite, ite_self]

theorem kept_setStatusBit (stream : Nat) (s : State) : keptOf (setStatusBit stream s) = keptOf s := by
  unfold setStatusBit
  (repeat' split) <;> simp only [kept_intakeWrite]

theorem kept_completeSample (r : SampleRes) (s : State) : keptOf (completeSample r s) = keptOf s := by
  unfold completeSample
  simp only [kept_fireAll, kept_postRec, kept_setStatusBit, kept_trace, keptOf_ite, ite_self, kept_mk]

theorem kept_addResult (r : SampleRes) (s : State) : keptOf (addResult r s) = keptOf s := by
  unfold addResult
  simp only [kept_mk]

theorem kept_sampleComplete (stream : Nat) (s : State) : keptOf (sampleComplete stream s) = keptOf s := by
  unfold sampleComplete
  (repeat' split) <;> simp only [kept_completeSample, kept_mk]

theorem kept_csiPacket (rx vc : Nat) (vcx : Bool) (hdr : HdrEcc) (dt : Nat) (act : Nat → State → State)
    (h : ∀ n s, keptOf (act n s) = keptOf s) (s : State) : keptOf (csiPacket rx vc vcx hdr dt act s) = keptOf s := by
  unfold csiPacket
  simp only []
  repeat' split
  all_goals first | rfl | (simp only [kept_siuFire, h]; done) | (rw [kept_siuFire]; rfl)

theorem kept_camResult (n : Nat) (cam : Cam) (status reason : Nat) (s : State) : keptOf (camResult n cam status reason s) = keptOf s := by
  unfold camResult
  simp only [kept_addResult, kept_mk]

theorem kept_frameStart (frameNo : Nat) (n : Nat) (s : State) : keptOf (frameStart frameNo n s) = keptOf s := by
  unfold frameStart
  (repeat' split) <;> simp only [kept_camResult, kept_siuFire, kept_startSample, kept_mk]

theorem kept_failCam (n reason src : Nat) (cam : Cam) (s : State) : keptOf (failCam n reason src cam s) = keptOf s := by
  unfold failCam
  simp only [kept_siuFire, kept_mk]

theorem kept_csiLine (dt : Nat) (payload : List Byte) (crcOk behind : Bool) (n : Nat) (s : State) : keptOf (csiLine dt payload crcOk behind n s) = keptOf s := by
  unfold csiLine
  simp only [kept_countCsi, keptOf_ite]
  (repeat' split) <;> first | (simp only [kept_failCam, kept_siuFire, kept_mk]; done) | (rw [kept_mk] <;> first | rfl | (simp only [kept_countCsi, kept_failCam, kept_siuFire, keptOf_ite, ite_self, kept_foldl, implies_true, kept_mk]; done)) | (simp only [kept_countCsi, kept_failCam, kept_siuFire, keptOf_ite, ite_self, kept_foldl, implies_true, kept_mk]; rw [kept_mk] <;> first | rfl | (simp only [kept_countCsi, kept_failCam, kept_siuFire, keptOf_ite, ite_self, kept_foldl, implies_true, kept_mk]; done)) | rfl

theorem kept_writeFrame (n : Nat) (lines : List (List Nat)) (s : State) : keptOf (writeFrame n lines s) = keptOf s := by
  unfold writeFrame
  simp only [kept_intakeWrite, kept_readRun, keptOf_ite, ite_self]

theorem kept_judgeFrame (n : Nat) (lines : List (List Nat)) (capture adm : Gtc) (k : Nat) (s : State) : keptOf (judgeFrame n lines capture adm k s).1 = keptOf s := by
  unfold judgeFrame
  simp only [keptOf_ite_fst, kept_siuFire, kept_writeFrame, kept_lateRegion]
  have h : ∀ a, keptOf { writeFrame n lines s with siu := { (writeFrame n lines s).siu with aged := a } } = keptOf s :=
    fun a => (kept_writeFrame ..)
  simp only [h, ite_self]

theorem kept_judgeFrame' (n : Nat) (lines : List (List Nat)) (capture adm : Gtc) (k : Nat) (s : State) {q} (h : judgeFrame n lines capture adm k s = q) : keptOf q.1 = keptOf s := h ▸ kept_judgeFrame ..

theorem kept_frameEnd (n : Nat) (s : State) : keptOf (frameEnd n s) = keptOf s := by
  unfold frameEnd
  split
  · rfl
  · split
    · exact kept_camResult ..
    · exact kept_camResult ..
    · exact (kept_camResult ..).trans (kept_judgeFrame ..)

theorem kept_modSweep (m : Nat) (f : Sweep → Sweep) (s : State) : keptOf (modSweep m f s) = keptOf s := by
  unfold modSweep
  simp only [kept_mk]

theorem kept_dropPoint (m : Nat) (s : State) : keptOf (dropPoint m s) = keptOf s := by
  unfold dropPoint
  simp only [kept_modSweep, kept_siuFire]

theorem kept_putPoint (m n slot j : Nat) (p : Pt) (stamp : Gtc) (s : State) : keptOf (putPoint m n slot j p stamp s) = keptOf s := by
  unfold putPoint
  simp only [kept_intakeWrite]

theorem kept_binPoint (m n : Nat) (stamp : Gtc) (s : State) (p : Pt) : keptOf (binPoint m n stamp s p) = keptOf s := by
  unfold binPoint
  simp only []
  (repeat' split) <;> first | (simp only [kept_dropPoint, kept_modSweep, kept_putPoint]; done) | (rw [kept_mk] <;> first | rfl | (simp only [kept_dropPoint, kept_modSweep, kept_putPoint, keptOf_ite, ite_self, kept_foldl, implies_true, kept_mk]; done)) | (simp only [kept_dropPoint, kept_modSweep, kept_putPoint, keptOf_ite, ite_self, kept_foldl, implies_true, kept_mk]; rw [kept_mk] <;> first | rfl | (simp only [kept_dropPoint, kept_modSweep, kept_putPoint, keptOf_ite, ite_self, kept_foldl, implies_true, kept_mk]; done)) | rfl

theorem kept_discardPoints (m k : Nat) (s : State) : keptOf (discardPoints m k s) = keptOf s := by
  unfold discardPoints
  simp only [kept_modSweep]

theorem kept_lidarPacket (m n : Nat) (frame payload : List Byte) (mac : Gtc) (s : State) : keptOf (lidarPacket m n frame payload mac s) = keptOf s := by
  unfold lidarPacket
  simp only [kept_binPoint, kept_discardPoints, kept_modSweep, kept_siuFire, keptOf_ite, ite_self, kept_foldl, implies_true]

theorem kept_overrunSweep (m : Nat) (s : State) : keptOf (overrunSweep m s) = keptOf s := by
  unfold overrunSweep
  simp only [kept_modSweep]

theorem kept_ethernetFrame (m : Nat) (frame : List Byte) (fcsOk : Bool) (sfd : Nat) (behind : Bool) (s : State) : keptOf (ethernetFrame m frame fcsOk sfd behind s) = keptOf s := by
  unfold ethernetFrame
  simp only [kept_siuFire, keptOf_ite]
  (repeat' split) <;> first | (simp only [kept_countEth, kept_lidarPacket, kept_overrunSweep]; done) | (rw [kept_mk] <;> first | rfl | (simp only [kept_countEth, kept_lidarPacket, kept_overrunSweep, kept_siuFire, keptOf_ite, ite_self, kept_foldl, implies_true, kept_mk]; done)) | (simp only [kept_countEth, kept_lidarPacket, kept_overrunSweep, kept_siuFire, keptOf_ite, ite_self, kept_foldl, implies_true, kept_mk]; rw [kept_mk] <;> first | rfl | (simp only [kept_countEth, kept_lidarPacket, kept_overrunSweep, kept_siuFire, keptOf_ite, ite_self, kept_foldl, implies_true, kept_mk]; done)) | rfl

theorem kept_sweepClose (m : Nat) (s : State) : keptOf (sweepClose m s) = keptOf s := by
  unfold sweepClose
  simp only [kept_modSweep, kept_passToOff, kept_startSample, keptOf_ite, ite_self]

theorem kept_flushSweep (m : Nat) (w : Sweep) (s : State) : keptOf (flushSweep m w s) = keptOf s := by
  unfold flushSweep
  simp only [kept_intakeWrite, kept_lateRegion, keptOf_ite, ite_self, kept_foldl, implies_true]

theorem kept_sweepOver (m : Nat) (s : State) : keptOf (sweepOver m s) = keptOf s := by
  unfold sweepOver
  (repeat' split) <;> simp only [kept_modSweep, kept_mk]

theorem kept_sweepComplete (m : Nat) (s : State) : keptOf (sweepComplete m s) = keptOf s := by
  unfold sweepComplete
  (repeat' split) <;> simp only [kept_bumpFree, kept_completeSample, kept_flushSweep, kept_sweepOver]


/-! ### Matrix -/

theorem kept_stepReads (c : Nat) (f : MmaF) (s : State) (st : Nat) : keptOf (stepReads c f s st) = keptOf s := by
  unfold stepReads
  simp only [kept_readSpans, kept_foldl, implies_true]

theorem kept_mmaReads (c : Nat) (f : MmaF) (n : Nat) (s : State) : keptOf (mmaReads c f n s) = keptOf s := by
  unfold mmaReads
  simp only [kept_stepReads, kept_foldl, implies_true]

theorem kept_drainEvents (c : Nat) (evs : List (Nat × DisEvent)) (s : State) : keptOf (drainEvents c evs s) = keptOf s := by
  unfold drainEvents
  simp only []
  (repeat' split) <;> first | (simp only [kept_commit, kept_disagree, kept_passToCyc]; done) | (rw [kept_mk] <;> first | rfl | (simp only [kept_commit, kept_disagree, kept_passToCyc, keptOf_ite, ite_self, kept_foldl, implies_true, kept_mk]; done)) | (simp only [kept_commit, kept_disagree, kept_passToCyc, keptOf_ite, ite_self, kept_foldl, implies_true, kept_mk]; rw [kept_mk] <;> first | rfl | (simp only [kept_commit, kept_disagree, kept_passToCyc, keptOf_ite, ite_self, kept_foldl, implies_true, kept_mk]; done)) | rfl

theorem kept_mmaAct (c : Nat) (f : MmaF) (up : List Upset) (yd : Bool) (e : QEnt) (s : State) : keptOf (mmaAct c f up yd e s) = keptOf s := by
  unfold mmaAct
  simp only [kept_addInfl, kept_drainEvents, kept_mmaReads, kept_modCore, kept_skipAtIssue, keptOf_ite, ite_self]


/-! ### Transfer -/

theorem kept_sourceReads (c space : Nat) (runs : List (Nat × Nat)) (s : State) : keptOf (sourceReads c space runs s) = keptOf s := by
  unfold sourceReads
  simp only [kept_readRun, kept_foldl, implies_true]

theorem kept_placeXfer (c : Nat) (x : Xfer) (p : Plan) (bs : List Byte) (marks : List Bool) (s : State) : keptOf (placeXfer c x p bs marks s) = keptOf s := by
  unfold placeXfer
  simp only []
  (repeat' split) <;> first | (simp only [kept_modCore, kept_modXfer, kept_pumpXfers]; done) | (rw [kept_mk] <;> first | rfl | (simp only [kept_modCore, kept_modXfer, kept_pumpXfers, keptOf_ite, ite_self, kept_foldl, implies_true, kept_mk]; done)) | (simp only [kept_modCore, kept_modXfer, kept_pumpXfers, keptOf_ite, ite_self, kept_foldl, implies_true, kept_mk]; rw [kept_mk] <;> first | rfl | (simp only [kept_modCore, kept_modXfer, kept_pumpXfers, keptOf_ite, ite_self, kept_foldl, implies_true, kept_mk]; done)) | rfl

theorem kept_startXfer (c : Nat) (store : Bool) (e : QEnt) (token : Nat) (p : Plan) (aob : Option (Nat × Option GatherRec)) (vdiff : Bool) (s : State) : keptOf (startXfer c store e token p aob vdiff s) = keptOf s := by
  unfold startXfer
  simp only [kept_addInfl, kept_modXfers, kept_placeXfer, kept_pumpXfers, kept_sourceReads, keptOf_ite, ite_self]

theorem kept_readsIn (c : Nat) (x : Xfer) (s : State) : keptOf (readsIn c x s) = keptOf s := by
  unfold readsIn
  simp only [kept_modXfer, keptOf_ite]
  (repeat' split) <;> first | (simp only [kept_modCore, kept_modXfer]; done) | (rw [kept_mk] <;> first | rfl | (simp only [kept_modCore, kept_modXfer, keptOf_ite, ite_self, kept_foldl, implies_true, kept_mk]; done)) | (simp only [kept_modCore, kept_modXfer, keptOf_ite, ite_self, kept_foldl, implies_true, kept_mk]; rw [kept_mk] <;> first | rfl | (simp only [kept_modCore, kept_modXfer, keptOf_ite, ite_self, kept_foldl, implies_true, kept_mk]; done)) | rfl

theorem kept_orFenced (c : Nat) (spaces : List (Nat × Nat)) (f : State → State) (h : ∀ s, keptOf (f s) = keptOf s) (s : State) :
    keptOf (orFenced c spaces f s) = keptOf s := by
  unfold orFenced
  simp only [keptOf_ite, kept_endRun, h, ite_self]

theorem kept_ldAct (c : Nat) (store : Bool) (e : QEnt) (s : State) : keptOf (ldAct c store e s) = keptOf s := by
  unfold ldAct
  simp only [kept_orFenced, kept_skipAtIssue, kept_startXfer, keptOf_ite, ite_self, implies_true]

theorem kept_fillAob (c e : Nat) (skip : Bool) (g : Option GatherRec) (s : State) : keptOf (fillAob c e skip g s) = keptOf s := by
  unfold fillAob
  simp only [kept_modCore]

theorem kept_cgatherAct (c : Nat) (token : BitVec 4) (e : QEnt) (s : State) : keptOf (cgatherAct c token e s) = keptOf s := by
  unfold cgatherAct
  simp only [kept_addInfl, kept_completeEntry, kept_fillAob, kept_orFenced, kept_skipAtIssue, kept_startXfer, keptOf_ite, ite_self, implies_true]

theorem kept_wxloadAct (c : Nat) (vd : Bool) (token : BitVec 4) (e : QEnt) (s : State) : keptOf (wxloadAct c vd token e s) = keptOf s := by
  unfold wxloadAct
  simp only [kept_orFenced, kept_skipAtIssue, kept_startXfer, keptOf_ite, ite_self, implies_true]

theorem kept_ldaccAct (c : Nat) (amask : BitVec 4) (bank tgt : Bool) (token : BitVec 4) (e : QEnt) (s : State) : keptOf (ldaccAct c amask bank tgt token e s) = keptOf s := by
  unfold ldaccAct
  simp only [kept_skipAtIssue, kept_startXfer, keptOf_ite, ite_self]

theorem kept_writeXfer (c : Nat) (x : Xfer) (s : State) : keptOf (writeXfer c x s) = keptOf s := by
  unfold writeXfer
  (repeat' split) <;> simp only [kept_hostWr, kept_modCore, kept_writeCells, kept_foldl, implies_true]

theorem kept_landXfer (c seq : Nat) (s : State) : keptOf (landXfer c seq s) = keptOf s := by
  unfold landXfer
  simp only [kept_landWr, kept_modCore, kept_foldl, implies_true]

theorem kept_finishXfer (c : Nat) (x : Xfer) (s : State) : keptOf (finishXfer c x s) = keptOf s := by
  unfold finishXfer
  (repeat' split) <;> simp only [kept_completeEntry, kept_disagree, kept_fillAob, kept_landXfer, kept_modXfers, kept_writeXfer]

theorem kept_nocXfer (c : Nat) (x : Xfer) (noc : Option NocErr) (s : State) : keptOf (nocXfer c x noc s).1 = keptOf s := by
  unfold nocXfer
  split
  · rfl
  · simp only []
    rw [kept_foldl _ _ (fun s a => kept_setMem ..), keptOf_ite, kept_landXfer, kept_consumed, kept_fire, ite_self]

theorem kept_nocXfer' (c : Nat) (x : Xfer) (noc : Option NocErr) (s : State) {q} (h : nocXfer c x noc s = q) : keptOf q.1 = keptOf s := h ▸ kept_nocXfer ..

theorem kept_transferDone (c : Nat) (store : Bool) (noc : Option NocErr) (s : State) : keptOf (transferDone c store noc s) = keptOf s := by
  unfold transferDone
  split
  · rfl
  split
  · rfl
  simp only [keptOf_ite, kept_finishXfer, kept_nocXfer, kept_commit, kept_passToCyc, ite_self]

theorem kept_lateMsg (c : Nat) (store request : Bool) (s : State) : keptOf (lateMsg c store request s) = keptOf s := by
  unfold lateMsg
  (repeat' split) <;> simp only [kept_fire, kept_mk]

theorem kept_delayXfer (c : Nat) (x : Xfer) (delay : Nat) (s : State) : keptOf (delayXfer c x delay s) = keptOf s := by
  unfold delayXfer
  simp only [kept_modCore, kept_modXfer]

theorem kept_delayKeyed (c : Nat) (scatter : Bool) (delay : Nat) (s : State) : keptOf (delayKeyed c scatter delay s) = keptOf s := by
  unfold delayKeyed
  simp only []
  (repeat' split) <;> first | (simp only [kept_mk]; done) | (rw [kept_mk] <;> first | rfl | (simp only [keptOf_ite, ite_self, kept_foldl, implies_true, kept_mk]; done)) | (simp only [keptOf_ite, ite_self, kept_foldl, implies_true, kept_mk]; rw [kept_mk] <;> first | rfl | (simp only [keptOf_ite, ite_self, kept_foldl, implies_true, kept_mk]; done)) | rfl

theorem kept_latMiss (c : Nat) (store : Bool) (delay : Nat) (s : State) : keptOf (latMiss c store delay s) = keptOf s := by
  unfold latMiss
  (repeat' split) <;> simp only [kept_delayKeyed, kept_delayXfer, kept_fire]

theorem kept_latMissPeer (s : State) : keptOf (latMissPeer s) = keptOf s := by
  unfold latMissPeer
  simp only [kept_fire, keptOf_ite, ite_self]


/-! ### Placement -/

theorem kept_withItems (s : State) (g : Staged) : keptOf (withItems s g) = keptOf s := rfl


/-! ### Pattern -/

theorem kept_readImage (g : Staged) (blocks : List Nat) (s : State) : keptOf (readImage g blocks s) = keptOf s := by
  unfold readImage
  simp only [kept_readRun, kept_foldl, implies_true]

theorem kept_setPat (st sec reason det : Nat) (s : State) : keptOf (setPat st sec reason det s) = keptOf s := by
  unfold setPat
  (repeat' split) <;> first | (simp only [kept_patVec]; done) | (rw [kept_mk] <;> first | rfl | (simp only [kept_patVec]; done)) | (simp only [kept_patVec]; rw [kept_mk] <;> first | rfl | (simp only [kept_patVec, keptOf_ite, ite_self, kept_foldl, implies_true, kept_mk]; done)) | rfl

theorem kept_loadFrom (s : State) : keptOf (loadFrom s) = keptOf s := by
  unfold loadFrom
  simp only []
  split
  · simp only [kept_fire, kept_setPat]
  · generalize hq : readImage _ _ _ = q
    have h : keptOf q = keptOf s := by rw [← hq, kept_readImage]
    split
    · simp only [kept_fire, kept_setPat, h]
    · rw [kept_setPat, kept_mk q, h] <;> rfl

theorem kept_loadWrite (s : State) : keptOf (loadWrite s) = keptOf s := by
  unfold loadWrite
  simp only [kept_liveWrite, kept_loadFrom, keptOf_ite, ite_self]

theorem kept_readyRise (s : State) : keptOf (readyRise s) = keptOf s := by
  unfold readyRise
  (repeat' split) <;> first | (simp only [kept_patVec, kept_sendSide]; done) | (rw [kept_mk] <;> first | rfl | (simp only [kept_patVec, kept_sendSide]; done)) | (simp only [kept_patVec, kept_sendSide]; rw [kept_mk] <;> first | rfl | (simp only [kept_patVec, kept_sendSide, keptOf_ite, ite_self, kept_foldl, implies_true, kept_mk]; done)) | rfl

theorem kept_loadAll (g : Staged) (s : State) : keptOf (loadAll g s) = keptOf s := rfl

theorem kept_activate (g : Staged) (s : State) : keptOf (activate g s) = keptOf s := by
  unfold activate
  simp only [kept_loadAll, kept_readyRise, kept_sendIdents, kept_setPat]

theorem kept_dropImages (s : State) : keptOf (dropImages s) = keptOf s := by
  unfold dropImages
  simp only [kept_mk]

theorem kept_loadError (s0 : State) : keptOf (loadError s0) = keptOf s0 := by
  unfold loadError
  (repeat' split) <;> first | (simp only [kept_setPat]; done) | (rw [kept_mk] <;> first | rfl | (simp only [kept_setPat]; done)) | (simp only [kept_setPat]; rw [kept_mk] <;> first | rfl | (simp only [kept_dropImages, kept_setPat, keptOf_ite, ite_self, kept_foldl, implies_true, kept_mk]; done)) | rfl

theorem kept_finishLoad (s : State) : keptOf (finishLoad s) = keptOf s := by
  unfold finishLoad
  simp only [kept_activate, kept_loadError, kept_readImage, keptOf_ite, ite_self]

theorem kept_patternLoaded (s : State) : keptOf (patternLoaded s) = keptOf s := by
  unfold patternLoaded
  simp only [kept_finishLoad, keptOf_ite, ite_self]

theorem kept_unloadWrite (s : State) : keptOf (unloadWrite s) = keptOf s := by
  unfold unloadWrite
  (repeat' split) <;> first | rfl | simp only [kept_liveWrite, kept_unloadNow]

theorem kept_flushWrite (s : State) : keptOf (flushWrite s) = keptOf s := by
  unfold flushWrite
  simp only [keptOf_ite, ite_self, kept_mk]


/-! ### Links -/

theorem kept_linkTrained (p : Nat) (inv : BitVec 8) (reversed : Bool) (s : State) : keptOf (linkTrained p inv reversed s) = keptOf s := by
  unfold linkTrained
  simp only [kept_causeEnds, kept_modPort, keptOf_ite, ite_self]

theorem kept_trainingTimeout (p : Nat) (s : State) : keptOf (trainingTimeout p s) = keptOf s := by
  unfold trainingTimeout
  simp only [kept_modPort, kept_onset, kept_passNs, keptOf_ite, ite_self]

theorem kept_farEndReset (p : Nat) (s : State) : keptOf (farEndReset p s) = keptOf s := by
  unfold farEndReset
  simp only [kept_modPort, keptOf_ite, ite_self]

theorem kept_resendAll (p : Nat) (s : State) : keptOf (resendAll p s) = keptOf s := by
  unfold resendAll
  simp only [kept_modPort]

theorem kept_flitTimeout (p : Nat) (s : State) : keptOf (flitTimeout p s) = keptOf s := by
  unfold flitTimeout
  (repeat' split) <;> simp only [kept_passNs, kept_resendAll]

theorem kept_flitControl (p ack lc be : Nat) (nak : Bool) (s : State) : keptOf (flitControl p ack lc be nak s) = keptOf s := by
  unfold flitControl
  simp only [kept_fire, kept_modPort, kept_resendAll, keptOf_ite, ite_self]

theorem kept_takeReq (dev rid : Nat) (s : State) : keptOf (takeReq dev rid s) = keptOf s := by
  unfold takeReq
  simp only [kept_modPeer]

theorem kept_answered (dev : Nat) (q : RemReq) (got : Option ReadIn) (s : State) : keptOf (answered dev q got s) = keptOf s := by
  unfold answered
  simp only []
  (repeat' split) <;> first | (simp only [kept_modXfer, kept_readsIn]; done) | (rw [kept_mk] <;> first | rfl | (simp only [kept_modXfer, kept_readsIn, keptOf_ite, ite_self, kept_foldl, implies_true, kept_mk]; done)) | (simp only [kept_modXfer, kept_readsIn, keptOf_ite, ite_self, kept_foldl, implies_true, kept_mk]; rw [kept_mk] <;> first | rfl | (simp only [kept_modXfer, kept_readsIn, keptOf_ite, ite_self, kept_foldl, implies_true, kept_mk]; done)) | rfl

theorem kept_denyReq (dev : Nat) (q : RemReq) (s : State) : keptOf (denyReq dev q s) = keptOf s := by
  unfold denyReq
  simp only [kept_answered, kept_pumpAll, kept_remoteErr, kept_takeReq, keptOf_ite, ite_self]

theorem kept_poisonArrives (q : RemReq) (s : State) : keptOf (poisonArrives q s) = keptOf s := by
  unfold poisonArrives
  simp only [kept_consumed, kept_fire]

theorem kept_responseIn (p : Nat) (m : Msg) (data : List Byte) (s : State) : keptOf (responseIn p m data s) = keptOf s := by
  unfold responseIn
  (repeat' split) <;> simp only [kept_answered, kept_denyReq, kept_fire, kept_poisonArrives, kept_pumpAll, kept_takeReq]

theorem kept_respond (m : Msg) (ty : Nat) (poison : Bool) (data : List Byte) (s : State) : keptOf (respond m ty poison data s) = keptOf s := by
  unfold respond
  simp only [kept_sendMsg]

theorem kept_lcAccess (m : Msg) (s : State) : keptOf (lcAccess m s) = keptOf s := by
  unfold lcAccess
  simp only [keptOf_ite, ite_self, kept_mk]

theorem kept_refuse (m : Msg) (s : State) : keptOf (refuse m s) = keptOf s := by
  unfold refuse
  simp only [kept_fire, kept_respond]

theorem kept_serveRead (m : Msg) (s : State) : keptOf (serveRead m s) = keptOf s := by
  unfold serveRead
  simp only [kept_lcAccess, kept_readRun, kept_refuse, kept_respond, keptOf_ite, ite_self]

theorem kept_serveWrite (m : Msg) (data : List Byte) (s : State) : keptOf (serveWrite m data s) = keptOf s := by
  unfold serveWrite
  simp only [kept_lcAccess, kept_modPeer, kept_refuse, kept_respond, kept_writeRun, keptOf_ite, ite_self]

theorem kept_requestIn (p : Nat) (m : Msg) (data : List Byte) (s : State) : keptOf (requestIn p m data s) = keptOf s := by
  unfold requestIn
  simp only [kept_fire, kept_modPeer, kept_respond, kept_serveRead, kept_serveWrite, keptOf_ite, ite_self]

theorem kept_forward (p : Nat) (m : Msg) (data : List Byte) (s : State) : keptOf (forward p m data s) = keptOf s := by
  unfold forward
  simp only [kept_respond, kept_sendMsg, keptOf_ite, ite_self]

theorem kept_messageIn (p : Nat) (m : Msg) (data : List Byte) (s : State) : keptOf (messageIn p m data s) = keptOf s := by
  unfold messageIn
  simp only [kept_forward, kept_requestIn, kept_responseIn, keptOf_ite, ite_self]

theorem kept_oneMessage (p ty : Nat) (hdr : BitVec 128) (data : List Byte) (s : State) : keptOf (oneMessage p ty hdr data s) = keptOf s := by
  unfold oneMessage
  simp only [kept_messageIn, keptOf_ite, ite_self]

theorem kept_returnCredits (p vc n : Nat) (s : State) : keptOf (returnCredits p vc n s) = keptOf s := by
  unfold returnCredits
  simp only [kept_freeHolds, kept_mk]

theorem kept_flitPayloadIn (p vc : Nat) (pay : List Byte) (s : State) : keptOf (flitPayloadIn p vc pay s) = keptOf s := by
  unfold flitPayloadIn
  simp only [kept_messageIn, kept_modPort, kept_returnCredits, keptOf_ite, ite_self, kept_foldl, implies_true, kept_mk]

theorem kept_flitIn (p : Nat) (flit : List Byte) (s : State) : keptOf (flitIn p flit s) = keptOf s := by
  unfold flitIn
  simp only [kept_fire, kept_flitControl, kept_flitPayloadIn, kept_modPort, keptOf_ite, ite_self]

theorem kept_latencyMiss (dev rid : Nat) (s : State) : keptOf (latencyMiss dev rid s) = keptOf s := by
  unfold latencyMiss
  (repeat' split) <;> simp only [kept_fire, kept_modPeer, kept_passToCyc]

theorem kept_abandonReq (dev rid : Nat) (s : State) : keptOf (abandonReq dev rid s) = keptOf s := by
  unfold abandonReq
  (repeat' split) <;> simp only [kept_denyReq, kept_passNs]

theorem kept_syncIn (p : Nat) (t1 t3 t4 : Word) (half : Bool) (s : State) : keptOf (syncIn p t1 t3 t4 half s) = keptOf s := by
  unfold syncIn
  simp only [kept_measure, kept_modPort, keptOf_ite, ite_self]

theorem kept_syncSend (s : State) : keptOf (syncSend s) = keptOf s := by
  unfold syncSend
  simp only [kept_modPort, kept_passNs, kept_foldl, implies_true]

theorem kept_identIn (p dev gm1 : Nat) (tag : Word) (s : State) : keptOf (identIn p dev gm1 tag s) = keptOf s := by
  unfold identIn
  simp only [kept_causeEnds, kept_modPeer, kept_modPort, kept_onset, keptOf_ite, ite_self]


/-! ### Mailbox -/

theorem kept_mbxPut (bs : List Byte) (s : State) : keptOf (mbxPut bs s) = keptOf s := rfl

theorem kept_mbxOverrun (s : State) : keptOf (mbxOverrun s) = keptOf s := rfl


/-! ### Recovery -/

theorem kept_hbWrite (v : Word) (s : State) : keptOf (hbWrite v s) = keptOf s := by
  unfold hbWrite
  simp only [keptOf_ite, ite_self, kept_mk]

theorem kept_hbExpiry (s : State) : keptOf (hbExpiry s) = keptOf s := by
  unfold hbExpiry
  simp only [kept_fire, kept_passNs, keptOf_ite, ite_self, kept_mk]

theorem kept_restartWrite (v : Word) (s : State) : keptOf (restartWrite v s) = keptOf s := by
  unfold restartWrite
  simp only [kept_fenceDomain, keptOf_ite, ite_self, kept_foldl, implies_true]

theorem kept_forgetRequests (d : Nat) (s : State) : keptOf (forgetRequests d s) = keptOf s := by
  unfold forgetRequests
  simp only [kept_mk]

theorem kept_resetDomain (d : Nat) (s0 : State) : keptOf (resetDomain d s0) = keptOf s0 := by
  unfold resetDomain
  (repeat' split) <;> first | (simp only [kept_forgetRequests, kept_freeHolds, kept_modCore, kept_modPort, kept_onset, keptOf_ite, ite_self, kept_mk]; done) | (rw [kept_mk] <;> first | rfl | (simp only [kept_onset, keptOf_ite, ite_self]; done)) | (simp only [kept_onset, keptOf_ite, ite_self]; rw [kept_mk] <;> first | rfl | (simp only [kept_forgetRequests, kept_freeHolds, kept_modCore, kept_modPort, kept_onset, keptOf_ite, ite_self, kept_foldl, implies_true, kept_mk]; done)) | rfl

theorem kept_reloadInto (d : Nat) (g : Staged) (s : State) : keptOf (reloadInto d g s) = keptOf s := by
  unfold reloadInto
  simp only [kept_modCore, keptOf_ite, ite_self, kept_mk]

theorem kept_setPhase (d ph : Nat) (s : State) : keptOf (setPhase d ph s) = keptOf s := by
  unfold setPhase
  simp only [kept_modDom, kept_traceDom]

theorem kept_passFence (d n : Nat) (s : State) : keptOf (passFence d n s) = keptOf s := by
  unfold passFence
  simp only [kept_passNs]

theorem kept_drcBack (s : State) : keptOf (drcBack s) = keptOf s := by
  unfold drcBack
  simp only [kept_unloadNow, keptOf_ite, ite_self, kept_mk]

theorem kept_unfence (d : Nat) (s : State) : keptOf (unfence d s) = keptOf s := by
  unfold unfence
  simp only [kept_drcBack, kept_modDom, kept_sendSide, kept_setPhase, keptOf_ite, ite_self, kept_mk]

theorem kept_reloadStep (d : Nat) (s : State) : keptOf (reloadStep d s) = keptOf s := by
  unfold reloadStep
  simp only [kept_fire, kept_passToCyc, kept_readRun, kept_reloadInto, kept_setPhase, kept_unfence, keptOf_ite, ite_self, kept_foldl, implies_true]

theorem kept_restartStep (d : Nat) (s : State) : keptOf (restartStep d s) = keptOf s := by
  unfold restartStep
  simp only [kept_passToCyc, kept_reloadStep, kept_resetDomain, kept_setPhase, kept_unfence, keptOf_ite, ite_self]

theorem kept_restartDomain (d : Nat) (s : State) : keptOf (restartDomain d s) = keptOf s := by
  unfold restartDomain
  simp only [kept_fenceDomain, kept_restartStep, keptOf_ite, ite_self]

theorem kept_drainTimeout (d : Nat) (s : State) : keptOf (drainTimeout d s) = keptOf s := by
  unfold drainTimeout
  simp only [kept_fire, kept_passFence, kept_setPhase, keptOf_ite, ite_self]

theorem kept_restartFail (d : Nat) (s : State) : keptOf (restartFail d s) = keptOf s := by
  unfold restartFail
  simp only [kept_fire, kept_passNs, kept_setPhase, keptOf_ite, ite_self]


/-! ### Reset -/

theorem kept_shortPulse (s : State) : keptOf (shortPulse s) = keptOf s := by
  unfold shortPulse
  (repeat' split) <;> first | (simp only [kept_fire, kept_lifeAdd]; done) | (rw [kept_mk] <;> first | rfl | (simp only [kept_fire, kept_lifeAdd]; done)) | (simp only [kept_fire, kept_lifeAdd]; rw [kept_mk] <;> first | rfl | (simp only [kept_fire, kept_lifeAdd, keptOf_ite, ite_self, kept_foldl, implies_true, kept_mk]; done)) | rfl

theorem kept_pinHoldRel (s : State) : keptOf (pinHoldRel s) = keptOf s := rfl


/-! ### Monitors -/

theorem kept_spoilIntake (a : Nat) (s : State) : keptOf (spoilIntake a s) = keptOf s := by
  unfold spoilIntake
  simp only [keptOf_ite, ite_self, kept_mk]

theorem kept_markFrame (m : ScrubMem) (bank : Nat) (s : State) : keptOf (markFrame m bank s) = keptOf s := by
  unfold markFrame
  simp only [kept_setMem]

theorem kept_scrubWord (m : ScrubMem) (bank : Nat) (found : EccFind) (s : State) : keptOf (scrubWord m bank found s) = keptOf s := by
  unfold scrubWord
  simp only [kept_countAccess, kept_fireAll, kept_setMem, kept_spoilIntake, keptOf_ite, ite_self]

theorem kept_scrubCycle (m : ScrubMem) (bank : Nat) (found : EccFind) (s : State) : keptOf (scrubCycle m bank found s) = keptOf s := by
  unfold scrubCycle
  simp only [keptOf_ite]
  (repeat' split) <;> first | (simp only [kept_countAccess, kept_markFrame, kept_passToCyc, kept_scrubWord, kept_setMem]; done) | (rw [kept_mk] <;> first | rfl | (simp only [kept_countAccess, kept_markFrame, kept_passToCyc, kept_scrubWord, kept_setMem, keptOf_ite, ite_self, kept_foldl, implies_true, kept_mk]; done)) | (simp only [kept_countAccess, kept_markFrame, kept_passToCyc, kept_scrubWord, kept_setMem, keptOf_ite, ite_self, kept_foldl, implies_true, kept_mk]; rw [kept_mk] <;> first | rfl | (simp only [kept_countAccess, kept_markFrame, kept_passToCyc, kept_scrubWord, kept_setMem, keptOf_ite, ite_self, kept_foldl, implies_true, kept_mk]; done)) | rfl

theorem kept_patrolScrub (ch : Nat) (found : EccFind) (s : State) : keptOf (patrolScrub ch found s) = keptOf s := by
  unfold patrolScrub
  (repeat' split) <;> first | (simp only [kept_countAccess, kept_fireAll]; done) | (rw [kept_mk] <;> first | rfl | (simp only [kept_countAccess, kept_fireAll]; done)) | (simp only [kept_countAccess, kept_fireAll]; rw [kept_mk] <;> first | rfl | (simp only [kept_passNs]; done)) | rfl

theorem kept_mgtScrub (word : Nat) (found : EccFind) (s : State) : keptOf (mgtScrub word found s) = keptOf s := by
  unfold mgtScrub
  simp only [kept_fire, keptOf_ite]
  (repeat' split) <;> first | (simp only []; done) | (rw [kept_mk] <;> first | rfl | (simp only [kept_fire, keptOf_ite, ite_self, kept_foldl, implies_true, kept_mk]; done)) | (simp only [kept_fire, keptOf_ite, ite_self, kept_foldl, implies_true, kept_mk]; rw [kept_mk] <;> first | rfl | (simp only [kept_fire, keptOf_ite, ite_self, kept_foldl, implies_true, kept_mk]; done)) | rfl

theorem kept_paritySweep (bad : Bool) (s : State) : keptOf (paritySweep bad s) = keptOf s := by
  unfold paritySweep
  (repeat' split) <;> first | (simp only [kept_fire]; done) | (rw [kept_mk] <;> first | rfl | (simp only [kept_fire]; done)) | (simp only [kept_fire]; rw [kept_mk] <;> first | rfl | (simp only [kept_fire, keptOf_ite, ite_self, kept_foldl, implies_true, kept_mk]; done)) | rfl

theorem kept_mirrorState (s : State) : keptOf (mirrorState s) = keptOf s := by
  unfold mirrorState
  simp only [kept_withItems, kept_mk]

theorem kept_cfgReadback (upset : Option Nat) (s : State) : keptOf (cfgReadback upset s) = keptOf s := by
  unfold cfgReadback
  split
  · rfl
  · simp only []
    have h : keptOf (passToOff s (maxN ((List.range 4).map (settleNs s)))) = keptOf s := kept_passToOff ..
    generalize passToOff s (maxN ((List.range 4).map (settleNs s))) = t at h ⊢
    have h2 : keptOf { t with glb := { t.glb with readbackAt := t.time.tick + 1 } } = keptOf s := h
    split <;> simp only [kept_fire, h2]

theorem kept_voltage (m : Nat) (mv : BitVec 16) (s : State) : keptOf (voltage m mv s) = keptOf s := by
  unfold voltage
  (repeat' split) <;> first | (simp only [kept_causeEnds, kept_onset, keptOf_ite, ite_self]; done) | (rw [kept_mk] <;> first | rfl | (simp only [kept_causeEnds, kept_onset, keptOf_ite, ite_self]; done)) | (simp only [kept_causeEnds, kept_onset, keptOf_ite, ite_self]; rw [kept_mk] <;> first | rfl | (simp only [kept_causeEnds, kept_onset, keptOf_ite, ite_self, kept_foldl, implies_true, kept_mk]; done)) | rfl

theorem kept_temperature (vals : List (BitVec 16)) (s : State) : keptOf (temperature vals s) = keptOf s := by
  unfold temperature
  (repeat' split) <;> first | (simp only [kept_causeEnds, kept_onset, keptOf_ite, ite_self]; done) | (rw [kept_mk] <;> first | rfl | (simp only [kept_causeEnds, kept_onset, keptOf_ite, ite_self]; done)) | (simp only [kept_causeEnds, kept_onset, keptOf_ite, ite_self]; rw [kept_mk] <;> first | rfl | (simp only [kept_passNs]; done)) | rfl

theorem kept_pllLock (locked : Bool) (s : State) : keptOf (pllLock locked s) = keptOf s := by
  unfold pllLock
  simp only [kept_causeEnds, kept_onset, keptOf_ite, ite_self, kept_mk]

theorem kept_lockstep (c : Nat) (s : State) : keptOf (lockstep c s) = keptOf s := by
  unfold lockstep
  simp only [keptOf_ite]
  (repeat' split) <;> first | (simp only [kept_endRun, kept_fire, kept_swatchFailed, kept_swatchOver, kept_voidParts]; done) | (rw [kept_mk] <;> first | rfl | (simp only [kept_endRun, kept_fire, kept_swatchFailed, kept_swatchOver, kept_voidParts, keptOf_ite, ite_self, kept_foldl, implies_true, kept_mk]; done)) | (simp only [kept_endRun, kept_fire, kept_swatchFailed, kept_swatchOver, kept_voidParts, keptOf_ite, ite_self, kept_foldl, implies_true, kept_mk]; rw [kept_mk] <;> first | rfl | (simp only [kept_endRun, kept_fire, kept_swatchFailed, kept_swatchOver, kept_voidParts, keptOf_ite, ite_self, kept_foldl, implies_true, kept_mk]; done)) | rfl


/-! ### Peers -/

theorem kept_sideAckIn (p origin mseq : Nat) (s : State) : keptOf (sideAckIn p origin mseq s) = keptOf s := by
  unfold sideAckIn
  simp only [kept_modPort, keptOf_ite, ite_self]

theorem kept_sideTimeout (p : Nat) (s : State) : keptOf (sideTimeout p s) = keptOf s := by
  unfold sideTimeout
  (repeat' split) <;> simp only [kept_fire, kept_modPort, kept_passNs, kept_retrain, kept_slot15]

theorem kept_forwardSide (p : Nat) (body : BitVec 128) (s : State) : keptOf (forwardSide p body s) = keptOf s := by
  unfold forwardSide
  (repeat' split) <;> simp only [kept_pushSide, keptOf_ite, ite_self, kept_foldl, implies_true]

theorem kept_fencePeer (x : Nat) (f : Peer → Peer) (s : State) : keptOf (fencePeer x f s) = keptOf s := by
  unfold fencePeer
  simp only [kept_denyReq, kept_modPeer, kept_foldl, implies_true]

theorem kept_depVoid (x k : Nat) (s : State) : keptOf (depVoid x k s) = keptOf s := by
  unfold depVoid
  simp only [kept_voidAt, keptOf_ite, ite_self]

theorem kept_sideAct (kind x dom tick : Nat) (s : State) : keptOf (sideAct kind x dom tick s) = keptOf s := by
  unfold sideAct
  (repeat' split) <;> simp only [kept_depVoid, kept_fencePeer, kept_modPeer]

theorem kept_sideIn (p kind : Nat) (body : BitVec 128) (s : State) : keptOf (sideIn p kind body s) = keptOf s := by
  unfold sideIn
  simp only [kept_forwardSide, kept_logSide, kept_modPeer, kept_sideAct, kept_slot15, keptOf_ite, ite_self, kept_mk]


/-! ### RegWrite -/

theorem kept_unlessLive (o : Nat) (f : State → State) (h : ∀ s, keptOf (f s) = keptOf s) (s : State) :
    keptOf (unlessLive o f s) = keptOf s := by
  unfold unlessLive
  simp only [keptOf_ite, kept_liveWrite, h, ite_self]

theorem kept_patCtrlWrite (v : Word) (s : State) : keptOf (patCtrlWrite v s) = keptOf s := by
  unfold patCtrlWrite
  simp only [kept_loadWrite, kept_unloadWrite, keptOf_ite, ite_self]

theorem kept_writeTime (r : Nat) (v : Word) (s : State) : keptOf (writeTime r v s) = keptOf s := by
  unfold writeTime
  repeat' split
  · exact kept_offsetIn ..
  · exact kept_timeStep ..
  · exact kept_timeStep ..
  · exact kept_unlessLive _ _ (fun _ => rfl) s
  · rfl

theorem kept_writeObs (r : Nat) (v : Word) (s : State) : keptOf (writeObs r v s) = keptOf s := by
  unfold writeObs
  simp only [kept_mk]

theorem kept_writeDru (r : Nat) (v : Word) (s : State) : keptOf (writeDru r v s) = keptOf s := by
  unfold writeDru
  simp only [kept_hbWrite, kept_restartWrite, keptOf_ite, ite_self]

theorem kept_writeMsix (r : Nat) (v : Word) (s : State) : keptOf (writeMsix r v s) = keptOf s := by
  unfold writeMsix
  (repeat' split) <;> first | (simp only [kept_flushVecs]; done) | (rw [kept_mk] <;> first | rfl | (simp only [kept_flushVecs]; done)) | (simp only [kept_flushVecs]; rw [kept_mk] <;> first | rfl | (simp only [kept_flushVecs, keptOf_ite, ite_self, kept_foldl, implies_true, kept_mk]; done)) | rfl

theorem kept_writeFlt (b r : Nat) (v : Word) (s : State) : keptOf (writeFlt b r v s) = keptOf s := by
  unfold writeFlt
  (repeat' split) <;> simp only [kept_forceWrite, kept_sevWrite, kept_statWrite]


/-! ### Requests -/

theorem kept_sampleAct (c : Nat) (req : BitVec 3) (token : BitVec 4) (e : QEnt) (s : State) : keptOf (sampleAct c req token e s) = keptOf s := by
  unfold sampleAct
  simp only [kept_addInfl, kept_modRsmp, kept_orFenced, implies_true]

theorem kept_keyedAct (c : Nat) (q : QId) (kdesc : BitVec 13) (token : BitVec 4) (e : QEnt) (s : State) : keptOf (keyedAct c q kdesc token e s) = keptOf s := by
  unfold keyedAct
  simp only [kept_addInfl, kept_orFenced, implies_true, kept_mk]

theorem kept_sampleStart (u : Nat) (s : State) : keptOf (sampleStart u s) = keptOf s := by
  unfold sampleStart
  simp only [keptOf_ite]
  (repeat' split) <;> first | (simp only [kept_modRsmp, kept_passToCyc]; done) | (rw [kept_mk] <;> first | rfl | (simp only [kept_modRsmp, kept_passToCyc, keptOf_ite, ite_self, kept_foldl, implies_true, kept_mk]; done)) | (simp only [kept_modRsmp, kept_passToCyc, keptOf_ite, ite_self, kept_foldl, implies_true, kept_mk]; rw [kept_mk] <;> first | rfl | (simp only [kept_modRsmp, kept_passToCyc, keptOf_ite, ite_self, kept_foldl, implies_true, kept_mk]; done)) | rfl

theorem kept_requestOver (q : QId) (c runId seq bundle token : Nat) (s : State) : keptOf (requestOver q c runId seq bundle token s) = keptOf s := by
  unfold requestOver
  (repeat' split) <;> simp only [kept_commit, kept_completeEntry]

theorem kept_sampleFree (u : Nat) (r : SReq) (completed : Bool) (s : State) : keptOf (sampleFree u r completed s) = keptOf s := by
  unfold sampleFree
  simp only [kept_modRsmp]

theorem kept_sampleDone (u : Nat) (diff : Option Nat) (s : State) : keptOf (sampleDone u diff s) = keptOf s := by
  unfold sampleDone
  simp only []
  (repeat' split) <;> first | (simp only [kept_consumed, kept_fire, kept_passToCyc, kept_requestOver, kept_sampleFree, kept_samplePositions]; done) | (rw [kept_mk] <;> first | rfl | (simp only [kept_consumed, kept_fire, kept_passToCyc, kept_requestOver, kept_sampleFree, kept_samplePositions, keptOf_ite, ite_self, kept_foldl, implies_true, kept_mk]; done)) | (simp only [kept_consumed, kept_fire, kept_passToCyc, kept_requestOver, kept_sampleFree, kept_samplePositions, keptOf_ite, ite_self, kept_foldl, implies_true, kept_mk]; rw [kept_mk] <;> first | rfl | (simp only [kept_consumed, kept_fire, kept_passToCyc, kept_requestOver, kept_sampleFree, kept_samplePositions, keptOf_ite, ite_self, kept_foldl, implies_true, kept_mk]; done)) | rfl

theorem kept_samplePause (u : Nat) (s : State) : keptOf (samplePause u s) = keptOf s := by
  unfold samplePause
  simp only [keptOf_ite]
  (repeat' split) <;> first | (simp only [kept_modRsmp, kept_passToOff, kept_samplerAdvance]; done) | (rw [kept_mk] <;> first | rfl | (simp only [kept_modRsmp, kept_passToOff, kept_samplerAdvance, keptOf_ite, ite_self, kept_foldl, implies_true, kept_mk]; done)) | (simp only [kept_modRsmp, kept_passToOff, kept_samplerAdvance, keptOf_ite, ite_self, kept_foldl, implies_true, kept_mk]; rw [kept_mk] <;> first | rfl | (simp only [kept_modRsmp, kept_passToOff, kept_samplerAdvance, keptOf_ite, ite_self, kept_foldl, implies_true, kept_mk]; done)) | rfl

theorem kept_keyedStart (s : State) : keptOf (keyedStart s) = keptOf s := by
  unfold keyedStart
  simp only [keptOf_ite]
  (repeat' split) <;> first | (simp only [kept_passToCyc, kept_readRun, kept_mk]; done) | (rw [kept_mk] <;> first | rfl | (simp only [kept_passToCyc, kept_readRun, keptOf_ite, ite_self, kept_foldl, implies_true, kept_mk]; done)) | (simp only [kept_passToCyc, kept_readRun, keptOf_ite, ite_self, kept_foldl, implies_true, kept_mk]; rw [kept_mk] <;> first | rfl | (simp only [kept_passToCyc, kept_readRun, keptOf_ite, ite_self, kept_foldl, implies_true, kept_mk]; done)) | rfl

theorem kept_keyedDone (s : State) : keptOf (keyedDone s) = keptOf s := by
  unfold keyedDone
  simp only []
  (repeat' split) <;> first | (simp only [kept_passToCyc, kept_requestOver, kept_mk]; done) | (rw [kept_mk] <;> first | rfl | (simp only [kept_passToCyc, kept_requestOver, keptOf_ite, ite_self, kept_foldl, implies_true, kept_mk]; done)) | (simp only [kept_passToCyc, kept_requestOver, keptOf_ite, ite_self, kept_foldl, implies_true, kept_mk]; rw [kept_mk] <;> first | rfl | (simp only [kept_passToCyc, kept_requestOver, keptOf_ite, ite_self, kept_foldl, implies_true, kept_mk]; done)) | rfl


/-! ### Sequence -/

theorem kept_setCnt (c i : Nat) (v : Word) (s : State) : keptOf (setCnt c i v s) = keptOf s := by
  unfold setCnt
  simp only [kept_modCore]

theorem kept_setPf (c i : Nat) (b : Bool) (s : State) : keptOf (setPf c i b s) = keptOf s := by
  unfold setPf
  simp only [kept_modCore]

theorem kept_scalarOp (c : Nat) (hh : Hdr) (w : BitVec 32) (s : State) : keptOf (scalarOp c hh w s).1 = keptOf s := by
  unfold scalarOp
  simp only []
  repeat' split
  all_goals first | rfl | simp only [kept_setCnt, kept_setPf]

theorem kept_scalarOp' (c : Nat) (hh : Hdr) (w : BitVec 32) (s : State) {p} (h : scalarOp c hh w s = p) : keptOf p.1 = keptOf s := h ▸ kept_scalarOp ..

theorem kept_jumpTo (c target : Nat) (s : State) : keptOf (jumpTo c target s) = keptOf s := by
  unfold jumpTo
  simp only [kept_modCore]

theorem kept_scalarAlone (c : Nat) (w : BitVec 32) (s : State) : keptOf (scalarAlone c w s) = keptOf s := by
  unfold scalarAlone
  split
  · rfl
  · have h := kept_scalarOp c (ctxOf s c).hdr w s
    simp only []
    generalize scalarOp c (ctxOf s c).hdr w s = q at h ⊢
    obtain ⟨s1, target, skip⟩ := q
    simp only [] at h ⊢
    split <;> simp only [kept_logSkip, kept_jumpTo, h]

theorem kept_enqueue (c : Nat) (q : QId) (e : QEnt) (s : State) : keptOf (enqueue c q e s) = keptOf s := by
  unfold enqueue
  simp only [kept_modCore]

theorem kept_traceBundle (c : Nat) (u : BitVec 256) (idx cyc : Nat) (s : State) : keptOf (traceBundle c u idx cyc s) = keptOf s := by
  unfold traceBundle
  simp only [kept_trace, keptOf_ite, ite_self]

theorem kept_dispatchSlots (c : Nat) (x : Ctx) (u : BitVec 256) (s : State) : keptOf (dispatchSlots c x u s).1 = keptOf s := by
  have h : ∀ s1, keptOf s1 = keptOf s → keptOf (if bitAt u 253 then scalarOp c x.hdr (BitVec.ofNat 32 (fld u 247 216)) s1 else (s1, none, none)).1 = keptOf s := by
    intro s1 h1
    rw [keptOf_ite_fst, kept_scalarOp, h1, ite_self]
  have h2 := h ((strayBits u).foldl (fun s n => logSkip c n 3 (coreAt s c).sq.pc s) s)
  unfold dispatchSlots
  simp only []
  rw [kept_foldl _ _ (fun s y => kept_enqueue ..), kept_foldl _ _ (fun s y => kept_logSkip ..)]
  split <;> (try rw [kept_logSkip]) <;> exact h _ (kept_foldl _ _ (fun s y => kept_logSkip ..) _)

theorem kept_dispatchSlots' (c : Nat) (x : Ctx) (u : BitVec 256) (s : State) {p} (h : dispatchSlots c x u s = p) : keptOf p.1 = keptOf s := h ▸ kept_dispatchSlots ..

theorem kept_afterBundle (c : Nat) (r : Run) (len : Nat) (u : BitVec 256) (target : Option Nat) (s : State) : keptOf (afterBundle c r len u target s) = keptOf s := by
  unfold afterBundle
  (repeat' split) <;> simp only [kept_jumpTo, kept_logSkip, kept_modCore, kept_modSt, keptOf_ite, ite_self]

theorem kept_dispatchBundle (c : Nat) (s : State) : keptOf (dispatchBundle c s) = keptOf s := by
  unfold dispatchBundle
  split
  · rfl
  · simp only [keptOf_ite, kept_modCore, kept_afterBundle, kept_dispatchSlots, kept_traceBundle, kept_readRun, kept_countStall,
      kept_passToCyc, ite_self]


/-! ### Sync -/

theorem kept_syncOver (c : Nat) (e : QEnt) (s : State) : keptOf (syncOver c e s) = keptOf s := by
  unfold syncOver
  simp only [kept_modCore, kept_openGates]

theorem kept_waitAct (c t n : Nat) (e : QEnt) (s : State) : keptOf (waitAct c t n e s) = keptOf s := by
  unfold waitAct
  simp only [kept_modSt, kept_syncOver, keptOf_ite, ite_self]

theorem kept_semAcqDone (c : Nat) (s : State) : keptOf (semAcqDone c s) = keptOf s := by
  unfold semAcqDone
  (repeat' split) <;> simp only [kept_commit, kept_passToCyc, kept_syncOver, kept_takeEntry]

theorem kept_semRequest (c sem n : Nat) (e : QEnt) (queued : Bool) (s : State) : keptOf (semRequest c sem n e queued s) = keptOf s := by
  unfold semRequest
  simp only [kept_modCore, keptOf_ite, ite_self, kept_mk]

theorem kept_semAcq (c : Nat) (w : BitVec 48) (sem n : Nat) (s : State) : keptOf (semAcq c w sem n s) = keptOf s := by
  unfold semAcq
  (repeat' split) <;> simp only [kept_logSkip, kept_semAcqDone, kept_semRequest, kept_takeEntry]

theorem kept_semRelAct (c sem n : Nat) (e : QEnt) (s : State) : keptOf (semRelAct c sem n e s) = keptOf s := by
  unfold semRelAct
  simp only [kept_modSt, kept_semReturn, kept_skipAtIssue, kept_syncOver, keptOf_ite, ite_self]

theorem kept_setArrival (c a : Nat) (s : State) : keptOf (setArrival c a s) = keptOf s := by
  unfold setArrival
  simp only [keptOf_ite, ite_self, kept_mk]

theorem kept_arriveAct (c a : Nat) (e : QEnt) (s : State) : keptOf (arriveAct c a e s) = keptOf s := by
  unfold arriveAct
  exact kept_orFenced _ _ _ (fun s => by rw [kept_syncOver, kept_setArrival]) s


/-! ### Tiles -/

theorem kept_tileRun (n len : Nat) (bytes : List Byte) (bad : Bool) (s : State) : keptOf (tileRun n len bytes bad s).1 = keptOf s := by
  have h : ∀ t : TileHdr, keptOf (if t.ty = 1 then keyLookup none t.anchor s else (s, none)).1 = keptOf s := by
    intro t
    rw [keptOf_ite_fst, kept_keyLookup, ite_self]
  unfold tileRun
  simp only []
  split
  · exact kept_siuFire ..
  split
  · rfl
  split
  · rfl
  split
  · rfl
  have h2 := h (tileHdrOf (bytes.take 32))
  generalize (if (tileHdrOf (bytes.take 32)).ty = 1 then keyLookup none (tileHdrOf (bytes.take 32)).anchor s else (s, none)) = q at h2 ⊢
  obtain ⟨s1, hit⟩ := q
  simp only [] at h2 ⊢
  split <;> simp only [keptOf_ite_fst, h2, ite_self]

theorem kept_tileRun' (n len : Nat) (bytes : List Byte) (bad : Bool) (s : State) {q} (h : tileRun n len bytes bad s = q) : keptOf q.1 = keptOf s := h ▸ kept_tileRun ..

theorem kept_bumpTring (s : State) : keptOf (bumpTring s) = keptOf s := by
  unfold bumpTring
  simp only [kept_mk]

theorem kept_fetchTile (n addr len : Nat) (s : State) : keptOf (fetchTile n addr len s) = keptOf s := by
  unfold fetchTile
  have h : keptOf (startSample n s.time.tick (bumpTring (readRun .dram none addr (min len 32) s))) = keptOf s := by
    rw [kept_startSample, kept_bumpTring, kept_readRun]
  generalize startSample n s.time.tick (bumpTring (readRun .dram none addr (min len 32) s)) = s1 at h ⊢
  simp only [keptOf_ite, kept_addResult, h]
  rw [kept_mk (tileRun _ _ _ _ _).1]
  · rw [kept_tileRun, keptOf_ite, kept_readRun, h]
    simp only [ite_self]
  all_goals rfl

theorem kept_tileFetch (s : State) : keptOf (tileFetch s) = keptOf s := by
  unfold tileFetch
  simp only [kept_bumpTring, kept_fetchTile, kept_passToCyc, kept_readRun, kept_siuFire, keptOf_ite, ite_self]

theorem kept_freeDecoder (s : State) : keptOf (freeDecoder s) = keptOf s := by
  unfold freeDecoder
  simp only [kept_mk]

theorem kept_writeTile (t : Tile) (s : State) : keptOf (writeTile t s) = keptOf s := by
  unfold writeTile
  simp only [kept_intakeWrite, kept_lateRegion]

theorem kept_replayTile (t : Tile) (s : State) : keptOf (replayTile t s) = keptOf s := by
  unfold replayTile
  simp only [kept_addResult, kept_bumpFree, kept_judgeFrame, kept_startSample, keptOf_ite, ite_self]

theorem kept_tileDone (s : State) : keptOf (tileDone s) = keptOf s := by
  unfold tileDone
  simp only []
  (repeat' split) <;> first | (simp only [kept_addResult, kept_freeDecoder, kept_passToCyc, kept_replayTile, kept_writeTile, kept_mk]; done) | (rw [kept_mk] <;> first | rfl | (simp only [kept_addResult, kept_freeDecoder, kept_passToCyc, kept_replayTile, kept_writeTile, keptOf_ite, ite_self, kept_foldl, implies_true, kept_mk]; done)) | (simp only [kept_addResult, kept_freeDecoder, kept_passToCyc, kept_replayTile, kept_writeTile, keptOf_ite, ite_self, kept_foldl, implies_true, kept_mk]; rw [kept_mk] <;> first | rfl | (simp only [kept_addResult, kept_freeDecoder, kept_passToCyc, kept_replayTile, kept_writeTile, keptOf_ite, ite_self, kept_foldl, implies_true, kept_mk]; done)) | rfl

theorem kept_budgetExceeded (s : State) : keptOf (budgetExceeded s) = keptOf s := by
  unfold budgetExceeded
  (repeat' split) <;> simp only [kept_completeSample, kept_freeDecoder, kept_passToCyc, keptOf_ite, ite_self]

theorem kept_priorDone (s : State) : keptOf (priorDone s) = keptOf s := by
  unfold priorDone
  (repeat' split) <;> simp only [kept_completeSample, kept_freeDecoder, kept_insertCell, kept_passToCyc, keptOf_ite, ite_self]

theorem kept_priorLate (s : State) : keptOf (priorLate s) = keptOf s := by
  unfold priorLate
  (repeat' split) <;> simp only [kept_completeSample, kept_freeDecoder]

theorem kept_intakeClose (s : State) : keptOf (intakeClose s) = keptOf s := by
  unfold intakeClose
  (repeat' split) <;> simp only [kept_forgetDropped, kept_passToOff, kept_postTick, kept_priorLate, kept_trace, keptOf_ite, ite_self, kept_mk]


/-! ### Step -/

theorem kept_idle (s : State) : keptOf (idle s) = keptOf s := by
  unfold idle
  simp only [kept_drainTrace, kept_passNs, keptOf_ite, ite_self]


end Sys2Proof.Laws
end

