-- ==== Sys2Proof/Laws/Lanes.lean ====
section
/-!
SUPPORT. Lane-wise vector instructions: what their issue answers, from what each does to the operands of one lane.
-/
namespace Sys2Proof.Laws
open Sys2Proof Sys2Proof.Machine

theorem laneResult {i : Instr} {c : CoreId} {d : Bool} {w : BitVec 48} {lat : Nat} {vd : BitVec 5} {srcs : List (BitVec 5)}
    {res : State → Nat → Word} (op : State → QEnt → VRes) (he : ∀ s, exec i s = run s (vectorOp c w 1 lat d (srcs.map BitVec.toNat) op id))
    (ho : ∀ s e, op s e = .ok [(vd.toNat, (List.range 64).map (res s))] [] none) : LaneResult i c d w lat vd srcs res := by
  intro s e queued t h
  rw [he, run_eq _ h.1, vectorOp, issue_at (vectorFree c) _ rfl h, lane_act (ho _ _) rfl]

theorem regLanes_length (k : Core) (r : Nat) : (regLanes k r).length = 64 := by simp [regLanes]

theorem lanes2_eq (s : State) (c : Nat) (va vb : BitVec 5) (g : Word → Word → Word) :
    lanes2 g ([va, vb].map fun r => regLanes (coreAt s c) r.toNat) = (List.range 64).map fun i => g (lane s c va i) (lane s c vb i) := rfl

theorem twoSource {mk : CoreId → Bool → BitVec 5 → BitVec 5 → BitVec 5 → Instr} {op lat : Nat} {f : Word → Word → Word} (g : Word → Word → Word)
    (hg : ∀ a b, g a b = f a b) (he : ∀ c d vd va vb s, exec (mk c d vd va vb) s = execR2 c d op lat g vd va vb s) : TwoSource mk op lat f := by
  obtain rfl : g = f := by funext a b; exact hg a b
  intro c d vd va vb
  exact laneResult _ (he c d vd va vb) fun s e => rfl

theorem oneSource {mk : CoreId → Bool → BitVec 5 → BitVec 5 → Instr} {op lat : Nat} {f : Word → Word}
    (he : ∀ c d vd va s, exec (mk c d vd va) s = execR1 c d op lat (lanes1 f) vd va s) : OneSource mk op lat f := by
  intro c d vd va
  exact laneResult _ (he c d vd va) fun s e => rfl

theorem immediate {mk : CoreId → Bool → BitVec 5 → BitVec 5 → BitVec 16 → Instr} {op : Nat} {f : Word → BitVec 16 → Word} (g : Word → BitVec 16 → Word)
    (hg : ∀ a b, g a b = f a b)
    (he : ∀ c d vd va imm s, exec (mk c d vd va imm) s = execI1 c d op 3 (lanes1 fun a => g a imm) vd va imm s) : Immediate mk op f := by
  obtain rfl : g = f := by funext a b; exact hg a b
  intro c d vd va imm
  exact laneResult _ (he c d vd va imm) fun s e => rfl

theorem bvmin (a b : Word) : (if BitVec.slt b a then b else a) = BitVec.ofInt 32 (min a.toInt b.toInt) := by
  by_cases h : b.toInt < a.toInt
  · have : BitVec.slt b a = true := by simp [BitVec.slt, h]
    rw [this, min_eq_right (le_of_lt h)]; simp
  · have : BitVec.slt b a = false := by simp [BitVec.slt]; omega
    rw [this, min_eq_left (by omega)]; simp

theorem bvmax (a b : Word) : (if BitVec.slt a b then b else a) = BitVec.ofInt 32 (max a.toInt b.toInt) := by
  by_cases h : a.toInt < b.toInt
  · have : BitVec.slt a b = true := by simp [BitVec.slt, h]
    rw [this, max_eq_right (le_of_lt h)]; simp
  · have : BitVec.slt a b = false := by simp [BitVec.slt]; omega
    rw [this, max_eq_left (by omega)]; simp

theorem fld40 (b : Word) : fld b 4 0 = b.toNat % 32 := by simp [fld, bitsAt]

theorem ssr (a : Word) (n : Nat) : a.sshiftRight n = BitVec.ofInt 32 (a.toInt / 2 ^ n) := by
  apply BitVec.eq_of_toInt_eq
  rw [BitVec.toInt_sshiftRight, Int.shiftRight_eq_div_pow, BitVec.toInt_ofInt]
  have h1 := BitVec.toInt_lt (x := a)
  have h2 := BitVec.le_toInt (x := a)
  have hp : (0 : Int) < 2 ^ n := by positivity
  have hp1 : (1 : Int) ≤ 2 ^ n := hp
  rw [show ((2 ^ n : Nat) : Int) = 2 ^ n by push_cast; rfl]
  symm
  apply Int.bmod_eq_of_le
  · have : -(2147483648:Int) ≤ a.toInt / 2 ^ n := by
      rw [Int.le_ediv_iff_mul_le hp]; norm_num at h2; linarith
    norm_num at *; omega
  · have : a.toInt / 2 ^ n < 2147483648 := by
      rw [Int.ediv_lt_iff_lt_mul hp]; norm_num at h1; linarith
    norm_num at *; omega

end Sys2Proof.Laws
end

