-- ==== Sys2Proof/Laws/Residue.lean ====
section
/-!
SUPPORT. The arithmetic of the Residue Checker: rows and columns of a tile as sums, one step, one chain, one upset bit
(03, R88 to R90).
-/
namespace Sys2Proof.Laws
open Sys2Proof Sys2Proof.Machine

/-- Element (i, j) of a matrix held as a list of rows. -/
def ent (M : List (List Int)) (i j : Nat) : Int := (M.getD i []).getD j 0

theorem sumI_eq (l : List Int) : sumI l = ∑ i ∈ Finset.range l.length, l.getD i 0 := by
  have h : ∀ (l : List Int) (a : Int), l.foldl (· + ·) a = a + ∑ i ∈ Finset.range l.length, l.getD i 0 := by
    intro l
    induction l with
    | nil => intro a; simp
    | cons x l ih => intro a; rw [List.foldl_cons, ih, List.length_cons, Finset.sum_range_succ']; simp; ring
  simp [sumI, h]

theorem getD_zipWith {α β γ : Type} (f : α → β → γ) (l : List α) (m : List β) (i : Nat) (a : α) (b : β) (c : γ)
    (h1 : i < l.length) (h2 : i < m.length) : (List.zipWith f l m).getD i c = f (l.getD i a) (m.getD i b) := by
  rw [List.getD_eq_getElem _ _ (by simp; omega), List.getElem_zipWith, List.getD_eq_getElem _ _ h1, List.getD_eq_getElem _ _ h2]

theorem getD_map' {α β : Type} (f : α → β) (l : List α) (i : Nat) (a : α) (b : β) (h : i < l.length) : (l.map f).getD i b = f (l.getD i a) := by
  rw [List.getD_eq_getElem _ _ (by simpa using h), List.getElem_map, List.getD_eq_getElem _ _ h]

theorem dot_eq (a b : List Int) (n : Nat) (h1 : a.length = n) (h2 : b.length = n) :
    dot a b = ∑ i ∈ Finset.range n, a.getD i 0 * b.getD i 0 := by
  rw [dot, sumI_eq]
  have : (List.zipWith (fun x1 x2 => x1 * x2) a b).length = n := by simp [h1, h2]
  rw [this]
  refine Finset.sum_congr rfl fun i hi => ?_
  rw [Finset.mem_range] at hi
  exact getD_zipWith _ _ _ _ _ _ _ (by omega) (by omega)

theorem getD_range_map {β : Type} (f : Nat → β) (n i : Nat) (b : β) (h : i < n) : ((List.range n).map f).getD i b = f i := by
  rw [getD_map' f _ i 0 b (by simpa using h)]; simp [List.getD, h]

theorem columns_row (d : Nat) (rows : List (List Int)) (j : Nat) (h : j < d) : (columns d rows).getD j [] = rows.map fun r => r.getD j 0 := by
  rw [columns, getD_range_map _ _ _ _ h]

theorem columns_ent (d : Nat) (rows : List (List Int)) (j x : Nat) (h : j < d) (hx : x < rows.length) : ent (columns d rows) j x = ent rows x j := by
  rw [ent, columns_row _ _ _ h, getD_map' (fun r => r.getD j 0) rows x [] 0 hx]; rfl

theorem chunks_getD {α : Type} (w n : Nat) (l : List α) (i : Nat) (h : i < n) : (chunks w n l).getD i [] = (l.drop (w * i)).take w := by
  induction n generalizing l i with
  | zero => omega
  | succ n ih =>
    cases i with
    | zero => simp [chunks]
    | succ i =>
      simp only [chunks, List.getD_cons_succ]
      rw [ih _ _ (by omega), List.drop_drop]
      congr 2; ring

theorem chunks_length {α : Type} (w n : Nat) (l : List α) : (chunks w n l).length = n := by
  induction n generalizing l with
  | zero => rfl
  | succ n ih => simp [chunks, ih]

theorem getD_take_drop {α : Type} (l : List α) (k w j : Nat) (d : α) (h : j < w) : ((l.drop k).take w).getD j d = l.getD (k + j) d := by
  simp [List.getD, h]

theorem getD_pad {α : Type} (l : List α) (n i : Nat) (d : α) : (l ++ List.replicate n d).getD i d = l.getD i d := by
  by_cases h : i < l.length
  · rw [List.getD_append _ _ _ _ h]
  · rw [List.getD_append_right _ _ _ _ (by omega), List.getD_eq_default l _ (by omega)]; simp [List.getD, List.getElem?_replicate]; split <;> rfl

theorem tile_ent (acc : List (BitVec 40)) (i j : Nat) (hi : i < 64) (hj : j < 64) :
    ent (tileRows acc) i j = (acc.getD (64 * i + j) 0).toInt := by
  rw [ent, tileRows, chunks_getD _ _ _ _ hi, getD_take_drop _ _ _ _ _ hj]
  rw [getD_map' BitVec.toInt _ (64 * i + j) 0 0 (by simp; omega), getD_pad]

theorem tile_length (acc : List (BitVec 40)) : (tileRows acc).length = 64 := chunks_length ..

theorem tile_row_length (acc : List (BitVec 40)) (i : Nat) (hi : i < 64) : ((tileRows acc).getD i []).length = 64 := by
  rw [tileRows, chunks_getD _ _ _ _ hi]
  simp; omega

theorem getD_flatMap {α β : Type} (g : List α → List β) (rows : List (List α)) (i j : Nat) (d : β)
    (h : ∀ r ∈ rows, (g r).length = 64) (hi : i < rows.length) (hj : j < 64) :
    (rows.flatMap g).getD (64 * i + j) d = (g (rows.getD i [])).getD j d := by
  induction rows generalizing i with
  | nil => simp at hi
  | cons r rows ih =>
    have hr := h r (by simp)
    cases i with
    | zero => simp only [List.flatMap_cons, List.getD_cons_zero, Nat.mul_zero, Nat.zero_add]; rw [List.getD_append _ _ _ _ (by omega)]
    | succ i =>
      simp only [List.flatMap_cons, List.getD_cons_succ]
      rw [List.getD_append_right _ _ _ _ (by omega), hr, show 64 * (i + 1) + j - 64 = 64 * i + j by omega]
      exact ih i (fun r hr => h r (by simp [hr])) (by simpa using hi)

/-- the exact sums of a step -/
def exactOf (acc : List (BitVec 40)) (act w : List (List Int)) : List (List Int) :=
  List.zipWith (fun acc a => List.zipWith (fun x col => x + dot a col) acc (columns 64 w)) (tileRows acc) act

theorem step_acc (b : Bank) (act w : List (List Int)) : (b.step act w).acc = (exactOf b.acc act w).flatMap fun r => r.map wrap40 := rfl

theorem columns_length (d : Nat) (rows : List (List Int)) : (columns d rows).length = d := by simp [columns]

theorem exact_length (acc : List (BitVec 40)) (act w : List (List Int)) (h : act.length = 64) : (exactOf acc act w).length = 64 := by
  simp [exactOf, tile_length, h]

theorem mem_getD {α : Type} (l : List α) (x : α) (d : α) (h : x ∈ l) : ∃ i, i < l.length ∧ l.getD i d = x := by
  obtain ⟨i, hi, rfl⟩ := List.mem_iff_getElem.1 h
  exact ⟨i, hi, List.getD_eq_getElem _ _ hi⟩

theorem getD_mem {α : Type} (l : List α) (i : Nat) (d : α) (h : i < l.length) : l.getD i d ∈ l := by
  rw [List.getD_eq_getElem _ _ h]; exact List.getElem_mem h

theorem exact_row (acc : List (BitVec 40)) (act w : List (List Int)) (h : act.length = 64) (i : Nat) (hi : i < 64) :
    (exactOf acc act w).getD i [] = List.zipWith (fun x col => x + dot (act.getD i []) col) ((tileRows acc).getD i []) (columns 64 w) := by
  rw [exactOf, getD_zipWith _ _ _ i [] [] [] (by rw [tile_length]; exact hi) (by omega)]

theorem exact_row_length (acc : List (BitVec 40)) (act w : List (List Int)) (h : act.length = 64) (i : Nat) (hi : i < 64) :
    ((exactOf acc act w).getD i []).length = 64 := by
  rw [exact_row _ _ _ h _ hi]; rw [List.length_zipWith, tile_row_length _ _ hi, columns_length]; rfl

theorem exact_ent (acc : List (BitVec 40)) (act w : List (List Int)) (h : act.length = 64) (hl : ∀ r ∈ act, r.length = w.length)
    (i j : Nat) (hi : i < 64) (hj : j < 64) :
    ent (exactOf acc act w) i j = ent (tileRows acc) i j + ∑ x ∈ Finset.range w.length, ent act i x * ent w x j := by
  rw [ent, exact_row _ _ _ h _ hi, getD_zipWith _ _ _ j 0 [] 0 (by rw [tile_row_length _ _ hi]; exact hj) (by rw [columns_length]; exact hj)]
  rw [dot_eq _ _ w.length (hl _ (getD_mem _ _ _ (by omega))) (by rw [columns_row _ _ _ hj]; simp)]
  refine congrArg (_ + ·) (Finset.sum_congr rfl fun x hx => ?_)
  rw [Finset.mem_range] at hx
  have := columns_ent 64 w j x hj hx
  rw [← this]; rfl

theorem step_ent (b : Bank) (act w : List (List Int)) (h : act.length = 64) (i j : Nat) (hi : i < 64) (hj : j < 64) :
    (b.step act w).acc.getD (64 * i + j) 0 = wrap40 (ent (exactOf b.acc act w) i j) := by
  rw [step_acc, getD_flatMap _ _ _ _ _ _ (by rw [exact_length _ _ _ h]; exact hi) hj]
  · rw [getD_map' wrap40 _ j 0 0 (by rw [exact_row_length _ _ _ h _ hi]; exact hj)]; rfl
  · intro r hr
    obtain ⟨i, hi, rfl⟩ := mem_getD _ _ [] hr
    rw [List.length_map]; exact exact_row_length _ _ _ h _ (by rwa [exact_length _ _ _ h] at hi)

theorem rep0 {α : Type} (n j : Nat) (d : α) : (List.replicate n d).getD j d = d := by
  simp [List.getD, List.getElem?_replicate]; split <;> rfl

theorem res_eq_iff (x y : Int) : res x = res y ↔ (x - y) % 1048575 = 0 := by
  unfold res resMod; push_cast; omega

theorem res_res (x y : Int) : res ((res x : Nat) + y) = res (x + y) := by
  rw [res_eq_iff]; unfold res resMod; push_cast; omega

theorem resAdd_getD (old : List Nat) (add : List Int) (i : Nat) (h : add.length = 64) (ho : old.length ≤ 64) (hi : i < 64) :
    (resAdd old add).getD i 0 = res ((old.getD i 0 : Nat) + add.getD i 0) := by
  rw [resAdd, getD_zipWith _ _ _ i 0 0 0 (by simp; omega) (by omega), getD_pad]

theorem resAdd_length (old : List Nat) (add : List Int) (h : add.length = 64) (ho : old.length ≤ 64) : (resAdd old add).length = 64 := by
  simp [resAdd]; omega

theorem colSums_spec (rows : List (List Int)) (h : ∀ r ∈ rows, r.length = 64) :
    (colSums rows).length = 64 ∧ ∀ j, j < 64 → (colSums rows).getD j 0 = ∑ i ∈ Finset.range rows.length, ent rows i j := by
  have key : ∀ (rows : List (List Int)) (z : List Int), (∀ r ∈ rows, r.length = 64) → z.length = 64 →
      (rows.foldl (fun acc r => List.zipWith (· + ·) acc r) z).length = 64 ∧
      ∀ j, j < 64 → (rows.foldl (fun acc r => List.zipWith (· + ·) acc r) z).getD j 0 = z.getD j 0 + ∑ i ∈ Finset.range rows.length, ent rows i j := by
    intro rows
    induction rows with
    | nil => intro z _ hz; simpa using hz
    | cons r rows ih =>
      intro z h hz
      have hr := h r (by simp)
      obtain ⟨i1, i2⟩ := ih (List.zipWith (· + ·) z r) (fun r hr => h r (by simp [hr])) (by simp [hz, hr])
      refine ⟨i1, fun j hj => ?_⟩
      rw [List.foldl_cons, i2 j hj, getD_zipWith _ _ _ j 0 0 0 (by omega) (by omega), List.length_cons, Finset.sum_range_succ']
      simp only [ent, List.getD_cons_succ, List.getD_cons_zero]; ring
  obtain ⟨k1, k2⟩ := key rows (List.replicate 64 0) h (by simp)
  refine ⟨k1, fun j hj => ?_⟩
  rw [colSums, k2 j hj, rep0, zero_add]

theorem row_sum (M : List (List Int)) (i n : Nat) (h : (M.getD i []).length = n) (hi : i < M.length) :
    (M.map sumI).getD i 0 = ∑ j ∈ Finset.range n, ent M i j := by
  rw [getD_map' sumI M i [] 0 hi, sumI_eq, h]; rfl

theorem wrap_spec (v : Int) (h1 : -(3 * 2 ^ 39) ≤ v) (h2 : v < 3 * 2 ^ 39) : (wrap40 v).toInt = v - 2 ^ 40 * wrapTally v := by
  rw [wrap40, BitVec.toInt_ofInt, wrapTally, Int.bmod_def]
  norm_num at *
  split <;> split <;> (try split) <;> omega

theorem tile_rows64 (acc : List (BitVec 40)) : ∀ r ∈ tileRows acc, r.length = 64 := by
  intro r hr
  obtain ⟨i, hi, rfl⟩ := mem_getD _ _ [] hr
  exact tile_row_length _ _ (by rwa [tile_length] at hi)

def rowSum (acc : List (BitVec 40)) (i : Nat) : Int := ∑ j ∈ Finset.range 64, ent (tileRows acc) i j
def colSum (acc : List (BitVec 40)) (j : Nat) : Int := ∑ i ∈ Finset.range 64, ent (tileRows acc) i j

def Good (b : Bank) : Prop :=
  (b.rp.length = 64 ∧ b.cp.length = 64 ∧ b.tr.length = 64 ∧ b.tc.length = 64) ∧
  (∀ i, i < 64 → b.rp.getD i 0 = res (rowSum b.acc i + b.tr.getD i 0)) ∧
  ∀ j, j < 64 → b.cp.getD j 0 = res (colSum b.acc j + b.tc.getD j 0)

theorem row_sum' (acc : List (BitVec 40)) (i : Nat) (hi : i < 64) : ((tileRows acc).map sumI).getD i 0 = rowSum acc i :=
  row_sum _ _ _ (tile_row_length _ _ hi) (by rw [tile_length]; exact hi)

theorem col_sum' (acc : List (BitVec 40)) (j : Nat) (hj : j < 64) : (colSums (tileRows acc)).getD j 0 = colSum acc j := by
  rw [(colSums_spec _ (tile_rows64 acc)).2 j hj, tile_length]; rfl

theorem good_open (b : Bank) (f : MmaF) (t : Nat) : Good (b.openChain f t) := by
  have hr : ∀ acc : List (BitVec 40), (((tileRows acc).map sumI).length = 64) := by
    intro acc; rw [List.length_map]; exact tile_length acc
  have hc := fun acc => (colSums_spec _ (tile_rows64 acc)).1
  have h0 : ([] : List Nat).length ≤ 64 := Nat.zero_le _
  have he : ∀ acc, acc = (if f.init = 1 then [] else b.acc) → b.openChain f t =
      { b with acc := acc, preloaded := false, chain := some ⟨0, f.afmt.toNat, f.wfmt.toNat, f.mode.toNat, t⟩
               rp := resAdd [] ((tileRows acc).map sumI), cp := resAdd [] (colSums (tileRows acc))
               tr := List.replicate 64 0, tc := List.replicate 64 0 } := by rintro _ rfl; rfl
  generalize ha : (if f.init = 1 then [] else b.acc) = acc
  rw [he acc ha.symm]
  clear he ha
  have r1 : ∀ i, i < 64 → (resAdd [] ((tileRows acc).map sumI)).getD i 0 = res (rowSum acc i + (((List.replicate 64 0 : List Nat).getD i 0 : Nat) : Int)) := by
    intro i hi
    rw [resAdd_getD [] _ i (hr acc) h0 hi, row_sum' _ _ hi, rep0]
    simp only [List.getD_nil, Nat.cast_zero, zero_add, add_zero]
  have r2 : ∀ i, i < 64 → (resAdd [] (colSums (tileRows acc))).getD i 0 = res (colSum acc i + (((List.replicate 64 0 : List Nat).getD i 0 : Nat) : Int)) := by
    intro i hi
    rw [resAdd_getD [] _ i (hc acc) h0 hi, col_sum' _ _ hi, rep0]
    simp only [List.getD_nil, Nat.cast_zero, zero_add, add_zero]
  have l1 := resAdd_length [] _ (hr acc) h0
  have l2 := resAdd_length [] _ (hc acc) h0
  have l3 : (List.replicate 64 0 : List Nat).length = 64 := List.length_replicate
  generalize resAdd [] ((tileRows acc).map sumI) = R at *
  generalize resAdd [] (colSums (tileRows acc)) = C at *
  generalize (List.replicate 64 0 : List Nat) = Z at *
  exact ⟨⟨l1, l2, l3, l3⟩, r1, r2⟩

theorem acc_bound (acc : List (BitVec 40)) (i j : Nat) (hi : i < 64) (hj : j < 64) :
    -2 ^ 39 ≤ ent (tileRows acc) i j ∧ ent (tileRows acc) i j < 2 ^ 39 := by
  rw [tile_ent _ _ _ hi hj]
  exact ⟨BitVec.le_toInt _, BitVec.toInt_lt⟩

theorem ent_bound (M : List (List Int)) (h : ∀ r ∈ M, ∀ v ∈ r, (-4096 : Int) ≤ v ∧ v ≤ 4096) (i j : Nat) : -4096 ≤ ent M i j ∧ ent M i j ≤ 4096 := by
  unfold ent
  by_cases hi : i < M.length
  · by_cases hj : j < (M.getD i []).length
    · exact h _ (getD_mem _ _ _ hi) _ (getD_mem _ _ _ hj)
    · rw [List.getD_eq_default _ _ (by omega)]; simp
  · rw [List.getD_eq_default M _ (by omega)]; simp

theorem dot_bound (act w : List (List Int)) (i j : Nat) (hl : w.length ≤ 128)
    (h1 : ∀ r ∈ act, ∀ v ∈ r, (-4096 : Int) ≤ v ∧ v ≤ 4096) (h2 : ∀ r ∈ w, ∀ v ∈ r, (-4096 : Int) ≤ v ∧ v ≤ 4096) :
    |∑ x ∈ Finset.range w.length, ent act i x * ent w x j| ≤ 2 ^ 31 := by
  refine (Finset.abs_sum_le_sum_abs _ _).trans ?_
  have : ∀ x ∈ Finset.range w.length, |ent act i x * ent w x j| ≤ 16777216 := by
    intro x _
    obtain ⟨a1, a2⟩ := ent_bound act h1 i x
    obtain ⟨b1, b2⟩ := ent_bound w h2 x j
    rw [abs_mul]
    have ha : |ent act i x| ≤ 4096 := abs_le.2 ⟨a1, a2⟩
    have hb : |ent w x j| ≤ 4096 := abs_le.2 ⟨b1, b2⟩
    nlinarith [abs_nonneg (ent act i x), abs_nonneg (ent w x j)]
  refine (Finset.sum_le_sum this).trans ?_
  rw [Finset.sum_const, Finset.card_range, nsmul_eq_mul]
  have : (w.length : Int) ≤ 128 := by exact_mod_cast hl
  nlinarith

theorem good_step (b : Bank) (x : List (List Int) × List (List Int)) (hs : StepSized x) (hb : Good b) : Good (b.step x.1 x.2) := by
  obtain ⟨act, w⟩ := x
  obtain ⟨h64, hw, hact, hwt⟩ := hs
  simp only at h64 hw hact hwt
  obtain ⟨⟨l1, l2, l3, l4⟩, hrow, hcol⟩ := hb
  have hal : ∀ r ∈ act, r.length = w.length := fun r hr => (hact r hr).1
  have hwl : ∀ r ∈ w, r.length = 64 := fun r hr => (hwt r hr).1
  set E := exactOf b.acc act w with hE
  have hEl : E.length = 64 := exact_length _ _ _ h64
  have hErow : ∀ i, i < 64 → (E.getD i []).length = 64 := fun i hi => exact_row_length _ _ _ h64 i hi
  have hEr64 : ∀ r ∈ E, r.length = 64 := by
    intro r hr; obtain ⟨i, hi, rfl⟩ := mem_getD _ _ [] hr; exact hErow i (by omega)
  set T := E.map fun r => r.map wrapTally with hT
  have hTl : T.length = 64 := by rw [hT, List.length_map, hEl]
  have hTrow : ∀ i, i < 64 → T.getD i [] = (E.getD i []).map wrapTally := fun i hi => getD_map' _ E i [] [] (by omega)
  have hTent : ∀ i j, i < 64 → j < 64 → ent T i j = wrapTally (ent E i j) := by
    intro i j hi hj
    rw [ent, hTrow i hi, getD_map' wrapTally _ j 0 0 (by rw [hErow i hi]; exact hj)]; rfl
  have hTr64 : ∀ r ∈ T, r.length = 64 := by
    intro r hr; obtain ⟨i, hi, rfl⟩ := mem_getD _ _ [] hr; rw [hTrow i (by omega), List.length_map]; exact hErow i (by omega)
  have hdotb := fun i j => abs_le.1 (dot_bound act w i j hw (fun r hr => (hact r hr).2) (fun r hr => (hwt r hr).2))
  have hnew : ∀ i j, i < 64 → j < 64 → ent (tileRows (b.step act w).acc) i j = ent E i j - 2 ^ 40 * ent T i j := by
    intro i j hi hj
    rw [tile_ent _ _ _ hi hj, step_ent _ _ _ h64 _ _ hi hj, hTent i j hi hj]
    have h1 := acc_bound b.acc i j hi hj
    have h2 := hdotb i j
    have h3 := exact_ent b.acc act w h64 hal i j hi hj
    rw [← hE] at h3
    rw [← hE]
    apply wrap_spec <;> rw [h3] <;> norm_num at * <;> linarith [h1.1, h1.2, h2.1, h2.2]
  have hex := fun i j hi hj => exact_ent b.acc act w h64 hal i j hi hj
  refine ⟨⟨?_, ?_, ?_, ?_⟩, fun i hi => ?_, fun j hj => ?_⟩
  · exact resAdd_length _ _ (by simp [h64]) (by omega)
  · exact resAdd_length _ _ (by simp [columns_length]) (by omega)
  · exact resAdd_length _ _ (by rw [List.length_map]; exact hTl) (by omega)
  · exact resAdd_length _ _ (colSums_spec T hTr64).1 (by omega)
  · have e1 : (b.step act w).rp.getD i 0 = res ((b.rp.getD i 0 : Nat) + (act.map fun a => dot a (w.map sumI)).getD i 0) :=
      resAdd_getD _ _ _ (by simp [h64]) (by omega) hi
    have e2 : (b.step act w).tr.getD i 0 = res ((b.tr.getD i 0 : Nat) + (T.map sumI).getD i 0) :=
      resAdd_getD _ _ _ (by rw [List.length_map]; exact hTl) (by omega) hi
    rw [e1, e2, hrow i hi, res_res, getD_map' (fun a => dot a (w.map sumI)) act i [] 0 (by omega),
      dot_eq _ _ w.length (hal _ (getD_mem _ _ _ (by omega))) (by simp), row_sum T i 64 (by rw [hTrow i hi, List.length_map, hErow i hi]) (by omega)]
    rw [show ∀ (a : Int) (n : Int), res (a + (res n : Nat)) = res (n + a) from fun a n => by rw [add_comm, res_res]]
    have s1 : rowSum (b.step act w).acc i = (∑ j ∈ Finset.range 64, ent E i j) - 2 ^ 40 * ∑ j ∈ Finset.range 64, ent T i j := by
      rw [rowSum, Finset.mul_sum, ← Finset.sum_sub_distrib]
      exact Finset.sum_congr rfl fun j hj => hnew i j hi (Finset.mem_range.1 hj)
    have s2 : (∑ j ∈ Finset.range 64, ent E i j) = rowSum b.acc i + ∑ x ∈ Finset.range w.length, (act.getD i []).getD x 0 * (w.map sumI).getD x 0 := by
      rw [rowSum, Finset.sum_congr rfl fun j hj => hex i j hi (Finset.mem_range.1 hj), Finset.sum_add_distrib, Finset.sum_comm]
      refine congrArg (_ + ·) (Finset.sum_congr rfl fun x hx => ?_)
      rw [Finset.mem_range] at hx
      rw [row_sum w x 64 (hwl _ (getD_mem _ _ _ hx)) hx, Finset.mul_sum]; rfl
    rw [res_eq_iff, s1, s2]
    ring_nf; omega
  · have hcl : (columns 64 w).length = 64 := columns_length ..
    have e1 : (b.step act w).cp.getD j 0 = res ((b.cp.getD j 0 : Nat) + ((columns 64 w).map (dot ((columns w.length act).map sumI))).getD j 0) :=
      resAdd_getD _ _ _ (by simp [hcl]) (by omega) hj
    have e2 : (b.step act w).tc.getD j 0 = res ((b.tc.getD j 0 : Nat) + (colSums T).getD j 0) :=
      resAdd_getD _ _ _ (colSums_spec T hTr64).1 (by omega) hj
    rw [e1, e2, hcol j hj, res_res, getD_map' _ (columns 64 w) j [] 0 (by omega),
      dot_eq _ _ w.length (by simp [columns_length]) (by rw [columns_row _ _ _ hj]; simp), (colSums_spec T hTr64).2 j hj, hTl]
    rw [show ∀ (a : Int) (n : Int), res (a + (res n : Nat)) = res (n + a) from fun a n => by rw [add_comm, res_res]]
    have s1 : colSum (b.step act w).acc j = (∑ i ∈ Finset.range 64, ent E i j) - 2 ^ 40 * ∑ i ∈ Finset.range 64, ent T i j := by
      rw [colSum, Finset.mul_sum, ← Finset.sum_sub_distrib]
      exact Finset.sum_congr rfl fun i hi => hnew i j (Finset.mem_range.1 hi) hj
    have s2 : (∑ i ∈ Finset.range 64, ent E i j) = colSum b.acc j +
        ∑ x ∈ Finset.range w.length, ((columns w.length act).map sumI).getD x 0 * ((columns 64 w).getD j []).getD x 0 := by
      rw [colSum, Finset.sum_congr rfl fun i hi => hex i j (Finset.mem_range.1 hi) hj, Finset.sum_add_distrib, Finset.sum_comm]
      refine congrArg (_ + ·) (Finset.sum_congr rfl fun x hx => ?_)
      rw [Finset.mem_range] at hx
      rw [row_sum (columns w.length act) x 64 (by rw [columns_row _ _ _ hx]; simp [h64]) (by rw [columns_length]; exact hx), Finset.sum_mul]
      refine Finset.sum_congr rfl fun i hi => ?_
      rw [Finset.mem_range] at hi
      rw [columns_ent _ _ _ _ hx (by omega)]
      rw [show ((columns 64 w).getD j []).getD x 0 = ent (columns 64 w) j x from rfl, columns_ent _ _ _ _ hj hx]
    rw [res_eq_iff, s1, s2]
    ring_nf; omega

theorem good_chained (b : Bank) (f : MmaF) (t : Nat) (steps : List (List (List Int) × List (List Int))) (h : ∀ x ∈ steps, StepSized x) :
    Good (chained b f t steps) := by
  unfold chained
  generalize hb : b.openChain f t = b0
  have hg : Good b0 := hb ▸ good_open b f t
  clear hb
  induction steps generalizing b0 with
  | nil => exact hg
  | cons x l ih => exact ih (fun y hy => h y (by simp [hy])) _ (good_step _ _ (h x (by simp)) hg)

/-! upsets -/
theorem getD_modify_ne {α : Type} (l : List α) (i j : Nat) (f : α → α) (d : α) (h : i ≠ j) : (l.modify i f).getD j d = l.getD j d := by
  simp only [List.getD, List.getElem?_modify, h, if_false]
  cases l[j]? <;> rfl

theorem getD_modify_eq {α : Type} (l : List α) (i : Nat) (f : α → α) (d : α) (h : i < l.length) : (l.modify i f).getD i d = f (l.getD i d) := by
  simp [List.getD, h]

theorem twoPow_eq (k : Nat) : BitVec.ofNat 40 (2 ^ k) = BitVec.twoPow 40 k := by
  apply BitVec.eq_of_toNat_eq; simp [BitVec.toNat_twoPow]

theorem bit_twoPow (k i : Nat) (h : k < 40) : (BitVec.twoPow 40 k).getLsbD i = decide (i = k) := by
  rw [BitVec.getLsbD_twoPow, decide_eq_true h, Bool.true_and]
  by_cases e : k = i <;> simp [e, eq_comm]

theorem add_bit (u : BitVec 40) (k : Nat) (h : k < 40) (hu : u.getLsbD k = false) :
    (u ^^^ BitVec.twoPow 40 k) = u + BitVec.twoPow 40 k ∧ (u + BitVec.twoPow 40 k).toNat = u.toNat + 2 ^ k := by
  have h0 : u &&& BitVec.twoPow 40 k = 0#40 := by
    apply BitVec.eq_of_getLsbD_eq
    intro i hi
    rw [BitVec.getLsbD_and, bit_twoPow _ _ h]
    by_cases e : i = k
    · subst e; rw [hu]; simp
    · simp [e]
  have h1 : u ^^^ BitVec.twoPow 40 k = u ||| BitVec.twoPow 40 k := by
    apply BitVec.eq_of_getLsbD_eq
    intro i hi
    rw [BitVec.getLsbD_xor, BitVec.getLsbD_or, bit_twoPow _ _ h]
    by_cases e : i = k
    · subst e; rw [hu]; simp
    · simp [e]
  have h2 := BitVec.add_eq_or_of_and_eq_zero u (BitVec.twoPow 40 k) h0
  refine ⟨by rw [h1, h2], ?_⟩
  have h3 : 2 ^ k ≤ (u + BitVec.twoPow 40 k).toNat := by
    rw [h2]
    have hb : (u ||| BitVec.twoPow 40 k).getLsbD k = true := by rw [BitVec.getLsbD_or, bit_twoPow _ _ h]; simp
    exact Nat.ge_two_pow_of_testBit (by rw [BitVec.getLsbD] at hb; exact hb)
  have h4 : (2:Nat) ^ k < 2 ^ 40 := Nat.pow_lt_pow_right (by omega) h
  rw [BitVec.toNat_add, BitVec.toNat_twoPow, Nat.mod_eq_of_lt h4] at h3 ⊢
  have := u.isLt
  generalize 2 ^ k = q at *
  omega

theorem top_bit (x : BitVec 40) : x.getLsbD 39 = decide (2 ^ 39 ≤ x.toNat) := by
  have := x.isLt
  simp only [BitVec.getLsbD, Nat.testBit_eq_decide_div_mod_eq, decide_eq_decide]; omega

theorem toInt_add_bit (u : BitVec 40) (k : Nat) (h : k < 40) (hu : u.getLsbD k = false) :
    (u + BitVec.twoPow 40 k).toInt - u.toInt = 2 ^ k ∨ (u + BitVec.twoPow 40 k).toInt - u.toInt = -2 ^ k := by
  obtain ⟨h1, h2⟩ := add_bit u k h hu
  have hl := (u + BitVec.twoPow 40 k).isLt
  rw [BitVec.toInt_eq_toNat_cond, BitVec.toInt_eq_toNat_cond]
  have hc : ((2 ^ k : Nat) : Int) = 2 ^ k := by push_cast; rfl
  rw [← hc]
  by_cases e : k = 39
  · subst e
    rw [top_bit, decide_eq_false_iff_not] at hu
    rw [h2] at hl ⊢
    split_ifs <;> omega
  · have hm : (u + BitVec.twoPow 40 k).getLsbD 39 = u.getLsbD 39 := by
      rw [← h1, BitVec.getLsbD_xor, bit_twoPow _ _ h, decide_eq_false (by omega), Bool.xor_false]
    rw [top_bit, top_bit, decide_eq_decide] at hm
    rw [h2] at hl hm ⊢
    generalize 2 ^ k = q at *
    left
    split_ifs <;> omega

theorem xor_toInt (v : BitVec 40) (k : Nat) (h : k < 40) :
    (v ^^^ BitVec.ofNat 40 (2 ^ k)).toInt - v.toInt = 2 ^ k ∨ (v ^^^ BitVec.ofNat 40 (2 ^ k)).toInt - v.toInt = -2 ^ k := by
  rw [twoPow_eq]
  cases hv : v.getLsbD k
  · rw [(add_bit v k h hv).1]; exact toInt_add_bit v k h hv
  · have hu : (v ^^^ BitVec.twoPow 40 k).getLsbD k = false := by
      rw [BitVec.getLsbD_xor, hv, bit_twoPow _ _ h]; simp
    have h1 := toInt_add_bit _ k h hu
    have h2 := (add_bit _ k h hu).1
    rw [BitVec.xor_assoc, BitVec.xor_self, BitVec.xor_zero] at h2
    rw [← h2] at h1
    rcases h1 with h1 | h1
    · right; omega
    · left; omega

theorem pow_mod (k : Nat) (h : k < 40) : ((2:Int) ^ k) % 1048575 ≠ 0 := by
  interval_cases k <;> decide

theorem flip_ent (acc : List (BitVec 40)) (h : acc.length ≤ 4096) (r c k i j : Nat) (hr : r < 64) (hc : c < 64) (hi : i < 64) (hj : j < 64) :
    ent (tileRows (flipBit acc r c k)) i j =
      if i = r ∧ j = c then (acc.getD (64 * r + c) 0 ^^^ BitVec.ofNat 40 (2 ^ k)).toInt else ent (tileRows acc) i j := by
  rw [tile_ent _ _ _ hi hj, tile_ent _ _ _ hi hj]
  unfold flipBit upd
  split
  · rename_i hh; obtain ⟨rfl, rfl⟩ := hh
    rw [getD_modify_eq _ _ _ _ (by simp; omega), getD_pad]
  · rename_i hh
    rw [getD_modify_ne _ _ _ _ _ (by omega), getD_pad]

theorem filter_one (r : Nat) (p : Nat → Bool) (hr : r < 64) (h : ∀ i, i < 64 → (p i = true ↔ i = r)) : (List.range 64).filter p = [r] := by
  have : (List.range 64).filter p = (List.range 64).filter (fun i => i == r) := by
    apply List.filter_congr
    intro i hi
    have := h i (List.mem_range.1 hi)
    by_cases hp : i = r
    · rw [this.2 hp, hp]; simp
    · rw [Bool.eq_false_iff.2 (fun h => hp (this.1 h))]; simp [hp]
  rw [this]
  clear this h
  interval_cases r <;> decide

theorem acc_le (b : Bank) (f : MmaF) (t : Nat) (steps : List (List (List Int) × List (List Int))) (hb : b.acc.length ≤ 4096)
    (h : ∀ x ∈ steps, StepSized x) : (chained b f t steps).acc.length ≤ 4096 := by
  unfold chained
  generalize hb0 : b.openChain f t = b0
  have hg : b0.acc.length ≤ 4096 := by
    rw [← hb0]; unfold Bank.openChain; simp only []; split
    · simp
    · exact hb
  clear hb0 hb
  induction steps generalizing b0 with
  | nil => exact hg
  | cons x l ih =>
    refine ih (fun y hy => h y (by simp [hy])) _ ?_
    rw [step_acc]
    have hx := (h x (by simp)).1
    have hl := exact_length b0.acc x.1 x.2 hx
    have hr : ∀ r ∈ exactOf b0.acc x.1 x.2, r.length = 64 := by
      intro r hr; obtain ⟨i, hi, rfl⟩ := mem_getD _ _ [] hr; exact exact_row_length _ _ _ hx i (by omega)
    have : ∀ M : List (List Int), (∀ r ∈ M, r.length = 64) → (M.flatMap fun r => r.map wrap40).length = 64 * M.length := by
      intro M hM
      induction M with
      | nil => rfl
      | cons r M ih2 =>
        rw [List.flatMap_cons, List.length_append, ih2 (fun r hr => hM r (by simp [hr])), List.length_map, hM r (by simp), List.length_cons]; ring
    rw [this _ hr, hl]

end Sys2Proof.Laws
end

