-- ==== Sys2Proof/Laws/Whole.lean ====
section
/-!
SUPPORT. What every command does, whatever it is: memories stay in canonical form, and the parts of the state that `Steady` lists do
not change but by the few commands named in `Instr.special`.
-/
namespace Sys2Proof.Laws
open Sys2Proof Sys2Proof.Machine

/-! ### The canonical form -/

/-- A next state, if the outcome is one, has its memories in canonical form. -/
def OkOut (o : Host.Outcome State Fault Refusal) : Prop := ∀ t, o = .next t → Ok t

theorem okOut_next {s : State} (h : Ok s) : OkOut (.next s) := fun t ht => by cases ht; exact h

theorem okOut_run {s : State} {f : State → State} (h : Ok s) (hf : ∀ s, Ok s → Ok (f s)) : OkOut (run s f) := by
  refine okOut_next ?_
  split
  · exact h
  · exact ok_settle _ (hf _ h)

theorem okOut_fault {f : Fault} : OkOut (.fault f) := fun _ ht => by cases ht

theorem okOut_ite {c : Prop} [Decidable c] {a b : Host.Outcome State Fault Refusal} (ha : OkOut a) (hb : OkOut b) :
    OkOut (if c then a else b) := by
  split <;> assumption

/-! ### What does not change -/

/-- `t` differs from `s` only outside these parts: the queue, the TAP, the safe state once entered, the DRAM size, configuration
space, the fuses (which may be blown), what the boot ROM read of them, the retained record and SRAM, and the reset block. -/
structure Steady (s t : State) : Prop where
  pending : t.pending = s.pending
  tap : t.tap = s.tap
  safe : s.glb.safe = true → t.glb.safe = true
  attached : t.drc.attached = s.drc.attached
  pci : pciOf t.pci = pciOf s.pci
  fuses : s.mgt.fuses.upTo t.mgt.fuses
  otp : t.mgt.otp = s.mgt.otp
  retained : t.mgt.retained = s.mgt.retained
  record : t.mgt.rec_ = s.mgt.rec_
  inReset : t.rst.inReset = s.rst.inReset
  levels : (t.rst.porOn, t.rst.noXtal, t.rst.pinLow) = (s.rst.porOn, s.rst.noXtal, s.rst.pinLow)
  minimal : t.rst.minimal = s.rst.minimal
  cause : t.rst.cause = s.rst.cause

theorem upTo_refl (a : Otp) : a.upTo a := ⟨rfl, rfl, rfl, fun _ h => h, Nat.le_refl _, fun _ => rfl, fun _ => rfl⟩

theorem upTo_trans {a b c : Otp} (h1 : a.upTo b) (h2 : b.upTo c) : a.upTo c := by
  obtain ⟨a1, a2, a3, a4, a5, a6, a7⟩ := h1
  obtain ⟨b1, b2, b3, b4, b5, b6, b7⟩ := h2
  refine ⟨b1.trans a1, b2.trans a2, b3.trans a3, fun i h => b4 i (a4 i h), Nat.le_trans a5 b5, fun h => ?_, fun h => ?_⟩
  · have := a6 h
    rw [b6 (this ▸ h), this]
  · have := a7 h
    rw [b7 (this ▸ h), this]

theorem steady_refl (s : State) : Steady s s :=
  ⟨rfl, rfl, fun h => h, rfl, rfl, upTo_refl _, rfl, rfl, rfl, rfl, rfl, rfl, rfl⟩

theorem steady_trans {a b c : State} (h1 : Steady a b) (h2 : Steady b c) : Steady a c :=
  ⟨h2.pending.trans h1.pending, h2.tap.trans h1.tap, fun h => h2.safe (h1.safe h), h2.attached.trans h1.attached,
   h2.pci.trans h1.pci, upTo_trans h1.fuses h2.fuses, h2.otp.trans h1.otp, h2.retained.trans h1.retained,
   h2.record.trans h1.record, h2.inReset.trans h1.inReset, h2.levels.trans h1.levels, h2.minimal.trans h1.minimal,
   h2.cause.trans h1.cause⟩

/-- An operation that keeps what `keptOf` holds is steady. -/
theorem steady_of_kept {s t : State} (h : keptOf t = keptOf s) : Steady s t := by
  simp only [keptOf, glbOf, drcOf, pciOf, mgtOf, rstOf, Kept.mk.injEq, Prod.mk.injEq] at h
  obtain ⟨h1, h2, ⟨-, -, -, h3⟩, h4, h5, ⟨⟨h6, h7⟩, -, h8, h9⟩, ⟨h10, h11, h12, h13, h14, h15, -⟩, -⟩ := h
  refine ⟨h1, h2, fun h => h3 ▸ h, h4, ?_, h6 ▸ upTo_refl _, h7, h8, h9, h10, ?_, h14, h15⟩
  · simpa [pciOf] using h5
  · rw [h11, h12, h13]

theorem steady_ite {s : State} {c : Prop} [Decidable c] {a b : State} (ha : Steady s a) (hb : Steady s b) :
    Steady s (if c then a else b) := by
  split <;> assumption

/-- What a command does last. -/
theorem steady_enterSafe (b src : Nat) (s : State) : Steady s (enterSafe b src s) := by
  unfold enterSafe
  have h1 : ∀ t d, Steady s t → Steady s { t with
      glb := { t.glb with safe := true, safeBlock := b, safeSource := src, safeDue := none }, dru := d } :=
    fun t d h => ⟨h.pending, h.tap, fun _ => rfl, h.attached, h.pci, h.fuses, h.otp, h.retained, h.record, h.inReset, h.levels,
      h.minimal, h.cause⟩
  dsimp only
  refine steady_trans (h1 _ _ (steady_of_kept ?_)) (steady_of_kept (kept_lifeWrite _))
  simp only [keptOf_ite, kept_postTick, kept_foldl, kept_postHeld, kept_sendSide, kept_lifeAdd, kept_holdEnded, kept_abandonIntake,
    kept_stopCores, kept_voidAt, implies_true, ite_self]

theorem steady_settleSafe (s : State) : Steady s (settleSafe s) := by
  unfold settleSafe
  split
  · exact steady_ite (steady_of_kept rfl) (steady_enterSafe _ _ _)
  · exact steady_refl _

theorem steady_settle (s : State) : Steady s (settle s) := by
  have h : ∀ s, Steady s (settleSafe (settleFences (settleTrace s))) := fun s =>
    steady_trans (steady_of_kept ((kept_settleFences _).trans (kept_settleTrace _))) (steady_settleSafe _)
  exact steady_trans (h s) (steady_trans (h _) (steady_of_kept rfl))

/-- A next state, if the outcome is one, is steady. -/
def KeptOut (s : State) (o : Host.Outcome State Fault Refusal) : Prop := ∀ t, o = .next t → Steady s t

theorem steadyOut_run {s : State} {f : State → State} (hf : ∀ s, Steady s (f s)) : KeptOut s (run s f) := fun t ht => by
  cases ht
  exact steady_ite (steady_refl _) (steady_trans (hf _) (steady_settle _))

theorem keptOut_run {s : State} {f : State → State} (hf : ∀ s, keptOf (f s) = keptOf s) : KeptOut s (run s f) :=
  steadyOut_run fun s => steady_of_kept (hf s)

theorem keptOut_fault {s : State} {f : Fault} : KeptOut s (.fault f) := fun _ ht => by cases ht

theorem keptOut_ite {s : State} {c : Prop} [Decidable c] {a b : Host.Outcome State Fault Refusal} (ha : KeptOut s a) (hb : KeptOut s b) :
    KeptOut s (if c then a else b) := by
  split <;> assumption

/-! ### Commands that change part of it -/

theorem steady_blow (f : Otp → Otp) (s : State) (h : s.mgt.fuses.upTo (f s.mgt.fuses)) : Steady s (blow f s) :=
  ⟨rfl, rfl, fun h => h, rfl, rfl, h, rfl, rfl, rfl, rfl, rfl, rfl, rfl⟩

theorem steady_blow_fst (f : Otp → Otp) (s : State) (r : Nat) (h : s.mgt.fuses.upTo (f s.mgt.fuses)) : Steady s (blow f s, r).1 :=
  steady_blow f s h

/-- A change of the management subsystem that leaves fuses, record and retained SRAM alone. -/
theorem steady_mgt (s : State) (m : Mgt) (h : (m.fuses, m.otp, m.retained, m.rec_) = (s.mgt.fuses, s.mgt.otp, s.mgt.retained, s.mgt.rec_)) :
    Steady s { s with mgt := m } := by
  simp only [Prod.mk.injEq] at h
  exact ⟨rfl, rfl, fun h => h, rfl, rfl, h.1 ▸ upTo_refl _, h.2.1, h.2.2.1, h.2.2.2, rfl, rfl, rfl, rfl⟩

theorem keep_touched (m : Mgt) (a : Nat) : let n := m.touched a
    (n.fuses, n.otp, n.retained, n.rec_) = (m.fuses, m.otp, m.retained, m.rec_) := by
  unfold Mgt.touched
  dsimp only
  split <;> rfl

theorem keep_program (m : Mgt) (a : Nat) (bs : List Byte) : let n := m.program a bs
    (n.fuses, n.otp, n.retained, n.rec_) = (m.fuses, m.otp, m.retained, m.rec_) := keep_touched _ _

theorem keep_erase (m : Mgt) (a : Nat) : let n := m.eraseSector a
    (n.fuses, n.otp, n.retained, n.rec_) = (m.fuses, m.otp, m.retained, m.rec_) := keep_touched _ _

theorem keep_writeDesc (p : Nat) (t : Bool) (m : Mgt) : let n := writeDesc p t m
    (n.fuses, n.otp, n.retained, n.rec_) = (m.fuses, m.otp, m.retained, m.rec_) :=
  (keep_program _ _ _).trans (keep_erase _ _)

theorem steady_fwWrite (s : State) : Steady s (fwWrite s).1 := by
  unfold fwWrite
  dsimp only
  split
  · split
    · exact steady_refl _
    · refine steady_mgt _ _ ?_
      refine (keep_program _ _ _).trans ?_
      split
      · exact keep_erase _ _
      · rfl
  · exact steady_refl _

theorem steady_fwActivate (s : State) : Steady s (fwActivate s).1 := by
  unfold fwActivate
  split
  · exact steady_refl _
  · split
    · exact steady_refl _
    · exact steady_mgt _ _ (keep_writeDesc _ _ _)

theorem steady_fwConfirm (s : State) : Steady s (fwConfirm s).1 := by
  unfold fwConfirm
  split
  · exact steady_refl _
  · split
    · exact steady_refl _
    · exact steady_mgt _ _ (keep_writeDesc _ _ _)

theorem steady_svnCommit (s : State) : Steady s (svnCommit s).1 := by
  unfold svnCommit
  split
  · exact steady_refl _
  · apply steady_blow_fst
    exact ⟨rfl, rfl, rfl, fun _ h => h, Nat.le_max_left _ _, fun _ => rfl, fun _ => rfl⟩

theorem getLsbD_putBit_true {w : Nat} (x : BitVec w) (i j : Nat) (h : x.getLsbD j = true) : (putBit x i true).getLsbD j = true := by
  have hj := BitVec.lt_of_getLsbD h
  have e : ∀ k, (2 ^ 1 - 1) <<< k = 2 ^ k := fun k => by simp [Nat.shiftLeft_eq]
  simp only [putBit, putBits, BitVec.getLsbD_or, BitVec.getLsbD_and, BitVec.getLsbD_not, BitVec.getLsbD_ofNat, h, hj, e]
  simp [Nat.shiftLeft_eq]

theorem upTo_lc (o : Otp) (i : Nat) : o.upTo { o with lc := putBit o.lc i true } := by
  refine ⟨rfl, rfl, rfl, fun j h => ?_, Nat.le_refl _, fun _ => rfl, fun _ => rfl⟩
  exact getLsbD_putBit_true _ _ _ h

theorem steady_lcAdvance (s : State) : Steady s (lcAdvance s).1 := by
  unfold lcAdvance
  dsimp only
  repeat' split
  all_goals first | exact steady_refl _ | (apply steady_blow_fst; exact upTo_lc _ _)

theorem steady_keyProgram (s : State) : Steady s (keyProgram s).1 := by
  unfold keyProgram
  dsimp only
  repeat' split
  all_goals first | exact steady_refl _ | skip
  · rename_i h
    apply steady_blow_fst
    exact ⟨rfl, rfl, rfl, fun _ h => h, Nat.le_refl _, fun hk => absurd hk h, fun _ => rfl⟩
  · rename_i h
    apply steady_blow_fst
    exact ⟨rfl, rfl, rfl, fun _ h => h, Nat.le_refl _, fun _ => rfl, fun hk => absurd hk h⟩

theorem steady_mbxPut (bs : List Byte) (s : State) : Steady s (mbxPut bs s) := steady_mgt _ _ rfl

theorem steady_mbxRead (size : Nat) (bytes : State → Nat → Nat → List Byte) (s : State) : Steady s (mbxRead size bytes s).1 := by
  unfold mbxRead
  dsimp only
  split
  · exact steady_mbxPut _ _
  · exact steady_refl _

theorem steady_groupMap (s : State) : Steady s (groupMap s).1 := by
  unfold groupMap
  split
  · exact steady_mbxPut _ _
  · exact steady_refl _

theorem steady_ptpStatus (s : State) : Steady s (ptpStatus s).1 := by
  unfold ptpStatus
  dsimp only
  exact steady_trans (steady_trans (steady_of_kept (kept_bumpFree s)) (steady_mbxPut _ _)) (steady_mgt _ _ rfl)

theorem steady_retainedRead (s : State) : Steady s (retainedRead s).1 := by
  unfold retainedRead
  dsimp only
  split
  · exact steady_mbxRead _ _ _
  · exact steady_trans (steady_trans (steady_mbxRead 0x10000 retainedBytes s) (steady_mgt _ _ rfl)) (steady_of_kept (kept_fireAll ..))

theorem steady_flashRead (s : State) : Steady s (flashRead s).1 := by
  unfold flashRead
  dsimp only
  split
  · exact steady_refl _
  · exact steady_mbxRead _ _ _

theorem steady_fwVerify (s : State) : Steady s (fwVerify s).1 := by
  unfold fwVerify
  split
  · exact steady_refl _
  · exact steady_mgt _ _ rfl

theorem steady_mbxBody (code : Nat) (s : State) : Steady s ((mbxBody code).2 s).1 := by
  unfold mbxBody
  split
  · exact steady_mbxPut _ _
  · exact steady_mbxPut _ _
  · apply steady_mbxRead
  · exact steady_retainedRead _
  · exact ⟨rfl, rfl, fun h => h, rfl, rfl, upTo_refl _, rfl, rfl, rfl, rfl, rfl, rfl, rfl⟩
  · exact steady_fwWrite _
  · exact steady_fwVerify _
  · exact steady_fwActivate _
  · exact steady_fwConfirm _
  · exact steady_svnCommit _
  · exact steady_lcAdvance _
  · exact steady_keyProgram _
  · exact steady_groupMap _
  · exact steady_ptpStatus _
  · exact steady_flashRead _
  · exact steady_refl _

theorem steady_mbxEnd (r : Nat) (s : State) : Steady s (mbxEnd r s) :=
  steady_trans (steady_mgt s { s.mgt with stTag := BitVec.ofNat 16 (fld s.mgt.cmd 31 16), result := r, done := true, busy := false } rfl)
    (steady_of_kept (kept_sendVec ..))

theorem steady_mbxFinish (offered : Bool) (body : State → State × Nat) (hb : ∀ s, Steady s (body s).1) (s : State) :
    Steady s (mbxFinish offered body s) := by
  unfold mbxFinish
  have h1 : Steady s (if s.rst.minimal && !offered then (s, rNotNow) else body s).1 := by
    split
    · exact steady_refl _
    · exact hb _
  generalize (if s.rst.minimal && !offered then (s, rNotNow) else body s) = q at h1 ⊢
  have h2 : ∀ t, Steady s t → Steady s (if q.2 = rFlash then fire { b := bMGT, src := 8 } t else t) := fun t h =>
    steady_ite (steady_trans h (steady_of_kept (kept_fire ..))) h
  exact steady_trans (h2 _ (steady_ite h1 (steady_refl _))) (steady_mbxEnd _ _)

theorem steady_mbxRun (mine : Nat → Bool) (code : Option Nat) (offered : Bool) (body : State → State × Nat)
    (hb : ∀ s, Steady s (body s).1) (s : State) : Steady s (mbxRun mine code offered body s) := by
  unfold mbxRun
  refine steady_ite (steady_ite (steady_mbxFinish _ _ hb _) (steady_mgt _ _ rfl)) (steady_ite (steady_refl _) ?_)
  refine steady_trans ?_ (steady_mbxFinish _ _ hb _)
  split
  · exact steady_mgt _ _ rfl
  · exact steady_refl _

theorem steady_mbxCommand (code : Nat) (s : State) : Steady s (mbxCommand code s) := steady_mbxRun _ _ _ _ (steady_mbxBody code) _

theorem steady_mbxUnknown (s : State) : Steady s (mbxUnknown s) := steady_mbxRun _ _ _ _ (fun _ => steady_refl _) _

theorem steady_ring (s : State) : Steady s (ring s) := by
  unfold ring
  exact steady_ite (steady_mgt _ _ rfl) (steady_mgt _ _ rfl)

/-! ### Register writes -/

theorem steady_writeGlb (r : Nat) (v : Word) (s : State) : Steady s (writeGlb r v s) := by
  have h : ∀ o (f : State → State), (∀ s, Steady s (f s)) → Steady s (unlessLive o f s) := by
    intro o f hf
    unfold unlessLive
    exact steady_ite (steady_of_kept (kept_liveWrite ..)) (hf _)
  unfold writeGlb
  split
  · exact ⟨rfl, rfl, fun h => h, rfl, rfl, upTo_refl _, rfl, rfl, rfl, rfl, rfl, rfl, rfl⟩
  · exact h _ _ fun s => ⟨rfl, rfl, fun h => h, rfl, rfl, upTo_refl _, rfl, rfl, rfl, rfl, rfl, rfl, rfl⟩
  · exact h _ _ fun s => ⟨rfl, rfl, fun h => h, rfl, rfl, upTo_refl _, rfl, rfl, rfl, rfl, rfl, rfl, rfl⟩
  · exact h _ _ fun s => ⟨rfl, rfl, fun h => h, rfl, rfl, upTo_refl _, rfl, rfl, rfl, rfl, rfl, rfl, rfl⟩
  · exact steady_of_kept (kept_patCtrlWrite ..)
  · exact steady_refl _

theorem steady_writeRst (r : Nat) (v : Word) (s : State) : Steady s (writeRst r v s) := by
  unfold writeRst
  split
  · exact steady_ite ⟨rfl, rfl, fun h => h, rfl, rfl, upTo_refl _, rfl, rfl, rfl, rfl, rfl, rfl, rfl⟩
      ⟨rfl, rfl, fun h => h, rfl, rfl, upTo_refl _, rfl, rfl, rfl, rfl, rfl, rfl, rfl⟩
  · exact ⟨rfl, rfl, fun h => h, rfl, rfl, upTo_refl _, rfl, rfl, rfl, rfl, rfl, rfl, rfl⟩
  · split
    · exact ⟨rfl, rfl, fun h => h, rfl, rfl, upTo_refl _, rfl, rfl, rfl, rfl, rfl, rfl, rfl⟩
    · exact steady_refl _

theorem steady_mbxWrite (f : Mgt → Mgt) (s : State)
    (hf : ∀ m, ((f m).fuses, (f m).otp, (f m).retained, (f m).rec_) = (m.fuses, m.otp, m.retained, m.rec_)) : Steady s (mbxWrite f s) := by
  refine steady_mgt _ _ ?_
  split
  · rfl
  · exact hf _

theorem steady_writeMgt (r : Nat) (v : Word) (s : State) : Steady s (writeMgt r v s) := by
  unfold writeMgt
  split
  · exact steady_mbxWrite _ _ fun _ => rfl
  · unfold doorbell
    exact steady_ite (steady_ring _) (steady_refl _)
  · exact steady_mgt _ _ rfl
  · split
    · exact steady_mbxWrite _ _ fun _ => rfl
    · exact steady_ite (steady_mbxWrite _ _ fun _ => rfl) (steady_refl _)

theorem steady_writeReg (o : Nat) (v : Word) (s : State) : Steady s (writeReg o v s) := by
  refine steady_trans (steady_of_kept (kept_freshReg o s)) ?_
  unfold writeReg
  generalize freshReg o s = s
  dsimp only
  split
  · exact steady_of_kept (kept_writeFlt ..)
  refine steady_ite (steady_of_kept (kept_writeMsix ..)) (steady_ite (steady_ite (steady_of_kept (kept_injWrite ..)) (steady_refl _))
    (steady_ite (steady_of_kept (kept_ringWriteReg ..)) (steady_ite (steady_of_kept (kept_subWriteReg ..)) ?_)))
  split
  · exact steady_writeGlb _ _ _
  · exact steady_of_kept (kept_writeTime ..)
  · exact steady_of_kept (kept_rwsWrite ..)
  · exact steady_of_kept (kept_writeDru ..)
  · exact steady_of_kept (kept_rwsWrite ..)
  · exact steady_ite (steady_of_kept (kept_flushWrite ..)) (steady_refl _)
  · exact steady_writeMgt _ _ _
  · exact steady_writeRst _ _ _
  · exact steady_of_kept (kept_writeObs ..)
  · exact steady_refl _

theorem steady_writeRegs (o : Nat) (l : List Word) (s : State) : Steady s (writeRegs o l s) := by
  induction l generalizing o s with
  | nil => exact steady_refl _
  | cons v l ih => exact steady_trans (steady_writeReg _ _ _) (ih _ _)

theorem steady_regWrite (mgt : Bool) (o : Nat) (vs : List Word) (full : Bool) (s : State) : Steady s (regWrite mgt o vs full s) := by
  unfold regWrite
  exact steady_ite (steady_ite (steady_writeRegs _ _ _) (steady_refl _)) (steady_ite (steady_refl _)
    (steady_ite (steady_of_kept (kept_postedUr _)) (steady_writeRegs _ _ _)))

/-! ### The start limit -/

theorem steady_late (s : State) (n : Nat) : Steady s { passNs s n with rst := { (passNs s n).rst with late := true } } := by
  have h := steady_of_kept (kept_passNs s n)
  generalize passNs s n = t at h ⊢
  exact ⟨h.pending, h.tap, h.safe, h.attached, h.pci, h.fuses, h.otp, h.retained, h.record, h.inReset, h.levels, h.minimal, h.cause⟩

theorem steady_startLimit (s : State) : Steady s (startLimit s) := by
  unfold startLimit
  dsimp only
  refine steady_ite (steady_refl _) ?_
  generalize s.rst.releaseAt + _ - _ = n
  exact steady_late s n

/-! ### Every command -/
theorem ok_execPpsInEdge (s : State) (h : Ok s) : OkOut (execPpsInEdge s) :=
  okOut_run h fun _ hs => ok_ppsEdge _ hs

theorem ok_execSyncInEdge (s : State) (h : Ok s) : OkOut (execSyncInEdge s) :=
  okOut_run h fun _ hs => ok_syncEdge _ hs

theorem ok_execHoldoverTimeout (s : State) (h : Ok s) : OkOut (execHoldoverTimeout s) :=
  okOut_run h fun _ hs => ok_holdover _ hs

theorem ok_execPpsOutPulse (s : State) (h : Ok s) : OkOut (execPpsOutPulse s) :=
  okOut_run h fun _ hs => ok_ppsOut _ hs

theorem ok_execSyncOutPulse (s : State) (h : Ok s) : OkOut (execSyncOutPulse s) :=
  okOut_run h fun _ hs => ok_syncOut _ hs

theorem ok_execDroopEvent (d : Fin 17) (s : State) (h : Ok s) : OkOut (execDroopEvent d s) :=
  okOut_run h fun _ hs => ok_droop _ _ hs

theorem ok_execTimeOffsetInWrite (e : Word) (s : State) (h : Ok s) : OkOut (execTimeOffsetInWrite e s) :=
  okOut_run h fun _ hs => ok_offsetIn _ _ hs

theorem ok_execTimeStepWrite (hi : Bool) (v : Word) (s : State) (h : Ok s) : OkOut (execTimeStepWrite hi v s) :=
  okOut_run h fun _ hs => ok_timeStep _ _ _ hs

theorem ok_execTimeCtrlWrite (v : Word) (s : State) (h : Ok s) : OkOut (execTimeCtrlWrite v s) :=
  okOut_run h fun _ hs => hs

theorem ok_execTimeTrimWrite (v : Word) (s : State) (h : Ok s) : OkOut (execTimeTrimWrite v s) :=
  okOut_run h fun _ hs => hs

theorem ok_execLoRegisterRead (mgt : Bool) (off : BitVec 26) (n : Nat) (full : Bool) (s : State) (h : Ok s) : OkOut (execLoRegisterRead mgt off n full s) :=
  okOut_run h fun _ hs => ok_regRead _ _ _ _ _ hs

theorem ok_execLifetimeCountUpdate (s : State) (h : Ok s) : OkOut (execLifetimeCountUpdate s) :=
  okOut_run h fun _ hs => ok_lifeUpdate _ hs

theorem ok_execLifetimeFlashWrite (s : State) (h : Ok s) : OkOut (execLifetimeFlashWrite s) :=
  okOut_run h fun _ hs => ok_lifeWrite _ hs

theorem ok_execDirectoryWalkEnd (s : State) (h : Ok s) : OkOut (execDirectoryWalkEnd s) :=
  okOut_run h fun _ hs => ok_endWalk _ hs

theorem ok_execTickStart (up : List Strike) (s : State) (h : Ok s) : OkOut (execTickStart up s) :=
  okOut_run h fun _ hs => ok_tickBoundary _ (ok_strikes _ _ hs)

theorem ok_execSwatchStart (c : CoreId) (s : State) (h : Ok s) : OkOut (execSwatchStart c s) :=
  okOut_run h fun _ hs => ok_swatchStart _ _ hs

theorem ok_execSwatchEnd (c : CoreId) (found : BitVec 11) (extra : Nat) (s : State) (h : Ok s) : OkOut (execSwatchEnd c found extra s) :=
  okOut_run h fun _ hs => ok_swatchEnd _ _ _ hs

theorem ok_execSwatchTimeout (c : CoreId) (s : State) (h : Ok s) : OkOut (execSwatchTimeout c s) :=
  okOut_run h fun _ hs => ok_swatchTimeout _ _ hs

theorem ok_execSettlePoint (p : Fin 4) (s : State) (h : Ok s) : OkOut (execSettlePoint p s) :=
  okOut_run h fun _ hs => ok_settlePoint _ _ hs

theorem ok_execRwsFieldWrite (off : BitVec 26) (v : Word) (s : State) (h : Ok s) : OkOut (execRwsFieldWrite off v s) :=
  okOut_run h fun _ hs => ok_rwsWrite _ _ _ hs

theorem ok_execRingCfgWrite (off : BitVec 26) (v : Word) (s : State) (h : Ok s) : OkOut (execRingCfgWrite off v s) :=
  okOut_run h fun _ hs => ok_ringWriteReg _ _ _ hs

theorem ok_execSubCfgWrite (off : BitVec 26) (v : Word) (s : State) (h : Ok s) : OkOut (execSubCfgWrite off v s) :=
  okOut_run h fun _ hs => ok_subWriteReg _ _ _ hs

theorem ok_execFltStatWrite (b : Fin 36) (hi : Bool) (v : Word) (s : State) (h : Ok s) : OkOut (execFltStatWrite b hi v s) :=
  okOut_run h fun _ hs => ok_statWrite _ _ _ _ hs

theorem ok_execFltForceWrite (b : Fin 36) (hi : Bool) (v : Word) (s : State) (h : Ok s) : OkOut (execFltForceWrite b hi v s) :=
  okOut_run h fun _ hs => ok_forceWrite _ _ _ _ hs

theorem ok_execFltSevWrite (b : Fin 36) (w : Fin 7) (v : Word) (s : State) (h : Ok s) : OkOut (execFltSevWrite b w v s) :=
  okOut_run h fun _ hs => ok_sevWrite _ _ _ _ hs

theorem ok_execSafetyInjArm (c : CoreId) (v : Word) (s : State) (h : Ok s) : OkOut (execSafetyInjArm c v s) :=
  okOut_run h fun _ hs => ok_injWrite _ _ _ hs

theorem ok_execVld (c : CoreId) (d : Bool) (f : VmemF) (s : State) (h : Ok s) : OkOut (execVld c d f s) :=
  okOut_run h fun _ hs => ok_issue _ _ _ _ _ _ hs fun _ _ h1 =>
    ok_vectorAct _ _ _ _ _ _ _ _ _ h1 fun _ h2 => ok_readRun _ _ _ _ _ h2

theorem ok_execVst (c : CoreId) (d : Bool) (f : VmemF) (s : State) (h : Ok s) : OkOut (execVst c d f s) :=
  okOut_run h fun _ hs => ok_vectorOp _ _ _ _ _ _ _ _ _ hs fun _ h1 => h1

theorem ok_execVtld (c : CoreId) (d : Bool) (k : BitVec 3) (poff : BitVec 13) (s : State) (h : Ok s) : OkOut (execVtld c d k poff s) :=
  okOut_run h fun _ hs => ok_vectorOp _ _ _ _ _ _ _ _ _ hs fun _ h1 => h1

theorem ok_execVpool (c : CoreId) (d : Bool) (vd : BitVec 5) (geom : BitVec 3) (base : BitVec 15) (pcnt bcnt : BitVec 3) (s : State) (h : Ok s) : OkOut (execVpool c d vd geom base pcnt bcnt s) :=
  okOut_run h fun _ hs => ok_issue _ _ _ _ _ _ hs fun e s h1 => by
    split
    · exact ok_skipAtIssue _ _ _ _ _ _ h1
    · exact ok_vectorAct _ _ _ _ _ _ _ _ _ h1 fun s h2 => ok_foldl _ _ _ h2 fun _ _ h3 => ok_readRun _ _ _ _ _ h3

theorem ok_execRq (c : CoreId) (d : Bool) (f : RqF) (s : State) (h : Ok s) : OkOut (execRq c d f s) :=
  okOut_run h fun _ hs => ok_issue _ _ _ _ _ _ hs fun e s h1 => by
    dsimp only
    split
    · exact ok_skipAtIssue _ _ _ _ _ _ h1
    · split
      · exact ok_skipAtIssue _ _ _ _ _ _ h1
      · exact ok_vectorAct _ _ _ _ _ _ _ _ _ h1 fun s h2 => ok_drainRead _ _ _ h2

theorem ok_execVmovacc (c : CoreId) (d : Bool) (f : MovAccF) (s : State) (h : Ok s) : OkOut (execVmovacc c d f s) :=
  okOut_run h fun _ hs => ok_issue _ _ _ _ _ _ hs fun e s h1 => by
    dsimp only
    split
    · exact ok_skipAtIssue _ _ _ _ _ _ h1
    · split
      · exact ok_skipAtIssue _ _ _ _ _ _ h1
      · exact ok_vectorAct _ _ _ _ _ _ _ _ _ h1 fun s h2 => ok_drainRead _ _ _ h2

theorem ok_execStageOpen (st : Fin 16) (s : State) (h : Ok s) : OkOut (execStageOpen st s) :=
  okOut_run h fun _ hs => ok_stageOpen _ _ hs

theorem ok_execStageClose (st : Fin 16) (s : State) (h : Ok s) : OkOut (execStageClose st s) :=
  okOut_run h fun _ hs => ok_stageClose _ _ hs

theorem ok_execSubmissionFetch (r : Fin 8) (s : State) (h : Ok s) : OkOut (execSubmissionFetch r s) :=
  okOut_run h fun _ hs => ok_submissionFetch _ _ hs

theorem ok_execTurnEnd (p : Fin 4) (s : State) (h : Ok s) : OkOut (execTurnEnd p s) :=
  okOut_run h fun _ hs => ok_turnEnd _ _ hs

theorem ok_execBeImageCopy (r : Fin 8) (s : State) (h : Ok s) : OkOut (execBeImageCopy r s) :=
  okOut_run h fun _ hs => ok_imageCopy _ _ hs

theorem ok_execCommandDispatch (c : CoreId) (s : State) (h : Ok s) : OkOut (execCommandDispatch c s) :=
  okOut_run h fun _ hs => ok_commandDispatch _ _ hs

theorem ok_execReplayDispatch (c : CoreId) (s : State) (h : Ok s) : OkOut (execReplayDispatch c s) :=
  okOut_run h fun _ hs => ok_replayDispatch _ _ hs

theorem ok_execGracePoint (p : Fin 4) (s : State) (h : Ok s) : OkOut (execGracePoint p s) :=
  okOut_run h fun _ hs => ok_gracePoint _ _ hs

theorem ok_execCutOff (p : Fin 4) (s : State) (h : Ok s) : OkOut (execCutOff p s) :=
  okOut_run h fun _ hs => ok_cutOff _ _ hs

theorem ok_execCommandComplete (c : CoreId) (s : State) (h : Ok s) : OkOut (execCommandComplete c s) :=
  okOut_run h fun _ hs => ok_commandComplete _ _ hs

theorem ok_execCmdOverrun (c : CoreId) (s : State) (h : Ok s) : OkOut (execCmdOverrun c s) :=
  okOut_run h fun _ hs => ok_cmdOverrun _ _ hs

theorem ok_execSyncStall (c : CoreId) (s : State) (h : Ok s) : OkOut (execSyncStall c s) :=
  okOut_run h fun _ hs => ok_syncStall _ _ hs

theorem ok_execCoreIdleGate (c : CoreId) (s : State) (h : Ok s) : OkOut (execCoreIdleGate c s) :=
  okOut_run h fun _ hs => ok_idleGate _ _ hs

theorem ok_execBar2Access (r : BarReq) (noc : Option NocErr) (s : State) (h : Ok s) : OkOut (execBar2Access r noc s) :=
  okOut_run h fun _ hs => ok_bar2 _ _ _ hs

theorem ok_execBar4Access (r : BarReq) (noc : Option NocErr) (s : State) (h : Ok s) : OkOut (execBar4Access r noc s) :=
  okOut_run h fun _ hs => ok_bar4 _ _ _ hs

theorem ok_execHotReset (s : State) (h : Ok s) : OkOut (execHotReset s) :=
  okOut_run h fun _ hs => by
    split <;> exact hs

theorem ok_execConfigurationWrite (bme d3hot msixEn msixMask : Bool) (cfg : CfgSpace) (aer : AerSet) (clearUr : Bool) (s : State) (h : Ok s) : OkOut (execConfigurationWrite bme d3hot msixEn msixMask cfg aer clearUr s) :=
  okOut_run h fun _ hs => ok_configure _ _ _ _ _ _ _ _ hs

theorem ok_execDataLinkDown (s : State) (h : Ok s) : OkOut (execDataLinkDown s) :=
  okOut_run h fun _ hs => ok_linkDown _ hs

theorem ok_execDataLinkUp (speed : BitVec 4) (width : BitVec 6) (s : State) (h : Ok s) : OkOut (execDataLinkUp speed width s) :=
  okOut_run h fun _ hs => ok_linkUp _ _ _ hs

theorem ok_execPciCompletionTimeout (ring : Fin 8) (readAt : Nat) (s : State) (h : Ok s) : OkOut (execPciCompletionTimeout ring readAt s) :=
  okOut_run h fun _ hs => ok_completionTimeout _ _ _ hs

theorem ok_execTlpReceive (k : TlpKind) (s : State) (h : Ok s) : OkOut (execTlpReceive k s) :=
  okOut_run h fun _ hs => ok_tlp _ _ hs

theorem ok_execRingVectorDeferralEnd (ring : Fin 10) (s : State) (h : Ok s) : OkOut (execRingVectorDeferralEnd ring s) :=
  okOut_run h fun _ hs => ok_vectorDue _ _ hs

theorem ok_execSampleComplete (stream : Fin 48) (s : State) (h : Ok s) : OkOut (execSampleComplete stream s) :=
  okOut_run h fun _ hs => ok_sampleComplete _ _ hs

theorem ok_execFrameStart (rx : Fin 8) (vc : Fin 4) (vcx : Bool) (hdr : HdrEcc) (frameNo : BitVec 16) (s : State) (h : Ok s) : OkOut (execFrameStart rx vc vcx hdr frameNo s) :=
  okOut_run h fun _ hs => ok_csiPacket _ _ _ _ _ _ _ hs fun _ _ h1 => ok_frameStart _ _ _ h1

theorem ok_execCsiLongPacket (rx : Fin 8) (vc : Fin 4) (vcx : Bool) (hdr : HdrEcc) (dt : BitVec 6) (payload : List Byte) (crcOk : Bool) (behind : Bool) (s : State) (h : Ok s) : OkOut (execCsiLongPacket rx vc vcx hdr dt payload crcOk behind s) :=
  okOut_run h fun _ hs => ok_csiPacket _ _ _ _ _ _ _ hs fun _ _ h1 => ok_csiLine _ _ _ _ _ _ h1

theorem ok_execFrameEnd (rx : Fin 8) (vc : Fin 4) (vcx : Bool) (hdr : HdrEcc) (s : State) (h : Ok s) : OkOut (execFrameEnd rx vc vcx hdr s) :=
  okOut_run h fun _ hs => ok_csiPacket _ _ _ _ _ _ _ hs fun _ _ h1 => ok_frameEnd _ _ h1

theorem ok_execEthernetFrameReceive (mac : Fin 4) (frame : List Byte) (fcsOk : Bool) (sfd : BitVec 32) (behind : Bool) (s : State) (h : Ok s) : OkOut (execEthernetFrameReceive mac frame fcsOk sfd behind s) :=
  okOut_run h fun _ hs => ok_ethernetFrame _ _ _ _ _ _ hs

theorem ok_execSweepClose (mac : Fin 4) (s : State) (h : Ok s) : OkOut (execSweepClose mac s) :=
  okOut_run h fun _ hs => ok_sweepClose _ _ hs

theorem ok_execSweepComplete (mac : Fin 4) (s : State) (h : Ok s) : OkOut (execSweepComplete mac s) :=
  okOut_run h fun _ hs => ok_sweepComplete _ _ hs

theorem ok_execMma (c : CoreId) (f : MmaF) (up : List Upset) (yd : Bool) (s : State) (h : Ok s) : OkOut (execMma c f up yd s) :=
  okOut_run h fun _ hs => ok_issue _ _ _ _ _ _ hs fun _ _ h1 => ok_mmaAct _ _ _ _ _ _ h1

theorem ok_execLd (c : CoreId) (f : LdF) (s : State) (h : Ok s) : OkOut (execLd c f s) :=
  okOut_run h fun _ hs => ok_issue _ _ _ _ _ _ hs fun _ _ h1 => ok_ldAct _ _ _ _ h1

theorem ok_execSt (c : CoreId) (f : LdF) (s : State) (h : Ok s) : OkOut (execSt c f s) :=
  okOut_run h fun _ hs => ok_issue _ _ _ _ _ _ hs fun _ _ h1 => ok_ldAct _ _ _ _ h1

theorem ok_execCgather (c : CoreId) (grec : BitVec 13) (geom : BitVec 3) (aob : BitVec 2) (pcnt : BitVec 3) (token : BitVec 4) (s : State) (h : Ok s) : OkOut (execCgather c grec geom aob pcnt token s) :=
  okOut_run h fun _ hs => ok_issue _ _ _ _ _ _ hs fun _ _ h1 => ok_cgatherAct _ _ _ _ h1

theorem ok_execWxload (c : CoreId) (vd : Bool) (grec : BitVec 13) (geom : BitVec 3) (pcnt : BitVec 3) (token : BitVec 4) (s : State) (h : Ok s) : OkOut (execWxload c vd grec geom pcnt token s) :=
  okOut_run h fun _ hs => ok_issue _ _ _ _ _ _ hs fun _ _ h1 => ok_wxloadAct _ _ _ _ _ h1

theorem ok_execLdacc (c : CoreId) (addr : BitVec 15) (amask : BitVec 4) (bank tgt otb : Bool) (token : BitVec 4) (s : State) (h : Ok s) : OkOut (execLdacc c addr amask bank tgt otb token s) :=
  okOut_run h fun _ hs => ok_issue _ _ _ _ _ _ hs fun _ _ h1 => ok_ldaccAct _ _ _ _ _ _ _ h1

theorem ok_execTransferComplete (c : CoreId) (store : Bool) (how : XferEnd) (s : State) (h : Ok s) : OkOut (execTransferComplete c store how s) :=
  okOut_run h fun _ hs => by
    split
    · exact ok_transferDone _ _ _ _ hs
    · exact ok_transferDone _ _ _ _ hs
    · exact ok_lateMsg _ _ _ _ hs

theorem ok_execDrcLatMiss (who : Option CoreId) (store : Bool) (delay : Word) (s : State) (h : Ok s) : OkOut (execDrcLatMiss who store delay s) :=
  okOut_run h fun _ hs => by
    split
    · exact ok_latMiss _ _ _ _ hs
    · exact ok_latMissPeer _ hs

theorem ok_execLoad (s : State) (h : Ok s) : OkOut (execLoad s) :=
  okOut_run h fun _ hs => ok_loadWrite _ hs

theorem ok_execPatternLoaded (s : State) (h : Ok s) : OkOut (execPatternLoaded s) :=
  okOut_run h fun _ hs => ok_patternLoaded _ hs

theorem ok_execPatternLaunch (s : State) (h : Ok s) : OkOut (execPatternLaunch s) :=
  okOut_run h fun s hs => by
    split
    · exact ok_launchNow _ hs
    · exact hs

theorem ok_execUnload (s : State) (h : Ok s) : OkOut (execUnload s) :=
  okOut_run h fun _ hs => ok_unloadWrite _ hs

theorem ok_execFlush (s : State) (h : Ok s) : OkOut (execFlush s) :=
  okOut_run h fun _ hs => ok_flushWrite _ hs

theorem ok_execLinkTrained (port : Fin 4) (inv : BitVec 8) (reversed : Bool) (s : State) (h : Ok s) : OkOut (execLinkTrained port inv reversed s) :=
  okOut_run h fun _ hs => ok_linkTrained _ _ _ _ hs

theorem ok_execTrainingTimeout (port : Fin 4) (s : State) (h : Ok s) : OkOut (execTrainingTimeout port s) :=
  okOut_run h fun _ hs => ok_trainingTimeout _ _ hs

theorem ok_execFarEndReset (port : Fin 4) (s : State) (h : Ok s) : OkOut (execFarEndReset port s) :=
  okOut_run h fun _ hs => ok_farEndReset _ _ hs

theorem ok_execFlitReplayTimeout (port : Fin 4) (s : State) (h : Ok s) : OkOut (execFlitReplayTimeout port s) :=
  okOut_run h fun _ hs => ok_flitTimeout _ _ hs

theorem ok_execRdReq (port : Fin 4) (hdr : BitVec 128) (s : State) (h : Ok s) : OkOut (execRdReq port hdr s) :=
  okOut_run h fun _ hs => ok_oneMessage _ _ _ _ _ hs

theorem ok_execWrReq (port : Fin 4) (hdr : BitVec 128) (data : List Byte) (s : State) (h : Ok s) : OkOut (execWrReq port hdr data s) :=
  okOut_ite (okOut_run h fun _ hs => ok_oneMessage _ _ _ _ _ hs) okOut_fault

theorem ok_execRdRsp (port : Fin 4) (hdr : BitVec 128) (data : List Byte) (s : State) (h : Ok s) : OkOut (execRdRsp port hdr data s) :=
  okOut_ite (okOut_run h fun _ hs => ok_oneMessage _ _ _ _ _ hs) okOut_fault

theorem ok_execWrAck (port : Fin 4) (hdr : BitVec 128) (s : State) (h : Ok s) : OkOut (execWrAck port hdr s) :=
  okOut_run h fun _ hs => ok_oneMessage _ _ _ _ _ hs

theorem ok_execDeny (port : Fin 4) (hdr : BitVec 128) (s : State) (h : Ok s) : OkOut (execDeny port hdr s) :=
  okOut_run h fun _ hs => ok_oneMessage _ _ _ _ _ hs

theorem ok_execFlitReceive (port : Fin 4) (flit : List Byte) (s : State) (h : Ok s) : OkOut (execFlitReceive port flit s) :=
  okOut_ite (okOut_run h fun _ hs => ok_flitIn _ _ _ hs) okOut_fault

theorem ok_execRemoteLatMiss (dev : Fin 8) (rid : BitVec 16) (s : State) (h : Ok s) : OkOut (execRemoteLatMiss dev rid s) :=
  okOut_run h fun _ hs => ok_latencyMiss _ _ _ hs

theorem ok_execRemoteRequestAbandon (dev : Fin 8) (rid : BitVec 16) (s : State) (h : Ok s) : OkOut (execRemoteRequestAbandon dev rid s) :=
  okOut_run h fun _ hs => ok_abandonReq _ _ _ hs

theorem ok_execSync (port : Fin 4) (ttx echoTx echoRx : Word) (half : Bool) (s : State) (h : Ok s) : OkOut (execSync port ttx echoTx echoRx half s) :=
  okOut_run h fun _ hs => ok_syncIn _ _ _ _ _ _ hs

theorem ok_execSyncSend (s : State) (h : Ok s) : OkOut (execSyncSend s) :=
  okOut_run h fun _ hs => ok_syncSend _ hs

theorem ok_execSkip (_port : Fin 4) (s : State) (h : Ok s) : OkOut (execSkip _port s) :=
  okOut_run h fun _ hs => hs

theorem ok_execIdent (port : Fin 4) (dev gm1 _farPort : Byte) (tag : Word) (s : State) (h : Ok s) : OkOut (execIdent port dev gm1 _farPort tag s) :=
  okOut_run h fun _ hs => ok_identIn _ _ _ _ _ hs

theorem ok_execIdentSend (s : State) (h : Ok s) : OkOut (execIdentSend s) :=
  okOut_run h fun s hs => by
    split
    · exact ok_sendIdents _ hs
    · exact hs

theorem ok_execGetInfo (s : State) (h : Ok s) : OkOut (execGetInfo s) :=
  okOut_run h fun _ hs => ok_mbxCommand _ _ hs

theorem ok_execSensors (s : State) (h : Ok s) : OkOut (execSensors s) :=
  okOut_run h fun _ hs => ok_mbxCommand _ _ hs

theorem ok_execLifetimeRead (s : State) (h : Ok s) : OkOut (execLifetimeRead s) :=
  okOut_run h fun _ hs => ok_mbxCommand _ _ hs

theorem ok_execRetainedRead (s : State) (h : Ok s) : OkOut (execRetainedRead s) :=
  okOut_run h fun _ hs => ok_mbxCommand _ _ hs

theorem ok_execAttemptsClear (s : State) (h : Ok s) : OkOut (execAttemptsClear s) :=
  okOut_run h fun _ hs => ok_mbxCommand _ _ hs

theorem ok_execFwWrite (s : State) (h : Ok s) : OkOut (execFwWrite s) :=
  okOut_run h fun _ hs => ok_mbxCommand _ _ hs

theorem ok_execFwVerify (s : State) (h : Ok s) : OkOut (execFwVerify s) :=
  okOut_run h fun _ hs => ok_mbxCommand _ _ hs

theorem ok_execFwActivate (s : State) (h : Ok s) : OkOut (execFwActivate s) :=
  okOut_run h fun _ hs => ok_mbxCommand _ _ hs

theorem ok_execFwConfirm (s : State) (h : Ok s) : OkOut (execFwConfirm s) :=
  okOut_run h fun _ hs => ok_mbxCommand _ _ hs

theorem ok_execSvnCommit (s : State) (h : Ok s) : OkOut (execSvnCommit s) :=
  okOut_run h fun _ hs => ok_mbxCommand _ _ hs

theorem ok_execLcAdvance (s : State) (h : Ok s) : OkOut (execLcAdvance s) :=
  okOut_run h fun _ hs => ok_mbxCommand _ _ hs

theorem ok_execKeyProgram (s : State) (h : Ok s) : OkOut (execKeyProgram s) :=
  okOut_run h fun _ hs => ok_mbxCommand _ _ hs

theorem ok_execGroupMap (s : State) (h : Ok s) : OkOut (execGroupMap s) :=
  okOut_run h fun _ hs => ok_mbxCommand _ _ hs

theorem ok_execPtpStatus (s : State) (h : Ok s) : OkOut (execPtpStatus s) :=
  okOut_run h fun _ hs => ok_mbxCommand _ _ hs

theorem ok_execFlashRead (s : State) (h : Ok s) : OkOut (execFlashRead s) :=
  okOut_run h fun _ hs => ok_mbxCommand _ _ hs

theorem ok_execMailboxUnknown (s : State) (h : Ok s) : OkOut (execMailboxUnknown s) :=
  okOut_run h fun _ hs => ok_mbxUnknown _ hs

theorem ok_execDruHbWrite (v : Word) (s : State) (h : Ok s) : OkOut (execDruHbWrite v s) :=
  okOut_run h fun _ hs => ok_hbWrite _ _ hs

theorem ok_execHeartbeatTimerExpiry (s : State) (h : Ok s) : OkOut (execHeartbeatTimerExpiry s) :=
  okOut_run h fun _ hs => ok_hbExpiry _ hs

theorem ok_execDruRestartWrite (v : Word) (s : State) (h : Ok s) : OkOut (execDruRestartWrite v s) :=
  okOut_run h fun _ hs => ok_restartWrite _ _ hs

theorem ok_execDomainRestartRequest (d : Fin 25) (s : State) (h : Ok s) : OkOut (execDomainRestartRequest d s) :=
  okOut_run h fun _ hs => ok_restartDomain _ _ hs

theorem ok_execDrainTimeout (d : Fin 25) (s : State) (h : Ok s) : OkOut (execDrainTimeout d s) :=
  okOut_run h fun _ hs => ok_drainTimeout _ _ hs

theorem ok_execRestartBoundExpiry (d : Fin 25) (s : State) (h : Ok s) : OkOut (execRestartBoundExpiry d s) :=
  okOut_run h fun _ hs => ok_restartFail _ _ hs

theorem ok_execTckEdge (rising tms tdi trstN : Bool) (s : State) (h : Ok s) : OkOut (execTckEdge rising tms tdi trstN s) :=
  okOut_next (ok_tckEdge _ _ _ _ _ h)

theorem ok_execResetNAssert (s : State) (h : Ok s) : OkOut (execResetNAssert s) :=
  okOut_next (ok_resetAssert _ h)

theorem ok_execResetNShortPulse (s : State) (h : Ok s) : OkOut (execResetNShortPulse s) :=
  okOut_run h fun _ hs => ok_shortPulse _ hs

theorem ok_execPowerOnDetectorAssert (s : State) (h : Ok s) : OkOut (execPowerOnDetectorAssert s) :=
  okOut_next (ok_detectorAssert _ h)

theorem ok_execResetNRelease (hold : Word) (group : StartIn) (s : State) (h : Ok s) : OkOut (execResetNRelease hold group s) :=
  okOut_next (ok_resetRelease _ _ _ h)

theorem ok_execPowerOnDetectorRelease (dram32 : Bool) (out : List (Fin 12)) (s : State) (h : Ok s) : OkOut (execPowerOnDetectorRelease dram32 out s) :=
  okOut_next (ok_detectorRelease _ _ _ h)

theorem ok_execXtalLoss (s : State) (h : Ok s) : OkOut (execXtalLoss s) :=
  okOut_next (ok_xtalLoss _ h)

theorem ok_execXtalReturn (group : StartIn) (s : State) (h : Ok s) : OkOut (execXtalReturn group s) :=
  okOut_next (ok_xtalReturn _ _ h)

theorem ok_execStartLimitExpiry (s : State) (h : Ok s) : OkOut (execStartLimitExpiry s) :=
  okOut_run h fun _ hs => ok_startLimit _ hs

theorem ok_execPinHoldRel (s : State) (h : Ok s) : OkOut (execPinHoldRel s) :=
  okOut_run h fun _ hs => ok_pinHoldRel _ hs

theorem ok_execScrubCycle (m : ScrubMem) (bank : Nat) (found : EccFind) (s : State) (h : Ok s) : OkOut (execScrubCycle m bank found s) :=
  okOut_run h fun _ hs => ok_scrubCycle _ _ _ _ hs

theorem ok_execDramPatrolScrub (ch : Fin 8) (found : EccFind) (s : State) (h : Ok s) : OkOut (execDramPatrolScrub ch found s) :=
  okOut_run h fun _ hs => ok_patrolScrub _ _ _ hs

theorem ok_execMgtSramScrub (word : Nat) (found : EccFind) (s : State) (h : Ok s) : OkOut (execMgtSramScrub word found s) :=
  okOut_ite (okOut_run h fun _ hs => ok_mgtScrub _ _ _ hs) okOut_fault

theorem ok_execCfgParitySweep (bad : Bool) (s : State) (h : Ok s) : OkOut (execCfgParitySweep bad s) :=
  okOut_run h fun _ hs => ok_paritySweep _ _ hs

theorem ok_execCfgReadback (upset : Option (BitVec 26)) (s : State) (h : Ok s) : OkOut (execCfgReadback upset s) :=
  okOut_run h fun _ hs => ok_cfgReadback _ _ hs

theorem ok_execVoltageMonitorTrip (m : Fin 12) (mv : BitVec 16) (s : State) (h : Ok s) : OkOut (execVoltageMonitorTrip m mv s) :=
  okOut_ite (okOut_next (ok_bootVoltage _ _ _ h)) (okOut_run h fun _ hs => ok_voltage _ _ _ hs)

theorem ok_execClockMonitorTrip (good : Bool) (s : State) (h : Ok s) : OkOut (execClockMonitorTrip good s) :=
  okOut_run h fun _ hs => by
    split
    · exact ok_causeEnds _ _ _ hs
    · exact ok_onset _ _ hs

theorem ok_execTemperatureSample (vals : List (BitVec 16)) (s : State) (h : Ok s) : OkOut (execTemperatureSample vals s) :=
  okOut_ite (okOut_run h fun _ hs => ok_temperature _ _ hs) okOut_fault

theorem ok_execPllUnlock (locked : Bool) (s : State) (h : Ok s) : OkOut (execPllUnlock locked s) :=
  okOut_run h fun _ hs => ok_pllLock _ _ hs

theorem ok_execSeqLockstepDiff (c : CoreId) (s : State) (h : Ok s) : OkOut (execSeqLockstepDiff c s) :=
  okOut_run h fun _ hs => ok_lockstep _ _ hs

theorem ok_execMgtLockstepDiff (s : State) (h : Ok s) : OkOut (execMgtLockstepDiff s) :=
  okOut_run h fun _ hs => ok_fire _ _ hs

theorem ok_execSideAck (port : Fin 4) (origin : Fin 8) (mseq : BitVec 16) (s : State) (h : Ok s) : OkOut (execSideAck port origin mseq s) :=
  okOut_run h fun _ hs => ok_sideAckIn _ _ _ _ hs

theorem ok_execSideResendTimeout (port : Fin 4) (s : State) (h : Ok s) : OkOut (execSideResendTimeout port s) :=
  okOut_run h fun _ hs => ok_sideTimeout _ _ hs

theorem ok_execDomainFence (port : Fin 4) (body : BitVec 128) (s : State) (h : Ok s) : OkOut (execDomainFence port body s) :=
  okOut_run h fun _ hs => ok_sideIn _ _ _ _ hs

theorem ok_execDomainUp (port : Fin 4) (body : BitVec 128) (s : State) (h : Ok s) : OkOut (execDomainUp port body s) :=
  okOut_run h fun _ hs => ok_sideIn _ _ _ _ hs

theorem ok_execPartVoid (port : Fin 4) (body : BitVec 128) (s : State) (h : Ok s) : OkOut (execPartVoid port body s) :=
  okOut_run h fun _ hs => ok_sideIn _ _ _ _ hs

theorem ok_execDeviceSafe (port : Fin 4) (body : BitVec 128) (s : State) (h : Ok s) : OkOut (execDeviceSafe port body s) :=
  okOut_run h fun _ hs => ok_sideIn _ _ _ _ hs

theorem ok_execDeviceReady (port : Fin 4) (body : BitVec 128) (s : State) (h : Ok s) : OkOut (execDeviceReady port body s) :=
  okOut_run h fun _ hs => ok_sideIn _ _ _ _ hs

theorem ok_execRegisterWrite (mgt : Bool) (off : BitVec 26) (vs : List Word) (full : Bool) (s : State) (h : Ok s) : OkOut (execRegisterWrite mgt off vs full s) :=
  okOut_run h fun _ hs => ok_regWrite _ _ _ _ _ hs

theorem ok_execSample (c : CoreId) (req : BitVec 3) (token : BitVec 4) (s : State) (h : Ok s) : OkOut (execSample c req token s) :=
  okOut_run h fun _ hs => ok_issue _ _ _ _ _ _ hs fun _ _ h1 => ok_sampleAct _ _ _ _ _ h1

theorem ok_execKgather (c : CoreId) (kdesc : BitVec 13) (token : BitVec 4) (s : State) (h : Ok s) : OkOut (execKgather c kdesc token s) :=
  okOut_run h fun _ hs => ok_issue _ _ _ _ _ _ hs fun _ _ h1 => ok_keyedAct _ _ _ _ _ _ h1

theorem ok_execKscatter (c : CoreId) (kdesc : BitVec 13) (token : BitVec 4) (s : State) (h : Ok s) : OkOut (execKscatter c kdesc token s) :=
  okOut_run h fun _ hs => ok_issue _ _ _ _ _ _ hs fun _ _ h1 => ok_keyedAct _ _ _ _ _ _ h1

theorem ok_execSampleRequestStart (u : Fin 4) (s : State) (h : Ok s) : OkOut (execSampleRequestStart u s) :=
  okOut_run h fun _ hs => ok_sampleStart _ _ hs

theorem ok_execSampleRequestDone (u : Fin 4) (diff : Option Nat) (s : State) (h : Ok s) : OkOut (execSampleRequestDone u diff s) :=
  okOut_run h fun _ hs => ok_sampleDone _ _ _ hs

theorem ok_execRsmpReservationPause (u : Fin 4) (s : State) (h : Ok s) : OkOut (execRsmpReservationPause u s) :=
  okOut_run h fun _ hs => ok_samplePause _ _ hs

theorem ok_execKeyedRequestStart (s : State) (h : Ok s) : OkOut (execKeyedRequestStart s) :=
  okOut_run h fun _ hs => ok_keyedStart _ hs

theorem ok_execKeyedRequestDone (s : State) (h : Ok s) : OkOut (execKeyedRequestDone s) :=
  okOut_run h fun _ hs => ok_keyedDone _ hs

theorem ok_execNop (c : CoreId) (s : State) (h : Ok s) : OkOut (execNop c s) :=
  okOut_run h fun _ hs => ok_scalarAlone _ _ _ hs

theorem ok_execCset (c : CoreId) (k : BitVec 3) (imm : BitVec 23) (s : State) (h : Ok s) : OkOut (execCset c k imm s) :=
  okOut_run h fun _ hs => ok_scalarAlone _ _ _ hs

theorem ok_execLoop (c : CoreId) (k : BitVec 3) (target : BitVec 13) (s : State) (h : Ok s) : OkOut (execLoop c k target s) :=
  okOut_run h fun _ hs => ok_scalarAlone _ _ _ hs

theorem ok_execCmpi (c : CoreId) (k : BitVec 3) (pf : BitVec 2) (cond : BitVec 3) (imm : BitVec 18) (s : State) (h : Ok s) : OkOut (execCmpi c k pf cond imm s) :=
  okOut_run h fun _ hs => ok_scalarAlone _ _ _ hs

theorem ok_execCmpc (c : CoreId) (ka : BitVec 3) (pf : BitVec 2) (cond : BitVec 3) (kb : BitVec 3) (s : State) (h : Ok s) : OkOut (execCmpc c ka pf cond kb s) :=
  okOut_run h fun _ hs => ok_scalarAlone _ _ _ hs

theorem ok_execBr (c : CoreId) (when_ : BitVec 2) (pf : BitVec 2) (target : BitVec 13) (s : State) (h : Ok s) : OkOut (execBr c when_ pf target s) :=
  okOut_run h fun _ hs => ok_scalarAlone _ _ _ hs

theorem ok_execBundleDispatch (c : CoreId) (up : List Strike) (s : State) (h : Ok s) : OkOut (execBundleDispatch c up s) :=
  okOut_run h fun _ hs => ok_dispatchBundle _ _ (ok_strikes _ _ hs)

theorem ok_execWait (c : CoreId) (token : BitVec 4) (n : BitVec 8) (gate : BitVec 4) (s : State) (h : Ok s) : OkOut (execWait c token n gate s) :=
  okOut_run h fun _ hs => ok_issue _ _ _ _ _ _ hs fun _ _ h1 => ok_waitAct _ _ _ _ _ h1

theorem ok_execSignal (c : CoreId) (token : BitVec 4) (after : BitVec 4) (s : State) (h : Ok s) : OkOut (execSignal c token after s) :=
  okOut_run h fun _ hs => ok_issue _ _ _ _ _ _ hs fun _ _ h1 => ok_syncOver _ _ _ (ok_signalToken _ _ _ _ _ h1)

theorem ok_execBarrier (c : CoreId) (mask : BitVec 4) (s : State) (h : Ok s) : OkOut (execBarrier c mask s) :=
  okOut_run h fun _ hs => ok_issue _ _ _ _ _ _ hs fun _ _ h1 => ok_syncOver _ _ _ h1

theorem ok_execSemAcq (c : CoreId) (sem : BitVec 8) (n : BitVec 8) (gate : BitVec 4) (s : State) (h : Ok s) : OkOut (execSemAcq c sem n gate s) :=
  okOut_run h fun _ hs => ok_semAcq _ _ _ _ _ hs

theorem ok_execSemGrant (sem : BitVec 8) (s : State) (h : Ok s) : OkOut (execSemGrant sem s) :=
  okOut_run h fun _ hs => ok_semGrantOne _ _ hs

theorem ok_execSemRel (c : CoreId) (sem : BitVec 8) (n : BitVec 8) (after : BitVec 4) (s : State) (h : Ok s) : OkOut (execSemRel c sem n after s) :=
  okOut_run h fun _ hs => ok_issue _ _ _ _ _ _ hs fun _ _ h1 => ok_semRelAct _ _ _ _ _ h1

theorem ok_execArrive (c : CoreId) (ctr : BitVec 8) (after : BitVec 4) (s : State) (h : Ok s) : OkOut (execArrive c ctr after s) :=
  okOut_run h fun _ hs => ok_issue _ _ _ _ _ _ hs fun _ _ h1 => ok_arriveAct _ _ _ _ h1

theorem ok_execAwait (c : CoreId) (ctr : BitVec 8) (n : BitVec 5) (gate : BitVec 4) (s : State) (h : Ok s) : OkOut (execAwait c ctr n gate s) :=
  okOut_run h fun _ hs => ok_issue _ _ _ _ _ _ hs fun _ _ h1 => ok_orFenced _ _ _ _ h1 fun _ h2 => ok_syncOver _ _ _ h2

theorem ok_execTileDescriptorFetch (s : State) (h : Ok s) : OkOut (execTileDescriptorFetch s) :=
  okOut_run h fun _ hs => ok_tileFetch _ hs

theorem ok_execTileDecodeDone (s : State) (h : Ok s) : OkOut (execTileDecodeDone s) :=
  okOut_run h fun _ hs => ok_tileDone _ hs

theorem ok_execDecodeBudgetExceeded (s : State) (h : Ok s) : OkOut (execDecodeBudgetExceeded s) :=
  okOut_run h fun _ hs => ok_budgetExceeded _ hs

theorem ok_execPriorInsertDone (s : State) (h : Ok s) : OkOut (execPriorInsertDone s) :=
  okOut_run h fun _ hs => ok_priorDone _ hs

theorem ok_execIntakeClose (s : State) (h : Ok s) : OkOut (execIntakeClose s) :=
  okOut_run h fun _ hs => ok_intakeClose _ hs

theorem ok_execVadd (c : CoreId) (d : Bool) (vd va vb : BitVec 5) (s : State) (h : Ok s) : OkOut (execVadd c d vd va vb s) :=
  okOut_run h fun _ hs => ok_laneOp _ _ _ _ _ _ _ _ hs

theorem ok_execVsub (c : CoreId) (d : Bool) (vd va vb : BitVec 5) (s : State) (h : Ok s) : OkOut (execVsub c d vd va vb s) :=
  okOut_run h fun _ hs => ok_laneOp _ _ _ _ _ _ _ _ hs

theorem ok_execVmul (c : CoreId) (d : Bool) (vd va vb : BitVec 5) (s : State) (h : Ok s) : OkOut (execVmul c d vd va vb s) :=
  okOut_run h fun _ hs => ok_laneOp _ _ _ _ _ _ _ _ hs

theorem ok_execVand (c : CoreId) (d : Bool) (vd va vb : BitVec 5) (s : State) (h : Ok s) : OkOut (execVand c d vd va vb s) :=
  okOut_run h fun _ hs => ok_laneOp _ _ _ _ _ _ _ _ hs

theorem ok_execVor (c : CoreId) (d : Bool) (vd va vb : BitVec 5) (s : State) (h : Ok s) : OkOut (execVor c d vd va vb s) :=
  okOut_run h fun _ hs => ok_laneOp _ _ _ _ _ _ _ _ hs

theorem ok_execVxor (c : CoreId) (d : Bool) (vd va vb : BitVec 5) (s : State) (h : Ok s) : OkOut (execVxor c d vd va vb s) :=
  okOut_run h fun _ hs => ok_laneOp _ _ _ _ _ _ _ _ hs

theorem ok_execVmin (c : CoreId) (d : Bool) (vd va vb : BitVec 5) (s : State) (h : Ok s) : OkOut (execVmin c d vd va vb s) :=
  okOut_run h fun _ hs => ok_laneOp _ _ _ _ _ _ _ _ hs

theorem ok_execVmax (c : CoreId) (d : Bool) (vd va vb : BitVec 5) (s : State) (h : Ok s) : OkOut (execVmax c d vd va vb s) :=
  okOut_run h fun _ hs => ok_laneOp _ _ _ _ _ _ _ _ hs

theorem ok_execVcmpeq (c : CoreId) (d : Bool) (vd va vb : BitVec 5) (s : State) (h : Ok s) : OkOut (execVcmpeq c d vd va vb s) :=
  okOut_run h fun _ hs => ok_laneOp _ _ _ _ _ _ _ _ hs

theorem ok_execVcmplt (c : CoreId) (d : Bool) (vd va vb : BitVec 5) (s : State) (h : Ok s) : OkOut (execVcmplt c d vd va vb s) :=
  okOut_run h fun _ hs => ok_laneOp _ _ _ _ _ _ _ _ hs

theorem ok_execVsel (c : CoreId) (d : Bool) (vd va vb vc : BitVec 5) (s : State) (h : Ok s) : OkOut (execVsel c d vd va vb vc s) :=
  okOut_run h fun _ hs => ok_laneOp _ _ _ _ _ _ _ _ hs

theorem ok_execVshl (c : CoreId) (d : Bool) (vd va vb : BitVec 5) (s : State) (h : Ok s) : OkOut (execVshl c d vd va vb s) :=
  okOut_run h fun _ hs => ok_laneOp _ _ _ _ _ _ _ _ hs

theorem ok_execVsra (c : CoreId) (d : Bool) (vd va vb : BitVec 5) (s : State) (h : Ok s) : OkOut (execVsra c d vd va vb s) :=
  okOut_run h fun _ hs => ok_laneOp _ _ _ _ _ _ _ _ hs

theorem ok_execVsrl (c : CoreId) (d : Bool) (vd va vb : BitVec 5) (s : State) (h : Ok s) : OkOut (execVsrl c d vd va vb s) :=
  okOut_run h fun _ hs => ok_laneOp _ _ _ _ _ _ _ _ hs

theorem ok_execVaddi (c : CoreId) (d : Bool) (vd va : BitVec 5) (imm : BitVec 16) (s : State) (h : Ok s) : OkOut (execVaddi c d vd va imm s) :=
  okOut_run h fun _ hs => ok_laneOp _ _ _ _ _ _ _ _ hs

theorem ok_execVshli (c : CoreId) (d : Bool) (vd va : BitVec 5) (imm : BitVec 16) (s : State) (h : Ok s) : OkOut (execVshli c d vd va imm s) :=
  okOut_run h fun _ hs => ok_laneOp _ _ _ _ _ _ _ _ hs

theorem ok_execVsrai (c : CoreId) (d : Bool) (vd va : BitVec 5) (imm : BitVec 16) (s : State) (h : Ok s) : OkOut (execVsrai c d vd va imm s) :=
  okOut_run h fun _ hs => ok_laneOp _ _ _ _ _ _ _ _ hs

theorem ok_execVrshri (c : CoreId) (d : Bool) (vd va : BitVec 5) (imm : BitVec 16) (s : State) (h : Ok s) : OkOut (execVrshri c d vd va imm s) :=
  okOut_run h fun _ hs => ok_laneOp _ _ _ _ _ _ _ _ hs

theorem ok_execVmovi (c : CoreId) (d : Bool) (vd : BitVec 5) (imm : BitVec 16) (s : State) (h : Ok s) : OkOut (execVmovi c d vd imm s) :=
  okOut_run h fun _ hs => ok_laneOp _ _ _ _ _ _ _ _ hs

theorem ok_execVmovhi (c : CoreId) (d : Bool) (vd va : BitVec 5) (imm : BitVec 16) (s : State) (h : Ok s) : OkOut (execVmovhi c d vd va imm s) :=
  okOut_run h fun _ hs => ok_laneOp _ _ _ _ _ _ _ _ hs

theorem ok_execVbcast (c : CoreId) (d : Bool) (vd va : BitVec 5) (imm : BitVec 16) (s : State) (h : Ok s) : OkOut (execVbcast c d vd va imm s) :=
  okOut_run h fun _ hs => ok_laneOp _ _ _ _ _ _ _ _ hs

theorem ok_execVmov (c : CoreId) (d : Bool) (vd va : BitVec 5) (s : State) (h : Ok s) : OkOut (execVmov c d vd va s) :=
  okOut_run h fun _ hs => ok_laneOp _ _ _ _ _ _ _ _ hs

theorem ok_execVredi (c : CoreId) (d : Bool) (vd va : BitVec 5) (s : State) (h : Ok s) : OkOut (execVredi c d vd va s) :=
  okOut_run h fun _ hs => ok_laneOp _ _ _ _ _ _ _ _ hs

theorem ok_execVredf (c : CoreId) (d : Bool) (vd va : BitVec 5) (s : State) (h : Ok s) : OkOut (execVredf c d vd va s) :=
  okOut_run h fun _ hs => ok_laneOp _ _ _ _ _ _ _ _ hs

theorem ok_execFadd (c : CoreId) (d : Bool) (vd va vb : BitVec 5) (s : State) (h : Ok s) : OkOut (execFadd c d vd va vb s) :=
  okOut_run h fun _ hs => ok_laneOp _ _ _ _ _ _ _ _ hs

theorem ok_execFsub (c : CoreId) (d : Bool) (vd va vb : BitVec 5) (s : State) (h : Ok s) : OkOut (execFsub c d vd va vb s) :=
  okOut_run h fun _ hs => ok_laneOp _ _ _ _ _ _ _ _ hs

theorem ok_execFmul (c : CoreId) (d : Bool) (vd va vb : BitVec 5) (s : State) (h : Ok s) : OkOut (execFmul c d vd va vb s) :=
  okOut_run h fun _ hs => ok_laneOp _ _ _ _ _ _ _ _ hs

theorem ok_execFma (c : CoreId) (d : Bool) (vd va vb vc : BitVec 5) (s : State) (h : Ok s) : OkOut (execFma c d vd va vb vc s) :=
  okOut_run h fun _ hs => ok_laneOp _ _ _ _ _ _ _ _ hs

theorem ok_execFmin (c : CoreId) (d : Bool) (vd va vb : BitVec 5) (s : State) (h : Ok s) : OkOut (execFmin c d vd va vb s) :=
  okOut_run h fun _ hs => ok_laneOp _ _ _ _ _ _ _ _ hs

theorem ok_execFmax (c : CoreId) (d : Bool) (vd va vb : BitVec 5) (s : State) (h : Ok s) : OkOut (execFmax c d vd va vb s) :=
  okOut_run h fun _ hs => ok_laneOp _ _ _ _ _ _ _ _ hs

theorem ok_execItof (c : CoreId) (d : Bool) (vd va : BitVec 5) (s : State) (h : Ok s) : OkOut (execItof c d vd va s) :=
  okOut_run h fun _ hs => ok_laneOp _ _ _ _ _ _ _ _ hs

theorem ok_execFtoi (c : CoreId) (d : Bool) (vd va : BitVec 5) (s : State) (h : Ok s) : OkOut (execFtoi c d vd va s) :=
  okOut_run h fun _ hs => ok_laneOp _ _ _ _ _ _ _ _ hs

theorem ok_execFcmplt (c : CoreId) (d : Bool) (vd va vb : BitVec 5) (s : State) (h : Ok s) : OkOut (execFcmplt c d vd va vb s) :=
  okOut_run h fun _ hs => ok_laneOp _ _ _ _ _ _ _ _ hs

theorem ok_execFcmpeq (c : CoreId) (d : Bool) (vd va vb : BitVec 5) (s : State) (h : Ok s) : OkOut (execFcmpeq c d vd va vb s) :=
  okOut_run h fun _ hs => ok_laneOp _ _ _ _ _ _ _ _ hs

theorem ok_execVtab (c : CoreId) (d : Bool) (vd va : BitVec 5) (table : BitVec 16) (s : State) (h : Ok s) : OkOut (execVtab c d vd va table s) :=
  okOut_run h fun _ hs => ok_vectorOp _ _ _ _ _ _ _ _ _ hs fun _ h1 => h1

theorem ok_execVexp2 (c : CoreId) (d : Bool) (vd va : BitVec 5) (s : State) (h : Ok s) : OkOut (execVexp2 c d vd va s) :=
  okOut_run h fun _ hs => ok_laneOp _ _ _ _ _ _ _ _ hs

theorem kept_execPpsInEdge (s : State) : KeptOut s (execPpsInEdge s) :=
  keptOut_run fun _ => kept_ppsEdge _

theorem kept_execSyncInEdge (s : State) : KeptOut s (execSyncInEdge s) :=
  keptOut_run fun _ => kept_syncEdge _

theorem kept_execHoldoverTimeout (s : State) : KeptOut s (execHoldoverTimeout s) :=
  keptOut_run fun _ => kept_holdover _

theorem kept_execPpsOutPulse (s : State) : KeptOut s (execPpsOutPulse s) :=
  keptOut_run fun _ => kept_ppsOut _

theorem kept_execSyncOutPulse (s : State) : KeptOut s (execSyncOutPulse s) :=
  keptOut_run fun _ => kept_syncOut _

theorem kept_execDroopEvent (d : Fin 17) (s : State) : KeptOut s (execDroopEvent d s) :=
  keptOut_run fun _ => kept_droop ..

theorem kept_execTimeOffsetInWrite (e : Word) (s : State) : KeptOut s (execTimeOffsetInWrite e s) :=
  keptOut_run fun _ => kept_offsetIn ..

theorem kept_execTimeStepWrite (hi : Bool) (v : Word) (s : State) : KeptOut s (execTimeStepWrite hi v s) :=
  keptOut_run fun _ => kept_timeStep ..

theorem kept_execTimeCtrlWrite (v : Word) (s : State) : KeptOut s (execTimeCtrlWrite v s) :=
  keptOut_run fun _ => rfl

theorem kept_execTimeTrimWrite (v : Word) (s : State) : KeptOut s (execTimeTrimWrite v s) :=
  keptOut_run fun _ => rfl

theorem kept_execLoRegisterRead (mgt : Bool) (off : BitVec 26) (n : Nat) (full : Bool) (s : State) : KeptOut s (execLoRegisterRead mgt off n full s) :=
  keptOut_run fun _ => kept_regRead ..

theorem kept_execLifetimeCountUpdate (s : State) : KeptOut s (execLifetimeCountUpdate s) :=
  keptOut_run fun _ => kept_lifeUpdate _

theorem kept_execLifetimeFlashWrite (s : State) : KeptOut s (execLifetimeFlashWrite s) :=
  keptOut_run fun _ => kept_lifeWrite _

theorem kept_execDirectoryWalkEnd (s : State) : KeptOut s (execDirectoryWalkEnd s) :=
  keptOut_run fun _ => kept_endWalk _

theorem kept_execTickStart (up : List Strike) (s : State) : KeptOut s (execTickStart up s) :=
  keptOut_run fun _ => (kept_tickBoundary _).trans (kept_strikes ..)

theorem kept_execSwatchStart (c : CoreId) (s : State) : KeptOut s (execSwatchStart c s) :=
  keptOut_run fun _ => kept_swatchStart ..

theorem kept_execSwatchEnd (c : CoreId) (found : BitVec 11) (extra : Nat) (s : State) : KeptOut s (execSwatchEnd c found extra s) :=
  keptOut_run fun _ => kept_swatchEnd ..

theorem kept_execSwatchTimeout (c : CoreId) (s : State) : KeptOut s (execSwatchTimeout c s) :=
  keptOut_run fun _ => kept_swatchTimeout ..

theorem kept_execSettlePoint (p : Fin 4) (s : State) : KeptOut s (execSettlePoint p s) :=
  keptOut_run fun _ => kept_settlePoint ..

theorem kept_execRwsFieldWrite (off : BitVec 26) (v : Word) (s : State) : KeptOut s (execRwsFieldWrite off v s) :=
  keptOut_run fun _ => kept_rwsWrite ..

theorem kept_execRingCfgWrite (off : BitVec 26) (v : Word) (s : State) : KeptOut s (execRingCfgWrite off v s) :=
  keptOut_run fun _ => kept_ringWriteReg ..

theorem kept_execSubCfgWrite (off : BitVec 26) (v : Word) (s : State) : KeptOut s (execSubCfgWrite off v s) :=
  keptOut_run fun _ => kept_subWriteReg ..

theorem kept_execFltStatWrite (b : Fin 36) (hi : Bool) (v : Word) (s : State) : KeptOut s (execFltStatWrite b hi v s) :=
  keptOut_run fun _ => kept_statWrite ..

theorem kept_execFltForceWrite (b : Fin 36) (hi : Bool) (v : Word) (s : State) : KeptOut s (execFltForceWrite b hi v s) :=
  keptOut_run fun _ => kept_forceWrite ..

theorem kept_execFltSevWrite (b : Fin 36) (w : Fin 7) (v : Word) (s : State) : KeptOut s (execFltSevWrite b w v s) :=
  keptOut_run fun _ => kept_sevWrite ..

theorem kept_execSafetyInjArm (c : CoreId) (v : Word) (s : State) : KeptOut s (execSafetyInjArm c v s) :=
  keptOut_run fun _ => kept_injWrite ..

theorem kept_execVld (c : CoreId) (d : Bool) (f : VmemF) (s : State) : KeptOut s (execVld c d f s) :=
  keptOut_run fun _ => kept_issue _ _ _ _ _
    (fun _ _ => kept_vectorAct _ _ _ _ _ _ _ (fun _ => kept_readRun ..) _ _) _

theorem kept_execVst (c : CoreId) (d : Bool) (f : VmemF) (s : State) : KeptOut s (execVst c d f s) :=
  keptOut_run fun _ => kept_vectorOp _ _ _ _ _ _ _ _ (fun _ => rfl) _

theorem kept_execVtld (c : CoreId) (d : Bool) (k : BitVec 3) (poff : BitVec 13) (s : State) : KeptOut s (execVtld c d k poff s) :=
  keptOut_run fun _ => kept_vectorOp _ _ _ _ _ _ _ _ (fun _ => rfl) _

theorem kept_execVpool (c : CoreId) (d : Bool) (vd : BitVec 5) (geom : BitVec 3) (base : BitVec 15) (pcnt bcnt : BitVec 3) (s : State) : KeptOut s (execVpool c d vd geom base pcnt bcnt s) :=
  keptOut_run fun _ => kept_issue _ _ _ _ _ (fun e s => by
    split
    · exact kept_skipAtIssue ..
    · exact kept_vectorAct _ _ _ _ _ _ _ (fun s => kept_foldl _ _ (fun _ _ => kept_readRun ..) s) _ _) _

theorem kept_execRq (c : CoreId) (d : Bool) (f : RqF) (s : State) : KeptOut s (execRq c d f s) :=
  keptOut_run fun _ => kept_issue _ _ _ _ _ (fun e s => by
    dsimp only
    split
    · exact kept_skipAtIssue ..
    · split
      · exact kept_skipAtIssue ..
      · exact kept_vectorAct _ _ _ _ _ _ _ (fun s => kept_drainRead ..) _ _) _

theorem kept_execVmovacc (c : CoreId) (d : Bool) (f : MovAccF) (s : State) : KeptOut s (execVmovacc c d f s) :=
  keptOut_run fun _ => kept_issue _ _ _ _ _ (fun e s => by
    dsimp only
    split
    · exact kept_skipAtIssue ..
    · split
      · exact kept_skipAtIssue ..
      · exact kept_vectorAct _ _ _ _ _ _ _ (fun s => kept_drainRead ..) _ _) _

theorem kept_execStageOpen (st : Fin 16) (s : State) : KeptOut s (execStageOpen st s) :=
  keptOut_run fun _ => kept_stageOpen ..

theorem kept_execStageClose (st : Fin 16) (s : State) : KeptOut s (execStageClose st s) :=
  keptOut_run fun _ => kept_stageClose ..

theorem kept_execSubmissionFetch (r : Fin 8) (s : State) : KeptOut s (execSubmissionFetch r s) :=
  keptOut_run fun _ => kept_submissionFetch ..

theorem kept_execTurnEnd (p : Fin 4) (s : State) : KeptOut s (execTurnEnd p s) :=
  keptOut_run fun _ => kept_turnEnd ..

theorem kept_execBeImageCopy (r : Fin 8) (s : State) : KeptOut s (execBeImageCopy r s) :=
  keptOut_run fun _ => kept_imageCopy ..

theorem kept_execCommandDispatch (c : CoreId) (s : State) : KeptOut s (execCommandDispatch c s) :=
  keptOut_run fun _ => kept_commandDispatch ..

theorem kept_execReplayDispatch (c : CoreId) (s : State) : KeptOut s (execReplayDispatch c s) :=
  keptOut_run fun _ => kept_replayDispatch ..

theorem kept_execGracePoint (p : Fin 4) (s : State) : KeptOut s (execGracePoint p s) :=
  keptOut_run fun _ => kept_gracePoint ..

theorem kept_execCutOff (p : Fin 4) (s : State) : KeptOut s (execCutOff p s) :=
  keptOut_run fun _ => kept_cutOff ..

theorem kept_execCommandComplete (c : CoreId) (s : State) : KeptOut s (execCommandComplete c s) :=
  keptOut_run fun _ => kept_commandComplete ..

theorem kept_execCmdOverrun (c : CoreId) (s : State) : KeptOut s (execCmdOverrun c s) :=
  keptOut_run fun _ => kept_cmdOverrun ..

theorem kept_execSyncStall (c : CoreId) (s : State) : KeptOut s (execSyncStall c s) :=
  keptOut_run fun _ => kept_syncStall ..

theorem kept_execCoreIdleGate (c : CoreId) (s : State) : KeptOut s (execCoreIdleGate c s) :=
  keptOut_run fun _ => kept_idleGate ..

theorem kept_execBar2Access (r : BarReq) (noc : Option NocErr) (s : State) : KeptOut s (execBar2Access r noc s) :=
  keptOut_run fun _ => kept_bar2 ..

theorem kept_execBar4Access (r : BarReq) (noc : Option NocErr) (s : State) : KeptOut s (execBar4Access r noc s) :=
  keptOut_run fun _ => kept_bar4 ..

theorem kept_execDataLinkDown (s : State) : KeptOut s (execDataLinkDown s) :=
  keptOut_run fun _ => kept_linkDown _

theorem kept_execDataLinkUp (speed : BitVec 4) (width : BitVec 6) (s : State) : KeptOut s (execDataLinkUp speed width s) :=
  keptOut_run fun _ => kept_linkUp ..

theorem kept_execPciCompletionTimeout (ring : Fin 8) (readAt : Nat) (s : State) : KeptOut s (execPciCompletionTimeout ring readAt s) :=
  keptOut_run fun _ => kept_completionTimeout ..

theorem kept_execTlpReceive (k : TlpKind) (s : State) : KeptOut s (execTlpReceive k s) :=
  keptOut_run fun _ => kept_tlp ..

theorem kept_execRingVectorDeferralEnd (ring : Fin 10) (s : State) : KeptOut s (execRingVectorDeferralEnd ring s) :=
  keptOut_run fun _ => kept_vectorDue ..

theorem kept_execSampleComplete (stream : Fin 48) (s : State) : KeptOut s (execSampleComplete stream s) :=
  keptOut_run fun _ => kept_sampleComplete ..

theorem kept_execFrameStart (rx : Fin 8) (vc : Fin 4) (vcx : Bool) (hdr : HdrEcc) (frameNo : BitVec 16) (s : State) : KeptOut s (execFrameStart rx vc vcx hdr frameNo s) :=
  keptOut_run fun _ => kept_csiPacket _ _ _ _ _ _ (fun _ _ => kept_frameStart ..) _

theorem kept_execCsiLongPacket (rx : Fin 8) (vc : Fin 4) (vcx : Bool) (hdr : HdrEcc) (dt : BitVec 6) (payload : List Byte) (crcOk : Bool) (behind : Bool) (s : State) : KeptOut s (execCsiLongPacket rx vc vcx hdr dt payload crcOk behind s) :=
  keptOut_run fun _ => kept_csiPacket _ _ _ _ _ _ (fun _ _ => kept_csiLine ..) _

theorem kept_execFrameEnd (rx : Fin 8) (vc : Fin 4) (vcx : Bool) (hdr : HdrEcc) (s : State) : KeptOut s (execFrameEnd rx vc vcx hdr s) :=
  keptOut_run fun _ => kept_csiPacket _ _ _ _ _ _ (fun _ _ => kept_frameEnd ..) _

theorem kept_execEthernetFrameReceive (mac : Fin 4) (frame : List Byte) (fcsOk : Bool) (sfd : BitVec 32) (behind : Bool) (s : State) : KeptOut s (execEthernetFrameReceive mac frame fcsOk sfd behind s) :=
  keptOut_run fun _ => kept_ethernetFrame ..

theorem kept_execSweepClose (mac : Fin 4) (s : State) : KeptOut s (execSweepClose mac s) :=
  keptOut_run fun _ => kept_sweepClose ..

theorem kept_execSweepComplete (mac : Fin 4) (s : State) : KeptOut s (execSweepComplete mac s) :=
  keptOut_run fun _ => kept_sweepComplete ..

theorem kept_execMma (c : CoreId) (f : MmaF) (up : List Upset) (yd : Bool) (s : State) : KeptOut s (execMma c f up yd s) :=
  keptOut_run fun _ => kept_issue _ _ _ _ _ (fun _ _ => kept_mmaAct ..) _

theorem kept_execLd (c : CoreId) (f : LdF) (s : State) : KeptOut s (execLd c f s) :=
  keptOut_run fun _ => kept_issue _ _ _ _ _ (fun _ _ => kept_ldAct ..) _

theorem kept_execSt (c : CoreId) (f : LdF) (s : State) : KeptOut s (execSt c f s) :=
  keptOut_run fun _ => kept_issue _ _ _ _ _ (fun _ _ => kept_ldAct ..) _

theorem kept_execCgather (c : CoreId) (grec : BitVec 13) (geom : BitVec 3) (aob : BitVec 2) (pcnt : BitVec 3) (token : BitVec 4) (s : State) : KeptOut s (execCgather c grec geom aob pcnt token s) :=
  keptOut_run fun _ => kept_issue _ _ _ _ _ (fun _ _ => kept_cgatherAct ..) _

theorem kept_execWxload (c : CoreId) (vd : Bool) (grec : BitVec 13) (geom : BitVec 3) (pcnt : BitVec 3) (token : BitVec 4) (s : State) : KeptOut s (execWxload c vd grec geom pcnt token s) :=
  keptOut_run fun _ => kept_issue _ _ _ _ _ (fun _ _ => kept_wxloadAct ..) _

theorem kept_execLdacc (c : CoreId) (addr : BitVec 15) (amask : BitVec 4) (bank tgt otb : Bool) (token : BitVec 4) (s : State) : KeptOut s (execLdacc c addr amask bank tgt otb token s) :=
  keptOut_run fun _ => kept_issue _ _ _ _ _ (fun _ _ => kept_ldaccAct ..) _

theorem kept_execTransferComplete (c : CoreId) (store : Bool) (how : XferEnd) (s : State) : KeptOut s (execTransferComplete c store how s) :=
  keptOut_run fun _ => by
    split
    · exact kept_transferDone ..
    · exact kept_transferDone ..
    · exact kept_lateMsg ..

theorem kept_execDrcLatMiss (who : Option CoreId) (store : Bool) (delay : Word) (s : State) : KeptOut s (execDrcLatMiss who store delay s) :=
  keptOut_run fun _ => by
    split
    · exact kept_latMiss ..
    · exact kept_latMissPeer ..

theorem kept_execLoad (s : State) : KeptOut s (execLoad s) :=
  keptOut_run fun _ => kept_loadWrite _

theorem kept_execPatternLoaded (s : State) : KeptOut s (execPatternLoaded s) :=
  keptOut_run fun _ => kept_patternLoaded _

theorem kept_execPatternLaunch (s : State) : KeptOut s (execPatternLaunch s) :=
  keptOut_run fun _ => by
    split
    · exact kept_launchNow _
    · rfl

theorem kept_execUnload (s : State) : KeptOut s (execUnload s) :=
  keptOut_run fun _ => kept_unloadWrite _

theorem kept_execFlush (s : State) : KeptOut s (execFlush s) :=
  keptOut_run fun _ => kept_flushWrite _

theorem kept_execLinkTrained (port : Fin 4) (inv : BitVec 8) (reversed : Bool) (s : State) : KeptOut s (execLinkTrained port inv reversed s) :=
  keptOut_run fun _ => kept_linkTrained ..

theorem kept_execTrainingTimeout (port : Fin 4) (s : State) : KeptOut s (execTrainingTimeout port s) :=
  keptOut_run fun _ => kept_trainingTimeout ..

theorem kept_execFarEndReset (port : Fin 4) (s : State) : KeptOut s (execFarEndReset port s) :=
  keptOut_run fun _ => kept_farEndReset ..

theorem kept_execFlitReplayTimeout (port : Fin 4) (s : State) : KeptOut s (execFlitReplayTimeout port s) :=
  keptOut_run fun _ => kept_flitTimeout ..

theorem kept_execRdReq (port : Fin 4) (hdr : BitVec 128) (s : State) : KeptOut s (execRdReq port hdr s) :=
  keptOut_run fun _ => kept_oneMessage ..

theorem kept_execWrReq (port : Fin 4) (hdr : BitVec 128) (data : List Byte) (s : State) : KeptOut s (execWrReq port hdr data s) :=
  keptOut_ite (keptOut_run fun _ => kept_oneMessage ..) keptOut_fault

theorem kept_execRdRsp (port : Fin 4) (hdr : BitVec 128) (data : List Byte) (s : State) : KeptOut s (execRdRsp port hdr data s) :=
  keptOut_ite (keptOut_run fun _ => kept_oneMessage ..) keptOut_fault

theorem kept_execWrAck (port : Fin 4) (hdr : BitVec 128) (s : State) : KeptOut s (execWrAck port hdr s) :=
  keptOut_run fun _ => kept_oneMessage ..

theorem kept_execDeny (port : Fin 4) (hdr : BitVec 128) (s : State) : KeptOut s (execDeny port hdr s) :=
  keptOut_run fun _ => kept_oneMessage ..

theorem kept_execFlitReceive (port : Fin 4) (flit : List Byte) (s : State) : KeptOut s (execFlitReceive port flit s) :=
  keptOut_ite (keptOut_run fun _ => kept_flitIn ..) keptOut_fault

theorem kept_execRemoteLatMiss (dev : Fin 8) (rid : BitVec 16) (s : State) : KeptOut s (execRemoteLatMiss dev rid s) :=
  keptOut_run fun _ => kept_latencyMiss ..

theorem kept_execRemoteRequestAbandon (dev : Fin 8) (rid : BitVec 16) (s : State) : KeptOut s (execRemoteRequestAbandon dev rid s) :=
  keptOut_run fun _ => kept_abandonReq ..

theorem kept_execSync (port : Fin 4) (ttx echoTx echoRx : Word) (half : Bool) (s : State) : KeptOut s (execSync port ttx echoTx echoRx half s) :=
  keptOut_run fun _ => kept_syncIn ..

theorem kept_execSyncSend (s : State) : KeptOut s (execSyncSend s) :=
  keptOut_run fun _ => kept_syncSend _

theorem kept_execSkip (_port : Fin 4) (s : State) : KeptOut s (execSkip _port s) :=
  keptOut_run fun _ => rfl

theorem kept_execIdent (port : Fin 4) (dev gm1 _farPort : Byte) (tag : Word) (s : State) : KeptOut s (execIdent port dev gm1 _farPort tag s) :=
  keptOut_run fun _ => kept_identIn ..

theorem kept_execIdentSend (s : State) : KeptOut s (execIdentSend s) :=
  keptOut_run fun _ => by
    split
    · exact kept_sendIdents _
    · rfl

theorem kept_execGetInfo (s : State) : KeptOut s (execGetInfo s) :=
  steadyOut_run fun _ => steady_mbxCommand _ _

theorem kept_execSensors (s : State) : KeptOut s (execSensors s) :=
  steadyOut_run fun _ => steady_mbxCommand _ _

theorem kept_execLifetimeRead (s : State) : KeptOut s (execLifetimeRead s) :=
  steadyOut_run fun _ => steady_mbxCommand _ _

theorem kept_execRetainedRead (s : State) : KeptOut s (execRetainedRead s) :=
  steadyOut_run fun _ => steady_mbxCommand _ _

theorem kept_execAttemptsClear (s : State) : KeptOut s (execAttemptsClear s) :=
  steadyOut_run fun _ => steady_mbxCommand _ _

theorem kept_execFwWrite (s : State) : KeptOut s (execFwWrite s) :=
  steadyOut_run fun _ => steady_mbxCommand _ _

theorem kept_execFwVerify (s : State) : KeptOut s (execFwVerify s) :=
  steadyOut_run fun _ => steady_mbxCommand _ _

theorem kept_execFwActivate (s : State) : KeptOut s (execFwActivate s) :=
  steadyOut_run fun _ => steady_mbxCommand _ _

theorem kept_execFwConfirm (s : State) : KeptOut s (execFwConfirm s) :=
  steadyOut_run fun _ => steady_mbxCommand _ _

theorem kept_execSvnCommit (s : State) : KeptOut s (execSvnCommit s) :=
  steadyOut_run fun _ => steady_mbxCommand _ _

theorem kept_execLcAdvance (s : State) : KeptOut s (execLcAdvance s) :=
  steadyOut_run fun _ => steady_mbxCommand _ _

theorem kept_execKeyProgram (s : State) : KeptOut s (execKeyProgram s) :=
  steadyOut_run fun _ => steady_mbxCommand _ _

theorem kept_execGroupMap (s : State) : KeptOut s (execGroupMap s) :=
  steadyOut_run fun _ => steady_mbxCommand _ _

theorem kept_execPtpStatus (s : State) : KeptOut s (execPtpStatus s) :=
  steadyOut_run fun _ => steady_mbxCommand _ _

theorem kept_execFlashRead (s : State) : KeptOut s (execFlashRead s) :=
  steadyOut_run fun _ => steady_mbxCommand _ _

theorem kept_execMailboxUnknown (s : State) : KeptOut s (execMailboxUnknown s) :=
  steadyOut_run fun _ => steady_mbxUnknown _

theorem kept_execDruHbWrite (v : Word) (s : State) : KeptOut s (execDruHbWrite v s) :=
  keptOut_run fun _ => kept_hbWrite ..

theorem kept_execHeartbeatTimerExpiry (s : State) : KeptOut s (execHeartbeatTimerExpiry s) :=
  keptOut_run fun _ => kept_hbExpiry _

theorem kept_execDruRestartWrite (v : Word) (s : State) : KeptOut s (execDruRestartWrite v s) :=
  keptOut_run fun _ => kept_restartWrite ..

theorem kept_execDomainRestartRequest (d : Fin 25) (s : State) : KeptOut s (execDomainRestartRequest d s) :=
  keptOut_run fun _ => kept_restartDomain ..

theorem kept_execDrainTimeout (d : Fin 25) (s : State) : KeptOut s (execDrainTimeout d s) :=
  keptOut_run fun _ => kept_drainTimeout ..

theorem kept_execRestartBoundExpiry (d : Fin 25) (s : State) : KeptOut s (execRestartBoundExpiry d s) :=
  keptOut_run fun _ => kept_restartFail ..

theorem kept_execResetNShortPulse (s : State) : KeptOut s (execResetNShortPulse s) :=
  keptOut_run fun _ => kept_shortPulse _

theorem kept_execStartLimitExpiry (s : State) : KeptOut s (execStartLimitExpiry s) :=
  steadyOut_run fun _ => steady_startLimit _

theorem kept_execPinHoldRel (s : State) : KeptOut s (execPinHoldRel s) :=
  keptOut_run fun _ => kept_pinHoldRel _

theorem kept_execScrubCycle (m : ScrubMem) (bank : Nat) (found : EccFind) (s : State) : KeptOut s (execScrubCycle m bank found s) :=
  keptOut_run fun _ => kept_scrubCycle ..

theorem kept_execDramPatrolScrub (ch : Fin 8) (found : EccFind) (s : State) : KeptOut s (execDramPatrolScrub ch found s) :=
  keptOut_run fun _ => kept_patrolScrub ..

theorem kept_execMgtSramScrub (word : Nat) (found : EccFind) (s : State) : KeptOut s (execMgtSramScrub word found s) :=
  keptOut_ite (keptOut_run fun _ => kept_mgtScrub ..) keptOut_fault

theorem kept_execCfgParitySweep (bad : Bool) (s : State) : KeptOut s (execCfgParitySweep bad s) :=
  keptOut_run fun _ => kept_paritySweep ..

theorem kept_execCfgReadback (upset : Option (BitVec 26)) (s : State) : KeptOut s (execCfgReadback upset s) :=
  keptOut_run fun _ => kept_cfgReadback ..

theorem kept_execClockMonitorTrip (good : Bool) (s : State) : KeptOut s (execClockMonitorTrip good s) :=
  keptOut_run fun _ => by
    split
    · exact kept_causeEnds ..
    · exact kept_onset ..

theorem kept_execTemperatureSample (vals : List (BitVec 16)) (s : State) : KeptOut s (execTemperatureSample vals s) :=
  keptOut_ite (keptOut_run fun _ => kept_temperature ..) keptOut_fault

theorem kept_execPllUnlock (locked : Bool) (s : State) : KeptOut s (execPllUnlock locked s) :=
  keptOut_run fun _ => kept_pllLock ..

theorem kept_execSeqLockstepDiff (c : CoreId) (s : State) : KeptOut s (execSeqLockstepDiff c s) :=
  keptOut_run fun _ => kept_lockstep ..

theorem kept_execMgtLockstepDiff (s : State) : KeptOut s (execMgtLockstepDiff s) :=
  keptOut_run fun _ => kept_fire ..

theorem kept_execSideAck (port : Fin 4) (origin : Fin 8) (mseq : BitVec 16) (s : State) : KeptOut s (execSideAck port origin mseq s) :=
  keptOut_run fun _ => kept_sideAckIn ..

theorem kept_execSideResendTimeout (port : Fin 4) (s : State) : KeptOut s (execSideResendTimeout port s) :=
  keptOut_run fun _ => kept_sideTimeout ..

theorem kept_execDomainFence (port : Fin 4) (body : BitVec 128) (s : State) : KeptOut s (execDomainFence port body s) :=
  keptOut_run fun _ => kept_sideIn ..

theorem kept_execDomainUp (port : Fin 4) (body : BitVec 128) (s : State) : KeptOut s (execDomainUp port body s) :=
  keptOut_run fun _ => kept_sideIn ..

theorem kept_execPartVoid (port : Fin 4) (body : BitVec 128) (s : State) : KeptOut s (execPartVoid port body s) :=
  keptOut_run fun _ => kept_sideIn ..

theorem kept_execDeviceSafe (port : Fin 4) (body : BitVec 128) (s : State) : KeptOut s (execDeviceSafe port body s) :=
  keptOut_run fun _ => kept_sideIn ..

theorem kept_execDeviceReady (port : Fin 4) (body : BitVec 128) (s : State) : KeptOut s (execDeviceReady port body s) :=
  keptOut_run fun _ => kept_sideIn ..

theorem kept_execRegisterWrite (mgt : Bool) (off : BitVec 26) (vs : List Word) (full : Bool) (s : State) : KeptOut s (execRegisterWrite mgt off vs full s) :=
  steadyOut_run fun _ => steady_regWrite _ _ _ _ _

theorem kept_execSample (c : CoreId) (req : BitVec 3) (token : BitVec 4) (s : State) : KeptOut s (execSample c req token s) :=
  keptOut_run fun _ => kept_issue _ _ _ _ _ (fun _ _ => kept_sampleAct ..) _

theorem kept_execKgather (c : CoreId) (kdesc : BitVec 13) (token : BitVec 4) (s : State) : KeptOut s (execKgather c kdesc token s) :=
  keptOut_run fun _ => kept_issue _ _ _ _ _ (fun _ _ => kept_keyedAct ..) _

theorem kept_execKscatter (c : CoreId) (kdesc : BitVec 13) (token : BitVec 4) (s : State) : KeptOut s (execKscatter c kdesc token s) :=
  keptOut_run fun _ => kept_issue _ _ _ _ _ (fun _ _ => kept_keyedAct ..) _

theorem kept_execSampleRequestStart (u : Fin 4) (s : State) : KeptOut s (execSampleRequestStart u s) :=
  keptOut_run fun _ => kept_sampleStart ..

theorem kept_execSampleRequestDone (u : Fin 4) (diff : Option Nat) (s : State) : KeptOut s (execSampleRequestDone u diff s) :=
  keptOut_run fun _ => kept_sampleDone ..

theorem kept_execRsmpReservationPause (u : Fin 4) (s : State) : KeptOut s (execRsmpReservationPause u s) :=
  keptOut_run fun _ => kept_samplePause ..

theorem kept_execKeyedRequestStart (s : State) : KeptOut s (execKeyedRequestStart s) :=
  keptOut_run fun _ => kept_keyedStart _

theorem kept_execKeyedRequestDone (s : State) : KeptOut s (execKeyedRequestDone s) :=
  keptOut_run fun _ => kept_keyedDone _

theorem kept_execNop (c : CoreId) (s : State) : KeptOut s (execNop c s) :=
  keptOut_run fun _ => kept_scalarAlone ..

theorem kept_execCset (c : CoreId) (k : BitVec 3) (imm : BitVec 23) (s : State) : KeptOut s (execCset c k imm s) :=
  keptOut_run fun _ => kept_scalarAlone ..

theorem kept_execLoop (c : CoreId) (k : BitVec 3) (target : BitVec 13) (s : State) : KeptOut s (execLoop c k target s) :=
  keptOut_run fun _ => kept_scalarAlone ..

theorem kept_execCmpi (c : CoreId) (k : BitVec 3) (pf : BitVec 2) (cond : BitVec 3) (imm : BitVec 18) (s : State) : KeptOut s (execCmpi c k pf cond imm s) :=
  keptOut_run fun _ => kept_scalarAlone ..

theorem kept_execCmpc (c : CoreId) (ka : BitVec 3) (pf : BitVec 2) (cond : BitVec 3) (kb : BitVec 3) (s : State) : KeptOut s (execCmpc c ka pf cond kb s) :=
  keptOut_run fun _ => kept_scalarAlone ..

theorem kept_execBr (c : CoreId) (when_ : BitVec 2) (pf : BitVec 2) (target : BitVec 13) (s : State) : KeptOut s (execBr c when_ pf target s) :=
  keptOut_run fun _ => kept_scalarAlone ..

theorem kept_execBundleDispatch (c : CoreId) (up : List Strike) (s : State) : KeptOut s (execBundleDispatch c up s) :=
  keptOut_run fun _ => (kept_dispatchBundle ..).trans (kept_strikes ..)

theorem kept_execWait (c : CoreId) (token : BitVec 4) (n : BitVec 8) (gate : BitVec 4) (s : State) : KeptOut s (execWait c token n gate s) :=
  keptOut_run fun _ => kept_issue _ _ _ _ _ (fun _ _ => kept_waitAct ..) _

theorem kept_execSignal (c : CoreId) (token : BitVec 4) (after : BitVec 4) (s : State) : KeptOut s (execSignal c token after s) :=
  keptOut_run fun _ => kept_issue _ _ _ _ _ (fun _ _ => (kept_syncOver ..).trans (kept_signalToken ..)) _

theorem kept_execBarrier (c : CoreId) (mask : BitVec 4) (s : State) : KeptOut s (execBarrier c mask s) :=
  keptOut_run fun _ => kept_issue _ _ _ _ _ (fun _ _ => kept_syncOver ..) _

theorem kept_execSemAcq (c : CoreId) (sem : BitVec 8) (n : BitVec 8) (gate : BitVec 4) (s : State) : KeptOut s (execSemAcq c sem n gate s) :=
  keptOut_run fun _ => kept_semAcq ..

theorem kept_execSemGrant (sem : BitVec 8) (s : State) : KeptOut s (execSemGrant sem s) :=
  keptOut_run fun _ => kept_semGrantOne ..

theorem kept_execSemRel (c : CoreId) (sem : BitVec 8) (n : BitVec 8) (after : BitVec 4) (s : State) : KeptOut s (execSemRel c sem n after s) :=
  keptOut_run fun _ => kept_issue _ _ _ _ _ (fun _ _ => kept_semRelAct ..) _

theorem kept_execArrive (c : CoreId) (ctr : BitVec 8) (after : BitVec 4) (s : State) : KeptOut s (execArrive c ctr after s) :=
  keptOut_run fun _ => kept_issue _ _ _ _ _ (fun _ _ => kept_arriveAct ..) _

theorem kept_execAwait (c : CoreId) (ctr : BitVec 8) (n : BitVec 5) (gate : BitVec 4) (s : State) : KeptOut s (execAwait c ctr n gate s) :=
  keptOut_run fun _ => kept_issue _ _ _ _ _ (fun _ _ => kept_orFenced _ _ _ (fun _ => kept_syncOver ..) _) _

theorem kept_execTileDescriptorFetch (s : State) : KeptOut s (execTileDescriptorFetch s) :=
  keptOut_run fun _ => kept_tileFetch _

theorem kept_execTileDecodeDone (s : State) : KeptOut s (execTileDecodeDone s) :=
  keptOut_run fun _ => kept_tileDone _

theorem kept_execDecodeBudgetExceeded (s : State) : KeptOut s (execDecodeBudgetExceeded s) :=
  keptOut_run fun _ => kept_budgetExceeded _

theorem kept_execPriorInsertDone (s : State) : KeptOut s (execPriorInsertDone s) :=
  keptOut_run fun _ => kept_priorDone _

theorem kept_execIntakeClose (s : State) : KeptOut s (execIntakeClose s) :=
  keptOut_run fun _ => kept_intakeClose _

theorem kept_execVadd (c : CoreId) (d : Bool) (vd va vb : BitVec 5) (s : State) : KeptOut s (execVadd c d vd va vb s) :=
  keptOut_run fun _ => kept_laneOp ..

theorem kept_execVsub (c : CoreId) (d : Bool) (vd va vb : BitVec 5) (s : State) : KeptOut s (execVsub c d vd va vb s) :=
  keptOut_run fun _ => kept_laneOp ..

theorem kept_execVmul (c : CoreId) (d : Bool) (vd va vb : BitVec 5) (s : State) : KeptOut s (execVmul c d vd va vb s) :=
  keptOut_run fun _ => kept_laneOp ..

theorem kept_execVand (c : CoreId) (d : Bool) (vd va vb : BitVec 5) (s : State) : KeptOut s (execVand c d vd va vb s) :=
  keptOut_run fun _ => kept_laneOp ..

theorem kept_execVor (c : CoreId) (d : Bool) (vd va vb : BitVec 5) (s : State) : KeptOut s (execVor c d vd va vb s) :=
  keptOut_run fun _ => kept_laneOp ..

theorem kept_execVxor (c : CoreId) (d : Bool) (vd va vb : BitVec 5) (s : State) : KeptOut s (execVxor c d vd va vb s) :=
  keptOut_run fun _ => kept_laneOp ..

theorem kept_execVmin (c : CoreId) (d : Bool) (vd va vb : BitVec 5) (s : State) : KeptOut s (execVmin c d vd va vb s) :=
  keptOut_run fun _ => kept_laneOp ..

theorem kept_execVmax (c : CoreId) (d : Bool) (vd va vb : BitVec 5) (s : State) : KeptOut s (execVmax c d vd va vb s) :=
  keptOut_run fun _ => kept_laneOp ..

theorem kept_execVcmpeq (c : CoreId) (d : Bool) (vd va vb : BitVec 5) (s : State) : KeptOut s (execVcmpeq c d vd va vb s) :=
  keptOut_run fun _ => kept_laneOp ..

theorem kept_execVcmplt (c : CoreId) (d : Bool) (vd va vb : BitVec 5) (s : State) : KeptOut s (execVcmplt c d vd va vb s) :=
  keptOut_run fun _ => kept_laneOp ..

theorem kept_execVsel (c : CoreId) (d : Bool) (vd va vb vc : BitVec 5) (s : State) : KeptOut s (execVsel c d vd va vb vc s) :=
  keptOut_run fun _ => kept_laneOp ..

theorem kept_execVshl (c : CoreId) (d : Bool) (vd va vb : BitVec 5) (s : State) : KeptOut s (execVshl c d vd va vb s) :=
  keptOut_run fun _ => kept_laneOp ..

theorem kept_execVsra (c : CoreId) (d : Bool) (vd va vb : BitVec 5) (s : State) : KeptOut s (execVsra c d vd va vb s) :=
  keptOut_run fun _ => kept_laneOp ..

theorem kept_execVsrl (c : CoreId) (d : Bool) (vd va vb : BitVec 5) (s : State) : KeptOut s (execVsrl c d vd va vb s) :=
  keptOut_run fun _ => kept_laneOp ..

theorem kept_execVaddi (c : CoreId) (d : Bool) (vd va : BitVec 5) (imm : BitVec 16) (s : State) : KeptOut s (execVaddi c d vd va imm s) :=
  keptOut_run fun _ => kept_laneOp ..

theorem kept_execVshli (c : CoreId) (d : Bool) (vd va : BitVec 5) (imm : BitVec 16) (s : State) : KeptOut s (execVshli c d vd va imm s) :=
  keptOut_run fun _ => kept_laneOp ..

theorem kept_execVsrai (c : CoreId) (d : Bool) (vd va : BitVec 5) (imm : BitVec 16) (s : State) : KeptOut s (execVsrai c d vd va imm s) :=
  keptOut_run fun _ => kept_laneOp ..

theorem kept_execVrshri (c : CoreId) (d : Bool) (vd va : BitVec 5) (imm : BitVec 16) (s : State) : KeptOut s (execVrshri c d vd va imm s) :=
  keptOut_run fun _ => kept_laneOp ..

theorem kept_execVmovi (c : CoreId) (d : Bool) (vd : BitVec 5) (imm : BitVec 16) (s : State) : KeptOut s (execVmovi c d vd imm s) :=
  keptOut_run fun _ => kept_laneOp ..

theorem kept_execVmovhi (c : CoreId) (d : Bool) (vd va : BitVec 5) (imm : BitVec 16) (s : State) : KeptOut s (execVmovhi c d vd va imm s) :=
  keptOut_run fun _ => kept_laneOp ..

theorem kept_execVbcast (c : CoreId) (d : Bool) (vd va : BitVec 5) (imm : BitVec 16) (s : State) : KeptOut s (execVbcast c d vd va imm s) :=
  keptOut_run fun _ => kept_laneOp ..

theorem kept_execVmov (c : CoreId) (d : Bool) (vd va : BitVec 5) (s : State) : KeptOut s (execVmov c d vd va s) :=
  keptOut_run fun _ => kept_laneOp ..

theorem kept_execVredi (c : CoreId) (d : Bool) (vd va : BitVec 5) (s : State) : KeptOut s (execVredi c d vd va s) :=
  keptOut_run fun _ => kept_laneOp ..

theorem kept_execVredf (c : CoreId) (d : Bool) (vd va : BitVec 5) (s : State) : KeptOut s (execVredf c d vd va s) :=
  keptOut_run fun _ => kept_laneOp ..

theorem kept_execFadd (c : CoreId) (d : Bool) (vd va vb : BitVec 5) (s : State) : KeptOut s (execFadd c d vd va vb s) :=
  keptOut_run fun _ => kept_laneOp ..

theorem kept_execFsub (c : CoreId) (d : Bool) (vd va vb : BitVec 5) (s : State) : KeptOut s (execFsub c d vd va vb s) :=
  keptOut_run fun _ => kept_laneOp ..

theorem kept_execFmul (c : CoreId) (d : Bool) (vd va vb : BitVec 5) (s : State) : KeptOut s (execFmul c d vd va vb s) :=
  keptOut_run fun _ => kept_laneOp ..

theorem kept_execFma (c : CoreId) (d : Bool) (vd va vb vc : BitVec 5) (s : State) : KeptOut s (execFma c d vd va vb vc s) :=
  keptOut_run fun _ => kept_laneOp ..

theorem kept_execFmin (c : CoreId) (d : Bool) (vd va vb : BitVec 5) (s : State) : KeptOut s (execFmin c d vd va vb s) :=
  keptOut_run fun _ => kept_laneOp ..

theorem kept_execFmax (c : CoreId) (d : Bool) (vd va vb : BitVec 5) (s : State) : KeptOut s (execFmax c d vd va vb s) :=
  keptOut_run fun _ => kept_laneOp ..

theorem kept_execItof (c : CoreId) (d : Bool) (vd va : BitVec 5) (s : State) : KeptOut s (execItof c d vd va s) :=
  keptOut_run fun _ => kept_laneOp ..

theorem kept_execFtoi (c : CoreId) (d : Bool) (vd va : BitVec 5) (s : State) : KeptOut s (execFtoi c d vd va s) :=
  keptOut_run fun _ => kept_laneOp ..

theorem kept_execFcmplt (c : CoreId) (d : Bool) (vd va vb : BitVec 5) (s : State) : KeptOut s (execFcmplt c d vd va vb s) :=
  keptOut_run fun _ => kept_laneOp ..

theorem kept_execFcmpeq (c : CoreId) (d : Bool) (vd va vb : BitVec 5) (s : State) : KeptOut s (execFcmpeq c d vd va vb s) :=
  keptOut_run fun _ => kept_laneOp ..

theorem kept_execVtab (c : CoreId) (d : Bool) (vd va : BitVec 5) (table : BitVec 16) (s : State) : KeptOut s (execVtab c d vd va table s) :=
  keptOut_run fun _ => kept_vectorOp _ _ _ _ _ _ _ _ (fun _ => rfl) _

theorem kept_execVexp2 (c : CoreId) (d : Bool) (vd va : BitVec 5) (s : State) : KeptOut s (execVexp2 c d vd va s) :=
  keptOut_run fun _ => kept_laneOp ..

/-- Every command keeps every memory in canonical form. -/
theorem ok_exec (i : Instr) (s : State) (h : Ok s) : OkOut (exec i s) := by
  cases i with
  | tickStart up => exact ok_execTickStart up s h
  | swatchStart c => exact ok_execSwatchStart c s h
  | swatchEnd c found extra => exact ok_execSwatchEnd c found extra s h
  | swatchTimeout c => exact ok_execSwatchTimeout c s h
  | stageOpen st => exact ok_execStageOpen st s h
  | stageClose st => exact ok_execStageClose st s h
  | intakeClose => exact ok_execIntakeClose s h
  | settlePoint p => exact ok_execSettlePoint p s h
  | submissionFetch r => exact ok_execSubmissionFetch r s h
  | turnEnd p => exact ok_execTurnEnd p s h
  | beImageCopy r => exact ok_execBeImageCopy r s h
  | commandDispatch c => exact ok_execCommandDispatch c s h
  | gracePoint p => exact ok_execGracePoint p s h
  | cutOff p => exact ok_execCutOff p s h
  | bundleDispatch c up => exact ok_execBundleDispatch c up s h
  | commandComplete c => exact ok_execCommandComplete c s h
  | cmdOverrun c => exact ok_execCmdOverrun c s h
  | syncStall c => exact ok_execSyncStall c s h
  | coreIdleGate c => exact ok_execCoreIdleGate c s h
  | nop c => exact ok_execNop c s h
  | cset c k imm => exact ok_execCset c k imm s h
  | loop c k target => exact ok_execLoop c k target s h
  | cmpi c k pf cond imm => exact ok_execCmpi c k pf cond imm s h
  | cmpc c ka pf cond kb => exact ok_execCmpc c ka pf cond kb s h
  | br c when_ pf target => exact ok_execBr c when_ pf target s h
  | vadd c d vd va vb => exact ok_execVadd c d vd va vb s h
  | vsub c d vd va vb => exact ok_execVsub c d vd va vb s h
  | vmul c d vd va vb => exact ok_execVmul c d vd va vb s h
  | vand c d vd va vb => exact ok_execVand c d vd va vb s h
  | vor c d vd va vb => exact ok_execVor c d vd va vb s h
  | vxor c d vd va vb => exact ok_execVxor c d vd va vb s h
  | vmin c d vd va vb => exact ok_execVmin c d vd va vb s h
  | vmax c d vd va vb => exact ok_execVmax c d vd va vb s h
  | vcmpeq c d vd va vb => exact ok_execVcmpeq c d vd va vb s h
  | vcmplt c d vd va vb => exact ok_execVcmplt c d vd va vb s h
  | vsel c d vd va vb vc => exact ok_execVsel c d vd va vb vc s h
  | vshl c d vd va vb => exact ok_execVshl c d vd va vb s h
  | vsra c d vd va vb => exact ok_execVsra c d vd va vb s h
  | vsrl c d vd va vb => exact ok_execVsrl c d vd va vb s h
  | vaddi c d vd va imm => exact ok_execVaddi c d vd va imm s h
  | vshli c d vd va imm => exact ok_execVshli c d vd va imm s h
  | vsrai c d vd va imm => exact ok_execVsrai c d vd va imm s h
  | vrshri c d vd va imm => exact ok_execVrshri c d vd va imm s h
  | vmovi c d vd imm => exact ok_execVmovi c d vd imm s h
  | vmovhi c d vd va imm => exact ok_execVmovhi c d vd va imm s h
  | vbcast c d vd va imm => exact ok_execVbcast c d vd va imm s h
  | vmov c d vd va => exact ok_execVmov c d vd va s h
  | vredi c d vd va => exact ok_execVredi c d vd va s h
  | vredf c d vd va => exact ok_execVredf c d vd va s h
  | fadd c d vd va vb => exact ok_execFadd c d vd va vb s h
  | fsub c d vd va vb => exact ok_execFsub c d vd va vb s h
  | fmul c d vd va vb => exact ok_execFmul c d vd va vb s h
  | fma c d vd va vb vc => exact ok_execFma c d vd va vb vc s h
  | fmin c d vd va vb => exact ok_execFmin c d vd va vb s h
  | fmax c d vd va vb => exact ok_execFmax c d vd va vb s h
  | itof c d vd va => exact ok_execItof c d vd va s h
  | ftoi c d vd va => exact ok_execFtoi c d vd va s h
  | fcmplt c d vd va vb => exact ok_execFcmplt c d vd va vb s h
  | fcmpeq c d vd va vb => exact ok_execFcmpeq c d vd va vb s h
  | vtab c d vd va table => exact ok_execVtab c d vd va table s h
  | vexp2 c d vd va => exact ok_execVexp2 c d vd va s h
  | vtld c d k poff => exact ok_execVtld c d k poff s h
  | vld c d f => exact ok_execVld c d f s h
  | vst c d f => exact ok_execVst c d f s h
  | vpool c d vd geom base pcnt bcnt => exact ok_execVpool c d vd geom base pcnt bcnt s h
  | rq c d f => exact ok_execRq c d f s h
  | vmovacc c d f => exact ok_execVmovacc c d f s h
  | mma c f up yd => exact ok_execMma c f up yd s h
  | replayDispatch c => exact ok_execReplayDispatch c s h
  | ld c f => exact ok_execLd c f s h
  | st c f => exact ok_execSt c f s h
  | cgather c grec geom aob pcnt token => exact ok_execCgather c grec geom aob pcnt token s h
  | wxload c vd grec geom pcnt token => exact ok_execWxload c vd grec geom pcnt token s h
  | ldacc c addr amask bank tgt otb token => exact ok_execLdacc c addr amask bank tgt otb token s h
  | sample c req token => exact ok_execSample c req token s h
  | kgather c kdesc token => exact ok_execKgather c kdesc token s h
  | kscatter c kdesc token => exact ok_execKscatter c kdesc token s h
  | transferComplete c store how => exact ok_execTransferComplete c store how s h
  | drcLatMiss who store delay => exact ok_execDrcLatMiss who store delay s h
  | wait c token n gate => exact ok_execWait c token n gate s h
  | signal c token after => exact ok_execSignal c token after s h
  | barrier c mask => exact ok_execBarrier c mask s h
  | semAcq c sem n gate => exact ok_execSemAcq c sem n gate s h
  | semGrant sem => exact ok_execSemGrant sem s h
  | semRel c sem n after => exact ok_execSemRel c sem n after s h
  | arrive c ctr after => exact ok_execArrive c ctr after s h
  | await c ctr n gate => exact ok_execAwait c ctr n gate s h
  | sampleRequestStart u => exact ok_execSampleRequestStart u s h
  | sampleRequestDone u diff => exact ok_execSampleRequestDone u diff s h
  | rsmpReservationPause u => exact ok_execRsmpReservationPause u s h
  | keyedRequestStart => exact ok_execKeyedRequestStart s h
  | keyedRequestDone => exact ok_execKeyedRequestDone s h
  | frameStart rx vc vcx hdr frameNo => exact ok_execFrameStart rx vc vcx hdr frameNo s h
  | frameEnd rx vc vcx hdr => exact ok_execFrameEnd rx vc vcx hdr s h
  | csiLongPacket rx vc vcx hdr dt payload crcOk behind => exact ok_execCsiLongPacket rx vc vcx hdr dt payload crcOk behind s h
  | ethernetFrameReceive mac frame fcsOk sfd behind => exact ok_execEthernetFrameReceive mac frame fcsOk sfd behind s h
  | sweepClose mac => exact ok_execSweepClose mac s h
  | sweepComplete mac => exact ok_execSweepComplete mac s h
  | tileDescriptorFetch => exact ok_execTileDescriptorFetch s h
  | tileDecodeDone => exact ok_execTileDecodeDone s h
  | decodeBudgetExceeded => exact ok_execDecodeBudgetExceeded s h
  | priorInsertDone => exact ok_execPriorInsertDone s h
  | sampleComplete stream => exact ok_execSampleComplete stream s h
  | droopEvent detector => exact ok_execDroopEvent detector s h
  | ppsInEdge => exact ok_execPpsInEdge s h
  | syncInEdge => exact ok_execSyncInEdge s h
  | holdoverTimeout => exact ok_execHoldoverTimeout s h
  | ppsOutPulse => exact ok_execPpsOutPulse s h
  | syncOutPulse => exact ok_execSyncOutPulse s h
  | timeOffsetInWrite e => exact ok_execTimeOffsetInWrite e s h
  | timeStepWrite hi v => exact ok_execTimeStepWrite hi v s h
  | timeCtrlWrite v => exact ok_execTimeCtrlWrite v s h
  | timeTrimWrite v => exact ok_execTimeTrimWrite v s h
  | load => exact ok_execLoad s h
  | patternLoaded => exact ok_execPatternLoaded s h
  | patternLaunch => exact ok_execPatternLaunch s h
  | unload => exact ok_execUnload s h
  | flush => exact ok_execFlush s h
  | rwsFieldWrite off v => exact ok_execRwsFieldWrite off v s h
  | ringCfgWrite off v => exact ok_execRingCfgWrite off v s h
  | subCfgWrite off v => exact ok_execSubCfgWrite off v s h
  | registerWrite mgt off vs full => exact ok_execRegisterWrite mgt off vs full s h
  | loRegisterRead mgt off n full => exact ok_execLoRegisterRead mgt off n full s h
  | fltStatWrite b hi v => exact ok_execFltStatWrite b hi v s h
  | fltForceWrite b hi v => exact ok_execFltForceWrite b hi v s h
  | fltSevWrite b w v => exact ok_execFltSevWrite b w v s h
  | safetyInjArm c v => exact ok_execSafetyInjArm c v s h
  | druHbWrite v => exact ok_execDruHbWrite v s h
  | heartbeatTimerExpiry => exact ok_execHeartbeatTimerExpiry s h
  | druRestartWrite v => exact ok_execDruRestartWrite v s h
  | domainRestartRequest d => exact ok_execDomainRestartRequest d s h
  | drainTimeout d => exact ok_execDrainTimeout d s h
  | restartBoundExpiry d => exact ok_execRestartBoundExpiry d s h
  | scrubCycle m bank found => exact ok_execScrubCycle m bank found s h
  | dramPatrolScrub ch found => exact ok_execDramPatrolScrub ch found s h
  | cfgParitySweep bad => exact ok_execCfgParitySweep bad s h
  | cfgReadback upset => exact ok_execCfgReadback upset s h
  | voltageMonitorTrip m mv => exact ok_execVoltageMonitorTrip m mv s h
  | clockMonitorTrip good => exact ok_execClockMonitorTrip good s h
  | temperatureSample vals => exact ok_execTemperatureSample vals s h
  | pllUnlock locked => exact ok_execPllUnlock locked s h
  | linkTrained port inv reversed => exact ok_execLinkTrained port inv reversed s h
  | trainingTimeout port => exact ok_execTrainingTimeout port s h
  | flitReceive port flit => exact ok_execFlitReceive port flit s h
  | flitReplayTimeout port => exact ok_execFlitReplayTimeout port s h
  | rdReq port hdr => exact ok_execRdReq port hdr s h
  | wrReq port hdr data => exact ok_execWrReq port hdr data s h
  | rdRsp port hdr data => exact ok_execRdRsp port hdr data s h
  | wrAck port hdr => exact ok_execWrAck port hdr s h
  | deny port hdr => exact ok_execDeny port hdr s h
  | remoteLatMiss dev rid => exact ok_execRemoteLatMiss dev rid s h
  | remoteRequestAbandon dev rid => exact ok_execRemoteRequestAbandon dev rid s h
  | sync port ttx echoTx echoRx half => exact ok_execSync port ttx echoTx echoRx half s h
  | syncSend => exact ok_execSyncSend s h
  | skip port => exact ok_execSkip port s h
  | ident port dev gm1 farPort tag => exact ok_execIdent port dev gm1 farPort tag s h
  | identSend => exact ok_execIdentSend s h
  | sideAck port origin mseq => exact ok_execSideAck port origin mseq s h
  | sideResendTimeout port => exact ok_execSideResendTimeout port s h
  | domainFence port body => exact ok_execDomainFence port body s h
  | domainUp port body => exact ok_execDomainUp port body s h
  | partVoid port body => exact ok_execPartVoid port body s h
  | deviceSafe port body => exact ok_execDeviceSafe port body s h
  | deviceReady port body => exact ok_execDeviceReady port body s h
  | bar2Access r noc => exact ok_execBar2Access r noc s h
  | bar4Access r noc => exact ok_execBar4Access r noc s h
  | hotReset => exact ok_execHotReset s h
  | dataLinkDown => exact ok_execDataLinkDown s h
  | dataLinkUp speed width => exact ok_execDataLinkUp speed width s h
  | pciCompletionTimeout ring readAt => exact ok_execPciCompletionTimeout ring readAt s h
  | tlpReceive k => exact ok_execTlpReceive k s h
  | ringVectorDeferralEnd ring => exact ok_execRingVectorDeferralEnd ring s h
  | getInfo => exact ok_execGetInfo s h
  | sensors => exact ok_execSensors s h
  | lifetimeRead => exact ok_execLifetimeRead s h
  | retainedRead => exact ok_execRetainedRead s h
  | attemptsClear => exact ok_execAttemptsClear s h
  | fwWrite => exact ok_execFwWrite s h
  | fwVerify => exact ok_execFwVerify s h
  | fwActivate => exact ok_execFwActivate s h
  | fwConfirm => exact ok_execFwConfirm s h
  | svnCommit => exact ok_execSvnCommit s h
  | lcAdvance => exact ok_execLcAdvance s h
  | keyProgram => exact ok_execKeyProgram s h
  | groupMap => exact ok_execGroupMap s h
  | ptpStatus => exact ok_execPtpStatus s h
  | flashRead => exact ok_execFlashRead s h
  | mailboxUnknown => exact ok_execMailboxUnknown s h
  | lifetimeCountUpdate => exact ok_execLifetimeCountUpdate s h
  | lifetimeFlashWrite => exact ok_execLifetimeFlashWrite s h
  | resetNAssert => exact ok_execResetNAssert s h
  | resetNShortPulse => exact ok_execResetNShortPulse s h
  | resetNRelease hold group => exact ok_execResetNRelease hold group s h
  | powerOnDetectorAssert => exact ok_execPowerOnDetectorAssert s h
  | powerOnDetectorRelease dram32 out => exact ok_execPowerOnDetectorRelease dram32 out s h
  | xtalLoss => exact ok_execXtalLoss s h
  | startLimitExpiry => exact ok_execStartLimitExpiry s h
  | pinHoldRel => exact ok_execPinHoldRel s h
  | directoryWalkEnd => exact ok_execDirectoryWalkEnd s h
  | xtalReturn group => exact ok_execXtalReturn group s h
  | seqLockstepDiff c => exact ok_execSeqLockstepDiff c s h
  | mgtLockstepDiff => exact ok_execMgtLockstepDiff s h
  | mgtSramScrub word found => exact ok_execMgtSramScrub word found s h
  | tckEdge rising tms tdi trstN => exact ok_execTckEdge rising tms tdi trstN s h
  | farEndReset port => exact ok_execFarEndReset port s h
  | configurationWrite bme d3hot msixEn msixMask cfg aer clearUr => exact ok_execConfigurationWrite bme d3hot msixEn msixMask cfg aer clearUr s h

/-! ### Resets, the TAP and configuration space -/

/-- The queue is the same, and fuses have only been blown. -/
def Held (s t : State) : Prop := t.pending = s.pending ∧ s.mgt.fuses.upTo t.mgt.fuses

theorem held_refl (s : State) : Held s s := ⟨rfl, upTo_refl _⟩

theorem held_trans {a b c : State} (h1 : Held a b) (h2 : Held b c) : Held a c := ⟨h2.1.trans h1.1, upTo_trans h1.2 h2.2⟩

theorem held_of_steady {s t : State} (h : Steady s t) : Held s t := ⟨h.pending, h.fuses⟩

theorem held_of_kept {s t : State} (h : keptOf t = keptOf s) : Held s t := held_of_steady (steady_of_kept h)

theorem held_ite {s : State} {c : Prop} [Decidable c] {a b : State} (ha : Held s a) (hb : Held s b) : Held s (if c then a else b) := by
  split <;> assumption

theorem held_eq {s t : State} (hp : t.pending = s.pending) (hf : t.mgt.fuses = s.mgt.fuses) : Held s t := ⟨hp, hf ▸ upTo_refl _⟩

theorem held_run {s t : State} {f : State → State} (hf : ∀ s, Held s (f s)) (h : run s f = .next t) : Held s t := by
  cases h
  exact held_ite (held_refl _) (held_trans (hf _) (held_of_steady (steady_settle _)))

theorem held_hotReset (s : State) : Held s (if hostReaches s then { s with pci := s.pci.hotReset } else s) :=
  held_ite (held_eq rfl rfl) (held_refl _)

theorem held_configure (b d e m : Bool) (cfg : CfgSpace) (aer : AerSet) (cl : Bool) (s : State) : Held s (configure b d e m cfg aer cl s) := by
  unfold configure
  dsimp only
  refine held_ite ?_ (held_refl _)
  have h : ∀ p : Pci, Held s (requestsFlow { s with pci := p }) := fun p =>
    held_trans (b := { s with pci := p }) (held_eq rfl rfl) (held_of_kept (kept_requestsFlow _))
  exact h _

theorem held_enterMinimal (s : State) : Held s (enterMinimal s) := by
  unfold enterMinimal
  exact held_trans (held_eq (t := { s with
    rst := { s.rst with minimal := true, phase := 6 }
    dru := { s.dru with doms := s.dru.doms.mapIdx fun d (k : Dom) => if 1 ≤ d ∧ d ≠ dPCI then { k with phase := 6 } else k } }) rfl rfl)
    (held_of_kept (kept_lifeAdd ..))

theorem held_resumeFrom (r : RetRec) (s : State) : Held s (resumeFrom r s) := by
  unfold resumeFrom
  dsimp only
  refine held_ite (held_trans (held_eq (t := { s with mgt := { s.mgt with rec_ := some { r with patState := 0xFF } } }) rfl rfl)
    (held_of_kept (kept_fire ..))) ?_
  have h : ∀ g : Glb, Held s (finishLoad { s with glb := g }) := fun g =>
    held_trans (b := { s with glb := g }) (held_eq rfl rfl) (held_of_kept (kept_finishLoad _))
  have h := h { s.glb with patState := 2, patternId := (stagedAt s s.glb.patAddr.toNat).id, pat := (stagedAt s s.glb.patAddr.toNat).allItems, imgAddr := (stagedAt s s.glb.patAddr.toNat).a }
  generalize finishLoad _ = t at h ⊢
  exact held_ite (held_trans h (held_eq rfl rfl)) h

theorem held_alignTo (l : List Word) (s : State) : Held s (alignTo l s).1 := by
  induction l generalizing s with
  | nil => exact held_refl _
  | cons e l ih =>
    unfold alignTo
    dsimp only
    have h := held_of_kept (kept_measure e.toInt s)
    split
    · exact h
    · exact held_trans h (ih _)

theorem held_alignGroup (group : StartIn) (s : State) : Held s (alignGroup group s).1 := by
  unfold alignGroup
  dsimp only
  split
  · exact held_refl _
  · rename_i p _
    have h : Held s (alignTo group.offsets { s with time := s.time.aligning p }).1 :=
      held_trans (b := { s with time := s.time.aligning p }) (held_eq rfl rfl) (held_alignTo _ _)
    split
    · exact held_trans h (held_eq rfl rfl)
    · exact h

theorem held_resume (group : StartIn) (r : RetRec) (s : State) : Held s (resume group r s) := by
  unfold resume
  have h := held_alignGroup group s
  generalize alignGroup group s = a at h ⊢
  dsimp only
  split
  · exact held_trans h (held_resumeFrom _ _)
  · exact held_trans h (held_eq rfl rfl)

theorem held_normalStart (group : StartIn) (s : State) : Held s (normalStart group s) := by
  have h1 : Held s (trainDram s) := by
    unfold trainDram
    exact held_ite (held_trans (held_eq rfl rfl) (held_of_kept (kept_bumpFree _))) (held_eq rfl rfl)
  have h2 : Held s (restoreTime (trainDram s)) := by
    refine held_trans h1 ?_
    unfold restoreTime
    split
    · exact held_refl _
    · exact held_ite (held_refl _) (held_trans (held_of_kept ((kept_timeStep ..).trans (kept_timeStep ..))) (held_eq rfl rfl))
  unfold normalStart
  dsimp only
  refine held_ite ?_ h1
  split
  · exact held_trans h2 (held_resume _ _ _)
  · exact h2

theorem fuses_bootSlot (s : State) (a : Nat) : (bootSlot s a).1.fuses = s.mgt.fuses := by
  have h1 : ∀ (c : Prop) [Decidable c] p, (if c then writeDesc p false s.mgt else s.mgt).fuses = s.mgt.fuses := by
    intro c _ p
    split
    · have := keep_writeDesc p false s.mgt
      simp only [Prod.mk.injEq] at this
      exact this.1
    · rfl
  unfold bootSlot
  generalize bootChoice s.mgt = q
  obtain ⟨p0, t0⟩ := q
  dsimp only
  generalize (if t0 && decide (2 ≤ a) then 1 - p0 else p0) = pref
  cases slotBoots s pref
  · cases slotBoots s (1 - pref) <;> exact h1 _ _
  · exact h1 _ _

theorem held_boot (group : StartIn) (s : State) : Held s (boot group s) := by
  unfold boot
  dsimp only
  have h1 : Held s (countAttempt (attempts s) { s with rst := { s.rst with attemptsAtStart := attempts s } }) :=
    held_trans (held_eq (t := { s with rst := { s.rst with attemptsAtStart := attempts s } }) rfl rfl)
      (by unfold countAttempt; exact held_ite (held_refl _) (held_eq rfl rfl))
  generalize countAttempt (attempts s) { s with rst := { s.rst with attemptsAtStart := attempts s } } = u at h1 ⊢
  have h0 : Held s (if u.mgt.flashBad then fire { b := bMGT, src := 8 } u else u) := held_ite (held_trans h1 (held_of_kept (kept_fire ..))) h1
  generalize (if u.mgt.flashBad then fire { b := bMGT, src := 8 } u else u) = v at h0 ⊢
  have h2 : Held s (if attempts s ≠ 0 then fire { b := bRST, src := 1 } (lifeAdd 488 4 1 v) else v) :=
    held_ite (held_trans h0 (held_of_kept ((kept_fire ..).trans (kept_lifeAdd ..)))) h0
  generalize (if attempts s ≠ 0 then fire { b := bRST, src := 1 } (lifeAdd 488 4 1 v) else v) = t at h2 ⊢
  refine held_ite (held_trans h2 (held_enterMinimal _)) ?_
  have hm := fuses_bootSlot t (attempts s)
  generalize bootSlot t (attempts s) = q at hm ⊢
  obtain ⟨m, o, b1, b2⟩ := q
  cases o with
  | some slot => exact held_trans h2 (held_trans (held_eq (t := { t with mgt := bootedMgt t m slot b1 b2 }) rfl hm) (held_normalStart _ _))
  | none => exact held_trans h2 (held_trans (held_eq (t := { t with mgt := m }) rfl hm) (held_enterMinimal _))

theorem fuses_lifeStart (m : Mgt) : (lifeStart m).fuses = m.fuses := by
  unfold lifeStart
  split
  · rfl
  · split <;> rfl

theorem held_outOfReset (s : State) : Held s (outOfReset s) := by
  unfold outOfReset
  dsimp only
  refine held_trans ?_ (held_of_kept (kept_lifeAdd ..))
  apply held_eq
  · rfl
  · exact fuses_lifeStart _

theorem held_release (group : StartIn) (s : State) : Held s (release group s) :=
  held_trans (held_outOfReset s) (held_trans (held_boot _ _) (held_of_steady (steady_settle _)))

theorem held_resetAssert (s : State) : Held s (resetAssert s) := by
  unfold resetAssert
  exact held_ite (held_eq rfl rfl) (held_eq rfl rfl)

theorem held_resetRelease (hold : Word) (group : StartIn) (s : State) : Held s (resetRelease hold group s) := by
  unfold resetRelease
  dsimp only
  refine held_ite (held_refl _) (held_ite (held_eq rfl rfl) (held_trans ?_ (held_release _ _)))
  exact held_ite (held_eq rfl rfl) (held_eq rfl rfl)

theorem held_detectorRelease (d : Bool) (out : List (Fin 12)) (s : State) : Held s (detectorRelease d out s) := by
  unfold detectorRelease
  dsimp only
  have h : ∀ r d, Held s (release {} { s with rst := r, drc := d }) := fun r d =>
    held_trans (b := { s with rst := r, drc := d }) (held_eq rfl rfl) (held_release _ _)
  refine held_ite (held_refl _) (held_ite (h _ _) (held_eq rfl rfl))

theorem held_bootVoltage (m : Nat) (mv : BitVec 16) (s : State) : Held s (bootVoltage m mv s) := by
  unfold bootVoltage
  dsimp only
  have h : ∀ v l, Held s { s with mgt := { s.mgt with vmon := v }, rst := { s.rst with monOut := l } } := fun v l => held_eq rfl rfl
  have h2 : ∀ v l f, Held s (settle (onset f (outOfReset { s with mgt := { s.mgt with vmon := v }, rst := { s.rst with monOut := l } }))) :=
    fun v l f => held_trans (h v l) (held_trans (held_outOfReset _) (held_trans (held_of_kept (kept_onset f _)) (held_of_steady (steady_settle _))))
  exact held_ite (held_refl _) (held_ite (held_ite (held_trans (h _ _) (held_release _ _)) (h _ _)) (held_ite (h2 _ _ _) (h _ s.rst.monOut)))

theorem held_xtalLoss (s : State) : Held s (xtalLoss s) := by
  unfold xtalLoss
  exact held_ite (held_eq rfl rfl) (held_eq rfl rfl)

theorem held_xtalReturn (group : StartIn) (s : State) : Held s (xtalReturn group s) := by
  unfold xtalReturn
  dsimp only
  have h : ∀ r, Held s (release group { s with rst := r }) := fun r =>
    held_trans (b := { s with rst := r }) (held_eq rfl rfl) (held_release _ _)
  refine held_ite (held_refl _) (held_ite (h _) (held_eq rfl rfl))

/-- An edge at the TAP changes the TAP alone, and the number of the next free value (19, R458). -/
theorem tckEdge_eq (rising tms tdi trstN : Bool) (s : State) :
    ∃ tap n, tckEdge rising tms tdi trstN s = { s with tap := tap, freeSeq := n } := by
  have hid : ∃ tap n, s = { s with tap := tap, freeSeq := n } := ⟨s.tap, s.freeSeq, rfl⟩
  unfold tckEdge
  split
  · exact hid
  split
  · exact ⟨_, s.freeSeq, rfl⟩
  split
  · unfold tapRise
    dsimp only
    split
    · exact ⟨_, s.freeSeq + 1, rfl⟩
    · exact ⟨_, s.freeSeq, rfl⟩
    · exact ⟨_, s.freeSeq, rfl⟩
    · exact ⟨_, s.freeSeq, rfl⟩
    · exact ⟨_, s.freeSeq, rfl⟩
  · unfold tapFall
    split
    · exact ⟨_, s.freeSeq, rfl⟩
    · exact ⟨_, s.freeSeq, rfl⟩
    · unfold updateDr
      split
      · exact ⟨_, s.freeSeq, rfl⟩
      · exact ⟨_, s.freeSeq, rfl⟩
      · exact ⟨_, s.freeSeq, rfl⟩
    · exact ⟨_, s.freeSeq, rfl⟩
    · exact ⟨_, s.freeSeq, rfl⟩
    · exact ⟨_, s.freeSeq, rfl⟩

/-! ### All commands -/

/-- The commands that may change what `Steady` names: resets, a reading of a voltage monitor for which the start waits, edges at the TAP,
and configuration space. -/
def special (i : Instr) (s : State) : Bool :=
  match i with
  | .hotReset => true
  | .configurationWrite _ _ _ _ _ _ _ => true
  | .resetNAssert => true
  | .powerOnDetectorAssert => true
  | .resetNRelease _ _ => true
  | .powerOnDetectorRelease _ _ => true
  | .xtalLoss => true
  | .xtalReturn _ => true
  | .tckEdge _ _ _ _ => true
  | .voltageMonitorTrip _ _ => s.rst.inReset
  | _ => false

/-- Every other command is steady. -/
theorem steady_exec (i : Instr) (s : State) (hs : special i s = false) : KeptOut s (exec i s) := by
  cases i with
  | tickStart up => exact kept_execTickStart up s
  | swatchStart c => exact kept_execSwatchStart c s
  | swatchEnd c found extra => exact kept_execSwatchEnd c found extra s
  | swatchTimeout c => exact kept_execSwatchTimeout c s
  | stageOpen st => exact kept_execStageOpen st s
  | stageClose st => exact kept_execStageClose st s
  | intakeClose => exact kept_execIntakeClose s
  | settlePoint p => exact kept_execSettlePoint p s
  | submissionFetch r => exact kept_execSubmissionFetch r s
  | turnEnd p => exact kept_execTurnEnd p s
  | beImageCopy r => exact kept_execBeImageCopy r s
  | commandDispatch c => exact kept_execCommandDispatch c s
  | gracePoint p => exact kept_execGracePoint p s
  | cutOff p => exact kept_execCutOff p s
  | bundleDispatch c up => exact kept_execBundleDispatch c up s
  | commandComplete c => exact kept_execCommandComplete c s
  | cmdOverrun c => exact kept_execCmdOverrun c s
  | syncStall c => exact kept_execSyncStall c s
  | coreIdleGate c => exact kept_execCoreIdleGate c s
  | nop c => exact kept_execNop c s
  | cset c k imm => exact kept_execCset c k imm s
  | loop c k target => exact kept_execLoop c k target s
  | cmpi c k pf cond imm => exact kept_execCmpi c k pf cond imm s
  | cmpc c ka pf cond kb => exact kept_execCmpc c ka pf cond kb s
  | br c when_ pf target => exact kept_execBr c when_ pf target s
  | vadd c d vd va vb => exact kept_execVadd c d vd va vb s
  | vsub c d vd va vb => exact kept_execVsub c d vd va vb s
  | vmul c d vd va vb => exact kept_execVmul c d vd va vb s
  | vand c d vd va vb => exact kept_execVand c d vd va vb s
  | vor c d vd va vb => exact kept_execVor c d vd va vb s
  | vxor c d vd va vb => exact kept_execVxor c d vd va vb s
  | vmin c d vd va vb => exact kept_execVmin c d vd va vb s
  | vmax c d vd va vb => exact kept_execVmax c d vd va vb s
  | vcmpeq c d vd va vb => exact kept_execVcmpeq c d vd va vb s
  | vcmplt c d vd va vb => exact kept_execVcmplt c d vd va vb s
  | vsel c d vd va vb vc => exact kept_execVsel c d vd va vb vc s
  | vshl c d vd va vb => exact kept_execVshl c d vd va vb s
  | vsra c d vd va vb => exact kept_execVsra c d vd va vb s
  | vsrl c d vd va vb => exact kept_execVsrl c d vd va vb s
  | vaddi c d vd va imm => exact kept_execVaddi c d vd va imm s
  | vshli c d vd va imm => exact kept_execVshli c d vd va imm s
  | vsrai c d vd va imm => exact kept_execVsrai c d vd va imm s
  | vrshri c d vd va imm => exact kept_execVrshri c d vd va imm s
  | vmovi c d vd imm => exact kept_execVmovi c d vd imm s
  | vmovhi c d vd va imm => exact kept_execVmovhi c d vd va imm s
  | vbcast c d vd va imm => exact kept_execVbcast c d vd va imm s
  | vmov c d vd va => exact kept_execVmov c d vd va s
  | vredi c d vd va => exact kept_execVredi c d vd va s
  | vredf c d vd va => exact kept_execVredf c d vd va s
  | fadd c d vd va vb => exact kept_execFadd c d vd va vb s
  | fsub c d vd va vb => exact kept_execFsub c d vd va vb s
  | fmul c d vd va vb => exact kept_execFmul c d vd va vb s
  | fma c d vd va vb vc => exact kept_execFma c d vd va vb vc s
  | fmin c d vd va vb => exact kept_execFmin c d vd va vb s
  | fmax c d vd va vb => exact kept_execFmax c d vd va vb s
  | itof c d vd va => exact kept_execItof c d vd va s
  | ftoi c d vd va => exact kept_execFtoi c d vd va s
  | fcmplt c d vd va vb => exact kept_execFcmplt c d vd va vb s
  | fcmpeq c d vd va vb => exact kept_execFcmpeq c d vd va vb s
  | vtab c d vd va table => exact kept_execVtab c d vd va table s
  | vexp2 c d vd va => exact kept_execVexp2 c d vd va s
  | vtld c d k poff => exact kept_execVtld c d k poff s
  | vld c d f => exact kept_execVld c d f s
  | vst c d f => exact kept_execVst c d f s
  | vpool c d vd geom base pcnt bcnt => exact kept_execVpool c d vd geom base pcnt bcnt s
  | rq c d f => exact kept_execRq c d f s
  | vmovacc c d f => exact kept_execVmovacc c d f s
  | mma c f up yd => exact kept_execMma c f up yd s
  | replayDispatch c => exact kept_execReplayDispatch c s
  | ld c f => exact kept_execLd c f s
  | st c f => exact kept_execSt c f s
  | cgather c grec geom aob pcnt token => exact kept_execCgather c grec geom aob pcnt token s
  | wxload c vd grec geom pcnt token => exact kept_execWxload c vd grec geom pcnt token s
  | ldacc c addr amask bank tgt otb token => exact kept_execLdacc c addr amask bank tgt otb token s
  | sample c req token => exact kept_execSample c req token s
  | kgather c kdesc token => exact kept_execKgather c kdesc token s
  | kscatter c kdesc token => exact kept_execKscatter c kdesc token s
  | transferComplete c store how => exact kept_execTransferComplete c store how s
  | drcLatMiss who store delay => exact kept_execDrcLatMiss who store delay s
  | wait c token n gate => exact kept_execWait c token n gate s
  | signal c token after => exact kept_execSignal c token after s
  | barrier c mask => exact kept_execBarrier c mask s
  | semAcq c sem n gate => exact kept_execSemAcq c sem n gate s
  | semGrant sem => exact kept_execSemGrant sem s
  | semRel c sem n after => exact kept_execSemRel c sem n after s
  | arrive c ctr after => exact kept_execArrive c ctr after s
  | await c ctr n gate => exact kept_execAwait c ctr n gate s
  | sampleRequestStart u => exact kept_execSampleRequestStart u s
  | sampleRequestDone u diff => exact kept_execSampleRequestDone u diff s
  | rsmpReservationPause u => exact kept_execRsmpReservationPause u s
  | keyedRequestStart => exact kept_execKeyedRequestStart s
  | keyedRequestDone => exact kept_execKeyedRequestDone s
  | frameStart rx vc vcx hdr frameNo => exact kept_execFrameStart rx vc vcx hdr frameNo s
  | frameEnd rx vc vcx hdr => exact kept_execFrameEnd rx vc vcx hdr s
  | csiLongPacket rx vc vcx hdr dt payload crcOk behind => exact kept_execCsiLongPacket rx vc vcx hdr dt payload crcOk behind s
  | ethernetFrameReceive mac frame fcsOk sfd behind => exact kept_execEthernetFrameReceive mac frame fcsOk sfd behind s
  | sweepClose mac => exact kept_execSweepClose mac s
  | sweepComplete mac => exact kept_execSweepComplete mac s
  | tileDescriptorFetch => exact kept_execTileDescriptorFetch s
  | tileDecodeDone => exact kept_execTileDecodeDone s
  | decodeBudgetExceeded => exact kept_execDecodeBudgetExceeded s
  | priorInsertDone => exact kept_execPriorInsertDone s
  | sampleComplete stream => exact kept_execSampleComplete stream s
  | droopEvent detector => exact kept_execDroopEvent detector s
  | ppsInEdge => exact kept_execPpsInEdge s
  | syncInEdge => exact kept_execSyncInEdge s
  | holdoverTimeout => exact kept_execHoldoverTimeout s
  | ppsOutPulse => exact kept_execPpsOutPulse s
  | syncOutPulse => exact kept_execSyncOutPulse s
  | timeOffsetInWrite e => exact kept_execTimeOffsetInWrite e s
  | timeStepWrite hi v => exact kept_execTimeStepWrite hi v s
  | timeCtrlWrite v => exact kept_execTimeCtrlWrite v s
  | timeTrimWrite v => exact kept_execTimeTrimWrite v s
  | load => exact kept_execLoad s
  | patternLoaded => exact kept_execPatternLoaded s
  | patternLaunch => exact kept_execPatternLaunch s
  | unload => exact kept_execUnload s
  | flush => exact kept_execFlush s
  | rwsFieldWrite off v => exact kept_execRwsFieldWrite off v s
  | ringCfgWrite off v => exact kept_execRingCfgWrite off v s
  | subCfgWrite off v => exact kept_execSubCfgWrite off v s
  | registerWrite mgt off vs full => exact kept_execRegisterWrite mgt off vs full s
  | loRegisterRead mgt off n full => exact kept_execLoRegisterRead mgt off n full s
  | fltStatWrite b hi v => exact kept_execFltStatWrite b hi v s
  | fltForceWrite b hi v => exact kept_execFltForceWrite b hi v s
  | fltSevWrite b w v => exact kept_execFltSevWrite b w v s
  | safetyInjArm c v => exact kept_execSafetyInjArm c v s
  | druHbWrite v => exact kept_execDruHbWrite v s
  | heartbeatTimerExpiry => exact kept_execHeartbeatTimerExpiry s
  | druRestartWrite v => exact kept_execDruRestartWrite v s
  | domainRestartRequest d => exact kept_execDomainRestartRequest d s
  | drainTimeout d => exact kept_execDrainTimeout d s
  | restartBoundExpiry d => exact kept_execRestartBoundExpiry d s
  | scrubCycle m bank found => exact kept_execScrubCycle m bank found s
  | dramPatrolScrub ch found => exact kept_execDramPatrolScrub ch found s
  | cfgParitySweep bad => exact kept_execCfgParitySweep bad s
  | cfgReadback upset => exact kept_execCfgReadback upset s
  | voltageMonitorTrip m mv =>
    have h : exec (.voltageMonitorTrip m mv) s = run s (voltage m mv) := if_neg (by rw [show s.rst.inReset = false from hs]; exact Bool.false_ne_true)
    rw [h]
    exact keptOut_run fun _ => kept_voltage ..
  | clockMonitorTrip good => exact kept_execClockMonitorTrip good s
  | temperatureSample vals => exact kept_execTemperatureSample vals s
  | pllUnlock locked => exact kept_execPllUnlock locked s
  | linkTrained port inv reversed => exact kept_execLinkTrained port inv reversed s
  | trainingTimeout port => exact kept_execTrainingTimeout port s
  | flitReceive port flit => exact kept_execFlitReceive port flit s
  | flitReplayTimeout port => exact kept_execFlitReplayTimeout port s
  | rdReq port hdr => exact kept_execRdReq port hdr s
  | wrReq port hdr data => exact kept_execWrReq port hdr data s
  | rdRsp port hdr data => exact kept_execRdRsp port hdr data s
  | wrAck port hdr => exact kept_execWrAck port hdr s
  | deny port hdr => exact kept_execDeny port hdr s
  | remoteLatMiss dev rid => exact kept_execRemoteLatMiss dev rid s
  | remoteRequestAbandon dev rid => exact kept_execRemoteRequestAbandon dev rid s
  | sync port ttx echoTx echoRx half => exact kept_execSync port ttx echoTx echoRx half s
  | syncSend => exact kept_execSyncSend s
  | skip port => exact kept_execSkip port s
  | ident port dev gm1 farPort tag => exact kept_execIdent port dev gm1 farPort tag s
  | identSend => exact kept_execIdentSend s
  | sideAck port origin mseq => exact kept_execSideAck port origin mseq s
  | sideResendTimeout port => exact kept_execSideResendTimeout port s
  | domainFence port body => exact kept_execDomainFence port body s
  | domainUp port body => exact kept_execDomainUp port body s
  | partVoid port body => exact kept_execPartVoid port body s
  | deviceSafe port body => exact kept_execDeviceSafe port body s
  | deviceReady port body => exact kept_execDeviceReady port body s
  | bar2Access r noc => exact kept_execBar2Access r noc s
  | bar4Access r noc => exact kept_execBar4Access r noc s
  | hotReset => cases hs
  | dataLinkDown => exact kept_execDataLinkDown s
  | dataLinkUp speed width => exact kept_execDataLinkUp speed width s
  | pciCompletionTimeout ring readAt => exact kept_execPciCompletionTimeout ring readAt s
  | tlpReceive k => exact kept_execTlpReceive k s
  | ringVectorDeferralEnd ring => exact kept_execRingVectorDeferralEnd ring s
  | getInfo => exact kept_execGetInfo s
  | sensors => exact kept_execSensors s
  | lifetimeRead => exact kept_execLifetimeRead s
  | retainedRead => exact kept_execRetainedRead s
  | attemptsClear => exact kept_execAttemptsClear s
  | fwWrite => exact kept_execFwWrite s
  | fwVerify => exact kept_execFwVerify s
  | fwActivate => exact kept_execFwActivate s
  | fwConfirm => exact kept_execFwConfirm s
  | svnCommit => exact kept_execSvnCommit s
  | lcAdvance => exact kept_execLcAdvance s
  | keyProgram => exact kept_execKeyProgram s
  | groupMap => exact kept_execGroupMap s
  | ptpStatus => exact kept_execPtpStatus s
  | flashRead => exact kept_execFlashRead s
  | mailboxUnknown => exact kept_execMailboxUnknown s
  | lifetimeCountUpdate => exact kept_execLifetimeCountUpdate s
  | lifetimeFlashWrite => exact kept_execLifetimeFlashWrite s
  | resetNAssert => cases hs
  | resetNShortPulse => exact kept_execResetNShortPulse s
  | resetNRelease => cases hs
  | powerOnDetectorAssert => cases hs
  | powerOnDetectorRelease => cases hs
  | xtalLoss => cases hs
  | startLimitExpiry => exact kept_execStartLimitExpiry s
  | pinHoldRel => exact kept_execPinHoldRel s
  | directoryWalkEnd => exact kept_execDirectoryWalkEnd s
  | xtalReturn => cases hs
  | seqLockstepDiff c => exact kept_execSeqLockstepDiff c s
  | mgtLockstepDiff => exact kept_execMgtLockstepDiff s
  | mgtSramScrub word found => exact kept_execMgtSramScrub word found s
  | tckEdge => cases hs
  | farEndReset port => exact kept_execFarEndReset port s
  | configurationWrite => cases hs

/-- Whatever the command: the queue stays, and fuses are only blown. -/
theorem held_exec (i : Instr) (s t : State) (h : exec i s = .next t) : Held s t := by
  cases hi : special i s
  · exact held_of_steady (steady_exec i s hi t h)
  · cases i with
    | hotReset => exact held_run held_hotReset h
    | configurationWrite b d e m cfg aer cl => exact held_run (held_configure b d e m cfg aer cl) h
    | voltageMonitorTrip m mv =>
      have h2 : exec (.voltageMonitorTrip m mv) s = .next (bootVoltage m mv s) := if_pos hi
      rw [h2] at h
      cases h
      exact held_bootVoltage _ _ _
    | resetNAssert => cases h; exact held_resetAssert _
    | powerOnDetectorAssert => cases h; exact held_eq rfl rfl
    | resetNRelease => cases h; exact held_resetRelease _ _ _
    | powerOnDetectorRelease => cases h; exact held_detectorRelease _ _ _
    | xtalLoss => cases h; exact held_xtalLoss _
    | xtalReturn => cases h; exact held_xtalReturn _ _
    | tckEdge r m d n =>
      cases h
      obtain ⟨tap, k, e⟩ := tckEdge_eq r m d n s
      rw [e]
      exact held_eq rfl rfl
    | _ => cases hi

end Sys2Proof.Laws
end

