-- ==== Sys2Proof/Laws/Run.lean ====
section
/-!
SUPPORT. The two ends of a command that runs out of reset: settled, or plainly the state its effect leaves.
-/
namespace Sys2Proof.Laws
open Sys2Proof Sys2Proof.Machine

/-- A command whose effect asks for nothing that is carried out at its end answers the state its effect leaves. -/
theorem run_keep {s t : State} (f : State → State) (h : s.Ready) (hf : f s = t) (h1 : t.dru = s.dru) (h2 : t.glb = s.glb)
    (h3 : t.obs = s.obs) : run s f = .next t := by
  rw [run_settled f h.1]
  · rw [hf]
  · rw [hf]; exact ⟨h1 ▸ h.2.1, h2 ▸ h.2.2.1, h3 ▸ h.2.2.2⟩

/-- Out of reset, a command answers its settled effect. -/
theorem run_next {s t : State} (f : State → State) (h : s.rst.inReset = false) (hf : f s = t) : run s f = .next (settle t) := by
  rw [run_eq f h, hf]

end Sys2Proof.Laws
end

