-- ==== Sys2Proof/Laws/Scalar.lean ====
section
/-!
SUPPORT. The scalar slot, operation by operation: what a word with given fields does (07, Table 7.1).
-/
namespace Sys2Proof.Laws
open Sys2Proof Sys2Proof.Machine

theorem fldN {n : Nat} (x hi lo : Nat) : fld (BitVec.ofNat n x) hi lo = x % 2 ^ n / 2 ^ lo % 2 ^ (hi + 1 - lo) := by
  simp [fld, bitsAt, Nat.shiftRight_eq_div_pow]

theorem scalar_eq {s : State} {c : CoreId} (w : BitVec 32) (hl : coreLive s c = true) :
    scalarAlone c w s = (match (scalarOp c (ctxOf s c).hdr w s).2.2, (scalarOp c (ctxOf s c).hdr w s).2.1 with
      | some r, _ => logSkip c 0 r (coreAt s c).sq.pc (scalarOp c (ctxOf s c).hdr w s).1
      | none, some t => jumpTo c t (scalarOp c (ctxOf s c).hdr w s).1
      | none, none => (scalarOp c (ctxOf s c).hdr w s).1) := by
  unfold scalarAlone
  rw [hl]; rfl

theorem cond_eq (cond : BitVec 3) (a b : Word) (h : cond.toNat ≤ 3) : condHolds cond a b = some (
    if cond = 0 then decide (a.toNat = b.toNat) else if cond = 1 then decide (a.toNat ≠ b.toNat) else if cond = 2 then decide (a.toNat < b.toNat) else decide (b.toNat ≤ a.toNat)) := by
  have : cond = 0 ∨ cond = 1 ∨ cond = 2 ∨ cond = 3 := by
    revert h; revert cond; decide
  rcases this with rfl | rfl | rfl | rfl
  · simp [condHolds, BitVec.toNat_inj]; rfl
  · simp [condHolds, BitVec.toNat_inj]; rfl
  · simp [condHolds, BitVec.ult]
  · simp [condHolds, BitVec.ult, ← decide_not]

theorem ext3 {x : Nat} (v : BitVec 3) (h : x % 2 ^ 32 / 2 ^ 18 % 2 ^ 3 = v.toNat) : (BitVec.ofNat 32 x).extractLsb' 18 3 = v := by
  apply BitVec.eq_of_toNat_eq
  rw [BitVec.extractLsb'_toNat, BitVec.toNat_ofNat, Nat.shiftRight_eq_div_pow, h]

theorem ext2 {x : Nat} (v : BitVec 2) (h : x % 2 ^ 32 / 2 ^ 24 % 2 ^ 2 = v.toNat) : (BitVec.ofNat 32 x).extractLsb' 24 2 = v := by
  apply BitVec.eq_of_toNat_eq
  rw [BitVec.extractLsb'_toNat, BitVec.toNat_ofNat, Nat.shiftRight_eq_div_pow, h]

theorem skip_next {s : State} {c : CoreId} {w : BitVec 32} {r : Nat} (hr : s.Ready) (hl : coreLive s c = true)
    (h : scalarOp c (ctxOf s c).hdr w s = (s, none, some r)) : run s (scalarAlone c w) = .next (settle (logSkip c 0 r (coreAt s c).sq.pc s)) := by
  rw [run_eq _ hr.1, scalar_eq _ hl, h]

theorem none_next {s t : State} {c : CoreId} {w : BitVec 32} (hr : s.Ready) (hl : coreLive s c = true)
    (h : scalarOp c (ctxOf s c).hdr w s = (t, none, none)) (h1 : t.dru = s.dru) (h2 : t.glb = s.glb) (h3 : t.obs = s.obs) : run s (scalarAlone c w) = .next t :=
  run_keep _ hr (by rw [scalar_eq _ hl, h]) h1 h2 h3

theorem jump_next {s t : State} {c : CoreId} {w : BitVec 32} {n : Nat} (hr : s.Ready) (hl : coreLive s c = true)
    (h : scalarOp c (ctxOf s c).hdr w s = (t, some n, none)) (h1 : t.dru = s.dru) (h2 : t.glb = s.glb) (h3 : t.obs = s.obs) :
    run s (scalarAlone c w) = .next (jumpTo c n t) :=
  run_keep _ hr (by rw [scalar_eq _ hl, h]) h1 h2 h3

section
variable (c : Nat) (h : Hdr) (s : State) (w : BitVec 32)

theorem op_cset (k i : Nat) (e1 : fld w 31 26 = 1) (e2 : fld w 25 23 = k) (e3 : fld w 22 0 = i) :
    scalarOp c h w s = (setCnt c k (BitVec.ofNat 32 i) s, none, none) := by
  simp only [scalarOp, scBad, e1, e2, e3]

theorem op_loop (k t : Nat) (e1 : fld w 31 26 = 2) (e2 : fld w 25 23 = k) (e3 : fld w 12 0 = t) (e4 : fld w 22 13 = 0) (ht : targetIn h t = true) :
    scalarOp c h w s = (setCnt c k (cntAt (coreAt s c) k - 1) s, if cntAt (coreAt s c) k - 1 = 0 then none else some t, none) := by
  simp only [scalarOp, scBad, e1, e2, e3, e4, if_true, ht]

theorem op_loop' (t : Nat) (e1 : fld w 31 26 = 2) (e3 : fld w 12 0 = t) (e4 : fld w 22 13 = 0) (ht : targetIn h t = false) :
    scalarOp c h w s = (s, none, some 4) := by
  simp only [scalarOp, scBad, e1, e3, e4, if_true, ht, Bool.false_eq_true, if_false]

theorem op_cmpi (k pf imm : Nat) (cond : BitVec 3) (b : Bool) (e1 : fld w 31 26 = 3) (e2 : fld w 25 23 = k) (e3 : fld w 22 21 = pf) (e4 : fld w 20 18 ≤ 3)
    (e5 : fld w 17 0 = imm) (e6 : w.extractLsb' 18 3 = cond) (hb : condHolds cond (cntAt (coreAt s c) k) (BitVec.ofNat 32 imm) = some b) :
    scalarOp c h w s = (setPf c pf b s, none, none) := by
  simp only [scalarOp, scBad, e1, e2, e3, if_pos e4, e5, e6, hb]

theorem op_cmpi' (e1 : fld w 31 26 = 3) (e4 : ¬ fld w 20 18 ≤ 3) : scalarOp c h w s = (s, none, some 2) := by
  simp only [scalarOp, scBad, e1, if_neg e4]

theorem op_cmpc (k k2 pf : Nat) (cond : BitVec 3) (b : Bool) (e1 : fld w 31 26 = 4) (e2 : fld w 25 23 = k) (e3 : fld w 22 21 = pf) (e4 : fld w 20 18 ≤ 3 ∧ fld w 14 0 = 0)
    (e5 : fld w 17 15 = k2) (e6 : w.extractLsb' 18 3 = cond) (hb : condHolds cond (cntAt (coreAt s c) k) (cntAt (coreAt s c) k2) = some b) :
    scalarOp c h w s = (setPf c pf b s, none, none) := by
  simp only [scalarOp, scBad, e1, e2, e3, if_pos e4, e5, e6, hb]

theorem op_cmpc' (e1 : fld w 31 26 = 4) (e4 : ¬ fld w 20 18 ≤ 3) : scalarOp c h w s = (s, none, some 2) := by
  simp only [scalarOp, scBad, e1, if_neg (show ¬ (fld w 20 18 ≤ 3 ∧ fld w 14 0 = 0) from fun h => e4 h.1)]

theorem op_br (pf t : Nat) (wh : BitVec 2) (b : Bool) (e1 : fld w 31 26 = 5) (e2 : fld w 25 24 ≤ 2 ∧ fld w 21 13 = 0) (e3 : fld w 23 22 = pf) (e4 : fld w 12 0 = t)
    (e6 : w.extractLsb' 24 2 = wh) (ht : targetIn h t = true) (hb : brTaken wh ((coreAt s c).sq.pf.getD pf false) = some b) :
    scalarOp c h w s = (s, if b then some t else none, none) := by
  simp only [scalarOp, scBad, e1, if_pos e2, e3, e4, e6, if_pos ht, hb]

theorem op_br' (t : Nat) (e1 : fld w 31 26 = 5) (e2 : fld w 25 24 ≤ 2 ∧ fld w 21 13 = 0) (e4 : fld w 12 0 = t) (ht : targetIn h t = false) :
    scalarOp c h w s = (s, none, some 4) := by
  simp only [scalarOp, scBad, e1, if_pos e2, e4, ht, Bool.false_eq_true, if_false]

theorem op_br'' (e1 : fld w 31 26 = 5) (e2 : ¬ fld w 25 24 ≤ 2) : scalarOp c h w s = (s, none, some 2) := by
  simp only [scalarOp, scBad, e1, if_neg (show ¬ (fld w 25 24 ≤ 2 ∧ fld w 21 13 = 0) from fun h => e2 h.1)]
end

end Sys2Proof.Laws
end

