-- ==== Sys2Proof/Tests/Slice0.lean ====
section
/-!
SUPPORT. Tests: an ill-formed command for each check of WellFormed, the worked figures of the spec, and for every obligation with
hypotheses a state and operands that meet them.
-/
namespace Sys2Proof.Tests
open Sys2Proof Sys2Proof.Machine

/-! ### Ill-formed commands are refused by WellFormed -/

theorem test_flit_of_255_bytes : Instr.wellFormed (.flitReceive 0 (List.replicate 255 0)) = false := by rw [Instr.wellFormed, List.length_replicate]; rfl
theorem test_write_request_short : Instr.wellFormed (.wrReq 0 (BitVec.ofNat 128 (3 * 2 ^ 40)) [1, 2, 3]) = false := by decide
theorem test_read_response_long : Instr.wellFormed (.rdRsp 0 0 [1, 2]) = false := by decide
theorem test_23_temperatures : Instr.wellFormed (.temperatureSample (List.replicate 23 0)) = false := by decide
theorem test_scrub_of_no_bank : Instr.wellFormed (.scrubCycle .fst 16 .clean) = false := by decide
theorem test_scrub_of_no_word : Instr.wellFormed (.mgtSramScrub 131072 .clean) = false := by decide
theorem test_well_formed : Instr.wellFormed (.wrReq 0 (BitVec.ofNat 128 (3 * 2 ^ 40)) [1, 2, 3, 4]) = true := by decide

/-! ### States -/

/-- Out of reset, nothing done yet. -/
def on : State := { State.reset with rst := { State.reset.rst with inReset := false, porOn := false } }

/-- Core 0 changed. -/
def core0 (f : Core → Core) (s : State) : State := { s with cores := upd s.cores 0 f }

/-- Items of a Pattern: an INTAKE stage, then a COMPUTE stage on partition 0 that reserves unit 0; streams 0, 32 and 36 enabled. -/
def items : List PItem :=
  [⟨2, 3, 0, 2⟩, ⟨2, 0x10, 0, 0⟩, ⟨2, 0x11, 0, 0⟩, ⟨2, 0x12, 0, 200000⟩, ⟨2, 0x10, 1, 1⟩, ⟨2, 0x11, 1, 300000⟩, ⟨2, 0x12, 1, 900000⟩,
    ⟨2, 0x13, 1, 1⟩, ⟨2, 0x14, 1, 1⟩, ⟨1, 0x10, 0, 1⟩, ⟨3, 0x100, 0, 1⟩, ⟨3, 0x100, 32, 1⟩, ⟨3, 0x100, 36, 1⟩]

/-- A Pattern is ACTIVE, the host and DRAM answer. -/
def active : State := { on with
  glb := { on.glb with patState := 4, pat := items }
  time := { on.time with period := 50000000, active := true }
  drc := { on.drc with trained := true }
  pci := { on.pci with dlActive := true, bme := true }
  disp := { on.disp with parts := [0xFFFF, 0, 0, 0] } }

/-- Core 0 runs a command whose image begins at bundle 0 of its Bundle Store: bundles 1 to 3. -/
def running (s : State) : State := core0 (fun k => { k with
  st := { k.st with run := some { phase := .running, decl := 1000 } }
  bst := { k.bst with cells := [(4, 1), (6, 4)] }
  sq := { k.sq with pc := 1 } }) s

/-- The entry of a word that is dispatched now on core 0 of a core that has dispatched nothing. -/
def entry (w : BitVec 48) (pc : Nat := 0) : QEnt := { slot := w, seq := 0, bundle := pc, at_ := 0, ctrs := [0, 0, 0, 0, 0, 0, 0, 0] }

theorem test_on_ready : on.Ready := ⟨rfl, rfl, rfl, rfl⟩

/-! ### Every hypothesis is met somewhere -/

theorem witness_StepRunsCommand : State.reset.pending = [] ∧ State.reset.rst.inReset = true ∧ on.pending = [] ∧ on.rst.inReset = false := by decide

theorem witness_EveryCommandAnswers : Instr.wellFormed .load = true ∧ Instr.wellFormed (.flitReceive 0 []) = false := by decide

theorem witness_MemoriesStayCanonical : State.reset.memsWf = true ∧ step State.reset = .next State.reset := ⟨by decide, rfl⟩

theorem witness_OnlyNamedCommandsChange : (∃ t, exec .flush on = .next t) ∧ Instr.isReset .flush on = false ∧ Instr.isTck .flush = false ∧
    Instr.flush ≠ .powerOnDetectorAssert ∧ Instr.flush ≠ .hotReset ∧ (∀ b d e m cfg aer cl, Instr.flush ≠ .configurationWrite b d e m cfg aer cl) ∧
    (∃ t, exec .flush { on with glb := { on.glb with safe := true } } = .next t) :=
  ⟨⟨_, rfl⟩, rfl, rfl, by decide, by decide, nofun, _, rfl⟩

theorem witness_FusesOnlyBlown : (∃ t, step on = .next t) ∧ (∃ t, exec .flush on = .next t) ∧
    (∃ t, exec (.powerOnDetectorRelease false []) State.reset = .next t ∧ t.rst.inReset = false) ∧ State.reset.rst.inReset = true :=
  ⟨⟨_, rfl⟩, ⟨_, rfl⟩, ⟨_, rfl, rfl⟩, rfl⟩

theorem witness_ClockRatios : on.clk.sub = 0 ∧ on.clk.ahead = 0 ∧ on.clk.stretch = 0 ∧ on.time.perf = 0 ∧
    { on.time with perf := 1 }.perf = 1 ∧ { on.time with perf := 2 }.perf = 2 ∧ 0 < 5 ∧ nextDue (drainTrace on) = none := by decide

theorem witness_MemoryAccesses : on.memsWf = true ∧ Has on .fst ∧ Has on (.asp 15) := ⟨by decide, trivial, show 15 < on.cores.length by decide⟩

theorem witness_ZeroSlotIsNop : (1, 1) ∈ illegalSlots on (ctxOf on 0) (BitVec.ofNat 256 (2 ^ 252 + 0x7F * 2 ^ 209)) ∧
    ∃ y ∈ slotsOf (BitVec.ofNat 256 (2 ^ 249)), y.word = 0 := by decide

theorem test_running_ready : (running on).Ready := ⟨rfl, rfl, rfl, rfl⟩

theorem witness_ScalarSlot : coreLive (running on) 0 = true ∧ (ctxOf (running on) 0).hdr.entry ≤ (1#13).toNat ∧
    (1#13).toNat < (ctxOf (running on) 0).hdr.len ∧ (3#13).toNat < (ctxOf (running on) 0).hdr.len ∧
    ¬ (4#13).toNat < (ctxOf (running on) 0).hdr.len ∧ (3#3).toNat ≤ 3 ∧ 4 ≤ (4#3).toNat ∧ (2#2).toNat ≤ 2 ∧ (3#2).toNat = 3 := by decide

/-- Core 3 has arrived at counter 0. -/
def arrived : State := { on with fst := { on.fst with arr := [8], arrAt := [[0]] } }

/-- T4 of core 0 holds two signals. -/
def tokened : State := core0 (fun k => { k with st := { k.st with tok := [0, 0, 0, 0, 2] } }) on

theorem witness_SyncInstructions :
    (∃ e t r, tokenReady (coreAt tokened 0) (baseCycle tokened 0 .sync e) (4#4).toNat (2#8).toNat = some r ∧
      IssuesAt tokened 0 .sync (wordWait 4 2 1) (max (headCycle (coreAt tokened 0) e) r) e false t) ∧
    (∃ e t r, earlierDone (coreAt on 0) (15#4).toNat e.seq = some r ∧
      IssuesAt on 0 .sync (wordSignal 4 15) (max (headCycle (coreAt on 0) e) r) e false t) ∧
    (∃ e t r, earlierDone (coreAt on 0) (15#4).toNat e.seq = some r ∧
      IssuesAt on 0 .sync (wordBarrier 15) (max (headCycle (coreAt on 0) e) r) e false t) ∧
    (∃ e t r, earlierDone (coreAt on 0) (15#4).toNat e.seq = some r ∧
      IssuesAt on 0 .sync (wordArrive 7 15) (max (headCycle (coreAt on 0) e) r) e false t) ∧
    (∃ e t, (1#5).toNat ≤ arrCount arrived (0#8).toNat ∧ IssuesAt arrived 0 .sync (wordAwait 0 1 1)
      (max ((arrived.fst.arrAt.getD (0#8).toNat []).getD ((1#5).toNat - 1) 0) (headCycle (coreAt arrived 0) e) + 8) e false t) ∧
    ({ on.fst with arr := List.replicate 256 0 }).arr.length = 256 :=
  ⟨⟨entry _, _, _, rfl, rfl, rfl, rfl, .inr rfl, _, rfl, rfl⟩, ⟨entry _, _, _, rfl, rfl, rfl, rfl, .inr rfl, _, rfl, rfl⟩,
    ⟨entry _, _, _, rfl, rfl, rfl, rfl, .inr rfl, _, rfl, rfl⟩, ⟨entry _, _, _, rfl, rfl, rfl, rfl, .inr rfl, _, rfl, rfl⟩,
    ⟨entry _, _, by decide, rfl, rfl, rfl, .inr rfl, _, rfl, rfl⟩, List.length_replicate⟩

/-- An entry stands at the head of a queue of core 0. -/
def queued (q : QId) (w : BitVec 48) (s : State) : State := core0 (fun k => { k with sq := k.sq.setQueue q [entry w] }) s

/-- Core 0 holds one unit of semaphore 1, which has two more. -/
def holding : State := { core0 (fun k => { k with st := { k.st with holds := [(1, 1)] } }) on with disp := { on.disp with sems := [0, 2] } }

/-- The granted SEM_ACQ of core 0 stands at the head of its queue. -/
def granted : State := core0 (fun k => { k with sq := { k.sq with qy := [{ entry (wordSem 4 1 1 1) with reqAt := some 12 }] } }) on

theorem witness_Semaphores :
    (headFor on 0 .sync (wordSem 4 1 1 1) = some (entry (wordSem 4 1 1 1), false) ∧ slotBad on (ctxOf on 0) .sync (wordSem 4 1 1 1) = none ∧
      (∀ q ∈ on.disp.semWait, q.core ≠ 0)) ∧
    (coreLive granted 0 = true ∧ (coreAt granted 0).sq.qy = [{ entry (wordSem 4 1 1 1) with reqAt := some 12 }]) ∧
    ({ holding.disp with semWait := [⟨1, 0, 1, 0⟩] }.semWait.find? fun (q : SemReq) => q.sem == 1) = some ⟨1, 0, 1, 0⟩ ∧
    (∃ e t d, 1 ≤ (assoc (coreAt holding 0).st.holds 1).getD 0 ∧ earlierDone (coreAt holding 0) (15#4).toNat e.seq = some d ∧
      IssuesAt holding 0 .sync (wordSem 5 1 1 15) (max (headCycle (coreAt holding 0) e) d + 12) e false t) ∧
    (∃ e t, (assoc (coreAt holding 0).st.holds 1).getD 0 < (2#8).toNat ∧
      IssuesAt holding 0 .sync (wordSem 5 1 2 15) (headCycle (coreAt holding 0) e) e false t) :=
  ⟨⟨rfl, rfl, by decide⟩, ⟨rfl, rfl⟩, rfl, ⟨entry _, _, _, by decide, rfl, rfl, rfl, rfl, .inr rfl, _, rfl, rfl⟩,
    ⟨entry _, _, by decide, rfl, rfl, rfl, .inr rfl, _, rfl, rfl⟩⟩

theorem witness_VectorInteger : IssuesAt on 0 .vector (wordR 0x01 1 2 3 0) (coreAt on 0).vu.vAt (entry (wordR 0x01 1 2 3 0)) false 0 :=
  ⟨rfl, rfl, rfl, .inr rfl, _, rfl, rfl⟩

/-- Table 0 of core 0 is loaded. -/
def tabled : State := core0 (fun k => { k with vu := { k.vu with tabs := [some ⟨0, 0, []⟩] } }) on

theorem witness_VectorFloat :
    IssuesAt on 15 .vector (wordR 0x20 31 30 29 0) (coreAt on 15).vu.vAt (entry (wordR 0x20 31 30 29 0)) false 0 ∧
    (IssuesAt tabled 0 .vector (wordI 0x30 1 2 0) (coreAt tabled 0).vu.vAt (entry (wordI 0x30 1 2 0)) false 0 ∧
      (coreAt (issuing tabled 0 .vector false 0) 0).vu.tabs.getD (0#16).toNat none = some ⟨0, 0, []⟩) ∧
    (IssuesAt on 0 .vector (wordI 0x30 1 2 7) (coreAt on 0).vu.vAt (entry (wordI 0x30 1 2 7)) false 0 ∧
      (coreAt (issuing on 0 .vector false 0) 0).vu.tabs.getD (7#16).toNat none = none) :=
  ⟨⟨rfl, rfl, rfl, .inr rfl, _, rfl, rfl⟩, ⟨⟨rfl, rfl, rfl, .inr rfl, _, rfl, rfl⟩, rfl⟩, ⟨⟨rfl, rfl, rfl, .inr rfl, _, rfl, rfl⟩, rfl⟩⟩

/-- A parameter area of 20 zero units follows the bundles of core 0's command. -/
def params : State := core0 (fun k => { k with bst := { k.bst with cells := [(4, 1), (6, 4), (17, 1), (18, 0xA0)] } }) (running on)

theorem witness_VectorLoadsAndStores :
    IssuesAt on 0 .vector (wordVmem 0x38 ⟨1, 5, 0x7FFF, 0, false⟩) (coreAt on 0).vu.vAt (entry (wordVmem 0x38 ⟨1, 5, 0x7FFF, 0, false⟩)) false 0 ∧
    IssuesAt on 0 .vector (wordVmem 0x39 ⟨1, 0, 0, 0, false⟩) (coreAt on 0).vu.vAt (entry (wordVmem 0x39 ⟨1, 0, 0, 0, false⟩)) false 0 ∧
    IssuesAt params 0 .vector (wordVtld 7 0) (coreAt params 0).vu.vAt (entry (wordVtld 7 0) 1) false 0 :=
  ⟨⟨rfl, rfl, rfl, .inr rfl, _, rfl, rfl⟩, ⟨rfl, rfl, rfl, .inr rfl, _, rfl, rfl⟩, ⟨rfl, rfl, rfl, .inr rfl, _, rfl, rfl⟩⟩

/-- Core 0's command has a geometry record: MAXPOOL, 1 x 1. -/
def pooling : State := core0 (fun k => { k with bst := { k.bst with
  cells := [(4, 1), (6, 4), (8, 1), (9, 0x20), (32, 1), (34, 1), (44, 1), (46, 1), (48, 0x11), (49, 0x11), (50, 0x41), (54, 0x40)] } }) (running on)

theorem witness_VectorPool :
    (IssuesAt pooling 0 .vector (wordVpool 1 0 0 0 0) (coreAt pooling 0).vu.vAt (entry (wordVpool 1 0 0 0 0) 1) false 0 ∧
      ∃ g, poolGeom (issuing pooling 0 .vector false 0) 0 (0#3).toNat = some g ∧ 0 < g.ho * g.wo ∧
        (∀ a ∈ poolReads g 0 0 0, a + 64 * elemBytes g.afmt ≤ 0x1E0000) ∧ g.ho * g.wo ≤ 1) ∧
    (IssuesAt (queued .vector (wordVpool 1 7 0 0 0) on) 0 .vector (wordVpool 1 7 0 0 0) 0 (entry (wordVpool 1 7 0 0 0)) true 1 ∧
      poolGeom (issuing (queued .vector (wordVpool 1 7 0 0 0) on) 0 .vector true 1) 0 (7#3).toNat = none) :=
  ⟨⟨⟨rfl, rfl, rfl, .inr rfl, _, rfl, rfl⟩, _, rfl, by decide, by decide, by decide⟩, ⟨⟨rfl, rfl, rfl, .inl rfl, _, rfl, rfl⟩, rfl⟩⟩

theorem witness_PoolingValues : ([3, -5] : List Int).length ≤ 2 ∧ ([] : List Int).length ≤ 9 ∧ { geomOf 0 with mode := 4 }.mode = 4 ∧
    { geomOf 0 with mode := 5 }.mode = 5 ∧ { geomOf 0 with mode := 6 }.mode = 6 := by decide

theorem witness_FloatMinMax : 0x7F800000 < (0x7FC00000 : Word).toNat % 2 ^ 31 ∧ ¬ 0x7F800000 < (0x80000000 : Word).toNat % 2 ^ 31 := by decide

/-- A DIRECT tile lies in Drain Buffer entry 0 of array 0; row-group 15 has been read. -/
def drained (de : Nat) : State := core0 (fun k => { k with mx := { k.mx with drains := [some { e := 0, mode := 0, tile := [], read := [15] }] }
                                                           bst := { k.bst with cells := [(32, BitVec.ofNat 8 de)] } }) params

theorem witness_DrainReads :
    let good : RqF := ⟨0, 0, 0, 0, false, 0, 0, false⟩
    let bad : RqF := ⟨0, 0, 0, 15, false, 0, 0, false⟩
    let mov : MovAccF := ⟨0, 0, 0, false, 0⟩
    (∃ t r, drainWait 0 (rqRd bad) (queued .vector (wordRq bad) (drained 0)) (entry (wordRq bad)) = some r ∧
      IssuesAt (queued .vector (wordRq bad) (drained 0)) 0 .vector (wordRq bad) r (entry (wordRq bad)) true t ∧
      drainBad (coreAt (issuing (queued .vector (wordRq bad) (drained 0)) 0 .vector true t) 0) (rqRd bad)
        (issuing (queued .vector (wordRq bad) (drained 0)) 0 .vector true t).clk.cyc = true) ∧
    (∃ t r, drainWait 0 (movRd mov) (queued .vector (wordMovAcc mov) (drained 0)) (entry (wordMovAcc mov)) = some r ∧
      IssuesAt (queued .vector (wordMovAcc mov) (drained 0)) 0 .vector (wordMovAcc mov) r (entry (wordMovAcc mov)) true t) ∧
    (∃ t r, drainWait 0 (rqRd good) (queued .vector (wordRq good) (drained 0)) (entry (wordRq good)) = some r ∧
      IssuesAt (queued .vector (wordRq good) (drained 0)) 0 .vector (wordRq good) r (entry (wordRq good)) true t ∧
      drainBad (coreAt (issuing (queued .vector (wordRq good) (drained 0)) 0 .vector true t) 0) (rqRd good)
        (issuing (queued .vector (wordRq good) (drained 0)) 0 .vector true t).clk.cyc = false ∧
      (rqParams (ctxOf (issuing (queued .vector (wordRq good) (drained 0)) 0 .vector true t) 0) ⟨0, false, 0, 0, 0, 0, 0, 0, 0⟩ (rqRd good) 0).isSome = true) ∧
    (rqParams (ctxOf (drained 0) 0) ⟨0, true, 0, 0, 0, 0, 0, 0, 0⟩ (rqRd good) 4096).isNone = true :=
  ⟨⟨_, _, rfl, ⟨rfl, rfl, rfl, .inl rfl, _, rfl, rfl⟩, rfl⟩, ⟨_, _, rfl, ⟨rfl, rfl, rfl, .inl rfl, _, rfl, rfl⟩⟩,
    ⟨_, _, rfl, ⟨rfl, rfl, rfl, .inl rfl, _, rfl, rfl⟩, rfl, by decide +kernel⟩, by decide +kernel⟩

theorem witness_VectorResultsBecomeVisible : 0 < on.cores.length ∧ on.clk.cyc + 3 ≤ 3 ∧
    (∀ w ∈ (coreAt on 0).vu.vwr, w.reg = (1#5).toNat → w.visibleAt ≤ on.clk.cyc + 3) ∧ (2#5 : BitVec 5) ≠ 1 := by decide

theorem witness_LaneInstructionFrame :
    LaneResult (.vmov 0 false 1 2) 0 false (wordR 0x19 1 2 0 0) 3 1 [2] (fun s i => lane s 0 2 i) ∧
    IssuesAt on 0 .vector (wordR 0x19 1 2 0 0) (coreAt on 0).vu.vAt (entry (wordR 0x19 1 2 0 0)) false 0 ∧ (issuing on 0 .vector false 0).Ready ∧ 0 ≤ on.clk.cyc ∧
    hazardOf (coreAt (issuing on 0 .vector false 0) 0) (issuing on 0 .vector false 0).clk.cyc ((issuing on 0 .vector false 0).clk.cyc + 3)
      [2] [1] = none ∧
    ∃ u, exec (.vmov 0 false 1 2) on = .next u :=
  ⟨Laws.oneSource (mk := .vmov) (fun _ _ _ _ _ => rfl) 0 false 1 2, ⟨rfl, rfl, rfl, .inr rfl, _, rfl, rfl⟩, ⟨rfl, rfl, rfl, rfl⟩, by decide, rfl, _, rfl⟩

/-- An MMA on array 0, bank 0: opens a chain at zero, one step, INT8, DIRECT. -/
def mma0 (init : BitVec 2) (last : Bool) : MmaF := ⟨1, false, init, last, false, 0, 0, 0, 0, 0, 0, 0, false⟩

/-- The MMA stands in its queue and operand buffer entry 0 is filled for it. -/
def fed (f : MmaF) : State := core0 (fun k => { k with mx := { k.mx with
  aob := [{ valid := true, gather := some ⟨1, 0, 0, 0, 0, 0⟩ }, {}, {}, {}] } }) (queued .matrix (wordMma f) on)

theorem witness_MatrixAccumulates :
    let f : MmaF := mma0 1 false
    let g : MmaF := mma0 0 false
    (∃ t r, mmaReady 0 f (fed f) (entry (wordMma f)) = some r ∧ IssuesAt (fed f) 0 .matrix (wordMma f) r (entry (wordMma f)) true t ∧
      mtxBad (wordMma f) = none ∧
      (mmaBadBank (coreAt (issuing (fed f) 0 .matrix true t) 0) f 0 || mmaBadAob (coreAt (issuing (fed f) 0 .matrix true t) 0) f) = false ∧
      f.last = false) ∧
    (∃ t r, mmaReady 0 g (fed g) (entry (wordMma g)) = some r ∧ IssuesAt (fed g) 0 .matrix (wordMma g) r (entry (wordMma g)) true t ∧
      (mmaBadBank (coreAt (issuing (fed g) 0 .matrix true t) 0) g 0 || mmaBadAob (coreAt (issuing (fed g) 0 .matrix true t) 0) g) = true) :=
  ⟨⟨_, _, rfl, ⟨rfl, rfl, rfl, .inl rfl, _, rfl, rfl⟩, rfl, rfl, rfl⟩, ⟨_, _, rfl, ⟨rfl, rfl, rfl, .inl rfl, _, rfl, rfl⟩, rfl⟩⟩

theorem witness_BankStepAccumulates : let act : List (List Int) := List.replicate 64 [3]
    let w : List (List Int) := [List.replicate 64 2]
    act.length = 64 ∧ (∀ r ∈ act, r.length = w.length) ∧ (∀ r ∈ w, r.length = 64) ∧ 63 < 64 := by
  refine ⟨List.length_replicate, fun r h => ?_, fun r h => ?_, by decide⟩
  · rw [(List.mem_replicate.1 h).2]; rfl
  · rw [List.mem_singleton.1 h]; exact List.length_replicate

theorem witness_ChainCloses : 3 < 4 ∧ (mma0 1 true).mode ≠ 1 ∧ (coreAt on 0).st.injArmed = false ∧ (coreAt on 0).mx.banks.length = 8 ∧
    (coreAt on 0).mx.drains.length = 8 := by decide

theorem witness_ResidueChecker : ({} : Bank).acc.length ≤ 4096 ∧
    (∀ x ∈ [(List.replicate 64 [(-4096 : Int)], [List.replicate 64 (4096 : Int)])], StepSized x) ∧ 63 < 64 ∧ 39 < 40 := by
  refine ⟨by decide, fun x h => ?_, by decide, by decide⟩
  obtain rfl := List.mem_singleton.1 h
  refine ⟨List.length_replicate, by decide, fun r h => ?_, fun r h => ?_⟩
  · obtain rfl := (List.mem_replicate.1 h).2
    exact ⟨rfl, by decide⟩
  · obtain rfl := List.mem_singleton.1 h
    exact ⟨List.length_replicate, fun v h => by obtain rfl := (List.mem_replicate.1 h).2; decide⟩

/-- An LD of zero-record descriptors, a CGATHER, a WXLOAD and an LDACC, each at the head of its queue of a core with a parameter area. -/
def ldf : LdF := ⟨0, 2, 0, 0, false, 0, false⟩

theorem witness_TransfersStart :
    (∃ t r, ldReady 0 false (queued .load (wordLd ldf) params) (entry (wordLd ldf)) = some r ∧
      IssuesAt (queued .load (wordLd ldf) params) 0 .load (wordLd ldf) r (entry (wordLd ldf)) true t) ∧
    (∃ t r, ldReady 0 true (queued .store (wordLd ldf) params) (entry (wordLd ldf)) = some r ∧
      IssuesAt (queued .store (wordLd ldf) params) 0 .store (wordLd ldf) r (entry (wordLd ldf)) true t) ∧
    (∃ t r, cgatherReady 0 (3#2).toNat (queued .load (wordCgather 0 0 3 0 4) pooling) (entry (wordCgather 0 0 3 0 4)) = some r ∧
      IssuesAt (queued .load (wordCgather 0 0 3 0 4) pooling) 0 .load (wordCgather 0 0 3 0 4) r (entry (wordCgather 0 0 3 0 4)) true t) ∧
    (∃ t r, loadRoom 0 (queued .load (wordWxload 0 0 0 15) pooling) (entry (wordWxload 0 0 0 15)) = some r ∧
      IssuesAt (queued .load (wordWxload 0 0 0 15) pooling) 0 .load (wordWxload 0 0 0 15) r (entry (wordWxload 0 0 0 15)) true t) ∧
    (∃ e t r, ldaccReady 0 1 false false false on e = some r ∧ IssuesAt on 0 .load (wordLdacc 0 1 false false false 4) r e false t) :=
  ⟨⟨_, _, rfl, rfl, rfl, rfl, .inl rfl, _, rfl, rfl⟩, ⟨_, _, rfl, rfl, rfl, rfl, .inl rfl, _, rfl, rfl⟩,
    ⟨_, _, rfl, rfl, rfl, rfl, .inl rfl, _, rfl, rfl⟩, ⟨_, _, rfl, rfl, rfl, rfl, .inl rfl, _, rfl, rfl⟩,
    ⟨entry _, _, _, rfl, rfl, rfl, rfl, .inr rfl, _, rfl, rfl⟩⟩

/-- A load of core 0's latency-critical command from DRAM is in flight. -/
def loading : State := core0 (fun k => { k with
  xfers := [{ store := false, ent := entry 0, token := 0, dst := .none, src := 2, doneAt := 400 }]
  st := { k.st with run := k.st.run.map fun r => { r with lc := true } } }) (running on)

theorem witness_TransfersEnd : coreLive loading 0 = true ∧ (∃ x, (coreAt loading 0).xfers.find? (fun x => x.store == false) = some x ∧
      x.msgs = none ∧ x.waiting = [] ∧ (x.dspace = 6 → pciUp loading = true)) ∧
    (∃ x ∈ [({ store := true, ent := entry 0, token := 0, dst := .bytes 1 0 [] [], src := 0, dspace := 1, doneAt := 0 } : Xfer)],
      x.dst = .bytes 1 0 [] [] ∧ x.dspace ≠ 0 ∧ x.dspace ≠ 3) ∧ dramUp active = true ∧
    (∃ r, (coreAt loading 0).st.run = some r ∧ r.lc = true) ∧
    (∃ x, (coreAt loading 0).xfers.find? (fun x => x.store == false && (x.src == 2 || x.dspace == 2)) = some x) :=
  ⟨rfl, ⟨_, rfl, rfl, rfl, by decide⟩, ⟨_, List.mem_singleton.2 rfl, rfl, by decide, by decide⟩, rfl, ⟨_, rfl, rfl⟩, ⟨_, rfl⟩⟩

/-- The request and the parameter area that core 0's command carries are zero. -/
def asking : State := core0 (fun k => { k with bst := { k.bst with cells := [(4, 1), (6, 4), (10, 2), (11, 0x40), (17, 1), (18, 0xA0)] } }) (running on)

theorem witness_RequestsIssue :
    (rsmpAt asking (reqOf (reqRec (ctxOf asking 0).img (ctxOf asking 0).hdr (0#3).toNat)).unit).depth < 16 ∧
    IssuesAt asking 0 .load (wordSample 0 4) 0 (entry (wordSample 0 4) 1) false 0 ∧ asking.kfs.depth < 16 ∧
    IssuesAt params 0 .load (wordKeyed 6 0 15) 0 (entry (wordKeyed 6 0 15) 1) false 0 ∧
    (∃ t, IssuesAt params 0 .store (wordKeyed 2 19 4) (holdPast (coreAt params 0).mx.checks
      (baseCycle params 0 .store (entry (wordKeyed 2 19 4) 1) + 16) - 16) (entry (wordKeyed 2 19 4) 1) false t) :=
  ⟨by decide, ⟨rfl, rfl, rfl, .inr rfl, _, rfl, rfl⟩, by decide, ⟨rfl, rfl, rfl, .inr rfl, _, rfl, rfl⟩, ⟨_, rfl, rfl, rfl, .inr rfl, _, rfl, rfl⟩⟩

/-- Unit 0 serves a request; unit 1 has one waiting. -/
def sampling (s : State) : State := { s with rsmp := [{ serving := some { lc := true } }, { queue := [{}] }, {}, {}] }

/-- A keyed request waits; another is done. -/
def keyed : State := { active with kfs := { active.kfs with queue := [{ desc := 1 }], finishing := [{}] } }

theorem witness_UnitsServe : ((sampling on).Ready ∧ (rsmpAt (sampling on) 1).serving = none ∧ inService (sampling on) dFST = true ∧ (sampling on).glb.safe = false ∧
      (nextSample (sampling on) 1).isSome = true) ∧
    (∃ r, (rsmpAt (sampling on) 0).serving = some r ∧ r.lc = true ∧ r.done ≤ 0 ∧ 0 < (reqOf r.req).total) ∧
    (patActive (sampling active) = true ∧ (nextReservation (sampling active) 0).isSome = true) ∧
    (keyed.kfs.queue ≠ [] ∧ inService keyed dFST = true ∧ dramUp keyed = true ∧ keyed.glb.safe = false ∧
      ∃ r rest, (passToCyc keyed (keyedFreeAt keyed)).kfs.queue = r :: rest) ∧
    (∃ r0 r, nextKeyedDone keyed = some r0 ∧ (passToCyc keyed r0.doneAt).kfs.finishing.find?
      (fun r => r.core == r0.core && r.run == r0.run && r.seq == r0.seq && r.desc == r0.desc) = some r) :=
  ⟨⟨⟨rfl, rfl, rfl, rfl⟩, rfl, rfl, rfl, rfl⟩, ⟨_, rfl, rfl, by decide, by decide⟩, ⟨rfl, rfl⟩, ⟨by decide, rfl, rfl, rfl, _, _, rfl⟩, ⟨_, _, rfl, rfl⟩⟩

/-- A job of stage 1 has a command for core 0 that waits; with `r`, one whose replay is due. -/
def launched (r : Bool) : State := { active with disp := { active.disp with
  jobs := [{ stage := 1, job := 0, part := 0, tag := 0, cring := 0, cmds := [{ core := 0, hdr := 0, idx := 0, phase := if r then .replayDue else .waiting }] }] } }

theorem witness_CommandsDispatched :
    ((launched false).glb.safe = false ∧ (coreAt (launched false) 0).st.swatchAt = none ∧ (coreAt (launched false) 0).st.swatchDue = false ∧
      (lcTurn (launched false) 0).isSome = true ∧ (coreAt (launched false) 0).st.run = none ∧ isRetired (launched false) 0 = false ∧
      inService (launched false) (dCore 0) = true) ∧
    isRetired { launched false with disp := { (launched false).disp with retired := 1 } } 0 = true ∧
    inService { launched false with dru := { doms := [{}, { phase := 5 }] } } (dCore 0) = false ∧
    (replayTurn (launched true) 0).isSome = true ∧
    (commandFail on (imgOn on 0 0) 0 true).isSome = true ∧
    commandFail on (imgOn (core0 (fun k => { k with bst := { k.bst with cells := [(0, 1), (4, 1), (6, 4)] } }) on) 0 0) 0 true = none := by decide

theorem witness_BundlesDispatch : (coreLive (running on) 0 = true ∧ ∃ r, (coreAt (running on) 0).st.run = some r ∧ r.phase = .running ∧ r.isOver = false) ∧
    (let s : State := core0 (fun k => { k with bst := { k.bst with cells := [(4, 1), (6, 4), (63, 0x10), (58, 0x26)] }
                                               sq := { k.sq with qv := List.replicate 16 (entry 0) } }) (running on)
     ((entering s (ctxOf s 0) (BitVec.ofNat 256 ((coreAt s 0).bst.rdLe 32 32))).any fun y =>
       decide (16 ≤ ((coreAt s 0).sq.queue (QId.ofSlot y.num)).length)) = true) ∧
    ((entering (running on) (ctxOf (running on) 0) (BitVec.ofNat 256 ((coreAt (running on) 0).bst.rdLe 32 32))).any fun y =>
       decide (16 ≤ ((coreAt (running on) 0).sq.queue (QId.ofSlot y.num)).length)) = false :=
  ⟨⟨rfl, _, rfl, rfl, rfl⟩, rfl, rfl⟩

/-- Core 0's command has dispatched its last bundle, and nothing of it is left. -/
def ending : State := core0 (fun k => { k with st := { k.st with run := k.st.run.map fun r => { r with isOver := true } } }) (running on)

/-- The same, but for a WAIT whose token does not come. -/
def stalled : State := core0 (fun k => { k with sq := { k.sq with qy := [entry (wordWait 4 1 1)] } }) ending

theorem witness_CommandsEnd :
    (∃ r t, (coreAt ending 0).st.run = some r ∧ completeAt ending 0 r = some t) ∧
    (∃ r, (coreAt (running on) 0).st.run = some r ∧ completeAt (running on) 0 r = none ∧ r.phase = .running ∧ r.overrun = false) ∧
    (∃ r, (coreAt stalled 0).st.run = some r ∧ r.phase = .running ∧ r.isOver = true ∧ completeAt stalled 0 r = none ∧ outstanding stalled 0 r = false ∧
      drainAwaited (coreAt stalled 0) stalled.clk.cyc = false) ∧
    ({ on.time with idleGate := true }.idleGate = true ∧ present on 0 = true ∧ (coreAt on 0).st.run = none ∧ (coreAt on 0).st.swatchAt = none ∧
      (coreAt on 0).st.gated = false) :=
  ⟨⟨_, _, rfl, rfl⟩, ⟨_, rfl, rfl, rfl, rfl⟩, ⟨_, rfl, rfl, rfl, rfl, rfl, rfl⟩, rfl, rfl, rfl, rfl, rfl⟩

/-- Submission ring 0 holds an entry whose first byte is q and whose byte 8, of its list's address, is a; partition 0 has a turn. -/
def submitted (q a : Byte) : State := { active with
  disp := { active.disp with
    subs := [{ en := true, sizeLog2 := 6, tail := 1 }, {}, {}, {}, {}, {}, {}, {}]
    turns := [some ⟨0, 1000⟩, none, none, none] }
  host := { cells := [(0, q), (8, a)] }
  clk := { active.clk with gtc := 200000 } }

/-- The entry at the head of ring 0. -/
def firstEntry (s : State) : SubEntry := subEntryOf (BitVec.ofNat 512 (s.host.rdLe 0 64))

theorem witness_SubmissionsAndTurns :
    (canFetch (submitted 1 0x20) 0 = true ∧ (firstEntry (submitted 1 0x20)).seq = 1 ∧ (firstEntry (submitted 1 0x20)).ok (submitted 1 0x20) = true) ∧
    (canFetch (submitted 1 1) 0 = true ∧ (firstEntry (submitted 1 1)).seq = 1 ∧ (firstEntry (submitted 1 1)).ok (submitted 1 1) = false) ∧
    (canFetch (submitted 0 1) 0 = true ∧ (firstEntry (submitted 0 1)).seq = 0 ∧ (subAt (submitted 0 1) 0).highSeq = 0) ∧
    (lcOccupied (submitted 1 0) 0 = false ∧ turnEndIn (offNs (submitted 1 0)) (freeIvs (submitted 1 0) 0) 1000 = some 1000) := by decide +kernel

/-- A best-effort job of one command waits on ring 0; its entry's second byte is u; core 0 has a range of 8 units. -/
def waiting (u : Byte) : State := { submitted 1 0 with
  disp := { (submitted 1 0).disp with
    subs := [{ en := true, sizeLog2 := 6, tail := 1, job := some { seq := 1, tag := 0, clist := 0, cnt := 1 } }, {}, {}, {}, {}, {}, {}, {}] }
  glb := { active.glb with pat := items ++ [⟨4, 5, 0, 8⟩] }
  drc := { active.drc with mem := { cells := [(1, u)] } } }

theorem witness_BestEffort :
    ((subAt (waiting 2) 0).job.bind BeJob.nextCmd) = some 0 ∧ beMay (waiting 2) 0 = true ∧
    listEntryBad (readRun .dram none 0 32 (waiting 2)) 0 (listEntryOf (BitVec.ofNat 256 ((readRun .dram none 0 32 (waiting 2)).drc.mem.rdLe 0 32))) = none ∧
    beMay (waiting 9) 0 = true ∧
    listEntryBad (readRun .dram none 0 32 (waiting 9)) 0 (listEntryOf (BitVec.ofNat 256 ((readRun .dram none 0 32 (waiting 9)).drc.mem.rdLe 0 32))) = some (0x23, some 3) ∧
    beMay (passToCyc (readRun .dram none 0 32 (waiting 2)) (coreAt (readRun .dram none 0 32 (waiting 2)) 0).st.idleAt) 0 = true ∧
    (coreAt (waiting 2) 0).st.run = none ∧ (coreAt (waiting 2) 0).st.swatchAt = none ∧ (coreAt (waiting 2) 0).st.swatchDue = false ∧
    patActive (waiting 2) = true := by decide +kernel

theorem witness_TickStarts : patActive active = true ∧ active.glb.unloadPend = false ∧ { active.glb with unloadPend := true }.unloadPend = true := by decide

theorem witness_StagesOpenAndClose :
    (∃ g, stageAt active 1 = some g ∧ 1 ∉ active.disp.opened ∧ g.compute = true ∧ 1 ∉ active.disp.closed) ∧
    (∃ st g, intakeStage active = some (st, g) ∧ st ∉ active.disp.closed) ∧
    (usesPart active 0 = true ∧ 0 ∉ active.disp.settled) ∧
    { on.kfs with walkEnd := some 32768 }.walkEnd = some 32768 ∧ on.kfs.walkEnd = none :=
  ⟨⟨_, rfl, by decide, rfl, by decide⟩, ⟨_, _, rfl, by decide⟩, ⟨rfl, by decide⟩, rfl, rfl⟩

/-- Core 0 is to run its swatch, or began it in cycle 0; it failed the last one. -/
def swatching (due : Bool) : State := core0 (fun k => { k with st := { k.st with swatchDue := due, swatchAt := if due then none else some 0, swFail := 1 } }) active

theorem witness_Swatch : ((coreAt (swatching true) 0).st.swatchDue = true ∧ (coreAt (swatching true) 0).st.run = none ∧ swatchCore (swatching true) 0 = true) ∧
    ((coreAt (swatching false) 0).st.swatchAt = some 0 ∧ offNs (passToCyc (swatching false) 49152) ≤ 100000) ∧
    inService (swatching true) (dCore 0) = true ∧ (coreAt on 0).st.swFail = 0 ∧ (coreAt (swatching true) 0).st.swFail ≠ 0 := by decide

/-- A frame of camera stream 0 is running, with a discard reason or an error. -/
def filming (d e : Option Nat) : State := { active with siu := { active.siu with cams := [some { capture := 0, frameNo := 0, discard := d, err := e }] } }

theorem witness_CameraFrames : CameraPacket active 0 0 ∧ CameraPacket (filming none none) 0 0 ∧
    (∃ cam, (filming none none).siu.cams.getD 0 none = some cam ∧ cam.discard = none ∧ cam.err = none) ∧
    (∃ cam, (filming (some 2) none).siu.cams.getD 0 none = some cam ∧ cam.discard = some 2) ∧
    (∃ cam, (filming none (some 7)).siu.cams.getD 0 none = some cam ∧ cam.discard = none ∧ cam.err = some 7) ∧
    dtKnown (0x2C#6).toNat = true ∧ streamEn active 1 = false :=
  ⟨⟨rfl, rfl, rfl, rfl, by decide, by decide, rfl⟩, ⟨rfl, rfl, rfl, rfl, by decide, by decide, rfl⟩, ⟨_, rfl, rfl, rfl⟩, ⟨_, rfl, rfl⟩,
    ⟨_, rfl, rfl, rfl⟩, rfl, rfl⟩

/-- The sweep of stream 32 is closed; a result of stream 0 waits. -/
def swept : State := { active with siu := { active.siu with sweeps := [{ closed := some 0 }, {}, {}, {}], results := [⟨0, 0, 0, 0, 0, 0, 0, false, 0⟩] } }

theorem witness_LidarSweeps :
    let bcast : List Byte := List.replicate 6 0xFF ++ List.replicate 54 0
    let other : List Byte := [1, 0x80, 0xC2] ++ List.replicate 57 0
    let ptp : List Byte := List.replicate 12 0xFF ++ [0x88, 0xF7] ++ List.replicate 46 0
    addressOk active 0 bcast = true ∧ isPtp bcast = false ∧ addressOk active 0 other = false ∧ isPtp ptp = true ∧
    (matchFrame (template active 32) bcast).isSome = true ∧ (patActive active = true ∧ streamEn active 32 = true) ∧ bcast.length + 4 ≤ 9216 ∧
    streamEn active 33 = false ∧ inService active dFST = true ∧
    inService { active with dru := { active.dru with doms := upd active.dru.doms dFST fun k => { k with phase := 5 } } } dFST = false ∧
    (intakeLive active = true ∧ streamEn active 32 = true ∧ (sweepAt active 0).closed = none) ∧
    (intakeLive swept = true ∧ (nextFlush swept 0).bind Sweep.closed = some 0) ∧
    (swept.siu.results.find? fun (r : SampleRes) => r.stream == 0).isSome = true := by decide +kernel

/-- The tile ring has a descriptor for stream n at DRAM address 0. -/
def tiled (n : Byte) : State := { active with
  siu := { active.siu with tring := { en := true, tail := 1 } }
  drc := { active.drc with mem := { cells := [(12, n)] } } }

/-- A tile of stream 36 is in the decoder. -/
def decoding (e : Option Nat) (cached : Bool) (cost : Nat) (ins : Option Nat) : State := { active with siu := { active.siu with
  tile := some { stream := 36, header := [], admitAt := 0, capture := 0, at_ := 0, cost := cost, err := e, cached := cached, insertAt := ins } } }

/-- A PRIOR tile of 2 x 1 cells is being inserted. -/
def priorTile : State := { active with siu := { active.siu with
  tile := some { stream := 36, header := [0, 0, 0, 0, 2, 0, 1], admitAt := 0, capture := 0, at_ := 0, cost := 0, insertAt := some 0 } } }

theorem witness_PackedTiles : canFetchTile (tiled 36) = true ∧ bitsAt ((tiled 36).drc.mem.rdLe 0 32) 96 6 = 36 ∧ streamEn (tiled 36) 36 = true ∧
    startedIn (tiled 36) 36 (tiled 36).time.tick = false ∧ streamEn (tiled 47) 47 = false ∧ bitsAt ((tiled 47).drc.mem.rdLe 0 32) 96 6 = 47 ∧
    (∃ t, (decoding none false 0 none).siu.tile = some t ∧ t.insertAt = none ∧ t.cost ≤ budget (decoding none false 0 none) t.stream ∧
      intakeLive (decoding none false 0 none) = true) ∧
    (∃ t, (decoding none false 1 none).siu.tile = some t ∧ budget (decoding none false 1 none) t.stream < t.cost ∧
      intakeLive (decoding none false 1 none) = true) ∧
    (∃ t a, (decoding none false 0 (some 0)).siu.tile = some t ∧ t.insertAt = some a ∧ inserting (decoding none false 0 (some 0)) t = true ∧
      (tileHdrOf t.header).w * (tileHdrOf t.header).h ≤ t.inserted + 1) ∧
    (∃ t a, (priorTile).siu.tile = some t ∧ t.insertAt = some a ∧ inserting priorTile t = true ∧
      t.inserted + 1 < (tileHdrOf t.header).w * (tileHdrOf t.header).h) :=
  ⟨by decide, by decide, by decide, by decide, by decide, by decide, ⟨_, rfl, rfl, by decide, rfl⟩,
    ⟨_, rfl, by decide, rfl⟩, ⟨_, _, rfl, rfl, rfl, by decide⟩, ⟨_, _, rfl, rfl, rfl, by decide⟩⟩

/-- Little-endian bytes of a number at an address, the zeros left out. -/
def cellsAt (a n v : Nat) : List Host.Cell := ((leBytes n v).mapIdx fun i b => (a + i, b)).filter fun c => c.2 != 0

/-- Directory entry of a section of a Pattern image: type, offset, length, CRC (13, R328). -/
def dirCells (ty off len crc : Nat) : List Host.Cell :=
  cellsAt (256 + 16 * (ty - 1)) 1 ty ++ cellsAt (260 + 16 * (ty - 1)) 4 off ++ cellsAt (264 + 16 * (ty - 1)) 4 len ++ cellsAt (268 + 16 * (ty - 1)) 4 crc

/-- Items of a section that begins at `off` (R329). -/
def itemCells (off : Nat) (l : List (Nat × Nat × Nat)) : List Host.Cell :=
  cellsAt off 4 l.length ++ (l.mapIdx fun k x =>
    cellsAt (off + 16 + 16 * k) 2 x.1 ++ cellsAt (off + 18 + 16 * k) 2 x.2.1 ++ cellsAt (off + 24 + 16 * k) 8 x.2.2).flatten

/-- A Pattern image of one INTAKE stage, staged at DRAM address 0. Its CRCs were worked out outside Lean. -/
def imageCells : List Host.Cell :=
  cellsAt 0 4 0x54504854 ++ cellsAt 4 2 1 ++ cellsAt 6 1 1 ++ cellsAt 8 4 3328 ++ cellsAt 12 4 0x16cc5936 ++
  dirCells 1 512 16 0x42709aea ++ dirCells 2 768 112 0x46583435 ++ dirCells 3 1024 16 0x42709aea ++ dirCells 4 1280 16 0x42709aea ++
  dirCells 5 1536 16 0x42709aea ++ dirCells 6 1792 112 0x9d316164 ++ dirCells 7 2048 16 0x42709aea ++ dirCells 8 2304 272 0x3df81189 ++
  dirCells 9 2816 16 0x42709aea ++ dirCells 10 3072 16 0x42709aea ++
  itemCells 768 [(1, 0, 9000000), (3, 0, 1), (0x10, 0, 0), (0x11, 0, 0), (0x12, 0, 200000), (0x13, 0, 0)] ++
  itemCells 1792 [(1, 0, 0), (1, 1, 0), (2, 0, 0x3000000), (2, 1, 0x3AA000000), (3, 0, 0), (3, 1, 11)] ++
  itemCells 2304 ((List.range 16).map fun c => (0x10, c, 0))

/-- The image is staged; the byte at 6, its GRADE_MASK, is m. -/
def staged : State := { on with drc := { on.drc with trained := true, mem := { cells := imageCells } } }

/-- crc32c's state after some bytes, byte by byte in numbers, which the kernel evaluates step by step. -/
def crcRun : List Byte → BitVec 32 → BitVec 32
  | [], c => c
  | b :: bs, c => match (crcByte 0x82F63B78 c b).toNat with
    | 0 => crcRun bs 0
    | n + 1 => crcRun bs (BitVec.ofNat 32 (n + 1))

theorem crcRun_eq (bs : List Byte) (c : BitVec 32) : crcRun bs c = bs.foldl (crcByte 0x82F63B78) c := by
  induction bs generalizing c with
  | nil => rfl
  | cons b bs ih =>
    rw [crcRun, List.foldl_cons]
    split
    · rename_i h
      rw [ih, show crcByte 0x82F63B78 c b = 0 from BitVec.eq_of_toNat_eq h]
    · rename_i n h
      rw [ih, show n + 1 = _ from h.symm, BitVec.ofNat_toNat, BitVec.setWidth_eq]

theorem crc32c_eq (bs : List Byte) : crc32c bs = ~~~(crcRun bs 0xFFFFFFFF) := by rw [crcRun_eq]; rfl

theorem hdrCrc_staged : (stagedAt staged 0).hdrCrc = 0x16cc5936#32 := by rw [Staged.hdrCrc, crc32c_eq]; decide +kernel

theorem crcOk_staged (ty : Nat) (h : ty ∈ (List.range 10).map (· + 1)) : (stagedAt staged 0).crcOk ty = true := by
  rw [Staged.crcOk, crc32c_eq]
  revert ty
  decide +kernel

theorem hdrFail_staged : (stagedAt staged 0).hdrFail (dramGenEnd staged) = none := by
  rw [Staged.hdrFail, hdrCrc_staged]
  decide +kernel

theorem witness_staged_image_form : formFail staged (stagedAt staged 0) = none := by
  have hc : (stagedAt staged 0).crcFail = none := List.find?_eq_none.2 fun ty h => by simp [crcOk_staged ty h]
  have hd : (stagedAt staged 0).dirFail = none := by decide +kernel
  rw [formFail, hdrFail_staged, hd, hc]
  decide +kernel

theorem witness_staged_image_content : contentFail (withItems staged (stagedAt staged 0)) (stagedAt staged 0) = none := by decide +kernel

/-- A reset state with the time unit in a mode. -/
def timed (f : TimeU → TimeU) : State := { on with time := f on.time }

theorem witness_Measurements : (timed fun t => { t with mode := 2 }).rst.inReset = false ∧
    ¬ (patLive on = true ∧ 1000000 < (rneDiv (((5 : Gtc).toNat : Int) - on.time.ppsDelay.toInt) 1000000000).natAbs) ∧ patLive active = true ∧
    (timed fun t => { t with servoEn := true }).time.autostep = true ∧ patLive on = false ∧ on.time.servoEn = false ∧
    holdoverNs (timed fun t => { t with mode := 1 }).time = some 3000000000 ∧ holdoverNs (timed fun t => { t with mode := 4 }).time = some 100000 ∧
    on.time.holdover = false := by decide

/-- The detectors' re-arm times are a list, the edge of a stretched cycle. -/
def drooped (l : List Nat) (stretch : Nat) : State := { on with clk := { on.clk with droopArmAt := l, stretch := stretch } }

theorem witness_TimeWritesAndPins : on.Ready ∧ (timed fun t => { t with ppsOutEn := true }).Ready ∧
    syncOutNs (timed fun t => { t with syncOutAt := 5 }) = some 5 ∧ (timed fun t => { t with syncOutAt := 5 }).Ready ∧
    (drooped [64] 0).clk.sub = 0 ∧ (drooped [64] 0).clk.cyc < (drooped [64] 0).clk.droopArmAt.getD 0 0 ∧
    ((drooped [64] 1).clk.droopArmAt.getD 1 0 ≤ (drooped [64] 1).clk.cyc ∧ (drooped [64] 1).clk.stretch ≠ 0) ∧
    ((drooped [64] 0).clk.droopArmAt.getD 1 0 ≤ (drooped [64] 0).clk.cyc ∧ (drooped [64] 0).clk.stretch = 0) ∧ patLive on = false ∧ patLive active = true :=
  ⟨⟨rfl, rfl, rfl, rfl⟩, ⟨rfl, rfl, rfl, rfl⟩, rfl, ⟨rfl, rfl, rfl, rfl⟩, rfl, by decide, by decide, by decide, rfl, rfl⟩

/-- A Pattern state. -/
def pattern (n : Nat) (s : State) : State := { s with glb := { s.glb with patState := n } }

theorem witness_PatternLife : patLive active = true ∧ { on.rst with minimal := true }.minimal = true ∧
    (patLive staged = false ∧ staged.rst.minimal = false ∧ staged.rst.inReset = false ∧ staged.glb.patAddr = 0) ∧
    formFail on (stagedAt on 0) = some (0, 3, 0) ∧
    ((pattern 2 staged).glb.patState = 2 ∧ dramUp (pattern 2 staged) = true) ∧ (pattern 3 staged).rst.inReset = false ∧
    (subAt (submitted 1 0) 0).en = true ∧ (∀ r < 8, (subAt (pattern 3 on) r).en = false) ∧ (∀ r < 8, (subAt (pattern 4 on) r).en = false) := by
  decide

/-- The image without its last item: a load of it fails at step 9. -/
theorem witness_PatternLife_content : contentFail (withItems on (stagedAt on 0)) (stagedAt on 0) = some (1, 9, 0) := by decide +kernel

/-- The host's function is configured. -/
def hosted : State := { active with pci := { active.pci with configured := true } }

/-- Minimal Recovery Mode. -/
def minimal : State := { on with rst := { on.rst with minimal := true } }

theorem witness_RegisterAccess :
    (accepts (0x200104#26).toNat 1 true = true ∧ accepts (0x200104#26).toNat 2 true = true) ∧ accepts 0x200105 1 true = false ∧
    accepts 0x200104 3 true = false ∧ accepts 0x200104 1 false = false ∧ accepts 0xC00000 1 true = false ∧
    (let s : State := { active with pci := { active.pci with d3hot := true } }; hostReaches s = true ∧ barsOn s = false) ∧ (hostReaches hosted = true ∧ barsOn hosted = true) ∧
    (fltBlockOf 0x1000020).isSome = true ∧ regIdx (0x401000#26).toNat 0x401000 4 384 = some 0 ∧ ringRegAt 0x400100 = some (.cring, 0) ∧
    (heldOff minimal 0x400100 = true ∧ heldOff on 0x400100 = false ∧ on.rst.minimal = false) ∧
    { ({} : Ring) with en := true }.en = true ∧ ({} : Ring).en = false ∧ bitAt (0x100#32) 8 = true ∧
    (1 ≤ (pattern 1 on).glb.patState ∧ (pattern 1 on).glb.patState ≤ 3) ∧ on.glb.patState = 0 ∧ ({} : SubRing).en = false ∧
    { on.glb with badRegs := [8] }.badRegs.contains 8 = true ∧ on.glb.badRegs.contains 8 = false ∧
    isLo 0x108 = true ∧ isLo 0x10C = false ∧ assoc { on with loHost := [(0x10C, 7)] }.loHost 0x10C = some 7 ∧ on.Ready := by
  refine ⟨by decide, by decide, by decide, by decide, by decide, by decide, by decide, by decide, by decide, by decide, by decide, by decide,
    by decide, by decide, by decide, by decide, by decide, by decide, by decide, by decide, by decide, by decide, rfl, rfl, rfl, rfl⟩

/-- Source 2 of core 0 has fired in this cycle: really, or by a force. -/
def firedNow (force : Bool) : State := fire { b := bCC 0, src := 2, force := force } on

theorem witness_FaultFires :
    (srcInfo (bCC 0) 2).map (fun i => (effLevel (bCC 0) i.cls ((fltAt on (bCC 0)).atStart on.clk.cyc) ((fltAt on (bCC 0)).sev.getD 2 0)).1) = some 3 ∧
    bCC 0 < on.flt.length ∧ ((fltAt (firedNow false) (bCC 0)).inCycle 0).fired.getLsbD 2 = true ∧
    ((fltAt on (bCC 0)).inCycle 0).fired.getLsbD 2 = false ∧
    ((fltAt (firedNow true) (bCC 0)).inCycle 0).joins { b := bCC 0, src := 2 } = true ∧ ((fltAt on (bCC 0)).inCycle 0).joins { b := bCC 0, src := 2 } = false ∧
    blockDomain (bCC 0) = some 1 ∧ inService on 1 = true ∧ present on 0 = true ∧
    (srcInfo bDRU 0).map (fun i => (effLevel bDRU i.cls ((fltAt on bDRU).atStart on.clk.cyc) ((fltAt on bDRU).sev.getD 0 0)).1) = some 4 ∧ on.glb.safe = false ∧ on.Ready :=
  ⟨by decide, by decide, by decide, by decide, by decide, by decide, rfl, by decide, by decide, by decide, rfl, rfl, rfl, rfl, rfl⟩

/-- The lifecycle of the fuses that the device has read. -/
def lifeField : State := { on with mgt := { on.mgt with otp := { on.mgt.otp with lc := 3 } } }

theorem witness_FaultRegisterWrites : (on.Ready ∧ (∀ b : Fin 36, deadBlock on b = false ∧ b.val < on.flt.length)) ∧ forced 0 false 1#32 ≠ [] ∧
    (pattern 3 on).glb.patState ≠ 0 ∧ (pattern 3 on).glb.patState ≠ 5 ∧ on.glb.patState = 0 ∧
    lifecycle lifeField = 2 ∧ lifecycle on ≠ 2 ∧ present on 15 = true ∧ minimal.rst.minimal = true ∧ lifeField.Ready :=
  ⟨⟨⟨rfl, rfl, rfl, rfl⟩, by decide⟩, by decide, by decide, by decide, rfl, by decide, by decide, by decide, rfl, rfl, rfl, rfl, rfl⟩

/-- A domain in a phase of its restart. -/
def phased (d n : Nat) (s : State) : State := { s with dru := { s.dru with doms := upd s.dru.doms d fun k => { k with phase := n } } }

/-- Its time is over. -/
def overdue (s : State) : State := { s with clk := { s.clk with ns := 10 ^ 9 } }

theorem witness_Recovery : on.dru.started = false ∧ { on.dru with started := true }.armed = false ∧
    { on.dru with armed := true, last := 4 }.last + 1 = (5#32).truncate 16 ∧ restartable on 1 = true ∧
    ((domAt (fenceDomain 1 on) 1).phase = 1 ∧ (domAt (fenceDomain 1 on) 1).frozen = false ∧ reloads (fenceDomain 1 on) 1 = false) ∧
    (domAt (phased 1 5 on) 1).phase ≠ 1 ∧ restartable (phased 1 5 on) 1 = false ∧
    (domAt (phased 17 1 on) 17).phase = 1 ∧ (domAt (phased 17 1 on) 17).frozen = false ∧ (phased 17 1 on).clk.ns ≤ boundAt (phased 17 1 on) 17 ∧
    Machine.drained (phased 17 1 on) 17 = true ∧
    (let s := core0 (fun k => { k with st := { k.st with run := some {} } }) (phased 1 1 on)
     (domAt s 1).phase = 1 ∧ (domAt s 1).frozen = false ∧ Machine.drained s 1 = false) ∧
    ((domAt (phased 18 2 on) 18).phase = 2 ∧ (phased 18 2 on).clk.ns ≤ boundAt (phased 18 2 on) 18) ∧
    ((domAt (phased 19 3 on) 19).phase = 3 ∧ (phased 19 3 on).clk.ns ≤ boundAt (phased 19 3 on) 19) ∧
    boundAt (overdue (phased 18 3 on)) 18 < (overdue (phased 18 3 on)).clk.ns ∧
    ((domAt (phased 18 4 active) 18).phase = 4 ∧ (phased 18 4 active).clk.ns ≤ boundAt (phased 18 4 active) 18 ∧ reloads (phased 18 4 active) 18 = true ∧
      dramUp (phased 18 4 active) = true) ∧
    ((domAt (phased 18 4 on) 18).phase = 4 ∧ (phased 18 4 on).clk.ns ≤ boundAt (phased 18 4 on) 18 ∧ reloads (phased 18 4 on) 18 = false) := by decide

/-- A word of bank 0 of the Frame Store waits for its write-back. -/
def corrected : State := { on with fst := { on.fst with mem := { on.fst.mem with wb := [0] } } }

theorem witness_Scrubs : scrubRuns on .fst = true ∧ 0 < ScrubMem.fst.banks ∧
    ((on.clk.cyc - on.clk.tickCyc) % 256 = 0 ∧ (memOf on (scrubMem on .fst 0)).scrubbed.getD 0 0 ≠ on.clk.cyc + 1) ∧
    (on.clk.gtc.toNat % 4000 = 0 ∧ on.drc.patrolAt.getD 0 none ≠ some on.clk.gtc) ∧ pendingWb corrected .fst 0 = some (.fst, 0) ∧ pendingWb on .fst 0 = none ∧
    dramUp active = true ∧ on.rst.inReset = false ∧ (5 : Nat) ∉ on.mgt.sram.ue ∧ (5 : Nat) ∈ { on.mgt.sram with ue := [5] }.ue ∧
    (5 : Nat) ∈ { on.mgt.sram with ce := [5] }.ce ∧ (5 : Nat) ∉ on.mgt.sram.ce := by decide

/-- Core 0 runs its swatch or a command. -/
def stepping (t : Option Nat) : State := core0 (fun k => { k with st := { k.st with swatchAt := t } }) on

theorem witness_Monitors : patActive active = true ∧ dramUp active = true ∧
    active.glb.readbackAt + readbackTicks active ≤ active.time.tick + 1 ∧
    (let s : State := { active with glb := { active.glb with readbackAt := active.time.tick + 1 } }
     patActive s = true ∧ dramUp s = true ∧ s.time.tick + 1 < s.glb.readbackAt + readbackTicks s) ∧ 100 * (600#16).toNat < 92 * setPoint on 0 ∧
    (92 * setPoint on 0 ≤ 100 * (750#16).toNat ∧ 100 * (750#16).toNat ≤ 108 * setPoint on 0) ∧ (List.replicate 24 (0#16)).length = 24 ∧
    (present on 0 = true ∧ inService on (dCore 0) = true) ∧ (coreAt (stepping (some 3)) 0).st.swatchAt = some 3 ∧
    ((coreAt on 0).st.swatchAt = none ∧ (coreAt on 0).st.run = none) ∧ (coreAt (running on) 0).st.run.isSome = true := by decide

/-- Port 0 changed. -/
def port0 (f : Port → Port) (s : State) : State := { s with hrn := { s.hrn with ports := upd s.hrn.ports 0 f } }

/-- Port 0 is UP. -/
def linked : State := port0 (fun k => { k with up := true }) on

theorem witness_LinksTrainAndMeasure : ((portAt on 0).up = false ∧ portLive on 0 = true ∧ on.Ready) ∧ PortUp linked 0 ∧
    (0 ≠ { linked.time with upPort := 1 }.upPort ∧ linked.time.upPort = 0) ∧
    (let t2 : Word := BitVec.ofNat 32 (2 * linked.clk.gtc.toNat); 20000 < (t2 - 5#32).toNat ∧ (t2 - 0#32).toNat ≤ 20000) ∧ (pattern 3 on).glb.patState = 3 ∧
    patInUse linked = false ∧ (0 < linked.hrn.ports.length ∧ skipSlot 1023 = true ∧ skipSlot 15 = false) ∧ (patInUse (pattern 4 linked) = true ∧ identMatches (pattern 4 linked) 0 0 0 0 = true ∧
      identMatches (pattern 4 linked) 0 1 0 0 = false) :=
  ⟨⟨rfl, rfl, rfl, rfl, rfl, rfl⟩, ⟨rfl, rfl, rfl⟩, by decide, by decide, rfl, rfl, by decide, rfl, rfl, rfl⟩

/-- A flit of zeros but for two bytes of its header, with the CRC that is given. -/
def flitOf (b0 b3 : Byte) (crc : Nat) : List Byte := ([b0, 0, 0, b3] ++ List.replicate 244 0) ++ (leBytes 4 crc ++ List.replicate 4 0)

theorem flitOf_take (b0 b3 : Byte) (crc : Nat) : (flitOf b0 b3 crc).take 248 = [b0, 0, 0, b3] ++ List.replicate 244 0 := List.take_left' (by rfl)

theorem witness_Flits : ([] : List Byte).length ≠ 256 ∧ PortUp linked 0 ∧
    (∀ x ∈ [((0 : Byte), (0 : Byte), 0xd2d134a2), (1, 0, 0x6b311f24), (0, 4, 0x9487d51c), (0, 0, 5)], (flitOf x.1 x.2.1 x.2.2).length = 256 ∧
      ((crc32c ((flitOf x.1 x.2.1 x.2.2).take 248)).toNat = leAt (flitOf x.1 x.2.1 x.2.2) 248 4 ↔ x.2.2 ≠ 5)) ∧
    (bitsAt (leAt (flitOf 0 4 0x9487d51c) 0 8) 25 2 = 2 ∧ bitsAt (leAt (flitOf 1 0 0x6b311f24) 0 8) 0 12 = 1 ∧ bitsAt (leAt (flitOf 0 0 0xd2d134a2) 0 8) 0 12 = 0 ∧
      bitsAt (leAt (flitOf 0 0 0xd2d134a2) 0 8) 25 2 = 0) ∧
    (portAt (port0 (fun k => { k with replay := [{ seq := 0, vc := 0, payload := [], sentAt := 0 }] }) linked) 0).replay =
      [{ seq := 0, vc := 0, payload := [], sentAt := 0 }] ∧
    (portAt (port0 (fun k => { k with redo := [0] }) linked) 0).redo = 0 :: [] := by
  refine ⟨by decide, ⟨rfl, rfl, rfl⟩, fun x h => ?_, by decide +kernel, rfl, rfl⟩
  rw [flitOf_take, crc32c_eq]
  revert x
  decide +kernel

/-- A request for this device, from device 1. -/
def request (ty rid : Nat) : Msg := { ty := ty, be := false, src := 1, dst := 0, rid := rid, space := 1, len := 4 }

/-- A Pattern with an import window of device 1 at the beginning of the Frame Store. -/
def importing : State := { linked with glb := { linked.glb with patState := 4, pat := [⟨6, 1, 0, 0⟩, ⟨6, 2, 0, 4096⟩, ⟨6, 3, 0, BitVec.ofNat 64 (4 * 2 + 1 * 16 + 3 * 256)⟩] } }

/-- Device 1's identifiers up to h have been seen, its write w carried out; a request to it is outstanding. -/
def peered (h w : Nat) : State :=
  let r : RemReq := { rid := 9, core := 0, run := 0, store := false, seq := 0, lc := true, write := false, pos := 0, len := 4, port := 0, due := 100, sentAt := 0 }
  { importing with hrn := { importing.hrn with peers := upd importing.hrn.peers 1 fun k => { k with high := some h, executed := [w], out := [r] } } }

theorem witness_RemoteMessages : PortUp linked 0 ∧ (portAt linked 0).stopped = false ∧ ([0] : List Byte).length = (msgOf 0).len ∧ ([] : List Byte).length ≠ (msgOf 0).len ∧
    (request 1 0).dst = devId importing ∧ { request 1 0 with dst := 2 }.dst ≠ devId importing ∧
    (peerAt (peered 5000 9) 1).tooOld 0 = true ∧ (peerAt (peered 5 9) 1).tooOld 9 = false ∧
    (9 ∈ (peerAt (modPeer (peered 5 9) 1 fun k => k.sawRid 9) 1).executed) ∧ (9 ∉ (peerAt (modPeer (peered 5 8) 1 fun k => k.sawRid 9) 1).executed) ∧
    cannotServe importing (request 1 0) = false ∧ windowOk importing (request 1 0) = true ∧ windowOk importing { request 1 0 with addr := 4096 } = false ∧
    cannotServe { importing with dru := { importing.dru with doms := upd importing.dru.doms dFST fun k => { k with phase := 5 } } } (request 1 0) = true ∧
    answers importing 0 { request 3 9 with src := 0 } = none ∧ (findReq importing 1 9).isNone = true ∧ (findReq (peered 5 8) 1 9).isSome = true ∧
    (let s : State := core0 (fun k => { k with st := { k.st with run := some {} } }) (peered 5 8)
     ((findReq s 1 9).map fun q => q.lc && !q.missed && reqAlive s q) = some true) := by
  refine ⟨⟨rfl, rfl, rfl⟩, ?_⟩
  decide

theorem witness_SideChannel : PortUp linked 0 ∧
    (let body := sideBody 1 7 18 1 1 7 0 false; sideGood body = true ∧ fld body 7 0 = 3 ∧ 6 ≤ fld body 23 16) ∧ (∀ k : Fin 5, let body := sideBody 1 (k.val + 1) 18 1 1 7 0 false
      sideGood body = true ∧ fld body 7 0 = 3 ∧ fld body 23 16 = k.val + 1 ∧ (fld body 10 8, fld body 63 48) = (1, 7)) ∧
    (1, 7) ∉ linked.hrn.seen ∧ linked.Ready ∧
    (portAt (port0 (fun k => { k with sides := [{ body := 0, sentAt := 0 }] }) linked) 0).sides = [{ body := 0, sentAt := 0 }] ∧
    (portAt (port0 (fun k => { k with sides := [{ body := 0, sentAt := 0, resends := 8 }] }) linked) 0).sides = [{ body := 0, sentAt := 0, resends := 8 }] :=
  ⟨⟨rfl, rfl, rfl⟩, by decide +kernel, by decide +kernel, by decide, ⟨rfl, rfl, rfl, rfl⟩, rfl, rfl⟩

theorem witness_HostWindows : hostReaches hosted = true ∧ bar2Refuses hosted 0 4 = false ∧ bar2Refuses hosted 0x2FFFFFF 4 = true ∧
    bar4Refuses hosted 0 4 = false ∧ bar4Refuses hosted (dramU hosted) 4 = true ∧
    (∃ c ∈ enabledCells (dramGenEnd hosted) [(1, true)], dramGenEnd hosted ≤ c.1) ∧ (∀ c ∈ enabledCells 0 [(1, true)], c.1 < dramGenEnd hosted) := by decide

/-- A vector of completion ring 0 is deferred. -/
def deferred : State := modRing (.cpl 0) (fun k => { k with vecDue := true, vecAt := some 7 }) hosted

theorem witness_PciEndpoint : (hosted.Ready ∧ hostReaches hosted = true) ∧ hosted.pci.dlActive = true ∧ inService hosted dPCI = true ∧ linkRuns 5 8 = true ∧ wantsFetch (submitted 1 0) 0 = true ∧
    hostReaches (submitted 1 0) = true ∧ (ringAt deferred (ringOfNum 0)).vecDue = true ∧ (ringAt deferred (ringOfNum 0)).vecAt = some 7 :=
  ⟨⟨⟨rfl, rfl, rfl, rfl⟩, rfl⟩, rfl, rfl, by decide, by decide, rfl, rfl, rfl⟩

/-- The mailbox runs the command of a code; the last second's counts are due, and the flash fails. -/
def mailing (busy : Bool) (code : Nat) : State := { hosted with mgt := { hosted.mgt with
  busy := busy, cmd := BitVec.ofNat 32 code, lifeTenths := 9, flashBad := true } }

theorem witness_MailboxAndLifetime : ((mailing true 1).mgt.busy = true ∧ fld (mailing true 1).mgt.cmd 7 0 = 1 ∧ fld (mailing true 1).mgt.cmd 7 0 ≠ 2) ∧
    (mailing false 1).mgt.busy = false ∧ mbxReached (mailing false 1) = true ∧ on.rst.minimal = false ∧ on.Ready ∧ on.mgt.flashBad = false ∧
    (mailing false 1).mgt.flashBad = true ∧ lcAllowed lifeField 3 = true ∧ lcAllowed on 3 = false ∧ (bootChoice on.mgt).2 = false ∧
    (mailing false 1).mgt.lifeTenths = 9 :=
  ⟨by decide, rfl, rfl, rfl, ⟨rfl, rfl, rfl, rfl⟩, rfl, rfl, by decide, by decide, by decide, rfl⟩

/-- In reset, with a pin low, a detector asserted, the XTAL clock gone, or a monitor out of range. -/
def held (pin por xtal : Bool) (out : List Nat) : State := { State.reset with rst := { State.reset.rst with
  pinLow := pin, porOn := por, noXtal := xtal, monOut := out } }

theorem witness_ResetSources : on.rst.inReset = false ∧ ((held true false false []).rst.inReset = true ∧ (held true false false []).rst.pinLow = true ∧
      (held true false false []).rst.porOn = false ∧ (held true false false []).rst.noXtal = false ∧ (held true false false []).rst.monOut = []) ∧
    ((held false true false []).rst.porOn = true ∧ (held false true false []).rst.pinLow = false) ∧
    ((held false false true []).rst.noXtal = true ∧ (held false false true [3]).rst.monOut ≠ []) ∧
    (inVolts (held false false false [0]) 0 (BitVec.ofNat 32 (2 ^ 31 + 750)) = true ∧
      inVolts (held false false false [0]) 0 (BitVec.ofNat 32 (2 ^ 31 + 600)) = false) ∧
    (on.Ready ∧ on.rst.ready = false ∧ on.rst.late = false) ∧ Instr.isReset .flush State.reset = false ∧ Instr.isTck .flush = false ∧
    Instr.wellFormed .flush = true ∧ State.reset.pending = [] :=
  ⟨rfl, by decide, by decide, by decide, by decide, ⟨⟨rfl, rfl, rfl, rfl⟩, rfl, rfl⟩, rfl, rfl, rfl, rfl⟩

theorem witness_TestAccessPort : pinsOff State.reset = true ∧ pinsOff on = false ∧ ({ on.tap with st := .shDr } : Tap).st = .shDr := by decide

/-! ### Worked figures of the spec -/

/-- 02, R47's example. -/
theorem test_requantise : requant ⟨-2000, 1518500250, 41, -5⟩ (-128) 127 123456#40 = 79 := by decide +kernel

/-- 02, R60's example: 2 to the power −1.5. -/
theorem test_exp2 : exp2W (BitVec.ofInt 32 (-98304)) = 23170 := by decide +kernel

/-- 03, R90's example: row 5 and column 37 of MA2, bank 1. -/
theorem test_locator : locator 2 1 ([5], [37]) = 0xB819 := by decide

/-- 11, R288's example: a pulse 100 ns ahead of the nearest whole second. -/
theorem test_servo : (pinMeasure 7000000100 1000000000 (timed fun t => { t with mode := 1, servoEn := true })).time.trim = -473 := by decide +kernel

/-- 19, R456's example: a trace record. -/
theorem test_trace_record : traceRec 1 24 0x123456789A 0x0001583C00002104 = 0x0001583C0000210400123456789A1801 := by decide

/-- 20's example: a TH1200-AQ2. -/
theorem test_grade : let s : State := { on with mgt := { on.mgt with otp := { on.mgt.otp with corePresent := 0x7BDE } } }
    readReg s 0x100 &&& 0xFFFF00FF = 0x16000012 ∧ readReg s 0x104 = 0x7BDE ∧ coreCnt s = 12 := by decide

/-- 09, R220's example: the set and the tag of the key X = 1,234, Y = −300, L = 3. -/
theorem test_key : (⟨1234, 0xFFED4, 3⟩ : Key).set = 0xE7E1 ∧ (⟨1234, 0xFFED4, 3⟩ : Key).tag = 0xFFE07 := by decide

end Sys2Proof.Tests
end

section
/-!
PROOFS. Chapter 02: the order of binary32 numbers (R52 to R54), little-endian bytes read back, and INT12 containers (R38).
-/
namespace Sys2Proof.Proofs
open Sys2Proof Sys2Proof.Machine

/-! ### Binary32 words by their magnitude, bits [30:0] -/

/-- Bits [30:0] of a binary32 word: exponent and fraction, the word without its sign. -/
def magnitude (x : Word) : Nat := x.toNat % 2 ^ 31

/-- Place of a word in the order of the binary32 numbers, −0 below +0: the magnitude, counted down from −1 where the sign is set. -/
def orderKey (x : Word) : Int := if 2 ^ 31 ≤ x.toNat then -((x.toNat - 2 ^ 31 : Nat) : Int) - 1 else (x.toNat : Int)

theorem magnitude_lt (x : Word) : magnitude x < 2 ^ 31 := Nat.mod_lt _ (by decide)

theorem fld_magnitude (x : Word) : fld x 30 0 = magnitude x := by simp [fld, bitsAt, magnitude]

theorem fld_fraction (x : Word) : fld x 22 0 = magnitude x % 2 ^ 23 := by
  simp only [fld, bitsAt, magnitude, Nat.shiftRight_zero]; omega

theorem fld_exponent (x : Word) : fld x 30 23 = magnitude x / 2 ^ 23 := by
  simp only [fld, bitsAt, magnitude, Nat.shiftRight_eq_div_pow]; omega

theorem bitAt_sign (x : Word) : bitAt x 31 = decide (2 ^ 31 ≤ x.toNat) := by
  rw [bitAt, ← BitVec.msb_eq_getLsbD_last, BitVec.msb_eq_decide]

/-- The word's place from its sign and magnitude. -/
theorem orderKey_eq (x : Word) : orderKey x = if bitAt x 31 then -(magnitude x : Int) - 1 else (magnitude x : Int) := by
  have hx := x.isLt
  rw [bitAt_sign, orderKey, magnitude]
  by_cases hs : 2 ^ 31 ≤ x.toNat <;> simp only [hs, decide_true, decide_false, if_true, if_false, Bool.false_eq_true] <;> omega

/-- The kinds of operand are intervals of the magnitude (R52, R53): subnormals and zeros, numbers, infinity, NaNs. -/
theorem f32Read_eq (x : Word) : f32Read x =
    if magnitude x < 0x00800000 then .zero (bitAt x 31)
    else if magnitude x < 0x7F800000 then .num (bitAt x 31) (magnitude x % 2 ^ 23 + 2 ^ 23) ((magnitude x / 2 ^ 23 : Nat) - 150)
    else if magnitude x = 0x7F800000 then .inf (bitAt x 31)
    else .nan := by
  have hm := magnitude_lt x
  simp only [f32Read, fld_exponent, fld_fraction]
  by_cases hz : magnitude x < 0x00800000
  · rw [if_neg (by omega), if_pos (by omega), if_pos hz]
  · by_cases hn : magnitude x < 0x7F800000
    · rw [if_neg (by omega), if_neg (by omega), if_neg hz, if_pos hn]
    · rw [if_pos (by omega), if_neg hz, if_neg hn]
      exact if_congr (by omega) rfl rfl

theorem isNaN_eq (x : Word) : isNaN x = decide (0x7F800000 < magnitude x) := by
  rw [isNaN, f32Read_eq]
  split_ifs <;> simp <;> omega

theorem f32Zero_sign (x : Word) : f32Zero (bitAt x 31) = if 2 ^ 31 ≤ x.toNat then 0x80000000 else 0 := by
  simp only [bitAt_sign, f32Zero, signBit, decide_eq_true_eq]
  split_ifs <;> rfl

/-- What a subnormal or zero is flushed to; every other word stays (R52). -/
theorem f32Flush_eq (x : Word) :
    f32Flush x = if magnitude x < 0x00800000 then (if 2 ^ 31 ≤ x.toNat then 0x80000000 else 0) else x := by
  rw [f32Flush, f32Read_eq, ← f32Zero_sign]
  split_ifs <;> rfl

theorem orderKey_f32Zero (neg : Bool) : orderKey (f32Zero neg) = if neg then -1 else 0 := by
  cases neg <;> simp [orderKey, f32Zero, signBit]

/-- The model's key of an operand that is not NaN is the place of the flushed word. -/
theorem f32Key_eq (x : Word) (h : isNaN x = false) : f32Key x = orderKey (f32Flush x) := by
  rw [isNaN_eq, decide_eq_false_iff_not] at h
  rw [f32Key, f32Flush, f32Read_eq, fld_magnitude]
  by_cases hz : magnitude x < 0x00800000
  · simp only [if_pos hz, orderKey_f32Zero]
  · simp only [if_neg hz]
    by_cases hn : magnitude x < 0x7F800000
    · simp only [if_pos hn, orderKey_eq]
    · simp only [if_neg hn, if_pos (show magnitude x = 0x7F800000 by omega), orderKey_eq]

/-! ### Minimum and maximum -/

theorem f32MinMax_nan (a b : Word) (h : isNaN a = true ∨ isNaN b = true) : f32Min a b = qNaN ∧ f32Max a b = qNaN := by
  have h : (isNaN a || isNaN b) = true := by simpa using h
  exact ⟨if_pos h, if_pos h⟩

theorem f32MinMax_number (a b : Word) (ha : isNaN a = false) (hb : isNaN b = false) :
    f32Min a b = (if orderKey (f32Flush a) ≤ orderKey (f32Flush b) then f32Flush a else f32Flush b) ∧
    f32Max a b = (if orderKey (f32Flush a) ≤ orderKey (f32Flush b) then f32Flush b else f32Flush a) := by
  have h : ¬ (isNaN a || isNaN b) = true := by simp [ha, hb]
  rw [← f32Key_eq a ha, ← f32Key_eq b hb]
  exact ⟨if_neg h, if_neg h⟩

/-- Settles O15: the statement's `nan`, `fl` and `key` are the model's NaN test and flush, and the order key. -/
theorem floatMinMax : Obligations.FloatMinMax := by
  intro a b nan fl key
  have hnan (x : Word) : nan x = isNaN x := (isNaN_eq x).symm
  have hfl (x : Word) : fl x = f32Flush x := (f32Flush_eq x).symm
  have hkey (x : Word) : key x = orderKey x := rfl
  simp only [hnan, hfl, hkey]
  exact ⟨f32MinMax_nan a b, f32MinMax_number a b⟩

/-! ### Little-endian bytes and two's complement values -/

theorem leBytes_succ (k n : Nat) : leBytes (k + 1) n = BitVec.ofNat 8 n :: leBytes k (n / 256) := by
  have hshift (i : Nat) : n >>> (8 * (i + 1)) = (n / 256) >>> (8 * i) := by
    rw [Nat.mul_succ, Nat.add_comm, Nat.shiftRight_add, Nat.shiftRight_eq_div_pow n 8]
  simp [leBytes, List.range_succ_eq_map, hshift]

/-- The bytes of a number spell its low bytes (00, R8). -/
theorem ofLe_leBytes (k n : Nat) : ofLe (leBytes k n) = n % 256 ^ k := by
  induction k generalizing n with
  | zero => simp [leBytes, ofLe, Nat.mod_one]
  | succ k ih =>
    calc ofLe (leBytes (k + 1) n) = n % 256 + 256 * ofLe (leBytes k (n / 256)) := by simp [leBytes_succ, ofLe]
      _ = n % 256 ^ (k + 1) := by rw [ih, Nat.pow_succ', Nat.mod_mul]

theorem leAt_leBytes (k n : Nat) : leAt (leBytes k n) 0 k = n % 256 ^ k := by
  rw [leAt, slice, List.drop_zero, List.take_of_length_le (by simp), ofLe_leBytes]

/-- The two's complement value of the low bits is the word's signed value (00, R7). -/
theorem signedOf_eq_toInt (w n : Nat) (hw : 0 < w) : signedOf w n = (BitVec.ofNat w n).toInt := by
  obtain ⟨w, rfl⟩ := Nat.exists_eq_add_one.mpr hw
  have hp : 2 ^ (w + 1) = 2 * 2 ^ w := Nat.pow_succ'
  simp only [signedOf, BitVec.toInt_eq_toNat_cond, BitVec.toNat_ofNat, Nat.add_sub_cancel]
  exact if_congr (by omega) rfl rfl

theorem wrapTo_eq_toNat (w : Nat) (v : Int) : wrapTo w v = (BitVec.ofInt w v).toNat := by
  rw [BitVec.toNat_ofInt, wrapTo]

/-! ### INT12 containers -/

theorem elemVal_int12 (n : Nat) : elemVal 2 n = (BitVec.ofNat 12 n).toInt := signedOf_eq_toInt 12 n (by decide)

theorem loadLane_int12 (w : BitVec 16) : loadLane 2 (leBytes 2 w.toNat) 0 = (w.truncate 12).signExtend 32 := by
  have hw : w.toNat % 256 ^ 2 = w.toNat := Nat.mod_eq_of_lt w.isLt
  calc loadLane 2 (leBytes 2 w.toNat) 0
      = BitVec.ofInt 32 (signedOf 12 (leAt (leBytes 2 w.toNat) 0 2)) := rfl
    _ = BitVec.ofInt 32 (BitVec.ofNat 12 w.toNat).toInt := by rw [leAt_leBytes, hw, signedOf_eq_toInt _ _ (by decide)]
    _ = (w.truncate 12).signExtend 32 := by rw [BitVec.ofNat_toNat]; rfl

theorem storeLane_int12 (x : Word) :
    storeLane 2 x = leBytes 2 (BitVec.ofInt 16 (clampI x.toInt (-2048) 2047)).toNat := by
  rw [← wrapTo_eq_toNat]; rfl

/-- A value that twelve bits hold: its container's upper bits are copies of bit 11. -/
theorem ofInt_eq_signExtend_int12 (v : Int) (hlo : -2048 ≤ v) (hhi : v ≤ 2047) :
    BitVec.ofInt 16 v = ((BitVec.ofInt 16 v).truncate 12).signExtend 16 := by
  have htrunc : (BitVec.ofInt 16 v).truncate 12 = BitVec.ofInt 12 v := by
    apply BitVec.eq_of_toNat_eq
    simp only [BitVec.truncate_eq_setWidth, BitVec.toNat_setWidth, BitVec.toNat_ofInt]
    omega
  have hval : (BitVec.ofInt 12 v).toInt = v := BitVec.toInt_ofInt_eq_self (by decide) hlo (by omega)
  rw [htrunc, BitVec.signExtend, hval]

/-- Settles O16: a read goes by bits [11:0], and a stored value is held within twelve bits first. -/
theorem int12Containers : Obligations.Int12Containers := by
  refine ⟨fun w => ⟨loadLane_int12 w, ?_⟩, fun x => ⟨_, storeLane_int12 x, ?_⟩⟩
  · rw [elemVal_int12, BitVec.ofNat_toNat]
  · exact ofInt_eq_signExtend_int12 _ (by unfold clampI; omega) (by unfold clampI; omega)

end Sys2Proof.Proofs
end

section
/-!
PROOFS. Chapter 04: the value of a pooling window (R121, R122).
-/
namespace Sys2Proof.Proofs
open Sys2Proof Sys2Proof.Machine

/-- The rounded quotient by its remainder `a - a / n * n` (04, R122). -/
theorem rneDiv_eq (a : Int) (n : Nat) (hn : 0 < n) : rneDiv a n =
    if 2 * (a - a / n * n) > n ∨ (2 * (a - a / n * n) = n ∧ a / n % 2 = 1) then a / n + 1 else a / n := by
  have hrem : ((a % (n : Int)).toNat : Int) = a - a / n * n := by
    rw [Int.toNat_of_nonneg (Int.emod_nonneg a (by omega)), Int.emod_def, Int.mul_comm]
  simp only [rneDiv]
  exact if_congr (by omega) rfl rfl

section
variable (g : Geom) (size : Nat)

/-- MAXPOOL with an in-image position: the library's greatest element (R121). -/
theorem pooled_max (vals : List Int) (hmode : g.mode = 4) (hne : vals ≠ []) : vals.max? = some (g.pooled vals size) := by
  cases vals with
  | nil => contradiction
  | cons v vs =>
    rw [List.max?_cons']
    simp [Geom.pooled, hmode]

/-- No in-image position (R121, R122). -/
theorem pooled_nil (hmode : g.mode = 4 ∨ g.mode = 5) : g.pooled [] size = g.padVal := by
  rcases hmode with hmax | havg
  · simp [Geom.pooled, hmax]
  · simp [Geom.pooled, havg]

/-- AVGPOOL: the in-image positions alone are summed and counted (R122). -/
theorem pooled_avg (vals : List Int) (hmode : g.mode = 5) (hne : vals ≠ []) :
    g.pooled vals size = rneDiv vals.sum vals.length := by
  simp [Geom.pooled, hmode, hne, List.sum_eq_foldl]

/-- AVGPOOL_PAD: every position counts, and those outside the image hold PAD_VALUE (R122). -/
theorem pooled_avgPad (vals : List Int) (hmode : g.mode = 6) (hlen : vals.length ≤ size) :
    g.pooled vals size = rneDiv (vals.sum + (size - vals.length : Int) * g.padVal) size := by
  have hpad : ((size - vals.length : Nat) : Int) = size - vals.length := Int.ofNat_sub hlen
  have hsum : vals.foldl (· + ·) (((size - vals.length : Nat) : Int) * g.padVal) = vals.sum + (size - vals.length : Int) * g.padVal := by
    rw [List.foldl_eq_apply_foldr, ← List.sum_eq_foldr, hpad, Int.add_comm]
  simp [Geom.pooled, hmode, hsum]

end

/-- Settles O19: MAXPOOL is the greatest element of the list, and both averages are rounded quotients. -/
theorem poolingValues : Obligations.PoolingValues := by
  intro g vals size hlen hsize
  refine ⟨fun hmax hne => ?_, fun hmode hnil => ?_, fun havg hne => ?_, fun hpad => ?_⟩
  · exact List.max?_eq_some_iff.mp (pooled_max g size vals hmax hne)
  · rw [hnil, pooled_nil g size hmode]
  · rw [pooled_avg g size vals havg hne, rneDiv_eq _ _ (List.length_pos_iff.mpr hne)]
  · rw [pooled_avgPad g size vals hpad hlen, rneDiv_eq _ _ hsize]

end Sys2Proof.Proofs
end

section
/-!
PROOFS. Chapter 06: a slot of zeros is neither queued nor skipped, and changes nothing (R142).
-/
namespace Sys2Proof.Proofs
open Sys2Proof Sys2Proof.Machine

/-- What enters a queue: the slots other than the scalar one that are present, not zero and legal (R141, R142, R166). -/
theorem mem_entering_iff {s : State} {x : Ctx} {u : BitVec 256} {y : SlotAt} : y ∈ entering s x u ↔
    y ∈ (slotsOf u).drop 1 ∧ y.present = true ∧ y.word ≠ 0 ∧ slotBad s x (QId.ofSlot y.num) y.word = none := by
  simp [entering, and_assoc]

/-- What is skipped as illegal: the slots other than the scalar one that are present, not zero and have a reason (R142, R166). -/
theorem mem_illegalSlots_iff {s : State} {x : Ctx} {u : BitVec 256} {n r : Nat} : (n, r) ∈ illegalSlots s x u ↔
    ∃ y ∈ (slotsOf u).drop 1, (y.present = true ∧ y.word ≠ 0) ∧ slotBad s x (QId.ofSlot y.num) y.word = some r ∧ y.num = n := by
  simp [illegalSlots]

/-- The scalar word of zeros is legal, has opcode 0, and transfers no control (07, Table 7.1). -/
theorem scalarOp_zero (c : Nat) (h : Hdr) (s : State) : scalarOp c h 0 s = (s, none, none) := by
  have hop : fld (0 : BitVec 32) 31 26 = 0 := Laws.fldN 0 31 26
  have hbad : scBad 0 = none := by simp only [scBad, hop, if_true]
  simp only [scalarOp, hbad, hop]

/-- A scalar word of zeros changes nothing, on a core that executes and on one that does not. -/
theorem scalarAlone_zero (c : CoreId) (s : State) : scalarAlone c 0 s = s := by
  cases hlive : coreLive s c with
  | false => simp [scalarAlone, hlive]
  | true => rw [Laws.scalar_eq 0 hlive, scalarOp_zero]

/-- Settles O9: queues and skips take slots that hold a bit, and the scalar word of zeros changes nothing. -/
theorem zeroSlotIsNop : Obligations.ZeroSlotIsNop := by
  refine ⟨fun s x u y hzero hmem => ?_, fun s x u n r hmem => ?_, scalarOp_zero, fun c s hready => ?_⟩
  · obtain ⟨-, -, hword, -⟩ := mem_entering_iff.mp hmem
    exact hword hzero
  · obtain ⟨y, hy, ⟨-, hword⟩, -, hnum⟩ := mem_illegalSlots_iff.mp hmem
    exact ⟨y, List.mem_of_mem_drop hy, hnum, hword⟩
  · exact Laws.run_keep _ hready (scalarAlone_zero c s) rfl rfl rfl

end Sys2Proof.Proofs
end

section
/-!
PROOFS. Chapter 11: the device clock from the edge of a cycle (R280), and the passing of time in which no engine has anything due.
-/
namespace Sys2Proof.Proofs
open Sys2Proof Sys2Proof.Machine

/-! ### The clock from a cycle's edge -/

/-- The clock of `n` counts later when it stands on the edge of a cycle that nothing stretches: `n * f` fifths of a period are whole
cycles and what is left of them. -/
theorem pass_of_edge (k : Clock) (f n : Nat) (hsub : k.sub = 0) (hahead : k.ahead = 0) (hstretch : k.stretch = 0) :
    k.pass f n = { k with gtc := k.gtc + BitVec.ofNat 64 n, ns := k.ns + n, cyc := k.cyc + n * f / 5, sub := n * f % 5 } := by
  simp only [Clock.pass, hsub, hahead, hstretch, Nat.zero_add, Nat.sub_zero, Nat.add_zero, Nat.mul_one]
  split
  case isTrue hwithin => simp only [Nat.div_eq_of_lt hwithin, Nat.mod_eq_of_lt hwithin, Nat.add_zero]
  case isFalse hpast =>
    have hcyc : k.cyc + 1 + (n * f - 5) / 5 = k.cyc + n * f / 5 := by omega
    have hmod : (n * f - 5) % 5 = n * f % 5 := by omega
    rw [hcyc, hmod]

section
variable {s : State} (hsub : s.clk.sub = 0) (hahead : s.clk.ahead = 0) (hstretch : s.clk.stretch = 0)
include hsub hahead hstretch

/-- `clockNs` from the edge of a cycle, at any performance point. -/
theorem clockNs_clk_of_edge (n : Nat) : (clockNs s n).clk = { s.clk with
    gtc := s.clk.gtc + BitVec.ofNat 64 n, ns := s.clk.ns + n, cyc := s.clk.cyc + n * perfF s / 5, sub := n * perfF s % 5 } := by
  cases n with
  | zero =>
    have hclk : s.clk = { s.clk with sub := 0 } := by rw [← hsub]
    simpa [clockNs] using hclk
  | succ n => simp [clockNs, pass_of_edge, hsub, hahead, hstretch]

/-- Every 5 counts from an edge end on an edge, after a whole number of cycles: Table 11.1's device cycles in 5 ns. -/
theorem clockNs_clk_of_edge_five (n : Nat) : (clockNs s (5 * n)).clk = { s.clk with
    gtc := s.clk.gtc + BitVec.ofNat 64 (5 * n), ns := s.clk.ns + 5 * n, cyc := s.clk.cyc + perfF s * n } := by
  have hfifths : 5 * n * perfF s = 5 * (perfF s * n) := by rw [Nat.mul_assoc, Nat.mul_comm n]
  rw [clockNs_clk_of_edge hsub hahead hstretch, hfifths, Nat.mul_div_cancel_left _ (by decide), Nat.mul_mod_right, ← hsub]

end

/-! ### Time in which nothing is due -/

theorem drainOne_clk (s : State) : (drainOne s).clk = s.clk := by
  unfold drainOne
  split <;> rfl

theorem drainTrace_clk (s : State) : (drainTrace s).clk = s.clk := by
  unfold drainTrace
  split
  · exact Laws.clk_foldl _ (fun s _ => drainOne_clk s) _ s
  · rfl

/-- Engines with nothing due do nothing, up to any cycle. -/
theorem engines_of_nextDue_none (lim fuel : Nat) {s : State} (hdue : nextDue s = none) : engines lim fuel s = s := by
  cases fuel with
  | zero => rfl
  | succ fuel => simp only [engines, hdue]

theorem runUnits_of_nextDue_none (lim : Nat) {s : State} (hdue : nextDue (drainTrace s) = none) : runUnits lim s = drainTrace s :=
  engines_of_nextDue_none lim _ hdue

/-- Where nothing is due, the whole time passes on the clocks in one piece: the trace drain before it takes none. -/
theorem passNs_of_nextDue_none {s : State} {n : Nat} (hn : 0 < n) (hdue : nextDue (drainTrace s) = none) :
    passNs s n = portsRun (clockNs (drainTrace s) n) := by
  simp only [passNs, if_neg (Nat.ne_of_gt hn), runUnits_of_nextDue_none _ hdue, drainTrace_clk, Nat.add_sub_cancel_left]

/-- Settles O7: at P0, P1 and P2 a count is 5, 4 and 3 fifths of a device period. -/
theorem clockRatios : Obligations.ClockRatios := by
  refine ⟨fun s n hsub hahead hstretch hP0 => ?_, fun s n hsub hahead hstretch => ?_, fun s n hn hdue => passNs_of_nextDue_none hn hdue⟩
  · have hperf : perfF s = 5 := by simp [perfF, cyclesPer5, hP0]
    rw [clockNs_clk_of_edge hsub hahead hstretch, hperf, Nat.mul_div_cancel _ (by decide)]
  · dsimp only
    rw [clockNs_clk_of_edge_five hsub hahead hstretch]
    refine ⟨rfl, fun hP0 => ?_, fun hP1 => ?_, fun hP2 => ?_, hsub, hahead, hstretch⟩
    · simp [perfF, cyclesPer5, hP0]
    · simp [perfF, cyclesPer5, hP1]
    · simp [perfF, cyclesPer5, hP2]

end Sys2Proof.Proofs
end

section
/-!
PROOFS. Chapter 19: the fuses (R442). What the boot ROM read of them changes at an internal release alone, where it becomes their content.
-/
namespace Sys2Proof.Proofs
open Sys2Proof Sys2Proof.Machine

/-! ### Fuses are only blown -/

theorem steady_idle (s : State) : Laws.Steady s (idle s) :=
  Laws.steady_ite (Laws.steady_refl s) (Laws.steady_of_kept ((Laws.kept_drainTrace _).trans (Laws.kept_passNs s 1)))

theorem fuses_upTo_step {s t : State} (h : step s = .next t) : s.mgt.fuses.upTo t.mgt.fuses := by
  unfold step at h
  split at h
  case h_1 =>
    cases h
    exact (steady_idle s).fuses
  case h_2 c rest _ => exact (Laws.held_exec c { s with pending := rest } t h).2

/-! ### What keeps the fuses as read -/

/-- The fuses as the boot ROM last read them, and whether the device is in reset: what the start after a release keeps. -/
def readOf (s : State) : Otp × Bool := (s.mgt.otp, s.rst.inReset)

theorem readOf_of_steady {s t : State} (h : Laws.Steady s t) : readOf t = readOf s := by rw [readOf, h.otp, h.inReset, readOf]

theorem readOf_of_kept {s t : State} (h : Laws.keptOf t = Laws.keptOf s) : readOf t = readOf s := readOf_of_steady (Laws.steady_of_kept h)

theorem readOf_ite (c : Prop) [Decidable c] (a b : State) : readOf (if c then a else b) = if c then readOf a else readOf b := apply_ite ..

theorem readOf_settle (s : State) : readOf (settle s) = readOf s := readOf_of_steady (Laws.steady_settle s)

theorem readOf_fire (f : Fire) (s : State) : readOf (fire f s) = readOf s := readOf_of_kept (Laws.kept_fire f s)

theorem readOf_lifeAdd (off w n : Nat) (s : State) : readOf (lifeAdd off w n s) = readOf s := readOf_of_kept (Laws.kept_lifeAdd off w n s)

theorem readOf_run {s t : State} {f : State → State} (hf : readOf (f s) = readOf s) (h : run s f = .next t) : readOf t = readOf s := by
  cases h
  rw [readOf_ite, readOf_settle, hf, ite_self]

/-! ### The start that follows a release -/

theorem readOf_enterMinimal (s : State) : readOf (enterMinimal s) = readOf s := by
  rw [enterMinimal, readOf_lifeAdd]
  rfl

theorem readOf_resumeFrom (r : RetRec) (s : State) : readOf (resumeFrom r s) = readOf s := by
  have hload (g : Glb) : readOf (finishLoad { s with glb := g }) = readOf s := by
    rw [readOf_of_kept (Laws.kept_finishLoad _)]
    rfl
  unfold resumeFrom
  dsimp only
  split
  · rw [readOf_fire]; rfl
  · split
    · exact hload _
    · exact hload _

theorem readOf_alignTo (l : List Word) (s : State) : readOf (alignTo l s).1 = readOf s := by
  induction l generalizing s with
  | nil => rfl
  | cons e l ih =>
    have hmeasure : readOf (measure e.toInt s) = readOf s := readOf_of_kept (Laws.kept_measure _ _)
    unfold alignTo
    dsimp only
    split
    · exact hmeasure
    · exact (ih _).trans hmeasure

theorem readOf_alignGroup (group : StartIn) (s : State) : readOf (alignGroup group s).1 = readOf s := by
  unfold alignGroup
  dsimp only
  split
  case h_1 => rfl
  case h_2 p _ =>
    have halign := readOf_alignTo group.offsets { s with time := s.time.aligning p }
    split
    · exact halign
    · exact halign

theorem readOf_resume (group : StartIn) (r : RetRec) (s : State) : readOf (resume group r s) = readOf s := by
  have halign := readOf_alignGroup group s
  unfold resume
  generalize alignGroup group s = a at halign
  dsimp only
  split
  · exact (readOf_resumeFrom r _).trans halign
  · exact halign

theorem readOf_trainDram (s : State) : readOf (trainDram s) = readOf s := by
  unfold trainDram
  dsimp only
  split
  · rw [readOf_of_kept (Laws.kept_bumpFree _)]; rfl
  · rfl

theorem readOf_restoreTime (s : State) : readOf (restoreTime s) = readOf s := by
  unfold restoreTime
  split
  · rfl
  · split
    · rfl
    · exact readOf_of_kept ((Laws.kept_timeStep ..).trans (Laws.kept_timeStep ..))

theorem readOf_normalStart (group : StartIn) (s : State) : readOf (normalStart group s) = readOf s := by
  have htime : readOf (restoreTime (trainDram s)) = readOf s := (readOf_restoreTime _).trans (readOf_trainDram s)
  unfold normalStart
  dsimp only
  split
  · split
    · exact (readOf_resume ..).trans htime
    · exact htime
  · exact readOf_trainDram s

/-- The boot ROM's choice of a slot may write a descriptor to the flash (R447); the fuses as read stay. -/
theorem otp_of_bootSlot {s : State} {a : Nat} {m : Mgt} {o : Option Nat × Bool × Bool} (h : bootSlot s a = (m, o)) : m.otp = s.mgt.otp := by
  have hflash (c : Prop) [Decidable c] (p : Nat) : (if c then writeDesc p false s.mgt else s.mgt).otp = s.mgt.otp := by
    split
    · exact congrArg (·.2.1) (Laws.keep_writeDesc p false s.mgt)
    · rfl
  have hchoice : (bootSlot s a).1.otp = s.mgt.otp := by
    simp only [bootSlot, apply_ite Prod.fst, ite_self, hflash]
  rwa [h] at hchoice

theorem readOf_countAttempt (a : Nat) (s : State) : readOf (countAttempt a s) = readOf s := by
  rw [countAttempt, readOf_ite]
  exact ite_self _

theorem readOf_boot (group : StartIn) (s : State) : readOf (boot group s) = readOf s := by
  have hstart : readOf { s with rst := { s.rst with attemptsAtStart := attempts s } } = readOf s := rfl
  have hslot (u : State) (m : Mgt) (hm : m.otp = u.mgt.otp) : readOf { u with mgt := m } = readOf u := by rw [readOf, hm, readOf]
  unfold boot
  dsimp only
  generalize hcounted : ite (attempts s ≠ 0) _ _ = u
  have hu : readOf u = readOf s := by
    simp only [← hcounted, readOf_ite, readOf_fire, readOf_lifeAdd, readOf_countAttempt, hstart, ite_self]
  rw [← hu]
  split
  · exact readOf_enterMinimal u
  · split
    case h_1 m slot trial fallback hboot =>
      rw [readOf_normalStart]
      exact hslot u _ (otp_of_bootSlot (m := m) hboot)
    case h_2 m _ _ hboot =>
      rw [readOf_enterMinimal]
      exact hslot u m (otp_of_bootSlot hboot)

/-! ### The internal release -/

theorem otp_lifeStart (m : Mgt) : (lifeStart m).otp = m.otp := by
  unfold lifeStart
  split
  · rfl
  · split <;> rfl

/-- The release itself: the fuses are read, and the device is out of reset (R442). -/
theorem readOf_outOfReset (s : State) : readOf (outOfReset s) = (s.mgt.fuses, false) := by
  rw [outOfReset, readOf_lifeAdd]
  exact congrArg (·, false) (otp_lifeStart _)

theorem readOf_release (group : StartIn) (s : State) : readOf (release group s) = (s.mgt.fuses, false) := by
  rw [release, readOf_settle, readOf_boot, readOf_outOfReset]

/-- State `t` is in reset still, or the boot ROM has read the fuses of `s`. -/
def ReadAtRelease (s t : State) : Prop := t.rst.inReset = true ∨ t.mgt.otp = s.mgt.fuses

theorem readAtRelease_of_readOf {s t : State} (h : readOf t = (s.mgt.fuses, false)) : ReadAtRelease s t := .inr (congrArg Prod.fst h)

theorem readAtRelease_ite {s a b : State} (c : Prop) [Decidable c] (ha : ReadAtRelease s a) (hb : ReadAtRelease s b) :
    ReadAtRelease s (if c then a else b) := by
  split <;> assumption

/-- A release on a state that holds the fuses of `s`, where nothing holds the reset. -/
theorem readAtRelease_mayStart {s u : State} (group : StartIn) (hreset : u.rst.inReset = true) (hfuses : u.mgt.fuses = s.mgt.fuses) :
    ReadAtRelease s (if mayStart u then release group u else u) :=
  readAtRelease_ite _ (readAtRelease_of_readOf (hfuses ▸ readOf_release group u)) (.inl hreset)

section
variable {s : State} (hreset : s.rst.inReset = true)
include hreset

theorem readAtRelease_resetRelease (hold : Word) (group : StartIn) : ReadAtRelease s (resetRelease hold group s) := by
  refine readAtRelease_ite _ (.inl hreset) (readAtRelease_ite _ (.inl hreset) (readAtRelease_of_readOf ?_))
  rw [readOf_release]
  split <;> rfl

theorem readAtRelease_detectorRelease (dram32 : Bool) (out : List (Fin 12)) : ReadAtRelease s (detectorRelease dram32 out s) :=
  readAtRelease_ite _ (.inl hreset) (readAtRelease_mayStart _ hreset rfl)

theorem readAtRelease_xtalReturn (group : StartIn) : ReadAtRelease s (xtalReturn group s) :=
  readAtRelease_ite _ (.inl hreset) (readAtRelease_mayStart _ hreset rfl)

theorem readAtRelease_bootVoltage (m : Nat) (mv : BitVec 16) : ReadAtRelease s (bootVoltage m mv s) := by
  have honset (f : Fire) (u : State) (hu : u.mgt.fuses = s.mgt.fuses) : ReadAtRelease s (settle (onset f (outOfReset u))) := by
    refine readAtRelease_of_readOf ?_
    rw [readOf_settle, readOf_of_kept (Laws.kept_onset f _), readOf_outOfReset, hu]
  exact readAtRelease_ite _ (.inl hreset) (readAtRelease_ite _ (readAtRelease_mayStart _ hreset rfl)
    (readAtRelease_ite _ (honset _ _ rfl) (.inl hreset)))

end

/-! ### Every command -/

/-- No command but the reset sources takes the device into or out of reset, or changes the fuses as read. -/
theorem readOf_exec {c : Instr} {s t : State} (h : exec c s = .next t) (hc : c.isReset s = false) : readOf t = readOf s := by
  cases hs : Laws.special c s with
  | false => exact readOf_of_steady (Laws.steady_exec c s hs t h)
  | true =>
    cases c with
    | hotReset =>
      refine readOf_run ?_ h
      rw [readOf_ite]
      exact ite_self _
    | configurationWrite b d e m cfg aer cl =>
      refine readOf_run ?_ h
      rw [configure, readOf_ite, readOf_of_kept (Laws.kept_requestsFlow _)]
      exact ite_self _
    | tckEdge r m d n =>
      cases h
      obtain ⟨tap, k, hedge⟩ := Laws.tckEdge_eq r m d n s
      rw [hedge]
      rfl
    | voltageMonitorTrip m mv => cases (show true = false from hs.symm.trans hc)
    | resetNAssert => cases hc
    | resetNRelease => cases hc
    | powerOnDetectorAssert => cases hc
    | powerOnDetectorRelease => cases hc
    | xtalLoss => cases hc
    | xtalReturn => cases hc
    | _ => cases hs

/-- A reset source that ends the reset has read the fuses; one that does not leaves the device in reset. -/
theorem readAtRelease_exec {c : Instr} {s t : State} (h : exec c s = .next t) (hc : c.isReset s = true) (hreset : s.rst.inReset = true) :
    ReadAtRelease s t := by
  cases c with
  | resetNAssert =>
    cases h
    exact readAtRelease_ite _ (.inl hreset) (.inl rfl)
  | resetNRelease hold group =>
    cases h
    exact readAtRelease_resetRelease hreset hold group
  | powerOnDetectorAssert =>
    cases h
    exact .inl rfl
  | powerOnDetectorRelease dram32 out =>
    cases h
    exact readAtRelease_detectorRelease hreset dram32 out
  | xtalLoss =>
    cases h
    exact readAtRelease_ite _ (.inl hreset) (.inl rfl)
  | xtalReturn group =>
    cases h
    exact readAtRelease_xtalReturn hreset group
  | voltageMonitorTrip m mv =>
    have hboot : exec (.voltageMonitorTrip m mv) s = .next (bootVoltage m mv s) := if_pos hreset
    cases hboot.symm.trans h
    exact readAtRelease_bootVoltage hreset m mv
  | _ => cases hc

/-- A command that ends a reset leaves the fuses as read at their content. -/
theorem otp_eq_fuses_of_exec {c : Instr} {s t : State} (h : exec c s = .next t) (hreset : s.rst.inReset = true)
    (hout : t.rst.inReset = false) : t.mgt.otp = s.mgt.fuses := by
  cases hc : c.isReset s with
  | false =>
    have hsame : t.rst.inReset = s.rst.inReset := congrArg Prod.snd (readOf_exec h hc)
    simp [hreset, hout] at hsame
  | true =>
    obtain hin | hread := readAtRelease_exec h hc hreset
    · simp [hin] at hout
    · exact hread

/-- Settles O6: a step blows fuses or leaves them, and what was read of them changes only at the release that reads them again. -/
theorem fusesOnlyBlown : Obligations.FusesOnlyBlown :=
  ⟨fun _ _ => fuses_upTo_step, fun _ _ _ h hc => congrArg Prod.fst (readOf_exec h hc), fun _ _ _ => otp_eq_fuses_of_exec, fun _ => rfl⟩

end Sys2Proof.Proofs
end

section
/-!
PROOFS. Chapters 08, 15, 18, 19, 20: every step keeps the memories' canonical form, and which commands change the safe state, the reset,
the retained record, the test access port and configuration space.
-/
namespace Sys2Proof.Proofs
open Sys2Proof Sys2Proof.Machine

/-- Settles O4: a command keeps the form whatever the queue holds, and so does the idle step. -/
theorem memoriesStayCanonical : Obligations.MemoriesStayCanonical := by
  intro s t hs h
  unfold step at h
  split at h
  case h_1 => cases h; exact Laws.ok_idle s hs
  case h_2 c rest _ => exact Laws.ok_exec c { s with pending := rest } hs t h

/-! ### The start that follows a release leaves the test access port -/

theorem tap_of_kept {s t : State} (h : Laws.keptOf t = Laws.keptOf s) : t.tap = s.tap := (Laws.steady_of_kept h).tap

theorem tap_ite (c : Prop) [Decidable c] (a b : State) : (if c then a else b).tap = if c then a.tap else b.tap := apply_ite ..

theorem tap_settle (s : State) : (settle s).tap = s.tap := (Laws.steady_settle s).tap

theorem tap_fire (f : Fire) (s : State) : (fire f s).tap = s.tap := tap_of_kept (Laws.kept_fire f s)

theorem tap_lifeAdd (off w n : Nat) (s : State) : (lifeAdd off w n s).tap = s.tap := tap_of_kept (Laws.kept_lifeAdd off w n s)

theorem tap_enterMinimal (s : State) : (enterMinimal s).tap = s.tap := tap_lifeAdd ..

theorem tap_resumeFrom (r : RetRec) (s : State) : (resumeFrom r s).tap = s.tap := by
  have hload (g : Glb) : (finishLoad { s with glb := g }).tap = s.tap :=
    (tap_of_kept (Laws.kept_finishLoad { s with glb := g }) :)
  unfold resumeFrom
  dsimp only
  split
  · exact tap_fire ..
  · split <;> exact hload _

theorem tap_alignTo (l : List Word) (s : State) : (alignTo l s).1.tap = s.tap := by
  induction l generalizing s with
  | nil => rfl
  | cons e l ih =>
    have hmeasure : (measure e.toInt s).tap = s.tap := tap_of_kept (Laws.kept_measure _ _)
    unfold alignTo
    dsimp only
    split
    · exact hmeasure
    · exact (ih _).trans hmeasure

theorem tap_alignGroup (group : StartIn) (s : State) : (alignGroup group s).1.tap = s.tap := by
  unfold alignGroup
  dsimp only
  split
  · rfl
  · split <;> exact tap_alignTo group.offsets _

theorem tap_resume (group : StartIn) (r : RetRec) (s : State) : (resume group r s).tap = s.tap := by
  have halign := tap_alignGroup group s
  unfold resume
  generalize alignGroup group s = a at halign
  dsimp only
  split
  · exact (tap_resumeFrom r a.1).trans halign
  · exact halign

theorem tap_trainDram (s : State) : (trainDram s).tap = s.tap := by
  unfold trainDram
  dsimp only
  split <;> rfl

theorem tap_restoreTime (s : State) : (restoreTime s).tap = s.tap := by
  unfold restoreTime
  split
  · rfl
  · split
    · rfl
    · exact tap_of_kept ((Laws.kept_timeStep ..).trans (Laws.kept_timeStep ..))

theorem tap_normalStart (group : StartIn) (s : State) : (normalStart group s).tap = s.tap := by
  have htime : (restoreTime (trainDram s)).tap = s.tap := (tap_restoreTime _).trans (tap_trainDram s)
  unfold normalStart
  dsimp only
  split
  · split
    · exact (tap_resume ..).trans htime
    · exact htime
  · exact tap_trainDram s

theorem tap_countAttempt (a : Nat) (s : State) : (countAttempt a s).tap = s.tap := by
  rw [countAttempt, tap_ite]
  exact ite_self _

theorem tap_boot (group : StartIn) (s : State) : (boot group s).tap = s.tap := by
  unfold boot
  dsimp only
  generalize hcounted : ite (attempts s ≠ 0) _ _ = u
  have hu : u.tap = s.tap := by simp only [← hcounted, tap_ite, tap_fire, tap_lifeAdd, tap_countAttempt, ite_self]
  rw [← hu]
  split
  · exact tap_enterMinimal u
  · split
    · exact tap_normalStart ..
    · exact tap_enterMinimal _

theorem tap_outOfReset (s : State) : (outOfReset s).tap = s.tap := tap_lifeAdd ..

theorem tap_release (group : StartIn) (s : State) : (release group s).tap = s.tap := by
  rw [release, tap_settle, tap_boot, tap_outOfReset]

/-- A release, where nothing holds the reset, on a state with the port of `s`. -/
theorem tap_mayStart {s u : State} (c : Prop) [Decidable c] (group : StartIn) (hu : u.tap = s.tap) :
    (if c then release group u else u).tap = s.tap := by
  rw [tap_ite, tap_release, ite_self, hu]

theorem tap_resetRelease (hold : Word) (group : StartIn) (s : State) : (resetRelease hold group s).tap = s.tap := by
  simp only [resetRelease, tap_ite, tap_release, ite_self]

theorem tap_detectorRelease (dram32 : Bool) (out : List (Fin 12)) (s : State) : (detectorRelease dram32 out s).tap = s.tap := by
  simp only [detectorRelease, tap_ite, tap_release, ite_self]

theorem tap_xtalReturn (group : StartIn) (s : State) : (xtalReturn group s).tap = s.tap := by
  simp only [xtalReturn, tap_ite, tap_release, ite_self]

theorem tap_bootVoltage (m : Nat) (mv : BitVec 16) (s : State) : (bootVoltage m mv s).tap = s.tap := by
  have honset (f : Fire) (u : State) : (settle (onset f (outOfReset u))).tap = u.tap := by
    rw [tap_settle, tap_of_kept (Laws.kept_onset f _), tap_outOfReset]
  simp only [bootVoltage, tap_ite, tap_release, honset, ite_self]

/-- Every reset source but the power-on detector's assertion leaves the test access port. -/
theorem tap_resetSource {c : Instr} {s t : State} (h : exec c s = .next t) (hc : c.isReset s = true) (hp : c ≠ .powerOnDetectorAssert) :
    t.tap = s.tap := by
  cases c with
  | resetNAssert =>
    cases h
    exact (tap_ite ..).trans (ite_self _)
  | resetNRelease hold group => cases h; exact tap_resetRelease hold group s
  | powerOnDetectorAssert => exact absurd rfl hp
  | powerOnDetectorRelease dram32 out => cases h; exact tap_detectorRelease dram32 out s
  | xtalLoss =>
    cases h
    exact (tap_ite ..).trans (ite_self _)
  | xtalReturn group => cases h; exact tap_xtalReturn group s
  | voltageMonitorTrip m mv =>
    have hboot : exec (.voltageMonitorTrip m mv) s = .next (bootVoltage m mv s) := if_pos hc
    cases hboot.symm.trans h
    exact tap_bootVoltage m mv s
  | _ => cases hc

/-! ### Who may change what -/

/-- Between `s` and `t` none of this has changed: the safe state once entered, whether the device is in reset, the retained record. -/
structure Guarded (s t : State) : Prop where
  safe : s.glb.safe = true → t.glb.safe = true
  inReset : t.rst.inReset = s.rst.inReset
  record : t.mgt.rec_ = s.mgt.rec_

theorem guarded_of_steady {s t : State} (h : Laws.Steady s t) : Guarded s t := ⟨h.safe, h.inReset, h.record⟩

theorem guarded_of_run {s t : State} {f : State → State} (hf : Guarded s (f s)) (h : run s f = .next t) : Guarded s t := by
  cases h
  split
  · exact ⟨id, rfl, rfl⟩
  · have hend := Laws.steady_settle (f s)
    exact ⟨fun hs => hend.safe (hf.safe hs), hend.inReset.trans hf.inReset, hend.record.trans hf.record⟩

theorem tap_of_run {s t : State} {f : State → State} (hf : (f s).tap = s.tap) (h : run s f = .next t) : t.tap = s.tap := by
  cases h
  rw [tap_ite, tap_settle, hf, ite_self]

/-- A configuration write changes configuration space, and what a flow of requests changes. -/
theorem guarded_configure (b d e m : Bool) (cfg : CfgSpace) (aer : AerSet) (cl : Bool) (s : State) :
    Guarded s (configure b d e m cfg aer cl s) ∧ (configure b d e m cfg aer cl s).tap = s.tap := by
  have hflow (u : State) : Laws.Steady u (requestsFlow u) := Laws.steady_of_kept (Laws.kept_requestsFlow u)
  unfold configure
  split
  · have h := hflow { s with pci := { s.pci with
      bme := b, d3hot := d, msixEn := e, msixMask := m, configured := true
      cfg := keepCfg s cfg, aer := aer, urSeen := s.pci.urSeen && !cl } }
    exact ⟨⟨h.safe, h.inReset, h.record⟩, h.tap⟩
  · exact ⟨⟨id, rfl, rfl⟩, rfl⟩

theorem guarded_hotReset (s : State) : Guarded s (if hostReaches s then { s with pci := s.pci.hotReset } else s) ∧
    (if hostReaches s then { s with pci := s.pci.hotReset } else s).tap = s.tap := by
  split <;> exact ⟨⟨id, rfl, rfl⟩, rfl⟩

/-- Beside the reset sources, three commands are not steady. -/
theorem special_cases {c : Instr} {s : State} (hs : Laws.special c s = true) (hc : c.isReset s = false) :
    c = .hotReset ∨ (∃ b d e m cfg aer cl, c = .configurationWrite b d e m cfg aer cl) ∨ ∃ r m d n, c = .tckEdge r m d n := by
  cases c with
  | hotReset => exact .inl rfl
  | configurationWrite b d e m cfg aer cl => exact .inr (.inl ⟨b, d, e, m, cfg, aer, cl, rfl⟩)
  | tckEdge r m d n => exact .inr (.inr ⟨r, m, d, n, rfl⟩)
  | voltageMonitorTrip m mv => cases hs.symm.trans hc
  | resetNAssert => cases hc
  | resetNRelease => cases hc
  | powerOnDetectorAssert => cases hc
  | powerOnDetectorRelease => cases hc
  | xtalLoss => cases hc
  | xtalReturn => cases hc
  | _ => cases hs

/-- No command but the reset sources leaves the safe state, enters or leaves a reset, or writes the retained record. -/
theorem guarded_exec {c : Instr} {s t : State} (h : exec c s = .next t) (hc : c.isReset s = false) : Guarded s t := by
  cases hs : Laws.special c s with
  | false => exact guarded_of_steady (Laws.steady_exec c s hs t h)
  | true =>
    obtain rfl | ⟨b, d, e, m, cfg, aer, cl, rfl⟩ | ⟨r, m, d, n, rfl⟩ := special_cases hs hc
    · exact guarded_of_run (guarded_hotReset s).1 h
    · exact guarded_of_run (guarded_configure b d e m cfg aer cl s).1 h
    · cases h
      obtain ⟨tap, k, hedge⟩ := Laws.tckEdge_eq r m d n s
      rw [hedge]
      exact ⟨id, rfl, rfl⟩

/-- No command but an edge of TCK and the power-on detector's assertion changes the test access port. -/
theorem tap_exec {c : Instr} {s t : State} (h : exec c s = .next t) (hc : c.isTck = false) (hp : c ≠ .powerOnDetectorAssert) :
    t.tap = s.tap := by
  cases hs : Laws.special c s with
  | false => exact (Laws.steady_exec c s hs t h).tap
  | true =>
    cases hr : c.isReset s with
    | true => exact tap_resetSource h hr hp
    | false =>
      obtain rfl | ⟨b, d, e, m, cfg, aer, cl, rfl⟩ | ⟨r, m, d, n, rfl⟩ := special_cases hs hr
      · exact tap_of_run (guarded_hotReset s).2 h
      · exact tap_of_run (guarded_configure b d e m cfg aer cl s).2 h
      · cases hc

/-- Configuration space changes by configuration writes, Hot Resets and resets alone. -/
theorem pciOf_exec {c : Instr} {s t : State} (h : exec c s = .next t) (hc : c.isReset s = false) (hhot : c ≠ .hotReset)
    (hcfg : ∀ b d e m cfg aer cl, c ≠ .configurationWrite b d e m cfg aer cl) : Laws.pciOf t.pci = Laws.pciOf s.pci := by
  cases hs : Laws.special c s with
  | false => exact (Laws.steady_exec c s hs t h).pci
  | true =>
    obtain rfl | ⟨b, d, e, m, cfg, aer, cl, rfl⟩ | ⟨r, m, d, n, rfl⟩ := special_cases hs hc
    · exact absurd rfl hhot
    · exact (hcfg b d e m cfg aer cl rfl).elim
    · cases h
      obtain ⟨tap, k, hedge⟩ := Laws.tckEdge_eq r m d n s
      rw [hedge]

/-- Settles O5: what is not a reset source, a configuration command or an edge of TCK is steady, and each of those changes its own part. -/
theorem onlyNamedCommandsChange : Obligations.OnlyNamedCommandsChange := by
  intro c s t h
  refine ⟨fun hc => (guarded_exec h hc).safe, fun hc => ⟨(guarded_exec h hc).inReset, (guarded_exec h hc).record⟩, tap_exec h,
    fun hc hhot hcfg => ?_⟩
  have hp := pciOf_exec h hc hhot hcfg
  simp only [Laws.pciOf, Prod.mk.injEq] at hp
  obtain ⟨⟨hbme, hd3, hen, hmask, hconf⟩, hspace, haer⟩ := hp
  exact ⟨hbme, hd3, hen, hmask, hconf, hspace, haer⟩

end Sys2Proof.Proofs
end

section
/-!
PROOFS. Chapter 03: the Residue Checker (R88 to R90), one step of a bank (R42, R72, R89) and the close of a chain (R73, R86).
-/
namespace Sys2Proof.Proofs
open Sys2Proof Sys2Proof.Machine

/-! ### The Residue Checker -/

/-- Where the chain's predictions are right, the check tells the rows and columns of a tile whose sums differ, modulo m, from those of
the accumulators. -/
theorem check_of_good {b : Bank} (h : Laws.Good b) (tile : List (BitVec 40)) :
    b.check tile = ((List.range 64).filter fun i => decide ((Laws.rowSum tile i - Laws.rowSum b.acc i) % 1048575 ≠ 0),
      (List.range 64).filter fun j => decide ((Laws.colSum tile j - Laws.colSum b.acc j) % 1048575 ≠ 0)) := by
  obtain ⟨-, hrows, hcols⟩ := h
  have hdiff (x y t : Int) : (res (x + t) != res (y + t)) = decide ((x - y) % 1048575 ≠ 0) := by
    have hiff := Laws.res_eq_iff (x + t) (y + t)
    rw [add_sub_add_right_eq_sub] at hiff
    simp only [bne, ← hiff, ne_eq, decide_not]
    rfl
  refine congrArg₂ Prod.mk (List.filter_congr fun i hi => ?_) (List.filter_congr fun j hj => ?_)
  · have hi := List.mem_range.1 hi
    rw [Laws.row_sum' tile i hi, hrows i hi, hdiff]
  · have hj := List.mem_range.1 hj
    rw [Laws.col_sum' tile j hj, hcols j hj, hdiff]

/-- Settles O26: every step keeps the predictions right, and a tile that drains as it was accumulated differs nowhere. -/
theorem residueCheckerSound : Obligations.ResidueCheckerSound := by
  intro b f t steps _ hsteps
  rw [check_of_good (Laws.good_chained b f t steps hsteps)]
  simp

/-- The change of the accumulator in row r and column c. -/
def upsetBy (acc : List (BitVec 40)) (r c k : Nat) : Int :=
  (acc.getD (64 * r + c) 0 ^^^ BitVec.ofNat 40 (2 ^ k)).toInt - (acc.getD (64 * r + c) 0).toInt

section
variable {acc : List (BitVec 40)} {r c k : Nat} (hacc : acc.length ≤ 4096) (hr : r < 64) (hc : c < 64)
include hacc hr hc

theorem ent_flipBit_sub {i j : Nat} (hi : i < 64) (hj : j < 64) :
    Laws.ent (tileRows (flipBit acc r c k)) i j - Laws.ent (tileRows acc) i j = if i = r ∧ j = c then upsetBy acc r c k else 0 := by
  rw [Laws.flip_ent acc hacc r c k i j hr hc hi hj]
  split
  · next h =>
    obtain ⟨rfl, rfl⟩ := h
    rw [Laws.tile_ent acc i j hi hj, upsetBy]
  · exact sub_self _

theorem rowSum_flipBit_sub {i : Nat} (hi : i < 64) :
    Laws.rowSum (flipBit acc r c k) i - Laws.rowSum acc i = if i = r then upsetBy acc r c k else 0 := by
  rw [Laws.rowSum, Laws.rowSum, ← Finset.sum_sub_distrib,
    Finset.sum_congr rfl fun j hj => ent_flipBit_sub hacc hr hc hi (Finset.mem_range.1 hj)]
  by_cases h : i = r <;> simp [h, hc]

theorem colSum_flipBit_sub {j : Nat} (hj : j < 64) :
    Laws.colSum (flipBit acc r c k) j - Laws.colSum acc j = if j = c then upsetBy acc r c k else 0 := by
  rw [Laws.colSum, Laws.colSum, ← Finset.sum_sub_distrib,
    Finset.sum_congr rfl fun i hi => ent_flipBit_sub hacc hr hc (Finset.mem_range.1 hi) hj]
  by_cases h : j = c <;> simp [h, hr]

end

/-- One bit changes an accumulator by no multiple of the modulus. -/
theorem upsetBy_mod_ne_zero (acc : List (BitVec 40)) (r c : Nat) {k : Nat} (hk : k < 40) : upsetBy acc r c k % 1048575 ≠ 0 := by
  have hpow := Laws.pow_mod k hk
  obtain h | h := Laws.xor_toInt (acc.getD (64 * r + c) 0) k hk <;> rw [upsetBy, h]
  · exact hpow
  · rw [ne_eq, ← Int.dvd_iff_emod_eq_zero, dvd_neg, Int.dvd_iff_emod_eq_zero]
    exact hpow

/-- Settles O27: the upset changes the sums of its row and its column alone, by a power of 2, which the modulus does not divide. -/
theorem residueCheckerFindsOneBit : Obligations.ResidueCheckerFindsOneBit := by
  intro b f t steps row col bit hacc hsteps hrow hcol hbit
  have hlen := Laws.acc_le b f t steps hacc hsteps
  have hne := upsetBy_mod_ne_zero (chained b f t steps).acc row col hbit
  have hsame {i n : Nat} : decide ((if i = n then upsetBy (chained b f t steps).acc row col bit else 0) % 1048575 ≠ 0) = true ↔ i = n := by
    by_cases h : i = n <;> simp [h, hne]
  rw [check_of_good (Laws.good_chained b f t steps hsteps)]
  refine congrArg₂ Prod.mk (Laws.filter_one row _ hrow fun i hi => ?_) (Laws.filter_one col _ hcol fun j hj => ?_)
  · rw [rowSum_flipBit_sub hlen hrow hcol hi]
    exact hsame
  · rw [colSum_flipBit_sub hlen hrow hcol hj]
    exact hsame

/-! ### One step of a bank -/

/-- Settles O24: the exact sums of a step, wrapped. -/
theorem bankStepAccumulates : Obligations.BankStepAccumulates := by
  intro b act w i j hact hrows _ hi hj
  rw [Laws.step_ent b act w hact i j hi hj, Laws.exact_ent b.acc act w hact hrows i j hi hj, Laws.tile_ent b.acc i j hi hj]
  rfl

/-! ### The close of a chain -/

/-- Neither upset nor injected, a tile drains as its bank holds it, filled up to 64 rows. -/
theorem drainedTile_clean (k : Core) (a : Nat) (bank : Bool) (acc : List (BitVec 40)) (h : k.st.injArmed = false) :
    drainedTile k a bank [] acc = acc ++ List.replicate (4096 - acc.length) 0 := by
  simp [drainedTile, injHits, h]

/-- Outside WINOGRAD mode, with no upset and no armed injection, a chain's close changes its bank and its Drain Buffer entry, and signals
what the check finds. -/
theorem closeChain_clean (f : MmaF) (e a : Nat) (yd : Bool) (k : Core) (ev : List (Nat × DisEvent)) (hmode : f.mode ≠ 1)
    (h : k.st.injArmed = false) :
    closeChain f e [] yd (k, ev) a =
      (let i := bankIx a f.bank
      let b := k.mx.banks.getD i {}
      let tile := b.acc ++ List.replicate (4096 - b.acc.length) 0
      ({ k with mx := { k.mx with
          banks := upd k.mx.banks i fun b => { b with chain := none, lastStep := some e }
          lastLast := upd k.mx.lastLast a fun _ => some e
          drains := upd k.mx.drains i fun _ => some { e := e, mode := f.mode.toNat, tile := tile }
          checks := k.mx.checks ++ [(e + 19, e + 36)] } },
        ev ++ if b.check tile = ([], []) then []
          else [(e + 36, { det := BitVec.ofNat 32 (a * 2 ^ 16 + locator a (b2n f.bank) (b.check tile)) })])) := by
  have hinj : injHits k a f.bank = false := by simp [injHits, h]
  simp only [closeChain, drainedTile_clean k a f.bank _ h, hinj, if_neg hmode, Bool.false_eq_true, if_false]
  generalize Bank.check _ _ = bad
  have hbad : (bad.1.isEmpty && bad.2.isEmpty) = true ↔ bad = ([], []) := by
    simp [Prod.ext_iff]
  simp only [hbad]

/-- Settles O25: the one bank and the one entry that the close updates are those of the array and the bank that the fields name. -/
theorem chainCloses : Obligations.ChainCloses := by
  intro f e a yd k ev ha hmode hinj hbanks hdrains i b tile r
  have hi : i < 8 := by
    have : b2n f.bank ≤ 1 := by cases f.bank <;> decide
    omega
  have hr : r = _ := closeChain_clean f e a yd k ev hmode hinj
  rw [hr]
  refine ⟨Laws.getD_upd_same none _ i _ (hdrains ▸ hi), Laws.getD_upd_same ({} : Bank) _ i _ (hbanks ▸ hi), fun i' hne => ⟨?_, ?_⟩, rfl, rfl, rfl⟩
  · exact Laws.getD_upd_ne ({} : Bank) _ i i' _ hne
  · exact Laws.getD_upd_ne none _ i i' _ hne

end Sys2Proof.Proofs
end

section
/-!
PROOFS. Chapters 00 and 95: what a command answers, well formed or not.
-/
namespace Sys2Proof.Proofs
open Sys2Proof Sys2Proof.Machine

/-- The length that a message's header gives (14, R350). -/
theorem msgOf_len (hdr : BitVec 128) : (msgOf hdr).len = hdr.toNat / 2 ^ 40 % 256 + 1 := by
  have hlen : (msgOf hdr).len = hdr.toNat >>> 40 % 256 + 1 := rfl
  exact hlen.trans (congrArg (fun n => n % 256 + 1) (Nat.shiftRight_eq_div_pow hdr.toNat 40))

/-- The outcome of a command that runs: nothing in a reset, else its effect, settled. -/
def Runs (s : State) (o : Host.Outcome State Fault Refusal) : Prop := ∃ f, o = run s f

theorem runs_run (s : State) (f : State → State) : Runs s (run s f) := ⟨f, rfl⟩

theorem runs_if_pos {s : State} {p : Prop} [Decidable p] (h : p) (f : State → State) (o : Host.Outcome State Fault Refusal) :
    Runs s (if p then run s f else o) := ⟨f, if_pos h⟩

/-- A well-formed command but the reset sources and the edges of TCK runs. -/
theorem exec_runs (c : Instr) (s : State) (hw : c.wellFormed = true) (hr : c.isReset s = false) (ht : c.isTck = false) :
    Runs s (exec c s) := by
  cases c with
  | flitReceive p flit => exact runs_if_pos (of_decide_eq_true hw) ..
  | wrReq p hdr data => exact runs_if_pos ((of_decide_eq_true hw).trans (msgOf_len hdr).symm) ..
  | rdRsp p hdr data => exact runs_if_pos ((of_decide_eq_true hw).trans (msgOf_len hdr).symm) ..
  | temperatureSample vals => exact runs_if_pos (of_decide_eq_true hw) ..
  | mgtSramScrub word found => exact runs_if_pos (of_decide_eq_true hw) ..
  | voltageMonitorTrip m mv => exact ⟨_, if_neg (ne_true_of_eq_false hr)⟩
  | tckEdge => cases ht
  | resetNAssert => cases hr
  | resetNRelease => cases hr
  | powerOnDetectorAssert => cases hr
  | powerOnDetectorRelease => cases hr
  | xtalLoss => cases hr
  | xtalReturn => cases hr
  | tickStart up => exact runs_run s fun s => tickBoundary (strikes up s)
  | bundleDispatch c up => exact runs_run s fun s => dispatchBundle c (strikes up s)
  | timeCtrlWrite v => exact runs_run s fun s => { s with time := s.time.withCtrl v s.clk.ns }
  | timeTrimWrite v => exact runs_run s fun s => { s with time := s.time.withTrim v }
  | hotReset => exact runs_run s fun s => if hostReaches s then { s with pci := s.pci.hotReset } else s
  | patternLaunch => exact runs_run s fun s => if s.glb.patState = 3 then launchNow s else s
  | identSend => exact runs_run s fun s => if patInUse s then sendIdents s else s
  | _ => exact runs_run ..

theorem exec_reset_or_tck (c : Instr) (s : State) (h : c.isReset s = true ∨ c.isTck = true) : ∃ t, exec c s = .next t := by
  cases c with
  | voltageMonitorTrip m mv => exact ⟨_, if_pos (h.resolve_right Bool.false_ne_true)⟩
  | tckEdge => exact ⟨_, rfl⟩
  | resetNAssert => exact ⟨_, rfl⟩
  | resetNRelease => exact ⟨_, rfl⟩
  | powerOnDetectorAssert => exact ⟨_, rfl⟩
  | powerOnDetectorRelease => exact ⟨_, rfl⟩
  | xtalLoss => exact ⟨_, rfl⟩
  | xtalReturn => exact ⟨_, rfl⟩
  | _ => exact absurd h (by rintro (h | h) <;> cases h)

theorem exec_next (c : Instr) (s : State) (hw : c.wellFormed = true) : ∃ t, exec c s = .next t := by
  cases hr : c.isReset s with
  | true => exact exec_reset_or_tck c s (.inl hr)
  | false =>
    cases ht : c.isTck with
    | true => exact exec_reset_or_tck c s (.inr ht)
    | false =>
      obtain ⟨f, hf⟩ := exec_runs c s hw hr ht
      exact ⟨_, hf⟩

/-- The checks of `wellFormed` are those that the meanings make, but for the bank of a scrub. -/
theorem exec_illFormed (c : Instr) (s : State) (hw : c.wellFormed = false) :
    (∃ m bank found, c = .scrubCycle m bank found) ∨ ∃ w, exec c s = .fault (.illFormed w) := by
  cases c with
  | scrubCycle m bank found => exact .inl ⟨m, bank, found, rfl⟩
  | flitReceive p flit => exact .inr ⟨_, if_neg (of_decide_eq_false hw)⟩
  | wrReq p hdr data => exact .inr ⟨_, if_neg fun h => of_decide_eq_false hw (h.trans (msgOf_len hdr))⟩
  | rdRsp p hdr data => exact .inr ⟨_, if_neg fun h => of_decide_eq_false hw (h.trans (msgOf_len hdr))⟩
  | temperatureSample vals => exact .inr ⟨_, if_neg (of_decide_eq_false hw)⟩
  | mgtSramScrub word found => exact .inr ⟨_, if_neg (of_decide_eq_false hw)⟩
  | _ => cases hw

theorem exec_not_refused (c : Instr) (s : State) (r : Refusal) : exec c s ≠ .refused r := by
  intro h
  cases hw : c.wellFormed with
  | true =>
    obtain ⟨t, ht⟩ := exec_next c s hw
    cases ht.symm.trans h
  | false =>
    obtain ⟨m, bank, found, rfl⟩ | ⟨w, hf⟩ := exec_illFormed c s hw
    · cases h
    · cases hf.symm.trans h

/-- Settles O2. -/
theorem everyCommandAnswers : Obligations.EveryCommandAnswers := by
  refine ⟨fun c s hw => ?_, exec_illFormed, exec_not_refused⟩
  obtain ⟨t, ht⟩ := exec_next c s hw
  exact ⟨t, ht, (Laws.held_exec c s t ht).1⟩

end Sys2Proof.Proofs
end

section
/-!
PROOFS. Chapters 02, 04 and 07: the Vector Unit's instructions, each from every state in which it can issue.
-/
namespace Sys2Proof.Proofs
open Sys2Proof Sys2Proof.Machine

/-! ### Issue -/

/-- An instruction that can issue answers its settled effect at its cycle of issue. -/
theorem exec_issue {i : Instr} {c : Nat} {q : QId} {w : BitVec 48} {ready : State → QEnt → Option Nat} {act : QEnt → State → State}
    {s u : State} {free : Nat} {e : QEnt} {queued : Bool} {t : Nat} (he : exec i s = run s (issue c q w ready act))
    (hr : ready s e = some free) (h : IssuesAt s c q w free e queued t) (hu : act e (issuing s c q queued t) = u) :
    exec i s = .next (settle u) := by
  rw [he, Laws.run_eq _ h.1, Laws.issue_at ready act hr h, hu]

/-! ### Lane-wise instructions -/

theorem threeSource {mk : CoreId → Bool → BitVec 5 → BitVec 5 → BitVec 5 → BitVec 5 → Instr} {op lat : Nat} {f : Word → Word → Word → Word}
    (he : ∀ c d vd va vb vc s, exec (mk c d vd va vb vc) s =
      run s (laneOp c (wordR op vd va vb vc) lat d [va, vb, vc] vd (lanes3 f))) : ThreeSource mk op lat f := by
  intro c d vd va vb vc
  exact Laws.laneResult _ (he c d vd va vb vc) fun s e => rfl

/-- One value in every lane. -/
theorem replicate_lanes (x : Word) : List.replicate 64 x = (List.range 64).map fun _ => x := by
  rw [List.map_const', List.length_range]

theorem shiftRight_eq_ofNat (a : Word) (n : Nat) : a >>> n = BitVec.ofNat 32 (a.toNat / 2 ^ n) := by
  apply BitVec.eq_of_toNat_eq
  rw [BitVec.toNat_ushiftRight, Nat.shiftRight_eq_div_pow, BitVec.toNat_ofNat,
    Nat.mod_eq_of_lt (lt_of_le_of_lt (Nat.div_le_self _ _) a.isLt)]

/-- The immediate above the low half of a word. -/
theorem append_truncate_eq (imm : BitVec 16) (a : Word) :
    imm ++ a.truncate 16 = BitVec.ofNat 32 (imm.toNat * 2 ^ 16 + a.toNat % 2 ^ 16) := by
  have himm := imm.isLt
  apply BitVec.eq_of_toNat_eq
  rw [BitVec.toNat_append, BitVec.truncate, BitVec.toNat_setWidth, BitVec.toNat_ofNat, Nat.shiftLeft_eq, Nat.mul_comm,
    ← Nat.two_pow_add_eq_or_of_lt (Nat.mod_lt _ (by decide))]
  omega

/-- A register's lanes, one by one. -/
theorem regLanes_eq_lanes (s : State) (c : Nat) (r : BitVec 5) : regLanes (coreAt s c) r.toNat = (List.range 64).map (lane s c r) :=
  List.map_congr_left fun i hi =>
    (Laws.getD_range_map (fun i => ((coreAt s c).vu.vreg.getD r.toNat []).getD i 0) 64 i 0 (List.mem_range.1 hi)).symm

/-- A two-source instruction whose meaning names its operation as the table does. -/
theorem twoSource {mk : CoreId → Bool → BitVec 5 → BitVec 5 → BitVec 5 → Instr} {op lat : Nat} {f : Word → Word → Word}
    (he : ∀ c d vd va vb s, exec (mk c d vd va vb) s = execR2 c d op lat f vd va vb s) : TwoSource mk op lat f :=
  Laws.twoSource f (fun _ _ => rfl) he

/-- An instruction with an immediate whose meaning names its operation as the table does. -/
theorem immediate {mk : CoreId → Bool → BitVec 5 → BitVec 5 → BitVec 16 → Instr} {op : Nat} {f : Word → BitVec 16 → Word}
    (he : ∀ c d vd va imm s, exec (mk c d vd va imm) s = execI1 c d op 3 (lanes1 fun a => f a imm) vd va imm s) : Immediate mk op f :=
  Laws.immediate f (fun _ _ => rfl) he

/-- An instruction that gives every lane one value. -/
theorem uniformLanes {i : Instr} {c : CoreId} {d : Bool} {w : BitVec 48} {lat : Nat} {vd : BitVec 5} {srcs : List (BitVec 5)}
    {f : List (List Word) → Word} {x : State → Word}
    (he : ∀ s, exec i s = run s (laneOp c w lat d srcs vd fun l => List.replicate 64 (f l)))
    (hx : ∀ s, f (srcs.map fun r => regLanes (coreAt s c) r.toNat) = x s) : LaneResult i c d w lat vd srcs fun s _ => x s :=
  Laws.laneResult _ he fun s _ => by dsimp only; rw [hx, replicate_lanes]

theorem vsel_lanes : ThreeSource .vsel 0x0B 3 fun a b m => if m ≠ 0 then a else b := by
  have hsel : (fun a b m : Word => if m ≠ 0 then a else b) = fun a b m => if m = 0 then b else a := by
    funext a b m
    exact ite_not ..
  rw [hsel]
  exact threeSource fun _ _ _ _ _ _ _ => rfl

theorem vmovi_lanes (c : CoreId) (d : Bool) (vd : BitVec 5) (imm : BitVec 16) :
    LaneResult (.vmovi c d vd imm) c d (wordI 0x14 vd 0 imm) 3 vd [] fun _ _ => imm.signExtend 32 :=
  uniformLanes (fun _ => rfl) fun _ => rfl

theorem vbcast_lanes (c : CoreId) (d : Bool) (vd va : BitVec 5) (imm : BitVec 16) :
    LaneResult (.vbcast c d vd va imm) c d (wordI 0x18 vd va imm) 3 vd [va] fun s _ => lane s c va imm.toNat :=
  uniformLanes (fun _ => rfl) fun _ => rfl

theorem vredi_lanes (c : CoreId) (d : Bool) (vd va : BitVec 5) :
    LaneResult (.vredi c d vd va) c d (wordR 0x1A vd va 0 0) 5 vd [va]
      fun s _ => ((List.range 64).map (lane s c va)).foldl (fun a b => a + b) 0 :=
  uniformLanes (fun _ => rfl) fun s => congrArg (List.foldl (· + ·) 0) (regLanes_eq_lanes s c va)

theorem vredf_lanes (c : CoreId) (d : Bool) (vd va : BitVec 5) :
    LaneResult (.vredf c d vd va) c d (wordR 0x1B vd va 0 0) 18 vd [va] fun s _ => f32Tree ((List.range 64).map (lane s c va)) :=
  uniformLanes (fun _ => rfl) fun s => congrArg f32Tree (regLanes_eq_lanes s c va)

/-- Settles O13: most instructions name their operation as the table does; minimum, maximum, comparison and shifts are rewritten. -/
theorem vectorInteger : Obligations.VectorInteger := by
  have hlt (a b : Word) : (if BitVec.slt a b then 1 else 0 : Word) = if a.toInt < b.toInt then 1 else 0 := by
    simp only [BitVec.slt, decide_eq_true_eq]
  have hshl (a b : Word) : a <<< fld b 4 0 = a <<< (b.toNat % 32) := by rw [Laws.fld40]
  have hsra (a b : Word) : a.sshiftRight (fld b 4 0) = BitVec.ofInt 32 (a.toInt / 2 ^ (b.toNat % 32)) := by rw [Laws.fld40, Laws.ssr]
  have hsrl (a b : Word) : a >>> fld b 4 0 = BitVec.ofNat 32 (a.toNat / 2 ^ (b.toNat % 32)) := by rw [Laws.fld40, shiftRight_eq_ofNat]
  refine ⟨⟨?vadd, ?vsub, ?vmul, ?vand, ?vor, ?vxor, ?vmin, ?vmax, ?vcmpeq, ?vcmplt, vsel_lanes, ?vshl, ?vsra, ?vsrl⟩,
    ?vaddi, ?vshli, ?vsrai, ?vrshri, vmovi_lanes, ?vmovhi, vbcast_lanes, ?vmov, vredi_lanes⟩
  case vmin => exact Laws.twoSource _ Laws.bvmin fun _ _ _ _ _ _ => rfl
  case vmax => exact Laws.twoSource _ Laws.bvmax fun _ _ _ _ _ _ => rfl
  case vcmplt => exact Laws.twoSource _ hlt fun _ _ _ _ _ _ => rfl
  case vshl => exact Laws.twoSource _ hshl fun _ _ _ _ _ _ => rfl
  case vsra => exact Laws.twoSource _ hsra fun _ _ _ _ _ _ => rfl
  case vsrl => exact Laws.twoSource _ hsrl fun _ _ _ _ _ _ => rfl
  case vsrai => exact Laws.immediate _ (fun a imm => Laws.ssr a imm.toNat) fun _ _ _ _ _ _ => rfl
  case vmovhi => exact Laws.immediate _ (fun a imm => append_truncate_eq imm a) fun _ _ _ _ _ _ => rfl
  case vmov => exact Laws.oneSource fun _ _ _ _ _ => rfl
  case vaddi | vshli | vrshri => exact immediate fun _ _ _ _ _ _ => rfl
  case vadd | vsub | vmul | vand | vor | vxor | vcmpeq => exact twoSource fun _ _ _ _ _ _ => rfl

/-! ### Table interpolation -/

section
variable (c : CoreId) (d : Bool) (vd va : BitVec 5) (table : BitVec 16) {s : State} {e : QEnt} {queued : Bool} {t : Nat}
  (h : IssuesAt s c .vector (wordI 0x30 vd va table) (coreAt s c).vu.vAt e queued t)
include h

theorem exec_vtab_loaded {tab : VTable} (htab : (coreAt (issuing s c .vector queued t) c).vu.tabs.getD table.toNat none = some tab) :
    exec (.vtab c d vd va table) s = .next (settle (laneEnd c d 4 vd [va]
      (fun i => interpolate tab.x0 tab.sh tab.t (lane (issuing s c .vector queued t) c va i)) e (issuing s c .vector queued t))) :=
  exec_issue rfl rfl h (Laws.lane_act (srcs := [va]) (by rw [htab]; rfl) rfl)

theorem exec_vtab_unloaded (htab : (coreAt (issuing s c .vector queued t) c).vu.tabs.getD table.toNat none = none) :
    exec (.vtab c d vd va table) s = .next (settle (vectorSkipped c 0xC e (issuing s c .vector queued t))) :=
  exec_issue rfl rfl h (Laws.vector_skip (by rw [htab]))

end

/-- Settles O14. -/
theorem vectorFloat : Obligations.VectorFloat := by
  refine ⟨⟨?fadd, ?fsub, ?fmul, ?fma, ?fmin, ?fmax, ?itof, ?ftoi, ?fcmplt, ?fcmpeq, ?vexp2, vredf_lanes⟩, ?loaded, ?unloaded⟩
  case fma => exact threeSource fun _ _ _ _ _ _ _ => rfl
  case itof | ftoi | vexp2 => exact Laws.oneSource fun _ _ _ _ _ => rfl
  case fadd | fsub | fmul | fmin | fmax | fcmplt | fcmpeq => exact twoSource fun _ _ _ _ _ _ => rfl
  case loaded =>
    intro c d vd va table s e queued t tab h htab
    exact exec_vtab_loaded c d vd va table h htab
  case unloaded =>
    intro c d vd va table s e queued t h htab
    exact exec_vtab_unloaded c d vd va table h htab

/-! ### VLD, VST and VTLD -/

section
variable (c : CoreId) (d : Bool) (f : VmemF) {s : State} {e : QEnt} {queued : Bool} {t : Nat}

theorem exec_vld (h : IssuesAt s c .vector (wordVmem 0x38 f) (coreAt s c).vu.vAt e queued t) :
    let s1 := issuing s c .vector queued t
    let a := vmemAddr f e
    let n := fmtBytes f.fmt.toNat
    exec (.vld c d f) s = .next (settle (if 0x1E0000 < a + n then vectorSkipped c 0xC e s1
      else vectorEnd c 1 4 d [] [(f.reg.toNat, (List.range 64).map (loadLane f.fmt.toNat ((vectorView (coreAt s1 c) s1.clk.cyc).rdN a n)))] [] none
        (readRun (.asp c) (some c.val) a n) e s1)) := by
  intro s1 a n
  refine exec_issue rfl rfl h ?_
  by_cases hfit : 0x1E0000 < a + n
  · rw [if_pos hfit]
    exact Laws.vector_skip (if_pos hfit)
  · rw [if_neg hfit]
    exact Laws.vector_act (if_neg hfit) (Laws.readRun_clk _ _ _ _)

theorem exec_vst (h : IssuesAt s c .vector (wordVmem 0x39 f) (coreAt s c).vu.vAt e queued t) :
    let s1 := issuing s c .vector queued t
    let a := vmemAddr f e
    exec (.vst c d f) s = .next (settle (if 0x1E0000 < a + fmtBytes f.fmt.toNat then vectorSkipped c 0xC e s1
      else vectorEnd c 1 4 d [f.reg.toNat] []
        (cellsAt a ((List.range 64).flatMap fun i => storeLane f.fmt.toNat (lane s1 c f.reg i))) none id e s1)) := by
  intro s1 a
  have hlanes : (regLanes (coreAt s1 c) f.reg.toNat).flatMap (storeLane f.fmt.toNat) =
      (List.range 64).flatMap fun i => storeLane f.fmt.toNat (lane s1 c f.reg i) := by
    rw [regLanes_eq_lanes, List.flatMap_map]
  refine exec_issue rfl rfl h ?_
  rw [← hlanes]
  by_cases hfit : 0x1E0000 < a + fmtBytes f.fmt.toNat
  · rw [if_pos hfit]
    exact Laws.vector_skip (if_pos hfit)
  · rw [if_neg hfit]
    exact Laws.vector_act (if_neg hfit) fun _ => rfl

end

/-- A value that w bits hold is read back from a container of w' bits. -/
theorem signedOf_wrapTo {w w' : Nat} (v : Int) (hw : 0 < w) (hle : w ≤ w') (hlo : -2 ^ (w - 1) ≤ v) (hhi : v < 2 ^ (w - 1)) :
    signedOf w (wrapTo w' v) = v := by
  have hcut : BitVec.ofNat w (wrapTo w' v) = BitVec.ofInt w v := by
    have hdvd : ((2 ^ w : Nat) : Int) ∣ ((2 ^ w' : Nat) : Int) := Int.natCast_dvd_natCast.2 (pow_dvd_pow 2 hle)
    have hpos : (0 : Int) ≤ v % ((2 ^ w' : Nat) : Int) := Int.emod_nonneg _ (by positivity)
    apply BitVec.eq_of_toNat_eq
    apply Int.natCast_inj.1
    rw [BitVec.toNat_ofNat, BitVec.toNat_ofInt, wrapTo, Int.natCast_mod, Int.toNat_of_nonneg hpos, Int.emod_emod_of_dvd v hdvd,
      Int.toNat_of_nonneg (Int.emod_nonneg _ (by positivity))]
  rw [signedOf_eq_toInt w _ hw, hcut, BitVec.toInt_ofInt_eq_self hw hlo hhi]

theorem leAt_wrapTo (k : Nat) (v : Int) : leAt (leBytes k (wrapTo (8 * k) v)) 0 k = wrapTo (8 * k) v := by
  rw [leAt_leBytes, wrapTo_eq_toNat, Nat.mod_eq_of_lt]
  rw [show 256 ^ k = 2 ^ (8 * k) from (Nat.pow_mul 2 8 k).symm]
  exact (BitVec.ofInt (8 * k) v).isLt

/-- One byte of a wrapped value. -/
theorem leBytes_wrapTo_getD (v : Int) : (leBytes 1 (wrapTo 8 v)).getD 0 0 = BitVec.ofInt 8 v := by
  have hbyte : BitVec.ofNat 8 (BitVec.ofInt 8 v).toNat = BitVec.ofInt 8 v := by rw [BitVec.ofNat_toNat, BitVec.setWidth_eq]
  rw [wrapTo_eq_toNat, ← hbyte]
  simp only [leBytes, List.range_one, List.map_singleton, List.getD_cons_zero, Nat.mul_zero, Nat.shiftRight_zero, hbyte]

/-- The formats of a lane (Table 7.3): what VST stores and VLD loads again. -/
theorem loadLane_storeLane (x : Word) :
    loadLane 0 (storeLane 0 x) 0 = BitVec.ofInt 32 (max (-128) (min 127 x.toInt)) ∧
    loadLane 1 (storeLane 1 x) 0 = BitVec.ofInt 32 (max 0 (min 255 x.toInt)) ∧
    loadLane 2 (storeLane 2 x) 0 = BitVec.ofInt 32 (max (-2048) (min 2047 x.toInt)) ∧
    loadLane 3 (storeLane 3 x) 0 = BitVec.ofInt 32 (max (-32768) (min 32767 x.toInt)) ∧
    loadLane 4 (storeLane 4 x) 0 = x := by
  have hclamp (lo hi : Int) : max lo (min hi x.toInt) = clampI x.toInt lo hi := by rw [clampI, min_comm]
  have hrange {lo hi : Int} (h : lo ≤ hi) : lo ≤ clampI x.toInt lo hi ∧ clampI x.toInt lo hi ≤ hi := by
    unfold clampI
    omega
  simp only [hclamp]
  refine ⟨?int8, ?uint8, ?int12, ?int16, ?word⟩
  case int8 =>
    have hv := hrange (show (-128 : Int) ≤ 127 by decide)
    simp only [loadLane, storeLane, leBytes_wrapTo_getD, BitVec.signExtend]
    rw [BitVec.toInt_ofInt_eq_self (by decide) hv.1 (by omega)]
  case uint8 =>
    have hv := hrange (show (0 : Int) ≤ 255 by decide)
    simp only [loadLane, storeLane, leBytes_wrapTo_getD]
    apply BitVec.eq_of_toNat_eq
    simp only [BitVec.truncate_eq_setWidth, BitVec.toNat_setWidth, BitVec.toNat_ofInt]
    omega
  case int12 =>
    have hv := hrange (show (-2048 : Int) ≤ 2047 by decide)
    simp only [loadLane, storeLane]
    rw [Nat.mul_zero, leAt_wrapTo 2, signedOf_wrapTo _ (by decide) (by decide) hv.1 (by omega)]
  case int16 =>
    have hv := hrange (show (-32768 : Int) ≤ 32767 by decide)
    simp only [loadLane, storeLane]
    rw [Nat.mul_zero, leAt_wrapTo 2, signedOf_wrapTo _ (by decide) (by decide) hv.1 (by omega)]
  case word =>
    simp only [loadLane, storeLane]
    rw [Nat.mul_zero, leAt_leBytes, Nat.mod_eq_of_lt (show x.toNat < 256 ^ 4 from x.isLt), BitVec.ofNat_toNat, BitVec.setWidth_eq]

/-- Settles O17. -/
theorem vectorLoadsAndStores : Obligations.VectorLoadsAndStores := by
  refine ⟨⟨fun c d f s e queued t h => exec_vld c d f h, fun c d f s e queued t h => exec_vst c d f h, fun c d k poff s e queued t h => ?_⟩,
    loadLane_storeLane⟩
  exact exec_issue rfl rfl h (Laws.vector_act rfl fun _ => rfl)

/-! ### VPOOL -/

/-- The reads of a window take no time. -/
theorem readWindow_clk (c n : Nat) (l : List Nat) (s : State) :
    (l.foldl (fun s a => readRun (.asp c) (some c) a n s) s).clk = s.clk :=
  Laws.clk_foldl _ (fun s a => Laws.readRun_clk _ _ a n s) l s

/-- Settles O18: the record, the pixel and the window's elements are what the instruction's two skips check. -/
theorem vectorPool : Obligations.VectorPool := by
  intro c d vd geom base pcnt bcnt s e queued t h s1
  constructor
  · intro hnone
    refine exec_issue rfl rfl h ?_
    rw [hnone]
  intro g hg p n px rows
  constructor
  · intro hbad
    refine exec_issue rfl rfl h ?_
    rw [hg]
    refine Laws.vector_skip (if_pos ?_)
    simp only [Bool.or_eq_true, decide_eq_true_eq, List.any_eq_true]
    exact hbad
  · intro hp hpx
    refine exec_issue rfl rfl h ?_
    rw [hg]
    refine Laws.vector_act (if_neg ?_) (readWindow_clk _ _ _)
    simp only [Bool.or_eq_true, decide_eq_true_eq, List.any_eq_true, not_or, not_exists, not_and, not_lt, not_le]
    exact ⟨hp, hpx⟩

/-! ### Drain reads -/

theorem drainRead_clk (c : Nat) (r : DrainRd) (s : State) : (drainRead c r s).clk = s.clk := rfl

/-- Settles O20: the read is forbidden, or its parameters or its range are bad, or it is made. -/
theorem drainReads : Obligations.DrainReads := by
  constructor
  · intro c d f s e queued t r hr h s1 de
    refine ⟨fun hbad => ?_, fun hok hnone => ?_, fun ps hok hps => ?_⟩
    · exact exec_issue rfl hr h (if_pos hbad)
    · refine exec_issue rfl hr h ?_
      rw [if_neg (ne_true_of_eq_false hok), hnone]
    · refine exec_issue rfl hr h ?_
      rw [if_neg (ne_true_of_eq_false hok), hps]
      exact Laws.vector_act rfl (drainRead_clk c _)
  · intro c d f s e queued t r hr h s1 a
    refine exec_issue rfl hr h (if_congr Iff.rfl rfl (if_congr Iff.rfl rfl ?_))
    exact Laws.vector_act rfl (drainRead_clk c _)

end Sys2Proof.Proofs
end

section
/-!
PROOFS. Chapters 06 and 07: when a vector result is in its register, and what a lane-wise instruction leaves unchanged.
-/
namespace Sys2Proof.Proofs
open Sys2Proof Sys2Proof.Machine

/-! ### Results become visible -/

/-- Registers after the writes in flight that are visible at cycle t. -/
def visibleRegs (v : Vu) (t : Nat) : List (List Word) :=
  (sortWrites (v.vwr.filter fun w => decide (w.visibleAt ≤ t))).foldl Laws.putWrite v.vreg

theorem commit_vreg (v : Vu) (t : Nat) : (v.commit t).vreg = visibleRegs v t := rfl

section
variable {v : Vu} {t : Nat} (w : VWrite) (hw : w.visibleAt ≤ t)
include hw

theorem visibleRegs_append (at_ : Nat) :
    visibleRegs { v with vAt := at_, vwr := v.vwr ++ [w] } t =
      (writeInsert w (sortWrites (v.vwr.filter fun x => decide (x.visibleAt ≤ t)))).foldl Laws.putWrite v.vreg := by
  rw [visibleRegs, List.filter_append, List.filter_singleton, decide_eq_true hw, Bool.cond_true, Laws.sortWrites_append]

/-- A visible write in flight that none of its register comes after is what its register holds. -/
theorem visibleRegs_append_same (at_ : Nat) (hlast : ∀ x ∈ v.vwr, x.reg = w.reg → x.visibleAt ≤ w.visibleAt) :
    (visibleRegs { v with vAt := at_, vwr := v.vwr ++ [w] } t).getD w.reg [] = w.lanes := by
  rw [visibleRegs_append w hw at_]
  refine Laws.insert_same w _ _ (fun x hx hreg => hlast x ?_ hreg) (Laws.sortWrites_sorted _)
  exact List.mem_of_mem_filter ((Laws.mem_sortWrites _ x).1 hx)

theorem visibleRegs_append_ne (at_ j : Nat) (hj : j ≠ w.reg) :
    (visibleRegs { v with vAt := at_, vwr := v.vwr ++ [w] } t).getD j [] = (visibleRegs v t).getD j [] := by
  rw [visibleRegs_append w hw at_, Laws.insert_ne w j hj]
  rfl

end

/-- Settles O21: the new write is the last of its register among those that are visible, and touches no other. -/
theorem vectorResultsBecomeVisible : Obligations.VectorResultsBecomeVisible := by
  intro c lat t vd srcs res e s hc hvis hlast
  obtain ⟨hvu, hlen⟩ := Laws.laneIssued_vu c lat vd srcs res e s hc
  have hregs : (coreAt (commit c t (laneIssued c lat vd srcs res e s)) c).vu.vreg =
      visibleRegs { (coreAt s c).vu with
        vAt := s.clk.cyc + 1, vwr := (coreAt s c).vu.vwr ++ [⟨s.clk.cyc + lat, vd.toNat, (List.range 64).map res⟩] } t := by
    rw [Laws.commit_vu c t _ hlen, hvu, commit_vreg]
  refine ⟨fun i hi => ?_, fun r i hr => ?_⟩
  · rw [Laws.lane_eq, if_pos hi, hregs, visibleRegs_append_same ⟨s.clk.cyc + lat, vd.toNat, (List.range 64).map res⟩ hvis _ hlast,
      Laws.getD_range_map _ _ _ _ hi]
  · have hne : r.toNat ≠ vd.toNat := fun h => hr (BitVec.eq_of_toNat_eq h)
    rw [Laws.lane_eq, Laws.lane_eq, hregs, visibleRegs_append_ne ⟨s.clk.cyc + lat, vd.toNat, (List.range 64).map res⟩ hvis _ _ hne,
      Laws.commit_vu c t s hc, commit_vreg]

/-! ### The frame of a lane-wise instruction -/

/-- A change of a core that leaves its memories, its Matrix Arrays, its transfers, its tokens, its run, its counters and its flags. -/
def VectorPart (f : Core → Core) : Prop :=
  ∀ k, ((f k).asp = k.asp ∧ (f k).wbf = k.wbf ∧ (f k).wbs = k.wbs ∧ (f k).bst = k.bst) ∧
    (f k).mx = k.mx ∧ (f k).xfers = k.xfers ∧ (f k).st.tok = k.st.tok ∧ (f k).st.run = k.st.run ∧ (f k).sq.cnt = k.sq.cnt ∧
    (f k).sq.pf = k.sq.pf

/-- A changed core is the old one, changed or, where there is no such core, not. -/
theorem coreAt_modCore_cases (s : State) (c : Nat) (f : Core → Core) (k : Nat) :
    coreAt (modCore s c f) k = coreAt s k ∨ (k = c ∧ coreAt (modCore s c f) k = f (coreAt s k)) := by
  by_cases hk : k = c
  · subst hk
    by_cases hlen : k < s.cores.length
    · exact .inr ⟨rfl, Laws.coreAt_modCore_same f hlen⟩
    · exact .inl (by rw [Laws.modCore_out f (by omega)])
  · exact .inl (Laws.coreAt_modCore_ne f hk)

theorem coreAt_modCore_of_keeps {β : Type} (g : Core → β) (s : State) (c : Nat) (f : Core → Core) (hf : ∀ k, g (f k) = g k) (k : Nat) :
    g (coreAt (modCore s c f) k) = g (coreAt s k) := by
  obtain h | ⟨-, h⟩ := coreAt_modCore_cases s c f k
  · rw [h]
  · rw [h, hf]

theorem onlyVector_modCore (s : State) (c : Nat) {f : Core → Core} (hf : VectorPart f) : OnlyVector c s (modCore s c f) := by
  have hkeeps {β : Type} (g : Core → β) (hg : ∀ k, g (f k) = g k) (k : Nat) := coreAt_modCore_of_keeps g s c f hg k
  refine ⟨fun m => ?_, fun k hk => Laws.coreAt_modCore_ne f hk, hkeeps _ (fun k => (hf k).2.1) c, hkeeps _ (fun k => (hf k).2.2.1) c,
    hkeeps (fun k => k.st.tok) (fun k => (hf k).2.2.2.1) c, hkeeps (fun k => k.st.run) (fun k => (hf k).2.2.2.2.1) c,
    hkeeps (fun k => k.sq.cnt) (fun k => (hf k).2.2.2.2.2.1) c, hkeeps (fun k => k.sq.pf) (fun k => (hf k).2.2.2.2.2.2) c,
    rfl, rfl, rfl, rfl, rfl, rfl, rfl, rfl, rfl, rfl, rfl, rfl, rfl, rfl, rfl, rfl, rfl, rfl, rfl⟩
  cases m with
  | asp k => exact hkeeps _ (fun k => (hf k).1.1) k
  | wbf k => exact hkeeps _ (fun k => (hf k).1.2.1) k
  | wbs k => exact hkeeps _ (fun k => (hf k).1.2.2.1) k
  | bst k => exact hkeeps _ (fun k => (hf k).1.2.2.2) k
  | fst => rfl
  | dram => rfl
  | intake => rfl

theorem onlyVector_trans {c : Nat} {s u v : State} (h1 : OnlyVector c s u) (h2 : OnlyVector c u v) : OnlyVector c s v := by
  unfold OnlyVector at *
  simp_all

/-- What the issue of a lane-wise instruction makes of its core. -/
def laneCore (t lat : Nat) (vd : BitVec 5) (res : Nat → Word) (e : QEnt) (k : Core) : Core :=
  { k with
    vu := { k.vu with vAt := t + 1, vwr := k.vu.vwr ++ [⟨t + lat, vd.toNat, (List.range 64).map res⟩] }
    sq := { k.sq with infl := k.sq.infl ++ [{ q := .vector, seq := e.seq, doneAt := some (t + lat) }] }
    st := { k.st with lastAct := t } }

/-- Without a hazard, an issue changes its core alone. -/
theorem laneIssued_of_no_hazard {c lat : Nat} {vd : BitVec 5} {srcs : List (BitVec 5)} (res : Nat → Word) (e : QEnt) {s : State}
    (h : hazardOf (coreAt s c) s.clk.cyc (s.clk.cyc + lat) (srcs.map BitVec.toNat) [vd.toNat] = none) :
    laneIssued c lat vd srcs res e s = modCore s c (laneCore s.clk.cyc lat vd res e) := by
  rw [laneIssued, hazardFire, h]
  rfl

theorem settled_modCore {s : State} (h : s.Ready) (c : Nat) (f : Core → Core) : Laws.Settled (modCore s c f) := h.2

/-- An instruction that issues in the present cycle has left its queue, and what is due is visible. -/
theorem issuing_now {s : State} {c : Nat} {q : QId} {queued : Bool} {t : Nat} (h : t ≤ s.clk.cyc) :
    issuing s c q queued t = commit c s.clk.cyc (takeEntry c q queued s) := by
  rw [issuing, Laws.passToCyc_le (s := takeEntry c q queued s) h, Nat.max_eq_right h]

theorem vectorPart_setQueue (q : QId) (l : List QEnt) (k : Seqr) : (k.setQueue q l).cnt = k.cnt ∧ (k.setQueue q l).pf = k.pf := by
  cases q <;> exact ⟨rfl, rfl⟩

theorem onlyVector_takeEntry (c : Nat) (q : QId) (queued : Bool) (s : State) : OnlyVector c s (takeEntry c q queued s) := by
  refine onlyVector_modCore s c fun k => ⟨⟨rfl, rfl, rfl, rfl⟩, rfl, rfl, rfl, rfl, ?_⟩
  cases queued with
  | false => exact ⟨rfl, rfl⟩
  | true => exact vectorPart_setQueue q _ k.sq

theorem onlyVector_commit (c t : Nat) (s : State) : OnlyVector c s (commit c t s) :=
  onlyVector_modCore s c fun _ => ⟨⟨rfl, rfl, rfl, rfl⟩, rfl, rfl, rfl, rfl, rfl, rfl⟩

/-- A register with no write in flight is not changed when others become visible. -/
theorem regLanes_commit (c t : Nat) (s : State) {r : Nat} (hr : ∀ x ∈ (coreAt s c).vu.vwr, x.reg ≠ r) :
    regLanes (coreAt (commit c t s) c) r = regLanes (coreAt s c) r := by
  have hregs : (visibleRegs (coreAt s c).vu t).getD r [] = (coreAt s c).vu.vreg.getD r [] :=
    Laws.puts_ne r _ _ fun x hx => hr x (List.mem_of_mem_filter ((Laws.mem_sortWrites _ x).1 hx))
  obtain h | ⟨-, h⟩ := coreAt_modCore_cases s c _ c
  · rw [commit, h]
  · rw [commit, h, regLanes, regLanes, commit_vreg, hregs]

/-- Settles O22. -/
theorem laneInstructionFrame : Obligations.LaneInstructionFrame := by
  intro i c w lat vd srcs res hres s u e queued t h s1 hready hhaz hu
  have hs1 : u = modCore s1 c (laneCore s1.clk.cyc lat vd (res s1) e) := by
    have hnext := (hres s e queued t h).symm.trans hu
    rw [laneEnd, if_neg Bool.false_ne_true, laneIssued_of_no_hazard _ _ hhaz, Laws.settle_eq (settled_modCore hready c _)] at hnext
    cases hnext
    rfl
  subst hs1
  refine ⟨onlyVector_modCore s1 c fun k => ⟨⟨rfl, rfl, rfl, rfl⟩, rfl, rfl, rfl, rfl, rfl, rfl⟩,
    fun r => coreAt_modCore_of_keeps (fun k => regLanes k r) s1 c (laneCore s1.clk.cyc lat vd (res s1) e) (fun _ => rfl) c, fun hnow => ?_⟩
  · have hissue : s1 = commit c s.clk.cyc (takeEntry c .vector queued s) := issuing_now hnow
    have hvu : (coreAt (takeEntry c .vector queued s) c).vu = (coreAt s c).vu := (Laws.core_take c c .vector queued s).2
    rw [hissue]
    refine ⟨onlyVector_trans (onlyVector_takeEntry c .vector queued s) (onlyVector_commit c _ _), fun r hr => ?_⟩
    rw [regLanes_commit c _ _ (by rw [hvu]; exact hr), regLanes, hvu, regLanes]

end Sys2Proof.Proofs
end

section
/-!
PROOFS. Chapters 00, 07, 08 and 18: a step and its command, the state after power-on, the accesses to a memory, and the scalar slot.
-/
namespace Sys2Proof.Proofs
open Sys2Proof Sys2Proof.Machine

/-- Settles O1: both halves of `step` by the queue, and the idle step by the reset. -/
theorem stepRunsCommand : Obligations.StepRunsCommand := by
  refine ⟨fun c s => rfl, fun s hp hr => ?_, fun s hp hr => ?_⟩
  · unfold step; rw [hp]; simp only [idle, hr, if_true]
  · unfold step; rw [hp]; simp only [idle, hr, Bool.false_eq_true, if_false]

/-! ### The state after power-on -/

theorem fltAt_reset {b : Nat} (h : b < 36) : fltAt State.reset b = FltBlock.reset b := by
  simp [fltAt, State.reset, List.getElem?_map, List.getElem?_range h]

theorem domAt_reset {d : Nat} (h : d < 25) : domAt State.reset d = {} := by
  exact List.getD_replicate _ h

/-- Settles O3: the fields of the power-on state, and each of its 36 fault register sets and 25 domains. -/
theorem resetState : Obligations.ResetState := by
  refine ⟨by decide, rfl, rfl, rfl, rfl, rfl, rfl, rfl, rfl, rfl, rfl, rfl, rfl, rfl, rfl, rfl, rfl, by decide, rfl, by decide, rfl,
    by decide, rfl, fun b hb => ?_, fun d hd => ?_⟩
  · rw [fltAt_reset hb]
    exact ⟨rfl, rfl, fun i => by simp [FltBlock.reset]⟩
  · rw [domAt_reset hd]
    exact ⟨rfl, rfl⟩

/-! ### The accesses to a memory -/

theorem block_pos (m : MemId) (w : Bool) : 0 < m.block w := by
  cases m <;> cases w <;> exact Nat.succ_pos _

/-- The accesses of a run reach its end. -/
theorem accesses_reach (blk a n : Nat) (hb : 0 < blk) : n ≤ (n / blk + 2) * blk - a % blk := by
  have hlt := Nat.mod_lt a hb
  have hn := Nat.div_add_mod n blk
  have hr := Nat.mod_lt n hb
  have he : (n / blk + 2) * blk = blk * (n / blk) + 2 * blk := by ring
  omega

/-- A read, access by access, changes no byte. -/
theorem rd_readFold (m : MemId) (agent : Option Nat) (l : List (Nat × Nat)) (s : State) (hm : Has s m) (m' : MemId) (x : Nat) :
    (memOf (l.foldl (readOne m agent) s) m').rd x = (memOf s m').rd x := by
  induction l generalizing s with
  | nil => rfl
  | cons y l ih =>
    obtain ⟨hhas, hrd⟩ := Laws.readOne_rd m agent s y hm
    exact (ih _ hhas).trans (hrd m' x)

/-- Settles O8: the accesses of a run cover it and nothing else. -/
theorem memoryAccesses : Obligations.MemoryAccesses := by
  intro m agent s hs hm
  have hb := block_pos m true
  have hw (a : Nat) (bs : List Byte) :=
    Laws.writeFold m agent bs a (m.block true) hb (bs.length / m.block true + 2) a bs.length s hm (Laws.ok_memOf hs m)
      (Nat.le_refl a) rfl (.inl (accesses_reach _ a _ hb))
  exact ⟨fun a bs => (hw a bs).1, fun a bs => (hw a bs).2, fun a n x m' => rd_readFold m agent _ s hm m' x⟩

/-! ### The scalar slot -/

theorem targetIn_iff (h : Hdr) (t : Nat) : targetIn h t = true ↔ h.entry ≤ t ∧ t < h.len := by simp [targetIn]

theorem targetIn_not {h : Hdr} {t : Nat} (ht : ¬ (h.entry ≤ t ∧ t < h.len)) : targetIn h t = false :=
  Bool.eq_false_iff.2 fun e => ht ((targetIn_iff h t).1 e)

/-- Whether a branch with a WHEN that is not reserved is taken. -/
theorem brTaken_eq (w : BitVec 2) (flag : Bool) (h : w.toNat ≤ 2) :
    brTaken w flag = some (decide (w = 0 ∨ (w = 1 ∧ flag = true) ∨ (w = 2 ∧ flag = false))) := by
  revert h; revert w flag; decide

section
variable {s : State} {c : CoreId} (hr : s.Ready) (hl : coreLive s c = true)
include hr hl

theorem nop_next : exec (.nop c) s = .next s :=
  Laws.none_next hr hl (zeroSlotIsNop.2.2.1 c _ s) rfl rfl rfl

theorem cset_next (k : BitVec 3) (imm : BitVec 23) : exec (.cset c k imm) s = .next (setCnt c k.toNat (BitVec.ofNat 32 imm.toNat) s) :=
  Laws.none_next hr hl (Laws.op_cset _ _ _ _ _ _
    (by rw [wordCset, Laws.fldN]; omega) (by rw [wordCset, Laws.fldN]; omega) (by rw [wordCset, Laws.fldN]; omega)) rfl rfl rfl

theorem loop_next (k : BitVec 3) (t : BitVec 13) (ht : (ctxOf s c).hdr.entry ≤ t.toNat ∧ t.toNat < (ctxOf s c).hdr.len) :
    exec (.loop c k t) s = .next (
      let s1 := setCnt c k.toNat ((coreAt s c).sq.cnt.getD k.toNat 0 - 1) s
      if (coreAt s c).sq.cnt.getD k.toNat 0 = 1 then s1 else jumpTo c t.toNat s1) := by
  have hop := Laws.op_loop c (ctxOf s c).hdr s (wordLoop k t) k.toNat t.toNat
    (by rw [wordLoop, Laws.fldN]; omega) (by rw [wordLoop, Laws.fldN]; omega) (by rw [wordLoop, Laws.fldN]; omega)
    (by rw [wordLoop, Laws.fldN]; omega) ((targetIn_iff _ _).2 ht)
  have hz : cntAt (coreAt s c) k.toNat - 1 = 0 ↔ (coreAt s c).sq.cnt.getD k.toNat 0 = 1 := sub_eq_zero
  dsimp only
  split
  case isTrue h1 =>
    rw [if_pos (hz.2 h1)] at hop
    exact Laws.none_next hr hl hop rfl rfl rfl
  case isFalse h1 =>
    rw [if_neg (fun e => h1 (hz.1 e))] at hop
    exact Laws.jump_next hr hl hop rfl rfl rfl

theorem loop_out (k : BitVec 3) (t : BitVec 13) (ht : ¬ ((ctxOf s c).hdr.entry ≤ t.toNat ∧ t.toNat < (ctxOf s c).hdr.len)) :
    exec (.loop c k t) s = .next (settle (logSkip c 0 4 (coreAt s c).sq.pc s)) :=
  Laws.skip_next hr hl (Laws.op_loop' _ _ _ _ t.toNat
    (by rw [wordLoop, Laws.fldN]; omega) (by rw [wordLoop, Laws.fldN]; omega) (by rw [wordLoop, Laws.fldN]; omega) (targetIn_not ht))

theorem cmpi_next (k : BitVec 3) (pf : BitVec 2) (cond : BitVec 3) (imm : BitVec 18) (hc : cond.toNat ≤ 3) :
    exec (.cmpi c k pf cond imm) s = .next (setPf c pf.toNat
      (let a := ((coreAt s c).sq.cnt.getD k.toNat 0).toNat
       let b := imm.toNat
       if cond = 0 then decide (a = b) else if cond = 1 then decide (a ≠ b) else if cond = 2 then decide (a < b) else decide (b ≤ a)) s) := by
  have hb := Laws.cond_eq cond (cntAt (coreAt s c) k.toNat) (BitVec.ofNat 32 imm.toNat) hc
  rw [BitVec.toNat_ofNat, Nat.mod_eq_of_lt (show imm.toNat < 2 ^ 32 by omega)] at hb
  exact Laws.none_next hr hl (Laws.op_cmpi c _ s _ k.toNat pf.toNat imm.toNat cond _
    (by rw [wordCmpi, Laws.fldN]; omega) (by rw [wordCmpi, Laws.fldN]; omega) (by rw [wordCmpi, Laws.fldN]; omega)
    (by rw [wordCmpi, Laws.fldN]; omega) (by rw [wordCmpi, Laws.fldN]; omega) (Laws.ext3 _ (by omega)) hb) rfl rfl rfl

theorem cmpi_reserved (k : BitVec 3) (pf : BitVec 2) (cond : BitVec 3) (imm : BitVec 18) (hc : 4 ≤ cond.toNat) :
    exec (.cmpi c k pf cond imm) s = .next (settle (logSkip c 0 2 (coreAt s c).sq.pc s)) :=
  Laws.skip_next hr hl (Laws.op_cmpi' _ _ _ _ (by rw [wordCmpi, Laws.fldN]; omega) (by rw [wordCmpi, Laws.fldN]; omega))

theorem cmpc_next (ka : BitVec 3) (pf : BitVec 2) (cond kb : BitVec 3) (hc : cond.toNat ≤ 3) :
    exec (.cmpc c ka pf cond kb) s = .next (setPf c pf.toNat
      (let a := ((coreAt s c).sq.cnt.getD ka.toNat 0).toNat
       let b := ((coreAt s c).sq.cnt.getD kb.toNat 0).toNat
       if cond = 0 then decide (a = b) else if cond = 1 then decide (a ≠ b) else if cond = 2 then decide (a < b) else decide (b ≤ a)) s) :=
  Laws.none_next hr hl (Laws.op_cmpc c _ s _ ka.toNat kb.toNat pf.toNat cond _
    (by rw [wordCmpc, Laws.fldN]; omega) (by rw [wordCmpc, Laws.fldN]; omega) (by rw [wordCmpc, Laws.fldN]; omega)
    (by rw [wordCmpc, Laws.fldN, Laws.fldN]; omega) (by rw [wordCmpc, Laws.fldN]; omega) (Laws.ext3 _ (by omega))
    (Laws.cond_eq cond _ _ hc)) rfl rfl rfl

theorem cmpc_reserved (ka : BitVec 3) (pf : BitVec 2) (cond kb : BitVec 3) (hc : 4 ≤ cond.toNat) :
    exec (.cmpc c ka pf cond kb) s = .next (settle (logSkip c 0 2 (coreAt s c).sq.pc s)) :=
  Laws.skip_next hr hl (Laws.op_cmpc' _ _ _ _ (by rw [wordCmpc, Laws.fldN]; omega) (by rw [wordCmpc, Laws.fldN]; omega))

theorem br_next (w pf : BitVec 2) (t : BitVec 13) (hw : w.toNat ≤ 2)
    (ht : (ctxOf s c).hdr.entry ≤ t.toNat ∧ t.toNat < (ctxOf s c).hdr.len) :
    exec (.br c w pf t) s = .next (
      let flag := (coreAt s c).sq.pf.getD pf.toNat false
      if w = 0 ∨ (w = 1 ∧ flag = true) ∨ (w = 2 ∧ flag = false) then jumpTo c t.toNat s else s) := by
  have hop := Laws.op_br c (ctxOf s c).hdr s (wordBr w pf t) pf.toNat t.toNat w _
    (by rw [wordBr, Laws.fldN]; omega) (by rw [wordBr, Laws.fldN, Laws.fldN]; omega) (by rw [wordBr, Laws.fldN]; omega)
    (by rw [wordBr, Laws.fldN]; omega) (Laws.ext2 _ (by omega)) ((targetIn_iff _ _).2 ht) (brTaken_eq w _ hw)
  dsimp only
  split
  case isTrue hb =>
    rw [if_pos (decide_eq_true hb)] at hop
    exact Laws.jump_next hr hl hop rfl rfl rfl
  case isFalse hb =>
    rw [if_neg (fun e => hb (of_decide_eq_true e))] at hop
    exact Laws.none_next hr hl hop rfl rfl rfl

theorem br_out (w pf : BitVec 2) (t : BitVec 13) (hw : w.toNat ≤ 2)
    (ht : ¬ ((ctxOf s c).hdr.entry ≤ t.toNat ∧ t.toNat < (ctxOf s c).hdr.len)) :
    exec (.br c w pf t) s = .next (settle (logSkip c 0 4 (coreAt s c).sq.pc s)) :=
  Laws.skip_next hr hl (Laws.op_br' _ _ _ _ t.toNat
    (by rw [wordBr, Laws.fldN]; omega) (by rw [wordBr, Laws.fldN, Laws.fldN]; omega) (by rw [wordBr, Laws.fldN]; omega) (targetIn_not ht))

theorem br_reserved (w pf : BitVec 2) (t : BitVec 13) (hw : w.toNat = 3) :
    exec (.br c w pf t) s = .next (settle (logSkip c 0 2 (coreAt s c).sq.pc s)) :=
  Laws.skip_next hr hl (Laws.op_br'' _ _ _ _ (by rw [wordBr, Laws.fldN]; omega) (by rw [wordBr, Laws.fldN]; omega))

end

/-- Settles O10: one lemma for each form of each scalar instruction. -/
theorem scalarSlot : Obligations.ScalarSlot := by
  intro s c hr hl
  exact ⟨nop_next hr hl, cset_next hr hl, loop_next hr hl, loop_out hr hl, cmpi_next hr hl, cmpi_reserved hr hl, cmpc_next hr hl,
    cmpc_reserved hr hl, br_next hr hl, br_out hr hl, br_reserved hr hl⟩

end Sys2Proof.Proofs
end

section
/-!
PROOFS. Chapters 03 and 06: the semaphores, and the steps of a matrix instruction.
-/
namespace Sys2Proof.Proofs
open Sys2Proof Sys2Proof.Machine

/-! ### Semaphores -/

/-- An entry that stood in its queue was checked at its dispatch, any other is sound. -/
theorem not_bad {s : State} {c : Nat} {q : QId} {w : BitVec 48} {queued : Bool}
    (h : queued = true ∨ slotBad s (ctxOf s c) q w = none) : (if queued = true then none else slotBad s (ctxOf s c) q w) = none := by
  rcases h with h | h <;> simp only [h, if_true, ite_self]

theorem semAcq_request {s : State} {c : CoreId} {sem n : BitVec 8} {gate : BitVec 4} {e : QEnt} {queued : Bool}
    (hr : s.rst.inReset = false) (hl : coreLive s c = true) (hh : headFor s c .sync (wordSem 4 sem n gate) = some (e, queued))
    (hb : queued = true ∨ slotBad s (ctxOf s c) .sync (wordSem 4 sem n gate) = none) (he : e.reqAt = none)
    (hw : ∀ q ∈ s.disp.semWait, q.core ≠ c.val) :
    exec (.semAcq c sem n gate) s = .next (settle (semRequest c sem.toNat n.toNat e queued s)) := by
  have hany : (s.disp.semWait.any fun q => q.core == c.val) = false :=
    List.any_eq_false.2 fun q hq => by simpa using hw q hq
  refine Laws.run_next _ hr ?_
  simp only [semAcq, hl, hh, not_bad hb, he, hany, Bool.not_true, Bool.false_eq_true, if_false, Option.isSome_none]

theorem semAcq_granted {s : State} {c : CoreId} {sem n : BitVec 8} {gate : BitVec 4} {e : QEnt} {l : List QEnt} {r : Nat}
    (hr : s.rst.inReset = false) (hl : coreLive s c = true) (hq : (coreAt s c).sq.qy = e :: l) (hs : e.slot = wordSem 4 sem n gate)
    (he : e.reqAt = some r) :
    exec (.semAcq c sem n gate) s = .next (settle
      (let s1 := passToCyc (takeEntry c .sync true s) r
       syncOver c e (commit c s1.clk.cyc s1))) := by
  have hh : headFor s c .sync (wordSem 4 sem n gate) = some (e, true) := by
    simp only [headFor, Seqr.queue, hq, hs, if_true]
  refine Laws.run_next _ hr ?_
  simp only [semAcq, hl, hh, he, semAcqDone, hq, Bool.not_true, Bool.false_eq_true, if_false, if_true, Option.isSome_some]

theorem semGrant_next {s : State} {sem : BitVec 8} {q : SemReq} (hr : s.Ready)
    (hf : s.disp.semWait.find? (fun q => q.sem == sem.toNat) = some q) :
    exec (.semGrant sem) s = .next (if semVal s sem.toNat < q.n then s else settle (semGive q (passToCyc s q.at_))) := by
  have hone : semGrantOne sem.toNat s = if semVal s sem.toNat < q.n then s else semGive q (passToCyc s q.at_) := by
    simp only [semGrantOne, hf]
  split
  case isTrue hlt => exact Laws.run_keep _ hr (by rw [hone, if_pos hlt]) rfl rfl rfl
  case isFalse hge => exact Laws.run_next _ hr.1 (by rw [hone, if_neg hge])

/-- The cycle of a SEM_REL: at the head of its queue when the command holds too few units, else 12 cycles after its condition. -/
theorem semRelReady_eq {s : State} {c : Nat} {e : QEnt} {sem n r : Nat} {after : BitVec 4}
    (hfew : semHeld s c sem < n → r = headCycle (coreAt s c) e)
    (hall : n ≤ semHeld s c sem → ∃ d, earlierDone (coreAt s c) after.toNat e.seq = some d ∧ r = max (headCycle (coreAt s c) e) d + 12) :
    semRelReady c sem n after s e = some r := by
  unfold semRelReady
  split
  case isTrue h => rw [hfew h]
  case isFalse h =>
    obtain ⟨d, hd, hr⟩ := hall (Nat.not_lt.1 h)
    simp only [afterReady, hd, Option.map_some, hr]

/-- Settles O12: the request and the completion of SEM_ACQ, SEM_GRANT by the value, SEM_REL at its cycle. -/
theorem semaphores : Obligations.Semaphores := by
  refine ⟨?acquire, ?granted, ?grant, ?release⟩
  case acquire =>
    intro c sem n gate s e queued hr hl hh hb he hw
    exact semAcq_request hr hl hh hb he hw
  case granted =>
    intro c sem n gate s e l r hr hl hq hs he
    exact semAcq_granted hr hl hq hs he
  case grant =>
    intro sem s q hr hf
    have hq : q.sem = sem.toNat := by simpa using List.find?_some hf
    have h := semGrant_next hr hf
    unfold semGive at h
    rw [hq] at h
    exact h
  case release =>
    intro c sem n after s e queued t r held hfew hall h
    exact exec_issue rfl (semRelReady_eq hfew hall) h rfl

/-! ### The steps of a matrix instruction -/

theorem readSpans_clk (m : MemId) (agent : Option Nat) (spans : List (Nat × Nat)) (s : State) : (readSpans m agent spans s).clk = s.clk := by
  unfold readSpans
  dsimp only
  split
  · split <;> simp only [Laws.consumed_clk, Laws.fireAll_clk, Laws.setMem_clk, Laws.countAccess_clk]
  · exact Laws.countAccess_clk ..

theorem readSpans_fold_clk (m : State → Nat → MemId) (agent : Option Nat) (spans : Nat → List (Nat × Nat)) (l : List Nat) (s : State) :
    (l.foldl (fun s a => readSpans (m s a) agent (spans a) s) s).clk = s.clk :=
  Laws.clk_foldl _ (fun _ _ => readSpans_clk ..) l s

theorem stepReads_clk (c : Nat) (f : MmaF) (s : State) (st : Nat) : (stepReads c f s st).clk = s.clk := by
  have hfold (mem : State → Nat → MemId) (spans : Nat → List (Nat × Nat)) (rows : List (Nat × Nat)) (l : List Nat) :
      (l.foldl (fun s a => readSpans (mem s a) (some c) (spans a) s) (readSpans (.asp c) (some c) rows s)).clk = s.clk :=
    (readSpans_fold_clk mem (some c) spans l _).trans (readSpans_clk ..)
  rw [← hfold (fun s a => wbfMem s c (a * 0x200000 + f.waddr.toNat * 256 + st * weightBytes f.mode.toNat f.afmt.toNat f.wfmt.toNat))
    (fun a => [(a * 0x200000 + f.waddr.toNat * 256 + st * weightBytes f.mode.toNat f.afmt.toNat f.wfmt.toNat, _)])]
  exact congrArg State.clk rfl

/-- A matrix instruction reads in no time of its own. -/
theorem mmaReads_clk (c : Nat) (f : MmaF) (n : Nat) (s : State) : (mmaReads c f n s).clk = s.clk :=
  Laws.clk_foldl _ (stepReads_clk c f) _ s

/-- A core with the banks of `arrays` stepped. -/
def bankSteps (s : State) (c : Nat) (f : MmaF) (t : Nat) (acts : List (List Int)) (k : Core) (arrays : List Nat) : Core :=
  { k with mx := { k.mx with
      banks := arrays.foldl (fun bs a => upd bs (2 * a + b2n f.bank) (mmaBank s c f t acts a)) k.mx.banks } }

/-- The steps on one array change its bank, as `mmaBank` says. -/
theorem arraySteps_eq {s : State} {c : Nat} {k : Core} (f : MmaF) (t : Nat) (acts : List (List Int)) (a : Nat)
    (haob : k.mx.aob = (coreAt s c).mx.aob) : arraySteps s c f t acts k a = bankSteps s c f t acts k [a] := by
  have hset := Laws.upd_set {} k.mx.banks (2 * a + b2n f.bank) (mmaBank s c f t acts a)
  simp only [bankSteps, List.foldl_cons, List.foldl_nil, hset]
  simp only [arraySteps, mmaBank, mmaSteps, haob, bankIx]

theorem arraySteps_fold {s : State} {c : Nat} (f : MmaF) (t : Nat) (acts : List (List Int)) (arrays : List Nat) (k : Core)
    (haob : k.mx.aob = (coreAt s c).mx.aob) : arrays.foldl (arraySteps s c f t acts) k = bankSteps s c f t acts k arrays := by
  induction arrays generalizing k with
  | nil => rfl
  | cons a arrays ih =>
    rw [List.foldl_cons, arraySteps_eq f t acts a haob]
    exact ih _ haob

theorem modCore_modCore (s : State) (c : Nat) (f g : Core → Core) : modCore (modCore s c f) c g = modCore s c fun k => g (f k) :=
  congrArg (fun l => { s with cores := l }) (Laws.upd_upd s.cores c f g)

theorem modCore_const (s : State) (c : Nat) (f : Core → Core) : modCore s c f = modCore s c fun _ => f (coreAt s c) :=
  congrArg (fun l => { s with cores := l }) (Laws.upd_set {} s.cores c f)

/-- The core of a matrix instruction that issues at `now` and is not the last of its chain: its steps are made on the banks of `arrays`, its
operand buffer entry is read, and its completion is due. `writing`: a transfer or a request of the core still writes, so that no check leaves. -/
def mmaIssued (s : State) (c : Nat) (f : MmaF) (now n seq : Nat) (writing : Core → Bool) (k : Core) : Core :=
  { k with
    mx := { k.mx with
      banks := (arraysOf f.amask).foldl (fun bs a => upd bs (2 * a + b2n f.bank) (mmaBank s c f now (aobRows s c f n) a)) k.mx.banks
      aob := upd k.mx.aob f.aob.toNat fun x => if f.rel then { readAt := now + n - 1 } else { x with readAt := now + n - 1 }
      checks := if writing k then k.mx.checks else k.mx.checks.filter fun x => decide (now < x.2)
      mAt := now + n - 1 + 1, mFirst := now }
    sq := { k.sq with infl := k.sq.infl ++ [{ q := .matrix, seq := seq, doneAt := some (now + n - 1 + 33) }] }
    st := { k.st with
      obs := putAt 0 k.st.obs 3 (k.st.obs.getD 3 0 + n)
      tokAt := if f.rel then putAt 0 k.st.tokAt f.aob.toNat (now + n - 1) else k.st.tokAt
      lastAct := now } }

/-- A matrix instruction that is sound and not the last of its chain, in the state of its first step. -/
theorem mmaAct_not_last {c : Nat} {f : MmaF} (up : List Upset) (yd : Bool) {e : QEnt} {s : State} (hlast : f.last = false)
    (hbad : (mmaBadBank (coreAt s c) f e.seq || mmaBadAob (coreAt s c) f) = false) :
    mmaAct c f up yd e s =
      (let n := mmaSteps (coreAt s c) f
       let s2 := if ((coreAt s c).mx.aob.getD f.aob.toNat {}).skip then s else mmaReads c f n s
       modCore s2 c (mmaIssued s2 c f s.clk.cyc n e.seq fun k => k.xfers.any Xfer.store ||
         (s.kfs.queue ++ s.kfs.serving.toList).any fun r => r.core == c && (keyedOf r.desc).scatter)) := by
  unfold mmaAct
  extract_lets t k n last skip s2 acts k1 spans keep src k2
  rw [if_neg (ne_true_of_eq_false hbad)]
  have hclk : s2.clk = s.clk := by
    by_cases hskip : skip = true
    · exact congrArg State.clk (if_pos hskip)
    · exact (congrArg State.clk (if_neg hskip)).trans (mmaReads_clk ..)
  have hk1 : k1 = bankSteps s2 c f t acts (coreAt s2 c) (arraysOf f.amask) := arraySteps_fold f t acts (arraysOf f.amask) (coreAt s2 c) rfl
  have hspans : spans = [] := if_neg (ne_true_of_eq_false hlast)
  rw [modCore_const _ c (mmaIssued _ _ _ _ _ _ _)]
  have hk2 : k2 = { bankSteps s2 c f t acts (coreAt s2 c) (arraysOf f.amask) with
      mx := { (bankSteps s2 c f t acts (coreAt s2 c) (arraysOf f.amask)).mx with
        checks := if keep then (coreAt s2 c).mx.checks else (coreAt s2 c).mx.checks.filter fun x => decide (t < x.2) } } := by
    simp only [k2, src, hk1]
    split <;> rfl
  have hkeep : keep = ((coreAt s2 c).xfers.any Xfer.store ||
      (s.kfs.queue ++ s.kfs.serving.toList).any fun r => r.core == c && (keyedOf r.desc).scatter) := by
    simp only [keep, hk1]
    rfl
  simp only [hlast, Bool.false_eq_true, if_false, drainEvents, hspans, addInfl, modCore_modCore, Laws.modCore_clk, hclk, hk2,
    hkeep]
  refine congrArg (modCore s2 c) (funext fun _ => ?_)
  unfold mmaIssued releaseAob bankSteps
  cases hrel : f.rel
  · simp only [Bool.false_eq_true, if_false, List.map_nil, List.append_nil]
    rfl
  · simp only [if_true, List.map_nil, List.append_nil]
    rfl

/-- Settles O23: the inconsistent form is skipped, and the steps on the arrays of AMASK are those on their banks. -/
theorem matrixAccumulates : Obligations.MatrixAccumulates := by
  intro c f up yd s e queued t r hr h s1 now k n
  refine ⟨fun hbad => ?_, fun hbad hlast => ?_⟩
  · exact exec_issue rfl hr h (if_pos hbad)
  · exact exec_issue rfl hr h (mmaAct_not_last up yd hlast hbad)

end Sys2Proof.Proofs
end

section
/-!
PROOFS. Chapters 04, 05, 06, 07, 08 and 09: how the transfers of a core start and end, and the requests of the Region Samplers and of the
Keyed Feature Store.
-/
namespace Sys2Proof.Proofs
open Sys2Proof Sys2Proof.Machine

theorem ite_not_bool {α : Type} (b : Bool) (x y : α) : (if (!b) = true then x else y) = if b = true then y else x := by cases b <;> rfl

/-! ### The start of a transfer -/

theorem orFenced_one (c : Nat) (a : Nat × Nat) (f : State → State) (s : State) :
    orFenced c [a] f s = if sideFenced s a then endRun c 0x21 4 s else f s := by
  simp only [orFenced, List.any_cons, List.any_nil, Bool.or_false]

theorem orFenced_two (c : Nat) (a b : Nat × Nat) (f : State → State) (s : State) :
    orFenced c [a, b] f s = if sideFenced s a || sideFenced s b then endRun c 0x21 4 s else f s := by
  simp only [orFenced, List.any_cons, List.any_nil, Bool.or_false]

/-- Only the spaces of a peer lead to a port. -/
theorem sideFenced_local (s : State) {space dev : Nat} (h : isPeer space = false) : sideFenced s (space, dev) = spaceFenced s space := by
  simp only [sideFenced, h, Bool.false_and, Bool.or_false]

theorem ldAct_eq (c : Nat) (store : Bool) (e : QEnt) (s : State) :
    ldAct c store e s =
      (let p := (ldPlan (ctxOf s c) e).1
       let inside := walkInside s c (ctxOf s c) p.src p.sdev false (ldPlan (ctxOf s c) e).2.1 &&
         walkInside s c (ctxOf s c) p.dst p.ddev true (ldPlan (ctxOf s c) e).2.2
       if inside && (aobOf p.dst p.druns).isSome then
        (if sideFenced s (p.src, p.sdev) || sideFenced s (p.dst, p.ddev) then endRun c 0x21 4 s
         else startXfer c store e (ldOf e.slot).token.toNat p (((aobOf p.dst p.druns).getD none).map fun a => (a, none)) false s)
       else skipAtIssue c (xferQ store) e 0xC (ldOf e.slot).token.toNat s) := by
  have hor (a b : Bool) (o : Option (Option Nat)) : (!a || !b || o.isNone) = !(a && b && o.isSome) := by
    cases a <;> cases b <;> cases o <;> rfl
  unfold ldAct
  dsimp only
  rw [hor, ite_not_bool, orFenced_two]

theorem exec_ld {c : CoreId} (store : Bool) {f : LdF} {s u : State} {e : QEnt} {queued : Bool} {t r : Nat} (hr : ldReady c store s e = some r)
    (h : IssuesAt s c (xferQ store) (wordLd f) r e queued t) (hu : ldAct c store e (issuing s c (xferQ store) queued t) = u) :
    exec (if store then .st c f else .ld c f) s = .next (settle u) := by
  cases store
  · exact exec_issue rfl hr h hu
  · exact exec_issue rfl hr h hu

theorem cgatherAct_eq (c : Nat) (token : BitVec 4) (e : QEnt) (s : State) :
    cgatherAct c token e s =
      (let g := (gatherRecs (ctxOf s c) e.slot).1
       let q := (gatherRecs (ctxOf s c) e.slot).2
       let j := e.ctr (fld e.slot 23 21)
       let a := fld e.slot 25 24
       let p := cgatherPlan (ctxOf s c) e
       let filled : GatherRec := { n := q.stepCnt, mode := g.mode, afmt := g.afmt, wfmt := g.wfmt,
                                   cpg := if g.mode = 3 then g.cpg else 0, stepFirst := q.stepFirst }
       if g.ho * g.wo ≤ 64 * j then skipAtIssue c .load e 0xC token.toNat s
       else if skipEligible g q j then
        completeEntry c .load e.seq e.bundle token.toNat (fillAob c a true (some filled) (addInfl c .load e.seq none s))
       else if !walkInside s c (ctxOf s c) p.src p.sdev false (p.sruns.map fun x => ((x.1 : Int), x.2)) then
        skipAtIssue c .load e 0xC token.toNat s
       else if sideFenced s (p.src, p.sdev) then endRun c 0x21 4 s
       else startXfer c false e token.toNat p (some (a, some filled)) false s) := by
  unfold cgatherAct
  dsimp only
  rw [ite_not_bool, orFenced_one]

theorem wxloadAct_eq (c : Nat) (vd : Bool) (token : BitVec 4) (e : QEnt) (s : State) :
    wxloadAct c vd token e s =
      (let g := (gatherRecs (ctxOf s c) e.slot).1
       let q := (gatherRecs (ctxOf s c) e.slot).2
       let p := wxloadPlan (ctxOf s c) e
       if g.tiles ≤ 64 * e.ctr (fld e.slot 23 21) ∨ 0x1E0000 < q.dest + 15 * q.pstride + 128 * q.ccnt then
        skipAtIssue c .load e 0xC token.toNat s
       else if !walkInside s c (ctxOf s c) p.src p.sdev false (p.sruns.map fun x => ((x.1 : Int), x.2)) then
        skipAtIssue c .load e 0xC token.toNat s
       else if sideFenced s (p.src, p.sdev) then endRun c 0x21 4 s
       else startXfer c false e token.toNat p none vd s) := by
  unfold wxloadAct aobBase
  dsimp only
  rw [ite_not_bool, orFenced_one]

theorem ldaccAct_eq (c : Nat) (amask : BitVec 4) (bank tgt : Bool) (token : BitVec 4) (e : QEnt) (s : State) :
    ldaccAct c amask bank tgt token e s =
      if ∃ x ∈ (ldaccPlan e).sruns, 0x200000 < x.1 + x.2 then skipAtIssue c .load e 0xC token.toNat s
      else if tgt = false ∧ ldaccOpen (coreAt s c) amask bank = true then skipAtIssue c .load e 6 token.toNat s
      else startXfer c false e token.toNat (ldaccPlan e) none false s := by
  unfold ldaccAct
  simp only [List.any_eq_true, decide_eq_true_eq, Bool.and_eq_true, Bool.not_eq_true']

/-- Settles O28: each instruction acts in the state of its issue, by cases of the access. -/
theorem transfersStart : Obligations.TransfersStart := by
  refine ⟨?ld, ?cgather, ?wxload, ?ldacc⟩
  case ld =>
    intro c store f s e queued t r hr h
    exact exec_ld store hr h (ldAct_eq ..)
  case cgather =>
    intro c grec geom aob pcnt token s e queued t r hr h
    exact exec_issue rfl hr h (cgatherAct_eq ..)
  case wxload =>
    intro c vd grec geom pcnt token s e queued t r hr h
    exact exec_issue rfl hr h (wxloadAct_eq ..)
  case ldacc =>
    intro c addr amask bank tgt otb token s e queued t r hr h
    exact exec_issue rfl hr h (ldaccAct_eq ..)

/-! ### The end of a transfer -/

section
variable {c : Nat} {store : Bool} {s : State} {x : Xfer} (hl : coreLive s c = true)
  (hx : (coreAt s c).xfers.find? (fun x => x.store == store) = some x) (hm : x.msgs = none) (hw : x.waiting = [])
  (hp : x.dspace = 6 → pciUp s = true)
include hl hx hm hw hp

/-- The oldest transfer of an engine, no message of which is unanswered, finishes at its completion cycle. -/
theorem transferDone_eq (noc : Option NocErr) :
    transferDone c store noc s =
      (let t := xferDone (coreAt s c) x
       let s1 := commit c (max t s.clk.cyc) (passToCyc s t)
       finishXfer c (nocXfer c x noc s1).2 (nocXfer c x noc s1).1) := by
  have hpci : (x.dspace == 6 && !pciUp s) = false := by
    by_cases h6 : x.dspace = 6
    · rw [hp h6, Bool.not_true, Bool.and_false]
    · rw [beq_false_of_ne h6, Bool.false_and]
  simp only [transferDone, hl, hx, hm, hw, hpci, Bool.not_true, Bool.false_eq_true, if_false, Option.isSome_none, List.isEmpty_nil,
    Bool.or_false]

end

/-- The transfers of an engine that are left when one has ended. -/
theorem store_of_find {l : List Xfer} {store : Bool} {x : Xfer} (h : l.find? (fun x => x.store == store) = some x) : x.store = store := by
  simpa using List.find?_some h

theorem finishXfer_eq {c : Nat} {store : Bool} {x : Xfer} (s : State) (hs : x.store = store) :
    finishXfer c x s =
      (let s2 := modCore s c fun k => { k with xfers := k.xfers.filter fun y => y.store != store || y.ent.seq != x.ent.seq }
       let s3 := writeXfer c x s2
       if x.vdiff then disagree c { det := BitVec.ofNat 32 (4 * 2 ^ 16) } s2
       else completeEntry c (xferQ store) x.ent.seq x.ent.bundle x.token
         (match x.aob with | some (a, g) => fillAob c a false g (landXfer c x.ent.seq s3) | none => s3)) := by
  subst hs
  rfl

/-- A parity error in a transfer to a memory outside the core: the source, the command void, and the bytes of all but a dropped store
poisoned. -/
theorem nocXfer_far {c : Nat} {x : Xfer} {space dev : Nat} {cells : List Host.Cell} {ps : List Bool} (e : NocErr) (s : State)
    (hd : x.dst = .bytes space dev cells ps) (h0 : x.dspace ≠ 0) (h3 : x.dspace ≠ 3) :
    nocXfer c x (some e) s = (consumed (some c) (fire { b := bGLB, src := 3, who := whoOn s c } s),
      { x with dst := if e = .control ∧ x.store = true then .none else .bytes space dev cells (cells.map fun _ => true) }) := by
  have hnear : ¬ (x.dspace = 0 ∨ x.dspace = 3) := fun h => h.elim h0 h3
  have hland : landedAt s c x = [] := if_neg fun h => hnear h.1
  simp only [nocXfer, hland, if_neg hnear, List.foldl_nil, hd]
  by_cases hc : e = .control ∧ x.store = true
  · simp only [if_pos hc]
  · simp only [if_neg hc]

/-- Putting off a transfer leaves the command as it is. -/
theorem run_delayXfer (c : Nat) (x : Xfer) (delay : Nat) (s : State) : (coreAt (delayXfer c x delay s) c).st.run = (coreAt s c).st.run := by
  unfold delayXfer modXfer modXfers
  rw [modCore_modCore]
  by_cases hc : c < s.cores.length
  · rw [Laws.coreAt_modCore_same _ hc]
  · rw [Laws.modCore_out _ (Nat.le_of_not_lt hc)]

theorem latMiss_xfer {c : Nat} {store : Bool} {s : State} {x : Xfer} {r : Run} (delay : Nat) (hr : (coreAt s c).st.run = some r) (hlc : r.lc = true)
    (hx : (coreAt s c).xfers.find? (fun x => x.store == store && (x.src == 2 || x.dspace == 2)) = some x) :
    latMiss c store delay s = fire { b := bDRC, src := 4, who := .lcCmd r.part } (delayXfer c x delay s) := by
  have hrun : runLc s c = true := by simp only [runLc, hr, Option.map_some, hlc, Option.getD_some]
  have hwho : whoOn (delayXfer c x delay s) c = .lcCmd r.part := by
    simp only [whoOn, run_delayXfer, hr, hlc, if_true]
  simp only [latMiss, hrun, Bool.not_true, Bool.false_eq_true, if_false, hx, hwho]

/-- Settles O29: a transfer that completes, one with a parity error, and one that is late. -/
theorem transfersEnd : Obligations.TransfersEnd := by
  refine ⟨?complete, ?parity, ?late, ?peer⟩
  case complete =>
    intro c store s x hr hl hx hm hw hp t s1
    refine ⟨fun e => Laws.run_next _ hr (transferDone_eq hl hx hm hw hp (some e)), ?_⟩
    exact Laws.run_next _ hr ((transferDone_eq hl hx hm hw hp none).trans (finishXfer_eq _ (store_of_find hx)))
  case parity =>
    intro c x e s space dev cells ps hd h0 h3
    rw [nocXfer_far e s hd h0 h3]
    exact ⟨rfl, rfl⟩
  case late =>
    intro c store delay s x r hr hrun hlc hx
    exact Laws.run_next _ hr (latMiss_xfer delay.toNat hrun hlc hx)
  case peer =>
    intro store delay s hr hup
    exact Laws.run_next _ hr (if_pos hup)

/-! ### Requests of the units -/

theorem sampleAct_eq (c : Nat) (req : BitVec 3) (token : BitVec 4) (e : QEnt) (s : State) :
    sampleAct c req token e s =
      (let x := ctxOf s c
       let rec0 := reqRec x.img x.hdr req.toNat
       let r := (coreAt s c).st.run
       if spaceFenced s 1 then endRun c 0x21 4 s
       else addInfl c .load e.seq none (modRsmp s (reqOf rec0).unit fun k => { k with
         queue := joinQueue SReq.at_ SReq.core
           { core := c, run := (r.map Run.id).getD 0, lc := (r.map Run.lc).getD false, stage := (r.map Run.stage).getD 0, seq := e.seq,
             bundle := e.bundle, token := token.toNat, at_ := s.clk.cyc, req := rec0,
             srcs := (List.range (reqOf rec0).srcCnt).map fun i => srcRec x.img x.hdr ((reqOf rec0).srcFirst + i) } k.queue })) := by
  unfold sampleAct
  dsimp only
  rw [orFenced_one, sideFenced_local s rfl]
  rfl

theorem keyedAct_eq (c : Nat) (q : QId) (kdesc : BitVec 13) (token : BitVec 4) (e : QEnt) (s : State) :
    keyedAct c q kdesc token e s =
      (let r := (coreAt s c).st.run
       if spaceFenced s 1 || spaceFenced s 2 then endRun c 0x21 4 s
       else addInfl c q e.seq none { s with kfs := { s.kfs with
         queue := joinQueue KReq.at_ KReq.core
           { core := c, run := (r.map Run.id).getD 0, seq := e.seq, bundle := e.bundle, token := token.toNat, at_ := s.clk.cyc,
             desc := (ctxOf s c).par kdesc.toNat } s.kfs.queue } }) := by
  unfold keyedAct
  dsimp only
  rw [orFenced_two, sideFenced_local s rfl, sideFenced_local s rfl]

/-- Settles O30: each request issues while its unit has a place, and joins its queue. -/
theorem requestsIssue : Obligations.RequestsIssue := by
  refine ⟨?sample, ?keyed⟩
  case sample =>
    intro c req token s e queued t hroom h
    exact exec_issue rfl (if_pos hroom) h (sampleAct_eq ..)
  case keyed =>
    intro c store kdesc token s e queued t hroom h
    cases store
    · exact exec_issue rfl (if_pos hroom) h (keyedAct_eq ..)
    · exact exec_issue rfl (if_pos hroom) h (keyedAct_eq ..)

/-! ### The Region Samplers -/

theorem sampleStart_eq {u : Nat} {s : State} (hserv : (rsmpAt s u).serving = none) (hin : inService s dFST = true) (hsafe : s.glb.safe = false) :
    sampleStart u s =
      (let s1 := passToCyc s (rsmpAt s u).freeAt
       match nextSample s1 u with
       | none => s
       | some (r, true) => modRsmp s1 u fun k => { k with paused := none, serving := some { r with start := s1.clk.cyc - r.start } }
       | some (r, false) => modRsmp s1 u fun k => { k with queue := k.queue.erase r, serving := some { r with start := s1.clk.cyc } }) := by
  simp only [sampleStart, hserv, hin, hsafe, Option.isSome_none, Bool.not_true, Bool.or_self, Bool.false_eq_true, if_false]
  cases nextSample (passToCyc s (rsmpAt s u).freeAt) u with
  | none => rfl
  | some x => obtain ⟨r, b⟩ := x; cases b <;> rfl

theorem sampleRequestStart_next {u : Fin 4} {s : State} (hr : s.Ready) (hserv : (rsmpAt s u).serving = none) (hin : inService s dFST = true)
    (hsafe : s.glb.safe = false) :
    exec (.sampleRequestStart u) s = .next (
      let s1 := passToCyc s (rsmpAt s u).freeAt
      match nextSample s1 u with
      | none => s
      | some (r, true) => settle (modRsmp s1 u fun k => { k with paused := none, serving := some { r with start := s1.clk.cyc - r.start } })
      | some (r, false) => settle (modRsmp s1 u fun k => { k with queue := k.queue.erase r, serving := some { r with start := s1.clk.cyc } })) := by
  have h := sampleStart_eq hserv hin hsafe
  dsimp only at h ⊢
  cases hn : nextSample (passToCyc s (rsmpAt s u).freeAt) u with
  | none => rw [hn] at h; exact Laws.run_keep _ hr h rfl rfl rfl
  | some x =>
    obtain ⟨r, resumed⟩ := x
    rw [hn] at h
    cases resumed
    · exact Laws.run_next _ hr.1 h
    · exact Laws.run_next _ hr.1 h

theorem not_paused {r : SReq} {s : State} {u : Nat} (h : r.lc = true ∨ reservation s u = none) : (!r.lc && (reservation s u).isSome) = false := by
  rcases h with h | h
  · rw [h, Bool.not_true, Bool.false_and]
  · rw [h, Option.isSome_none, Bool.and_false]

theorem sampleDone_whole {u : Nat} {s : State} {r : SReq} (hserv : (rsmpAt s u).serving = some r)
    (hres : r.lc = true ∨ reservation (passToCyc s (r.start + (reqOf r.req).occupancy - 1)) u = none) :
    sampleDone u none s =
      (let q := reqOf r.req
       let s1 := passToCyc s (r.start + q.occupancy - 1)
       let x := samplePositions u q.total s1 ((rsmpAt s1 u).serving.getD r)
       requestOver .load r.core r.run r.seq r.bundle r.token
         (modRsmp x.1 u fun k => { k with serving := none, freeAt := x.1.clk.cyc + 1, outside := x.2.outside })) := by
  simp only [sampleDone, hserv, Option.filter_none, not_paused hres, Bool.false_eq_true, if_false, Option.getD_none]
  rfl

theorem sampleDone_differs {u g : Nat} {s : State} {r : SReq} (hserv : (rsmpAt s u).serving = some r) (hlo : r.done ≤ g)
    (hhi : g < (reqOf r.req).total)
    (hres : r.lc = true ∨ reservation (passToCyc s (r.start + (reqOf r.req).cycleOf g)) u = none) :
    sampleDone u (some g) s =
      (let s1 := passToCyc s (r.start + (reqOf r.req).cycleOf g)
       let x := samplePositions u g s1 ((rsmpAt s1 u).serving.getD r)
       let s3 := modRsmp x.1 u fun k => { k with serving := none, freeAt := x.1.clk.cyc + 1 }
       requestOver .load r.core r.run r.seq r.bundle r.token
         (consumed (r.agent s3) (fire { b := bRSMP u, src := 1, who := agentWho s3 (r.agent s3) } s3))) := by
  have hstop : (some g).filter (fun g => decide (r.done ≤ g) && decide (g < (reqOf r.req).total)) = some g := by
    simp only [Option.filter_some, hlo, hhi, decide_true, Bool.and_self, if_true]
  simp only [sampleDone, hserv, hstop, not_paused hres, Bool.false_eq_true, if_false, Option.getD_some]
  rfl

/-- A change of a unit counts only for what the unit holds. -/
theorem modRsmp_congr {s : State} {u : Nat} {f g : Rsmp → Rsmp} (h : f (rsmpAt s u) = g (rsmpAt s u)) : modRsmp s u f = modRsmp s u g := by
  have hupd : upd s.rsmp u f = upd s.rsmp u g := by
    rw [Laws.upd_set {} s.rsmp u f, Laws.upd_set {} s.rsmp u g]
    exact congrArg (fun k => upd s.rsmp u fun _ => k) h
  exact congrArg (fun l => { s with rsmp := l }) hupd

theorem samplePause_eq {u st : Nat} {s : State} {g : Stage} (hact : patActive s = true) (hn : nextReservation s u = some (st, g)) :
    samplePause u s =
      (let s1 := passToOff s (g.openNs - cycNs s 64)
       match (rsmpAt s1 u).serving with
       | none => modRsmp s1 u fun k => { k with resvFor := some st }
       | some r => if r.lc then modRsmp s1 u fun k => { k with resvFor := some st }
         else modRsmp (samplerAdvance u s1.clk.cyc s1) u fun k =>
           match k.serving with
           | some r => if r.lc then { k with resvFor := some st }
             else { k with serving := none, paused := some { r with start := s1.clk.cyc - r.start }, freeAt := max k.freeAt s1.clk.cyc, resvFor := some st }
           | none => { k with resvFor := some st }) := by
  simp only [samplePause, hact, hn, Bool.not_true, Bool.false_eq_true, if_false]
  generalize passToOff s (g.openNs - cycNs s 64) = s1
  cases hserv : (rsmpAt s1 u).serving with
  | none => exact modRsmp_congr (by simp only [hserv])
  | some r =>
    cases hlc : r.lc with
    | true =>
      simp only [hlc, if_true]
      exact modRsmp_congr (by simp only [hserv, hlc, if_true])
    | false => simp only [hlc, Bool.false_eq_true, if_false] <;> rfl

/-! ### The Keyed Feature Store -/

theorem keyedStart_eq {s : State} {r : KReq} {rest : List KReq} (hq : s.kfs.queue ≠ []) (hin : inService s dFST = true)
    (hup : dramUp s = true) (hsafe : s.glb.safe = false) (hn : (passToCyc s (keyedFreeAt s)).kfs.queue = r :: rest) :
    keyedStart s =
      (let s2 := passToCyc s (keyedFreeAt s)
       let d := keyedOf r.desc
       let s3 := if d.grid then readRun .fst (r.agent s2) d.key 8 s2 else s2
       { s3 with kfs := { s3.kfs with
         queue := rest
         serving := some { r with start := s3.clk.cyc, done := 0,
                                  origin := if d.grid then BitVec.ofNat 64 (s3.fst.mem.rdLe d.key 8) else 0 } } }) := by
  have hempty : s.kfs.queue.isEmpty = false := by simpa using hq
  simp only [keyedStart, hempty, hin, hup, hsafe, Bool.not_true, Bool.or_self, Bool.false_eq_true, if_false, hn]

theorem keyedDone_eq {s : State} {r0 r : KReq} (hn : nextKeyedDone s = some r0)
    (hf : (passToCyc s r0.doneAt).kfs.finishing.find? (fun r => r.core == r0.core && r.run == r0.run && r.seq == r0.seq && r.desc == r0.desc) = some r) :
    keyedDone s =
      (let s2 := passToCyc s r0.doneAt
       requestOver (if (keyedOf r.desc).scatter then .store else .load) r.core r.run r.seq r.bundle r.token
         { s2 with kfs := { s2.kfs with finishing := s2.kfs.finishing.erase r } }) := by
  simp only [keyedDone, hn, hf]

/-- Settles O31: the start, the two ends and the pause of a Region Sampler's request; the start and the end of a keyed one. -/
theorem unitsServe : Obligations.UnitsServe := by
  refine ⟨⟨?start, ?whole, ?differs, ?pause⟩, ?keyedStart, ?keyedDone⟩
  case start =>
    intro u s hr hserv hin hsafe
    exact sampleRequestStart_next hr hserv hin hsafe
  case whole =>
    intro u s r hr hserv q s1 hres
    exact Laws.run_next _ hr (sampleDone_whole hserv hres)
  case differs =>
    intro u s r g hr hserv hlo hhi s1 hres
    exact Laws.run_next _ hr (sampleDone_differs hserv hlo hhi hres)
  case pause =>
    intro u s st g hr hact hn
    exact Laws.run_next _ hr (samplePause_eq hact hn)
  case keyedStart =>
    intro s hr hq hin hup hsafe s2 r rest hn
    exact Laws.run_next _ hr (keyedStart_eq hq hin hup hsafe hn)
  case keyedDone =>
    intro s r0 r hr hn s2 hf
    exact Laws.run_next _ hr (keyedDone_eq hn hf)

end Sys2Proof.Proofs
end

section
/-!
PROOFS. Chapters 06, 11 and 12: how commands reach their cores, how bundles dispatch, how commands end, and the submission rings, turns and
best-effort commands of the Job Dispatcher.
-/
namespace Sys2Proof.Proofs
open Sys2Proof Sys2Proof.Machine

/-! ### Dispatch of latency-critical commands -/

theorem commandDispatch_turn {c : Nat} {s : State} {j : LcJob} {x : LcCmd} (hsafe : s.glb.safe = false)
    (hat : (coreAt s c).st.swatchAt = none) (hdue : (coreAt s c).st.swatchDue = false) (hrun : (coreAt s c).st.run = none)
    (hturn : lcTurn s c = some (j, x)) : commandDispatch c s = dispatchLc j x s := by
  simp only [commandDispatch, hsafe, hat, hdue, hrun, hturn, Option.isSome_none, Bool.or_self, Bool.false_eq_true, if_false]

theorem dispatchLc_retired {j : LcJob} {x : LcCmd} {s : State} (hret : isRetired s x.core = true) :
    dispatchLc j x s = lcOver j.stage j.job x.idx 0x40 0 (fire { b := bDISP, src := 1, who := .lcCmd j.part } (voidParts [j.part] s)) :=
  if_pos hret

theorem dispatchLc_fenced {j : LcJob} {x : LcCmd} {s : State} (hret : isRetired s x.core = false) (hin : inService s (dCore x.core) = false) :
    dispatchLc j x s = lcOver j.stage j.job x.idx 0x21 0 s := by
  simp only [dispatchLc, hret, hin, Bool.false_eq_true, if_false, Bool.not_false, if_true]

theorem dispatchLc_placed {j : LcJob} {x : LcCmd} {s : State} (hret : isRetired s x.core = false) (hin : inService s (dCore x.core) = true) :
    dispatchLc j x s = dispatchedEarly j x (placeLc j x s) := by
  simp only [dispatchLc, hret, hin, Bool.false_eq_true, if_false, Bool.not_true]

theorem replayDispatch_turn {c : Nat} {s : State} {j : LcJob} {x : LcCmd} (hsafe : s.glb.safe = false) (hrun : (coreAt s c).st.run = none)
    (hturn : replayTurn s c = some (j, x)) (hin : inService s (dCore c) = true) :
    replayDispatch c s =
      (let r := lcRun s j x
       let s1 := modCmd j.stage j.job x.idx (fun y => { y with phase := .placed }) { s with runSeq := s.runSeq + 1 }
       setupRun c r (coreAt s c).st.idleAt (modSt s1 c fun k => { k with run := some r })) := by
  simp only [replayDispatch, hsafe, hrun, hturn, hin, Option.isSome_none, Bool.or_self, Bool.false_eq_true, if_false, if_true]

/-- The state in which the setup of a command ends. -/
def setupEnd (c : Nat) (r0 : Run) (t : Nat) (s : State) : State :=
  let im := imgOn s c r0.hdr
  let r := { r0 with phase := .setup, decl := (hdrOf (im.unit 0)).decl, setup := setupCycles im r0.hdr }
  modSt (passToCyc s (t + r.setup + if (coreAt s c).st.gated then 24 else 0)) c fun k =>
    { k with run := some { r with void := r.void || (k.run.map Run.void).getD false } }

section
variable {c t : Nat} {r0 : Run} {s : State}

theorem setupRun_rejected {f : Nat × Nat} (hf : commandFail (setupEnd c r0 t s) (imgOn s c r0.hdr) r0.hdr r0.lc = some f) :
    setupRun c r0 t s =
      (let im := imgOn s c r0.hdr
       let r := { r0 with phase := .setup, decl := (hdrOf (im.unit 0)).decl, setup := setupCycles im r0.hdr }
       rejectCmd c r f.1 f.2 (setupReads c r.hdr {} (setupEnd c r0 t s))) := by
  unfold setupRun
  unfold setupEnd at *
  unfold wake
  dsimp only at hf ⊢
  rw [hf]

theorem setupRun_runs (hf : commandFail (setupEnd c r0 t s) (imgOn s c r0.hdr) r0.hdr r0.lc = none) :
    setupRun c r0 t s =
      (let im := imgOn s c r0.hdr
       let h := hdrOf (im.unit 0)
       let r := { r0 with phase := .setup, decl := h.decl, setup := setupCycles im r0.hdr }
       let s2 := setupReads c r.hdr h (setupEnd c r0 t s)
       let r1 := { (coreAt s2 c).st.run.getD r with phase := .running, start := s2.clk.cyc }
       let s3 := modCore { s2 with freeSeq := s2.freeSeq + 2 } c fun k => k.fresh r1 h.entry s2.freeSeq s2.clk.cyc
       traceStart c (jobrefOf s3 r1) r1 s3) := by
  unfold setupRun
  unfold setupEnd at *
  unfold wake
  dsimp only at hf ⊢
  rw [hf]

end

/-- Settles O32: the turn of a command by the state of its core, the replay, and the two ends of a setup. -/
theorem commandsDispatched : Obligations.CommandsDispatched := by
  refine ⟨?dispatch, ?replay, ?setup⟩
  case dispatch =>
    intro c s j x hr hsafe hat hdue hrun hturn
    have hd := commandDispatch_turn hsafe hat hdue hrun hturn
    refine ⟨fun hret => ?_, fun hret hin => ?_, fun hret hin => ?_⟩
    · exact Laws.run_next _ hr (hd.trans (dispatchLc_retired hret))
    · exact Laws.run_next _ hr (hd.trans (dispatchLc_fenced hret hin))
    · exact Laws.run_next _ hr (hd.trans (dispatchLc_placed hret hin))
  case replay =>
    intro c s j x hr hsafe hrun hturn hin
    exact Laws.run_next _ hr (replayDispatch_turn hsafe hrun hturn hin)
  case setup =>
    intro c r0 t s im h r s1
    constructor
    · intro f hf
      exact setupRun_rejected hf
    · intro hf
      exact setupRun_runs hf

/-! ### Dispatch of bundles -/

section
variable {c : Nat} {s : State} {r : Run} (hl : coreLive s c = true) (hrun : (coreAt s c).st.run = some r) (hph : r.phase = .running)
  (hov : r.isOver = false)
include hl hrun hph hov

theorem dispatchBundle_full (hfull : ((entering s (ctxOf s c) (BitVec.ofNat 256 ((coreAt s c).bst.rdLe (32 * (coreAt s c).sq.pc) 32))).any
      fun y => decide (16 ≤ ((coreAt s c).sq.queue (QId.ofSlot y.num)).length)) = true) :
    dispatchBundle c s = modCore s c fun k =>
      { k with sq := { k.sq with blockedAt := some (k.sq.blockedAt.getD (max k.sq.dispAt s.clk.cyc)) } } := by
  simp only [dispatchBundle, hl, hrun, hph, hov, hfull, Bool.not_true, bne_self_eq_false, Bool.or_self, Bool.false_eq_true, if_false, if_true]

theorem dispatchBundle_room (hroom : ((entering s (ctxOf s c) (BitVec.ofNat 256 ((coreAt s c).bst.rdLe (32 * (coreAt s c).sq.pc) 32))).any
      fun y => decide (16 ≤ ((coreAt s c).sq.queue (QId.ofSlot y.num)).length)) = false) :
    dispatchBundle c s =
      (let k := (coreAt s c).sq
       let u := BitVec.ofNat 256 ((coreAt s c).bst.rdLe (32 * k.pc) 32)
       let x := ctxOf s c
       let s1 := passToCyc s k.dispAt
       let t := s1.clk.cyc
       let s2 := traceBundle c u k.pc (t - r.start) (readRun (.bst c) (some c) (32 * k.pc) 32 (countStall c t s1))
       let p := dispatchSlots c x u s2
       let s3 := modCore p.1 c fun k => { k with sq := { k.sq with seq := k.sq.seq + 1 }, st := { k.st with lastAct := t } }
       afterBundle c r x.hdr.len u p.2 s3) := by
  simp only [dispatchBundle, hl, hrun, hph, hov, hroom, Bool.not_true, bne_self_eq_false, Bool.or_self, Bool.false_eq_true, if_false]

end

/-- Striking memories and registers leaves the reset as it is. -/
theorem strikes_inReset (up : List Strike) (s : State) : (strikes up s).rst.inReset = s.rst.inReset :=
  (Laws.steady_of_kept (Laws.kept_strikes up s)).inReset

/-- Settles O33: the strikes come first, and a bundle waits or dispatches by the room of its queues. -/
theorem bundlesDispatch : Obligations.BundlesDispatch := by
  refine ⟨fun c up s hr => ?strikes, ?bundle⟩
  case strikes =>
    exact (Laws.run_eq (fun s => dispatchBundle c (strikes up s)) hr).trans
      (Laws.run_eq (fun s => dispatchBundle c (strikes [] s)) ((strikes_inReset up s).trans hr)).symm
  case bundle =>
    intro c s r hr hl hrun hph hov k u x
    constructor
    · intro hfull
      exact Laws.run_next (fun s => dispatchBundle c (strikes [] s)) hr (dispatchBundle_full hl hrun hph hov hfull)
    · intro hroom
      exact Laws.run_next (fun s => dispatchBundle c (strikes [] s)) hr (dispatchBundle_room hl hrun hph hov hroom)

/-! ### The ends of a command -/

theorem commandComplete_at {c t : Nat} {s : State} {r : Run} (hrun : (coreAt s c).st.run = some r) (hc : completeAt s c r = some t) :
    commandComplete c s = (let s1 := passToCyc s t; finishRun c 0 (commit c s1.clk.cyc s1)) := by
  simp only [commandComplete, hrun, hc]

theorem commandComplete_waits {c : Nat} {s : State} {r : Run} (hrun : (coreAt s c).st.run = some r) (hc : completeAt s c r = none) :
    commandComplete c s = s := by
  simp only [commandComplete, hrun, hc]

theorem cmdOverrun_fires {c : Nat} {s : State} {r : Run} (hrun : (coreAt s c).st.run = some r) (hph : r.phase = .running)
    (hov : r.overrun = false) :
    cmdOverrun c s =
      (let s1 := passToCyc s (r.start + r.decl + r.decl / 16 + 1)
       fire { b := bCC c, src := 13, who := whoOn s1 c } (modSt s1 c fun k => { k with run := k.run.map fun r => { r with overrun := true } })) := by
  simp only [cmdOverrun, hrun, hph, hov, bne_self_eq_false, Bool.or_self, Bool.false_eq_true, if_false]

theorem syncStall_ends {c : Nat} {s : State} {r : Run} (hrun : (coreAt s c).st.run = some r) (hph : r.phase = .running)
    (hw : r.isOver = true ∨ (coreAt s c).sq.blockedAt ≠ none) (hc : completeAt s c r = none) (ho : outstanding s c r = false)
    (hd : drainAwaited (coreAt s c) s.clk.cyc = false) :
    syncStall c s =
      (let k := coreAt s c
       let s1 := passToCyc s (max k.st.lastAct (max k.sq.syAt (maxN (k.sq.infl.filterMap Infl.doneAt))) + 4096)
       finishRun c 0x23 (fire { b := bCC c, src := 11, who := whoOn s1 c } (commit c s1.clk.cyc s1))) := by
  have hwait : (!(r.isOver || (coreAt s c).sq.blockedAt.isSome)) = false := by
    rcases hw with h | h
    · rw [h, Bool.true_or, Bool.not_true]
    · rw [Option.isSome_iff_ne_none.2 h, Bool.or_true, Bool.not_true]
  simp only [syncStall, hrun, hph, hwait, hc, ho, hd, bne_self_eq_false, Option.isSome_none, Bool.or_self, Bool.false_eq_true, if_false]

theorem idleGate_gates {c : Nat} {s : State} (hen : s.time.idleGate = true) (hp : present s c = true) (hrun : (coreAt s c).st.run = none)
    (hat : (coreAt s c).st.swatchAt = none) (hg : (coreAt s c).st.gated = false) :
    idleGate c s = modSt (passToCyc s ((coreAt s c).st.idleSince + 4096)) c fun k => { k with gated := true } := by
  simp only [idleGate, hen, hp, hrun, hat, hg, Bool.not_true, Option.isSome_none, Bool.or_self, Bool.false_eq_true, if_false]

/-- Settles O34: each end of a command under its conditions. -/
theorem commandsEnd : Obligations.CommandsEnd := by
  refine ⟨?complete, ?waits, ?overrun, ?stall, ?gate⟩
  case complete =>
    intro c s r t hr hrun hc
    exact Laws.run_next _ hr (commandComplete_at hrun hc)
  case waits =>
    intro c s r hr hrun hc
    exact Laws.run_keep _ hr (commandComplete_waits hrun hc) rfl rfl rfl
  case overrun =>
    intro c s r hr hrun hph hov
    exact Laws.run_next _ hr (cmdOverrun_fires hrun hph hov)
  case stall =>
    intro c s r hr hrun hph hw hc ho hd
    exact Laws.run_next _ hr (syncStall_ends hrun hph hw hc ho hd)
  case gate =>
    intro c s hr hen hp hrun hat hg
    exact Laws.run_next _ hr.1 (idleGate_gates hen hp hrun hat hg)

/-! ### Submission and turns -/

/-- The entry at the head of a submission ring. -/
def headEntry (s : State) (r : Nat) : SubEntry :=
  subEntryOf (BitVec.ofNat 512 (s.host.rdLe ((subAt s r).base.toNat + 64 * (subAt s r).head) 64))

/-- What a fetch of ring r does, by its entry. -/
theorem submissionFetch_eq {r : Nat} {s : State} (hf : canFetch s r = true) :
    submissionFetch r s =
      (let k := subAt s r
       let e := headEntry s r
       let s1 := modSub s r fun k => { k with head := (k.head + 1) % 2 ^ k.sizeLog2 }
       let s2 := modSub s1 r fun k => { k with highSeq := e.seq }
       let d := (e.seq - k.highSeq).toNat
       if d = 0 ∨ 2 ^ 31 ≤ d then
         postCpl s1 (jobRecord s1 r e 0x02 (((k.history.find? fun h => h.1 == e.seq).map Prod.snd).getD 0xFF))
       else if e.ok s2 then
         startTurns (modSub s2 r fun k => { k with job := some { seq := e.seq, tag := e.tag, clist := e.clist, cnt := e.cnt } })
       else fire { b := bDISP, src := 2 }
         (postCpl (modSub s2 r fun k => { k with history := ((e.seq, 0x23) :: k.history).take 64 }) (jobRecord s2 r e 0x23 0))) := by
  unfold submissionFetch headEntry
  simp only [hf, Bool.not_true, Bool.false_eq_true, if_false]

theorem not_dup {d : Nat} (h0 : 0 < d) (h31 : d < 2 ^ 31) : ¬ (d = 0 ∨ 2 ^ 31 ≤ d) := fun h =>
  h.elim (Nat.ne_of_gt h0) (Nat.not_le_of_gt h31)

theorem turnEnd_at {p n : Nat} {s : State} {t : Turn} (ht : s.disp.turns.getD p none = some t) (hact : patActive s = true)
    (hsafe : s.glb.safe = false) (hocc : lcOccupied s p = false) (hn : turnEndIn (offNs s) (freeIvs s p) t.left = some n) :
    turnEnd p s = endTurn p t.ring (passNs s n) := by
  simp only [turnEnd, ht, hact, hsafe, hocc, hn, Bool.not_true, Bool.or_self, Bool.false_eq_true, if_false]

/-- Settles O35: a fetch by its entry's SEQ and soundness, and the end of a turn. -/
theorem submissionsAndTurns : Obligations.SubmissionsAndTurns := by
  refine ⟨?fetch, ?turn⟩
  case fetch =>
    intro r s hr hf k e s1 s2 d
    have hfetch := submissionFetch_eq hf
    refine ⟨fun hdup => ?_, fun h0 h31 hok => ?_, fun h0 h31 hbad => ?_⟩
    · exact Laws.run_next _ hr (hfetch.trans (if_pos hdup))
    · exact Laws.run_next _ hr (hfetch.trans ((if_neg (not_dup h0 h31)).trans (if_pos hok)))
    · exact Laws.run_next _ hr (hfetch.trans ((if_neg (not_dup h0 h31)).trans (if_neg (ne_true_of_eq_false hbad))))
  case turn =>
    intro p s t n hr ht hact hsafe hocc hn
    exact Laws.run_next _ hr (turnEnd_at ht hact hsafe hocc hn)

/-! ### Best-effort commands -/

theorem imageCopy_takes {r i : Nat} {s : State} {j : BeJob} (hj : (subAt s r).job = some j) (hi : j.nextCmd = some i)
    (hmay : beMay (if patActive s && decide (offNs s < 100000) then passToOff s 100000 else s) r = true) :
    imageCopy r s = takeCmd r i j (if patActive s && decide (offNs s < 100000) then passToOff s 100000 else s) := by
  simp only [imageCopy, hj, hi, hmay, Bool.not_true, Bool.false_eq_true, if_false]

section
variable {r i : Nat} {j : BeJob} {s s2 : State} {e : ListEntry} (hs2 : readRun .dram none (j.clist + 32 * i) 32 s = s2)
  (he : listEntryOf (BitVec.ofNat 256 (s2.drc.mem.rdLe (j.clist + 32 * i) 32)) = e)
include hs2 he

theorem takeCmd_rejects {st : Nat} {src : Option Nat} (hbad : listEntryBad s2 (subAt s r).part e = some (st, src)) :
    takeCmd r i j s = beOver r i e.core st 0 (modBe r (fun j => j.take)
      (match (generalizing := false) src with | some n => fire { b := bDISP, src := n, who := .parts [] } s2 | none => s2)) := by
  unfold takeCmd
  dsimp only
  rw [hs2, he, hbad] <;> rfl

theorem takeCmd_copies (hok : listEntryBad s2 (subAt s r).part e = none) (hrun : (coreAt s2 e.core).st.run = none)
    (hat : (coreAt s2 e.core).st.swatchAt = none) (hdue : (coreAt s2 e.core).st.swatchDue = false)
    (hmay : beMay (passToCyc s2 (coreAt s2 e.core).st.idleAt) r = true) :
    takeCmd r i j s = copyImage r i j e (passToCyc s2 (coreAt s2 e.core).st.idleAt) := by
  unfold takeCmd
  dsimp only
  rw [hs2, he, hok]
  simp only [hrun, hat, hdue, hmay, Option.isSome_none, Bool.or_self, Bool.false_eq_true, if_false, if_true]

end

theorem gracePoint_eq {p : Nat} {s : State} (hact : patActive s = true) :
    gracePoint p s =
      (let b := nextBoundary s p
       let s1 := if offNs s < b - s.disp.grace.1 then passToOff s (b - s.disp.grace.1) else s
       ((beRuns s1 p).filter fun x =>
         !(x.2.phase == .running && decide (offNs s1 + cycNs s1 (remaining s1 x.2) ≤ b - 1000))).foldl (abortBe 1) s1) := by
  simp only [gracePoint, hact, Bool.not_true, Bool.false_eq_true, if_false]

theorem cutOff_eq {p : Nat} {s : State} (hact : patActive s = true) :
    cutOff p s =
      (let b := nextBoundary s p
       let s1 := if offNs s < b - 1000 then passToOff s (b - 1000) else s
       (beRuns s1 p).foldl (fun s x => abortBe 2 (fire { b := bDISP, src := 5, who := .beCmd x.1 } s) x) s1) := by
  simp only [cutOff, hact, Bool.not_true, Bool.false_eq_true, if_false]

/-- Settles O36: the copy by the list entry, the grace point and the cut-off. -/
theorem bestEffort : Obligations.BestEffort := by
  refine ⟨?copy, ?grace, ?cut⟩
  case copy =>
    intro r s j i hr hj hi s1 hmay a s2 e
    have htake := imageCopy_takes hj hi hmay
    refine ⟨fun st src hbad => ?_, fun hok hrun hat hdue hmay2 => ?_⟩
    · exact Laws.run_next _ hr (htake.trans (takeCmd_rejects rfl rfl hbad))
    · exact Laws.run_next _ hr (htake.trans (takeCmd_copies rfl rfl hok hrun hat hdue hmay2))
  case grace =>
    intro p s hr hact
    exact Laws.run_next _ hr (gracePoint_eq hact)
  case cut =>
    intro p s hr hact
    exact Laws.run_next _ hr (cutOff_eq hact)

end Sys2Proof.Proofs
end

section
/-!
PROOFS. Chapters 01, 09, 11 and 15: the start of a tick, the stages of the plan, the settle points, the directory walk and the swatch.
-/
namespace Sys2Proof.Proofs
open Sys2Proof Sys2Proof.Machine

/-! ### The start of a tick -/

section
variable {s : State} (hact : patActive s = true)
include hact

theorem tickBoundary_unloads (hu : (passToGtc s (tickGtc s (s.time.tick + 1))).glb.unloadPend = true) :
    tickBoundary s = unloadNow (passToGtc s (tickGtc s (s.time.tick + 1))) := by
  unfold tickBoundary
  rw [if_pos hact]
  dsimp only
  rw [if_pos hu]

theorem tickBoundary_begins (hu : (passToGtc s (tickGtc s (s.time.tick + 1))).glb.unloadPend = false) :
    tickBoundary s = beginTick (s.time.tick + 1) (passToGtc s (tickGtc s (s.time.tick + 1))) := by
  unfold tickBoundary
  rw [if_pos hact]
  dsimp only
  rw [if_neg (ne_true_of_eq_false hu)]

end

/-- What a tick boundary changes but for the cores, which it marks for their swatch, and what follows it. -/
def tickChanges (k : Nat) (s : State) : State :=
  { s with
    clk := { s.clk with tickCyc := startCyc s }
    time := (s.time.newTick k).avsStepped s.freeSeq
    freeSeq := s.freeSeq + 1
    disp := s.disp.newTick
    siu := { s.siu with tune := s.siu.shadow, aged := [] }.newTick
    fst := { s.fst with arr := [], arrAt := [] }
    glb := { s.glb with voids := s.glb.voids.filter fun v => decide (k ≤ v.2 + 1) }
    dru := { s.dru with voidNext := false } }

theorem tickChanges_eq (k : Nat) (s : State) : tickChanges k s =
  { s with
    clk := { s.clk with tickCyc := startCyc s }
    time := { s.time with
      tick := k
      active := true
      droopLast := min s.time.droopCur 65535
      droopCur := 0
      droopAtRec := none
      prevTail := min (match s.time.droopAtRec with | some n => s.time.droopCur - n | none => 0) 65535
      vddCore := (s.time.avsStepped s.freeSeq).vddCore }
    freeSeq := s.freeSeq + 1
    disp := { s.disp with
      retired := s.disp.retired ||| s.disp.retireDue
      retireDue := 0
      slice := (s.disp.slice.2, s.disp.slice.2), grace := (s.disp.grace.2, s.disp.grace.2)
      jobs := s.disp.jobs.filter fun j => !j.ended
      opened := []
      closed := []
      settled := []
      stageEnded := []
      deadline := 0
      slack := [none, none, none, none]
      subs := s.disp.subs.map fun (x : SubRing) => { x with refetch := false } }
    siu := { s.siu with
      tune := s.siu.shadow
      aged := []
      sweeps := [{}, {}, {}, {}]
      flushing := s.siu.flushing ++ ((List.range 4).map fun m => (m, s.siu.sweeps.getD m {})).filter fun (x : Nat × Sweep) => x.2.closed.isSome && !x.2.isOver }
    fst := { s.fst with arr := [], arrAt := [] }
    glb := { s.glb with voids := s.glb.voids.filter fun v => decide (k ≤ v.2 + 1) }
    dru := { s.dru with voidNext := false } } := rfl

theorem beginTick_eq (k : Nat) (s : State) :
    beginTick k s =
      (let s1 := tickChanges k s
       let s2 := { s1 with cores := s1.cores.mapIdx fun c (x : Core) => { x with st := { x.st with swatchDue := swatchCore s1 c } } }
       let s3 := voidAt ((tickVoids s).map (fun p => (p, k)) ++ peerVoids s k) s2
       startTurns (startWalk k (forgetAll (initStatus k (trace 0x04 0 (BitVec.ofNat 64 k) s3))))) := rfl

/-- The set point stays where it is or takes the step, within its limits. -/
theorem avsStepped_cases (t : TimeU) (n : Nat) :
    (t.avsStepped n).vddCore = t.vddCore ∨
      (t.avsEn = true ∧ 650 ≤ (t.avsStepped n).vddCore ∧ (t.avsStepped n).vddCore ≤ 800 ∧
        (t.avsStepped n).vddCore = t.vddCore + 5 * (Config.avsStep n).val - 5) := by
  unfold TimeU.avsStepped
  dsimp only
  split
  case isTrue h =>
    simp only [Bool.and_eq_true, decide_eq_true_eq] at h
    obtain ⟨⟨hen, hlo⟩, hhi⟩ := h
    exact .inr ⟨hen, hlo, hhi, rfl⟩
  case isFalse => exact .inl rfl

theorem avsStepped_off {t : TimeU} (n : Nat) (h : t.avsEn = false) : t.avsStepped n = t := by
  unfold TimeU.avsStepped
  have hoff (a b : Bool) : ¬ (t.avsEn && a && b) = true := by simp [h]
  exact congrArg (fun v => { t with vddCore := v }) (if_neg (hoff _ _))

theorem avsStepped_bounds {t : TimeU} (n : Nat) (hlo : 650 ≤ t.vddCore) (hhi : t.vddCore ≤ 800) :
    650 ≤ (t.avsStepped n).vddCore ∧ (t.avsStepped n).vddCore ≤ 800 ∧ t.vddCore ≤ (t.avsStepped n).vddCore + 5 ∧
      (t.avsStepped n).vddCore ≤ t.vddCore + 5 := by
  have hstep := (Config.avsStep n).isLt
  rcases avsStepped_cases t n with h | ⟨-, h1, h2, h3⟩
  · omega
  · omega

/-- Settles O37: the strikes come first, the boundary unloads or begins the tick, and the set point moves by one step at most. -/
theorem tickStarts : Obligations.TickStarts := by
  refine ⟨?strikes, ?boundary, ?avs⟩
  case strikes =>
    intro up s hr
    exact (Laws.run_eq (fun s => tickBoundary (strikes up s)) hr).trans
      (Laws.run_eq (fun s => tickBoundary (strikes [] s)) ((strikes_inReset up s).trans hr)).symm
  case boundary =>
    intro s hr hact k s0
    constructor
    · intro hu
      exact Laws.run_next (fun s => tickBoundary (strikes [] s)) hr (tickBoundary_unloads hact hu)
    · intro hu
      have h := Laws.run_next (fun s => tickBoundary (strikes [] s)) hr ((tickBoundary_begins hact hu).trans (beginTick_eq ..))
      rw [tickChanges_eq] at h
      exact h
  case avs =>
    intro t n
    exact ⟨avsStepped_off n, avsStepped_bounds n⟩

/-! ### The stages of the plan -/

theorem stageOpen_eq {st : Nat} {s : State} {g : Stage} (hact : patActive s = true) (hg : stageAt s st = some g) (hnew : st ∉ s.disp.opened) :
    stageOpen st s =
      (let s1 := trace 0x05 st 0 (passToOff s g.openNs)
       let jobs := if g.compute && !s1.glb.safe then (jobsOfStage s1 st).map (launchJob s1 st) else []
       { s1 with disp := { s1.disp with opened := s1.disp.opened ++ [st], jobs := s1.disp.jobs ++ jobs } }) := by
  have hc : s.disp.opened.contains st = false := by simpa using hnew
  simp only [stageOpen, hg, hact, hc, Bool.not_true, Bool.or_self, Bool.false_eq_true, if_false]

theorem stageClose_eq {st : Nat} {s : State} {g : Stage} (hact : patActive s = true) (hg : stageAt s st = some g) (hcomp : g.compute = true)
    (hnew : st ∉ s.disp.closed) :
    stageClose st s =
      (let s1 := trace 0x05 st 1 (passToOff s g.closeNs)
       let s2 := { s1 with
         disp := { s1.disp with closed := s1.disp.closed ++ [st] }
         rsmp := s1.rsmp.map fun (k : Rsmp) => if k.resvFor = some st then { k with resvFor := none } else k }
       let late := (List.range 4).filter (latePart s2 st)
       if late = [] ∨ s2.glb.safe = true then s2 else closeLate st late s2) := by
  have hc : s.disp.closed.contains st = false := by simpa using hnew
  simp only [stageClose, hg, hact, hcomp, hc, Bool.not_true, Bool.or_self, Bool.false_eq_true, if_false, Bool.or_eq_true, List.isEmpty_iff]

theorem intakeClose_eq {st : Nat} {s : State} {g : Stage} (hact : patActive s = true) (hg : intakeStage s = some (st, g))
    (hnew : st ∉ s.disp.closed) :
    intakeClose s =
      (let s1 := passToOff s g.closeNs
       let s2 := trace 0x05 st 1 { s1 with disp := { s1.disp with closed := s1.disp.closed ++ [st] } }
       let s3 := forgetDropped (if intakeLive s2 then priorLate s2 else s2)
       if usedMask s3 = 0 ∧ s3.time.droopAtRec = none then postTick false s3 else s3) := by
  have hc : s.disp.closed.contains st = false := by simpa using hnew
  simp only [intakeClose, hg, hact, hc, Bool.not_true, Bool.or_self, Bool.false_eq_true, if_false, Bool.and_eq_true, decide_eq_true_eq,
    Option.isNone_iff_eq_none]

/-! ### Settle points and the directory walk -/

theorem allSettled_iff (s : State) : allSettled s = true ↔ ∀ q < 4, usesPart s q = true → q ∈ s.disp.settled := by
  simp [allSettled, or_iff_not_imp_left]

theorem settlePoint_eq {p : Nat} {s s1 s2 : State} (hact : patActive s = true) (hp : usesPart s p = true) (hnew : p ∉ s.disp.settled)
    (h1 : s1 = postHeld p (passToOff s (settleNs s p))) (h2 : s2 = { s1 with disp := { s1.disp with settled := s1.disp.settled ++ [p] } }) :
    settlePoint p s = if (allSettled s2 && s2.time.droopAtRec.isNone) = true then postTick false s2 else s2 := by
  have hc : s.disp.settled.contains p = false := by simpa using hnew
  subst h2 h1
  simp only [settlePoint, hact, hp, hc, Bool.not_true, Bool.or_self, Bool.false_eq_true, if_false]

/-- The last settle point of a tick, the tick record not yet written. -/
theorem lastSettle_iff (s : State) : (allSettled s && s.time.droopAtRec.isNone) = true ↔
    (∀ q < 4, usesPart s q = true → q ∈ s.disp.settled) ∧ s.time.droopAtRec = none := by
  rw [Bool.and_eq_true, allSettled_iff, Option.isNone_iff_eq_none]

theorem endWalk_at {s : State} {t : Nat} (hw : s.kfs.walkEnd = some t) :
    endWalk s =
      (let s1 := passToCyc s t
       { s1 with kfs := { s1.kfs with
         walkEnd := none, occ := sumN (s1.kfs.dir.map fun e => (e.2.filter fun w => w.2 ≠ 0).length) } }) := by
  have hne (w : Nat × Nat) : (w.2 != 0) = decide (w.2 ≠ 0) := (decide_not ..).symm
  simp only [endWalk, hw, hne]

theorem endWalk_none {s : State} (hw : s.kfs.walkEnd = none) : endWalk s = s := by
  simp only [endWalk, hw]

/-- Settles O38: each stage opens and closes once, each partition settles once, and the walk ends. -/
theorem stagesOpenAndClose : Obligations.StagesOpenAndClose := by
  refine ⟨⟨?openStage, ?closeStage, ?closeIntake⟩, ?settle, ?walk, ?noWalk⟩
  case openStage =>
    intro st s g hr hact hg hnew
    exact Laws.run_next _ hr (stageOpen_eq hact hg hnew)
  case closeStage =>
    intro st s g hr hact hg hcomp hnew
    exact Laws.run_next _ hr (stageClose_eq hact hg hcomp hnew)
  case closeIntake =>
    intro s st g hr hact hg hnew
    exact Laws.run_next _ hr (intakeClose_eq hact hg hnew)
  case settle =>
    intro p s hr hact hp hnew s1 s2 all
    have hs := settlePoint_eq hact hp hnew (rfl : s1 = _) (rfl : s2 = _)
    constructor
    · intro hall
      exact Laws.run_next _ hr (hs.trans (if_pos ((lastSettle_iff s2).2 hall)))
    · intro hall
      exact Laws.run_next _ hr (hs.trans (if_neg fun h => hall ((lastSettle_iff s2).1 h)))
  case walk =>
    intro s t hr hw
    exact Laws.run_next _ hr.1 (endWalk_at hw)
  case noWalk =>
    intro s hr hw
    exact Laws.run_keep _ hr (endWalk_none hw) rfl rfl rfl

/-! ### The swatch -/

theorem swatchStart_eq {c : Nat} {s : State} (hdue : (coreAt s c).st.swatchDue = true) (hrun : (coreAt s c).st.run = none)
    (hcore : swatchCore s c = true) :
    swatchStart c s =
      (let s1 := passToCyc s (max s.clk.tickCyc (coreAt s c).st.idleAt + if (coreAt s c).st.gated then 24 else 0)
       modCore s1 c fun k => k.swatch c s1.clk.cyc) := by
  simp only [swatchStart, wake, hdue, hrun, hcore, Bool.not_true, Option.isSome_none, Bool.or_self, Bool.false_eq_true, if_false]

theorem swatchEnd_judged {c t : Nat} {resp : Word} {s : State} (hat : (coreAt s c).st.swatchAt = some t)
    (hoff : offNs (passToCyc s (t + 49152)) ≤ 100000) :
    swatchEnd c resp s =
      (let s1 := passToCyc s (t + 49152)
       let sig := swatchSig (coreAt s1 c).asp resp
       let s2 := modSt (swatchOver c 49152 s1) c fun k => { k with swSig := sig }
       if sig.toNat = itmN s 8 0x10 c 0 then modSt s2 c fun k => { k with swFail := 0, swPass := true } else swatchFailed c 0 [] s2) := by
  simp only [swatchEnd, hat]
  exact if_neg (Nat.not_lt.2 hoff)

theorem swatchTimeout_eq {c : Nat} {s : State} (hin : inService s (dCore c) = true)
    (hsw : (coreAt s c).st.swatchAt ≠ none ∨ (coreAt s c).st.swatchDue = true) :
    swatchTimeout c s =
      (let s1 := passToOff s 100000
       swatchFailed c 1 []
         (swatchOver c (match (coreAt s c).st.swatchAt with | some t => s1.clk.cyc - t | none => 0) s1)) := by
  have hone : ((coreAt s c).st.swatchAt.isNone && !(coreAt s c).st.swatchDue) = false := by
    rcases hsw with h | h
    · rw [Option.isNone_eq_false_iff.2 (Option.isSome_iff_ne_none.2 h), Bool.false_and]
    · rw [h, Bool.not_true, Bool.and_false]
  unfold swatchTimeout
  simp only [hone, hin, Bool.not_true, Bool.or_self, Bool.false_eq_true, if_false] <;> rfl

theorem swatchFailed_first {c det : Nat} {s : State} (h : (coreAt s c).st.swFail = 0) :
    swatchFailed c det [] s = fire { b := bCC c, src := 7, det := BitVec.ofNat 32 det, who := .core c }
      (modSt s c fun k => { k with swFail := 1, swPass := false }) := by
  unfold swatchFailed
  rw [h]
  rfl

theorem swatchFailed_again {c det : Nat} {s : State} (h : (coreAt s c).st.swFail ≠ 0) :
    swatchFailed c det [] s =
      fireAll [{ b := bCC c, src := 7, det := BitVec.ofNat 32 det, who := .core c }, { b := bCC c, src := 8, who := .core c }]
        (modSt s c fun k => { k with swFail := min ((coreAt s c).st.swFail + 1) 7, swPass := false }) := by
  unfold swatchFailed
  dsimp only
  rw [if_neg h]
  rfl

/-- Settles O39: the start, the judged end, the time-out, and what a failure fires. -/
theorem swatch : Obligations.Swatch := by
  refine ⟨?start, ?judged, ?timeout, ?first, ?again⟩
  case start =>
    intro c s hr hdue hrun hcore
    exact Laws.run_next _ hr.1 (swatchStart_eq hdue hrun hcore)
  case judged =>
    intro c found extra s t hr hat s1 hoff
    exact Laws.run_next _ hr (swatchEnd_judged hat hoff)
  case timeout =>
    intro c s hr hin hsw
    exact Laws.run_next _ hr (swatchTimeout_eq hin hsw)
  case first =>
    intro c det s h
    exact swatchFailed_first h
  case again =>
    intro c det s h
    exact swatchFailed_again h

end Sys2Proof.Proofs
end

section
/-!
PROOFS. Chapter 10: camera frames, lidar packets and sweeps, the completion of samples, and packed tiles.
-/
namespace Sys2Proof.Proofs
open Sys2Proof Sys2Proof.Machine

/-! ### Packets of a camera receiver -/

theorem countCsi_eq (s : State) : countCsi s = { s with siu := { s.siu with unclaimedCsi := min (s.siu.unclaimedCsi + 1) 0xFFFFFFFF } } := by
  unfold countCsi satAdd
  rw [Nat.min_comm]

theorem countEth_eq (s : State) : countEth s = { s with siu := { s.siu with unclaimedEth := min (s.siu.unclaimedEth + 1) 0xFFFFFFFF } } := by
  unfold countEth satAdd
  rw [Nat.min_comm]

section
variable {rx : Fin 8} {vc : Fin 4} {s : State} (h : CameraPacket s rx vc)
include h

/-- A packet that its receiver takes: its header decides. -/
theorem csiPacket_taken (hdr : HdrEcc) (dt : Nat) (act : Nat → State → State) :
    csiPacket rx vc false hdr dt act s = (match hdr with
      | .ok => act (4 * rx + vc) s
      | .corrected => act (4 * rx + vc) (siuFire 2 s)
      | .bad => match s.siu.cams.getD (4 * rx + vc) none with
        | some cam =>
          if cam.discard.isSome || cam.err.isSome then s
          else siuFire 3 { s with siu := { s.siu with cams := upd s.siu.cams (4 * rx + vc) fun _ => some { cam with err := some 7 } } }
        | none => s) := by
  obtain ⟨-, hin, hsafe, hact, hen, htarget, hfst⟩ := h
  simp only [csiPacket, hin, hsafe, hact, hen, htarget, hfst, Bool.not_true, Bool.or_self, Bool.false_eq_true, if_false] <;> rfl

theorem csiPacket_ok (dt : Nat) (act : Nat → State → State) : csiPacket rx vc false .ok dt act s = act (4 * rx + vc) s :=
  csiPacket_taken h ..

theorem csiPacket_bad (dt : Nat) (act : Nat → State → State) {cam : Cam} (hcam : s.siu.cams.getD (4 * rx + vc) none = some cam)
    (hd : cam.discard = none) (he : cam.err = none) :
    csiPacket rx vc false .bad dt act s =
      fire { b := bSIU, src := 3 } { s with siu := { s.siu with cams := upd s.siu.cams (4 * rx + vc) fun _ => some { cam with err := some 7 } } } := by
  rw [csiPacket_taken h]
  simp only [hcam, hd, he, Option.isSome_none, Bool.or_self, Bool.false_eq_true, if_false]
  rfl

end

/-- A packet of no enabled stream is counted. -/
theorem csiPacket_unclaimed {rx vc dt : Nat} {vcx : Bool} {hdr : HdrEcc} {act : Nat → State → State} {s : State} (hin : inService s dSIU = true)
    (hsafe : s.glb.safe = false) (h : vcx = true ∨ patActive s = false ∨ streamEn s (4 * rx + vc) = false) :
    csiPacket rx vc vcx hdr dt act s = countCsi s := by
  have hnone : (vcx || !patActive s || !streamEn s (4 * rx + vc)) = true := by
    rcases h with h | h | h
    · simp [h]
    · simp [h]
    · simp [h]
  simp only [csiPacket, hin, hsafe, hnone, Bool.not_true, Bool.or_self, Bool.false_eq_true, if_false, if_true]

/-! ### Frames of a camera -/

theorem frameStart_eq (no n : Nat) (s : State) :
    frameStart no n s =
      (let s1 := match s.siu.cams.getD n none with
        | some cam => (match cam.err with
          | some r => camResult n cam 0x33 r s
          | none => camResult n cam 0x33 6 (fire { b := bSIU, src := 4 } s))
        | none => s
       let cam : Cam := { capture := s1.clk.gtc, frameNo := no, discard := if startedIn s1 n s1.time.tick then some 3 else if !inWindow s1 s1.time.tick s1.clk.gtc then some 2 else none }
       startSample n s1.time.tick { s1 with siu := { s1.siu with cams := upd s1.siu.cams n fun _ => some cam } }) := rfl

theorem csiLine_embedded {dt n : Nat} {payload : List Byte} {crcOk behind : Bool} {s : State} (hdt : dt = 0x12) :
    csiLine dt payload crcOk behind n s = countCsi s :=
  if_pos hdt

theorem csiLine_running {dt n : Nat} {payload : List Byte} {crcOk behind : Bool} {s : State} {cam : Cam}
    (hcam : s.siu.cams.getD n none = some cam) (hd : cam.discard = none) (he : cam.err = none) (hknown : dtKnown dt = true) (hdt : dt ≠ 0x12) :
    csiLine dt payload crcOk behind n s =
      (let g := camCfg s n
       if crcOk = false then failCam n 7 3 cam s
       else if dt ≠ g.dt ∨ payload.length ≠ lineBytes g.dt g.w then failCam n 6 4 cam s
       else if behind = true then failCam n 8 4 cam s
       else { s with siu := { s.siu with cams := upd s.siu.cams n fun _ => some { cam with lines := cam.lines ++ [lineValues g.dt g.w payload] } } }) := by
  simp only [csiLine, if_neg hdt, hknown, hcam, hd, he, if_true, Option.isSome_none, Bool.or_self, Bool.false_eq_true, if_false,
    Bool.not_eq_true']

section
variable {n : Nat} {s : State} {cam : Cam} (hcam : s.siu.cams.getD n none = some cam)
include hcam

theorem frameEnd_discarded {r : Nat} (hd : cam.discard = some r) : frameEnd n s = camResult n cam 0x30 r s := by
  simp only [frameEnd, hcam, hd]

theorem frameEnd_failed {r : Nat} (hd : cam.discard = none) (he : cam.err = some r) : frameEnd n s = camResult n cam 0x33 r s := by
  simp only [frameEnd, hcam, hd, he]

theorem frameEnd_whole (hd : cam.discard = none) (he : cam.err = none) :
    frameEnd n s =
      (let o := judgeFrame n cam.lines cam.capture s.clk.gtc s.time.tick s
       camResult n cam o.2.1 o.2.2 o.1) := by
  simp only [frameEnd, hcam, hd, he]

end

/-- Settles O40: a packet by its header and its receiver, and the frame by its start, its lines and its end. -/
theorem cameraFrames : Obligations.CameraFrames := by
  refine ⟨?start, ?line, ?finish, ?embedded, ?header, ?unclaimed⟩
  case start =>
    intro rx vc no s h
    exact Laws.run_next _ h.1 ((csiPacket_ok h ..).trans (frameStart_eq ..))
  case line =>
    intro rx vc dt payload crcOk behind s cam h hcam hd he hknown hdt
    have hne : dt.toNat ≠ 0x12 := fun e => hdt (BitVec.eq_of_toNat_eq e)
    exact Laws.run_next _ h.1 ((csiPacket_ok h ..).trans (csiLine_running hcam hd he hknown hne))
  case finish =>
    intro rx vc s cam h hcam n
    refine ⟨fun r hd => ?_, fun r hd he => ?_, fun hd he => ?_⟩
    · exact Laws.run_next _ h.1 ((csiPacket_ok h ..).trans (frameEnd_discarded hcam hd))
    · exact Laws.run_next _ h.1 ((csiPacket_ok h ..).trans (frameEnd_failed hcam hd he))
    · exact Laws.run_next _ h.1 ((csiPacket_ok h ..).trans (frameEnd_whole hcam hd he))
  case embedded =>
    intro rx vc payload crcOk behind s h
    exact Laws.run_next _ h.1 ((csiPacket_ok h ..).trans ((csiLine_embedded rfl).trans (countCsi_eq s)))
  case header =>
    intro rx vc dt act s h
    exact ⟨csiPacket_taken h .., fun cam hcam hd he => csiPacket_bad h dt act hcam hd he⟩
  case unclaimed =>
    intro rx vc vcx hdr dt act s hin hsafe h
    exact (csiPacket_unclaimed hin hsafe h).trans (countCsi_eq s)

/-! ### Ethernet frames -/

section
variable {m sfd : Nat} {frame : List Byte} {behind : Bool} {s : State} (hin : inService s dSIU = true) (hsafe : s.glb.safe = false)
include hin hsafe

theorem ethernetFrame_badFcs : ethernetFrame m frame false sfd behind s = fire { b := bSIU, src := 5 } s := by
  simp only [ethernetFrame, hin, hsafe, Bool.not_true, Bool.or_self, Bool.false_eq_true, if_false, Bool.not_false, if_true]
  rfl

theorem ethernetFrame_passed (h : addressOk s m frame = false ∨ isPtp frame = true) : ethernetFrame m frame true sfd behind s = s := by
  have hdrop : (!addressOk s m frame || isPtp frame) = true := by
    rcases h with h | h
    · rw [h, Bool.not_false, Bool.true_or]
    · rw [h, Bool.or_true]
  simp only [ethernetFrame, hin, hsafe, hdrop, Bool.not_true, Bool.or_self, Bool.false_eq_true, if_false, if_true]

/-- A frame that goes on to the templates. -/
theorem ethernetFrame_matched (haddr : addressOk s m frame = true) (hptp : isPtp frame = false) :
    ethernetFrame m frame true sfd behind s =
      (let mac := s.clk.gtc - BitVec.ofNat 64 sfd + BitVec.ofInt 64 (parI s (32 + m) 49)
       match (if patActive s = true ∧ streamEn s (32 + m) = true then matchFrame (template s (32 + m)) frame else none) with
       | some p => if (!inService s dFST || decide (9216 < frame.length + 4)) = true then s
         else if behind = true then overrunSweep m s else lidarPacket m (32 + m) frame p mac s
       | none => countEth s) := by
  simp only [ethernetFrame, hin, hsafe, haddr, hptp, Bool.not_true, Bool.or_self, Bool.false_eq_true, if_false] <;> rfl

end

section
variable {m sfd : Nat} {frame p : List Byte} {behind : Bool} {s : State} (hin : inService s dSIU = true) (hsafe : s.glb.safe = false)
  (haddr : addressOk s m frame = true) (hptp : isPtp frame = false)
include hin hsafe haddr hptp

theorem ethernetFrame_unmatched
    (hp : (if patActive s = true ∧ streamEn s (32 + m) = true then matchFrame (template s (32 + m)) frame else none) = none) :
    ethernetFrame m frame true sfd behind s = countEth s := by
  rw [ethernetFrame_matched hin hsafe haddr hptp]
  simp only [hp]

variable (hp : (if patActive s = true ∧ streamEn s (32 + m) = true then matchFrame (template s (32 + m)) frame else none) = some p)
include hp

theorem ethernetFrame_long (h : inService s dFST = false ∨ 9216 < frame.length + 4) : ethernetFrame m frame true sfd behind s = s := by
  have hdrop : (!inService s dFST || decide (9216 < frame.length + 4)) = true := by
    rcases h with h | h
    · rw [h, Bool.not_false, Bool.true_or]
    · rw [decide_eq_true h, Bool.or_true]
  rw [ethernetFrame_matched hin hsafe haddr hptp]
  simp only [hp, hdrop, if_true]

theorem ethernetFrame_packet (hfst : inService s dFST = true) (hlen : frame.length + 4 ≤ 9216) :
    ethernetFrame m frame true sfd behind s =
      if behind = true then overrunSweep m s
      else lidarPacket m (32 + m) frame p (s.clk.gtc - BitVec.ofNat 64 sfd + BitVec.ofInt 64 (parI s (32 + m) 49)) s := by
  have hkeep : (!inService s dFST || decide (9216 < frame.length + 4)) = false := by
    rw [hfst, decide_eq_false (Nat.not_lt.2 hlen), Bool.not_true, Bool.or_self]
  rw [ethernetFrame_matched hin hsafe haddr hptp]
  simp only [hp, hkeep, Bool.false_eq_true, if_false]

end

/-! ### Sweeps and the completion of samples -/

theorem sweepClose_eq {m : Nat} {s : State} (hlive : intakeLive s = true) (hen : streamEn s (32 + m) = true) (hc : (sweepAt s m).closed = none) :
    sweepClose m s =
      (let s1 := passToOff s (par s (32 + m) 59)
       startSample (32 + m) s1.time.tick (modSweep m (fun w => { w with closed := some s1.clk.gtc, tick := s1.time.tick }) s1)) := by
  simp only [sweepClose, hlive, hen, hc, Bool.not_true, Option.isSome_none, Bool.or_self, Bool.false_eq_true, if_false]

/-- The outcome of a sweep: its buffers first, then whether a packet was accepted. -/
theorem sweepResult_eq (m : Nat) (w : Sweep) (adm : Gtc) (free : Nat) :
    sweepResult m w adm free =
      (let o : Nat × Nat := if w.bad then (0x33, 9) else if w.overrun then (0x33, 8) else if w.capture.isSome then (0, 0) else (0x30, 4)
       { stream := 32 + m, status := o.1, reason := o.2, capture := w.capture.getD (Config.freeStamp free), admitAt := adm,
         info0 := w.slots.length, info1 := w.discarded, tick := w.tick }) := by
  unfold sweepResult
  cases w.bad
  · cases w.overrun
    · cases w.capture <;> rfl
    · rfl
  · cases w.overrun <;> rfl

theorem sweepComplete_eq {m : Nat} {s : State} {w : Sweep} {adm : Gtc} (hlive : intakeLive s = true) (hn : nextFlush s m = some w)
    (hc : w.closed = some adm) :
    sweepComplete m s = completeSample (sweepResult m w adm s.freeSeq) (bumpFree (sweepOver m (flushSweep m w s))) := by
  simp only [sweepComplete, hlive, hn, hc, Bool.not_true, Bool.false_eq_true, if_false]

theorem sampleComplete_eq {n : Nat} {s : State} {r : SampleRes} (hlive : intakeLive s = true)
    (hr : (s.siu.results.find? fun r => r.stream == n) = some r) :
    sampleComplete n s = completeSample r { s with siu := { s.siu with results := s.siu.results.erase r } } := by
  simp only [sampleComplete, hlive, hr, Bool.not_true, Bool.false_eq_true, if_false]

/-- Settles O41: a frame by what it matches, and the sweep by its close, its flush and the completion of its sample. -/
theorem lidarSweeps : Obligations.LidarSweeps := by
  refine ⟨?frames, ?close, ?flush, ?sample⟩
  case frames =>
    intro m frame sfd behind s hr hin hsafe
    refine ⟨Laws.run_next _ hr (ethernetFrame_badFcs hin hsafe), fun h => Laws.run_next _ hr (ethernetFrame_passed hin hsafe h), ?_⟩
    intro haddr hptp mac packet
    refine ⟨fun p hp h => ?_, fun p hp hfst hlen hb => ?_, fun p hp hfst hlen hb => ?_, fun hp => ?_⟩
    · exact Laws.run_next _ hr (ethernetFrame_long hin hsafe haddr hptp hp h)
    · exact Laws.run_next _ hr ((ethernetFrame_packet hin hsafe haddr hptp hp hfst hlen).trans (if_pos hb))
    · exact Laws.run_next _ hr ((ethernetFrame_packet hin hsafe haddr hptp hp hfst hlen).trans (if_neg (ne_true_of_eq_false hb)))
    · exact Laws.run_next _ hr ((ethernetFrame_unmatched hin hsafe haddr hptp hp).trans (countEth_eq s))
  case close =>
    intro m s hr hlive hen hc
    exact Laws.run_next _ hr (sweepClose_eq hlive hen hc)
  case flush =>
    intro m s w adm hr hlive hn hc o
    have h := Laws.run_next _ hr (sweepComplete_eq hlive hn hc)
    rw [sweepResult_eq] at h
    exact h
  case sample =>
    intro n s r hr hlive hf
    exact Laws.run_next _ hr (sampleComplete_eq hlive hf)

/-! ### Packed tiles -/

/-- The fetch of a descriptor by the stream that it names. -/
theorem tileFetch_eq {s s1 s2 : State} {a d n : Nat} (h1 : passToCyc s s.siu.decAt = s1) (hcan : canFetchTile s1 = true)
    (ha : s1.siu.tring.base.toNat + 32 * s1.siu.tring.head = a) (hd : s1.drc.mem.rdLe a 32 = d) (hn : bitsAt d 96 6 = n)
    (h2 : readRun .dram none a 32 s1 = s2) :
    tileFetch s =
      if n < 36 ∨ 48 ≤ n ∨ (!streamEn s2 n) = true then siuFire 11 (bumpTring s2)
      else if startedIn s2 n s2.time.tick then s
      else fetchTile n (bitsAt d 0 64) (bitsAt d 64 32) s2 := by
  subst h1 ha hd hn h2
  simp only [tileFetch, hcan, Bool.not_true, Bool.false_eq_true, if_false]

section
variable {s s1 : State} {t : Tile} (ht : s.siu.tile = some t) (hi : t.insertAt = none) (hc : t.cost ≤ budget s t.stream)
  (hlive : intakeLive s = true) (h1 : s1 = passToCyc s (t.at_ + t.cost))
include ht hi hc hlive h1

/-- A tile whose decoding stays within its budget, by its reason and its stream's type. -/
theorem tileDone_eq :
    tileDone s = (match t.err with
      | some r => addResult (tileResult t r t.cost) (freeDecoder s1)
      | none =>
        if t.cached then addResult (tileResult t 0 t.cost) (freeDecoder s1)
        else match par s1 t.stream 2 with
        | 2 => addResult (tileResult t 0 t.cost) (freeDecoder (replayTile t s1))
        | 1 =>
          let s2 := writeTile t s1
          { s2 with siu := { s2.siu with tile := some { t with insertAt := some s2.clk.cyc } } }
        | _ => addResult (tileResult t 0 t.cost) (freeDecoder (writeTile t s1))) := by
  subst h1
  have hb : decide (budget s t.stream < t.cost) = false := decide_eq_false (Nat.not_lt.2 hc)
  simp only [tileDone, ht, hi, hb, hlive, Option.isSome_none, Bool.not_true, Bool.or_self, Bool.false_eq_true, if_false] <;> rfl

theorem tileDone_failed {r : Nat} (he : t.err = some r) : tileDone s = addResult (tileResult t r t.cost) (freeDecoder s1) := by
  rw [tileDone_eq ht hi hc hlive h1]
  simp only [he]

variable (he : t.err = none)
include he

theorem tileDone_cached (hca : t.cached = true) : tileDone s = addResult (tileResult t 0 t.cost) (freeDecoder s1) := by
  rw [tileDone_eq ht hi hc hlive h1]
  simp only [he, hca, if_true]

variable (hca : t.cached = false)
include hca

theorem tileDone_replay (hp : par s1 t.stream 2 = 2) :
    tileDone s = addResult (tileResult t 0 t.cost) (freeDecoder (replayTile t s1)) := by
  rw [tileDone_eq ht hi hc hlive h1]
  simp only [he, hca, hp, Bool.false_eq_true, if_false]

theorem tileDone_prior (hp : par s1 t.stream 2 = 1) :
    tileDone s = (let s2 := writeTile t s1
      { s2 with siu := { s2.siu with tile := some { t with insertAt := some s2.clk.cyc } } }) := by
  rw [tileDone_eq ht hi hc hlive h1]
  simp only [he, hca, hp, Bool.false_eq_true, if_false]

theorem tileDone_plain (hp : par s1 t.stream 2 = 0) :
    tileDone s = addResult (tileResult t 0 t.cost) (freeDecoder (writeTile t s1)) := by
  rw [tileDone_eq ht hi hc hlive h1]
  simp only [he, hca, hp, Bool.false_eq_true, if_false]

end

theorem budgetExceeded_eq {s : State} {t : Tile} (ht : s.siu.tile = some t) (hc : budget s t.stream < t.cost) (hlive : intakeLive s = true) :
    budgetExceeded s =
      completeSample (tileResult t 14 (budget s t.stream + 1)) (freeDecoder (passToCyc s (t.at_ + budget s t.stream + 1))) := by
  have hgo : ¬ (t.cost ≤ budget s t.stream ∨ (!intakeLive s) = true) := by
    rw [hlive]
    exact fun h => h.elim (Nat.not_le.2 hc) (by decide)
  simp only [budgetExceeded, ht, if_neg hgo]

theorem priorDone_eq {s : State} {t : Tile} {at_ : Nat} (ht : s.siu.tile = some t) (hi : t.insertAt = some at_)
    (hin : inserting (passToCyc s (at_ + 2 * ((tileHdrOf t.header).w * (tileHdrOf t.header).h))) t = true) :
    priorDone s = completeSample (tileResult t 0 t.cost)
      (freeDecoder (insertCell t (passToCyc s (at_ + 2 * ((tileHdrOf t.header).w * (tileHdrOf t.header).h))) (0, 0))) := by
  simp only [priorDone, ht, hi, hin, Bool.not_true, Bool.false_eq_true, if_false]

section
variable {s : State} {t : Tile} {at_ : Nat} (ht : s.siu.tile = some t) (hi : t.insertAt = some at_)
include ht hi

theorem insertDue_next (hin : inserting s t = true) (hlt : t.inserted + 1 < (tileHdrOf t.header).w * (tileHdrOf t.header).h) :
    insertDue s = some (at_ + 2 * (t.inserted + 1)) := by
  simp only [insertDue, ht, hi, hin, hlt, decide_true, Bool.and_self, if_true]

theorem insertDue_anchor (hle : (tileHdrOf t.header).w * (tileHdrOf t.header).h ≤ t.inserted + 1) : insertDue s = none := by
  simp only [insertDue, ht, hi, decide_eq_false (Nat.not_lt.2 hle), Bool.and_false, Bool.false_eq_true, if_false]

theorem insertNext_eq (hin : inserting s t = true) (hlt : t.inserted + 1 < (tileHdrOf t.header).w * (tileHdrOf t.header).h) :
    insertNext (at_ + 2 * (t.inserted + 1)) s =
      insertCell t { s with siu := { s.siu with tile := some { t with inserted := t.inserted + 1 } } }
        ((insertOrder (tileHdrOf t.header).w (tileHdrOf t.header).h).getD t.inserted (0, 0)) := by
  simp only [insertNext, ht, insertDue_next ht hi hin hlt, lt_self_iff_false, if_false]

end

/-- Settles O42: the fetch by the named stream, the end of the decoding, the budget, and the insertion cell by cell. -/
theorem packedTiles : Obligations.PackedTiles := by
  refine ⟨?fetch, ?done, ?budget, ?anchor, ?cells⟩
  case fetch =>
    intro s hr s1 hcan a d n s2
    have hf := tileFetch_eq (rfl : _ = s1) hcan (rfl : _ = a) (rfl : _ = d) (rfl : _ = n) (rfl : _ = s2)
    constructor
    · intro h
      have hbad : n < 36 ∨ 48 ≤ n ∨ (!streamEn s2 n) = true := h.imp_right (Or.imp_right fun e => by rw [e, Bool.not_false])
      exact Laws.run_next _ hr (hf.trans (if_pos hbad))
    · intro h36 h48 hen hst
      have hok : ¬ (n < 36 ∨ 48 ≤ n ∨ (!streamEn s2 n) = true) := by
        rw [hen]
        exact fun h => h.elim (Nat.not_lt.2 h36) fun h => h.elim (Nat.not_le.2 h48) (by decide)
      exact Laws.run_next _ hr (hf.trans ((if_neg hok).trans (if_neg (ne_true_of_eq_false hst))))
  case done =>
    intro s t hr ht hi hc hlive s1 done
    refine ⟨fun r he => ?_, fun he hca => ?_, fun he hca hp => ?_, fun he hca hp => ?_, fun he hca hp => ?_⟩
    · exact Laws.run_next _ hr (tileDone_failed ht hi hc hlive rfl he)
    · exact Laws.run_next _ hr (tileDone_cached ht hi hc hlive rfl he hca)
    · exact Laws.run_next _ hr (tileDone_replay ht hi hc hlive rfl he hca hp)
    · exact Laws.run_next _ hr (tileDone_prior ht hi hc hlive rfl he hca hp)
    · exact Laws.run_next _ hr (tileDone_plain ht hi hc hlive rfl he hca hp)
  case budget =>
    intro s t hr ht hc hlive b s1
    exact Laws.run_next _ hr (budgetExceeded_eq ht hc hlive)
  case anchor =>
    intro s t at_ hr ht hi h s1 hin
    exact Laws.run_next _ hr (priorDone_eq ht hi hin)
  case cells =>
    intro s t at_ ht hi hin h
    exact ⟨fun hlt => ⟨insertDue_next ht hi hin hlt, insertNext_eq ht hi hin hlt⟩, fun hle => insertDue_anchor ht hi hle⟩

end Sys2Proof.Proofs
end

section
/-!
PROOFS. Chapter 11: measurements and the servo, holdover, the pins, droop events, and the writes of the Time Unit's registers.
-/
namespace Sys2Proof.Proofs
open Sys2Proof Sys2Proof.Machine

/-! ### Measurements -/

theorem pinMeasure_eq (g : Gtc) (p : Nat) (s : State) :
    pinMeasure g p s =
      (let c : Int := (g.toNat : Int) - s.time.ppsDelay.toInt
       let e := rneDiv c p * (p : Int) - c
       if patLive s = true ∧ 1000000 < e.natAbs then fire { b := bTIME, src := 3 } s else measure e s) := by
  unfold pinMeasure
  simp only [Bool.and_eq_true, decide_eq_true_eq]

/-- The state in which the servo acts: the measurement is recorded, ALIGNED judged, and holdover's cause ended. -/
def recorded (e : Int) (s : State) : State := judgeAligned (causeEnds bTIME 2 { s with time := s.time.accept e s.clk.ns })

/-- Judging ALIGNED sets that flag, and fires at most. -/
theorem judgeAligned_byFire (s : State) : ∃ b, ByFire { s with time := { s.time with aligned := b } } (judgeAligned s) := by
  unfold judgeAligned
  dsimp only
  split
  · exact ⟨s.time.aligned, Laws.byFire_refl s⟩
  · refine ⟨s.time.last8 fun e => decide (e ≤ 4), ?_⟩
    split
    · exact Laws.byFire_flt _ _
    · split
      · exact Laws.byFire_onset ..
      · exact Laws.byFire_refl _

/-- A fire leaves the Time Unit, the clock and the Pattern's state as they are. -/
theorem byFire_time {s t : State} (h : ByFire s t) : t.time = s.time ∧ t.clk = s.clk ∧ patLive t = patLive s := by
  obtain ⟨-, hclk, htime, -, -, -, -, -, -, -, -, -, -, -, -, -, -, -, hglb, -⟩ := h
  have hp := congrArg Glb.patState hglb
  exact ⟨htime, hclk, by unfold patLive; exact hp ▸ rfl⟩

/-- The recording keeps the servo's own fields, the clock and the Pattern's state; what it sets, it sets as R288 and R293 say. -/
theorem recorded_fields (e : Int) (s : State) :
    ∃ b, (recorded e s).time = { s.time.accept e s.clk.ns with aligned := b } ∧ (recorded e s).clk = s.clk ∧
      patLive (recorded e s) = patLive s := by
  obtain ⟨b, hb⟩ := judgeAligned_byFire (causeEnds bTIME 2 { s with time := s.time.accept e s.clk.ns })
  obtain ⟨htime, hclk, hp⟩ := byFire_time hb
  exact ⟨b, htime, hclk, hp⟩

/-- What a measurement leaves of the Time Unit and the clock is what the servo leaves: the fire that may follow changes neither. -/
theorem measure_servo (e0 : Int) (s : State) :
    (measure e0 s).time = (applyServo (clampE e0) (recorded (clampE e0) s)).time ∧
      (measure e0 s).clk = (applyServo (clampE e0) (recorded (clampE e0) s)).clk := by
  unfold Machine.measure
  dsimp only
  split
  · obtain ⟨ht, hc, -⟩ := byFire_time (Laws.byFire_fire { b := bTIME, src := 1 } (applyServo (clampE e0) (recorded (clampE e0) s)))
    exact ⟨ht, hc⟩
  · exact ⟨rfl, rfl⟩

theorem applyServo_off (e : Int) (s : State) (h : s.time.servoEn = false) : applyServo e s = s := by
  simp only [applyServo, h, Bool.not_false, if_true]

theorem applyServo_step (e : Int) (s : State) (h : s.time.servoEn = true) (ha : s.time.autostep = true) (hp : patLive s = false)
    (he : 1000 < e.natAbs) : applyServo e s = { s with clk := { s.clk with gtc := s.clk.gtc + BitVec.ofInt 64 e } } := by
  simp only [applyServo, h, ha, hp, he, Bool.not_true, Bool.not_false, Bool.and_self, decide_true, Bool.false_eq_true, if_false, if_true]

theorem applyServo_trim (e : Int) (s : State) (h : s.time.servoEn = true)
    (ha : s.time.autostep = false ∨ patLive s = true ∨ e.natAbs ≤ 1000) : applyServo e s = { s with time := s.time.servo e } := by
  have hn : (s.time.autostep && !patLive s && decide (1000 < e.natAbs)) = false := by
    rcases ha with ha | ha | ha
    · simp [ha]
    · simp [ha]
    · simp [Nat.not_lt.mpr ha]
  simp only [applyServo, h, hn, Bool.not_true, Bool.false_eq_true, if_false]

/-- R293: the recording ends holdover, whatever the servo then does. -/
theorem measure_records (e0 : Int) (s : State) :
    (measure e0 s).time.lastOffset = clampE e0 ∧ (measure e0 s).time.holdover = false ∧ (measure e0 s).time.measAt = s.clk.ns := by
  obtain ⟨b, htime, -, -⟩ := recorded_fields (clampE e0) s
  rw [(measure_servo e0 s).1]
  unfold applyServo
  split
  · rw [htime]; exact ⟨rfl, rfl, rfl⟩
  · split
    · dsimp only; rw [htime]; exact ⟨rfl, rfl, rfl⟩
    · simp only [TimeU.servo]; rw [htime]; exact ⟨rfl, rfl, rfl⟩

theorem measure_servoOff (e0 : Int) (s : State) (h : s.time.servoEn = false) :
    (measure e0 s).clk = s.clk ∧ (measure e0 s).time.trim = s.time.trim ∧ (measure e0 s).time.iAcc = s.time.iAcc := by
  obtain ⟨b, htime, hclk, -⟩ := recorded_fields (clampE e0) s
  obtain ⟨ht, hc⟩ := measure_servo e0 s
  rw [applyServo_off _ _ (by rw [htime]; exact h)] at ht hc
  rw [ht, hc, hclk, htime]
  exact ⟨rfl, rfl, rfl⟩

theorem measure_autostep (e0 : Int) (s : State) (h : s.time.servoEn = true) (ha : s.time.autostep = true) (hp : patLive s = false)
    (he : 1000 < (clampE e0).natAbs) :
    (measure e0 s).clk = { s.clk with gtc := s.clk.gtc + BitVec.ofInt 64 (clampE e0) } ∧
      (measure e0 s).time.trim = s.time.trim ∧ (measure e0 s).time.iAcc = s.time.iAcc := by
  obtain ⟨b, htime, hclk, hpat⟩ := recorded_fields (clampE e0) s
  obtain ⟨ht, hc⟩ := measure_servo e0 s
  rw [applyServo_step _ _ (by rw [htime]; exact h) (by rw [htime]; exact ha) (by rw [hpat]; exact hp) he] at ht hc
  dsimp only at ht hc
  rw [ht, hc, hclk, htime]
  exact ⟨rfl, rfl, rfl⟩

/-- R288: the integrator and TRIM of the servo, each within its limits. -/
theorem measure_trim (e0 : Int) (s : State) (h : s.time.servoEn = true)
    (ha : s.time.autostep = false ∨ patLive s = true ∨ (clampE e0).natAbs ≤ 1000) :
    (measure e0 s).clk = s.clk ∧ (measure e0 s).time.iAcc = (s.time.servo (clampE e0)).iAcc ∧
      (measure e0 s).time.trim = (s.time.servo (clampE e0)).trim := by
  obtain ⟨b, htime, hclk, hpat⟩ := recorded_fields (clampE e0) s
  obtain ⟨ht, hc⟩ := measure_servo e0 s
  rw [applyServo_trim _ _ (by rw [htime]; exact h) (by rw [htime, hpat]; exact ha)] at ht hc
  dsimp only at ht hc
  rw [ht, hc, hclk, htime]
  exact ⟨rfl, rfl, rfl⟩

theorem holdover_eq (s : State) (n : Nat) (hn : holdoverNs s.time = some n) (hh : s.time.holdover = false) :
    holdover s = onset { b := bTIME, src := 2 } { passNs s (s.time.measAt + n - s.clk.ns) with
      time := { (passNs s (s.time.measAt + n - s.clk.ns)).time with holdover := true } } := by
  simp only [holdover, hn, hh, Bool.false_eq_true, if_false]

/-- Settles O43: a measurement is its record, and then the servo's act on it. -/
theorem measurements : Obligations.Measurements := by
  unfold Obligations.Measurements
  refine ⟨fun e s hr => Laws.run_next _ hr rfl, ?pps, ?sync, pinMeasure_eq, ?servo, fun s n hr hn hh => Laws.run_next _ hr (holdover_eq s n hn hh)⟩
  case pps => intro s hr s1; exact Laws.run_next _ hr rfl
  case sync => intro s hr s1; exact Laws.run_next _ hr rfl
  case servo =>
    intro e0 s e i t
    obtain ⟨h1, h2, h3⟩ := measure_records e0 s
    exact ⟨h1, h2, h3, measure_servoOff e0 s, measure_autostep e0 s, measure_trim e0 s⟩

/-! ### Pins, droop events, register writes -/

theorem ppsOut_eq (s : State) (h : s.time.ppsOutEn = true) :
    ppsOut s = (let r := s.clk.gtc.toNat % 1000000000
      let s1 := passNs s (if r = 0 then 0 else 1000000000 - r)
      { s1 with time := { s1.time with ppsOutUntil := s1.clk.ns + 100000 } }) := by
  simp only [ppsOut, h, Bool.not_true, Bool.false_eq_true, if_false]

theorem syncOut_eq (s : State) (n : Nat) (h : syncOutNs s = some n) :
    syncOut s = (let s1 := passNs s n
      { s1 with time := { s1.time with syncOutUntil := s1.clk.ns + 1000 } }) := by
  simp only [syncOut, h]

/-- Detector d sampled in s and disarmed for 64 cycles (R287). -/
def disarmed (d : Nat) (s : State) : State :=
  { s with clk := { s.clk with droopArmAt := putAt 0 s.clk.droopArmAt d (s.clk.cyc + 64) } }

theorem droop_held (d : Nat) (s : State) (h : (toEdge s).clk.cyc < (toEdge s).clk.droopArmAt.getD d 0) : droop d s = toEdge s := by
  simp only [droop, h, if_true]

theorem droop_spent (d : Nat) (s : State) (h : (toEdge s).clk.droopArmAt.getD d 0 ≤ (toEdge s).clk.cyc) (hs : (toEdge s).clk.stretch ≠ 0) :
    droop d s = disarmed d (toEdge s) := by
  simp only [droop, Nat.not_lt.mpr h, if_false, hs, disarmed]

theorem droop_makes (d : Nat) (s : State) (h : (toEdge s).clk.droopArmAt.getD d 0 ≤ (toEdge s).clk.cyc) (hs : (toEdge s).clk.stretch = 0) :
    droop d s = droopEdge (disarmed d (toEdge s)) := by
  simp only [droop, Nat.not_lt.mpr h, if_false, hs, if_true, disarmed]

theorem droopEdge_eq (s : State) :
    droopEdge s = (let n := s.time.droopCur + 1
      let s1 := trace 0x09 0 (BitVec.ofNat 64 (min n 0xFFFF)) { s with
        clk := { s.clk with stretch := 1 }
        time := { s.time with droopCur := n } }
      if patActive s1 = true ∧ n = 65 then fire { b := bTIME, src := 5 } s1 else s1) := by
  simp only [droopEdge, Bool.and_eq_true, beq_iff_eq]

/-- The 64-bit step that two register writes make (Table 11.10). -/
theorem stepOf_append (v lo : Word) : BitVec.ofNat 64 (lo.toNat + v.toNat * 2 ^ 32) = v ++ lo := by
  apply BitVec.eq_of_toNat_eq
  have hv := v.isLt
  have hlo := lo.isLt
  rw [BitVec.toNat_ofNat, BitVec.toNat_append, ← Nat.shiftLeft_add_eq_or_of_lt hlo, Nat.shiftLeft_eq]
  omega

theorem timeStep_lo (v : Word) (s : State) (h : patLive s = false) :
    timeStep false v s = { s with time := { s.time with stepLo := v } } := by
  simp only [timeStep, h, Bool.false_eq_true, if_false]

theorem timeStep_hi (v : Word) (s : State) (h : patLive s = false) :
    timeStep true v s = { s with clk := { s.clk with gtc := s.clk.gtc + (v ++ s.time.stepLo) } } := by
  simp only [timeStep, h, Bool.false_eq_true, if_false, if_true, stepOf_append]

theorem timeStep_live (hi : Bool) (v : Word) (s : State) (h : patLive s = true) :
    timeStep hi v s = liveWrite (if hi then 0x10011C else 0x100118) s := by
  simp only [timeStep, h, if_true]

theorem withTrim_eq (v : Word) (s : State) :
    ({ s with time := s.time.withTrim v } : State) = if s.time.servoEn = false ∧ -858993 ≤ v.toInt ∧ v.toInt ≤ 858993 then
      { s with time := { s.time with trim := v.toInt } } else s := by
  by_cases h : s.time.servoEn = false ∧ -858993 ≤ v.toInt ∧ v.toInt ≤ 858993
  · obtain ⟨hs, hlo, hhi⟩ := h
    rw [if_pos ⟨hs, hlo, hhi⟩]
    simp only [TimeU.withTrim, hs, trimMax, Int.not_lt.mpr hlo, Int.not_lt.mpr hhi, decide_false, Bool.or_self, Bool.false_eq_true, if_false]
  · rw [if_neg h]
    have hb : (s.time.servoEn || decide (v.toInt < -trimMax) || decide (trimMax < v.toInt)) = true := by
      unfold trimMax
      rcases not_and_or.mp h with hs | hr
      · simp only [Bool.eq_true_of_not_eq_false hs, Bool.true_or]
      · rcases not_and_or.mp hr with hlo | hhi
        · simp only [decide_eq_true (Int.not_le.mp hlo), Bool.or_true, Bool.true_or]
        · simp only [decide_eq_true (Int.not_le.mp hhi), Bool.or_true]
    simp only [TimeU.withTrim, hb, if_true]

/-- Settles O44: the pins and the register writes of the Time Unit, each by its own equation. -/
theorem timeWritesAndPins : Obligations.TimeWritesAndPins := by
  unfold Obligations.TimeWritesAndPins
  refine ⟨?pps, ?sync, ?droop, ?step, fun hi v s hr h => Laws.run_next _ hr (timeStep_live hi v s h), ?ctrl, ?trim⟩
  case pps => intro s hs h r s1; exact Laws.run_next _ hs.1 (ppsOut_eq s h)
  case sync => intro s n hs h s1; exact Laws.run_next _ hs.1 (syncOut_eq s n h)
  case droop =>
    intro d s hr s1 n s2 s3
    refine ⟨fun h => Laws.run_next _ hr (droop_held d s h), fun h hs => Laws.run_next _ hr (droop_spent d s h hs), fun h hs => ?_⟩
    exact Laws.run_next _ hr ((droop_makes d s h hs).trans (droopEdge_eq _))
  case step =>
    intro v s hs h
    exact ⟨Laws.run_keep _ hs (timeStep_lo v s h) rfl rfl rfl, Laws.run_keep _ hs (timeStep_hi v s h) rfl rfl rfl⟩
  case ctrl =>
    intro v s hs m
    exact Laws.run_keep (fun s => { s with time := s.time.withCtrl v s.clk.ns }) hs rfl rfl rfl rfl
  case trim =>
    intro v s hs
    rw [← withTrim_eq]
    exact Laws.run_keep (fun s => { s with time := s.time.withTrim v }) hs rfl rfl rfl rfl

end Sys2Proof.Proofs
end

section
/-!
PROOFS. Chapter 13: the Pattern is validated, loaded, launched, unloaded; the flush of the Keyed Feature Store.
-/
namespace Sys2Proof.Proofs
open Sys2Proof Sys2Proof.Machine

theorem loadWrite_refused (s : State) (h : patLive s = true ∨ s.rst.minimal = true) : loadWrite s = liveWrite 0x20C s := by
  simp only [loadWrite, Bool.or_eq_true, h, if_true]

theorem loadWrite_open (s : State) (hp : patLive s = false) (hm : s.rst.minimal = false) : loadWrite s = loadFrom s := by
  simp only [loadWrite, hp, hm, Bool.or_self, Bool.false_eq_true, if_false]

theorem loadFrom_formFail (s : State) {sec reason det : Nat}
    (h : formFail s (stagedAt s s.glb.patAddr.toNat) = some (sec, reason, det)) :
    loadFrom s = fire { b := bGLB, src := 1 } (setPat 5 sec reason det s) := by
  simp only [loadFrom, h]

theorem loadFrom_contentFail (s : State) {sec reason det : Nat} (h : formFail s (stagedAt s s.glb.patAddr.toNat) = none)
    (hc : contentFail (withItems s (stagedAt s s.glb.patAddr.toNat)) (stagedAt s s.glb.patAddr.toNat) = some (sec, reason, det)) :
    loadFrom s = (let g := stagedAt s s.glb.patAddr.toNat
      fire { b := bGLB, src := 1 } (setPat 5 sec reason det
        (readImage g ((refBlocks (withItems s g)).map (blockSrc (withItems s g) g)) s))) := by
  simp only [loadFrom, h, hc]

theorem loadFrom_sound (s : State) {g : Staged} (hg : stagedAt s s.glb.patAddr.toNat = g) {s1 : State}
    (h1 : readImage g ((refBlocks (withItems s g)).map (blockSrc (withItems s g) g)) s = s1) (h : formFail s g = none)
    (hc : contentFail (withItems s g) g = none) :
    loadFrom s = setPat 2 0 0 0 { s1 with
      glb := { s1.glb with patternId := g.id, pat := g.allItems, imgAddr := g.a }
      rst := { s1.rst with phase := if s1.rst.phase = 5 then 5 else 4 } } := by
  subst hg h1
  simp only [loadFrom, h, hc]

theorem patternLoaded_due (s : State) (h : s.glb.patState = 2) (hd : dramUp s = true) : patternLoaded s = finishLoad s := by
  simp only [patternLoaded, h, hd, ne_eq, not_true_eq_false, Bool.not_true, Bool.false_eq_true, or_self, if_false]

theorem loadError_eq (s : State) : loadError s = setPat 5 0 0x0F 0 { dropImages s with
    glb := { s.glb with patternId := 0, pat := [], imgAddr := 0 }
    rst := { s.rst with phase := if s.rst.phase = 4 then 3 else s.rst.phase } } := rfl

theorem finishLoad_eq (s : State) :
    finishLoad s = (let g := stagedAt s s.glb.imgAddr
      let s1 := readImage g ((refBlocks s).map (blockSrc s g)) s
      if loadPoisoned s then setPat 5 0 0x0F 0 { dropImages s1 with
        glb := { s1.glb with patternId := 0, pat := [], imgAddr := 0 }
        rst := { s1.rst with phase := if s1.rst.phase = 4 then 3 else s1.rst.phase } }
      else readyRise (sendIdents (setPat 3 0 0 0 (loadAll g s1)))) := by
  simp only [finishLoad, usedImage, loadError_eq, activate]

theorem launchNow_eq (s : State) {s1 : State} (h : passToGtc s (tickGtc s s.time.firstTick) = s1) :
    launchNow s = beginTick s.time.firstTick (patVec { s1 with
      glb := { s1.glb with patState := 4 }
      time := { s1.time with droopCur := 0, droopAtRec := none }
      clk := { s1.clk with cyc := startCyc s1, sub := 0, ahead := 0, stretch := 0 } }) := by
  subst h
  rfl

theorem unloadNow_eq (s : State) {s1 : State} (h : stopSwatches (abortAll 7 s) = s1) :
    unloadNow s = patVec { s1 with
      glb := { s1.glb with patState := 0, patternId := 0, pat := [], imgAddr := 0, unloadPend := false, voids := [] }
      time := { s1.time with active := false, tick := 0, launch := 0, period := 0, stages := [] }
      disp := s1.disp.idle
      kfs := { s1.kfs with ageEpoch := 0, pitch := 0, layers := [], flushPend := false } } := by
  subst h
  rfl

theorem anyRing_false (s : State) (h : ∀ r < 8, (subAt s r).en = false) : anyRing s = false := by
  unfold anyRing
  rw [List.any_eq_false]
  intro r hr
  rw [h r (List.mem_range.mp hr)]
  exact Bool.false_ne_true

theorem anyRing_true (s : State) (h : ∃ r < 8, (subAt s r).en = true) : anyRing s = true := by
  obtain ⟨r, hr, he⟩ := h
  exact List.any_eq_true.mpr ⟨r, List.mem_range.mpr hr, he⟩

theorem unloadWrite_refused (s : State) (h : (∃ r < 8, (subAt s r).en = true) ∨ (s.glb.patState ≠ 3 ∧ s.glb.patState ≠ 4)) :
    unloadWrite s = liveWrite 0x20C s := by
  have hb : (anyRing s || (s.glb.patState != 3 && s.glb.patState != 4)) = true := by
    rcases h with h | ⟨h3, h4⟩
    · rw [anyRing_true s h, Bool.true_or]
    · rw [bne_iff_ne.mpr h3, bne_iff_ne.mpr h4, Bool.and_self, Bool.or_true]
  simp only [unloadWrite, hb, if_true]

theorem unloadWrite_armed (s : State) (hr : ∀ r < 8, (subAt s r).en = false) (h : s.glb.patState = 3) :
    unloadWrite s = unloadNow s := by
  simp [unloadWrite, anyRing_false s hr, h]

theorem unloadWrite_active (s : State) (hr : ∀ r < 8, (subAt s r).en = false) (h : s.glb.patState = 4) :
    unloadWrite s = { s with glb := { s.glb with unloadPend := true } } := by
  simp [unloadWrite, anyRing_false s hr, h]

theorem flushWrite_keeps (s : State) :
    (flushWrite s).dru = s.dru ∧ (flushWrite s).glb = s.glb ∧ (flushWrite s).obs = s.obs := by
  unfold flushWrite
  split <;> exact ⟨rfl, rfl, rfl⟩

/-- Settles O45: each command of the Pattern's life by the branch that its conditions choose. -/
theorem patternLife : Obligations.PatternLife := by
  unfold Obligations.PatternLife
  refine ⟨⟨fun s hr h => Laws.run_next _ hr (loadWrite_refused s h), ?load, ?loaded, ?launch⟩,
    fun s hr h => Laws.run_next _ hr (unloadWrite_refused s h), ?armed,
    fun s hr hn h => Laws.run_next _ hr (unloadWrite_active s hn h), ?flush⟩
  case load =>
    intro s hr hp hm g t s1
    have hopen := loadWrite_open s hp hm
    exact ⟨fun sec reason det h => Laws.run_next _ hr (hopen.trans (loadFrom_formFail s h)),
      fun sec reason det h hc => Laws.run_next _ hr (hopen.trans (loadFrom_contentFail s h hc)),
      fun h hc => Laws.run_next _ hr (hopen.trans (loadFrom_sound s (rfl : _ = g) (rfl : _ = s1) h hc))⟩
  case loaded => 
    intro s hr h hd g s1
    have hrun := Laws.run_next patternLoaded hr ((patternLoaded_due s h hd).trans (finishLoad_eq s))
    exact hrun
  case launch =>
    intro s hr h s1
    exact Laws.run_next (fun s => if s.glb.patState = 3 then launchNow s else s) hr
      ((if_pos h).trans (launchNow_eq s (rfl : _ = s1)))
  case armed => intro s hr hn h s1; exact Laws.run_next _ hr ((unloadWrite_armed s hn h).trans (unloadNow_eq s (rfl : _ = s1)))
  case flush =>
    intro s hs
    obtain ⟨h1, h2, h3⟩ := flushWrite_keeps s
    exact Laws.run_keep flushWrite hs rfl h1 h2 h3

end Sys2Proof.Proofs
end

section
/-!
PROOFS. Register access (00, R10 to R13; 20, R467): which requests BAR0 takes, tunable fields, rings, parity bits, and the latch of register pairs.
-/
namespace Sys2Proof.Proofs
open Sys2Proof Sys2Proof.Machine

/-! ### Requests of BAR0 -/

theorem accepts_iff (o n : Nat) (full : Bool) :
    accepts o n full = true ↔ full = true ∧ o % 4 = 0 ∧ (n = 1 ∨ n = 2) ∧ ∀ i < n, inSpan (o + 4 * i) = true := by
  simp only [accepts, Bool.and_eq_true, Bool.or_eq_true, beq_iff_eq, List.all_eq_true, List.mem_range, and_assoc]

theorem notTaken (s : State) (a : Bool) (h : barsOn s = false ∨ a = false) : (!barsOn s || !a) = true := by
  rcases h with h | h <;> rw [h] <;> simp

theorem taken {s : State} {a : Bool} (hb : barsOn s = true) (ha : a = true) : (!barsOn s || !a) = false := by
  rw [hb, ha]; rfl

theorem regWrite_mgt (o : Nat) (vs : List Word) (full : Bool) (s : State) (h : accepts o vs.length full = true) :
    regWrite true o vs full s = writeRegs o vs s := by
  simp only [regWrite, h, if_true]

theorem regWrite_ur (o : Nat) (vs : List Word) (full : Bool) (s : State) (hh : hostReaches s = true)
    (h : barsOn s = false ∨ accepts o vs.length full = false) : regWrite false o vs full s = postedUr s := by
  simp only [regWrite, hh, notTaken s _ h, Bool.not_true, Bool.false_eq_true, if_false, if_true]

theorem regWrite_host (o : Nat) (vs : List Word) (full : Bool) (s : State) (hh : hostReaches s = true)
    (hb : barsOn s = true) (ha : accepts o vs.length full = true) : regWrite false o vs full s = writeRegs o vs s := by
  simp only [regWrite, hh, taken hb ha, Bool.not_true, Bool.false_eq_true, if_false]

theorem regRead_mgt (o n : Nat) (full : Bool) (s : State) (h : accepts o n full = true) :
    regRead true o n full s = (readRegs true o n s).1 := by
  simp only [regRead, h, if_true]

theorem regRead_ur (o n : Nat) (full : Bool) (s : State) (hh : hostReaches s = true)
    (h : barsOn s = false ∨ accepts o n full = false) : regRead false o n full s = answerUr s := by
  simp only [regRead, hh, notTaken s _ h, Bool.not_true, Bool.false_eq_true, if_false, if_true]

theorem regRead_host (o n : Nat) (full : Bool) (s : State) (hh : hostReaches s = true)
    (hb : barsOn s = true) (ha : accepts o n full = true) :
    regRead false o n full s = (let p := readRegs false o n s
      { p.1 with pci := { p.1.pci with ans := { data := p.2 } } }) := by
  simp only [regRead, hh, taken hb ha, Bool.not_true, Bool.false_eq_true, if_false]

theorem writeReg_flt (o : Nat) (v : Word) (s : State) {b r : Nat} (h : fltBlockOf o = some (b, r)) :
    writeReg o v s = writeFlt b r v (freshReg o s) := by
  simp only [writeReg, h]

/-! ### A register's parity bit -/

/-- A write of a register touches nothing but the list of registers whose parity bit is wrong. -/
theorem freshReg_eq (o : Nat) (s : State) : ∃ l, freshReg o s = { s with glb := { s.glb with badRegs := l } } := by
  unfold freshReg
  split
  · exact ⟨_, rfl⟩
  · exact ⟨s.glb.badRegs, rfl⟩

theorem useReg_bad (o : Nat) (s : State) (h : s.glb.badRegs.contains o = true) :
    useReg o s = fire { b := bGLB, src := 4 } { s with glb := { s.glb with badRegs := s.glb.badRegs.filter (· != o) } } := by
  simp only [useReg, h, if_true]

theorem useReg_good (o : Nat) (s : State) (h : s.glb.badRegs.contains o = false) : useReg o s = s := by
  simp only [useReg, h, Bool.false_eq_true, if_false]

theorem readRegs_one (m : Bool) (o : Nat) (s : State) (h : s.glb.badRegs.contains o = false) :
    readRegs m o 1 s = ((readBy m o s).1, leBytes 4 (readBy m o s).2.toNat) := by
  simp only [readRegs, useReg_good o s h, List.append_nil]

/-! ### The latch of a register pair -/

theorem assoc_assocPut {α : Type} (l : List (Nat × α)) (k : Nat) (v : α) : assoc (assocPut l k v) k = some v := by
  simp [assoc, assocPut]

theorem assoc_filter_ne {α : Type} (l : List (Nat × α)) (k : Nat) : assoc (l.filter fun e => e.1 != k) k = none := by
  simp only [assoc, Option.map_eq_none_iff, List.find?_eq_none, List.mem_filter, bne_iff_ne, beq_iff_eq]
  exact fun e he => he.2

theorem readBy_lo (o : Nat) (s : State) (h : isLo o = true) :
    (readBy false o s).2 = readReg s o ∧ assoc (readBy false o s).1.loHost (o + 4) = some (readReg s (o + 4)) := by
  simp only [readBy, h, if_true, Bool.false_eq_true, if_false, assoc_assocPut, and_self]

theorem readBy_latched (o : Nat) (s : State) (x : Word) (h : isLo o = false) (hx : assoc s.loHost o = some x) :
    (readBy false o s).2 = x ∧ assoc (readBy false o s).1.loHost o = none := by
  simp only [readBy, h, hx, Bool.false_eq_true, if_false, assoc_filter_ne, and_self]

/-! ### Tunable fields -/

theorem heldOff_disp (s : State) : heldOff s 0x200104 = false ∧ heldOff s 0x200108 = false := by
  simp only [heldOff, offDomain]
  norm_num

theorem rwsWrite_slice (v : Word) (s : State) :
    rwsWrite 0x200104 v s = { markTuned 0x200104 (freshReg 0x200104 s) with disp := { s.disp with
      slice := (s.disp.slice.1, if 100000 ≤ v.toNat ∧ v.toNat ≤ 100000000 then v.toNat else s.disp.slice.2) } } := by
  obtain ⟨l, hl⟩ := freshReg_eq 0x200104 s
  simp only [rwsWrite, (heldOff_disp s).1, Bool.false_eq_true, if_false, if_true, hl, markTuned, inRange]

theorem rwsWrite_grace (v : Word) (s : State) :
    rwsWrite 0x200108 v s = { markTuned 0x200108 (freshReg 0x200108 s) with disp := { s.disp with
      grace := (s.disp.grace.1, if 2000 ≤ v.toNat ∧ v.toNat ≤ 1000000 then v.toNat else s.disp.grace.2) } } := by
  obtain ⟨l, hl⟩ := freshReg_eq 0x200108 s
  have hne : (0x200108 : Nat) ≠ 0x200104 := by norm_num
  simp only [rwsWrite, (heldOff_disp s).2, Bool.false_eq_true, hne, if_false, if_true, hl, markTuned, inRange]

theorem base_le_of_regIdx {o base stride n i : Nat} (h : regIdx o base stride n = some i) : base ≤ o := by
  unfold regIdx at h
  split at h
  · next hc => exact hc.1
  · cases h

theorem rwsWrite_tune (o : Nat) (v : Word) (s : State) (i : Nat) (h : regIdx o 0x401000 4 384 = some i) (hm : s.rst.minimal = false) :
    rwsWrite o v s = { markTuned o (freshReg o s) with
      siu := { s.siu with shadow := upd s.siu.shadow (i / 8) fun x => tuneWrite x (i % 8) v } } := by
  obtain ⟨l, hl⟩ := freshReg_eq o s
  have hb := base_le_of_regIdx h
  have h1 : o ≠ 0x200104 := by omega
  have h2 : o ≠ 0x200108 := by omega
  simp only [rwsWrite, heldOff, hm, Bool.false_and, Bool.false_eq_true, h1, h2, if_false, h, hl, markTuned]

/-- A command that changes, next to the parity bits and the marks of written registers, neither the recovery unit nor the rest of what
is due, is its effect alone. -/
theorem run_tuned {s t : State} (f : State → State) (o : Nat) (hs : s.Ready) (hf : f s = t)
    (h1 : t.dru = (markTuned o (freshReg o s)).dru) (h2 : t.glb = (markTuned o (freshReg o s)).glb)
    (h3 : t.obs = (markTuned o (freshReg o s)).obs) : run s f = .next t := by
  obtain ⟨l, hl⟩ := freshReg_eq o s
  obtain ⟨hr, hq, hd, ho⟩ := hs
  rw [hl] at h1 h2 h3
  rw [Laws.run_settled f hr, hf]
  rw [hf]
  exact ⟨h1 ▸ hq, by rw [h2]; exact hd, h3 ▸ ho⟩

/-! ### Rings -/

theorem ringWriteReg_eq (o : Nat) (v : Word) (s : State) {r : RingReg} {reg : Nat} (h : ringRegAt o = some (r, reg))
    (hh : heldOff s o = false) :
    ringWriteReg o v s = (let w := (ringOfReg s r).write r.align reg v
      let s1 := setRingReg r w.1 (freshReg o s)
      if w.2 then liveWrite o s1 else s1) := by
  simp only [ringWriteReg, hh, h, Bool.false_eq_true, if_false]

theorem ringWriteReg_held (o : Nat) (v : Word) (s : State) (hh : heldOff s o = true) : ringWriteReg o v s = s := by
  simp only [ringWriteReg, hh, if_true]

theorem rwsWrite_held (o : Nat) (v : Word) (s : State) (hh : heldOff s o = true) : rwsWrite o v s = s := by
  simp only [rwsWrite, hh, if_true]

theorem ringWrite_enabled (k : Ring) (align reg : Nat) (v : Word) (h : k.en = true) :
    (k.write align reg v).1.base = k.base ∧ (k.write align reg v).1.sizeLog2 = k.sizeLog2 := by
  unfold Ring.write
  simp only [h, Bool.true_and, Bool.not_true, Bool.false_and, Bool.false_eq_true, if_false]
  split
  · split
    · exact ⟨rfl, rfl⟩
    · next hb => exact ⟨by simpa using hb, rfl⟩
  · split
    · refine ⟨rfl, ?_⟩
      dsimp only
      split
      · rfl
      · next hb => simpa using hb
    · split <;> exact ⟨rfl, rfl⟩

theorem ringWrite_disabled (k : Ring) (align reg : Nat) (v : Word) (h : k.en = false) : (k.write align reg v).2 = false := by
  unfold Ring.write
  simp only [h, Bool.false_and, Bool.not_false, Bool.true_and, Bool.false_eq_true, if_false]
  split
  · rfl
  · split
    · rfl
    · split <;> rfl

theorem ringWrite_enables (k : Ring) (align : Nat) (v : Word) (h : k.en = false) (hv : bitAt v 8 = true) :
    (k.write align 2 v).1.en = true ∧ (k.write align 2 v).1.head = k.tail % 2 ^ (k.write align 2 v).1.sizeLog2 := by
  simp [Ring.write, h, hv]

/-! ### Submission rings -/

theorem subRegAt_cfg (n : Fin 8) : subRegAt (BitVec.ofNat 26 (0x201000 + 0x40 * n.val + 8)).toNat = some (n.val, 8) := by
  fin_cases n <;> rfl

theorem subWriteReg_live (o : Nat) (v : Word) (s : State) {n : Nat} (h : subRegAt o = some (n, 8)) (h1 : 1 ≤ s.glb.patState)
    (h3 : s.glb.patState ≤ 3) : subWriteReg o v s = liveWrite o (freshReg o s) := by
  obtain ⟨l, hl⟩ := freshReg_eq o s
  simp only [subWriteReg, h, hl]
  simp [h1, h3]

theorem subWriteReg_cfg (o : Nat) (v : Word) (s : State) {n : Nat} (h : subRegAt o = some (n, 8))
    (hp : s.glb.patState = 0 ∨ 4 ≤ s.glb.patState) :
    subWriteReg o v s = (let w := (subAt s n).writeCfg v
      let s1 := modSub (freshReg o s) n fun _ => w.1
      ringBad n (subAt s n).en (if w.2 then liveWrite o s1 else s1)) := by
  obtain ⟨l, hl⟩ := freshReg_eq o s
  have hn : ¬(1 ≤ s.glb.patState ∧ s.glb.patState ≤ 3) := by omega
  have hk : subAt (freshReg o s) n = subAt s n := by rw [hl]; rfl
  have hg : (freshReg o s).glb.patState = s.glb.patState := by rw [hl]
  simp only [subWriteReg, h, hk, hg, if_neg hn]
  simp

theorem writeCfg_en (k : SubRing) (v : Word) : (k.writeCfg v).1.en = bitAt v 8 := by
  simp only [SubRing.writeCfg, apply_ite SubRing.en, ite_self]

theorem writeCfg_enabled (k : SubRing) (v : Word) (h : k.en = true) :
    (k.writeCfg v).1.sizeLog2 = k.sizeLog2 ∧ (k.writeCfg v).1.part = k.part := by
  simp only [SubRing.writeCfg, h, Bool.true_and, Bool.not_true, Bool.false_and, Bool.false_eq_true, if_false]
  split
  · exact ⟨rfl, rfl⟩
  · next hl =>
    simp only [Bool.or_eq_true, bne_iff_ne, ne_eq, not_or, not_not] at hl
    exact hl

theorem writeCfg_enables (k : SubRing) (v : Word) (h : k.en = false) (hv : bitAt v 8 = true) :
    (k.writeCfg v).1.history = [] ∧ (k.writeCfg v).1.highSeq = k.wrSeq := by
  simp [SubRing.writeCfg, h, hv]

/-- Settles O46: register access, each rule by its own equation. -/
theorem registerAccess : Obligations.RegisterAccess := by
  unfold Obligations.RegisterAccess
  refine ⟨accepts_iff, ?write, ?regs, ?rws, ?tune, ?ring, ?held,
    fun k align reg v => ⟨ringWrite_enabled k align reg v, ringWrite_disabled k align reg v, ringWrite_enables k align v⟩, ?sub,
    fun k v => ⟨writeCfg_en k v, writeCfg_enabled k v, writeCfg_enables k v⟩, ?read, readRegs_one, useReg_bad, readBy_lo, readBy_latched⟩
  case write =>
    intro o vs full s hr
    exact ⟨fun h => Laws.run_next _ hr (regWrite_mgt _ vs full s h), fun hh h => Laws.run_next _ hr (regWrite_ur _ vs full s hh h),
      fun hh hb ha => Laws.run_next _ hr (regWrite_host _ vs full s hh hb ha)⟩
  case regs => exact fun o v w s => ⟨rfl, rfl, fun b r h => writeReg_flt o v s h⟩
  case rws =>
    intro v s hs s1 s2
    exact ⟨run_tuned _ 0x200104 hs (rwsWrite_slice v s) rfl rfl rfl, run_tuned _ 0x200108 hs (rwsWrite_grace v s) rfl rfl rfl⟩
  case tune => intro o v s i hs hi hm; exact run_tuned _ o.toNat hs (rwsWrite_tune o.toNat v s i hi hm) rfl rfl rfl
  case ring => intro o v s r reg hr h hh w s1; exact Laws.run_next _ hr (ringWriteReg_eq _ v s h hh)
  case held =>
    intro o v s hs hh
    exact ⟨Laws.run_keep _ hs (ringWriteReg_held _ v s hh) rfl rfl rfl, Laws.run_keep _ hs (rwsWrite_held _ v s hh) rfl rfl rfl⟩
  case sub =>
    intro n v s hr o s0
    exact ⟨fun h1 h3 => Laws.run_next _ hr (subWriteReg_live _ v s (subRegAt_cfg n) h1 h3),
      fun hp => Laws.run_next _ hr (subWriteReg_cfg _ v s (subRegAt_cfg n) hp)⟩
  case read =>
    intro o n full s hr
    exact ⟨fun h => Laws.run_next _ hr (regRead_mgt _ n full s h), fun hh h => Laws.run_next _ hr (regRead_ur _ n full s hh h),
      fun hh hb ha => Laws.run_next _ hr (regRead_host _ n full s hh hb ha)⟩

end Sys2Proof.Proofs
end

section
/-!
PROOFS. Chapter 16: what the fire of a fault source does, and the writes of the fault registers.
-/
namespace Sys2Proof.Proofs
open Sys2Proof Sys2Proof.Machine

/-! ### What of a fire leaves alone that the safe state is due -/

theorem due_foldl {β : Type} (f : State → β → State) (h : ∀ s b, (f s b).glb.safeDue = s.glb.safeDue) (l : List β) (s : State) :
    (l.foldl f s).glb.safeDue = s.glb.safeDue := by
  induction l generalizing s with
  | nil => rfl
  | cons b l ih => exact (ih (f s b)).trans (h s b)

theorem due_logSide (body : BitVec 128) (s : State) : (logSide body s).glb.safeDue = s.glb.safeDue := by
  unfold logSide
  split <;> rfl

theorem due_sendSide (kind dom gen mask tick : Nat) (s : State) : (sendSide kind dom gen mask tick s).glb.safeDue = s.glb.safeDue := by
  unfold sendSide
  exact (due_foldl _ (by intros; rfl) _ _).trans (due_logSide ..)

theorem due_voidParts (ps : List Nat) (s : State) : (voidParts ps s).glb.safeDue = s.glb.safeDue := by
  unfold voidParts voidAt
  split
  · exact (due_foldl _ (by intros; exact due_sendSide ..) _ _).trans (due_foldl _ (by intros; rfl) _ _)
  · rfl

theorem due_markVoid (w : Who) (s : State) : (markVoid w s).glb.safeDue = s.glb.safeDue := by unfold markVoid; split <;> rfl

theorem due_postVec (v : Nat) (s : State) : (postVec v s).glb.safeDue = s.glb.safeDue := by unfold postVec; split <;> rfl

theorem due_trace (ty src : Nat) (x : BitVec 64) (s : State) : (trace ty src x s).glb.safeDue = s.glb.safeDue := by
  unfold trace
  split <;> rfl

theorem due_traceFault (f : Fire) (info : SrcInfo) (lvl : Nat) (esc joins : Bool) (s : State) :
    (traceFault f info lvl esc joins s).glb.safeDue = s.glb.safeDue := by
  unfold traceFault
  split
  · rfl
  · exact due_trace ..

theorem due_fireMsg (f : Fire) (lvl : Nat) (s : State) : (fireMsg f lvl s).glb.safeDue = s.glb.safeDue := by
  unfold fireMsg
  dsimp only
  split
  · exact due_postVec ..
  · rfl

theorem flt_traceFault (f : Fire) (info : SrcInfo) (lvl : Nat) (esc joins : Bool) (s : State) :
    (traceFault f info lvl esc joins s).flt = s.flt := by
  unfold traceFault
  split
  · rfl
  · exact Laws.flt_trace ..

theorem flt_fireEffect (f : Fire) (lvl : Nat) (s : State) : (fireEffect f lvl s).flt = s.flt := by
  unfold fireEffect
  split
  · rfl
  · split
    · exact Laws.flt_dueSafe ..
    · split
      · split
        · exact Laws.flt_requestRestart ..
        · rfl
      · rfl

/-! ### One fire -/

/-- Before its level takes effect, a fire has recorded itself in its block and nowhere else in the fault registers. -/
theorem fireOne_recorded (s : State) (f : Fire) (info : SrcInfo) (hi : srcInfo f.b f.src = some info)
    (hf : (f.force && ((fltAt s f.b).inCycle s.clk.cyc).fired.getLsbD f.src) = false) :
    ∃ (s1 : State) (esc : Bool) (pmask : Nat), fireOne s f = fireEffect f (fireLevel s f info).1 s1 ∧
      s1.flt = upd (fireMsg f (fireLevel s f info).1 s).flt f.b
        (fun blk => (blk.inCycle s.clk.cyc).record f info (fireLevel s f info).1 esc pmask s.clk.gtc) ∧
      s1.glb.safeDue = s.glb.safeDue ∧ ByFire s s1 := by
  unfold fireOne
  simp only [hi, hf, Bool.false_eq_true, if_false]
  refine ⟨_, (fireLevel s f info).2,
    if patActive s then sumN ((List.range 4).map fun p => if (fireParts s f (fireLevel s f info).1).contains p then 2 ^ p else 0) else 0,
    rfl, ?_, ?_, ?_⟩
  · rw [flt_traceFault]
    split
    · rw [Laws.flt_markVoid, Laws.flt_voidParts]
    · rfl
  · rw [due_traceFault]
    split
    · rw [due_markVoid, due_voidParts]; exact due_fireMsg ..
    · exact due_fireMsg ..
  · refine Laws.byFire_trans (Laws.byFire_ite ?_ ?_) (Laws.byFire_traceFault ..)
    · exact Laws.byFire_trans (Laws.byFire_trans (Laws.byFire_fireMsg ..) (Laws.byFire_flt ..))
        (Laws.byFire_trans (Laws.byFire_voidParts ..) (Laws.byFire_markVoid ..))
    · exact Laws.byFire_trans (Laws.byFire_fireMsg ..) (Laws.byFire_flt ..)

theorem fire_duplicate (f : Fire) (s : State) {info : SrcInfo} (hi : srcInfo f.b f.src = some info) (hf : f.force = true)
    (h : ((fltAt s f.b).inCycle s.clk.cyc).fired.getLsbD f.src = true) : fire f s = s := by
  change fireOne s f = s
  unfold fireOne
  simp only [hi, hf, h, Bool.and_self, if_true]

theorem length_upd {α : Type} (l : List α) (i : Nat) (f : α → α) : (upd l i f).length = l.length := by
  simp [upd]

theorem inCycle_sent (k : FltBlock) (cyc : Nat) (w : BitVec 8) :
    ({ k.inCycle cyc with sent := w } : FltBlock).inCycle cyc = { k.inCycle cyc with sent := w } := by
  have h : ({ k.inCycle cyc with sent := w } : FltBlock).cycAt = cyc := by
    unfold FltBlock.inCycle
    split
    · assumption
    · rfl
  exact if_pos h

/-- The message of a fire marks the level as sent in the fire's block, and does nothing else to the fault registers. -/
theorem fireMsg_flt (f : Fire) (lvl : Nat) (s : State) :
    (fireMsg f lvl s).flt.length = s.flt.length ∧ (∀ b, b ≠ f.b → fltAt (fireMsg f lvl s) b = fltAt s b) ∧
      (f.b < s.flt.length → ∃ w, (fltAt (fireMsg f lvl s) f.b).inCycle s.clk.cyc = { (fltAt s f.b).inCycle s.clk.cyc with sent := w }) := by
  unfold fireMsg
  dsimp only
  split
  · unfold fltAt
    rw [Laws.flt_postVec]
    refine ⟨length_upd .., fun b hb => Laws.getD_upd_ne _ _ _ _ _ hb, fun hl => ⟨putBit ((fltAt s f.b).inCycle s.clk.cyc).sent lvl true, ?_⟩⟩
    rw [Laws.getD_upd_same _ _ _ _ hl]
    exact inCycle_sent ..
  · exact ⟨rfl, fun _ _ => rfl, fun _ => ⟨((fltAt s f.b).inCycle s.clk.cyc).sent, rfl⟩⟩

/-- R398, R403: the block after a fire: its status bit, its count and its stored level, whatever message was sent before. -/
theorem record_fields (k : FltBlock) (w : BitVec 8) (f : Fire) (info : SrcInfo) (lvl : Nat) (esc : Bool) (pmask : Nat) (gtc : Gtc) :
    let r := ({ k with sent := w } : FltBlock).record f info lvl esc pmask gtc
    r.stat = putBit k.stat f.src true ∧
      r.cnt.getD f.src 0 = min (k.cnt.getD f.src 0 + (if k.joins f then f.count - 1 else f.count)) 65535 ∧
      r.lvl.getD f.src 0 = max (k.levelOf f.src) lvl := by
  refine ⟨rfl, ?_, Laws.getD_putAt_same ..⟩
  exact (Laws.getD_putAt_same ..).trans (Nat.min_comm ..)

theorem mem_addNew {α : Type} [BEq α] [LawfulBEq α] (l : List α) (x : α) : x ∈ addNew l x := by
  unfold addNew
  split
  · next h => exact List.contains_iff_mem.mp h
  · exact List.mem_append_right _ (List.mem_singleton.mpr rfl)

theorem mem_requestRestart (d : Nat) (s : State) (hs : inService s d = true) (h1 : 1 ≤ d) (h24 : d ≤ 24)
    (hp : 16 < d ∨ present s (d - 1) = true) : d ∈ (requestRestart d s).dru.req := by
  have hb : (inService s d && decide (1 ≤ d) && decide (d ≤ 24) && (decide (d > 16) || present s (d - 1))) = true := by
    rcases hp with hp | hp <;> simp [hs, h1, h24, hp]
  unfold requestRestart
  rw [if_pos hb]
  exact mem_addNew ..

theorem fireEffect_safe (f : Fire) (s : State) (h : s.glb.safe = false) :
    (fireEffect f 4 s).glb.safeDue = some (s.glb.safeDue.getD (f.b, f.src)) := by
  unfold fireEffect dueSafe
  simp only [h, Bool.false_eq_true, if_false, if_true]
  cases hd : s.glb.safeDue with
  | none => rfl
  | some x => simp [hd]

theorem fireEffect_restart (f : Fire) (s : State) (h : s.glb.safe = false) (d : Nat) (hb : blockDomain f.b = some d)
    (hs : inService s d = true) (h1 : 1 ≤ d) (h24 : d ≤ 24) (hp : 16 < d ∨ present s (d - 1) = true) :
    d ∈ (fireEffect f 3 s).dru.req := by
  unfold fireEffect
  have h34 : ¬((3 : Nat) = 4) := by norm_num
  simp only [h, hb, Bool.false_eq_true, if_neg h34, if_false, if_true]
  exact mem_requestRestart d s hs h1 h24 hp

/-- A fire leaves the safe state, the domains and the fuses as they are. -/
theorem byFire_where {s t : State} (h : ByFire s t) : t.glb.safe = s.glb.safe ∧ t.dru.doms = s.dru.doms ∧ t.mgt = s.mgt := by
  obtain ⟨-, -, -, -, -, -, -, -, -, hmgt, -, -, -, -, -, -, -, -, hglb, hdru⟩ := h
  have hs := congrArg Glb.safe hglb
  have hd := congrArg Dru.doms hdru
  exact ⟨hs, hd, hmgt⟩

/-- R398 to R400, R403: a fire that is not a duplicate. -/
theorem fire_fields (f : Fire) (s : State) (info : SrcInfo) (hi : srcInfo f.b f.src = some info) (hl : f.b < s.flt.length)
    (hf : (f.force && ((fltAt s f.b).inCycle s.clk.cyc).fired.getLsbD f.src) = false) :
    let k := (fltAt s f.b).inCycle s.clk.cyc
    let e := fireLevel s f info
    let t := fire f s
    (fltAt t f.b).stat = putBit k.stat f.src true ∧
      (fltAt t f.b).cnt.getD f.src 0 = min (k.cnt.getD f.src 0 + (if k.joins f then f.count - 1 else f.count)) 65535 ∧
      (fltAt t f.b).lvl.getD f.src 0 = max (k.levelOf f.src) e.1 ∧
      (∀ b, b ≠ f.b → fltAt t b = fltAt s b) ∧ ByFire s t ∧
      (s.glb.safe = false →
        (e.1 = 4 → t.glb.safeDue = some (s.glb.safeDue.getD (f.b, f.src))) ∧
        (e.1 = 3 → ∀ d, blockDomain f.b = some d → inService s d = true → 1 ≤ d → d ≤ 24 → (16 < d ∨ present s (d - 1) = true) →
          d ∈ t.dru.req)) := by
  intro k e t
  obtain ⟨s1, esc, pmask, heq, hflt, hdue, hby⟩ := fireOne_recorded s f info hi hf
  obtain ⟨hlen, hother, hmine⟩ := fireMsg_flt f e.1 s
  obtain ⟨w, hw⟩ := hmine hl
  obtain ⟨hsafe, hdoms, hmgt⟩ := byFire_where hby
  have ht : t = fireEffect f e.1 s1 := heq
  have htf : t.flt = upd (fireMsg f e.1 s).flt f.b (fun blk => (blk.inCycle s.clk.cyc).record f info e.1 esc pmask s.clk.gtc) := by
    rw [ht, flt_fireEffect]; exact hflt
  have hblk : fltAt t f.b = ({ k with sent := w } : FltBlock).record f info e.1 esc pmask s.clk.gtc := by
    unfold fltAt
    rw [htf, Laws.getD_upd_same _ _ _ _ (by rw [hlen]; exact hl)]
    exact congrArg (fun x : FltBlock => x.record f info e.1 esc pmask s.clk.gtc) hw
  obtain ⟨h1, h2, h3⟩ := record_fields k w f info e.1 esc pmask s.clk.gtc
  rw [← hblk] at h1 h2 h3
  refine ⟨h1, h2, h3, fun b hb => ?_, Laws.byFire_fire f s, fun hns => ⟨fun h4 => ?_, fun h3 d hd hin hd1 hd24 hp => ?_⟩⟩
  · have hu : fltAt t b = fltAt (fireMsg f e.1 s) b := by
      unfold fltAt
      rw [htf]
      exact Laws.getD_upd_ne _ _ _ _ _ hb
    exact hu.trans (hother b hb)
  · rw [ht, h4, fireEffect_safe f s1 (hsafe.trans hns), hdue]
  · rw [ht, h3]
    refine fireEffect_restart f s1 (hsafe.trans hns) d hd ?_ hd1 hd24 ?_
    · unfold inService domAt; rw [hdoms]; exact hin
    · unfold present; rw [hmgt]; exact hp

theorem not_duplicate {f : Fire} {b : Bool} (h : f.force = false ∨ b = false) : (f.force && b) = false := by
  rcases h with h | h <;> rw [h] <;> simp

/-- Settles O47: a fire is recorded in its block, and its level takes effect. -/
theorem faultFires : Obligations.FaultFires := by
  unfold Obligations.FaultFires
  refine ⟨?fires, fun s hs => Laws.settle_eq hs.2⟩
  intro f s info hi hl _ k e t
  exact ⟨fun hf h => fire_duplicate f s hi hf h, fun h => fire_fields f s info hi hl (not_duplicate h)⟩

/-! ### Writes of the fault registers -/

theorem sumN_append (l m : List Nat) : sumN (l ++ m) = sumN l + sumN m := by
  have h : ∀ (m : List Nat) (a : Nat), m.foldl (· + ·) a = a + m.foldl (· + ·) 0 := by
    intro m
    induction m with
    | nil => intro a; rfl
    | cons x m ih => intro a; rw [List.foldl_cons, List.foldl_cons, ih (a + x), ih (0 + x)]; omega
  unfold sumN
  rw [List.foldl_append, h m]

/-- The number whose bits are the chosen indices. -/
def bitsOf (p : Nat → Bool) (n : Nat) : Nat := sumN (((List.range n).filter p).map fun i => 2 ^ i)

theorem bitsOf_succ (p : Nat → Bool) (n : Nat) : bitsOf p (n + 1) = bitsOf p n + if p n then 2 ^ n else 0 := by
  unfold bitsOf
  rw [List.range_succ, List.filter_append, List.map_append, sumN_append]
  cases h : p n <;> simp [h, sumN]

theorem bitsOf_lt (p : Nat → Bool) (n : Nat) : bitsOf p n < 2 ^ n := by
  induction n with
  | zero => simp [bitsOf, sumN]
  | succ n ih =>
    rw [bitsOf_succ]
    split <;> omega

theorem testBit_bitsOf (p : Nat → Bool) (n i : Nat) (h : i < n) : (bitsOf p n).testBit i = p i := by
  induction n with
  | zero => omega
  | succ n ih =>
    have hlt := bitsOf_lt p n
    rw [bitsOf_succ]
    by_cases hi : i = n
    · subst hi
      cases p i
      · simp [Nat.testBit_lt_two_pow hlt]
      · rw [if_pos rfl, Nat.add_comm, Nat.testBit_two_pow_add_eq, Nat.testBit_lt_two_pow hlt]; rfl
    · have hin : i < n := by omega
      cases p n
      · simpa using ih hin
      · rw [if_pos rfl, Nat.add_comm, Nat.testBit_two_pow_add_gt hin, ih hin]

theorem getLsbD_bitsOf (p : Nat → Bool) (i : Nat) (h : i < 64) : (BitVec.ofNat 64 (bitsOf p 64)).getLsbD i = p i := by
  rw [BitVec.getLsbD_ofNat, testBit_bitsOf p 64 i h, decide_eq_true h, Bool.true_and]

theorem inCycle_keeps (k : FltBlock) (cyc : Nat) :
    (k.inCycle cyc).stat = k.stat ∧ (k.inCycle cyc).cause = k.cause ∧ (k.inCycle cyc).forced = k.forced := by
  unfold FltBlock.inCycle
  split <;> exact ⟨rfl, rfl, rfl⟩

/-- R402, R404: the status bits that a write of 1 leaves. -/
theorem w1cStat_bit (b cyc : Nat) (k : FltBlock) (w : BitVec 64) (i : Nat) (h : i < 64) :
    (w1cStat b cyc k w).stat.getLsbD i = (k.stat.getLsbD i && !(w.getLsbD i &&
      !((srcInfo b i).map SrcInfo.level == some true && k.cause.getLsbD i && !k.forced.getLsbD i) &&
      !(k.inCycle cyc).fired.getLsbD i)) := by
  obtain ⟨hs, hc, hf⟩ := inCycle_keeps k cyc
  have hheld := getLsbD_bitsOf (fun i => (srcInfo b i).map SrcInfo.level == some true && k.cause.getLsbD i && !k.forced.getLsbD i) i h
  unfold bitsOf at hheld
  unfold w1cStat
  simp only [hs, hc, hf, BitVec.getLsbD_and, BitVec.getLsbD_not, hheld, decide_eq_true h, Bool.true_and]

theorem statWrite_live (b : Nat) (hi : Bool) (v : Word) (s : State) (h : deadBlock s b = false) :
    statWrite b hi v s = { s with flt := upd s.flt b fun _ => w1cStat b s.clk.cyc (fltAt s b) (asHalf hi v) } := by
  simp only [statWrite, h, Bool.false_eq_true, if_false]
  exact congrArg (fun l => { s with flt := l }) (Laws.upd_set {} s.flt b _)

theorem forceWrite_live (b : Nat) (hi : Bool) (v : Word) (s : State) (h : deadBlock s b = false) (hn : forced b hi v ≠ []) :
    forceWrite b hi v s = (let s1 := passToCyc s (s.clk.cyc + 1)
      fireAll ((forced b hi v).map (forceOf s1 b)) s1) := by
  have he : (forced b hi v).isEmpty = false := by
    rw [← Bool.not_eq_true, List.isEmpty_iff]; exact hn
  simp only [forceWrite, h, he, Bool.or_self, Bool.false_eq_true, if_false]

theorem sevWrite_live (b w : Nat) (v : Word) (s : State) (h : deadBlock s b = false) (h0 : s.glb.patState ≠ 0) (h5 : s.glb.patState ≠ 5) :
    sevWrite b w v s = liveWrite (fltBase b + 0x20 + 4 * w) s := by
  simp only [sevWrite, h, h0, h5, Bool.false_eq_true, if_false, ne_eq, not_false_eq_true, and_self, if_true]

theorem sevWrite_open (b w : Nat) (v : Word) (s : State) (h : deadBlock s b = false) (hp : s.glb.patState = 0 ∨ s.glb.patState = 5) :
    sevWrite b w v s = { s with flt := upd s.flt b fun f =>
      { f with sev := f.sev.mapIdx fun i old =>
          let n := fld v (3 * (i % 10) + 2) (3 * (i % 10))
          if slotUsed b i = true ∧ i / 10 = w then (if 4 < n then old else if lifecycle s = 2 then max n (f.floor.getD i 0) else n)
          else old } } := by
  have hn : ¬(s.glb.patState ≠ 0 ∧ s.glb.patState ≠ 5) := by omega
  simp only [sevWrite, h, if_neg hn, Bool.false_eq_true, if_false, sevOf, Bool.and_eq_true, beq_iff_eq]

theorem injWrite_refused (c : Nat) (v : Word) (s : State) (h : lifecycle s = 2 ∨ present s c = false ∨ s.rst.minimal = true) :
    injWrite c v s = s := by
  simp [injWrite, h]

theorem injWrite_taken (c : Nat) (v : Word) (s : State) (hl : lifecycle s ≠ 2) (hp : present s c = true) (hm : s.rst.minimal = false) :
    injWrite c v s = modSt s c fun k => { k with inj := injWord k.inj v, injArmed := k.injArmed || bitAt v 0 } := by
  simp [injWrite, hl, hp, hm]

/-- Settles O48: the writes of the fault registers, each by its own equation. -/
theorem faultRegisterWrites : Obligations.FaultRegisterWrites := by
  unfold Obligations.FaultRegisterWrites
  refine ⟨?stat, ?force, ?sev, ?inj⟩
  case stat =>
    intro b hi v s hs hd _
    exact ⟨_, Laws.run_keep _ hs (statWrite_live b hi v s hd) rfl rfl rfl, fun i h => w1cStat_bit b s.clk.cyc (fltAt s b) (asHalf hi v) i h⟩
  case force => intro b hi v s hr hd hn s1; exact Laws.run_next _ hr (forceWrite_live b hi v s hd hn)
  case sev =>
    intro b w v s hr hd
    exact ⟨fun h0 h5 => Laws.run_next _ hr (sevWrite_live b w v s hd h0 h5), fun hp => Laws.run_next _ hr (sevWrite_open b w v s hd hp)⟩
  case inj =>
    intro c v s hs
    exact ⟨fun h => Laws.run_keep _ hs (injWrite_refused c v s h) rfl rfl rfl,
      fun hl hp hm => Laws.run_keep _ hs (injWrite_taken c v s hl hp hm) rfl rfl rfl⟩

end Sys2Proof.Proofs
end

section
/-!
PROOFS. Chapter 17: the heartbeat monitor, the requests, and the restart of a domain step by step.
-/
namespace Sys2Proof.Proofs
open Sys2Proof Sys2Proof.Machine

/-! ### Heartbeat -/

theorem truncate_eq (v : Word) : BitVec.ofNat 16 v.toNat = v.truncate 16 := by
  apply BitVec.eq_of_toNat_eq
  simp

theorem hbWrite_counts (v : Word) (s : State) (h : s.dru.started = false ∨ (s.dru.armed = true ∧ v.truncate 16 = s.dru.last + 1)) :
    hbWrite v s = { s with dru := { s.dru with started := true, armed := true, last := v.truncate 16, missed := 0, timerAt := s.clk.ns } } := by
  have hb : (!s.dru.started || (s.dru.armed && v.truncate 16 == s.dru.last + 1)) = true := by
    rcases h with h | ⟨ha, hv⟩
    · rw [h]; rfl
    · rw [ha, beq_iff_eq.mpr hv, Bool.and_self, Bool.or_true]
  simp only [hbWrite, truncate_eq, hb, if_true]

theorem hbWrite_ignored (v : Word) (s : State) (hs : s.dru.started = true) (h : s.dru.armed = false ∨ v.truncate 16 ≠ s.dru.last + 1) :
    hbWrite v s = s := by
  have hb : (!s.dru.started || (s.dru.armed && v.truncate 16 == s.dru.last + 1)) = false := by
    rcases h with h | h
    · rw [hs, h]; rfl
    · rw [hs, beq_false_of_ne h, Bool.and_false]; rfl
  simp only [hbWrite, truncate_eq, hb, Bool.false_eq_true, if_false]

/-- A command that changes of the recovery unit no request, and neither what is due nor the trace, is its effect alone. -/
theorem run_dru {s t : State} (f : State → State) (hs : s.Ready) (hf : f s = t) (h1 : t.dru.req = s.dru.req) (h2 : t.glb = s.glb)
    (h3 : t.obs = s.obs) : run s f = .next t := by
  obtain ⟨hr, hq, hd, ho⟩ := hs
  rw [Laws.run_settled f hr, hf]
  rw [hf]
  exact ⟨h1 ▸ hq, h2 ▸ hd, h3 ▸ ho⟩

theorem hbExpiry_armed (s : State) (h : s.dru.armed = true) :
    hbExpiry s = (let s1 := passNs s (s.dru.timerAt + 1000000 - s.clk.ns)
      let n := s1.dru.missed + 1
      let s2 := { s1 with dru := { s1.dru with missed := min n 3, timerAt := s1.clk.ns, armed := decide (n < 3) } }
      if n < 3 then s2 else fire { b := bDRU, src := 0 } s2) := by
  simp only [hbExpiry, h, Bool.not_true, Bool.false_eq_true, if_false]

/-! ### The steps of a restart -/

theorem not_restartable (s : State) (d : Nat) (h : (domAt s d).phase ≠ 0) : restartable s d = false := by
  have hi : inService s d = false := beq_false_of_ne h
  simp only [restartable, hi, Bool.and_false, Bool.false_and]

theorem restartDomain_fences (d : Nat) (s : State) (h : restartable s d = true) : restartDomain d s = fenceDomain d s := by
  simp only [restartDomain, h, if_true]

theorem restartDomain_still (d : Nat) (s : State) (h : restartable s d = false) (hc : canRestart s d = false) : restartDomain d s = s := by
  simp only [restartDomain, h, hc, Bool.false_eq_true, if_false]

/-- A restart in progress, within its bounds and with DRAM answering where it reloads, goes on by its next step. -/
theorem restartDomain_step (d : Nat) (s : State) {p : Nat} (hphase : (domAt s d).phase = p) (h1 : 1 ≤ p) (h4 : p ≤ 4)
    (hf : (domAt s d).frozen = false) (hb : s.clk.ns ≤ boundAt s d) (hd : p = 4 → reloads s d = true → dramUp s = true) :
    restartDomain d s = restartStep d s := by
  subst hphase
  have hr := not_restartable s d (by omega)
  have hl : ((domAt s d).phase != 4 || !reloads s d || dramUp s) = true := by
    by_cases hp : (domAt s d).phase = 4
    · cases hrl : reloads s d
      · simp
      · rw [hd hp hrl, Bool.or_true]
    · simp [hp]
  have hc : canRestart s d = true := by
    unfold canRestart
    simp only [decide_eq_true h1, decide_eq_true h4, hf, decide_eq_true hb, hl, Bool.not_false, Bool.and_self]
  simp only [restartDomain, hr, hc, Bool.false_eq_true, if_false, if_true]

theorem restartStep_drained (d : Nat) (s : State) (h : (domAt s d).phase = 1) (hd : drained s d = true) : restartStep d s = setPhase d 2 s := by
  simp only [restartStep, h, hd, if_true]

theorem restartStep_undrained (d : Nat) (s : State) (h : (domAt s d).phase = 1) (hd : drained s d = false) : restartStep d s = s := by
  simp only [restartStep, h, hd, Bool.false_eq_true, if_false, if_true]

theorem restartStep_reset (d : Nat) (s : State) (h : (domAt s d).phase = 2) :
    restartStep d s = setPhase d 3 (passToCyc s ((domAt s d).phaseAt + 2048)) := by
  simp [restartStep, h]

theorem restartStep_scrub (d : Nat) (s : State) (h : (domAt s d).phase = 3) :
    restartStep d s = setPhase d 4 (resetDomain d (passToCyc s ((domAt s d).phaseAt + scrubCycles d))) := by
  simp [restartStep, h]

theorem restartStep_reload (d : Nat) (s : State) (h : (domAt s d).phase = 4) (hr : reloads s d = true) : restartStep d s = reloadStep d s := by
  simp [restartStep, h, hr]

theorem restartStep_plain (d : Nat) (s : State) (h : (domAt s d).phase = 4) (hr : reloads s d = false) : restartStep d s = unfence d s := by
  simp [restartStep, h, hr]

/-- R412, R414: an undrained domain, whether within its bound or not, stays as it is. -/
theorem restartDomain_undrained (d : Nat) (s : State) (h : (domAt s d).phase = 1) (hd : drained s d = false) : restartDomain d s = s := by
  unfold restartDomain
  rw [not_restartable s d (by omega), restartStep_undrained d s h hd]
  simp

theorem canRestart_false (s : State) (d : Nat) (h : (domAt s d).phase = 0 ∨ 5 ≤ (domAt s d).phase ∨ (domAt s d).frozen = true ∨
    boundAt s d < s.clk.ns ∨ ((domAt s d).phase = 4 ∧ reloads s d = true ∧ dramUp s = false)) : canRestart s d = false := by
  unfold canRestart
  dsimp only
  rcases h with h | h | h | h | ⟨h, hr, hd⟩
  · rw [h]; simp
  · rw [decide_eq_false (show ¬(domAt s d).phase ≤ 4 by omega)]; simp
  · rw [h]; simp
  · rw [decide_eq_false (Nat.not_le.mpr h)]; simp
  · rw [h, hr, hd]; simp

theorem drainTimeout_stops (d : Nat) (s : State) (h : (domAt s d).phase = 1) (hf : (domAt s d).frozen = false) :
    drainTimeout d s = fire { b := bDRU, src := 1, det := BitVec.ofNat 32 d }
      (setPhase d 5 (passNs s ((domAt s d).fenceAt + drainNs s - s.clk.ns))) := by
  simp [drainTimeout, h, hf, passFence]

theorem restartFail_stops (d : Nat) (s : State) (h0 : (domAt s d).phase ≠ 0) (h5 : (domAt s d).phase < 5) (hf : (domAt s d).frozen = false) :
    restartFail d s = fire { b := bDRU, src := 3 } (setPhase d 5 (passNs s
      ((if (domAt s d).phase = 1 then (domAt s d).fenceAt + restartBound s d else boundAt s d) - s.clk.ns))) := by
  simp only [restartFail, decide_eq_false h0, decide_eq_false (Nat.not_le.mpr h5), hf, Bool.or_self, Bool.false_eq_true, if_false]

/-- Settles O49: each command of the recovery by the step that the domain's phase chooses. -/
theorem recovery : Obligations.Recovery := by
  unfold Obligations.Recovery
  refine ⟨?hb, ?expiry, fun v s hr => Laws.run_next _ hr rfl, ?restart, fun d s hr h hf => Laws.run_next _ hr (drainTimeout_stops d s h hf),
    fun d s hr h0 h5 hf => Laws.run_next _ hr (restartFail_stops d s h0 h5 hf)⟩
  case hb =>
    intro v s hs
    exact ⟨fun h => run_dru _ hs (hbWrite_counts v s h) rfl rfl rfl, fun h0 h => Laws.run_keep _ hs (hbWrite_ignored v s h0 h) rfl rfl rfl⟩
  case expiry => intro s hr h s1 n s2; exact Laws.run_next _ hr (hbExpiry_armed s h)
  case restart =>
    intro d s hr k
    refine ⟨fun h => Laws.run_next _ hr (restartDomain_fences d s h), fun hp hf hb hd => Laws.run_next _ hr ?drained,
      fun hp _ hd => Laws.run_next _ hr (restartDomain_undrained d s hp hd), fun hp hf hb => Laws.run_next _ hr ?reset,
      fun hp hf hb => Laws.run_next _ hr ?scrub, ?reload, fun hp hf hb hrl => Laws.run_next _ hr ?plain,
      fun h hc => Laws.run_next _ hr (restartDomain_still d s h (canRestart_false s d hc))⟩
    case drained =>
      exact (restartDomain_step d s hp (by norm_num) (by norm_num) hf hb (by norm_num)).trans (restartStep_drained d s hp hd)
    case reset => exact (restartDomain_step d s hp (by norm_num) (by norm_num) hf hb (by norm_num)).trans (restartStep_reset d s hp)
    case scrub => exact (restartDomain_step d s hp (by norm_num) (by norm_num) hf hb (by norm_num)).trans (restartStep_scrub d s hp)
    case plain =>
      exact (restartDomain_step d s hp (by norm_num) (by norm_num) hf hb (fun _ h => by rw [hrl] at h; cases h)).trans (restartStep_plain d s hp hrl)
    case reload =>
      intro hp hf hb hrl hd g s1
      have hstep := (restartDomain_step d s hp (by norm_num) (by norm_num) hf hb (fun _ _ => hd)).trans (restartStep_reload d s hp hrl)
      exact Laws.run_next _ hr hstep

end Sys2Proof.Proofs
end

section
/-!
PROOFS. Chapters 8 and 15: the scrub walks, and the monitors of parity, readback, voltage, clocks, temperature and lockstep.
-/
namespace Sys2Proof.Proofs
open Sys2Proof Sys2Proof.Machine

/-! ### Scrub -/

theorem scrubCycle_open (m : ScrubMem) (bank : Nat) (found : EccFind) (s : State) (h : scrubRuns s m = true) (hb : bank < m.banks) {s1 : State}
    (h1 : markFrame m bank (passToCyc s (nextFrame s m bank)) = s1) :
    scrubCycle m bank found s = match pendingWb s1 m bank with
      | some (id, w) => let v := memOf s1 id; countAccess id true false 8 (setMem id { v with wb := v.wb.erase w } s1)
      | none => scrubWord m bank found s1 := by
  subst h1
  simp only [scrubCycle, h, decide_eq_false (Nat.not_le.mpr hb), Bool.not_true, Bool.or_self, Bool.false_eq_true, if_false] <;> rfl

theorem patrolScrub_up (ch : Nat) (found : EccFind) (s : State) (h : dramUp s = true) {s1 : State} (h1 : passNs s (patrolWait s ch) = s1) :
    patrolScrub ch found s = (let k := s1.drc.patrol.getD ch 0
      let runs := patrolRuns ch k
      let v := s1.drc.mem
      let ce := found == .ce || runs.any fun a => v.hasCe 64 a 256
      let ue := found == .ue || runs.any fun a => v.hasUe 64 a 256
      let v1 := { v with
        ce := v.ce.filter fun w => !(runs.any fun a => (eccWords 64 a 256).contains w)
        ue := if found == .ue then addNew v.ue ((k * 4 * 2048 + ch * 256) / 64) else v.ue }
      let s2 := { s1 with drc := { s1.drc with mem := v1, patrol := putAt 0 s1.drc.patrol ch ((k + 1) % (dramU s1 / 8192)),
                                                patrolAt := putAt none s1.drc.patrolAt ch (some s1.clk.gtc) } }
      fireAll ((if ce then [({ b := bDRC, src := 0 } : Fire)] else []) ++ (if ue then [({ b := bDRC, src := 2 } : Fire)] else []))
        (countAccess .dram false false 1024 s2)) := by
  subst h1
  simp only [patrolScrub, h, Bool.not_true, Bool.false_eq_true, if_false]

theorem mgtSram_exec (word : Nat) (found : EccFind) (s : State) (hr : s.rst.inReset = false) (h : word < 131072) {t : State}
    (ht : mgtScrub word found s = t) : exec (.mgtSramScrub word found) s = .next (settle t) := by
  change execMgtSramScrub word found s = _
  unfold execMgtSramScrub
  rw [if_pos h]
  exact Laws.run_next _ hr ht

theorem mgtScrub_ue (word : Nat) (found : EccFind) (s : State) (h : found = .ue ∨ word ∈ s.mgt.sram.ue) :
    mgtScrub word found s = fire { b := bMGT, src := 7 }
      { s with mgt := { s.mgt with sram := { s.mgt.sram with ue := addNew s.mgt.sram.ue word } } } := by
  have hb : (found == .ue || s.mgt.sram.ue.contains word) = true := by
    rw [Bool.or_eq_true, beq_iff_eq, List.contains_iff_mem]
    exact h
  simp only [mgtScrub, hb, if_true]

theorem mgtScrub_ce (word : Nat) (found : EccFind) (s : State) (hn : found ≠ .ue) (hu : word ∉ s.mgt.sram.ue)
    (h : found = .ce ∨ word ∈ s.mgt.sram.ce) :
    mgtScrub word found s = fire { b := bMGT, src := 6 }
      { s with mgt := { s.mgt with sram := { s.mgt.sram with ce := s.mgt.sram.ce.filter (· != word) } } } := by
  have hb : (found == .ce || s.mgt.sram.ce.contains word) = true := by
    rw [Bool.or_eq_true, beq_iff_eq, List.contains_iff_mem]
    exact h
  simp only [mgtScrub, beq_false_of_ne hn, List.contains_eq_mem, hu, decide_false, Bool.or_self, Bool.false_eq_true, if_false]
  rw [← List.contains_eq_mem, if_pos hb]

theorem mgtScrub_clean (word : Nat) (s : State) (hu : word ∉ s.mgt.sram.ue) (hc : word ∉ s.mgt.sram.ce) : mgtScrub word .clean s = s := by
  simp [mgtScrub, hu, hc]

/-- Settles O50: a scrub takes the frame or slot that is due, and acts on what it finds there. -/
theorem scrubs : Obligations.Scrubs := by
  unfold Obligations.Scrubs
  refine ⟨?bank, ?patrol, ?mgt⟩
  case bank =>
    intro m bank found s hr h hb k s1
    have hopen := scrubCycle_open m bank found s h hb (rfl : _ = s1)
    refine ⟨fun id w hw => Laws.run_next _ hr ?_, fun hw => Laws.run_next _ hr ?_⟩
    · rw [hopen, hw]
    · rw [hopen, hw]
  case patrol =>
    intro ch found s hr h r s1 k runs v ce ue v1 s2
    exact Laws.run_next _ hr (patrolScrub_up ch found s h (rfl : _ = s1))
  case mgt =>
    intro word found s hr hw v
    exact ⟨fun h => mgtSram_exec word found s hr hw (mgtScrub_ue word found s h),
      fun hn hu h => mgtSram_exec word found s hr hw (mgtScrub_ce word found s hn hu h),
      fun hf hu hc => mgtSram_exec word found s hr hw (by rw [hf]; exact mgtScrub_clean word s hu hc)⟩

/-! ### Configuration -/

theorem paritySweep_eq (bad : Bool) (s : State) :
    paritySweep bad s = if bad = true ∨ s.glb.badRegs ≠ [] then fire { b := bGLB, src := 4 } { s with glb := { s.glb with badRegs := [] } } else s := by
  simp only [paritySweep, Bool.or_eq_true, Bool.not_eq_true', ← Bool.not_eq_true, List.isEmpty_iff, ne_eq]

theorem cfgReadback_early (upset : Option Nat) (s : State) (h : s.time.tick + 1 < s.glb.readbackAt + readbackTicks s) : cfgReadback upset s = s := by
  simp only [cfgReadback, decide_eq_true h, Bool.or_true, if_true]

/-- A readback that is due compares the mirrors in state s1. -/
theorem cfgReadback_due (upset : Option Nat) (s : State) (ha : patActive s = true) (hd : dramUp s = true)
    (h : s.glb.readbackAt + readbackTicks s ≤ s.time.tick + 1) {s0 s1 : State}
    (h0 : passToOff s (maxN ((List.range 4).map (settleNs s))) = s0)
    (h1 : { s0 with glb := { s0.glb with readbackAt := s0.time.tick + 1 } } = s1) :
    (∀ o, mirrorDiff s1 upset = some o → cfgReadback upset s = fire { b := bMGT, src := 5, det := BitVec.ofNat 32 o } s1) ∧
      (mirrorDiff s1 upset = none → cfgReadback upset s = s1) := by
  subst h0 h1
  constructor
  · intro o ho
    simp only [cfgReadback, ha, hd, decide_eq_false (Nat.not_lt.mpr h), Bool.not_true, Bool.or_self, Bool.false_eq_true, if_false, ho]
  · intro ho
    simp only [cfgReadback, ha, hd, decide_eq_false (Nat.not_lt.mpr h), Bool.not_true, Bool.or_self, Bool.false_eq_true, if_false, ho]

/-! ### Voltage and temperature -/

/-- A reading as MGT_VMON and MGT_TEMP hold it: a valid bit above 16 bits. -/
theorem reading_toNat (v : BitVec 16) : (BitVec.ofNat 32 (2 ^ 31 + v.toNat)).toNat = 2 ^ 31 + v.toNat := by
  have hv := v.isLt
  rw [BitVec.toNat_ofNat]
  omega

theorem reading_valid (v : BitVec 16) : bitAt (BitVec.ofNat 32 (2 ^ 31 + v.toNat)) 31 = true := by
  rw [bitAt_sign, reading_toNat]
  exact decide_eq_true (Nat.le_add_right _ _)

theorem reading_value (v : BitVec 16) : fld (BitVec.ofNat 32 (2 ^ 31 + v.toNat)) 15 0 = v.toNat := by
  have hv := v.isLt
  rw [Laws.fld_ofNat]
  omega

theorem reading_signed (v : BitVec 16) : signedOf 16 (BitVec.ofNat 32 (2 ^ 31 + v.toNat)).toNat = v.toInt := by
  have h : BitVec.ofNat 16 (2 ^ 31 + v.toNat) = v := by
    apply BitVec.eq_of_toNat_eq
    have hv := v.isLt
    rw [BitVec.toNat_ofNat]
    omega
  rw [reading_toNat, signedOf_eq_toInt 16 _ (by norm_num), h]

theorem inVolts_reading (s : State) (m : Nat) (mv : BitVec 16) :
    inVolts s m (BitVec.ofNat 32 (2 ^ 31 + mv.toNat)) =
      (decide (92 * setPoint s m ≤ 100 * mv.toNat) && decide (100 * mv.toNat ≤ 108 * setPoint s m)) := by
  unfold inVolts
  rw [reading_valid, reading_value]
  rfl

theorem voltage_out (m : Nat) (mv : BitVec 16) (s : State)
    (h : 100 * mv.toNat < 92 * setPoint s m ∨ 108 * setPoint s m < 100 * mv.toNat) :
    voltage m mv s = onset { b := bMGT, src := 2, det := BitVec.ofNat 32 m }
      { s with mgt := { s.mgt with vmon := putAt 0 s.mgt.vmon m (BitVec.ofNat 32 (2 ^ 31 + mv.toNat)) } } := by
  have hb : inVolts s m (BitVec.ofNat 32 (2 ^ 31 + mv.toNat)) = false := by
    rw [inVolts_reading]
    rcases h with h | h
    · rw [decide_eq_false (Nat.not_le.mpr h), Bool.false_and]
    · rw [decide_eq_false (Nat.not_le.mpr h), Bool.and_false]
  simp only [voltage, hb, Bool.not_false, if_true]

theorem voltage_in (m : Nat) (mv : BitVec 16) (s : State) (hlo : 92 * setPoint s m ≤ 100 * mv.toNat)
    (hhi : 100 * mv.toNat ≤ 108 * setPoint s m) :
    voltage m mv s = (let s1 := { s with mgt := { s.mgt with vmon := putAt 0 s.mgt.vmon m (BitVec.ofNat 32 (2 ^ 31 + mv.toNat)) } }
      if (List.range 12).all fun i => inVolts s1 i (s1.mgt.vmon.getD i 0) then causeEnds bMGT 2 s1 else s1) := by
  have hb : inVolts s m (BitVec.ofNat 32 (2 ^ 31 + mv.toNat)) = true := by
    rw [inVolts_reading, decide_eq_true hlo, decide_eq_true hhi]; rfl
  simp only [voltage, hb, Bool.not_true, Bool.false_eq_true, if_false]

theorem voltageMonitor_exec (m : Fin 12) (mv : BitVec 16) (s : State) (hr : s.rst.inReset = false) {t : State} (ht : voltage m mv s = t) :
    exec (.voltageMonitorTrip m mv) s = .next (settle t) := by
  change execVoltageMonitorTrip m mv s = _
  unfold execVoltageMonitorTrip
  rw [hr]
  exact Laws.run_next _ hr ht

theorem allBelow_readings (vals : List (BitVec 16)) (t : Int) :
    allBelow (vals.map fun v => BitVec.ofNat 32 (2 ^ 31 + v.toNat)) t = vals.all fun v => decide (v.toInt < t) := by
  unfold allBelow
  rw [List.all_map]
  exact congrArg vals.all (funext fun v => by rw [Function.comp_apply, reading_signed])

theorem temperature_eq (vals : List (BitVec 16)) (s : State) {s1 : State}
    (h1 : passNs s (50000 - (s.clk.ns - s.rst.releaseAt) % 50000) = s1) :
    temperature vals s = (let new : List Word := vals.map fun v => BitVec.ofNat 32 (2 ^ 31 + v.toNat)
      let s2 := { s1 with mgt := { s1.mgt with temps := new } }
      let two := fun (t : Int) => reached s1.mgt.temps new t
      let below := fun (t : Int) => vals.all fun v => decide (v.toInt < t)
      let s3 := if two 1840 then onset { b := bMGT, src := 3 } s2 else if below 1760 then causeEnds bMGT 3 s2 else s2
      if two 2000 then onset { b := bMGT, src := 4 } s3 else if below 2000 then causeEnds bMGT 4 s3 else s3) := by
  subst h1
  simp only [temperature, allBelow_readings]

theorem temperature_exec (vals : List (BitVec 16)) (s : State) (hr : s.rst.inReset = false) (h : vals.length = 24) {t : State}
    (ht : temperature vals s = t) : exec (.temperatureSample vals) s = .next (settle t) := by
  change execTemperatureSample vals s = _
  unfold execTemperatureSample
  rw [if_pos h]
  exact Laws.run_next _ hr ht

/-! ### Lockstep -/

theorem whoOn_run (s : State) (c : Nat) {r : Run} (h : (coreAt s c).st.run = some r) :
    whoOn s c = if r.lc then .lcCmd r.part else .beCmd c := by
  simp only [whoOn, h]

theorem whoOn_idle (s : State) (c : Nat) (h : (coreAt s c).st.run = none) : whoOn s c = .core c := by
  simp only [whoOn, h]

theorem lockstep_swatch (c : Nat) (s : State) (hp : present s c = true) (hi : inService s (dCore c) = true) {t : Nat}
    (h : (coreAt s c).st.swatchAt = some t) :
    lockstep c s = swatchFailed c 2 [{ b := bCC c, src := 10, who := .core c }] (swatchOver c (s.clk.cyc - t) s) := by
  simp only [lockstep, hp, hi, h, Bool.not_true, Bool.or_self, Bool.false_eq_true, if_false]

theorem lockstep_idle (c : Nat) (s : State) (hp : present s c = true) (hi : inService s (dCore c) = true)
    (h : (coreAt s c).st.swatchAt = none) (hn : (coreAt s c).st.run = none) :
    lockstep c s = fire { b := bCC c, src := 10, who := .core c } s := by
  simp only [lockstep, hp, hi, h, hn, whoOn_idle s c hn, Bool.not_true, Bool.or_self, Bool.false_eq_true, if_false]

theorem lockstep_run (c : Nat) (s : State) (hp : present s c = true) (hi : inService s (dCore c) = true)
    (h : (coreAt s c).st.swatchAt = none) {r : Run} (hn : (coreAt s c).st.run = some r) {s1 : State}
    (h1 : fire { b := bCC c, src := 10, who := if r.lc then .lcCmd r.part else .beCmd c } s = s1) :
    lockstep c s = endRun c 0x40 0 (if r.lc then voidParts [r.part] s1 else s1) := by
  subst h1
  simp only [lockstep, hp, hi, h, hn, whoOn_run s c hn, Bool.not_true, Bool.or_self, Bool.false_eq_true, if_false]

/-- Settles O51: each monitor by the branch that its reading chooses. -/
theorem monitors : Obligations.Monitors := by
  unfold Obligations.Monitors
  refine ⟨fun bad s hr => Laws.run_next _ hr (paritySweep_eq bad s), ?readback, ?volt, ?clock, ?temp, ?lock, fun s hr => Laws.run_next _ hr rfl⟩
  case readback =>
    intro upset s hr ha hd
    refine ⟨fun h => Laws.run_next _ hr (cfgReadback_early _ s h), ?_⟩
    intro h s0 s1
    obtain ⟨hsome, hnone⟩ := cfgReadback_due (upset.map BitVec.toNat) s ha hd h (rfl : _ = s0) (rfl : _ = s1)
    refine Laws.run_next _ hr ?_
    split
    · next o ho => exact hsome o ho
    · next ho => exact hnone ho
  case volt =>
    intro m mv s hr s1
    exact ⟨fun h => voltageMonitor_exec m mv s hr (voltage_out m mv s h), fun hlo hhi => voltageMonitor_exec m mv s hr (voltage_in m mv s hlo hhi)⟩
  case clock =>
    intro good s hr
    refine ⟨Laws.run_next _ hr ?_, Laws.run_next _ hr rfl⟩
    cases good <;> rfl
  case temp =>
    intro vals s hr h s1 new s2 two below s3
    exact temperature_exec vals s hr h (temperature_eq vals s (rfl : _ = s1))
  case lock =>
    intro c s hr hp hi
    refine ⟨fun t h => Laws.run_next _ hr (lockstep_swatch c s hp hi h), fun h hn => Laws.run_next _ hr (lockstep_idle c s hp hi h hn), ?_⟩
    intro r h hn s1
    exact Laws.run_next _ hr (lockstep_run c s hp hi h hn (rfl : _ = s1))

end Sys2Proof.Proofs
end

section
/-!
PROOFS. Chapter 14: a port trains, the ordered sets SYNC, SKIP and IDENT, and flits with their replay.
-/
namespace Sys2Proof.Proofs
open Sys2Proof Sys2Proof.Machine

theorem portUp_iff {s : State} {p : Nat} (h : PortUp s p) : portUp s p = true := by
  obtain ⟨-, hu, hl⟩ := h
  rw [portUp, hu, hl]
  rfl

/-- A changed port, read. -/
theorem portAt_modPort (s : State) (p : Nat) (f : Port → Port) (h : p < s.hrn.ports.length) :
    portAt (modPort s p f) p = f (portAt s p) :=
  Laws.getD_upd_same ({} : Port) s.hrn.ports p f h

/-! ### Training -/

theorem linkTrained_down (p : Nat) (inv : BitVec 8) (rev : Bool) (s : State) (hu : (portAt s p).up = false) (hl : portLive s p = true) :
    linkTrained p inv rev s = causeEnds (bHRN p) 2 (modPort s p fun k => k.trained inv rev (portCredits s p) s.clk.ns) := by
  simp only [linkTrained, hu, hl, Bool.not_true, Bool.or_self, Bool.false_eq_true, if_false]

theorem seqs_of_numbered {l : List TxFlit} (h : ∀ (i : Nat) (f : TxFlit), l[i]? = some f → f.seq = i) : List.range l.length = l.map TxFlit.seq := by
  apply List.ext_getElem
  · simp
  · intro i h1 h2
    rw [List.getElem_range, List.getElem_map]
    exact (h i _ (List.getElem?_eq_getElem (by simpa using h2))).symm

/-- R344, R348: what a port holds when it has trained. -/
theorem trained_holds (k : Port) (inv : BitVec 8) (rev : Bool) (cr : Nat × Nat) (now : Nat) :
    let t := k.trained inv rev cr now
    t.up = true ∧ t.retraining = false ∧ t.failed = 0 ∧ t.rxSeq = 0 ∧ t.txSeq = k.replay.length ∧ t.txSlot = 0 ∧ t.upAt = now ∧
      t.redo = t.replay.map TxFlit.seq ∧ t.pend15 = OSet.sync :: k.sides.map (fun x => OSet.body x.body) ∧
      t.replay.map TxFlit.payload = k.replay.map TxFlit.payload ∧ ∀ (i : Nat) (f : TxFlit), t.replay[i]? = some f → f.seq = i := by
  intro t
  have hnum : ∀ (i : Nat) (f : TxFlit), t.replay[i]? = some f → f.seq = i := by
    intro i f hf
    simp only [t, Port.trained, List.getElem?_mapIdx, Option.map_eq_some_iff] at hf
    obtain ⟨a, -, rfl⟩ := hf
    rfl
  have hlen : t.replay.length = k.replay.length := by simp [t, Port.trained]
  refine ⟨rfl, rfl, rfl, rfl, rfl, rfl, rfl, ?_, rfl, ?_, hnum⟩
  · rw [← seqs_of_numbered hnum, hlen]
    rfl
  · simp only [t, Port.trained]
    apply List.ext_getElem?
    intro i
    simp only [List.getElem?_map, List.getElem?_mapIdx, Option.map_map]
    rfl

theorem trainingTimeout_down (p : Nat) (s : State) (hu : (portAt s p).up = false) (hl : portLive s p = true) {s1 : State}
    (h1 : passNs s ((portAt s p).trainAt + 1000000 - s.clk.ns) = s1) :
    trainingTimeout p s = (let n := if (portAt s p).retraining then min 3 ((portAt s p).failed + 1) else (portAt s p).failed
      let s2 := modPort s1 p fun k => { k with trainAt := s1.clk.ns, failed := n, down := k.down || n == 3 }
      if n = 3 then onset { b := bHRN p, src := 2 } s2 else s2) := by
  subst h1
  simp only [trainingTimeout, hu, hl, Bool.not_true, Bool.or_self, Bool.false_eq_true, if_false]

theorem farEndReset_live (p : Nat) (s : State) (hl : portLive s p = true) :
    farEndReset p s = modPort s p fun k => { k with up := false, retraining := false, failed := 0, trainAt := s.clk.ns } := by
  simp only [farEndReset, hl, if_true]

/-! ### SYNC, SKIP, IDENT -/

theorem syncIn_other (p : Nat) (t1 t3 t4 : Word) (half : Bool) (s : State) (hp : portUp s p = true)
    (h : p ≠ s.time.upPort ∨ 20000 < (halfNs s half - t3).toNat) :
    syncIn p t1 t3 t4 half s = modPort s p fun k => { k with echo := (t1, halfNs s half) } := by
  simp only [syncIn, hp, Bool.not_true, Bool.false_eq_true, if_false]
  rw [if_pos]
  rw [Bool.or_eq_true, decide_eq_true_eq, decide_eq_true_eq]
  exact h

theorem syncIn_measures (p : Nat) (t1 t3 t4 : Word) (half : Bool) (s : State) (hp : portUp s p = true) (hu : p = s.time.upPort)
    (h : (halfNs s half - t3).toNat ≤ 20000) :
    syncIn p t1 t3 t4 half s = (let t2 := halfNs s half
      let s2 := modPort (modPort s p fun k => { k with echo := (t1, t2) }) p fun k => { k with delay := fld (t2 - t1 + (t4 - t3)) 15 0 }
      if s.time.mode = 4 then Machine.measure (rneDiv ((t4 - t3).toInt - (t2 - t1).toInt) 4) s2 else s2) := by
  simp only [syncIn, hp, Bool.not_true, Bool.false_eq_true, if_false]
  rw [if_neg]
  · rfl
  · rw [Bool.or_eq_true, decide_eq_true_eq, decide_eq_true_eq]
    rintro (hn | hn)
    · exact hn hu
    · omega

theorem sendIdents_inUse (s : State) (h : s.glb.patState = 3 ∨ s.glb.patState = 4) :
    (if patInUse s then sendIdents s else s) = (upPorts s).foldl (fun s p => slot15 p [identBody s p] s) s := by
  have hu : patInUse s = true := by
    rw [patInUse, Bool.or_eq_true, beq_iff_eq, beq_iff_eq]
    exact h
  rw [if_pos hu]
  rfl

/-- R345: what slot 15 carries, and what goes on waiting. -/
theorem sendSets_port (p n : Nat) (s : State) (hp : p < s.hrn.ports.length) :
    let k := portAt (sendSets p n s) p
    k.sent15.length ≤ 16 ∧ (skipSlot n = true → k.sent15.getLast? = some skipBody ∧ k.pend15 = (portAt s p).pend15.drop 15) ∧
      (skipSlot n = false → k.pend15 = (portAt s p).pend15.drop 16) := by
  intro k
  have hk := portAt_modPort s p (fun k =>
    { k with
      sent15 := (((portAt s p).pend15.take (if skipSlot n then 15 else 16)).map fun (x : OSet) =>
        match x with | .body b => b | .sync => syncBody s p n) ++ (if skipSlot n then [skipBody] else [])
      pend15 := k.pend15.drop (if skipSlot n then 15 else 16) }) hp
  change k = _ at hk
  rw [hk]
  cases hs : skipSlot n
  · refine ⟨?_, fun h => absurd h Bool.false_ne_true, fun _ => rfl⟩
    simp
  · refine ⟨?_, fun _ => ⟨?_, rfl⟩, fun h => absurd h.symm Bool.false_ne_true⟩
    · simp
    · simp

theorem identIn_eq (p dev gm1 : Nat) (tag : Word) (s : State) (hp : portUp s p = true) :
    identIn p dev gm1 tag s = (let ok := patInUse s && identMatches s p dev gm1 tag
      let s1 := modPeer (modPort s p fun k => { k with
        peer := dev % 8
        identOk := ok
        identOf := some (gm1, tag)
        stopped := if patInUse s then !ok else k.stopped }) dev fun x => { x with known := true }
      if !patInUse s then s1 else if ok then causeEnds (bHRN p) 7 s1 else onset { b := bHRN p, src := 7 } s1) := by
  simp only [identIn, hp, Bool.not_true, Bool.false_eq_true, if_false]

/-- Settles O52: the port's training and its ordered sets, each by its own equation. -/
theorem linksTrainAndMeasure : Obligations.LinksTrainAndMeasure := by
  unfold Obligations.LinksTrainAndMeasure
  refine ⟨⟨fun p inv rev s hr hu hl => Laws.run_next _ hr (linkTrained_down p inv rev s hu hl), trained_holds, ?timeout,
    fun p s hs hl => Laws.run_keep _ hs (farEndReset_live p s hl) rfl rfl rfl⟩, ?sync, fun s hr => Laws.run_next _ hr rfl, ?send, fun p => sendSets_port p,
    fun p s hs => Laws.run_keep _ hs rfl rfl rfl rfl, ?ident⟩
  case timeout => intro p s hr hu hl k s1 n s2; exact Laws.run_next _ hr (trainingTimeout_down p s hu hl (rfl : _ = s1))
  case sync =>
    intro p t1 t3 t4 half s hp t2 s1
    refine ⟨fun h => Laws.run_next _ hp.1 (syncIn_other p t1 t3 t4 half s (portUp_iff hp) h), ?_⟩
    intro hu h s2
    exact Laws.run_next _ hp.1 (syncIn_measures p t1 t3 t4 half s (portUp_iff hp) hu h)
  case send =>
    intro s hr h
    exact Laws.run_next (fun s => if patInUse s then sendIdents s else s) hr (sendIdents_inUse s h)
  case ident =>
    intro p dev gm1 far tag s hp ok s1
    have heq := identIn_eq p dev.toNat gm1.toNat tag s (portUp_iff hp)
    refine ⟨fun h => Laws.run_next _ hp.1 (heq.trans ?_), fun h hok => Laws.run_next _ hp.1 (heq.trans ?_),
      fun h hok => Laws.run_next _ hp.1 (heq.trans ?_)⟩
    · exact if_pos (by rw [h]; rfl)
    · exact (if_neg (by rw [h]; exact Bool.false_ne_true)).trans (if_pos hok)
    · exact (if_neg (by rw [h]; exact Bool.false_ne_true)).trans (if_neg (ne_true_of_eq_false hok))

/-! ### Flits -/

theorem flitReceive_exec (p : Fin 4) (flit : List Byte) (s : State) (hr : s.rst.inReset = false) (hl : flit.length = 256) {t : State}
    (ht : flitIn p flit s = t) : exec (.flitReceive p flit) s = .next (settle t) := by
  change execFlitReceive p flit s = _
  unfold execFlitReceive
  rw [if_pos hl]
  exact Laws.run_next _ hr ht

theorem flitReceive_illFormed (p : Fin 4) (flit : List Byte) (s : State) (hl : flit.length ≠ 256) :
    ∃ w, exec (.flitReceive p flit) s = .fault (.illFormed w) :=
  ⟨_, if_neg hl⟩

theorem flitIn_badCrc (p : Nat) (flit : List Byte) (s : State) (hp : portUp s p = true)
    (h : (crc32c (flit.take 248)).toNat ≠ leAt flit 248 4) :
    flitIn p flit s = fire { b := bHRN p, src := 0 } (modPort s p fun k => { k with nakDue := true }) := by
  simp only [flitIn, hp, Bool.not_true, Bool.false_eq_true, if_false, ne_eq, h, not_false_eq_true, if_true]

/-- R347, R349: a flit whose CRC is right; s1 is the port with its acknowledgement, credits and NAK counted. -/
theorem flitIn_goodCrc (p : Nat) (flit : List Byte) (s : State) (hp : portUp s p = true)
    (h : (crc32c (flit.take 248)).toNat = leAt flit 248 4) {w : Nat} (hw : leAt flit 0 8 = w) {s1 : State}
    (h1 : flitControl p (bitsAt w 12 12) (bitsAt w 32 8) (bitsAt w 40 8) (w.testBit 24) s = s1) :
    flitIn p flit s = (let vc := bitsAt w 25 2
      let ahead := (bitsAt w 0 12 + 4096 - (portAt s1 p).rxSeq) % 4096
      if 2 ≤ vc then s1
      else if ahead = 0 then flitPayloadIn p vc (slice flit 8 240) s1
      else if ahead < 2048 then modPort s1 p fun k => { k with nakDue := true }
      else s1) := by
  subst hw h1
  simp only [flitIn, hp, Bool.not_true, Bool.false_eq_true, if_false, ne_eq, h, not_true_eq_false]

theorem flitTimeout_waits (p : Nat) (s : State) (hp : portUp s p = true) {f : TxFlit} {fs : List TxFlit} (h : (portAt s p).replay = f :: fs) :
    flitTimeout p s = resendAll p (passNs s (f.sentAt + 1000 - s.clk.ns)) := by
  simp only [flitTimeout, hp, h, Bool.not_true, Bool.false_eq_true, if_false]

/-- The flit of SEQ q is sent again at a time, once more. -/
def sentAgain (q at_ : Nat) (f : TxFlit) : TxFlit := if f.seq = q then { f with sentAt := at_, resends := f.resends + 1 } else f

/-- The port whose flit of SEQ q has been sent again; `rest` is what is still to be sent. -/
def Port.resent (k : Port) (q at_ : Nat) (rest : List Nat) : Port :=
  let k1 := match k.replay.find? fun f => f.seq == q with
    | some f => k.sentFlit (k.flit q f.vc f.payload)
    | none => k
  { k1 with redo := rest, replay := k.replay.map (sentAgain q at_), replays := satAdd 0xFFFFFFFF k.replays 1 }

theorem resent_up (k : Port) (q at_ : Nat) (rest : List Nat) : (Port.resent k q at_ rest).up = k.up := by
  unfold Port.resent
  dsimp only
  split <;> rfl

theorem lifeAdd_hrn (off w n : Nat) (s : State) : (lifeAdd off w n s).hrn = s.hrn := by
  unfold lifeAdd
  split <;> rfl

/-- A flit sent again for the eighth time is one that had been sent again seven times. -/
theorem sentAgain_eighth (q at_ : Nat) (f : TxFlit) :
    ((sentAgain q at_ f).seq == q && decide (8 ≤ (sentAgain q at_ f).resends)) = (f.seq == q && decide (7 ≤ f.resends)) := by
  unfold sentAgain
  split
  · next h => simp [h]
  · next h => rw [beq_false_of_ne h, Bool.false_and, Bool.false_and]

/-- R347, R348: the flit that is next in turn is sent again. -/
theorem resendFlit_next (p n : Nat) (s : State) (q : Nat) (rest : List Nat) (hp : p < s.hrn.ports.length) (h : (portAt s p).redo = q :: rest) :
    ∃ s1, portAt s1 p = Port.resent (portAt s p) q n rest ∧
      resendFlit p n s = if (portAt s p).replay.any fun f => f.seq == q && decide (7 ≤ f.resends) then
        fire { b := bHRN p, src := 1 } (retrain p s1) else s1 := by
  have hport : portAt (lifeAdd (504 + 8 * p) 8 1 (countTx p (modPort s p fun k => Port.resent k q n rest))) p =
      Port.resent (portAt s p) q n rest := by
    unfold portAt
    rw [lifeAdd_hrn]
    exact portAt_modPort s p _ hp
  refine ⟨_, hport, ?_⟩
  have hany : (Port.resent (portAt s p) q n rest).replay.any (fun f => f.seq == q && decide (8 ≤ f.resends)) =
      (portAt s p).replay.any fun f => f.seq == q && decide (7 ≤ f.resends) := by
    unfold Port.resent
    rw [List.any_map]
    exact congrArg (portAt s p).replay.any (funext (sentAgain_eighth q n))
  rw [← hany, ← hport]
  unfold resendFlit
  rw [h]
  rfl

/-- Settles O53: what a flit's CRC, SEQ and VC choose, and the flits that are sent again. -/
theorem flits : Obligations.Flits := by
  unfold Obligations.Flits
  refine ⟨flitReceive_illFormed, ?receive, ?timeout, ?resend⟩
  case receive =>
    intro p flit s hp hl
    refine ⟨fun h => flitReceive_exec p flit s hp.1 hl (flitIn_badCrc p flit s (portUp_iff hp) h), ?_⟩
    intro hcrc w vc s1 ahead
    have heq := flitIn_goodCrc p flit s (portUp_iff hp) hcrc (rfl : _ = w) (rfl : _ = s1)
    refine ⟨fun h => flitReceive_exec p flit s hp.1 hl (heq.trans ?dropped), fun hv ha => flitReceive_exec p flit s hp.1 hl (heq.trans ?taken),
      fun hv h0 h1 => flitReceive_exec p flit s hp.1 hl (heq.trans ?ahead)⟩
    case taken => exact (if_neg (Nat.not_le.mpr hv)).trans (if_pos ha)
    case ahead => exact (if_neg (Nat.not_le.mpr hv)).trans ((if_neg (Nat.ne_of_gt h0)).trans (if_pos h1))
    case dropped =>
      by_cases hv : 2 ≤ vc
      · exact if_pos hv
      · have hbig : 2048 ≤ ahead := h.resolve_left hv
        exact (if_neg hv).trans ((if_neg (by omega)).trans (if_neg (Nat.not_lt.mpr hbig)))
  case timeout => intro p s f fs hp h s1; exact Laws.run_next _ hp.1 (flitTimeout_waits p s (portUp_iff hp) h)
  case resend =>
    intro p n s q rest hp h
    obtain ⟨s1, hport, heq⟩ := resendFlit_next p n s q rest hp h
    refine ⟨s1, ?_, ?_, ?_, heq⟩
    · rw [hport]; rfl
    · rw [hport]; rfl
    · rw [hport]; exact resent_up ..

end Sys2Proof.Proofs
end

section
/-!
PROOFS. Chapters 8, 14 and 17: messages between devices, and the side channel.
-/
namespace Sys2Proof.Proofs
open Sys2Proof Sys2Proof.Machine

/-! ### Messages -/

theorem oneMessage_in (p ty : Nat) (hdr : BitVec 128) (data : List Byte) (s : State) (hp : PortUp s p) (hs : (portAt s p).stopped = false) :
    oneMessage p ty hdr data s = messageIn p { msgOf hdr with ty := ty } data s := by
  have h : portIn s p = true := by rw [portIn, portUp_iff hp, hs]; rfl
  simp only [oneMessage, h, if_true]

theorem messageIn_forward (p : Nat) (m : Msg) (data : List Byte) (s : State) (h : m.dst ≠ devId s) :
    messageIn p m data s = (if (sendMsg m data (some p) .none s).2 = false ∧ m.ty ≤ 2
      then respond m 5 false [] (sendMsg m data (some p) .none s).1 else (sendMsg m data (some p) .none s).1) := by
  simp only [messageIn, h, ne_eq, not_false_eq_true, if_true, forward, Bool.and_eq_true, Bool.not_eq_true', decide_eq_true_eq]

theorem messageIn_request (p : Nat) (m : Msg) (data : List Byte) (s : State) (h : m.dst = devId s) (ht : m.ty ≤ 2) :
    messageIn p m data s = requestIn p m data s := by
  simp only [messageIn, h, ne_eq, not_true_eq_false, if_false, ht, if_true]

theorem messageIn_response (p : Nat) (m : Msg) (data : List Byte) (s : State) (h : m.dst = devId s) (ht : 3 ≤ m.ty) :
    messageIn p m data s = responseIn p m data s := by
  have hn : ¬m.ty ≤ 2 := by omega
  simp only [messageIn, h, ne_eq, not_true_eq_false, if_false, hn]

theorem responseIn_noEntry (p : Nat) (m : Msg) (data : List Byte) (s : State) (h : answers s p m = none) :
    responseIn p m data s = fire { b := bDRU, src := 2, det := BitVec.ofNat 32 (dHRN p) } s := by
  simp only [responseIn, h]

theorem requestIn_old (p : Nat) (m : Msg) (data : List Byte) (s : State) (h : (peerAt s m.src).tooOld m.rid = true) :
    requestIn p m data s = fire { b := bHRN p, src := 5 } s := by
  simp only [requestIn, h, if_true]

theorem requestIn_again (p : Nat) (m : Msg) (data : List Byte) (s : State) (h : (peerAt s m.src).tooOld m.rid = false) (ht : m.ty = 2)
    {s1 : State} (h1 : modPeer s m.src (fun k => k.sawRid m.rid) = s1) (hx : m.rid ∈ (peerAt s1 m.src).executed) :
    requestIn p m data s = respond m 4 false [] (fire { b := bHRN p, src := 5 } s1) := by
  subst h1
  have hn : ¬m.ty = 1 := by omega
  simp only [requestIn, h, Bool.false_eq_true, if_false, hn, List.contains_iff_mem.mpr hx, if_true]

/-- R351, R354: a request of a new identifier is served: s1 is the state with the identifier recorded. -/
theorem requestIn_new (p : Nat) (m : Msg) (data : List Byte) (s : State) (h : (peerAt s m.src).tooOld m.rid = false)
    (ht : m.ty = 1 ∨ m.ty = 2) {s1 : State} (h1 : modPeer s m.src (fun k => k.sawRid m.rid) = s1)
    (hx : m.ty = 2 → m.rid ∉ (peerAt s1 m.src).executed) :
    requestIn p m data s = if m.ty = 1 then serveRead m s1 else serveWrite m data s1 := by
  subst h1
  rcases ht with ht | ht
  · simp only [requestIn, h, Bool.false_eq_true, if_false, ht, if_true]
  · have hn : ¬m.ty = 1 := by omega
    have hc : (peerAt (modPeer s m.src fun k => k.sawRid m.rid) m.src).executed.contains m.rid = false := by
      rw [← Bool.not_eq_true, List.contains_iff_mem]; exact hx ht
    simp only [requestIn, h, Bool.false_eq_true, if_false, hn, hc]

/-- A request that is neither served nor permitted is answered the same whether it reads or writes. -/
theorem serve_denied (m : Msg) (data : List Byte) (s : State) (h : cannotServe s m = true) :
    serveRead m s = respond m 5 false [] s ∧ serveWrite m data s = respond m 5 false [] s := by
  simp only [serveRead, serveWrite, h, if_true, and_self]

theorem serve_refused (m : Msg) (data : List Byte) (s : State) (h : cannotServe s m = false) (hw : windowOk s m = false) :
    serveRead m s = refuse m s ∧ serveWrite m data s = refuse m s := by
  simp only [serveRead, serveWrite, h, hw, Bool.not_false, Bool.false_eq_true, if_false, if_true, and_self]

theorem serveRead_done (m : Msg) (s : State) (h : cannotServe s m = false) (hw : windowOk s m = true) :
    serveRead m s = respond m 3 (poisoned s (msgMem m) m.addr m.len) ((memOf s (msgMem m)).rdN m.addr m.len)
      (lcAccess m (readRun (msgMem m) none m.addr m.len s)) := by
  simp only [serveRead, h, hw, Bool.not_true, Bool.false_eq_true, if_false]

theorem serveWrite_done (m : Msg) (data : List Byte) (s : State) (h : cannotServe s m = false) (hw : windowOk s m = true) :
    serveWrite m data s = (let s2 := lcAccess m (writeRun (msgMem m) none m.addr data s)
      respond m 4 false [] (modPeer s2 m.src fun p => { p with executed := addNew p.executed m.rid })) := by
  simp only [serveWrite, h, hw, Bool.not_true, Bool.false_eq_true, if_false]

theorem abandonReq_found (dev rid : Nat) (s : State) {q : RemReq} (h : findReq s dev rid = some q) :
    abandonReq dev rid s = denyReq dev q (passNs s (q.sentAt + 20000 - s.clk.ns)) := by
  simp only [abandonReq, h]

theorem latencyMiss_found (dev rid : Nat) (s : State) {q : RemReq} (h : findReq s dev rid = some q) (hl : q.lc = true) (hm : q.missed = false)
    (ha : reqAlive s q = true) :
    latencyMiss dev rid s = fire { b := bHRN (routePort s dev), src := 3, who := whoOn s q.core }
      (modPeer (passToCyc s (q.due + 1)) dev fun p =>
        { p with out := p.out.map fun x => if x.rid = rid then { x with missed := true } else x }) := by
  simp only [latencyMiss, h, hl, hm, ha, Bool.not_true, Bool.or_self, Bool.false_eq_true, if_false]

/-- Settles O54: which message a port takes in, and what each kind of request or response makes the device do. -/
theorem remoteMessages : Obligations.RemoteMessages := by
  unfold Obligations.RemoteMessages
  refine ⟨?rows, messageIn_forward, ?request, fun p m data s hd ht ha => (messageIn_response p m data s hd ht).trans (responseIn_noEntry p m data s ha),
    fun dev rid s q hr h => ⟨Laws.run_next _ hr (abandonReq_found dev rid.toNat s h),
      fun hl hm ha => Laws.run_next _ hr (latencyMiss_found dev rid.toNat s h hl hm ha)⟩⟩
  case rows =>
    intro p hdr data s hp hs m
    have hrun := fun ty d => Laws.run_next _ hp.1 (oneMessage_in p ty hdr d s hp hs)
    exact ⟨hrun 1 [], fun hl => (if_pos hl).trans (hrun 2 data), fun hl => (if_pos hl).trans (hrun 3 data), fun hl => ⟨_, if_neg hl⟩,
      fun hl => ⟨_, if_neg hl⟩, hrun 4 [], hrun 5 []⟩
  case request =>
    intro p m data s hd ht s1
    have hreq := messageIn_request p m data s hd (by omega)
    refine ⟨fun h => hreq.trans (requestIn_old p m data s h), fun h h2 hx => hreq.trans (requestIn_again p m data s h h2 (rfl : _ = s1) hx), ?_⟩
    intro h hx
    have hnew := hreq.trans (requestIn_new p m data s h ht (rfl : _ = s1) hx)
    refine ⟨fun hc => hnew.trans ?denied, fun hc hw => hnew.trans ?refused, fun hc hw h1 => hnew.trans ?read, ?write⟩
    case denied =>
      obtain ⟨hread, hwrite⟩ := serve_denied m data s1 hc
      rw [hread, hwrite, ite_self]
    case refused =>
      obtain ⟨hread, hwrite⟩ := serve_refused m data s1 hc hw
      rw [hread, hwrite, ite_self]
    case read => exact (if_pos h1).trans (serveRead_done m s1 hc hw)
    case write =>
      intro hc hw h2 s2
      exact hnew.trans ((if_neg (by omega)).trans (serveWrite_done m data s1 hc hw))

/-! ### The side channel -/

theorem sideIn_reserved (p kind : Nat) (body : BitVec 128) (s : State) (hp : PortUp s p) (hg : sideGood body = true) (h3 : fld body 7 0 = 3)
    (hk : fld body 23 16 = 0 ∨ 6 ≤ fld body 23 16) : sideIn p kind body s = slot15 p [ackBody body] s := by
  simp only [sideIn, portUp_iff hp, hg, h3, bne_self_eq_false, Bool.not_true, Bool.or_self, Bool.false_eq_true, if_false, hk, if_true]

/-- R361: a SIDE of the kind that its row names, s1 being the port with the acknowledgement queued. -/
theorem sideIn_kind (p kind : Nat) (body : BitVec 128) (s : State) (hp : PortUp s p) (hg : sideGood body = true) (h3 : fld body 7 0 = 3)
    (hk : fld body 23 16 = kind) (h1 : 1 ≤ kind) (h5 : kind ≤ 5) {s1 : State} (hs1 : slot15 p [ackBody body] s = s1) :
    sideIn p kind body s = (let x := fld body 10 8
      let m := fld body 63 48
      if s1.hrn.seen.contains (x, m) then s1
      else
        let s2 := logSide body { s1 with hrn := { s1.hrn with seen := markSeen x m s1.hrn.seen } }
        let s3 := modPeer s2 x fun k => k.heard kind (fld body 31 24) (fld body 39 32) m
        let s4 := forwardSide p body s3
        if x = devId s then s4 else sideAct kind x (fld body 31 24) (fld body 111 64) s4) := by
  subst hs1 hk
  have hn : ¬(fld body 23 16 = 0 ∨ 6 ≤ fld body 23 16) := by omega
  simp only [sideIn, portUp_iff hp, hg, h3, bne_self_eq_false, Bool.not_true, Bool.or_self, Bool.false_eq_true, if_false, if_neg hn, ne_eq,
    not_true_eq_false]

theorem sideAct_fence (x dom k : Nat) (s : State) :
    sideAct 1 x dom k s = if dom = dFST ∨ dom = dDRC then fencePeer x (fun p => { p with fences := addNew p.fences dom }) s else s := by
  simp only [sideAct, fencing, Bool.or_eq_true, beq_iff_eq]

theorem sideAckIn_up (p o m : Nat) (s : State) (hp : PortUp s p) :
    sideAckIn p o m s = modPort s p fun k => { k with sides := k.sides.filter fun x => fld x.body 10 8 != o || fld x.body 63 48 != m } := by
  simp only [sideAckIn, portUp_iff hp, if_true]

theorem sideTimeout_waits (p : Nat) (s : State) (hp : PortUp s p) {x : SideOut} {rest : List SideOut} (h : (portAt s p).sides = x :: rest)
    {s1 : State} (h1 : passNs s (x.sentAt + 500 - s.clk.ns) = s1) :
    sideTimeout p s =
      if 8 ≤ x.resends then fire { b := bHRN p, src := 8 } (retrain p (modPort s1 p fun k => { k with sides := { x with resends := 0 } :: rest }))
      else slot15 p [x.body] (modPort s1 p fun k => { k with sides := rest ++ [{ x with sentAt := s1.clk.ns, resends := x.resends + 1 }] }) := by
  subst h1
  simp only [sideTimeout, portUp_iff hp, h, Bool.not_true, Bool.false_eq_true, if_false]

/-- Settles O55: a SIDE is acknowledged, passed on and acted on once; its own acknowledgement and resending. -/
theorem sideChannel : Obligations.SideChannel := by
  unfold Obligations.SideChannel
  refine ⟨fun p kind body s hp hg h3 hk => Laws.run_next _ hp.1 (sideIn_reserved p kind body s hp hg h3 hk),
    fun p body s => ⟨rfl, rfl, rfl, rfl, rfl⟩, ?side, fun x dom k s => ⟨sideAct_fence x dom k s, rfl, rfl, rfl, rfl⟩,
    fun p o m s hs hp => Laws.run_keep _ hs (sideAckIn_up p o m.toNat s hp) rfl rfl rfl, ?resend⟩
  case side =>
    intro p kind body s hp hg h3 hk h1 h5 x m s1 s2 s3
    have heq := sideIn_kind p kind body s hp hg h3 hk h1 h5 (rfl : _ = s1)
    exact ⟨fun hx => Laws.run_next _ hp.1 (heq.trans (if_pos (List.contains_iff_mem.mpr hx))),
      fun hx => Laws.run_next _ hp.1 (heq.trans (if_neg (fun hc => hx (List.contains_iff_mem.mp hc))))⟩
  case resend => intro p s x rest hp h s1; exact Laws.run_next _ hp.1 (sideTimeout_waits p s hp h (rfl : _ = s1))

end Sys2Proof.Proofs
end

section
/-!
PROOFS. Chapter 20: the memory windows and the PCI Express endpoint.
-/
namespace Sys2Proof.Proofs
open Sys2Proof Sys2Proof.Machine

/-! ### The memory windows -/

theorem bar2_readRefused (a n : Nat) (noc : Option NocErr) (s : State) (hh : hostReaches s = true) (h : bar2Refuses s a n = true) :
    bar2 (.read a n) noc s = answerUr s := by
  simp only [bar2, hh, h, Bool.not_true, Bool.false_eq_true, if_false, if_true]

theorem bar2_read (a n : Nat) (noc : Option NocErr) (s : State) (hh : hostReaches s = true) (h : bar2Refuses s a n = false) :
    bar2 (.read a n) noc s =
      hostRead (s.fst.mem.rdN a n) (poisoned s .fst a n) noc (if noc = some .control then s else readRun .fst none a n s) := by
  simp only [bar2, hh, h, Bool.not_true, Bool.false_eq_true, if_false]

theorem bar2_writeRefused (a : Nat) (d : List (Byte × Bool)) (noc : Option NocErr) (s : State) (hh : hostReaches s = true)
    (h : bar2Refuses s a d.length = true) : bar2 (.write a d) noc s = postedUr s := by
  simp only [bar2, hh, h, Bool.not_true, Bool.false_eq_true, if_false, if_true]

theorem bar2_write (a : Nat) (d : List (Byte × Bool)) (noc : Option NocErr) (s : State) (hh : hostReaches s = true)
    (h : bar2Refuses s a d.length = false) : bar2 (.write a d) noc s = hostWrite .fst (enabledCells a d) noc s := by
  simp only [bar2, hh, h, Bool.not_true, Bool.false_eq_true, if_false]

theorem bar4_readRefused (a n : Nat) (noc : Option NocErr) (s : State) (hh : hostReaches s = true) (h : bar4Refuses s a n = true) :
    bar4 (.read a n) noc s = answerUr s := by
  simp only [bar4, hh, h, Bool.not_true, Bool.false_eq_true, if_false, if_true]

theorem bar4_read (a n : Nat) (noc : Option NocErr) (s : State) (hh : hostReaches s = true) (h : bar4Refuses s a n = false) :
    bar4 (.read a n) noc s = bar4Read a n noc s := by
  simp only [bar4, hh, h, Bool.not_true, Bool.false_eq_true, if_false]

theorem bar4_writeRefused (a : Nat) (d : List (Byte × Bool)) (noc : Option NocErr) (s : State) (hh : hostReaches s = true)
    (h : bar4Refuses s a d.length = true) : bar4 (.write a d) noc s = postedUr s := by
  simp only [bar4, hh, h, Bool.not_true, Bool.false_eq_true, if_false, if_true]

theorem bar4_write (a : Nat) (d : List (Byte × Bool)) (noc : Option NocErr) (s : State) (hh : hostReaches s = true)
    (h : bar4Refuses s a d.length = false) :
    bar4 (.write a d) noc s = if ∃ c ∈ enabledCells a d, dramGenEnd s ≤ c.1 then fire { b := bPCI, src := 0 } s
      else hostWrite .dram (enabledCells a d) noc s := by
  simp only [bar4, hh, h, Bool.not_true, Bool.false_eq_true, if_false, List.any_eq_true, decide_eq_true_eq]

/-- Settles O56: a request through a window is refused, or served with what its parity error says. -/
theorem hostWindows : Obligations.HostWindows := by
  unfold Obligations.HostWindows
  refine ⟨?read, ?write⟩
  case read =>
    intro a n noc s hr hh ur
    refine ⟨fun h => Laws.run_next _ hr (bar2_readRefused a n noc s hh h), fun h => Laws.run_next _ hr (bar2_read a n none s hh h),
      fun h => Laws.run_next _ hr (bar2_read a n (some .data) s hh h),
      fun h => ⟨_, Laws.run_next _ hr (bar2_read a n (some .control) s hh h)⟩,
      fun h => Laws.run_next _ hr (bar4_readRefused a n noc s hh h), ?_⟩
    intro h k bs
    exact ⟨Laws.run_next _ hr (bar4_read a n none s hh h), Laws.run_next _ hr (bar4_read a n (some .data) s hh h),
      _, Laws.run_next _ hr (bar4_read a n (some .control) s hh h)⟩
  case write =>
    intro a d noc s hr hh cells ur stored
    have hstored : ∀ m, hostWrite m cells noc s = stored m := by
      intro m
      rcases noc with _ | _ | _ <;> rfl
    refine ⟨fun h => Laws.run_next _ hr (bar2_writeRefused a d noc s hh h),
      fun h => Laws.run_next _ hr ((bar2_write a d noc s hh h).trans (hstored .fst)),
      fun h => Laws.run_next _ hr (bar4_writeRefused a d noc s hh h),
      fun h hc => Laws.run_next _ hr ((bar4_write a d noc s hh h).trans (if_pos hc)),
      fun h hc => Laws.run_next _ hr ((bar4_write a d noc s hh h).trans ((if_neg ?_).trans (hstored .dram)))⟩
    rintro ⟨c, hm, hle⟩
    exact absurd (hc c hm) (Nat.not_lt.mpr hle)

/-! ### The endpoint -/

theorem configure_reaches (bme d3 en mask clr : Bool) (cfg : CfgSpace) (aer : AerSet) (s : State) (hh : hostReaches s = true) :
    configure bme d3 en mask cfg aer clr s = requestsFlow { s with pci := { s.pci with
      bme := bme, d3hot := d3, msixEn := en, msixMask := mask, configured := true
      cfg := keepCfg s cfg, aer := aer, urSeen := s.pci.urSeen && !clr } } := by
  simp only [configure, hh, if_true]

/-- R465: BAR2 is aligned to its size. -/
theorem keepCfg_bar2 (s : State) (cfg : CfgSpace) : (keepCfg s cfg).bar2.toNat % 2 ^ 26 = 0 := by
  have hb := cfg.bar2.isLt
  have h : (keepCfg s cfg).bar2 = BitVec.ofNat 64 (cfg.bar2.toNat / 2 ^ 26 * 2 ^ 26) := rfl
  rw [h, BitVec.toNat_ofNat]
  omega

theorem linkDown_active (s : State) (h : s.pci.dlActive = true) :
    linkDown s = onset { b := bPCI, src := 2 } { s with pci := { s.pci with dlActive := false, speed := 0, width := 0 } } := by
  simp only [linkDown, h, if_true]

theorem linkUp_runs (sp : BitVec 4) (w : BitVec 6) (s : State) (hi : inService s dPCI = true) (hl : linkRuns sp w = true) :
    linkUp sp w s = requestsFlow (causeEnds bPCI 2 { s with pci := { s.pci with dlActive := true, speed := sp, width := w } }) := by
  simp only [linkUp, hi, hl, Bool.and_self, if_true]

theorem completionTimeout_waits (r at_ : Nat) (s : State) (hw : wantsFetch s r = true) (h : at_ ≤ s.clk.ns) :
    completionTimeout r at_ s = fetchFailed r (passNs s (at_ + 10000000 - s.clk.ns)) := by
  simp only [completionTimeout, hw, decide_eq_false (Nat.not_lt.mpr h), Bool.not_true, Bool.or_self, Bool.false_eq_true, if_false]

theorem tlp_reaches (k : TlpKind) (s : State) (hh : hostReaches s = true) :
    tlp k s = match k with
      | .replayed => fire { b := bPCI, src := 1 } { s with pci := { s.pci with replays := min 0xFFFFFFFF (s.pci.replays + 1) } }
      | .poisonedWrite => fire { b := bPCI, src := 3 } s
      | .badCompletion r => fetchFailed r s := by
  unfold tlp
  rw [hh]
  rfl

theorem vectorDue_deferred (n : Nat) (s : State) {t : Nat} (hd : (ringAt s (ringOfNum n)).vecDue = true)
    (ht : (ringAt s (ringOfNum n)).vecAt = some t) :
    vectorDue n s = ringVector (ringOfNum n) (modRing (ringOfNum n) (fun k => { k with vecDue := false }) (passNs s (t + 2000 - s.clk.ns))) := by
  simp only [vectorDue, hd, ht, Bool.not_true, Bool.false_eq_true, if_false, Option.getD_some]

/-- Settles O57: each command of the endpoint by its own equation. -/
theorem pciEndpoint : Obligations.PciEndpoint := by
  unfold Obligations.PciEndpoint
  refine ⟨?hot, ?cfg, fun s hr h => Laws.run_next _ hr (linkDown_active s h), fun sp w s hr hi hl => Laws.run_next _ hr (linkUp_runs sp w s hi hl),
    ?completion, fun s hr hh => ⟨Laws.run_next _ hr (tlp_reaches .replayed s hh), Laws.run_next _ hr (tlp_reaches .poisonedWrite s hh)⟩,
    fun n s t hr hd ht => Laws.run_next _ hr (vectorDue_deferred n s hd ht)⟩
  case hot =>
    intro s hs hh
    exact Laws.run_keep (fun s => if hostReaches s then { s with pci := s.pci.hotReset } else s) hs (if_pos hh) rfl rfl rfl
  case cfg =>
    intro bme d3 en mask clr cfg aer s hr hh
    exact ⟨Laws.run_next _ hr (configure_reaches bme d3 en mask clr cfg aer s hh), keepCfg_bar2 s cfg⟩
  case completion =>
    intro r at_ s hr hw lost
    exact ⟨fun h => Laws.run_next _ hr (completionTimeout_waits r at_ s hw h), fun hh => Laws.run_next _ hr (tlp_reaches (.badCompletion r) s hh)⟩

end Sys2Proof.Proofs
end

section
/-!
PROOFS. Chapter 19: the mailbox and the lifetime record.
-/
namespace Sys2Proof.Proofs
open Sys2Proof Sys2Proof.Machine

/-! ### The mailbox -/

/-- The instruction of each code of Table 19.6. -/
def mailboxRows : List (Instr × Nat) :=
  [(.getInfo, 0x01), (.sensors, 0x02), (.lifetimeRead, 0x03), (.retainedRead, 0x04), (.attemptsClear, 0x05), (.fwWrite, 0x10),
    (.fwVerify, 0x11), (.fwActivate, 0x12), (.fwConfirm, 0x13), (.svnCommit, 0x14), (.lcAdvance, 0x20), (.keyProgram, 0x21), (.groupMap, 0x30),
    (.ptpStatus, 0x31), (.flashRead, 0x40)]

theorem exec_mailboxRow {c : Instr} {code : Nat} (h : (c, code) ∈ mailboxRows) (s : State) : exec c s = run s (mbxCommand code) := by
  have hall : ∀ x ∈ mailboxRows, exec x.1 s = run s (mbxCommand x.2) := by
    unfold mailboxRows
    simp only [List.forall_mem_cons]
    exact ⟨rfl, rfl, rfl, rfl, rfl, rfl, rfl, rfl, rfl, rfl, rfl, rfl, rfl, rfl, rfl, List.forall_mem_nil _⟩
  exact hall (c, code) h

/-- R450: how a command ends: in Minimal Recovery Mode with NOT_NOW where it is not offered, and with its body's state only when OK. -/
theorem mbxFinish_eq (offered : Bool) (body : State → State × Nat) (s : State) :
    mbxFinish offered body s = (let r := if s.rst.minimal && !offered then 2 else (body s).2
      let s2 := if r = 0 then (body s).1 else s
      mbxEnd r (if r = 6 then fire { b := bMGT, src := 8 } s2 else s2)) := by
  unfold mbxFinish
  cases s.rst.minimal && !offered
  · simp only [Bool.false_eq_true, if_false, rOk, rFlash]
  · simp [rOk, rFlash, rNotNow]

theorem mbxCommand_mine (code : Nat) (s : State) (hb : s.mgt.busy = true) (h : fld s.mgt.cmd 7 0 = code) :
    mbxCommand code s = mbxFinish (mbxBody code).1 (mbxBody code).2 s := by
  simp only [mbxCommand, mbxRun, hb, h, beq_self_eq_true, if_true]

theorem mbxCommand_other (code : Nat) (s : State) (hb : s.mgt.busy = true) (h : fld s.mgt.cmd 7 0 ≠ code) :
    mbxCommand code s = { s with mgt := { s.mgt with overrun := true } } := by
  simp only [mbxCommand, mbxRun, hb, beq_false_of_ne h, Bool.false_eq_true, if_false, if_true, mbxOverrun]

theorem mbxCommand_rung (code : Nat) (s : State) (hb : s.mgt.busy = false) (hr : mbxReached s = true) :
    mbxCommand code s = mbxFinish (mbxBody code).1 (mbxBody code).2 { s with mgt := { s.mgt with cmd := putBits s.mgt.cmd 0 8 code } } := by
  simp only [mbxCommand, mbxRun, hb, hr, Bool.not_true, Bool.false_eq_true, if_false]

theorem mbxUnknown_ends (s : State) (hb : s.mgt.busy = false) (hr : mbxReached s = true) : mbxUnknown s = mbxEnd 1 s := by
  simp only [mbxUnknown, mbxRun, hb, hr, Bool.not_true, Bool.false_eq_true, if_false]
  rw [mbxFinish_eq]
  simp [rUnknown]

/-! ### The lifetime record -/

theorem lifeUpdate_eq (s : State) (hm : s.rst.minimal = false) :
    lifeUpdate s = (let s1 := (List.range 36).foldl lifeBlock s
      let s2 := { s1 with mgt := { s1.mgt with lifeCnt := s.flt.map FltBlock.cnt, lifeTenths := (s.mgt.lifeTenths + 1) % 10 } }
      if s.mgt.lifeTenths = 9 then lifeSecond s2 else s2) := by
  simp only [lifeUpdate, hm, Bool.false_eq_true, if_false]

theorem lcAdvance_eq (s : State) :
    lcAdvance s = (let target := (s.mgt.args.getD 0 0).toNat
      if s.rst.minimal ∧ target ≠ 3 then (s, 2)
      else if 3 < target then (s, 3)
      else if lcAllowed s target = false then (s, 7)
      else if target = 3 ∧ tokenOk s = false then (s, 4)
      else ({ s with mgt := { s.mgt with fuses := { s.mgt.fuses with lc := putBit s.mgt.fuses.lc (target - 1) true } } }, 0)) := by
  simp only [lcAdvance, mbxArg, Bool.not_eq_true', blow, rNotNow, rBadArg, rLifecycle, rAuth, rOk]

theorem lifeWrite_good (s : State) (hm : s.rst.minimal = false) (hf : s.mgt.flashBad = false) :
    lifeWrite s = { s with mgt :=
      { (s.mgt.eraseSector (lifeCopy (s.mgt.lifeSeq + 1))).program (lifeCopy (s.mgt.lifeSeq + 1)) (lifeBytes s (s.mgt.lifeSeq + 1)) with
        lifeSeq := s.mgt.lifeSeq + 1, lifeFlash := s.mgt.life } } := by
  simp only [lifeWrite, hm, hf, Bool.false_eq_true, if_false]

theorem lifeWrite_bad (s : State) (hm : s.rst.minimal = false) (hf : s.mgt.flashBad = true) :
    lifeWrite s = fire { b := bMGT, src := 8 } s := by
  simp only [lifeWrite, hm, hf, Bool.false_eq_true, if_false, if_true]

/-- Settles O58: every mailbox command ends as R450 says, by the equation of its code; the lifetime record by its own two. -/
theorem mailboxAndLifetime : Obligations.MailboxAndLifetime := by
  unfold Obligations.MailboxAndLifetime
  refine ⟨fun s => rfl, ?rows, fun s hr hb hx => Laws.run_next _ hr (mbxUnknown_ends s hb hx), fun r s => rfl,
    fun s => ⟨rfl, rfl, rfl, rfl, lcAdvance_eq s⟩, ?flash, fun s hr hm => Laws.run_next _ hr (lifeUpdate_eq s hm)⟩
  case rows =>
    intro c code s hr hc b done
    have hexec : exec c s = run s (mbxCommand code) := exec_mailboxRow hc s
    have hdone : ∀ s1, mbxFinish (mbxBody code).1 (mbxBody code).2 s1 = done s1 := fun s1 => mbxFinish_eq _ _ s1
    refine ⟨fun hb h => hexec.trans (Laws.run_next _ hr ((mbxCommand_mine code s hb h).trans (hdone s))),
      fun hb h => hexec.trans (Laws.run_next _ hr (mbxCommand_other code s hb h)),
      fun hb hx => hexec.trans (Laws.run_next _ hr ((mbxCommand_rung code s hb hx).trans (hdone _)))⟩
  case flash =>
    intro s hs hm
    exact ⟨fun hf => Laws.run_keep _ hs (lifeWrite_good s hm hf) rfl rfl rfl, fun hf => Laws.run_next _ hs.1 (lifeWrite_bad s hm hf)⟩

end Sys2Proof.Proofs
end

section
/-!
PROOFS. Chapters 18 and 19: the reset sources, what a device held in reset does not do, and the test access port.
-/
namespace Sys2Proof.Proofs
open Sys2Proof Sys2Proof.Machine

/-! ### What holds a reset -/

theorem mayStart_iff (s : State) : mayStart s = true ↔
    s.rst.inReset = true ∧ s.rst.pinLow = false ∧ s.rst.porOn = false ∧ s.rst.noXtal = false ∧ s.rst.monOut = [] := by
  simp only [mayStart, Bool.and_eq_true, Bool.not_eq_true', List.isEmpty_iff, and_assoc]

theorem mayStart_false {s : State} (h : s.rst.pinLow = true ∨ s.rst.porOn = true ∨ s.rst.noXtal = true ∨ s.rst.monOut ≠ []) :
    mayStart s = false := by
  rw [← Bool.not_eq_true, mayStart_iff]
  rintro ⟨-, hp, hd, hx, hm⟩
  rw [hp, hd, hx] at h
  simp [hm] at h

theorem resetAssert_running (s : State) (hr : s.rst.inReset = false) : resetAssert s = assertPoint s := by
  simp only [resetAssert, hr, Bool.false_eq_true, if_false]

theorem resetAssert_held (s : State) (hr : s.rst.inReset = true) : resetAssert s = { s with rst := { s.rst with pinLow := true } } := by
  simp only [resetAssert, hr, if_true]

theorem xtalLoss_running (s : State) (hr : s.rst.inReset = false) :
    xtalLoss s = { heldThrough s with rst := { (heldThrough s).rst with noXtal := true } } := by
  simp only [xtalLoss, hr, Bool.false_eq_true, if_false]

theorem xtalLoss_held (s : State) (hr : s.rst.inReset = true) : xtalLoss s = { s with rst := { s.rst with noXtal := true } } := by
  simp only [xtalLoss, hr, if_true]

/-- R429: every core comes out of a reset as at power-on. -/
theorem heldThrough_core (s : State) : ∀ k ∈ (heldThrough s).cores, k = {} := by
  have h : (heldThrough s).cores = List.replicate 16 {} := rfl
  rw [h]
  exact fun k hk => List.eq_of_mem_replicate hk

theorem resetRelease_low (hold : Word) (g : StartIn) (s : State) (hr : s.rst.inReset = true) (hp : s.rst.pinLow = true) {s1 : State}
    (h1 : { s with rst := { s.rst with pinLow := false } } = s1) :
    resetRelease hold g s =
      if !mayStart s1 then s1 else release g (if s.rst.cause then { s1 with rst := { s1.rst with holdXtal := hold } } else s1) := by
  subst h1
  simp only [resetRelease, hr, hp, Bool.not_true, Bool.or_self, Bool.false_eq_true, if_false]

theorem detectorRelease_on (d32 : Bool) (out : List (Fin 12)) (s : State) (hp : s.rst.porOn = true) {s1 : State}
    (h1 : { s with rst := { s.rst with porOn := false, monOut := out.map Fin.val }, drc := { s.drc with attached := d32 } } = s1) :
    detectorRelease d32 out s = if mayStart s1 then release {} s1 else s1 := by
  subst h1
  simp only [detectorRelease, hp, Bool.not_true, Bool.false_eq_true, if_false]

theorem xtalReturn_absent (g : StartIn) (s : State) (hx : s.rst.noXtal = true) {s1 : State}
    (h1 : { s with rst := { s.rst with noXtal := false, xtalLost := true } } = s1) :
    xtalReturn g s = if mayStart s1 then release g s1 else s1 := by
  subst h1
  simp only [xtalReturn, hx, Bool.not_true, Bool.false_eq_true, if_false]

theorem bootVoltage_waiting (m : Nat) (mv : BitVec 16) (s : State) (hm : s.rst.monOut ≠ []) {r : Word}
    (hword : BitVec.ofNat 32 (2 ^ 31 + mv.toNat) = r) {s1 : State}
    (h1 : { s with mgt := { s.mgt with vmon := putAt 0 s.mgt.vmon m r } } = s1) :
    bootVoltage m mv s = (if inVolts s m r then
        (let s2 := { s1 with rst := { s1.rst with monOut := s1.rst.monOut.filter (· != m) } }
        if mayStart s2 then release {} s2 else s2)
      else
        (let s3 := { s1 with rst := { s1.rst with monOut := [] } }
        if mayStart s3 then settle (onset { b := bMGT, src := 2, det := BitVec.ofNat 32 m } (outOfReset s3)) else s1)) := by
  subst hword h1
  have he : s.rst.monOut.isEmpty = false := by rw [← Bool.not_eq_true, List.isEmpty_iff]; exact hm
  simp only [bootVoltage, he, Bool.false_eq_true, if_false]

theorem startLimit_passes (s : State) (hr : s.rst.ready = false) (hl : s.rst.late = false) :
    startLimit s = (let s1 := passNs s (s.rst.releaseAt + s.rst.startLimit * 1000000 - s.clk.ns)
      { s1 with rst := { s1.rst with late := true } }) := by
  simp only [startLimit, hr, hl, Bool.or_self, Bool.false_eq_true, if_false]

/-- A command of the table that runs changes nothing in a reset. -/
theorem exec_inReset (c : Instr) (s : State) (h : s.rst.inReset = true) (hw : c.wellFormed = true) (hr : c.isReset s = false)
    (ht : c.isTck = false) : exec c s = .next s := by
  obtain ⟨f, hf⟩ := exec_runs c s hw hr ht
  exact hf.trans (Laws.run_reset f h)

theorem step_inReset (s : State) (h : s.rst.inReset = true) (hp : s.pending = []) : step s = .next s := by
  unfold step
  rw [hp]
  simp only [idle, h, if_true]

/-- Settles O59: each reset source by its own equation; every other command runs, and so does nothing in a reset. -/
theorem resetSources : Obligations.ResetSources := by
  unfold Obligations.ResetSources
  refine ⟨⟨?warm, ?held, fun s => rfl, ?release, ?detector, ?xtal, ?volt, fun s hr => Laws.run_next _ hr rfl,
    fun s hr hn hl => Laws.run_next _ hr (startLimit_passes s hn hl), fun s hs => Laws.run_keep _ hs rfl rfl rfl rfl⟩, exec_inReset, step_inReset⟩
  case warm =>
    intro s hr t
    exact ⟨congrArg Host.Outcome.next (resetAssert_running s hr), congrArg Host.Outcome.next (xtalLoss_running s hr), rfl, rfl, rfl, rfl, rfl, rfl,
      rfl, rfl, heldThrough_core s, rfl⟩
  case held =>
    intro s hr
    exact ⟨congrArg Host.Outcome.next (resetAssert_held s hr), congrArg Host.Outcome.next (xtalLoss_held s hr)⟩
  case release =>
    intro hold g s hr hp s1
    have heq := resetRelease_low hold g s hr hp (rfl : _ = s1)
    refine ⟨fun h => congrArg Host.Outcome.next (heq.trans (if_pos ?_)), fun hd hx hm => congrArg Host.Outcome.next (heq.trans (if_neg ?_))⟩
    · rw [mayStart_false (s := s1) (.inr h)]; rfl
    · rw [(mayStart_iff s1).mpr ⟨hr, rfl, hd, hx, hm⟩]; exact Bool.false_ne_true
  case detector =>
    intro d32 out s hr hp s1
    have heq := detectorRelease_on d32 out s hp (rfl : _ = s1)
    refine ⟨fun h => congrArg Host.Outcome.next (heq.trans (if_neg ?_)), fun hp hx ho => congrArg Host.Outcome.next (heq.trans (if_pos ?_))⟩
    · have hout : out ≠ [] → s1.rst.monOut ≠ [] := fun ho hm => ho (List.map_eq_nil_iff.mp hm)
      exact ne_true_of_eq_false (mayStart_false (s := s1) (h.imp id fun h => .inr (h.imp id hout)))
    · exact (mayStart_iff s1).mpr ⟨hr, hp, rfl, hx, by rw [List.map_eq_nil_iff]; exact ho⟩
  case xtal =>
    intro g s hr hx s1
    have heq := xtalReturn_absent g s hx (rfl : _ = s1)
    refine ⟨fun h => congrArg Host.Outcome.next (heq.trans (if_neg ?_)), fun hp hd hm => congrArg Host.Outcome.next (heq.trans (if_pos ?_))⟩
    · exact ne_true_of_eq_false (mayStart_false (s := s1) (h.imp id fun h => h.imp id .inr))
    · exact (mayStart_iff s1).mpr ⟨hr, hp, hd, rfl, hm⟩
  case volt =>
    intro m mv s hr hm r s1 s2 s3
    have hexec : exec (.voltageMonitorTrip m mv) s = .next (bootVoltage m mv s) := if_pos hr
    have heq := bootVoltage_waiting m mv s hm (rfl : _ = r) (rfl : _ = s1)
    exact ⟨fun h => hexec.trans (congrArg Host.Outcome.next (heq.trans (if_pos h))),
      fun h => hexec.trans (congrArg Host.Outcome.next (heq.trans (if_neg (ne_true_of_eq_false h))))⟩

/-! ### The test access port -/

theorem tapRise_ir (tms tdi : Bool) (s : State) : (tapRise tms tdi s).tap.ir = s.tap.ir := by
  unfold tapRise
  dsimp only
  split <;> rfl

theorem tapRise_shDr (tms tdi : Bool) (s : State) (h : s.tap.st = .shDr) : (tapRise tms tdi s).tap.dr = s.tap.dr.drop 1 ++ [tdi] := by
  simp only [tapRise, h, shiftIn]

theorem tapRise_capIr (tms tdi : Bool) (s : State) (h : s.tap.st = .capIr) : (tapRise tms tdi s).tap.irShift = 1 := by
  simp only [tapRise, h]

theorem updateDr_st (s : State) : (updateDr s).tap.st = s.tap.st := by
  unfold updateDr
  split <;> rfl

theorem tapFall_st (s : State) : (tapFall s).tap.st = s.tap.st := by
  unfold tapFall
  split
  · rfl
  · rfl
  · exact updateDr_st _
  · rfl
  · rfl
  · rfl

theorem tapFall_upIr (s : State) (h : s.tap.st = .upIr) : (tapFall s).tap.ir = s.tap.irShift := by
  simp only [tapFall, h]

theorem tapFall_shDr (s : State) (h : s.tap.st = .shDr) : (tapFall s).tap.tdo = s.tap.dr.headD false ∧ (tapFall s).tap.tdoOn = true := by
  simp only [tapFall, h, and_self]

theorem tckEdge_off (r tms tdi trst : Bool) (s : State) (h : pinsOff s = true) : tckEdge r tms tdi trst s = s := by
  simp only [tckEdge, h, if_true]

theorem tckEdge_reset (r tms tdi : Bool) (s : State) (h : pinsOff s = false) : tckEdge r tms tdi false s = tapReset s := by
  simp only [tckEdge, h, Bool.not_false, Bool.false_eq_true, if_false, if_true]

theorem tckEdge_rise (tms tdi : Bool) (s : State) (h : pinsOff s = false) : tckEdge true tms tdi true s = tapRise tms tdi s := by
  simp only [tckEdge, h, Bool.not_true, Bool.false_eq_true, if_false, if_true]

theorem tckEdge_fall (tms tdi : Bool) (s : State) (h : pinsOff s = false) : tckEdge false tms tdi true s = tapFall s := by
  simp only [tckEdge, h, Bool.not_true, Bool.false_eq_true, if_false]

/-- An edge of TCK changes the port and the count of free values, and nothing else. -/
theorem tckEdge_only (r tms tdi trst : Bool) (s : State) :
    tckEdge r tms tdi trst s = { s with tap := (tckEdge r tms tdi trst s).tap, freeSeq := (tckEdge r tms tdi trst s).freeSeq } := by
  obtain ⟨t, n, h⟩ := Laws.tckEdge_eq r tms tdi trst s
  rw [h]

/-- Settles O60: an edge changes the port alone, as the controller's state says. -/
theorem testAccessPort : Obligations.TestAccessPort := by
  intro rising tms tdi trst s
  refine ⟨(tckEdge rising tms tdi trst s).tap, (tckEdge rising tms tdi trst s).freeSeq, congrArg Host.Outcome.next (tckEdge_only ..), ?off, ?reset, ?rise, ?fall⟩
  case off => intro h; rw [tckEdge_off _ _ _ _ s h]; exact ⟨rfl, rfl⟩
  case reset =>
    intro h ht
    subst ht
    rw [tckEdge_reset _ _ _ s h]
    exact ⟨rfl, rfl⟩
  case rise =>
    intro h ht hr
    subst ht hr
    rw [tckEdge_rise _ _ s h]
    exact ⟨rfl, tapRise_ir .., tapRise_shDr tms tdi s, tapRise_capIr tms tdi s⟩
  case fall =>
    intro h ht hr
    subst ht hr
    rw [tckEdge_fall _ _ s h]
    exact ⟨tapFall_st s, tapFall_upIr s, tapFall_shDr s⟩

end Sys2Proof.Proofs
end
